-- ==== Sys2Proof/Word.lean ====
section
/-! DEFINITION. The word types of the B412 model: octets, 16-bit counts and the bounded numbers that name the rack's
objects (00_scope.md sections 3.1 and 3.2). -/

namespace Sys2Proof

/-- An octet of loop, management or custody data (11_wire_formats.md). -/
abbrev Byte := BitVec 8

/-- A 16-bit pulse count or station timestamp, wrapping at 65 536 (Table 0-4). -/
abbrev Half := BitVec 16

/-- Bays are numbered 0 to 3. -/
abbrev BayId := Fin 4
/-- Arms are numbered 0 to 11. -/
abbrev ArmId := Fin 12
/-- Injector channels are numbered 0 to 15. -/
abbrev Chan := Fin 16
/-- Product entries are indexed 0 to 15. -/
abbrev ProdIdx := Fin 16
/-- Local lines are L0 to L15. -/
abbrev LineId := Fin 16
/-- Note slots are numbered 0 to 127. -/
abbrev SlotId := Fin 128
/-- Loop addresses: field stations take 1 to 31; 0 is the gateway's and never names a station. -/
abbrev Addr := Fin 32

end Sys2Proof
end

