-- ==== Sys2Proof/Config.lean ====
section
/-! DEFINITION. The values the manual leaves open, as constants without a body: nothing in Lean can evaluate them or
prove a value of one. -/

namespace Sys2Proof

/-- R111: a custody write cut off by loss of power or by a hard reset leaves its record with the content before the
write or with the content written, and the manual does not say which. The index is the model's own counter of such
cuts (notes/assumptions/4.md). -/
opaque Config.cutWriteLands : Nat → Bool

/-- An octet of a note slot's body that no body write has stored (R137 reads a whole body by the counts that its header
gives): slot and offset name it (notes/assumptions/15.md). -/
opaque Config.unwrittenBodyOctet : Nat → Nat → BitVec 8

end Sys2Proof
end

