-- ==== Sys2Proof/Syntax.lean ====
section
/-! DEFINITION. The commands of the B412: one constructor of `Instr` per row of spec/opcode_table.json, with the typed
operands that the row's request or event carries. Request operands follow Tables 10-4 and 10-5; a table record is a
structure with one optional entry per field, since each field travels with a presence octet (R185). -/

namespace Sys2Proof

/-- Whether a preset is compared with gross or with net volume (Table 0-5). -/
inductive Basis | gross | net
deriving DecidableEq, Repr

/-- What a recipe line does when its dosing fails verification (Table 1-2). -/
inductive FaultAction | stop | flag
deriving DecidableEq, Repr

/-- Acceptance kind of an injector (Table 3-1). -/
inductive Acceptance | single | buffered
deriving DecidableEq, Repr

/-- State field of a permit (Table 5-1). -/
inductive PermitState | valid | suspended
deriving DecidableEq, Repr

/-- State field of an account (Table 5-2). -/
inductive AccountState | opened | stopped
deriving DecidableEq, Repr

/-- Station kinds (Table 8-1). -/
inductive StationKind | meter | temp | valve | panel | permit | injector
deriving DecidableEq, Repr

/-- Line modes (Table 9-1). -/
inductive LineMode | input | inputDebounced | outputPush | outputOpen
deriving DecidableEq, Repr

/-- A level at a pin (Table 9-1). -/
inductive Level | high | low
deriving DecidableEq, Repr

/-- Line functions (Table 9-1). The bay operand is as written; LINE SET refuses one above 3. -/
inductive LineFunc
  | general | esdIn | powerfailIn | holdIn
  | groundIn (bay : Nat) | overfillIn (bay : Nat) | beaconOut (bay : Nat)
  | faultOut
deriving DecidableEq, Repr

/-- Source of a permissive (Table 4-1): a PERMIT station's address or a local line. -/
inductive Source | station (addr : Nat) | line (n : Nat)
deriving DecidableEq, Repr

/-- A point of a meter-factor curve (Table 1-1). -/
structure CurvePoint where
  q  : Nat
  mf : Nat
deriving DecidableEq, Repr

/-- An entry of an arm's additive map (Table 1-1). -/
structure MapEntry where
  code    : Nat
  channel : Nat
deriving DecidableEq, Repr

/-- A recipe line of a product (Table 1-2). -/
structure RecipeLine where
  code   : Nat
  dose   : Nat
  action : FaultAction
deriving DecidableEq, Repr

/-- The record of a TABLE WRITE to the arm table (Table 1-1). -/
structure ArmWrite where
  bay         : Option Nat
  product     : Option Nat
  meter       : Option Nat
  temp        : Option Nat
  valve       : Option Nat
  kFactor     : Option Nat
  curve       : Option (List CurvePoint)
  qMax        : Option Nat
  closeAhead  : Option Nat
  additiveMap : Option (List MapEntry)
  inService   : Option Bool
deriving DecidableEq, Repr

/-- The record of a TABLE WRITE to the product table (Table 1-2). -/
structure ProductWrite where
  code     : Option Nat
  alpha    : Option Nat
  fallback : Option Int
  basis    : Option Basis
  startVol : Option Nat
  taperVol : Option Nat
  overrun  : Option Nat
  classes  : Option Byte
  recipe   : Option (List RecipeLine)
deriving DecidableEq, Repr

/-- The record of a TABLE WRITE to the injector table (Table 3-1). -/
structure InjectorWrite where
  station    : Option Nat
  code       : Option Nat
  shot       : Option Nat
  kFactor    : Option Nat
  acceptance : Option Acceptance
  tolerance  : Option Nat
  window     : Option Nat
  timeout    : Option Nat
deriving DecidableEq, Repr

/-- The record of a TABLE WRITE to the bay table (Table 4-1). -/
structure BayWrite where
  panel    : Option Nat
  ground   : Option Source
  overfill : Option Source
deriving DecidableEq, Repr

/-- The record of a TABLE WRITE to the permit table (Table 5-1). Sets are octets with bit i for member i (R185). -/
structure PermitWrite where
  credential : Option Nat
  driver     : Option Nat
  classes    : Option Byte
  expiry     : Option Nat
  bays       : Option Byte
  state      : Option PermitState
deriving DecidableEq, Repr

/-- The record of a TABLE WRITE to the account table (Table 5-2). Reserved allocations are AU's: a frame that carries them
does not write them (notes/assumptions/10.md). -/
structure AccountWrite where
  number      : Option Nat
  state       : Option AccountState
  enforcement : Option Bool
  remaining   : Option (List Int)
  reserved    : Option (List Nat)
deriving DecidableEq, Repr

/-- The record of a TABLE WRITE to the station table (Table 8-1). -/
structure StationWrite where
  kind  : Option StationKind
  bay   : Option Nat
  index : Option Nat
deriving DecidableEq, Repr

/-- The record of a TABLE WRITE to the rack settings (Table 10-6), in ms, ms, ms, s, s, s. -/
structure SettingsWrite where
  minInterval  : Option Nat
  sweepTimeout : Option Nat
  debounce     : Option Nat
  authTimeout  : Option Nat
  resumeWindow : Option Nat
  valveTravel  : Option Nat
deriving DecidableEq, Repr

/-- A compartment line as ORDER ADD carries it (Table 5-5). -/
structure LineWrite where
  compartment : Option Nat
  product     : Option Nat
  preset      : Option Nat
  basis       : Option Basis
  capacity    : Option Nat
deriving DecidableEq, Repr

/-- A whole order as ORDER ADD carries it (Table 5-3, R95). -/
structure OrderWrite where
  number     : Option Nat
  account    : Option Nat
  credential : Option Nat
  expiry     : Option Nat
  lines      : Option (List LineWrite)
deriving DecidableEq, Repr

/-- The record of a LINE SET (Table 9-1). -/
structure LineWriteRec where
  mode   : Option LineMode
  func   : Option LineFunc
  active : Option Level
deriving DecidableEq, Repr

/-- What a NOTE READ names (R136). -/
inductive NoteTarget | number (n : Nat) | bay (b : Nat)
deriving DecidableEq, Repr

/-- The five object kinds of STATUS READ (R185). -/
inductive StatusObj | rack | bay | arm | station | injector
deriving DecidableEq, Repr

/-- The commands: every row of spec/opcode_table.json. A request carries its tag and its operands; `none` for the
operands stands for a frame of that kind whose length or operand form is not valid (R178 check 2). -/
inductive Instr
  /-- HARD_RESET: power-on or assertion of the RESET line. -/
  | hardReset
  /-- POWER_LOSS: loss of supply. -/
  | powerLoss
  /-- SWEEP_LAUNCH: both conditions of R143 hold and LM launches the next sweep. -/
  | sweepLaunch
  /-- SWEEP_RETURN: these octets arrive at loop-in. -/
  | sweepReturn (frame : List Byte)
  /-- FRAME_DISCARDED: these octets arrive at loop-in. -/
  | frameDiscarded (frame : List Byte)
  /-- SWEEP_TIMEOUT: the sweep timeout runs out. -/
  | sweepTimeout
  /-- AUTHORIZATION_TIMER_EXPIRY: a bay's authorization timer runs out. -/
  | authorizationTimerExpiry (bay : BayId)
  /-- RESUME_TIMER_EXPIRY: a bay's resume timer runs out. -/
  | resumeTimerExpiry (bay : BayId)
  /-- TRAVEL_TIMER_EXPIRY: an arm's travel timer runs out. -/
  | travelTimerExpiry (arm : ArmId)
  /-- SHOT_TIMEOUT: the shot timeout of the shot in flight with this token runs out. -/
  | shotTimeout (channel : Chan) (token : Nat)
  /-- RACK_CLOCK_SECOND: one second of the clock input has passed. -/
  | rackClockSecond
  /-- PIN_LEVEL_CHANGE: the pin of a line comes to this level. -/
  | pinLevelChange (line : LineId) (level : Level)
  /-- DEBOUNCE_TIMER_EXPIRY: a line's debounce timer runs out. -/
  | debounceTimerExpiry (line : LineId)
  /-- CUSTODY_WRITE_COMPLETE: the custody write in progress completes good or failed. -/
  | custodyWriteComplete (good : Bool)
  | requestUnknownKind (kind tag : Byte)
  | tableWriteArm (tag : Byte) (ops : Option (Nat × ArmWrite))
  | tableClearArm (tag : Byte) (ops : Option Nat)
  | tableWriteProduct (tag : Byte) (ops : Option (Nat × ProductWrite))
  | tableClearProduct (tag : Byte) (ops : Option Nat)
  | tableWriteInjector (tag : Byte) (ops : Option (Nat × InjectorWrite))
  | tableClearInjector (tag : Byte) (ops : Option Nat)
  | tableWriteBay (tag : Byte) (ops : Option (Nat × BayWrite))
  | tableClearBay (tag : Byte) (ops : Option Nat)
  | tableWritePermit (tag : Byte) (ops : Option (Nat × PermitWrite))
  | tableClearPermit (tag : Byte) (ops : Option Nat)
  | tableWriteAccount (tag : Byte) (ops : Option (Nat × AccountWrite))
  | tableClearAccount (tag : Byte) (ops : Option Nat)
  | tableWriteStation (tag : Byte) (ops : Option (Nat × StationWrite))
  | tableClearStation (tag : Byte) (ops : Option Nat)
  | tableWriteRackSettings (tag : Byte) (ops : Option (Nat × SettingsWrite))
  | tableClearRackSettings (tag : Byte) (ops : Option Nat)
  /-- TABLE_READ: table number and index. -/
  | tableRead (tag : Byte) (ops : Option (Nat × Nat))
  /-- TABLE_READ_ORDER_QUEUE: a place in the order queue. -/
  | tableReadOrderQueue (tag : Byte) (ops : Option Nat)
  | orderAdd (tag : Byte) (ops : Option OrderWrite)
  | orderCancel (tag : Byte) (ops : Option Nat)
  | bayOpen (tag : Byte) (ops : Option Nat)
  | bayClose (tag : Byte) (ops : Option Nat)
  | bayHold (tag : Byte) (ops : Option Nat)
  | bayRelease (tag : Byte) (ops : Option Nat)
  | rackHold (tag : Byte) (ops : Option Unit)
  | rackRelease (tag : Byte) (ops : Option Unit)
  | loadFinish (tag : Byte) (ops : Option Nat)
  | esdClear (tag : Byte) (ops : Option Unit)
  | tripClear (tag : Byte) (ops : Option Nat)
  | injectorClear (tag : Byte) (ops : Option Nat)
  | noteRead (tag : Byte) (ops : Option (NoteTarget × Nat))
  | noteRelease (tag : Byte) (ops : Option Nat)
  | totalizerRead (tag : Byte) (ops : Option Nat)
  | totalizerAck (tag : Byte) (ops : Option Nat)
  /-- STATUS_READ: object kind, index, starting element. -/
  | statusRead (tag : Byte) (ops : Option (StatusObj × Nat × Nat))
  /-- CLOCK_SET: day and second. -/
  | clockSet (tag : Byte) (ops : Option (Nat × Nat))
  | lineSet (tag : Byte) (ops : Option (Nat × LineWriteRec))
  /-- LINE_DRIVE: line and whether it is asked for asserted. -/
  | lineDrive (tag : Byte) (ops : Option (Nat × Bool))
  | restart (tag : Byte) (ops : Option Unit)
  /-- TABLE_REQUEST_BAD_TABLE: a TABLE WRITE (`clear` false) or TABLE CLEAR (`clear` true) naming a table that does not
  exist or does not take it; `none` when the frame lacks its table number or its index, or is too long
  (notes/assumptions/28.md). -/
  | tableRequestBadTable (tag : Byte) (clear : Bool) (table : Option Nat)
  /-- FRAME_TOO_SHORT: a request frame with no tag; the operand is the kind octet when there is one. -/
  | frameTooShort (kind : Option Byte)
deriving DecidableEq, Repr

end Sys2Proof
end

