-- ==== Sys2Proof/Machine/Arith.lean ====
section
/-! DEFINITION. Helpers every block uses: octet order, checks, roundings, fixed banks of records and sparse tables. -/

namespace Sys2Proof.Machine

open Sys2Proof

/-! ### Octets (section 3.5, R185): multi-octet quantities travel most significant octet first. -/

/-- `n` in `k` octets, most significant first; a quantity above the width leaves its low octets. -/
def octets : Nat → Nat → List Byte
  | 0, _ => []
  | k + 1, n => octets k (n / 256) ++ [BitVec.ofNat 8 n]

/-- A signed quantity in `k` octets, two's complement (chapter 11). -/
def signedOctets (k : Nat) (i : Int) : List Byte := octets k (i % (256 ^ k : Nat)).toNat

/-- The number that octets spell, most significant first. -/
def fromOctets (l : List Byte) : Nat := l.foldl (fun n b => n * 256 + b.toNat) 0

/-- The signed number that octets spell, two's complement. -/
def fromSignedOctets (l : List Byte) : Int :=
  let n := fromOctets l
  if n < 256 ^ l.length / 2 then n else (n : Int) - (256 ^ l.length : Nat)

/-- Octet `i` of a frame; an octet that a frame does not have reads as 0 (notes/assumptions/18.md). -/
def octetAt (l : List Byte) (i : Nat) : Byte := l.getD i 0#8

/-- A flag as an octet: 1 set, present, valid, active or yes, 0 otherwise. No rule gives these numbers, and row 9's numbering
in listed order is not applied to them (DESIGN CHOICE; notes/assumptions/78.md). -/
def flagOctet (b : Bool) : List Byte := [if b then 1#8 else 0#8]

/-! ### Checks (R183) -/

/-- `n` shift steps of the slot and segment check, polynomial 0x2F. -/
def crc8Shift : Nat → Byte → Byte
  | 0, c => c
  | n + 1, c => crc8Shift n (if c.msb then (c <<< 1) ^^^ 0x2F#8 else c <<< 1)

/-- R183: CRC-8, polynomial 0x2F, initial value 0xFF, most significant bit first, no reflection, no final inversion. -/
def crc8 (l : List Byte) : Byte := l.foldl (fun c b => crc8Shift 8 (c ^^^ b)) 0xFF#8

/-- `n` shift steps of the custody check, polynomial 0x1021. -/
def crc16Shift : Nat → Half → Half
  | 0, c => c
  | n + 1, c => crc16Shift n (if c.msb then (c <<< 1) ^^^ 0x1021#16 else c <<< 1)

/-- R183: CRC-16, polynomial 0x1021, initial value 0xFFFF, most significant bit first, no reflection, no inversion. -/
def crc16 (l : List Byte) : Half := l.foldl (fun (c : Half) (b : Byte) => crc16Shift 8 (c ^^^ (b ++ 0#8))) 0xFFFF#16

/-- R111: the check of a totalizer record, over its gross and its net (eight octets each, R185). -/
def totalizerCheck (gross net : Nat) : Half := crc16 (octets 8 gross ++ octets 8 net)

/-- R111: the check of the next-number record. Its values run to 2^32, so five octets hold it (notes/assumptions/14.md). -/
def nextNumberCheck (n : Nat) : Half := crc16 (octets 5 n)

/-- R111: the check of a slot mark record, over its commit mark and its release mark (notes/assumptions/14.md). -/
def markCheck (commit : Option Nat) (release : Bool) : Half :=
  crc16 ((match commit with
    | none => [0#8, 0#8, 0#8, 0#8, 0#8]
    | some n => 1#8 :: octets 4 n) ++ flagOctet release)

/-! ### Roundings (section 3.3) -/

/-- Round half up of `n / d`, for quantities that are not negative. -/
def roundHalfUp (n d : Nat) : Nat := (2 * n + d) / (2 * d)

/-- Round half away from zero of `n / d`, for quantities that may be negative. -/
def roundHalfAway (n : Int) (d : Nat) : Int :=
  if 0 ≤ n then (roundHalfUp n.toNat d : Nat) else -((roundHalfUp (-n).toNat d : Nat) : Int)

/-! ### Banks: a fixed number of like records -/

/-- Record `i` of a bank. -/
def Bank.read {α : Type} {n : Nat} (v : Vector α n) (i : Fin n) : α := v.get i

/-- A bank with record `i` replaced. -/
def Bank.write {α : Type} {n : Nat} (v : Vector α n) (i : Fin n) (x : α) : Vector α n := v.set i.val x i.isLt

/-- The members of a bank's index range, in ascending order. -/
def allBays : List BayId := [0, 1, 2, 3]
/-- The arms in ascending order. -/
def allArms : List ArmId := [0, 1, 2, 3, 4, 5, 6, 7, 8, 9, 10, 11]
/-- The injector channels, product entries and lines share the range 0 to 15. -/
def allSixteen : List (Fin 16) := [0, 1, 2, 3, 4, 5, 6, 7, 8, 9, 10, 11, 12, 13, 14, 15]
/-- The field station addresses 1 to 31 in ascending order. -/
def allAddrs : List Addr :=
  [1, 2, 3, 4, 5, 6, 7, 8, 9, 10, 11, 12, 13, 14, 15, 16, 17, 18, 19, 20, 21, 22, 23, 24, 25, 26, 27, 28, 29, 30, 31]
/-- The note slots in ascending order. -/
def allSlots : List SlotId := List.finRange 128

/-! ### Sparse tables: index and record pairs, indexes strictly rising; an index not listed is an empty slot -/

/-- The record at index `i`, if the slot is not empty. -/
def Sparse.get {α : Type} (i : Nat) : List (Nat × α) → Option α
  | [] => none
  | (j, x) :: t => if i = j then some x else Sparse.get i t

/-- The table with index `i` holding `x`. -/
def Sparse.put {α : Type} (i : Nat) (x : α) : List (Nat × α) → List (Nat × α)
  | [] => [(i, x)]
  | (j, y) :: t => if i < j then (i, x) :: (j, y) :: t else if i = j then (i, x) :: t else (j, y) :: Sparse.put i x t

/-- The table with index `i` empty. -/
def Sparse.del {α : Type} (i : Nat) : List (Nat × α) → List (Nat × α)
  | [] => []
  | (j, y) :: t => if i = j then t else (j, y) :: Sparse.del i t

/-- The canonical form of a sparse table below index `n`: indexes strictly rising and all below `n`. -/
def Sparse.wf {α : Type} (n : Nat) : List (Nat × α) → Bool
  | [] => true
  | [(j, _)] => decide (j < n)
  | (j, _) :: (k, y) :: t => decide (j < k) && Sparse.wf n ((k, y) :: t)

/-- A written number as a bounded one, when it lies in range. -/
def toFin (n i : Nat) : Option (Fin n) := if h : i < n then some ⟨i, h⟩ else none

end Sys2Proof.Machine
end

