-- ==== Sys2Proof/Decode.lean ====
section
/-! DEFINITION. Reading and writing request frames (section 11.5, R185), and the host's word decoder. The opcode table gives
its rows no bits, so no word spells a command; a request frame of the management port does, and `parseFrame` reads it. -/

namespace Sys2Proof

open Sys2Proof.Machine

/-- The command a word spells by the table's bits: the table gives no row any bits, so a word spells none. -/
def decodeTableWord (_nbits _w : Nat) : Option Instr := none

/-! ### Readers: each takes what it reads off the front of the octets -/

/-- A number in `k` octets. -/
def getNat (k : Nat) (l : List Byte) : Option (Nat × List Byte) :=
  if l.length < k then none else some (fromOctets (l.take k), l.drop k)

/-- A signed number in `k` octets. -/
def getInt (k : Nat) (l : List Byte) : Option (Int × List Byte) :=
  if l.length < k then none else some (fromSignedOctets (l.take k), l.drop k)

/-- A set octet. -/
def getSet : List Byte → Option (Byte × List Byte)
  | [] => none
  | b :: t => some (b, t)

/-- A flag: an octet 0 or 1. Any other makes the request BAD_FIELD. In the arm's in-service and the account's enforcement 1 is
yes and on, 0 no and off, whichever their tables list first (notes/assumptions/10.md). -/
def getFlag : List Byte → Option (Bool × List Byte)
  | [] => none
  | b :: t => if b = 0#8 then some (false, t) else if b = 1#8 then some (true, t) else none

/-- `n` presence octets. -/
def getFlags : Nat → List Byte → Option (List Bool × List Byte)
  | 0, l => some ([], l)
  | n + 1, l =>
    match getFlag l with
    | none => none
    | some (b, t) =>
      match getFlags n t with
      | none => none
      | some (bs, u) => some (b :: bs, u)

/-- A member of an enumeration, by its place in `names`; an undefined value makes the request BAD_FIELD. -/
def getEnum {α : Type} (names : List α) : List Byte → Option (α × List Byte)
  | [] => none
  | b :: t => (names[b.toNat]?).map fun x => (x, t)

/-- A field that its presence octet says is there, or none. -/
def getIf {α : Type} (p : Bool) (g : List Byte → Option (α × List Byte)) (l : List Byte) : Option (Option α × List Byte) :=
  if p then (g l).map fun x => (some x.1, x.2) else some (none, l)

/-- `n` items. -/
def getItems {α : Type} (g : List Byte → Option (α × List Byte)) : Nat → List Byte → Option (List α × List Byte)
  | 0, l => some ([], l)
  | n + 1, l =>
    match g l with
    | none => none
    | some (x, t) =>
      match getItems g n t with
      | none => none
      | some (xs, u) => some (x :: xs, u)

/-- A list: a count octet, at most `limit`, and its items. -/
def getList {α : Type} (limit : Nat) (g : List Byte → Option (α × List Byte)) : List Byte → Option (List α × List Byte)
  | [] => none
  | b :: t => if limit < b.toNat then none else getItems g b.toNat t

/-- One reading after another. -/
def andThen {α β : Type} (x : Option (α × List Byte)) (f : α → List Byte → Option (β × List Byte)) :
    Option (β × List Byte) :=
  match x with
  | none => none
  | some (a, t) => f a t

/-- A whole operand list: nothing may follow it (R178 check 2). -/
def whole {α : Type} (x : Option (α × List Byte)) : Option α :=
  match x with
  | some (a, []) => some a
  | some (_, _ :: _) | none => none

/-! ### Enumerations, in the order their tables list them -/

/-- Table 0-5. -/
def basisNames : List Basis := [.gross, .net]
/-- Table 1-2. -/
def actionNames : List FaultAction := [.stop, .flag]
/-- Table 3-1. -/
def acceptanceNames : List Acceptance := [.single, .buffered]
/-- Table 5-1. -/
def permitStateNames : List PermitState := [.valid, .suspended]
/-- Table 5-2. -/
def accountStateNames : List AccountState := [.opened, .stopped]
/-- Table 9-1. -/
def modeNames : List LineMode := [.input, .inputDebounced, .outputPush, .outputOpen]
/-- Table 9-1. -/
def levelNames : List Level := [.high, .low]
/-- R185: STATUS READ object kinds. -/
def statusNames : List StatusObj := [.rack, .bay, .arm, .station, .injector]

/-- Station kinds, numbered 1 to 6 as section 11.2 numbers them (notes/assumptions/9.md). -/
def getKind : List Byte → Option (StationKind × List Byte)
  | [] => none
  | b :: t =>
    match b.toNat with
    | 1 => some (.meter, t)
    | 2 => some (.temp, t)
    | 3 => some (.valve, t)
    | 4 => some (.panel, t)
    | 5 => some (.permit, t)
    | 6 => some (.injector, t)
    | _ => none

/-! ### Compound fields (notes/assumptions/10.md) -/

/-- A permissive source: 0 and a station address, or 1 and a line number. -/
def getSource (l : List Byte) : Option (Source × List Byte) :=
  andThen (getFlag l) fun isLine t =>
  andThen (getNat 1 t) fun n u => some (if isLine then .line n else .station n, u)

/-- A line function: its place in Table 9-1, followed by a bay for the functions of a bay. -/
def getFunc : List Byte → Option (LineFunc × List Byte)
  | [] => none
  | b :: t =>
    match b.toNat with
    | 0 => some (.general, t)
    | 1 => some (.esdIn, t)
    | 2 => some (.powerfailIn, t)
    | 3 => some (.holdIn, t)
    | 4 => (getNat 1 t).map fun x => (.groundIn x.1, x.2)
    | 5 => (getNat 1 t).map fun x => (.overfillIn x.1, x.2)
    | 6 => (getNat 1 t).map fun x => (.beaconOut x.1, x.2)
    | 7 => some (.faultOut, t)
    | _ => none

/-- A curve point: rate, meter factor. -/
def getPoint (l : List Byte) : Option (CurvePoint × List Byte) :=
  andThen (getNat 2 l) fun q t => andThen (getNat 4 t) fun mf u => some (⟨q, mf⟩, u)

/-- An additive map entry: code, channel. -/
def getMapEntry (l : List Byte) : Option (MapEntry × List Byte) :=
  andThen (getNat 1 l) fun c t => andThen (getNat 1 t) fun ch u => some (⟨c, ch⟩, u)

/-- A recipe line: code, dose, action. -/
def getRecipe (l : List Byte) : Option (RecipeLine × List Byte) :=
  andThen (getNat 1 l) fun c t =>
  andThen (getNat 2 t) fun dose u =>
  andThen (getEnum actionNames u) fun a v => some (⟨c, dose, a⟩, v)

/-- Presence octet `i` of a record. -/
def has (p : List Bool) (i : Nat) : Bool := p.getD i false

/-! ### Records: presence octets, then the present fields (R185) -/

/-- Table 1-1. -/
def getArm (l : List Byte) : Option (ArmWrite × List Byte) :=
  andThen (getFlags 11 l) fun p l0 =>
  andThen (getIf (has p 0) (getNat 1) l0) fun bay l1 =>
  andThen (getIf (has p 1) (getNat 1) l1) fun product l2 =>
  andThen (getIf (has p 2) (getNat 1) l2) fun meter l3 =>
  andThen (getIf (has p 3) (getNat 1) l3) fun temp l4 =>
  andThen (getIf (has p 4) (getNat 1) l4) fun valve l5 =>
  andThen (getIf (has p 5) (getNat 4) l5) fun kFactor l6 =>
  andThen (getIf (has p 6) (getList 6 getPoint) l6) fun curve l7 =>
  andThen (getIf (has p 7) (getNat 2) l7) fun qMax l8 =>
  andThen (getIf (has p 8) (getNat 2) l8) fun closeAhead l9 =>
  andThen (getIf (has p 9) (getList 2 getMapEntry) l9) fun additiveMap l10 =>
  andThen (getIf (has p 10) getFlag l10) fun inService l11 =>
  some (⟨bay, product, meter, temp, valve, kFactor, curve, qMax, closeAhead, additiveMap, inService⟩, l11)

/-- Table 1-2. -/
def getProduct (l : List Byte) : Option (ProductWrite × List Byte) :=
  andThen (getFlags 9 l) fun p l0 =>
  andThen (getIf (has p 0) (getNat 1) l0) fun code l1 =>
  andThen (getIf (has p 1) (getNat 2) l1) fun alpha l2 =>
  andThen (getIf (has p 2) (getInt 2) l2) fun fallback l3 =>
  andThen (getIf (has p 3) (getEnum basisNames) l3) fun basis l4 =>
  andThen (getIf (has p 4) (getNat 2) l4) fun startVol l5 =>
  andThen (getIf (has p 5) (getNat 2) l5) fun taperVol l6 =>
  andThen (getIf (has p 6) (getNat 1) l6) fun overrun l7 =>
  andThen (getIf (has p 7) getSet l7) fun classes l8 =>
  andThen (getIf (has p 8) (getList 2 getRecipe) l8) fun recipe l9 =>
  some (⟨code, alpha, fallback, basis, startVol, taperVol, overrun, classes, recipe⟩, l9)

/-- Table 3-1. -/
def getInjector (l : List Byte) : Option (InjectorWrite × List Byte) :=
  andThen (getFlags 8 l) fun p l0 =>
  andThen (getIf (has p 0) (getNat 1) l0) fun station l1 =>
  andThen (getIf (has p 1) (getNat 1) l1) fun code l2 =>
  andThen (getIf (has p 2) (getNat 2) l2) fun shot l3 =>
  andThen (getIf (has p 3) (getNat 4) l3) fun kFactor l4 =>
  andThen (getIf (has p 4) (getEnum acceptanceNames) l4) fun acceptance l5 =>
  andThen (getIf (has p 5) (getNat 1) l5) fun tolerance l6 =>
  andThen (getIf (has p 6) (getNat 1) l6) fun window l7 =>
  andThen (getIf (has p 7) (getNat 1) l7) fun timeout l8 =>
  some (⟨station, code, shot, kFactor, acceptance, tolerance, window, timeout⟩, l8)

/-- Table 4-1. -/
def getBay (l : List Byte) : Option (BayWrite × List Byte) :=
  andThen (getFlags 3 l) fun p l0 =>
  andThen (getIf (has p 0) (getNat 1) l0) fun panel l1 =>
  andThen (getIf (has p 1) getSource l1) fun ground l2 =>
  andThen (getIf (has p 2) getSource l2) fun overfill l3 => some (⟨panel, ground, overfill⟩, l3)

/-- Table 5-1. -/
def getPermit (l : List Byte) : Option (PermitWrite × List Byte) :=
  andThen (getFlags 6 l) fun p l0 =>
  andThen (getIf (has p 0) (getNat 4) l0) fun credential l1 =>
  andThen (getIf (has p 1) (getNat 4) l1) fun driver l2 =>
  andThen (getIf (has p 2) getSet l2) fun classes l3 =>
  andThen (getIf (has p 3) (getNat 2) l3) fun expiry l4 =>
  andThen (getIf (has p 4) getSet l4) fun bays l5 =>
  andThen (getIf (has p 5) (getEnum permitStateNames) l5) fun state l6 =>
  some (⟨credential, driver, classes, expiry, bays, state⟩, l6)

/-- Table 5-2: the fields management writes; sixteen remaining allocations travel as one field. -/
def getAccount (l : List Byte) : Option (AccountWrite × List Byte) :=
  andThen (getFlags 5 l) fun p l0 =>
  andThen (getIf (has p 0) (getNat 4) l0) fun number l1 =>
  andThen (getIf (has p 1) (getEnum accountStateNames) l1) fun state l2 =>
  andThen (getIf (has p 2) getFlag l2) fun enforcement l3 =>
  andThen (getIf (has p 3) (getItems (getInt 4) 16) l3) fun remaining l4 =>
  andThen (getIf (has p 4) (getItems (getNat 4) 16) l4) fun reserved l5 =>
  some (⟨number, state, enforcement, remaining, reserved⟩, l5)

/-- Table 8-1. -/
def getStation (l : List Byte) : Option (StationWrite × List Byte) :=
  andThen (getFlags 3 l) fun p l0 =>
  andThen (getIf (has p 0) getKind l0) fun kind l1 =>
  andThen (getIf (has p 1) (getNat 1) l1) fun bay l2 =>
  andThen (getIf (has p 2) (getNat 1) l2) fun index l3 => some (⟨kind, bay, index⟩, l3)

/-- Table 10-6. -/
def getSettings (l : List Byte) : Option (SettingsWrite × List Byte) :=
  andThen (getFlags 6 l) fun p l0 =>
  andThen (getIf (has p 0) (getNat 1) l0) fun minInterval l1 =>
  andThen (getIf (has p 1) (getNat 1) l1) fun sweepTimeout l2 =>
  andThen (getIf (has p 2) (getNat 1) l2) fun debounce l3 =>
  andThen (getIf (has p 3) (getNat 2) l3) fun authTimeout l4 =>
  andThen (getIf (has p 4) (getNat 2) l4) fun resumeWindow l5 =>
  andThen (getIf (has p 5) (getNat 1) l5) fun valveTravel l6 =>
  some (⟨minInterval, sweepTimeout, debounce, authTimeout, resumeWindow, valveTravel⟩, l6)

/-- Table 5-5, as ORDER ADD carries a line. -/
def getLine (l : List Byte) : Option (LineWrite × List Byte) :=
  andThen (getFlags 5 l) fun p l0 =>
  andThen (getIf (has p 0) (getNat 1) l0) fun compartment l1 =>
  andThen (getIf (has p 1) (getNat 1) l1) fun product l2 =>
  andThen (getIf (has p 2) (getNat 2) l2) fun preset l3 =>
  andThen (getIf (has p 3) (getEnum basisNames) l3) fun basis l4 =>
  andThen (getIf (has p 4) (getNat 2) l4) fun capacity l5 => some (⟨compartment, product, preset, basis, capacity⟩, l5)

/-- Table 5-3, as ORDER ADD carries an order. -/
def getOrder (l : List Byte) : Option (OrderWrite × List Byte) :=
  andThen (getFlags 5 l) fun p l0 =>
  andThen (getIf (has p 0) (getNat 4) l0) fun number l1 =>
  andThen (getIf (has p 1) (getNat 1) l1) fun account l2 =>
  andThen (getIf (has p 2) (getNat 4) l2) fun credential l3 =>
  andThen (getIf (has p 3) (getNat 2) l3) fun expiry l4 =>
  andThen (getIf (has p 4) (getList 8 getLine) l4) fun lines l5 => some (⟨number, account, credential, expiry, lines⟩, l5)

/-- Table 9-1, as LINE SET carries it. -/
def getLineRec (l : List Byte) : Option (LineWriteRec × List Byte) :=
  andThen (getFlags 3 l) fun p l0 =>
  andThen (getIf (has p 0) (getEnum modeNames) l0) fun mode l1 =>
  andThen (getIf (has p 1) getFunc l1) fun func l2 =>
  andThen (getIf (has p 2) (getEnum levelNames) l2) fun active l3 => some (⟨mode, func, active⟩, l3)

/-- What a NOTE READ names: 0 and a note number, or 1 and a bay. -/
def getTarget (l : List Byte) : Option (NoteTarget × List Byte) :=
  andThen (getFlag l) fun isBay t =>
  if isBay then (getNat 1 t).map fun x => (.bay x.1, x.2) else (getNat 4 t).map fun x => (.number x.1, x.2)

/-- Two operands, one after the other. -/
def getBoth {α β : Type} (f : List Byte → Option (α × List Byte)) (g : List Byte → Option (β × List Byte))
    (l : List Byte) : Option ((α × β) × List Byte) :=
  andThen (f l) fun a t => andThen (g t) fun b u => some ((a, b), u)

/-- No operand. -/
def getNone (l : List Byte) : Option (Unit × List Byte) := some ((), l)

/-! ### Frames -/

/-- A TABLE WRITE: the table octet, then index and record. Of one that names no table of its kind, R178's check 2 can ask
no more than an index (notes/assumptions/28.md). -/
def parseTableWrite (tag : Byte) : List Byte → Instr
  | [] => .tableRequestBadTable tag false none
  | t :: l =>
    match t.toNat with
    | 0 => .tableWriteArm tag (whole (getBoth (getNat 1) getArm l))
    | 1 => .tableWriteProduct tag (whole (getBoth (getNat 1) getProduct l))
    | 2 => .tableWriteInjector tag (whole (getBoth (getNat 1) getInjector l))
    | 3 => .tableWriteBay tag (whole (getBoth (getNat 1) getBay l))
    | 4 => .tableWritePermit tag (whole (getBoth (getNat 2) getPermit l))
    | 5 => .tableWriteAccount tag (whole (getBoth (getNat 1) getAccount l))
    | 7 => .tableWriteStation tag (whole (getBoth (getNat 1) getStation l))
    | 8 => .tableWriteRackSettings tag (whole (getBoth (getNat 1) getSettings l))
    | n => .tableRequestBadTable tag false (if l = [] then none else some n)

/-- A TABLE CLEAR: the table octet, then the index, one octet for a table that does not take it
(notes/assumptions/28.md). -/
def parseTableClear (tag : Byte) : List Byte → Instr
  | [] => .tableRequestBadTable tag true none
  | t :: l =>
    match t.toNat with
    | 0 => .tableClearArm tag (whole (getNat 1 l))
    | 1 => .tableClearProduct tag (whole (getNat 1 l))
    | 2 => .tableClearInjector tag (whole (getNat 1 l))
    | 3 => .tableClearBay tag (whole (getNat 1 l))
    | 4 => .tableClearPermit tag (whole (getNat 2 l))
    | 5 => .tableClearAccount tag (whole (getNat 1 l))
    | 7 => .tableClearStation tag (whole (getNat 1 l))
    | 8 => .tableClearRackSettings tag (whole (getNat 1 l))
    | n => .tableRequestBadTable tag true ((whole (getNat 1 l)).map fun _ => n)

/-- A TABLE READ: the table octet, then the index, in two octets for the permit table. One that names no table of Table 10-5
carries an index of exactly one octet, or it is BAD_FIELD before it is BAD_TABLE (notes/assumptions/28.md). -/
def parseTableRead (tag : Byte) : List Byte → Instr
  | [] => .tableRead tag none
  | t :: l =>
    match t.toNat with
    | 4 => .tableRead tag ((whole (getNat 2 l)).map fun i => (4, i))
    | 6 => .tableReadOrderQueue tag (whole (getNat 1 l))
    | n => .tableRead tag ((whole (getNat 1 l)).map fun i => (n, i))

/-- A request with its kind octet, tag and operand octets (Table 10-4's kinds, numbered by R185). LINE DRIVE's operand, kind
23, is 1 for asserted and 0 for off: neither R185 nor Table 10-4 gives it numbers (notes/assumptions/10.md). -/
def parseRequest (kind tag : Byte) (l : List Byte) : Instr :=
  match kind.toNat with
  | 1 => parseTableWrite tag l
  | 2 => parseTableRead tag l
  | 3 => parseTableClear tag l
  | 4 => .orderAdd tag (whole (getOrder l))
  | 5 => .orderCancel tag (whole (getNat 4 l))
  | 6 => .bayOpen tag (whole (getNat 1 l))
  | 7 => .bayClose tag (whole (getNat 1 l))
  | 8 => .bayHold tag (whole (getNat 1 l))
  | 9 => .bayRelease tag (whole (getNat 1 l))
  | 10 => .rackHold tag (whole (getNone l))
  | 11 => .rackRelease tag (whole (getNone l))
  | 12 => .loadFinish tag (whole (getNat 1 l))
  | 13 => .esdClear tag (whole (getNone l))
  | 14 => .tripClear tag (whole (getNat 1 l))
  | 15 => .injectorClear tag (whole (getNat 1 l))
  | 16 => .noteRead tag (whole (getBoth getTarget (getNat 1) l))
  | 17 => .noteRelease tag (whole (getNat 4 l))
  | 18 => .totalizerRead tag (whole (getNat 1 l))
  | 19 => .totalizerAck tag (whole (getNat 1 l))
  | 20 => .statusRead tag (whole (andThen (getEnum statusNames l) fun o t =>
      andThen (getNat 1 t) fun i u => andThen (getNat 1 u) fun k v => some ((o, i, k), v)))
  | 21 => .clockSet tag (whole (getBoth (getNat 2) (getNat 3) l))
  | 22 => .lineSet tag (whole (getBoth (getNat 1) getLineRec l))
  | 23 => .lineDrive tag (whole (getBoth (getNat 1) getFlag l))
  | 24 => .restart tag (whole (getNone l))
  | _ => .requestUnknownKind kind tag

/-- A request frame as the command it spells (Table 11-6). -/
def parseFrame : List Byte → Instr
  | [] => .frameTooShort none
  | [k] => .frameTooShort (some k)
  | k :: t :: l => parseRequest k t l

/-! ### Writers -/

/-- A present field's octets, or none. -/
def putIf {α : Type} (f : α → List Byte) : Option α → List Byte
  | none => []
  | some x => f x

/-- The presence octet of a field. -/
def putPresent {α : Type} (o : Option α) : Byte := if o.isSome then 1#8 else 0#8

/-- A flag as an octet. -/
def putFlag (b : Bool) : List Byte := [if b then 1#8 else 0#8]

/-- A list as a count octet and its items. -/
def putList {α : Type} (f : α → List Byte) (l : List α) : List Byte := BitVec.ofNat 8 l.length :: (l.map f).flatten

/-- A member of an enumeration as its place. -/
def putEnum {α : Type} [DecidableEq α] (names : List α) (x : α) : List Byte := [BitVec.ofNat 8 (names.idxOf x)]

/-- A station kind as its code. -/
def putKind : StationKind → List Byte
  | .meter => [1#8]
  | .temp => [2#8]
  | .valve => [3#8]
  | .panel => [4#8]
  | .permit => [5#8]
  | .injector => [6#8]

/-- A permissive source. -/
def putSource : Source → List Byte
  | .station n => 0#8 :: octets 1 n
  | .line n => 1#8 :: octets 1 n

/-- A line function. -/
def putFunc : LineFunc → List Byte
  | .general => [0#8]
  | .esdIn => [1#8]
  | .powerfailIn => [2#8]
  | .holdIn => [3#8]
  | .groundIn b => 4#8 :: octets 1 b
  | .overfillIn b => 5#8 :: octets 1 b
  | .beaconOut b => 6#8 :: octets 1 b
  | .faultOut => [7#8]

/-- A curve point. -/
def putPoint (p : CurvePoint) : List Byte := octets 2 p.q ++ octets 4 p.mf
/-- An additive map entry. -/
def putMapEntry (e : MapEntry) : List Byte := octets 1 e.code ++ octets 1 e.channel
/-- A recipe line. -/
def putRecipe (r : RecipeLine) : List Byte := octets 1 r.code ++ (octets 2 r.dose ++ putEnum actionNames r.action)

/-- Table 1-1. -/
def putArm (r : ArmWrite) : List Byte :=
  [putPresent r.bay, putPresent r.product, putPresent r.meter, putPresent r.temp, putPresent r.valve,
    putPresent r.kFactor, putPresent r.curve, putPresent r.qMax, putPresent r.closeAhead, putPresent r.additiveMap,
    putPresent r.inService] ++
  (putIf (octets 1) r.bay ++ (putIf (octets 1) r.product ++ (putIf (octets 1) r.meter ++ (putIf (octets 1) r.temp ++
  (putIf (octets 1) r.valve ++ (putIf (octets 4) r.kFactor ++ (putIf (putList putPoint) r.curve ++
  (putIf (octets 2) r.qMax ++ (putIf (octets 2) r.closeAhead ++ (putIf (putList putMapEntry) r.additiveMap ++
  putIf putFlag r.inService))))))))))

/-- Table 1-2. -/
def putProduct (r : ProductWrite) : List Byte :=
  [putPresent r.code, putPresent r.alpha, putPresent r.fallback, putPresent r.basis, putPresent r.startVol,
    putPresent r.taperVol, putPresent r.overrun, putPresent r.classes, putPresent r.recipe] ++
  (putIf (octets 1) r.code ++ (putIf (octets 2) r.alpha ++ (putIf (signedOctets 2) r.fallback ++
  (putIf (putEnum basisNames) r.basis ++ (putIf (octets 2) r.startVol ++ (putIf (octets 2) r.taperVol ++
  (putIf (octets 1) r.overrun ++ (putIf (fun b => [b]) r.classes ++ putIf (putList putRecipe) r.recipe))))))))

/-- Table 3-1. -/
def putInjector (r : InjectorWrite) : List Byte :=
  [putPresent r.station, putPresent r.code, putPresent r.shot, putPresent r.kFactor, putPresent r.acceptance,
    putPresent r.tolerance, putPresent r.window, putPresent r.timeout] ++
  (putIf (octets 1) r.station ++ (putIf (octets 1) r.code ++ (putIf (octets 2) r.shot ++ (putIf (octets 4) r.kFactor ++
  (putIf (putEnum acceptanceNames) r.acceptance ++ (putIf (octets 1) r.tolerance ++ (putIf (octets 1) r.window ++
  putIf (octets 1) r.timeout)))))))

/-- Table 4-1. -/
def putBay (r : BayWrite) : List Byte :=
  [putPresent r.panel, putPresent r.ground, putPresent r.overfill] ++
  (putIf (octets 1) r.panel ++ (putIf putSource r.ground ++ putIf putSource r.overfill))

/-- Table 5-1. -/
def putPermit (r : PermitWrite) : List Byte :=
  [putPresent r.credential, putPresent r.driver, putPresent r.classes, putPresent r.expiry, putPresent r.bays,
    putPresent r.state] ++
  (putIf (octets 4) r.credential ++ (putIf (octets 4) r.driver ++ (putIf (fun b => [b]) r.classes ++
  (putIf (octets 2) r.expiry ++ (putIf (fun b => [b]) r.bays ++ putIf (putEnum permitStateNames) r.state)))))

/-- Table 5-2. -/
def putAccount (r : AccountWrite) : List Byte :=
  [putPresent r.number, putPresent r.state, putPresent r.enforcement, putPresent r.remaining, putPresent r.reserved] ++
  (putIf (octets 4) r.number ++ (putIf (putEnum accountStateNames) r.state ++ (putIf putFlag r.enforcement ++
  (putIf (fun l => (l.map (signedOctets 4)).flatten) r.remaining ++
  putIf (fun l => (l.map (octets 4)).flatten) r.reserved))))

/-- Table 8-1. -/
def putStation (r : StationWrite) : List Byte :=
  [putPresent r.kind, putPresent r.bay, putPresent r.index] ++
  (putIf putKind r.kind ++ (putIf (octets 1) r.bay ++ putIf (octets 1) r.index))

/-- Table 10-6. -/
def putSettings (r : SettingsWrite) : List Byte :=
  [putPresent r.minInterval, putPresent r.sweepTimeout, putPresent r.debounce, putPresent r.authTimeout,
    putPresent r.resumeWindow, putPresent r.valveTravel] ++
  (putIf (octets 1) r.minInterval ++ (putIf (octets 1) r.sweepTimeout ++ (putIf (octets 1) r.debounce ++
  (putIf (octets 2) r.authTimeout ++ (putIf (octets 2) r.resumeWindow ++ putIf (octets 1) r.valveTravel)))))

/-- Table 5-5. -/
def putLine (r : LineWrite) : List Byte :=
  [putPresent r.compartment, putPresent r.product, putPresent r.preset, putPresent r.basis, putPresent r.capacity] ++
  (putIf (octets 1) r.compartment ++ (putIf (octets 1) r.product ++ (putIf (octets 2) r.preset ++
  (putIf (putEnum basisNames) r.basis ++ putIf (octets 2) r.capacity))))

/-- Table 5-3. -/
def putOrder (r : OrderWrite) : List Byte :=
  [putPresent r.number, putPresent r.account, putPresent r.credential, putPresent r.expiry, putPresent r.lines] ++
  (putIf (octets 4) r.number ++ (putIf (octets 1) r.account ++ (putIf (octets 4) r.credential ++
  (putIf (octets 2) r.expiry ++ putIf (putList putLine) r.lines))))

/-- Table 9-1. -/
def putLineRec (r : LineWriteRec) : List Byte :=
  [putPresent r.mode, putPresent r.func, putPresent r.active] ++
  (putIf (putEnum modeNames) r.mode ++ (putIf putFunc r.func ++ putIf (putEnum levelNames) r.active))

/-- What a NOTE READ names. -/
def putTarget : NoteTarget → List Byte
  | .number n => 0#8 :: octets 4 n
  | .bay b => 1#8 :: octets 1 b

/-- Kind, tag and operand octets of a request; none for an event and for a request without readable operands. LINE DRIVE
sends asserted as 1 and off as 0 (notes/assumptions/10.md). -/
def encodeFrame : Instr → Option (List Byte)
  | .tableWriteArm t (some (i, r)) => some (1#8 :: t :: 0#8 :: (octets 1 i ++ putArm r))
  | .tableWriteProduct t (some (i, r)) => some (1#8 :: t :: 1#8 :: (octets 1 i ++ putProduct r))
  | .tableWriteInjector t (some (i, r)) => some (1#8 :: t :: 2#8 :: (octets 1 i ++ putInjector r))
  | .tableWriteBay t (some (i, r)) => some (1#8 :: t :: 3#8 :: (octets 1 i ++ putBay r))
  | .tableWritePermit t (some (i, r)) => some (1#8 :: t :: 4#8 :: (octets 2 i ++ putPermit r))
  | .tableWriteAccount t (some (i, r)) => some (1#8 :: t :: 5#8 :: (octets 1 i ++ putAccount r))
  | .tableWriteStation t (some (i, r)) => some (1#8 :: t :: 7#8 :: (octets 1 i ++ putStation r))
  | .tableWriteRackSettings t (some (i, r)) => some (1#8 :: t :: 8#8 :: (octets 1 i ++ putSettings r))
  | .tableClearArm t (some i) => some (3#8 :: t :: 0#8 :: octets 1 i)
  | .tableClearProduct t (some i) => some (3#8 :: t :: 1#8 :: octets 1 i)
  | .tableClearInjector t (some i) => some (3#8 :: t :: 2#8 :: octets 1 i)
  | .tableClearBay t (some i) => some (3#8 :: t :: 3#8 :: octets 1 i)
  | .tableClearPermit t (some i) => some (3#8 :: t :: 4#8 :: octets 2 i)
  | .tableClearAccount t (some i) => some (3#8 :: t :: 5#8 :: octets 1 i)
  | .tableClearStation t (some i) => some (3#8 :: t :: 7#8 :: octets 1 i)
  | .tableClearRackSettings t (some i) => some (3#8 :: t :: 8#8 :: octets 1 i)
  | .tableRead t (some (n, i)) => some (2#8 :: t :: BitVec.ofNat 8 n :: octets (if n = 4 then 2 else 1) i)
  | .tableReadOrderQueue t (some i) => some (2#8 :: t :: 6#8 :: octets 1 i)
  | .orderAdd t (some r) => some (4#8 :: t :: putOrder r)
  | .orderCancel t (some n) => some (5#8 :: t :: octets 4 n)
  | .bayOpen t (some b) => some (6#8 :: t :: octets 1 b)
  | .bayClose t (some b) => some (7#8 :: t :: octets 1 b)
  | .bayHold t (some b) => some (8#8 :: t :: octets 1 b)
  | .bayRelease t (some b) => some (9#8 :: t :: octets 1 b)
  | .rackHold t (some _) => some [10#8, t]
  | .rackRelease t (some _) => some [11#8, t]
  | .loadFinish t (some b) => some (12#8 :: t :: octets 1 b)
  | .esdClear t (some _) => some [13#8, t]
  | .tripClear t (some b) => some (14#8 :: t :: octets 1 b)
  | .injectorClear t (some c) => some (15#8 :: t :: octets 1 c)
  | .noteRead t (some (n, k)) => some (16#8 :: t :: (putTarget n ++ octets 1 k))
  | .noteRelease t (some n) => some (17#8 :: t :: octets 4 n)
  | .totalizerRead t (some a) => some (18#8 :: t :: octets 1 a)
  | .totalizerAck t (some a) => some (19#8 :: t :: octets 1 a)
  | .statusRead t (some (o, i, k)) => some (20#8 :: t :: (putEnum statusNames o ++ (octets 1 i ++ octets 1 k)))
  | .clockSet t (some (d, s)) => some (21#8 :: t :: (octets 2 d ++ octets 3 s))
  | .lineSet t (some (l, r)) => some (22#8 :: t :: (octets 1 l ++ putLineRec r))
  | .lineDrive t (some (l, v)) => some (23#8 :: t :: (octets 1 l ++ putFlag v))
  | .restart t (some _) => some [24#8, t]
  | .requestUnknownKind k t => some [k, t]
  | .tableRequestBadTable t clear (some n) => some ((if clear then 3#8 else 1#8) :: t :: [BitVec.ofNat 8 n, 0#8])
  | .frameTooShort none => some []
  | .frameTooShort (some k) => some [k]
  | _ => none

end Sys2Proof
end

