-- ==== Sys2Proof/Machine/State.lean ====
section
/-! DEFINITION. The state of the B412, block by block (00_scope.md section 2), and its value after a hard reset of a part
as it left manufacture. `Device` is the part; `State` adds the queue of commands that wait. -/

namespace Sys2Proof.Machine

open Sys2Proof

/-! ### Metering Engine (chapter 1) -/

/-- Gross and net microlitres. -/
structure Vol where
  gross : Nat
  net   : Nat
deriving DecidableEq, Repr

/-- Arm record, meter part (Table 1-1). `temp` 0 means no TEMP station. -/
structure ArmRecord where
  bay         : BayId
  product     : Nat
  meter       : Addr
  temp        : Addr
  valve       : Addr
  kFactor     : Nat
  curve       : List CurvePoint
  qMax        : Nat
  closeAhead  : Nat
  additiveMap : List (Nat × Chan)
  inService   : Bool
deriving DecidableEq, Repr

/-- Product record (Table 1-2), defaults filled in. -/
structure Product where
  code     : Nat
  alpha    : Nat
  fallback : Int
  basis    : Basis
  startVol : Nat
  taperVol : Nat
  overrun  : Nat
  classes  : Byte
  recipe   : List RecipeLine
deriving DecidableEq, Repr

/-- Source of the temperature a sample used (R14). -/
inductive TempSource | live | held | fallback
deriving DecidableEq, Repr

/-- Counts and timestamp of a meter return (R7). -/
structure Counts where
  a  : Half
  b  : Half
  ts : Half
deriving DecidableEq, Repr

/-- Per-arm meter state (Table 1-3). -/
structure Meter where
  baseline      : Counts
  baselineValid : Bool
  grossResidue  : Nat
  netResidue    : Nat
  heldTemp      : Int
  heldValid     : Bool
  currentTemp   : Int
  tempSource    : TempSource
  lastFlow      : Nat
  lastMf        : Nat
  lastVcf       : Nat
  mirror        : Vol
  unwritten     : Vol
deriving DecidableEq, Repr

/-- Table 1-3's values after hard reset; the mirror is then loaded by the start-up scan. The numbers inside an invalid
baseline and an invalid held temperature are the model's (notes/assumptions/7.md). -/
def Meter.reset : Meter where
  baseline      := ⟨0, 0, 0⟩
  baselineValid := false
  grossResidue  := 0
  netResidue    := 0
  heldTemp      := 0
  heldValid     := false
  currentTemp   := 1500
  tempSource    := .fallback
  lastFlow      := 0
  lastMf        := 0
  lastVcf       := 1000000
  mirror        := ⟨0, 0⟩
  unwritten     := ⟨0, 0⟩

/-! ### Dosing Unit (chapter 3) -/

/-- Injector record (Table 3-1), defaults filled in. `timeout` is in seconds. -/
structure InjectorRec where
  station    : Addr
  code       : Nat
  shot       : Nat
  kFactor    : Nat
  acceptance : Acceptance
  tolerance  : Nat
  window     : Nat
  timeout    : Nat
deriving DecidableEq, Repr

/-- Dosing record (Table 3-3); its kind is DOSED or SKIPPED. -/
structure Dosing where
  dosed     : Bool
  recipe    : Nat
  code      : Nat
  dose      : Nat
  action    : FaultAction
  injector  : Option Chan
  acc       : Nat
  pending   : Nat
  closeMark : Bool
  winCount  : Nat
  winVol    : Nat
  completed : Nat
  missed    : Nat
  cancelled : Nat
  delivered : Nat
  required  : Option Nat
deriving DecidableEq, Repr

/-- Which dosing record a shot belongs to: the arm and order line of its batch and its recipe line. A line is batched
once in a load (R24), so this names one record. -/
structure DoseRef where
  arm    : ArmId
  line   : Nat
  recipe : Nat
deriving DecidableEq, Repr

/-- A shot in flight (Table 3-2): token, dosing record and time of issue, in ms of the part's own count. -/
structure Shot where
  token  : Nat
  ref    : DoseRef
  issued : Nat
deriving DecidableEq, Repr

/-- What becomes of an offered shot when its answer is not an acceptance (R51, R55, R58, R59). -/
inductive OfferFate | stays | missed | cancelled
deriving DecidableEq, Repr

/-- A standing offer (Table 3-2). `onBuffer` says that one shot was in flight at the offer (R51). -/
structure Offer where
  token    : Nat
  ref      : DoseRef
  onBuffer : Bool
  fate     : OfferFate
deriving DecidableEq, Repr

/-- Injector states (Table 3-2). -/
inductive InjectorState | available | fault | disabled
deriving DecidableEq, Repr

/-- Readiness and buffer state of the last good return (Table 3-2). -/
structure ReturnView where
  ready      : Bool
  bufferFree : Bool
deriving DecidableEq, Repr

/-- Injector run-time record (Table 3-2). -/
structure Injector where
  state      : InjectorState
  inFlight   : List Shot
  offer      : Option Offer
  nextToken  : Nat
  lastServed : Option ArmId
  missed     : Nat
  view       : Option ReturnView
deriving DecidableEq, Repr

/-- Table 3-2's values after hard reset. -/
def Injector.reset : Injector := ⟨.disabled, [], none, 1, none, 0, none⟩

/-! ### Arm Controller (chapter 2) -/

/-- Valve stages (Table 2-1). -/
inductive Stage | closed | low | high
deriving DecidableEq, Repr

/-- Reported valve positions (Table 2-1). -/
inductive Position | closed | low | high | moving | fault | unknown
deriving DecidableEq, Repr

/-- Coupler states (Table 2-1). -/
inductive Coupler | latched | unlatched | unknown
deriving DecidableEq, Repr

/-- Batch phases (Table 2-4). -/
inductive Phase | start | full | taper | closeWait | interrupted | ended
deriving DecidableEq, Repr

/-- Cause of a close snapshot (Table 2-2). -/
inductive CloseCause | preset | stop
deriving DecidableEq, Repr

/-- End status of a batch (Table 2-2); NONE is the absent option. -/
inductive EndStatus | complete | short
deriving DecidableEq, Repr

/-- A day and a second of the rack clock (R180). -/
structure Time where
  day : Nat
  sec : Nat
deriving DecidableEq, Repr

/-- Batch flags (Table 2-5), in the table's order. -/
structure BatchFlags where
  countFault      : Bool
  pulseMismatch   : Bool
  tempDefaulted   : Bool
  vcfLimited      : Bool
  meterGap        : Bool
  valveFault      : Bool
  overrun         : Bool
  additiveSkipped : Bool
  additiveFault   : Bool
  doseShortfall   : Bool
deriving DecidableEq, Repr

/-- No flag set. -/
def BatchFlags.none : BatchFlags := ⟨false, false, false, false, false, false, false, false, false, false⟩

/-- Batch record (Table 2-2), with the arm it runs on and its dosing records (R45). -/
structure Batch where
  arm         : ArmId
  line        : Nat
  compartment : Nat
  product     : Nat
  preset      : Nat
  basis       : Basis
  startVol    : Nat
  taperVol    : Nat
  overrun     : Nat
  phase       : Phase
  delivered   : Vol
  snapshot    : Option (Nat × CloseCause)
  tempSum     : Int
  opening     : Vol
  closing     : Option Vol
  startTime   : Time
  endTime     : Option Time
  flags       : BatchFlags
  discarded   : Nat
  mismatches  : Nat
  throttle    : Bool
  endStatus   : Option EndStatus
  dosing      : List Dosing
deriving DecidableEq, Repr

/-- The close-ahead ring: four overruns in mL, oldest first (Table 2-1). -/
structure Ring where
  e0 : Nat
  e1 : Nat
  e2 : Nat
  e3 : Nat
deriving DecidableEq, Repr

/-- Arm controller state (Table 2-1). The commanded stage is the batch phase's (Table 2-4) and is computed from it. The
travel timer is stopped (`none`) or running with the ms it has left. -/
structure ArmCtl where
  batch      : Option Batch
  position   : Position
  coupler    : Coupler
  travel     : Option Nat
  zeroFlow   : Nat
  ring       : Ring
  closeAhead : Nat
  unassigned : Vol
  totFault   : Bool
deriving DecidableEq, Repr

/-- Table 2-1's values after hard reset. -/
def ArmCtl.reset : ArmCtl := ⟨none, .unknown, .unknown, none, 0, ⟨0, 0, 0, 0⟩, 0, ⟨0, 0⟩, false⟩

/-! ### Authorization Unit (chapter 5) -/

/-- Permit record (Table 5-1). -/
structure Permit where
  credential : Nat
  driver     : Nat
  classes    : Byte
  expiry     : Nat
  bays       : Byte
  state      : PermitState
deriving DecidableEq, Repr

/-- Account record (Table 5-2). -/
structure Account where
  number      : Nat
  state       : AccountState
  enforcement : Bool
  remaining   : Vector Int 16
  reserved    : Vector Nat 16
deriving DecidableEq, Repr

/-- Batch state of an order's line (R26). -/
inductive LineBatch | notBatched | opened | ended
deriving DecidableEq, Repr

/-- Compartment line of an order in the queue (Table 5-5). -/
structure OrderLine where
  compartment : Nat
  product     : Nat
  preset      : Nat
  basis       : Option Basis
  capacity    : Option Nat
  batch       : LineBatch
  reservation : Option ProdIdx
deriving DecidableEq, Repr

/-- Order states (R96). -/
inductive OrderState | queued | assigned | loading
deriving DecidableEq, Repr

/-- Assignment of an order (Table 5-4). -/
structure Assignment where
  bay        : BayId
  credential : Nat
  driver     : Nat
deriving DecidableEq, Repr

/-- Order record (Table 5-3). -/
structure Order where
  number     : Nat
  account    : Nat
  credential : Nat
  expiry     : Option Nat
  lines      : List OrderLine
  state      : OrderState
  assignment : Option Assignment
deriving DecidableEq, Repr

/-! ### Bay Controller (chapter 4) -/

/-- Where a bay's permissive comes from (Table 4-1). -/
inductive PermSource | station (addr : Addr) | line (l : LineId)
deriving DecidableEq, Repr

/-- Bay record (Table 4-1). -/
structure BayRecord where
  panel    : Addr
  ground   : PermSource
  overfill : PermSource
deriving DecidableEq, Repr

/-- Bay states (Table 4-3). -/
inductive BayState | closed | idle | authorized | loading | holding | held | tripped | closing | noteCommit
deriving DecidableEq, Repr

/-- Trip causes (Table 4-4). -/
inductive TripCause | ground | overfill | esd | power | valve
deriving DecidableEq, Repr

/-- A set of trip causes. -/
structure CauseSet where
  ground   : Bool
  overfill : Bool
  esd      : Bool
  power    : Bool
  valve    : Bool
deriving DecidableEq, Repr

/-- The empty set of trip causes. -/
def CauseSet.empty : CauseSet := ⟨false, false, false, false, false⟩

/-- State before hold (Table 4-2); none is the absent option. -/
inductive BeforeHold | idle | authorized | loading
deriving DecidableEq, Repr

/-- Authorization timer (Table 4-2), with the ms remaining. -/
inductive AuthTimer | stopped | running (ms : Nat) | suspended (ms : Nat)
deriving DecidableEq, Repr

/-- Display codes of a panel call (R184): bay-state codes, swipe refusal codes in the order of Table 5-6, start refusal
reasons in the order of Table 2-3. A panel message is one of them. -/
inductive Display
  | closed | ready | authorized | loading | hold | trip | lockout | closing | note
  | noClock | rackEsd | noPermit | suspended | expired | bayBarred | noOrder | class | accountStopped | allocation
  | noteStoreFull
  | esd | permissive | armNotReady | sealOpen | totalizerFault | coupler | noLine | additiveUnavailable
deriving DecidableEq, Repr

/-- Bay run-time record (Table 4-2), with the ended-batch list of R24. The assigned order is named by its number. -/
structure Bay where
  state         : BayState
  order         : Option Nat
  ground        : Bool
  overfill      : Bool
  causes        : CauseSet
  trips         : Nat
  lockout       : Bool
  holdBay       : Bool
  holdRack      : Bool
  before        : Option BeforeHold
  swipe         : Option Nat
  authTimer     : AuthTimer
  resumeTimer   : Option Nat
  seen          : CauseSet
  heldDuring    : Bool
  lockoutDuring : Bool
  message       : Option Display
  ended         : List Batch
deriving DecidableEq, Repr

/-- Table 4-2's values after hard reset. -/
def Bay.reset : Bay where
  state         := .closed
  order         := none
  ground        := false
  overfill      := false
  causes        := .empty
  trips         := 0
  lockout       := false
  holdBay       := false
  holdRack      := false
  before        := none
  swipe         := none
  authTimer     := .stopped
  resumeTimer   := none
  seen          := .empty
  heldDuring    := false
  lockoutDuring := false
  message       := none
  ended         := []

/-! ### Note Unit (chapter 7) -/

/-- Additive subline of a note line (R131). -/
structure NoteSub where
  dosed     : Bool
  recipe    : Nat
  code      : Nat
  dose      : Nat
  injector  : Option Chan
  required  : Nat
  delivered : Nat
  completed : Nat
  missed    : Nat
  cancelled : Nat
deriving DecidableEq, Repr

/-- Note line (Table 7-4). -/
structure NoteLine where
  compartment : Nat
  line        : Nat
  product     : Nat
  arm         : ArmId
  basis       : Basis
  preset      : Nat
  grossDl     : Nat
  netDl       : Nat
  avgTemp     : Int
  avgVcf      : Nat
  opening     : Vol
  closing     : Vol
  startTime   : Time
  endTime     : Time
  status      : EndStatus
  flags       : BatchFlags
  discarded   : Nat
  mismatches  : Nat
  subs        : List NoteSub
deriving DecidableEq, Repr

/-- An order line that was not loaded (Table 7-3). -/
structure NotLoaded where
  line        : Nat
  compartment : Nat
  product     : Nat
  preset      : Nat
deriving DecidableEq, Repr

/-- Note image (R129 to R131): header items and lines. The note number is absent from it (Table 7-3). -/
structure NoteImage where
  order         : Nat
  accountNumber : Nat
  accountIndex  : Nat
  credential    : Nat
  driver        : Nat
  bay           : BayId
  startTime     : Time
  endTime       : Time
  notLoaded     : List NotLoaded
  seen          : CauseSet
  heldDuring    : Bool
  lockoutDuring : Bool
  lines         : List NoteLine
deriving DecidableEq, Repr

/-- Directory entry of a slot (Table 7-1). -/
inductive SlotState
  | free
  | reserved (bay : BayId) (failed : Bool)
  | retained (number : Nat) (releasePending : Bool)
  | bad
deriving DecidableEq, Repr

/-- Note Unit bay record (Table 7-2). The stall's moment is its place in the count of stalls (notes/assumptions/23.md). -/
structure NoteBay where
  held  : Option NoteImage
  stall : Option Nat
  last  : Nat
deriving DecidableEq, Repr

/-- The Note Unit: the directory and the bay records. -/
structure Nu where
  dir      : Vector SlotState 128
  bays     : Vector NoteBay 4
  stallSeq : Nat
deriving DecidableEq, Repr

/-- Table 7-2's values after hard reset; the directory is then rebuilt by the start-up scan (R126). -/
def Nu.reset : Nu := ⟨Vector.replicate 128 .free, Vector.replicate 4 ⟨none, none, 0⟩, 0⟩

/-! ### Custody memory and Custody Writer (chapter 6) -/

/-- Totalizer record (Table 6-1). -/
structure TotRecord where
  gross : Nat
  net   : Nat
  check : Half
deriving DecidableEq, Repr

/-- Next-number record (Table 6-1). -/
structure NextRecord where
  value : Nat
  check : Half
deriving DecidableEq, Repr

/-- A note slot of custody memory (Table 6-1): body octets as written with the stored CRC-16, and the mark record. -/
structure SlotMem where
  body      : List Byte
  bodyCheck : Half
  commit    : Option Nat
  release   : Bool
  check     : Half
deriving DecidableEq, Repr

/-- Custody memory (Table 6-1). -/
structure Custody where
  totals : Vector TotRecord 12
  next   : NextRecord
  slots  : Vector SlotMem 128
deriving DecidableEq, Repr

/-- Table 6-1's contents when the part leaves manufacture. -/
def Custody.factory : Custody where
  totals := Vector.replicate 12 ⟨0, 0, totalizerCheck 0 0⟩
  next   := ⟨1, nextNumberCheck 1⟩
  slots  := Vector.replicate 128 ⟨[], 0, none, false, markCheck none false⟩

/-- Modes of the Custody Writer (Table 6-2). -/
inductive CwMode | running | draining | parked
deriving DecidableEq, Repr

/-- The three parts of a barrier's write (R118). -/
inductive BarrierPart | body | check | mark
deriving DecidableEq, Repr

/-- A POST entry (Table 6-3). `inserted` says that R116 put it ahead of a barrier. -/
structure Post where
  arm      : ArmId
  vol      : Vol
  inserted : Bool
deriving DecidableEq, Repr

/-- A BARRIER entry (Table 6-3). `part` is the next part to write. -/
structure Barrier where
  bay    : BayId
  slot   : SlotId
  image  : NoteImage
  number : Option Nat
  part   : BarrierPart
deriving DecidableEq, Repr

/-- The two kinds of queue entry (Table 6-3). -/
inductive EntryBody | post (p : Post) | barrier (b : Barrier)
deriving DecidableEq, Repr

/-- Post queue entry (Table 6-3). `id` is the model's name for the entry, by which writes and waiting reads refer to it. -/
structure QEntry where
  id      : Nat
  body    : EntryBody
  started : Bool
deriving DecidableEq, Repr

/-- What a custody write in progress writes (Table 6-2, R125). -/
inductive WriteJob
  | post (id : Nat)
  | barrier (id : Nat) (part : BarrierPart)
  | release (slot : SlotId)
  | nextNumber (n : Nat)
deriving DecidableEq, Repr

/-- Write in progress: the job and the attempt, 1 or 2 (Table 6-2). -/
structure Write where
  job     : WriteJob
  attempt : Nat
deriving DecidableEq, Repr

/-- Why a barrier is held: arms whose inserted entry failed twice (R117), or every note number used (R118). -/
inductive HeldWhy | arms (l : List ArmId) | exhausted
deriving DecidableEq, Repr

/-- The held barrier (Table 6-2), named by its bay. -/
structure HeldBarrier where
  bay : BayId
  why : HeldWhy
deriving DecidableEq, Repr

/-- The waiting TOTALIZER READ (Table 6-2): its tag, its arm and the entries it waits for. -/
structure WaitingRead where
  tag   : Byte
  arm   : ArmId
  noted : List Nat
deriving DecidableEq, Repr

/-- Custody Writer run-time state (Table 6-2). `heldNext` is the next note number held after a failed write-back (R125). -/
structure Cw where
  mode      : CwMode
  queue     : List QEntry
  write     : Option Write
  written   : Vector Vol 12
  releases  : List SlotId
  waiting   : Option WaitingRead
  held      : Option HeldBarrier
  deferrals : Nat
  failures  : Nat
  heldNext  : Option Nat
  nextId    : Nat
deriving DecidableEq, Repr

/-- Table 6-2's values after hard reset; the written values are then loaded by the start-up scan. -/
def Cw.reset : Cw := ⟨.running, [], none, Vector.replicate 12 ⟨0, 0⟩, [], none, none, 0, 0, none, 0⟩

/-! ### Loop Master (chapter 8) -/

/-- Station table entry (Table 8-1). `index` is an arm or an injector channel by the kind. -/
structure StationEntry where
  kind  : StationKind
  bay   : Option BayId
  index : Option Nat
deriving DecidableEq, Repr

/-- Station states (Table 8-2). -/
inductive StationState | unconfigured | silent | aligning | active | slipped | mismatch
deriving DecidableEq, Repr

/-- Station table entry and the record LM keeps (Tables 8-1 and 8-3). `kindSeen` is the kind code received, 7 being
reported as unknown (R184). -/
structure Station where
  entry    : Option StationEntry
  state    : StationState
  align    : Nat
  miss     : Nat
  kindSeen : Option Nat
  word     : Option Half
  round    : Half
  spoiled  : Bool
deriving DecidableEq, Repr

/-- Table 8-3's values after hard reset. -/
def Station.reset : Station := ⟨none, .unconfigured, 0, 0, none, none, 0, true⟩

/-- The outstanding sweep: its index, the addresses that have a slot in it, those whose entry has been written or cleared
since its launch (R147), and the ms its timeout has left. -/
structure Sweep where
  index   : Fin 16
  slots   : List Addr
  changed : List Addr
  timeout : Nat
deriving DecidableEq, Repr

/-- Loop Master (chapter 8). `loopOut` is what the last launched sweep carried at the loop-out port. -/
structure Lm where
  stations    : Vector Station 32
  outstanding : Option Sweep
  nextIndex   : Fin 16
  launched    : Bool
  clearFlag   : Bool
  timeouts    : Nat
  broken      : Bool
  eventErrors : Nat
  interval    : Nat
  loopOut     : List Byte
deriving DecidableEq, Repr

/-- R160: LM's values after hard reset. -/
def Lm.reset : Lm := ⟨Vector.replicate 32 Station.reset, none, 0, false, true, 0, false, 0, 0, []⟩

/-! ### Line Unit (chapter 9) -/

/-- Line functions with a bay in range (Table 9-1). -/
inductive LineFn
  | general | esdIn | powerfailIn | holdIn
  | groundIn (b : BayId) | overfillIn (b : BayId) | beaconOut (b : BayId)
  | faultOut
deriving DecidableEq, Repr

/-- Line record and run-time state (Tables 9-1 and 9-2). The drive is asserted, off or none. -/
structure Line where
  mode   : LineMode
  func   : LineFn
  active : Level
  pin    : Level
  level  : Level
  timer  : Option Nat
  drive  : Option Bool
  bound  : Bool
deriving DecidableEq, Repr

/-- Tables 9-1 and 9-2 after hard reset, with the pin as it stands. -/
def Line.reset (pin : Level) : Line := ⟨.input, .general, .high, pin, pin, none, none, false⟩

/-- The held pair of a PERMIT station, with its valid mark (section 9.3). -/
structure HeldPair where
  ground   : Bool
  overfill : Bool
  valid    : Bool
deriving DecidableEq, Repr

/-- Line Unit (chapter 9). `holdSource` is the rack hold source as last evaluated (R170). -/
structure Lu where
  lines      : Vector Line 16
  pairs      : Vector HeldPair 32
  esd        : Bool
  esdPending : Bool
  powerfail  : Bool
  mgmtHold   : Bool
  holdSource : Bool
deriving DecidableEq, Repr

/-- R171: LU's values after hard reset, over the pins as they stand. -/
def Lu.reset (pins : Vector Level 16) : Lu :=
  ⟨pins.map Line.reset, Vector.replicate 32 ⟨false, false, false⟩, false, false, false, false, false⟩

/-! ### Management Port (chapter 10) -/

/-- Status codes (Table 10-3). -/
inductive Status
  | ok | unknownKind | badTable | badIndex | badField | inUse | full | notFound | duplicate | wrongState
deriving DecidableEq, Repr

/-- An element of an answer, with the three flags of R137. -/
structure Element where
  body    : List Byte
  last    : Bool
  good    : Bool
  checked : Bool
deriving DecidableEq, Repr

/-- An answer frame (R176). -/
structure Answer where
  kind     : Byte
  tag      : Byte
  status   : Status
  elements : List Element
deriving DecidableEq, Repr

/-- Notice kinds (R177). -/
inductive NoticeKind | rack | bay | note | arm | injector | station
deriving DecidableEq, Repr

/-- Source objects of notices (R177). -/
inductive SourceObj | rack | bay (b : BayId) | arm (a : ArmId) | injector (c : Chan) | station (n : Addr)
deriving DecidableEq, Repr

/-- An entry of the notice queue (R177): kind, object, event code, the values of its fields in order, replaced count. -/
structure Notice where
  kind     : NoticeKind
  obj      : SourceObj
  event    : Nat
  fields   : List (List Byte)
  replaced : Nat
deriving DecidableEq, Repr

/-- The inbound assembly (R173), with the octets gathered and the number of segments taken. -/
inductive Assembly | idle | assembling (octs : List Byte) (segments : Nat) | discarding
deriving DecidableEq, Repr

/-- The outbound frame in progress (R174): its octets, how many are delivered, how many the outstanding sweep carries,
and whether it is an answer. -/
structure OutFrame where
  octs     : List Byte
  sent     : Nat
  inFlight : Nat
  answer   : Bool
deriving DecidableEq, Repr

/-- Rack settings record (Table 10-6), in ms, ms, ms, s, s, s. -/
structure Settings where
  minInterval  : Nat
  sweepTimeout : Nat
  debounce     : Nat
  authTimeout  : Nat
  resumeWindow : Nat
  valveTravel  : Nat
deriving DecidableEq, Repr

/-- Table 10-6's defaults. -/
def Settings.default : Settings := ⟨10, 40, 20, 300, 120, 8⟩

/-- Management Port (chapter 10). The request FIFO holds its frames as the commands they spell, the head first; the
head stays while it is in service; `reading` is the slot that a NOTE READ in service reads when its wait is over (R136). The
clock is absent while UNSET; `clockMs` counts its current second. -/
structure Mp where
  asm       : Assembly
  fifo      : List Instr
  inService : Bool
  reading   : Option SlotId
  answers   : List Answer
  reserved  : Bool
  notices   : List Notice
  out       : Option OutFrame
  ready     : Bool
  aborts    : Nat
  discards  : Nat
  settings  : Settings
  clock     : Option Time
  clockMs   : Nat
deriving DecidableEq, Repr

/-- R182: MP's values after hard reset. -/
def Mp.reset : Mp := ⟨.idle, [], false, none, [], false, [], none, false, 0, 0, .default, none, 0⟩

/-! ### The part -/

/-- Where the part stands between its resets: without supply; in the start-up scan while it writes the next note number
back (R125), with the RESTART's tag if one began it and the scan's findings (R181); running; or draining custody writes and
waiting for the outstanding sweep for a RESTART in service (R124, R143). -/
inductive Boot
  | off
  | scanning (tag : Option Byte) (badArms : List ArmId) (nextBad : Bool)
  | ready
  | draining (tag : Byte)
deriving DecidableEq, Repr

/-- The part: its tables, its blocks and its custody memory. `now` is the model's own count of ms passed, and `cuts` its
own count of custody writes cut off. -/
structure Device where
  boot     : Boot
  now      : Nat
  cuts     : Nat
  custody  : Custody
  armRecs  : Vector (Option ArmRecord) 12
  products : Vector (Option Product) 16
  meters   : Vector Meter 12
  arms     : Vector ArmCtl 12
  injRecs  : Vector (Option InjectorRec) 16
  injs     : Vector Injector 16
  bayRecs  : Vector (Option BayRecord) 4
  bays     : Vector Bay 4
  permits  : List (Nat × Permit)
  accounts : List (Nat × Account)
  orders   : List Order
  cw       : Cw
  nu       : Nu
  lm       : Lm
  lu       : Lu
  mp       : Mp
deriving DecidableEq, Repr

/-- The volatile state at its reset values, with nothing scanned yet: custody memory and the pins are the ones given. -/
def Device.cleared (boot : Boot) (cuts : Nat) (custody : Custody) (pins : Vector Level 16) : Device where
  boot     := boot
  now      := 0
  cuts     := cuts
  custody  := custody
  armRecs  := Vector.replicate 12 none
  products := Vector.replicate 16 none
  meters   := Vector.replicate 12 Meter.reset
  arms     := Vector.replicate 12 ArmCtl.reset
  injRecs  := Vector.replicate 16 none
  injs     := Vector.replicate 16 Injector.reset
  bayRecs  := Vector.replicate 4 none
  bays     := Vector.replicate 4 Bay.reset
  permits  := []
  accounts := []
  orders   := []
  cw       := Cw.reset
  nu       := Nu.reset
  lm       := Lm.reset
  lu       := Lu.reset pins
  mp       := Mp.reset

/-- The state of the machine: the part and the commands that wait, first in, first out. -/
structure State where
  dev     : Device
  pending : List Instr
deriving DecidableEq, Repr

/-- R181: the RACK notice that reports a hard reset: event 1, no tag, no arm and no next-number record found bad. -/
def resetNotice : Notice := ⟨.rack, .rack, 1, [[], [0#8], [0#8]], 0⟩

/-- The machine right after a hard reset of a part whose custody memory is as it left manufacture (Table 6-1): every
volatile item at its reset value, the start-up scan complete with nothing to write back, and the notice of R181 queued.
Pins are taken LOW (notes/assumptions/6.md). Nothing waits. -/
def State.reset : State where
  dev :=
    let d := Device.cleared .ready 0 Custody.factory (Vector.replicate 16 .low)
    { d with mp := { d.mp with notices := [resetNotice] } }
  pending := []

/-- Faults. No command of the B412 ends in one: the manual answers every request with a status code and gives every
event its effect, so the type has no constructor (safe: nothing raises a fault). -/
inductive Fault
deriving DecidableEq, Repr

/-- Refusals. -/
inductive Refusal
  /-- Raised by `exec`'s arm for a command that has no meaning yet; no arm of this model raises it. Safe: the machine
  stops where the hardware goes on. -/
  | notModelled (mnemonic : String)
deriving DecidableEq, Repr

end Sys2Proof.Machine
end

