-- ==== Sys2Proof/Machine/Flags.lean ====
section
/-! DEFINITION. Sets of flags and the numbers by which enumerations travel. Where R184 to R186 and Tables 11-3 to 11-9
give no number, an enumeration is numbered from 0 in the order in which its defining table lists it
(notes/assumptions/9.md). -/

namespace Sys2Proof.Machine

open Sys2Proof

/-! ### Trip causes (Table 4-4) -/

/-- Whether a cause is in the set. -/
def CauseSet.has (s : CauseSet) : TripCause → Bool
  | .ground => s.ground
  | .overfill => s.overfill
  | .esd => s.esd
  | .power => s.power
  | .valve => s.valve

/-- The set with one cause put in or taken out. -/
def CauseSet.put (s : CauseSet) (c : TripCause) (v : Bool) : CauseSet :=
  match c with
  | .ground => { s with ground := v }
  | .overfill => { s with overfill := v }
  | .esd => { s with esd := v }
  | .power => { s with power := v }
  | .valve => { s with valve := v }

/-- Whether the set holds no cause. -/
def CauseSet.isEmpty (s : CauseSet) : Bool := !(s.ground || s.overfill || s.esd || s.power || s.valve)

/-- An octet with bit i for member i of a list of flags (R185). -/
def bitsNat : List Bool → Nat
  | [] => 0
  | b :: t => (if b then 1 else 0) + 2 * bitsNat t

/-- R185: a set is one octet with bit i for member i. -/
def CauseSet.octet (s : CauseSet) : Nat := bitsNat [s.ground, s.overfill, s.esd, s.power, s.valve]

/-- Table 11-7, octet 34: trip causes seen, held during load, overfill lockout during load; BAY notices and STATUS READ carry
the load flags in this form too (DEDUCED; notes/assumptions/79.md). -/
def loadFlagsOctet (seen : CauseSet) (held lockout : Bool) : Nat :=
  bitsNat [seen.ground, seen.overfill, seen.esd, seen.power, seen.valve, held, lockout]

/-- The hold sources as a set: BAY, RACK (Table 4-2). -/
def holdOctet (b : Bay) : Nat := bitsNat [b.holdBay, b.holdRack]

/-- Whether some hold source of the bay is active (R78). -/
def Bay.holding (b : Bay) : Bool := b.holdBay || b.holdRack

/-- Table 11-8, octets 64 and 65: bit i is the flag in row i + 1 of Table 2-5. -/
def BatchFlags.number (f : BatchFlags) : Nat :=
  bitsNat [f.countFault, f.pulseMismatch, f.tempDefaulted, f.vcfLimited, f.meterGap, f.valveFault, f.overrun,
    f.additiveSkipped, f.additiveFault, f.doseShortfall]

/-! ### Numbers of enumerations -/

/-- Bay states in the order of Table 4-3. -/
def BayState.code : BayState → Nat
  | .closed => 0
  | .idle => 1
  | .authorized => 2
  | .loading => 3
  | .holding => 4
  | .held => 5
  | .tripped => 6
  | .closing => 7
  | .noteCommit => 8

/-- R184: display codes, one numbering for bay states, swipe refusals and start refusals. -/
def Display.code : Display → Nat
  | .closed => 0
  | .ready => 1
  | .authorized => 2
  | .loading => 3
  | .hold => 4
  | .trip => 5
  | .lockout => 6
  | .closing => 7
  | .note => 8
  | .noClock => 9
  | .rackEsd => 10
  | .noPermit => 11
  | .suspended => 12
  | .expired => 13
  | .bayBarred => 14
  | .noOrder => 15
  | .class => 16
  | .accountStopped => 17
  | .allocation => 18
  | .noteStoreFull => 19
  | .esd => 20
  | .permissive => 21
  | .armNotReady => 22
  | .sealOpen => 23
  | .totalizerFault => 24
  | .coupler => 25
  | .noLine => 26
  | .additiveUnavailable => 27

/-- Batch phases in the order of Table 2-4. -/
def Phase.code : Phase → Nat
  | .start => 0
  | .full => 1
  | .taper => 2
  | .closeWait => 3
  | .interrupted => 4
  | .ended => 5

/-- Table 11-3: valve stages on the wire. -/
def Stage.code : Stage → Nat
  | .closed => 0
  | .low => 1
  | .high => 2

/-- Table 11-3: valve positions on the wire; UNKNOWN, which no return carries, follows them
(notes/assumptions/9.md). -/
def Position.code : Position → Nat
  | .closed => 0
  | .low => 1
  | .high => 2
  | .moving => 3
  | .fault => 4
  | .unknown => 5

/-- R184: a position code above 4 is read as FAULT. -/
def Position.ofCode : Nat → Position
  | 0 => .closed
  | 1 => .low
  | 2 => .high
  | 3 => .moving
  | _ => .fault

/-- Coupler states in the order of Table 2-1. -/
def Coupler.code : Coupler → Nat
  | .latched => 0
  | .unlatched => 1
  | .unknown => 2

/-- Temperature sources in the order of Table 1-3. -/
def TempSource.code : TempSource → Nat
  | .live => 0
  | .held => 1
  | .fallback => 2

/-- Table 11-8, octet 4. -/
def basisCode : Basis → Nat
  | .gross => 0
  | .net => 1

/-- Table 11-8, octet 63. -/
def EndStatus.code : EndStatus → Nat
  | .complete => 0
  | .short => 1

/-- Injector states in the order of Table 3-2. -/
def InjectorState.code : InjectorState → Nat
  | .available => 0
  | .fault => 1
  | .disabled => 2

/-- Station states in the order of Table 8-2. -/
def StationState.code : StationState → Nat
  | .unconfigured => 0
  | .silent => 1
  | .aligning => 2
  | .active => 3
  | .slipped => 4
  | .mismatch => 5

/-- Kind codes of section 11.2: METER 1 to INJECTOR 6. -/
def kindCode : StationKind → Nat
  | .meter => 1
  | .temp => 2
  | .valve => 3
  | .panel => 4
  | .permit => 5
  | .injector => 6

/-- Order states in the order of Table 5-3. -/
def OrderState.code : OrderState → Nat
  | .queued => 0
  | .assigned => 1
  | .loading => 2

/-- Batch states of an order line in the order of Table 5-5. -/
def LineBatch.code : LineBatch → Nat
  | .notBatched => 0
  | .opened => 1
  | .ended => 2

/-- R185: status codes numbered from 0 in the order of Table 10-3. -/
def Status.code : Status → Nat
  | .ok => 0
  | .unknownKind => 1
  | .badTable => 2
  | .badIndex => 3
  | .badField => 4
  | .inUse => 5
  | .full => 6
  | .notFound => 7
  | .duplicate => 8
  | .wrongState => 9

/-- Table 11-6: notice kinds. -/
def NoticeKind.code : NoticeKind → Nat
  | .rack => 0
  | .bay => 1
  | .note => 2
  | .arm => 3
  | .injector => 4
  | .station => 5

/-- The object index of a notice (Table 11-6). -/
def SourceObj.index : SourceObj → Nat
  | .rack => 0
  | .bay b => b.val
  | .arm a => a.val
  | .injector c => c.val
  | .station n => n.val

/-- Modes of the Custody Writer in the order of Table 6-2. -/
def CwMode.code : CwMode → Nat
  | .running => 0
  | .draining => 1
  | .parked => 2

/-- An option as a presence octet and the value when present (R185's form of a field). -/
def optOctets (o : Option (List Byte)) : List Byte :=
  match o with
  | none => [0#8]
  | some v => 1#8 :: v

/-- A list as a count octet followed by its items (R185). -/
def listOctets (items : List (List Byte)) : List Byte := octets 1 items.length ++ items.flatten

/-- A day in two octets and a second in three (section 11.6). -/
def timeOctets (t : Time) : List Byte := octets 2 t.day ++ octets 3 t.sec

/-- Gross and net as totalizers, eight octets each (R185); a volume that is no totalizer goes in the same form (DESIGN CHOICE;
notes/assumptions/72.md). -/
def volOctets (v : Vol) : List Byte := octets 8 v.gross ++ octets 8 v.net

end Sys2Proof.Machine
end

