-- ==== Sys2Proof/Machine/Ops.lean ====
section
/-! DEFINITION. The named reads and updates of the part's state, and the operations that every block shares: raising a
notice (R177), the rack clock as a rule reads it (R180), and the questions one block asks of another's records. -/

namespace Sys2Proof.Machine

open Sys2Proof

/-! ### Reads and updates -/

namespace Device

/-- The part with its Management Port changed. -/
def onMp (d : Device) (f : Mp → Mp) : Device := { d with mp := f d.mp }
/-- The part with its Loop Master changed. -/
def onLm (d : Device) (f : Lm → Lm) : Device := { d with lm := f d.lm }
/-- The part with its Line Unit changed. -/
def onLu (d : Device) (f : Lu → Lu) : Device := { d with lu := f d.lu }
/-- The part with its Custody Writer changed. -/
def onCw (d : Device) (f : Cw → Cw) : Device := { d with cw := f d.cw }
/-- The part with its Note Unit changed. -/
def onNu (d : Device) (f : Nu → Nu) : Device := { d with nu := f d.nu }
/-- The part with its custody memory changed. -/
def onCustody (d : Device) (f : Custody → Custody) : Device := { d with custody := f d.custody }
/-- The part with its order queue changed. -/
def onOrders (d : Device) (f : List Order → List Order) : Device := { d with orders := f d.orders }
/-- The part with its permit table changed. -/
def onPermits (d : Device) (f : List (Nat × Permit) → List (Nat × Permit)) : Device := { d with permits := f d.permits }
/-- The part with its account table changed. -/
def onAccounts (d : Device) (f : List (Nat × Account) → List (Nat × Account)) : Device :=
  { d with accounts := f d.accounts }
/-- The part at another place between its resets. -/
def setBoot (d : Device) (b : Boot) : Device := { d with boot := b }

/-- Arm controller state of an arm. -/
def arm (d : Device) (a : ArmId) : ArmCtl := Bank.read d.arms a
/-- The part with an arm's controller state changed. -/
def onArm (d : Device) (a : ArmId) (f : ArmCtl → ArmCtl) : Device := { d with arms := Bank.write d.arms a (f (d.arm a)) }
/-- Meter state of an arm. -/
def meter (d : Device) (a : ArmId) : Meter := Bank.read d.meters a
/-- The part with an arm's meter state changed. -/
def onMeter (d : Device) (a : ArmId) (f : Meter → Meter) : Device :=
  { d with meters := Bank.write d.meters a (f (d.meter a)) }
/-- Arm record of an arm, if not empty. -/
def armRec (d : Device) (a : ArmId) : Option ArmRecord := Bank.read d.armRecs a
/-- The part with an arm record replaced. -/
def setArmRec (d : Device) (a : ArmId) (r : Option ArmRecord) : Device := { d with armRecs := Bank.write d.armRecs a r }
/-- Product entry at an index, if not empty. -/
def product (d : Device) (i : ProdIdx) : Option Product := Bank.read d.products i
/-- The part with a product entry replaced. -/
def setProduct (d : Device) (i : ProdIdx) (r : Option Product) : Device :=
  { d with products := Bank.write d.products i r }
/-- Injector record of a channel, if not empty. -/
def injRec (d : Device) (c : Chan) : Option InjectorRec := Bank.read d.injRecs c
/-- The part with an injector record replaced. -/
def setInjRec (d : Device) (c : Chan) (r : Option InjectorRec) : Device :=
  { d with injRecs := Bank.write d.injRecs c r }
/-- Injector run-time record of a channel. -/
def inj (d : Device) (c : Chan) : Injector := Bank.read d.injs c
/-- The part with an injector run-time record changed. -/
def onInj (d : Device) (c : Chan) (f : Injector → Injector) : Device := { d with injs := Bank.write d.injs c (f (d.inj c)) }
/-- Bay record of a bay, if not empty. -/
def bayRec (d : Device) (b : BayId) : Option BayRecord := Bank.read d.bayRecs b
/-- The part with a bay record replaced. -/
def setBayRec (d : Device) (b : BayId) (r : Option BayRecord) : Device :=
  { d with bayRecs := Bank.write d.bayRecs b r }
/-- Bay run-time record of a bay. -/
def bay (d : Device) (b : BayId) : Bay := Bank.read d.bays b
/-- The part with a bay run-time record changed. -/
def onBay (d : Device) (b : BayId) (f : Bay → Bay) : Device := { d with bays := Bank.write d.bays b (f (d.bay b)) }
/-- Station table entry and record of an address. -/
def station (d : Device) (n : Addr) : Station := Bank.read d.lm.stations n
/-- The part with a station's record changed. -/
def onStation (d : Device) (n : Addr) (f : Station → Station) : Device :=
  d.onLm fun l => { l with stations := Bank.write l.stations n (f (Bank.read l.stations n)) }
/-- Line record and run-time state of a line. -/
def line (d : Device) (l : LineId) : Line := Bank.read d.lu.lines l
/-- The part with a line changed. -/
def onLine (d : Device) (l : LineId) (f : Line → Line) : Device :=
  d.onLu fun u => { u with lines := Bank.write u.lines l (f (Bank.read u.lines l)) }
/-- Directory entry of a note slot. -/
def slot (d : Device) (k : SlotId) : SlotState := Bank.read d.nu.dir k
/-- The part with a directory entry replaced. -/
def setSlot (d : Device) (k : SlotId) (x : SlotState) : Device := d.onNu fun u => { u with dir := Bank.write u.dir k x }
/-- Note Unit bay record of a bay. -/
def noteBay (d : Device) (b : BayId) : NoteBay := Bank.read d.nu.bays b
/-- The part with a Note Unit bay record changed. -/
def onNoteBay (d : Device) (b : BayId) (f : NoteBay → NoteBay) : Device :=
  d.onNu fun u => { u with bays := Bank.write u.bays b (f (Bank.read u.bays b)) }
/-- The part with an arm's open batch changed, if it has one. -/
def onBatch (d : Device) (a : ArmId) (f : Batch → Batch) : Device :=
  d.onArm a fun c => { c with batch := c.batch.map f }

end Device

/-! ### Volumes -/

/-- The sum of two volumes. -/
def Vol.add (x y : Vol) : Vol := ⟨x.gross + y.gross, x.net + y.net⟩
/-- Whether both amounts are 0. -/
def Vol.isZero (v : Vol) : Bool := v.gross == 0 && v.net == 0

/-! ### The rack clock (R180) -/

/-- R180: the time a rule takes from the clock; while UNSET it is day 0, second 0. -/
def Device.time (d : Device) : Time := d.mp.clock.getD ⟨0, 0⟩

/-! ### Notices (R177) -/

/-- R177: new contents take the object's entry in place, its replaced count rising by 1 and holding at 255; an object
with no entry gets one at the tail. -/
def noticeQueue (n : Notice) (q : List Notice) : List Notice :=
  if q.any (fun e => e.obj == n.obj) then
    q.map fun e => if e.obj == n.obj then { n with replaced := min 255 (e.replaced + 1) } else e
  else q ++ [{ n with replaced := 0 }]

/-- A block raises a notice for an object, with an event code of Table 11-10 and the values of its fields in order. -/
def Device.raise (d : Device) (kind : NoticeKind) (obj : SourceObj) (event : Nat) (fields : List (List Byte)) : Device :=
  d.onMp fun m => { m with notices := noticeQueue ⟨kind, obj, event, fields, 0⟩ m.notices }

/-- R88: what every BAY and NOTE notice carries: the bay, its state, its assigned order's number, its last note number,
the trip cause set, the hold sources, the overfill lockout and the load flags. The event is no field of its own: the header
carries its code (Table 11-6; notes/assumptions/12.md). A bay without an assigned order sends the order number 0
(DESIGN CHOICE; notes/assumptions/65.md). -/
def bayFields (d : Device) (b : BayId) : List (List Byte) :=
  let r := d.bay b
  [octets 1 b.val, octets 1 r.state.code, octets 4 (r.order.getD 0), octets 4 (d.noteBay b).last,
    octets 1 r.causes.octet, octets 1 (holdOctet r), flagOctet r.lockout,
    octets 1 (loadFlagsOctet r.seen r.heldDuring r.lockoutDuring)]

/-- A BAY notice with its event and the event's figures (R88). -/
def Device.bayNotice (d : Device) (b : BayId) (event : Nat) (figures : List (List Byte)) : Device :=
  d.raise .bay (.bay b) event (bayFields d b ++ figures)

/-- R171: what LU's RACK notices carry: the ESD latch, the pending mark, the power-fail warning latch, the management
rack hold and the rack hold source. The event that R171 lists first is no field: the header carries its code, and the ESD
latch is field 1 (notes/assumptions/12.md). Each is an octet, 1 set or active and 0 clear, where Table 9-4 lists Set or clear
(DESIGN CHOICE; notes/assumptions/78.md). -/
def luFields (d : Device) : List (List Byte) :=
  [flagOctet d.lu.esd, flagOctet d.lu.esdPending, flagOctet d.lu.powerfail, flagOctet d.lu.mgmtHold,
    flagOctet d.lu.holdSource]

/-- A RACK notice. -/
def Device.rackNotice (d : Device) (event : Nat) (fields : List (List Byte)) : Device := d.raise .rack .rack event fields

/-- An ARM notice: the arm, then the event's own fields. -/
def Device.armNotice (d : Device) (a : ArmId) (event : Nat) (fields : List (List Byte)) : Device :=
  d.raise .arm (.arm a) event (octets 1 a.val :: fields)

/-- R62: an INJECTOR notice carries the channel, the injector's state after the event and its consecutive missed count,
then the event's own fields. -/
def Device.injNotice (d : Device) (c : Chan) (event : Nat) (fields : List (List Byte)) : Device :=
  let i := d.inj c
  d.raise .injector (.injector c) event ([octets 1 c.val, octets 1 i.state.code, octets 1 i.missed] ++ fields)

/-- R158: a STATION notice carries the address, the entry's kind, the state after the event, the word in force (no octets
when there is none), the kind seen when in MISMATCH, then the event's own fields; the event itself is in the header alone
(notes/assumptions/12.md). -/
def Device.stationNotice (d : Device) (n : Addr) (event : Nat) (fields : List (List Byte)) : Device :=
  let r := d.station n
  d.raise .station (.station n) event
    ([octets 1 n.val,
      (match r.entry with
        | none => []
        | some e => octets 1 (kindCode e.kind)),
      octets 1 r.state.code,
      (match r.word with
        | none => []
        | some w => octets 2 w.toNat),
      (match r.state, r.kindSeen with
        | .mismatch, some k => octets 1 k
        | _, _ => [])] ++ fields)

/-! ### Questions about stations (R153) -/

/-- The station fault bit of a station's word in force; a station with no word in force counts as clear (R153). -/
def Station.faulty (s : Station) : Bool :=
  match s.word with
  | none => false
  | some w => w.getLsbD 0

/-- The seal-open bit of a station's word in force; without a word the seal is taken as closed (R22). -/
def Station.sealOpen (s : Station) : Bool :=
  match s.word with
  | none => false
  | some w => w.getLsbD 1

/-- Whether the address has an entry of this kind. A record that names an address of another kind has no such station
(R151, R165; notes/assumptions/19.md). -/
def Station.isKind (s : Station) (k : StationKind) : Bool :=
  match s.entry with
  | none => false
  | some e => e.kind == k

/-- R153: a station is usable when it is ACTIVE and its word in force has station fault clear. -/
def Device.usable (d : Device) (n : Addr) (k : StationKind) : Bool :=
  let s := d.station n
  s.isKind k && s.state == .active && !s.faulty

/-! ### Questions about records -/

/-- The product entry whose code this is, with its index. -/
def Device.productOf (d : Device) (code : Nat) : Option (ProdIdx × Product) :=
  allSixteen.findSome? fun i =>
    match d.product i with
    | some p => if p.code = code then some (i, p) else none
    | none => none

/-- The arms of a bay: the non-empty arm records that name it (section 4.1), in ascending order. -/
def Device.armsOf (d : Device) (b : BayId) : List ArmId :=
  allArms.filter fun a =>
    match d.armRec a with
    | some r => r.bay == b
    | none => false

/-- The arm whose non-empty record names the address as its METER station. -/
def Device.armOfMeter (d : Device) (n : Addr) : Option ArmId :=
  allArms.find? fun a =>
    match d.armRec a with
    | some r => r.meter == n
    | none => false

/-- The arm whose non-empty record names the address as its VALVE station. -/
def Device.armOfValve (d : Device) (n : Addr) : Option ArmId :=
  allArms.find? fun a =>
    match d.armRec a with
    | some r => r.valve == n
    | none => false

/-- The channel whose non-empty record names the station. -/
def Device.chanOf (d : Device) (n : Addr) : Option Chan :=
  allSixteen.find? fun c =>
    match d.injRec c with
    | some r => r.station == n
    | none => false

/-- The bay whose non-empty record names the address as its PANEL station. -/
def Device.bayOfPanel (d : Device) (n : Addr) : Option BayId :=
  allBays.find? fun b =>
    match d.bayRec b with
    | some r => r.panel == n
    | none => false

/-- The order that a bay holds, if any. -/
def Device.orderNumbered (d : Device) (n : Nat) : Option Order := d.orders.find? fun o => o.number == n

/-- The order assigned to a bay. -/
def Device.orderOf (d : Device) (b : BayId) : Option Order := (d.bay b).order.bind d.orderNumbered

/-- The part with the order of this number changed. -/
def Device.onOrder (d : Device) (n : Nat) (f : Order → Order) : Device :=
  d.onOrders fun q => q.map fun o => if o.number == n then f o else o

/-- Line `k` of an order's list changed. -/
def Order.onLine (o : Order) (k : Nat) (f : OrderLine → OrderLine) : Order := { o with lines := o.lines.modify k f }

end Sys2Proof.Machine
end

