-- ==== Sys2Proof/Machine/Volume.lean ====
section
/-! DEFINITION. The volume arithmetic of the Metering Engine (chapter 1), in exact integers with the rounding each rule
names. -/

namespace Sys2Proof.Machine

open Sys2Proof

/-- R7: a difference modulo 65 536. -/
def wrapDelta (now before : Half) : Nat := (now - before).toNat

/-- R8: q = floor(6×10^8 × d / (K × e)), litres per minute. -/
def flowRate (k d e : Nat) : Nat := 600000000 * d / (k * e)

/-- R10: a sample has a pulse mismatch when |d − dB| > max(2, floor(d / 1000)). -/
def pulseMismatch (d dB : Nat) : Bool := decide (max 2 (d / 1000) < max d dB - min d dB)

/-- R11: the meter factor of a rate, from a curve with ascending rates. An empty curve, which no record holds, gives 0. -/
def meterFactor : List CurvePoint → Nat → Nat
  | [], _ => 0
  | [p], _ => p.mf
  | p :: r :: t, q =>
    if q ≤ p.q then p.mf
    else if q < r.q then
      ((p.mf : Int) + roundHalfAway (((r.mf : Int) - (p.mf : Int)) * ((q : Int) - (p.q : Int))) (r.q - p.q)).toNat
    else meterFactor (r :: t) q

/-- R12: the gross increment and the new gross residue. -/
def grossIncrement (k d mf residue : Nat) : Nat × Nat :=
  let n := d * 10000 * mf + residue
  (n / k, n % k)

/-- R15: the VCF before its clamp. -/
def rawVcf (alpha : Nat) (t : Int) : Int :=
  let f := roundHalfAway ((alpha : Int) * (t - 1500)) 100
  1000000 - f + (roundHalfUp (f.natAbs * f.natAbs) 2000000 : Nat)

/-- R15: the VCF applied, within 950 000..1 050 000. -/
def vcfOf (alpha : Nat) (t : Int) : Nat :=
  let v := rawVcf alpha t
  if v < 950000 then 950000 else if 1050000 < v then 1050000 else v.toNat

/-- R15: whether the clamp applies. -/
def vcfClamped (alpha : Nat) (t : Int) : Bool := decide (rawVcf alpha t < 950000) || decide (1050000 < rawVcf alpha t)

/-- R16: the net increment and the new net residue. -/
def netIncrement (dVg vcf residue : Nat) : Nat × Nat :=
  let m := dVg * vcf + residue
  (m / 1000000, m % 1000000)

/-- R52: the volume of a completed shot, floor(p × 10^9 / K_add) µL. -/
def shotVolume (pulses kAdd : Nat) : Nat := pulses * 1000000000 / kAdd

/-- R56: whether a window of W shots of size S fails at tolerance T with volume V. -/
def windowFails (v w s t : Nat) : Bool :=
  let e := w * s * 100
  decide (t * w * s * 100 < (max v e - min v e) * 100)

/-- R61: the required additive, gross × D / 10^6 rounded half up. -/
def requiredAdditive (gross dose : Nat) : Nat := roundHalfUp (gross * dose) 1000000

/-- R105: net microlitres as litres, rounded half up. -/
def netLitres (net : Nat) : Nat := (net + 500000) / 1000000

/-- R130: microlitres as decilitres, rounded half up. -/
def decilitres (ul : Nat) : Nat := (ul + 50000) / 100000

/-! ### Batch volumes (R28) -/

/-- R28: V, the delivered volume in the batch's basis. -/
def Batch.volume (b : Batch) : Nat :=
  match b.basis with
  | .gross => b.delivered.gross
  | .net => b.delivered.net

/-- R28: P in microlitres. -/
def Batch.presetUl (b : Batch) : Nat := b.preset * 1000000

/-- R28: the phase test after a sample, in the order of the rule; `ca` is the close-ahead in mL. -/
def nextPhase (b : Batch) (ca : Nat) : Phase :=
  let left : Int := (b.presetUl : Int) - (b.volume : Int)
  if left ≤ ((ca * 1000 : Nat) : Int) then .closeWait
  else match b.phase with
    | .start =>
      if b.startVol * 1000000 ≤ b.volume then
        (if left ≤ ((b.taperVol * 1000000 : Nat) : Int) then .taper else .full)
      else .start
    | .full => if left ≤ ((b.taperVol * 1000000 : Nat) : Int) then .taper else .full
    | p => p

/-- R40: the overrun a batch teaches, in mL, at most 40 000. -/
def overrunMl (v vClose : Nat) : Nat := min 40000 ((v - vClose) / 1000)

/-- R40: the ring with an overrun as its newest entry. -/
def Ring.push (r : Ring) (x : Nat) : Ring := ⟨r.e1, r.e2, r.e3, x⟩

/-- R40: the close-ahead of a ring. -/
def Ring.average (r : Ring) : Nat := (r.e0 + r.e1 + r.e2 + r.e3) / 4

/-- Table 2-4, R29: the stage a batch commands. -/
def Batch.commanded (b : Batch) : Stage :=
  match b.phase with
  | .start | .taper => .low
  | .full => if b.throttle then .low else .high
  | .closeWait | .interrupted | .ended => .closed

/-- The commanded stage of an arm (Table 2-1). -/
def ArmCtl.commanded (c : ArmCtl) : Stage :=
  match c.batch with
  | none => .closed
  | some b => b.commanded

/-- START, FULL or TAPER. -/
def Phase.flowing : Phase → Bool
  | .start | .full | .taper => true
  | .closeWait | .interrupted | .ended => false

/-- Whether the arm's batch is in START, FULL or TAPER. -/
def ArmCtl.flowing (c : ArmCtl) : Bool :=
  match c.batch with
  | none => false
  | some b => b.phase.flowing

end Sys2Proof.Machine
end

