-- ==== Sys2Proof/Machine/NoteImage.lean ====
section
/-! DEFINITION. A delivery note's image: its assembly from the records the blocks hand the Note Unit (R129 to R131) and
its octets (section 11.6). -/

namespace Sys2Proof.Machine

open Sys2Proof

/-! ### Octets of the elements -/

/-- Table 11-7: the header element body; `number` 0 while absent. -/
def NoteImage.header (i : NoteImage) (number : Nat) : List Byte :=
  octets 4 number ++ octets 4 i.order ++ octets 4 i.accountNumber ++ octets 1 i.accountIndex ++ octets 4 i.credential ++
  octets 4 i.driver ++ octets 1 i.bay.val ++ timeOctets i.startTime ++ timeOctets i.endTime ++ octets 1 i.lines.length ++
  octets 1 i.notLoaded.length ++ octets 1 (loadFlagsOctet i.seen i.heldDuring i.lockoutDuring) ++
  (i.notLoaded.map fun n =>
    octets 1 n.line ++ octets 1 n.compartment ++ octets 1 n.product ++ octets 2 n.preset).flatten

/-- Table 11-8: a line element body. -/
def NoteLine.octs (l : NoteLine) : List Byte :=
  octets 1 l.compartment ++ octets 1 l.line ++ octets 1 l.product ++ octets 1 l.arm.val ++ octets 1 (basisCode l.basis) ++
  octets 2 l.preset ++ octets 4 l.grossDl ++ octets 4 l.netDl ++ signedOctets 2 l.avgTemp ++ octets 4 l.avgVcf ++
  volOctets l.opening ++ volOctets l.closing ++ timeOctets l.startTime ++ timeOctets l.endTime ++
  octets 1 l.status.code ++ octets 2 l.flags.number ++ octets 4 l.discarded ++ octets 4 l.mismatches ++
  octets 1 l.subs.length

/-- Table 11-9: an additive subline body, with its line's compartment. -/
def NoteSub.octs (s : NoteSub) (compartment : Nat) : List Byte :=
  octets 1 compartment ++ octets 1 (if s.dosed then 0 else 1) ++ octets 1 s.recipe ++ octets 1 s.code ++ octets 2 s.dose ++
  octets 1 (match s.injector with
    | some c => c.val
    | none => 255) ++
  octets 4 s.required ++ octets 4 s.delivered ++ octets 4 s.completed ++ octets 4 s.missed ++ octets 4 s.cancelled

/-- R136: the elements of a note in order: the header, the lines, then the sublines grouped by line. -/
def NoteImage.elements (i : NoteImage) (number : Nat) : List (List Byte) :=
  [i.header number] ++ i.lines.map NoteLine.octs ++
  (i.lines.map fun l => l.subs.map fun s => s.octs l.compartment).flatten

/-- R183: the body octets CW writes, in element order with no element headers and no padding. -/
def NoteImage.body (i : NoteImage) (number : Nat) : List Byte := (i.elements number).flatten

/-! ### Assembly -/

/-- R131: the subline of a dosing record. -/
def Dosing.subline (r : Dosing) : NoteSub where
  dosed     := r.dosed
  recipe    := r.recipe
  code      := r.code
  dose      := r.dose
  injector  := r.injector
  required  := r.required.getD 0
  delivered := r.delivered
  completed := r.completed
  missed    := r.missed
  cancelled := r.cancelled

/-- Table 7-4: the average temperature of a batch, with the fallback for a batch that delivered no gross. -/
def averageTemp (b : Batch) (fallback : Int) : Int :=
  if b.delivered.gross = 0 then fallback else roundHalfAway b.tempSum b.delivered.gross

/-- Table 7-4: the average VCF of a batch. -/
def averageVcf (b : Batch) : Nat :=
  if b.delivered.gross = 0 then 1000000 else roundHalfUp (b.delivered.net * 1000000) b.delivered.gross

/-- R130: the note line of an ended batch. -/
def Batch.noteLine (d : Device) (b : Batch) : NoteLine where
  compartment := b.compartment
  line        := b.line
  product     := b.product
  arm         := b.arm
  basis       := b.basis
  preset      := b.preset
  grossDl     := decilitres b.delivered.gross
  netDl       := decilitres b.delivered.net
  avgTemp     := averageTemp b (match d.productOf b.product with
    | some (_, p) => p.fallback
    | none => 1500)
  avgVcf      := averageVcf b
  opening     := b.opening
  closing     := b.closing.getD b.opening
  startTime   := b.startTime
  endTime     := b.endTime.getD b.startTime
  status      := b.endStatus.getD .short
  flags       := b.flags
  discarded   := b.discarded
  mismatches  := b.mismatches
  subs        := b.dosing.map Dosing.subline

/-- Whether one time is before another. -/
def Time.before (x y : Time) : Bool := decide (x.day < y.day) || (x.day == y.day && decide (x.sec < y.sec))

/-- R129: the earliest start time among batches. -/
def earliestStart : List Batch → Time → Time
  | [], t => t
  | b :: l, t => earliestStart l (if b.startTime.before t then b.startTime else t)

/-- R129: the lines of an order that were not batched, with their line indexes. -/
def notLoadedFrom : Nat → List OrderLine → List NotLoaded
  | _, [] => []
  | k, l :: t => (if l.batch == .notBatched then [⟨k, l.compartment, l.product, l.preset⟩] else []) ++ notLoadedFrom (k + 1) t

/-- A not-loaded line put in its place in ascending compartment order. -/
def insertNotLoaded (n : NotLoaded) : List NotLoaded → List NotLoaded
  | [] => [n]
  | m :: t => if n.compartment < m.compartment then n :: m :: t else m :: insertNotLoaded n t

/-- R129: the not-loaded list of an order, in ascending compartment order. -/
def notLoadedList (o : Order) : List NotLoaded := (notLoadedFrom 0 o.lines).foldl (fun l n => insertNotLoaded n l) []

/-- R129 to R131: the image of a bay's note, from the bay, its assigned order and the order's account as they stand. -/
def assembleImage (d : Device) (b : BayId) (o : Order) : NoteImage :=
  let r := d.bay b
  { order         := o.number
    accountNumber := (match Sparse.get o.account d.accounts with
      | some a => a.number
      | none => 0)
    accountIndex  := o.account
    credential    := (match o.assignment with
      | some s => s.credential
      | none => 0)
    driver        := (match o.assignment with
      | some s => s.driver
      | none => 0)
    bay           := b
    startTime     := (match r.ended with
      | [] => d.time
      | e :: t => earliestStart t e.startTime)
    endTime       := d.time
    notLoaded     := notLoadedList o
    seen          := r.seen
    heldDuring    := r.heldDuring
    lockoutDuring := r.lockoutDuring
    lines         := r.ended.map (Batch.noteLine d) }

end Sys2Proof.Machine
end

