-- ==== Sys2Proof/Machine/CustodyQueue.lean ====
section
/-! DEFINITION. The Custody Writer's queue (sections 6.3 to 6.5): placing posts and barriers, and taking the next piece of
work. -/

namespace Sys2Proof.Machine

open Sys2Proof

/-! ### Placing -/

/-- Whether an entry is a POST. -/
def QEntry.isPost (e : QEntry) : Bool :=
  match e.body with
  | .post _ => true
  | .barrier _ => false

/-- Whether an entry is a BARRIER. -/
def QEntry.isBarrier (e : QEntry) : Bool := !e.isPost

/-- Whether an entry is a POST of the arm. -/
def QEntry.isOf (a : ArmId) (e : QEntry) : Bool :=
  match e.body with
  | .post p => p.arm == a
  | .barrier _ => false

/-- The amounts of an entry; a barrier has none. -/
def QEntry.vol (e : QEntry) : Vol :=
  match e.body with
  | .post p => p.vol
  | .barrier _ => ⟨0, 0⟩

/-- R112: the entry with a post merged into it. -/
def QEntry.merge (v : Vol) (e : QEntry) : QEntry :=
  match e.body with
  | .post p => { e with body := .post { p with vol := p.vol.add v } }
  | .barrier _ => e

/-- R112: a post merged into the arm's last entry of a list, when there is one and it is not started. -/
def mergeLast (a : ArmId) (v : Vol) : List QEntry → Option (List QEntry)
  | [] => none
  | e :: t =>
    if t.any (QEntry.isOf a) then (mergeLast a v t).map (e :: ·)
    else if e.isOf a && !e.started then some (e.merge v :: t)
    else none

/-- The number of entries of kind POST. -/
def postCount (q : List QEntry) : Nat := (q.filter QEntry.isPost).length

/-- The entries behind the last barrier of a queue. -/
def afterBarriers (q : List QEntry) : List QEntry := (q.reverse.takeWhile QEntry.isPost).reverse

/-- The entries up to and with the last barrier of a queue. -/
def throughBarriers (q : List QEntry) : List QEntry := (q.reverse.dropWhile QEntry.isPost).reverse

/-- An entry that is no unstarted barrier. -/
def QEntry.beforeBarrier (e : QEntry) : Bool := e.isPost || e.started

/-- R112: where an ordinary post goes; none when it needs a new entry and no place is free. -/
def placeOrdinary (id : Nat) (a : ArmId) (v : Vol) (q : List QEntry) : Option (List QEntry) :=
  match mergeLast a v (afterBarriers q) with
  | some t => some (throughBarriers q ++ t)
  | none => if 16 ≤ postCount q then none else some (q ++ [⟨id, .post ⟨a, v, false⟩, false⟩])

/-- R112: where a post goes; `recovery` says that it carries recovery amounts. -/
def placePost (id : Nat) (a : ArmId) (v : Vol) (recovery : Bool) (q : List QEntry) : Option (List QEntry) :=
  if recovery && !(q.all QEntry.beforeBarrier) then
    let ahead := q.takeWhile QEntry.beforeBarrier
    let behind := q.dropWhile QEntry.beforeBarrier
    match mergeLast a v ahead with
    | some t => some (t ++ behind)
    | none => if 16 ≤ postCount q then none else some (ahead ++ [⟨id, .post ⟨a, v, false⟩, false⟩] ++ behind)
  else placeOrdinary id a v q

/-- R112: CW places a totalizer post, or hands its amounts back to ME's unwritten accumulator as deferred. -/
def Device.placeTotals (d : Device) (a : ArmId) (v : Vol) (recovery : Bool) : Device :=
  match placePost d.cw.nextId a v recovery d.cw.queue with
  | some q => d.onCw fun c => { c with queue := q, nextId := c.nextId + 1 }
  | none =>
    (d.onCw fun c => { c with deferrals := min 65535 (c.deferrals + 1) }).onMeter a
      fun m => { m with unwritten := m.unwritten.add v }

/-- R18: ME hands CW the increments with the arm's unwritten accumulator, which becomes 0; nothing is handed when both
amounts would be 0. -/
def Device.postTotals (d : Device) (a : ArmId) (inc : Vol) : Device :=
  let u := (d.meter a).unwritten
  let v := inc.add u
  if v.isZero then d
  else (d.onMeter a fun m => { m with unwritten := ⟨0, 0⟩ }).placeTotals a v (!u.isZero)

/-- R113: a barrier of a bay appended at the tail. -/
def Device.appendBarrier (d : Device) (b : BayId) (k : SlotId) (i : NoteImage) : Device :=
  d.onCw fun c =>
    { c with queue := c.queue ++ [⟨c.nextId, .barrier ⟨b, k, i, none, .body⟩, false⟩], nextId := c.nextId + 1 }

/-- R113: a barrier that NU hands back with a new slot, at the head ahead of every entry that has not started. -/
def Device.headBarrier (d : Device) (b : BayId) (k : SlotId) (i : NoteImage) : Device :=
  d.onCw fun c =>
    { c with
      queue := c.queue.takeWhile (fun e => e.started) ++ [⟨c.nextId, .barrier ⟨b, k, i, none, .body⟩, false⟩] ++
        c.queue.dropWhile (fun e => e.started)
      nextId := c.nextId + 1 }

/-- The sum of the amounts of an arm's entries in the queue (section 6.2). -/
def Cw.queued (c : Cw) (a : ArmId) : Vol := (c.queue.filter (QEntry.isOf a)).foldl (fun v e => v.add e.vol) ⟨0, 0⟩

/-! ### Taking work -/

/-- R114, R124: CW may start work in RUNNING and DRAINING, and in any mode while a RESTART drains the queue. -/
def Device.cwMayWork (d : Device) : Bool :=
  match d.boot with
  | .ready => d.cw.mode != .parked
  | .draining _ => true
  | .off | .scanning _ _ _ => false

/-- R116: the arms that a barrier's image names whose unwritten accumulator is not 0, in ascending order. -/
def Device.recoveryArms (d : Device) (i : NoteImage) : List ArmId :=
  allArms.filter fun a => i.lines.any (fun l => l.arm == a) && !(d.meter a).unwritten.isZero

/-- R116: the accumulators of these arms taken from ME, which sets them to 0. -/
def Device.takeUnwritten (d : Device) (l : List ArmId) : Device :=
  l.foldl (fun d a => d.onMeter a fun m => { m with unwritten := ⟨0, 0⟩ }) d

/-- R116: the entries inserted at the head for these arms, numbered from `id`. -/
def recoveryEntries (d : Device) : Nat → List ArmId → List QEntry
  | _, [] => []
  | id, a :: t => ⟨id, .post ⟨a, (d.meter a).unwritten, true⟩, false⟩ :: recoveryEntries d (id + 1) t

/-- R118: the number the next body write takes: the one held after a failed write-back, else the stored one. -/
def Device.nextNumber (d : Device) : Nat := d.cw.heldNext.getD d.custody.next.value

/-- Marks the head entry started and begins a write on it. -/
def Device.startHead (d : Device) (e : QEntry) (rest : List QEntry) (job : WriteJob) : Device :=
  d.onCw fun c => { c with queue := { e with started := true } :: rest, write := some ⟨job, 1⟩ }

/-- R116, R118: a barrier at the head that is not held and not started is looked at: accumulators of its arms come ahead
of it, or it starts, or it is held because every note number has been used, which is reported with the barrier's bay
(notes/assumptions/45.md). -/
def Device.lookAtBarrier (d : Device) (e : QEntry) (b : Barrier) (rest : List QEntry) : Device :=
  match d.recoveryArms b.image with
  | a :: t =>
    let new := recoveryEntries d d.cw.nextId (a :: t)
    let d' := (d.takeUnwritten (a :: t)).onCw fun c => { c with nextId := c.nextId + (a :: t).length }
    match new with
    | f :: g => d'.startHead f (g ++ e :: rest) (.post f.id)
    | [] => d'
  | [] =>
    if 4294967296 ≤ d.nextNumber then
      (d.onCw fun c => { c with held := some ⟨b.bay, .exhausted⟩ }).rackNotice 20 [octets 1 b.bay.val]
    else
      d.startHead { e with body := .barrier { b with number := some d.nextNumber, part := .body } } rest
        (.barrier e.id .body)

/-- R114: with no write in progress, CW takes the head of the release list, else the head entry of the queue. -/
def Device.cwStart (d : Device) : Device :=
  if d.cw.write.isSome || !d.cwMayWork then d
  else match d.cw.releases with
  | k :: _ => d.onCw fun c => { c with write := some ⟨.release k, 1⟩ }
  | [] =>
    match d.cw.queue with
    | [] => d
    | e :: rest =>
      match e.body with
      | .post _ => d.startHead e rest (.post e.id)
      | .barrier b =>
        if e.started then d.onCw fun c => { c with write := some ⟨.barrier e.id b.part, 1⟩ }
        else match d.cw.held with
        | some h => if h.bay = b.bay then d else d.lookAtBarrier e b rest
        | none => d.lookAtBarrier e b rest

/-! ### Reads of the totalizer records (R121) -/

/-- R121: the body of a TOTALIZER READ's element: arm, stored gross and net, whether the check matched, the fault mark,
the unwritten amounts, and in PARKED the PENDING mark with the amounts still queued. -/
def totalizerBody (d : Device) (a : ArmId) : List Byte :=
  let r := Bank.read d.custody.totals a
  octets 1 a.val ++ octets 8 r.gross ++ octets 8 r.net ++ flagOctet (r.check == totalizerCheck r.gross r.net) ++
  flagOctet (d.arm a).totFault ++ volOctets (d.meter a).unwritten ++
  optOctets (if d.cw.mode = .parked then some (volOctets (d.cw.queued a)) else none)

/-- Adds an answer to the tail of the answer queue (R175). -/
def Device.reply (d : Device) (kind : Nat) (tag : Byte) (st : Status) (els : List Element) : Device :=
  d.onMp fun m => { m with answers := m.answers ++ [⟨BitVec.ofNat 8 kind, tag, st, els⟩] }

/-- R121, R176: a TOTALIZER READ answered from custody memory, its element CHECKED and GOOD when the check matched. -/
def Device.answerTotalizer (d : Device) (tag : Byte) (a : ArmId) : Device :=
  let r := Bank.read d.custody.totals a
  d.reply 18 tag .ok [⟨totalizerBody d a, true, r.check == totalizerCheck r.gross r.net, true⟩]

/-- R121: the waiting read is served when every entry it noted has left the queue; its answer takes the reserved place. -/
def Device.serveWaiting (d : Device) (always : Bool) : Device :=
  match d.cw.waiting with
  | none => d
  | some w =>
    if always || !(d.cw.queue.any fun e => w.noted.contains e.id) then
      ((d.onCw fun c => { c with waiting := none }).onMp fun m => { m with reserved := false }).answerTotalizer w.tag w.arm
    else d

/-- R175: a frame taken into service stands at the FIFO's head, where it was or where it arrives, until it leaves. -/
def Device.intoService (d : Device) (c : Instr) : Device :=
  d.onMp fun m => { m with fifo := c :: m.fifo.tail, inService := true }

/-- R175: the request at the head leaves service and the FIFO. -/
def Device.leaveService (d : Device) : Device := d.onMp fun m => { m with fifo := m.fifo.tail, inService := false }

/-- R175: an answer to the request in service, which leaves service with it. -/
def Device.finish (d : Device) (kind : Nat) (tag : Byte) (st : Status) (els : List Element) : Device :=
  (d.reply kind tag st els).leaveService

/-- R121: the entries of an arm in the queue. -/
def Cw.entriesOf (c : Cw) (a : ArmId) : List Nat := (c.queue.filter (QEntry.isOf a)).map QEntry.id

/-- R121: a TOTALIZER READ taken while no read waits leaves service: answered at once, or made the waiting read with an
answer place reserved. -/
def Device.takeRead (d : Device) (tag : Byte) (a : ArmId) : Device :=
  (if d.cw.mode = .parked ∨ (d.cw.entriesOf a = [] ∧ d.cw.write = none) then d.answerTotalizer tag a
  else
    (d.onCw fun c => { c with waiting := some ⟨tag, a, c.entriesOf a⟩ }).onMp fun m => { m with reserved := true }).leaveService

/-- R175: a TOTALIZER READ that stays in service is taken when no read waits any more. -/
def Device.resumeRead (d : Device) : Device :=
  if d.mp.inService then
    match d.mp.fifo, d.cw.waiting with
    | .totalizerRead tag (some i) :: _, none =>
      (match toFin 12 i with
        | some a => d.takeRead tag a
        | none => d)
    | _, _ => d
  else d

/-- R123: with no write in progress and nothing left to write, DRAINING becomes PARKED, which is reported with what LU's
notices carry (notes/assumptions/45.md); at a power-fail latch that comes after LU's notice 9 (DESIGN CHOICE;
notes/assumptions/69.md). A waiting read is then served (R121), and one behind it taken (R175). -/
def Device.cwPark (d : Device) : Device :=
  if d.boot = .ready ∧ d.cw.mode = .draining ∧ d.cw.write = none ∧ d.cw.releases = [] ∧ d.cw.queue = [] then
    (((d.onCw fun c => { c with mode := .parked }).rackNotice 13 (luFields d)).serveWaiting true).resumeRead
  else d

end Sys2Proof.Machine
end

