-- ==== Sys2Proof/Machine/Notes.lean ====
section
/-! DEFINITION. The Note Unit's directory (chapter 7): reserving a slot, giving one up, committing a note and replacing a
slot that failed. -/

namespace Sys2Proof.Machine

open Sys2Proof

/-- Whether a directory entry is RESERVED for the bay. -/
def SlotState.reservedFor (b : BayId) : SlotState → Bool
  | .reserved b' _ => b' == b
  | .free | .retained _ _ | .bad => false

/-- Whether a directory entry is RETAINED with this note number. -/
def SlotState.holds (n : Nat) : SlotState → Bool
  | .retained m _ => m == n
  | .free | .reserved _ _ | .bad => false

/-- The slot RESERVED for a bay (L5). -/
def Device.reservedSlot (d : Device) (b : BayId) : Option SlotId := allSlots.find? fun k => (d.slot k).reservedFor b

/-- R127: the lowest-numbered FREE slot. -/
def Device.freeSlot (d : Device) : Option SlotId := allSlots.find? fun k => d.slot k == .free

/-- The RETAINED slot that holds a note number. -/
def Device.retainedSlot (d : Device) (n : Nat) : Option SlotId := allSlots.find? fun k => (d.slot k).holds n

/-- The number of slots in a state that a test picks out. -/
def Device.countSlots (d : Device) (p : SlotState → Bool) : Nat := (allSlots.filter fun k => p (d.slot k)).length

/-- R126: the directory counts FREE, RESERVED, RETAINED and BAD, an octet each. -/
def directoryCounts (d : Device) : List (List Byte) :=
  [octets 1 (d.countSlots fun s => s == .free),
    octets 1 (d.countSlots fun s => match s with
      | .reserved _ _ => true
      | _ => false),
    octets 1 (d.countSlots fun s => match s with
      | .retained _ _ => true
      | _ => false),
    octets 1 (d.countSlots fun s => s == .bad)]

/-- The earlier of two stalls, each a bay with the moment its stall began. -/
def earlierStall (x : Option (BayId × Nat)) (y : BayId × Nat) : Option (BayId × Nat) :=
  match x with
  | none => some y
  | some z => if y.2 < z.2 then some y else some z

/-- R135: the bay whose stall began first. -/
def Device.firstStalled (d : Device) : Option BayId :=
  (allBays.foldl (fun x b =>
    match (d.noteBay b).stall with
    | some n => earlierStall x (b, n)
    | none => x) none).map Prod.fst

/-- The slots RESERVED for a bay made BAD (R134, R135: the failed slot). -/
def Device.failSlotOf (d : Device) (b : BayId) : Device :=
  match d.reservedSlot b with
  | some k => d.setSlot k .bad
  | none => d

/-- R135: an available slot goes to the commit whose stall began first, or becomes FREE. -/
def Device.slotAvailable (d : Device) (k : SlotId) : Device :=
  match d.firstStalled with
  | none => d.setSlot k .free
  | some b =>
    let d1 := ((d.setSlot k .free).failSlotOf b).setSlot k (.reserved b false)
    let d2 := d1.onNoteBay b fun n => { n with stall := none }
    let d3 := match (d2.noteBay b).held with
      | some i => d2.headBarrier b k i
      | none => d2
    d3.bayNotice b 17 [octets 1 k.val]

/-- R128: a bay gives up its RESERVED slot at a withdrawal. -/
def Device.giveUpSlot (d : Device) (b : BayId) : Device :=
  match d.reservedSlot b with
  | some k => d.slotAvailable k
  | none => d

/-- R132: NU assembles the image, keeps it as the held image and hands CW the barrier with the bay's RESERVED slot. -/
def Device.commitNote (d : Device) (b : BayId) : Device :=
  match d.orderOf b, d.reservedSlot b with
  | some o, some k =>
    let i := assembleImage d b o
    (d.onNoteBay b fun n => { n with held := some i }).appendBarrier b k i
  | _, _ => d

/-- R134: CW reports that a bay's barrier has failed with its slot. The RACK notice carries the slot before the bay, as R141
lists them; R134 names the bay first (notes/assumptions/46.md). -/
def Device.commitFailed (d : Device) (b : BayId) (k : SlotId) (i : NoteImage) : Device :=
  let d0 := d.onNoteBay b fun n => { n with held := some i }
  match d0.freeSlot with
  | some f =>
    let d1 := (((d0.setSlot k .bad).setSlot f (.reserved b false)).headBarrier b f i)
    d1.rackNotice 16 ([octets 1 k.val, octets 1 b.val] ++ directoryCounts d1)
  | none =>
    let d1 := (d0.setSlot k (.reserved b true)).onNoteBay b fun n => { n with stall := some d0.nu.stallSeq }
    let d2 := d1.onNu fun u => { u with stallSeq := u.stallSeq + 1 }
    d2.bayNotice b 16 [octets 1 k.val]

end Sys2Proof.Machine
end

