-- ==== Sys2Proof/Machine/Authorization.lean ====
section
/-! DEFINITION. The Authorization Unit (chapter 5): swipe evaluation, reservations, releases and deductions. -/

namespace Sys2Proof.Machine

open Sys2Proof

/-! ### Reservations and deductions (section 5.5) -/

/-- The part with an account entry changed, if it is not empty. -/
def Device.onAccount (d : Device) (i : Nat) (f : Account → Account) : Device :=
  match Sparse.get i d.accounts with
  | some a => d.onAccounts (Sparse.put i (f a))
  | none => d

/-- R102: an entry's reserved allocation rises by a preset. -/
def Account.reserve (a : Account) (p : ProdIdx) (litres : Nat) : Account :=
  { a with reserved := Bank.write a.reserved p (Bank.read a.reserved p + litres) }

/-- R104: an entry's reserved allocation falls by a preset. -/
def Account.release (a : Account) (p : ProdIdx) (litres : Nat) : Account :=
  { a with reserved := Bank.write a.reserved p (Bank.read a.reserved p - litres) }

/-- R93, R105: an entry's remaining allocation falls by litres, not below −2 147 483 648. -/
def Account.deduct (a : Account) (p : ProdIdx) (litres : Nat) : Account :=
  { a with remaining := Bank.write a.remaining p (max (-2147483648) (Bank.read a.remaining p - (litres : Int))) }

/-- R104, R105: line `k` of an order gives up its reservation, and the entry it names is charged these litres. -/
def Device.releaseLine (d : Device) (o : Order) (k : Nat) (litres : Nat) : Device :=
  match o.lines[k]? with
  | none => d
  | some l =>
    match l.reservation with
    | none => d
    | some p =>
      (d.onAccount o.account fun a => (a.release p l.preset).deduct p litres).onOrder o.number
        fun x => x.onLine k fun y => { y with reservation := none }

/-- R106, R107: every line of an order that a test picks out gives up its reservation, for nothing. -/
def Device.releaseLines (d : Device) (o : Order) (pick : OrderLine → Bool) : Device :=
  (List.range o.lines.length).foldl (fun d k =>
    match o.lines[k]? with
    | some l => if pick l then d.releaseLine o k 0 else d
    | none => d) d

/-! ### Swipe evaluation (section 5.4) -/

/-- The permit that holds a credential. -/
def Device.permitOf (d : Device) (cred : Nat) : Option Permit :=
  (d.permits.find? fun e => e.2.credential == cred).map Prod.snd

/-- Whether a set octet has a member (R185). -/
def memberOf (set : Byte) (i : Nat) : Bool := set.getLsbD i

/-- R101: whether every member of one set octet is in another. -/
def insideSet (x y : Byte) : Bool := x &&& y == x

/-- R100: whether some non-empty, in-service arm record of the bay carries the product code. -/
def Device.carries (d : Device) (b : BayId) (code : Nat) : Bool :=
  allArms.any fun a =>
    match d.armRec a with
    | some r => r.bay == b && r.inService && r.product == code
    | none => false

/-- R100: whether a swipe at the bay passes an order over. -/
def Device.passedOver (d : Device) (b : BayId) (o : Order) : Bool :=
  (match o.expiry with
    | some e => decide (e < d.time.day)
    | none => false) ||
  o.lines.any fun l => (d.productOf l.product).isNone || !d.carries b l.product

/-- R100: the oldest QUEUED order, not passed over, whose driver credential is the one given. -/
def Device.oldestFor (d : Device) (b : BayId) (cred : Nat) : Option Order :=
  d.orders.find? fun o => o.state == .queued && o.credential == cred && !d.passedOver b o

/-- R100: the order a swipe chooses, one naming the driver before one open to any driver. -/
def Device.chooseOrder (d : Device) (b : BayId) (cred : Nat) : Option Order :=
  match d.oldestFor b cred with
  | some o => some o
  | none => d.oldestFor b 0

/-- R101, 8a: whether every product named by the order has its required classes inside the permit's set. -/
def Device.classesHeld (d : Device) (o : Order) (p : Permit) : Bool :=
  o.lines.all fun l =>
    match d.productOf l.product with
    | some (_, r) => insideSet r.classes p.classes
    | none => true

/-- R101, 8c: the sum of the presets of the order's lines that name a product entry. -/
def Device.presetsOn (d : Device) (o : Order) (i : ProdIdx) : Nat :=
  ((o.lines.filter fun l => (d.productOf l.product).map Prod.fst == some i).map OrderLine.preset).sum

/-- R101, 8c: whether each product entry named by the order has allocation left for its presets. -/
def Device.allocationLeft (d : Device) (o : Order) (a : Account) : Bool :=
  o.lines.all fun l =>
    match d.productOf l.product with
    | some (i, _) =>
      decide (((d.presetsOn o i : Nat) : Int) ≤ Bank.read a.remaining i - ((Bank.read a.reserved i : Nat) : Int))
    | none => true

/-- R101: step 8 for the chosen order: the refusal code of the first check that fails, or none. -/
def Device.step8 (d : Device) (o : Order) (p : Permit) : Option Display :=
  if !d.classesHeld o p then some .class
  else match Sparse.get o.account d.accounts with
  | none => some .accountStopped
  | some a =>
    if a.state = .stopped then some .accountStopped
    else if a.enforcement && !d.allocationLeft o a then some .allocation
    else if d.freeSlot = none then some .noteStoreFull
    else none

/-- What a swipe evaluation answers. -/
inductive SwipeResult
  | refused (code : Display)
  | assigned (o : Order) (p : Permit)
deriving DecidableEq, Repr

/-- R99 to R101: the tests of Table 5-6 in order. -/
def Device.evaluateSwipe (d : Device) (b : BayId) (cred : Nat) : SwipeResult :=
  if d.mp.clock = none then .refused .noClock
  else if d.lu.esd then .refused .rackEsd
  else match d.permitOf cred with
  | none => .refused .noPermit
  | some p =>
    if cred = 0 then .refused .noPermit
    else if p.state = .suspended then .refused .suspended
    else if p.expiry < d.time.day then .refused .expired
    else if !memberOf p.bays b.val then .refused .bayBarred
    else match d.chooseOrder b cred with
    | none => .refused .noOrder
    | some o =>
      match d.step8 o p with
      | some c => .refused c
      | none => .assigned o p

/-- R102: the reservations of an order, line by line, against the product entries of R101. -/
def Device.reserveLines (d : Device) (o : Order) : Device :=
  (List.range o.lines.length).foldl (fun d k =>
    match o.lines[k]? with
    | none => d
    | some l =>
      match d.productOf l.product with
      | none => d
      | some (i, _) =>
        (d.onAccount o.account fun a => a.reserve i l.preset).onOrder o.number
          fun x => x.onLine k fun y => { y with reservation := some i }) d

/-- R102: the effects of a passing evaluation on AU's and NU's state. -/
def Device.assignOrder (d : Device) (b : BayId) (o : Order) (p : Permit) : Device :=
  let d1 := (d.reserveLines o).onOrder o.number fun x =>
    { x with state := .assigned, assignment := some ⟨b, p.credential, p.driver⟩ }
  match d1.freeSlot with
  | some k => d1.setSlot k (.reserved b false)
  | none => d1

/-- R107: AU's part of a withdrawal: every reservation of the order released, its assignment discarded, the bay's slot
given up; the order becomes QUEUED at its place, or is removed when ORDER CANCEL caused the withdrawal. -/
def Device.withdrawOrder (d : Device) (b : BayId) (removed : Bool) : Device :=
  match d.orderOf b with
  | none => d.giveUpSlot b
  | some o =>
    let d1 := d.releaseLines o fun _ => true
    let d2 :=
      if removed then d1.onOrders fun q => q.filter fun x => x.number != o.number
      else d1.onOrder o.number fun x => { x with state := .queued, assignment := none }
    d2.giveUpSlot b

/-- R108: AU removes a bay's assigned order from the queue. -/
def Device.removeOrder (d : Device) (b : BayId) : Device :=
  match (d.bay b).order with
  | some n => d.onOrders fun q => q.filter fun x => x.number != n
  | none => d

end Sys2Proof.Machine
end

