-- ==== Sys2Proof/Machine/Dosing.lean ====
section
/-! DEFINITION. The Dosing Unit (chapter 3), with the batch stop that a failed window asks of the Arm Controller (R30,
R57, R58). -/

namespace Sys2Proof.Machine

open Sys2Proof

/-! ### Finding dosing records -/

/-- Whether a batch is the one a dosing reference names. -/
def Batch.isRef (r : DoseRef) (b : Batch) : Bool := b.arm == r.arm && b.line == r.line

/-- Whether the reference's batch is the open batch of its arm. -/
def Device.refOpen (d : Device) (r : DoseRef) : Bool :=
  match (d.arm r.arm).batch with
  | some b => b.isRef r
  | none => false

/-- The batch a dosing reference names: the arm's open one, or one on a bay's ended-batch list (R45). -/
def Device.doseBatch (d : Device) (r : DoseRef) : Option Batch :=
  if d.refOpen r then (d.arm r.arm).batch
  else allBays.findSome? fun b => (d.bay b).ended.find? (Batch.isRef r)

/-- The part with the referenced batch changed, open or ended. -/
def Device.onDoseBatch (d : Device) (r : DoseRef) (f : Batch → Batch) : Device :=
  if d.refOpen r then d.onBatch r.arm f
  else allBays.foldl (fun d b =>
    d.onBay b fun y => { y with ended := y.ended.map fun x => if x.isRef r then f x else x }) d

/-- A batch with the dosing record of recipe line `k` changed. -/
def Batch.onDose (b : Batch) (k : Nat) (f : Dosing → Dosing) : Batch :=
  { b with dosing := b.dosing.map fun x => if x.recipe == k then f x else x }

/-- The part with the referenced dosing record changed. -/
def Device.onDose (d : Device) (r : DoseRef) (f : Dosing → Dosing) : Device :=
  d.onDoseBatch r fun b => b.onDose r.recipe f

/-- The referenced dosing record. -/
def Device.dose (d : Device) (r : DoseRef) : Option Dosing :=
  (d.doseBatch r).bind fun b => b.dosing.find? fun x => x.recipe == r.recipe

/-- The references of the DOSED records of an arm's open batch, in recipe-line order. -/
def Device.openRefs (d : Device) (a : ArmId) : List DoseRef :=
  match (d.arm a).batch with
  | none => []
  | some b => (b.dosing.filter Dosing.dosed).map fun x => ⟨a, b.line, x.recipe⟩

/-- The references of the DOSED records of the batches on the bays' ended-batch lists. -/
def Device.endedRefs (d : Device) : List DoseRef :=
  (allBays.map fun b => ((d.bay b).ended.map fun t =>
    (t.dosing.filter Dosing.dosed).map fun x => DoseRef.mk t.arm t.line x.recipe).flatten).flatten

/-- The references of every DOSED record (R45), in the order in which they are counted at a latch or a fault (R55, R59): the
open batches in ascending arm number, then the ended ones as the bays list them. The rules give no order
(notes/assumptions/48.md). -/
def Device.doseRefs (d : Device) : List DoseRef := (allArms.map d.openRefs).flatten ++ d.endedRefs

/-- The references of every DOSED record that names the injector, ended batches' records among them (R43). -/
def Device.refsOn (d : Device) (c : Chan) : List DoseRef :=
  d.doseRefs.filter fun r =>
    match d.dose r with
    | some x => x.injector == some c
    | none => false

/-- Whether the injector's standing offer is for this record. -/
def Injector.offers (i : Injector) (r : DoseRef) : Bool :=
  match i.offer with
  | some o => o.ref == r
  | none => false

/-- The number of a record's pending shots that stand under an offer, 0 or 1. -/
def Device.underOffer (d : Device) (r : DoseRef) : Nat :=
  match d.dose r with
  | none => 0
  | some x =>
    match x.injector with
    | none => 0
    | some c => if (d.inj c).offers r then 1 else 0

/-- A standing offer of this arm's batch given a fate, unless it has been cancelled at close before. A shot that was to be
missed is cancelled at close when its batch closes or ends before the answer (notes/assumptions/21.md). -/
def Injector.fateFor (i : Injector) (pick : DoseRef → Bool) (f : OfferFate) : Injector :=
  match i.offer with
  | none => i
  | some o =>
    if pick o.ref && o.fate != .cancelled then { i with offer := some { o with fate := f } } else i

/-- Every channel's standing offer given a fate where its record is picked. -/
def Device.setFates (d : Device) (pick : DoseRef → Bool) (f : OfferFate) : Device :=
  allSixteen.foldl (fun d c => d.onInj c fun i => i.fateFor pick f) d

/-! ### Throttle (R47) -/

/-- Whether every DOSED record of a batch has no shot pending. -/
def Batch.noPending (b : Batch) : Bool := b.dosing.all fun x => !x.dosed || x.pending == 0

/-- R47: the throttle mark is cleared when no DOSED record of the batch has a shot pending. -/
def Batch.throttleClear (b : Batch) : Batch := if b.throttle && b.noPending then { b with throttle := false } else b

/-- R47: the throttle mark of the referenced batch, open or ended, after a fall of its pending shots. -/
def Device.throttleClear (d : Device) (r : DoseRef) : Device := d.onDoseBatch r Batch.throttleClear

/-! ### Close commanded and stop (R58, R30) -/

/-- R58: a record's close mark set and its pending shots cancelled at close, but for one under a standing offer. -/
def Dosing.cancelPending (x : Dosing) (mark : Bool) (offered : Nat) : Dosing :=
  let stay := min offered x.pending
  { x with closeMark := mark || x.closeMark, cancelled := x.cancelled + (x.pending - stay), pending := stay }

/-- R61: what the records of an ended batch still have pending is cancelled at close. -/
def Batch.cancelLeft (b : Batch) : Batch :=
  Batch.throttleClear { b with dosing := b.dosing.map fun x => x.cancelPending false 0 }

/-- R58, R61: the pending shots of an arm's open batch are cancelled at close; `mark` sets the close marks too. -/
def Device.cancelPendings (d : Device) (a : ArmId) (mark : Bool) : Device :=
  let d1 := (d.openRefs a).foldl (fun e r => e.onDose r fun x => x.cancelPending mark (d.underOffer r)) d
  match (d.arm a).batch with
  | none => d1
  | some b => (d1.setFates (fun r => r.arm == a && r.line == b.line) .cancelled).onBatch a Batch.throttleClear

/-- R30: a batch in START, FULL or TAPER passes to CLOSE_WAIT with a STOP snapshot; DU is told that the close is
commanded. -/
def Device.stopBatch (d : Device) (a : ArmId) : Device :=
  match (d.arm a).batch with
  | none => d
  | some b =>
    if b.phase.flowing then
      let d1 := d.onArm a fun c =>
        { c with zeroFlow := 0, batch := some { b with phase := .closeWait, snapshot := some (b.volume, .stop) } }
      d1.cancelPendings a true
    else d

/-! ### Windows (section 3.7) -/

/-- R57: a failed window: ADDITIVE_FAULT on the batch, an INJECTOR notice, and for a STOP line the stop of its open
batch. V_w travels in four octets, its low ones (DESIGN CHOICE; notes/assumptions/64.md). -/
def Device.failWindow (d : Device) (r : DoseRef) (c : Chan) (action : FaultAction) (v expected : Nat) : Device :=
  let d1 := d.onDoseBatch r fun b => { b with flags := { b.flags with additiveFault := true } }
  let d2 := d1.injNotice c 2 [octets 1 r.arm.val, octets 1 r.recipe, octets 4 v, octets 4 expected]
  match action with
  | .stop => if d2.refOpen r then d2.stopBatch r.arm else d2
  | .flag => d2

/-- R56: when a record's window count reaches W, the window is checked and the next one begins. -/
def Device.checkWindow (d : Device) (r : DoseRef) : Device :=
  match d.dose r with
  | none => d
  | some x =>
    match x.injector with
    | none => d
    | some c =>
      match d.injRec c with
      | none => d
      | some j =>
        if j.window ≤ x.winCount then
          let d1 := d.onDose r fun y => { y with winCount := 0, winVol := 0 }
          if windowFails x.winVol j.window j.shot j.tolerance then
            d1.failWindow r c x.action x.winVol (j.window * j.shot * 100)
          else d1
        else d

/-- A shot of a record counted missed, with DOSE_SHORTFALL on its batch when `short` says so. -/
def Device.missShot (d : Device) (r : DoseRef) (short : Bool) : Device :=
  let d1 := d.onDoseBatch r fun b =>
    let b1 := b.onDose r.recipe fun x => { x with missed := x.missed + 1, winCount := x.winCount + 1 }
    if short then { b1 with flags := { b1.flags with doseShortfall := true } } else b1
  d1.checkWindow r

/-- `n` shots of a record counted missed with DOSE_SHORTFALL. -/
def Device.missShots : Nat → DoseRef → Device → Device
  | 0, _, d => d
  | n + 1, r, d => Device.missShots n r (d.missShot r true)

/-- R55, R59: every pending shot of these records is counted missed, but for one under a standing offer, whose answer
settles it. The pending counts fall together before any window is checked. -/
def Device.missPendings (d : Device) (l : List DoseRef) : Device :=
  let counts := l.map fun r =>
    (r, ((d.dose r).map Dosing.pending).getD 0 - d.underOffer r)
  let d1 := counts.foldl (fun e rn => e.onDose rn.1 fun x => { x with pending := x.pending - rn.2 }) d
  let d2 := d1.setFates (fun r => l.contains r) .missed
  let d3 := counts.foldl (fun e rn => Device.missShots rn.2 rn.1 e) d2
  l.foldl Device.throttleClear d3

/-! ### Shots that fall due (section 3.4) -/

/-- Whether ESD or the power-fail warning is latched. -/
def Device.latched (d : Device) : Bool := d.lu.esd || d.lu.powerfail

/-- R46, Table 3-4: one shot of a record falls due and is settled by the first case that applies. -/
def Device.shotDue (d : Device) (r : DoseRef) (c : Chan) : Device :=
  match d.dose r with
  | none => d
  | some x =>
    if x.closeMark then d.onDose r fun y => { y with cancelled := y.cancelled + 1 }
    else if (d.inj c).state = .fault then d.missShot r true
    else if d.latched then d.missShot r true
    else if 2 ≤ x.pending then d.missShot r true
    else
      d.onDoseBatch r fun b =>
        let b1 := b.onDose r.recipe fun y => { y with pending := y.pending + 1 }
        if x.pending = 1 then { b1 with throttle := true } else b1

/-- `n` shots of a record fall due, one after another. -/
def Device.shotsDue : Nat → DoseRef → Chan → Device → Device
  | 0, _, _, d => d
  | n + 1, r, c, d => Device.shotsDue n r c (d.shotDue r c)

/-- R46: the accumulator's threshold, S × 10^8. -/
def InjectorRec.threshold (j : InjectorRec) : Nat := j.shot * 100000000

/-- R46: a DOSED record takes a gross increment, and a shot falls due for each threshold in its accumulator. -/
def Device.doseRecord (d : Device) (dVg : Nat) (r : DoseRef) : Device :=
  match d.dose r with
  | none => d
  | some x =>
    match x.injector with
    | none => d
    | some c =>
      match d.injRec c with
      | none => d
      | some j =>
        let acc := x.acc + dVg * x.dose
        Device.shotsDue (acc / j.threshold) r c (d.onDose r fun y => { y with acc := acc % j.threshold })

/-- R18, R46: DU takes a sample's gross increment for each DOSED record of the arm's open batch, one after the other in
recipe-line order: a STOP line whose window fails at the sample sets the close mark before the next line's due shots are
settled. R46 does not order the two (notes/assumptions/48.md). -/
def Device.doseSample (d : Device) (a : ArmId) (dVg : Nat) : Device :=
  if dVg = 0 then d else (d.openRefs a).foldl (fun e r => e.doseRecord dVg r) d

/-! ### Serving recipe lines (section 3.3, R45) -/

/-- The channel that serves an additive code at an arm at this moment, if any (the four conditions of section 3.3). -/
def Device.servedBy (d : Device) (a : ArmId) (code : Nat) : Option Chan :=
  match d.armRec a with
  | none => none
  | some r =>
    match r.additiveMap.find? fun e => e.1 == code with
    | none => none
    | some (_, c) =>
      match d.injRec c with
      | none => none
      | some j => if (d.inj c).state = .available && j.code == code && d.usable j.station .injector then some c else none

/-- R45, Table 3-3: the dosing record opened for a recipe line. -/
def Device.openDosing (d : Device) (a : ArmId) (k : Nat) (l : RecipeLine) : Dosing :=
  let c := d.servedBy a l.code
  let s := match c.bind d.injRec with
    | some j => j.shot
    | none => 0
  { dosed := c.isSome, recipe := k, code := l.code, dose := l.dose, action := l.action, injector := c,
    acc := s * 100000000 / 2, pending := 0, closeMark := false, winCount := 0, winVol := 0, completed := 0, missed := 0,
    cancelled := 0, delivered := 0, required := none }

/-- R45: the dosing records of a new batch, in recipe-line order from index `k`. -/
def Device.openDosings (d : Device) (a : ArmId) : Nat → List RecipeLine → List Dosing
  | _, [] => []
  | k, l :: t => d.openDosing a k l :: d.openDosings a (k + 1) t

/-- Section 3.3: whether a STOP line of a product cannot be served at the arm. -/
def Device.stopLineUnserved (d : Device) (a : ArmId) (l : List RecipeLine) : Bool :=
  l.any fun x => x.action == .stop && (d.servedBy a x.code).isNone

/-- Section 3.3: at a resume, whether a STOP line whose record is DOSED cannot be served. -/
def Device.resumeUnserved (d : Device) (b : Batch) : Bool :=
  b.dosing.any fun x => x.dosed && x.action == .stop && (d.servedBy b.arm x.code).isNone

/-- R60: the close marks of a resumed batch are cleared. -/
def Batch.clearMarks (b : Batch) : Batch := { b with dosing := b.dosing.map fun x => { x with closeMark := false } }

/-! ### Offers (section 3.5) -/

/-- R49: the DOSED records naming the injector with shots pending and the close mark clear, in ascending arm order. A record
names it until its bay's ended-batch list is emptied (R43), so an ended batch's record is among them. -/
def Device.eligible (d : Device) (c : Chan) : List DoseRef :=
  let l := (d.refsOn c).filter fun r =>
    match d.dose r with
    | some x => decide (0 < x.pending) && !x.closeMark
    | none => false
  (allArms.map fun a => l.filter fun r => r.arm == a).flatten

/-- R50: the arbiter's choice among eligible records; no service yet counts as service of the lower-numbered arm. A
last-served arm that is neither of the two leaves the lower-numbered one first: R50 does not say which
(notes/assumptions/41.md). -/
def arbitrate (last : Option ArmId) : List DoseRef → Option DoseRef
  | [] => none
  | [r] => some r
  | r :: s :: _ => if last.getD r.arm = r.arm then some s else some r

/-- R49: whether the injector's own conditions for a new offer hold. -/
def Device.mayOffer (d : Device) (c : Chan) (j : InjectorRec) : Bool :=
  let i := d.inj c
  i.state == .available && d.usable j.station .injector && !d.latched &&
  (match i.view with
    | none => false
    | some v =>
      v.ready && (i.inFlight.isEmpty || (j.acceptance == .buffered && i.inFlight.length == 1 && v.bufferFree)))

/-- R49: the next token, 1 to 255 and back to 1. -/
def tokenAfter (t : Nat) : Nat := if t = 255 then 1 else t + 1

/-- R49: as LM takes the call's content, DU keeps a standing offer or makes a new one. -/
def Device.offerShot (d : Device) (c : Chan) : Device :=
  match d.injRec c with
  | none => d
  | some j =>
    if (d.inj c).offer.isSome || !d.mayOffer c j then d
    else match arbitrate (d.inj c).lastServed (d.eligible c) with
    | none => d
    | some r =>
      d.onInj c fun i =>
        { i with offer := some ⟨i.nextToken, r, !i.inFlight.isEmpty, .stays⟩, nextToken := tokenAfter i.nextToken }

/-- R49: the token a call carries; 0 when no offer stands. -/
def Injector.callToken (i : Injector) : Nat :=
  match i.offer with
  | some o => o.token
  | none => 0

/-! ### Fault (R55) -/

/-- R55: an AVAILABLE injector enters FAULT with a cause: pending shots on it are counted missed and an INJECTOR notice
reports it. The cause is sent as 0 MISSED, 1 PROTOCOL, numbers that no rule gives (DESIGN CHOICE;
notes/assumptions/77.md). -/
def Device.faultInjector (d : Device) (c : Chan) (cause : Nat) : Device :=
  if (d.inj c).state = .available then
    ((d.onInj c fun i => { i with state := .fault }).missPendings (d.refsOn c)).injNotice c 1 [octets 1 cause]
  else d

/-! ### Answers and completions (R48, R51, R52) -/

/-- A shot of a record leaves its pending count. -/
def Device.takePending (d : Device) (r : DoseRef) : Device := d.onDose r fun x => { x with pending := x.pending - 1 }

/-- R51, R54, R55, R58, R59: a shot whose offer was not taken: it stays pending, is missed, or is cancelled at close. -/
def Device.settleUntaken (d : Device) (c : Chan) (o : Offer) : Device :=
  let d1 := match o.fate with
    | .cancelled => (d.takePending o.ref).onDose o.ref fun x => { x with cancelled := x.cancelled + 1 }
    | .missed => (d.takePending o.ref).missShot o.ref true
    | .stays => if (d.inj c).state = InjectorState.fault then (d.takePending o.ref).missShot o.ref true else d
  d1.throttleClear o.ref

/-- R51: the answer in a good return settles a standing offer. -/
def Device.answerOffer (d : Device) (c : Chan) (j : InjectorRec) (answer token : Nat) : Device :=
  match (d.inj c).offer with
  | none => d
  | some o =>
    if answer = 1 ∧ token = o.token then
      let d1 := d.onInj c fun i =>
        { i with offer := none, lastServed := some o.ref.arm, inFlight := i.inFlight ++ [⟨o.token, o.ref, d.now⟩] }
      (d1.takePending o.ref).throttleClear o.ref
    else
      let d1 := d.onInj c fun i => { i with offer := none }
      let d2 := d1.settleUntaken c o
      if j.acceptance = .buffered && o.onBuffer then d2.faultInjector c 1 else d2

/-- R52: a last-completed token that matches a shot in flight credits its volume to its dosing record. -/
def Device.completeShot (d : Device) (c : Chan) (j : InjectorRec) (token pulses : Nat) : Device :=
  match (d.inj c).inFlight.find? fun s => s.token == token with
  | none => d
  | some s =>
    let v := shotVolume pulses j.kFactor
    let d1 := d.onInj c fun i => { i with inFlight := i.inFlight.erase s, missed := 0 }
    let d2 := d1.onDose s.ref fun x =>
      { x with delivered := x.delivered + v, winVol := x.winVol + v, completed := x.completed + 1,
               winCount := x.winCount + 1 }
    d2.checkWindow s.ref

/-- R48: DU acts on a good return of a usable injector station: view, then a standing offer, then a completion. -/
def Device.injectorReturn (d : Device) (c : Chan) (j : InjectorRec) (v : ReturnView) (answer token last pulses : Nat) :
    Device :=
  ((d.onInj c fun i => { i with view := some v }).answerOffer c j answer token).completeShot c j last pulses

/-- R48: the injector's station is lost: the view becomes not seen and a standing offer is withdrawn, its shot staying
pending whatever was to become of it at an answer; one that an ended batch's record still has pending at the commit of its
note is cancelled there (Device.closingTest; notes/assumptions/21.md). -/
def Device.injectorLost (d : Device) (c : Chan) : Device := d.onInj c fun i => { i with view := none, offer := none }

/-- R53: a shot in flight whose timeout runs out is missed; three in a row fault the injector. The window that the missed shot
fills is checked (R56) before the third miss brings FAULT (R55), so a STOP line that fails it has its batch's pending shots
cancelled at close and not counted missed; no rule orders the two (notes/assumptions/56.md). -/
def Device.timeoutShot (d : Device) (c : Chan) (s : Shot) : Device :=
  let d1 := d.onInj c fun i => { i with inFlight := i.inFlight.erase s, missed := min 3 (i.missed + 1) }
  let d2 := d1.missShot s.ref false
  if (d2.inj c).missed = 3 then d2.faultInjector c 0 else d2

/-- R59: ESD or the power-fail warning latches: every pending shot is counted missed, after the bays have taken the cause
(notes/assumptions/62.md). -/
def Device.latchShots (d : Device) : Device :=
  let d1 := d.missPendings d.doseRefs
  d1.setFates (fun _ => true) .missed

/-- R61: the shots in flight and offers standing whose records belong to batches of a bay. -/
def Device.outstandingShots (d : Device) (b : BayId) : Nat :=
  let at' := fun (r : DoseRef) =>
    match d.armRec r.arm with
    | some x => x.bay == b
    | none => false
  (allSixteen.map fun c =>
    let i := d.inj c
    (i.inFlight.filter fun s => at' s.ref).length +
      (match i.offer with
        | some o => if at' o.ref then 1 else 0
        | none => 0)).sum

end Sys2Proof.Machine
end

