-- ==== Sys2Proof/Machine/Batches.lean ====
section
/-! DEFINITION. The Arm Controller (chapter 2): starting, resuming and ending a batch, the stage a valve call carries, and
the close-ahead ring. -/

namespace Sys2Proof.Machine

open Sys2Proof

/-! ### Records of an arm -/

/-- The bay an arm's non-empty record names. -/
def Device.bayOfArm (d : Device) (a : ArmId) : Option BayId := (d.armRec a).map ArmRecord.bay

/-- Whether the arm has an open batch; an arm holds no other (R24). -/
def Device.hasBatch (d : Device) (a : ArmId) : Bool := (d.arm a).batch.isSome

/-- R42: what the notice of a batch event carries after the arm: compartment, phase, V and flags. The ten flags take two
octets and V eight, which R185 does not give them (DESIGN CHOICE; notes/assumptions/71.md, 72.md). -/
def Batch.noticeFields (b : Batch) : List (List Byte) :=
  [octets 1 b.compartment, octets 1 b.phase.code, octets 8 b.volume, octets 2 b.flags.number]

/-! ### The stage of a valve call (R36) -/

/-- R36, L6: whether every condition for an open stage holds at the arm. -/
def Device.mayOpen (d : Device) (a : ArmId) : Bool :=
  match d.bayOfArm a with
  | none => false
  | some b =>
    let r := d.bay b
    r.state == .loading && r.ground && r.overfill && !d.latched && (d.arm a).flowing

/-- R36: the effective stage, the one a call to the arm's VALVE station carries. -/
def Device.effectiveStage (d : Device) (a : ArmId) : Stage := if d.mayOpen a then (d.arm a).commanded else .closed

/-! ### Starting a batch (R25 to R27) -/

/-- R26: the lowest line index whose line is NOT_BATCHED with the arm's product, counted from `k`. -/
def chooseLineFrom (code : Nat) : Nat → List OrderLine → Option (Nat × OrderLine)
  | _, [] => none
  | k, l :: t => if l.batch = .notBatched ∧ l.product = code then some (k, l) else chooseLineFrom code (k + 1) t

/-- R26: the line a new batch of this product takes from the bay's assigned order. -/
def Device.chooseLine (d : Device) (b : BayId) (code : Nat) : Option (Nat × OrderLine) :=
  (d.orderOf b).bind fun o => chooseLineFrom code 0 o.lines

/-- Table 2-3, ARM_NOT_READY: whether the arm is ready to take a batch. -/
def Device.armReady (d : Device) (a : ArmId) : Bool :=
  match d.armRec a with
  | none => false
  | some r =>
    r.inService && decide (2 ≤ r.curve.length) && (d.productOf r.product).isSome && d.usable r.meter .meter &&
    d.usable r.valve .valve && (r.temp == 0 || d.usable r.temp .temp) && (d.arm a).position == .closed

/-- The seal-open bit of the arm's METER station. -/
def Device.sealOpenAt (d : Device) (a : ArmId) : Bool :=
  match d.armRec a with
  | none => false
  | some r => (d.station r.meter).isKind .meter && (d.station r.meter).sealOpen

/-- Table 2-3, ADDITIVE_UNAVAILABLE for a new batch: a STOP line of the arm's product cannot be served. -/
def Device.newUnserved (d : Device) (a : ArmId) : Bool :=
  match (d.armRec a).bind fun r => d.productOf r.product with
  | none => false
  | some (_, p) => d.stopLineUnserved a p.recipe

/-- Table 2-3: the reason a start of a new batch at the arm is refused, in the order of the table. -/
def Device.newRefusal (d : Device) (b : BayId) (a : ArmId) : Option Display :=
  if d.latched then some .esd
  else if !(d.bay b).ground || !(d.bay b).overfill then some .permissive
  else if !d.armReady a then some .armNotReady
  else if d.sealOpenAt a then some .sealOpen
  else if (d.arm a).totFault then some .totalizerFault
  else if (d.arm a).coupler ≠ .latched then some .coupler
  else if ((d.armRec a).bind fun r => d.chooseLine b r.product) = none then some .noLine
  else if d.newUnserved a then some .additiveUnavailable
  else none

/-- Table 2-3, resume column: the reason a resume of the arm's batch is refused. -/
def Device.resumeRefusal (d : Device) (b : BayId) (a : ArmId) (t : Batch) : Option Display :=
  if d.latched then some .esd
  else if !(d.bay b).ground || !(d.bay b).overfill then some .permissive
  else if !d.armReady a then some .armNotReady
  else if d.sealOpenAt a then some .sealOpen
  else if (d.arm a).coupler ≠ .latched then some .coupler
  else if d.resumeUnserved t then some .additiveUnavailable
  else none

/-- Table 2-2 at acceptance, R26, R45: the batch record of a new batch. -/
def Device.newBatch (d : Device) (a : ArmId) (k : Nat) (l : OrderLine) (p : Product) : Batch :=
  let ds := d.openDosings a 0 p.recipe
  { arm         := a
    line        := k
    compartment := l.compartment
    product     := l.product
    preset      := l.preset
    basis       := l.basis.getD p.basis
    startVol    := p.startVol
    taperVol    := p.taperVol
    overrun     := p.overrun
    phase       := .start
    delivered   := ⟨0, 0⟩
    snapshot    := none
    tempSum     := 0
    opening     := (d.meter a).mirror
    closing     := none
    startTime   := d.time
    endTime     := none
    flags       := { BatchFlags.none with additiveSkipped := ds.any fun x => !x.dosed }
    discarded   := 0
    mismatches  := 0
    throttle    := false
    endStatus   := none
    dosing      := ds }

/-- R26: a new batch accepted at the arm on a line of the bay's order. -/
def Device.acceptBatch (d : Device) (b : BayId) (a : ArmId) (k : Nat) (l : OrderLine) (p : Product) : Device :=
  let t := d.newBatch a k l p
  let d1 := d.onArm a fun c => { c with batch := some t, zeroFlow := 0 }
  let d2 := match (d.bay b).order with
    | some n => d1.onOrder n fun o => o.onLine k fun x => { x with batch := .opened }
    | none => d1
  d2.armNotice a 2 t.noticeFields

/-- R27, R60: an INTERRUPTED batch returns to START. -/
def Device.resumeBatch (d : Device) (a : ArmId) (t : Batch) : Device :=
  let t1 := { t with phase := .start, snapshot := none }.clearMarks
  (d.onArm a fun c => { c with batch := some t1 }).armNotice a 3 t1.noticeFields

/-! ### Ending a batch (R33, R34, R40) -/

/-- R33, R61: an ended batch's record: closing readings, end time, end status, OVERRUN and required additives. -/
def Batch.finish (b : Batch) (mirror : Vol) (t : Time) (short : Bool) : Batch :=
  { b with
    closing   := some mirror
    endTime   := some t
    endStatus := some (if short || decide (b.volume + 1000000 < b.presetUl) then .short else .complete)
    flags     := { b.flags with
      overrun := b.flags.overrun || decide (b.presetUl + b.overrun * 1000000 < b.volume) }
    phase     := .ended
    dosing    := b.dosing.map fun x => { x with required := some (requiredAdditive b.delivered.gross x.dose) } }

/-- R40: the overrun an ending batch teaches, if it teaches one. -/
def Batch.lesson (b : Batch) (short : Bool) : Option Nat :=
  match b.phase, b.snapshot with
  | .closeWait, some (v, .preset) => if short then none else some (overrunMl b.volume v)
  | _, _ => none

/-- R40: the arm's ring and close-ahead after a lesson. -/
def ArmCtl.learn (c : ArmCtl) (x : Option Nat) : ArmCtl :=
  match x with
  | none => c
  | some n => { c with ring := c.ring.push n, closeAhead := (c.ring.push n).average }

/-- R24: an ended batch put in its place in ascending compartment order. -/
def insertEnded (b : Batch) : List Batch → List Batch
  | [] => [b]
  | x :: t => if b.compartment < x.compartment then b :: x :: t else x :: insertEnded b t

/-- R33, R105: AC marks the order line ENDED, and AU releases its reservation and deducts the delivered net. -/
def Device.settleLine (d : Device) (b : BayId) (t : Batch) : Device :=
  match d.orderOf b with
  | none => d
  | some o =>
    (d.onOrder o.number fun x => x.onLine t.line fun y => { y with batch := .ended }).releaseLine o t.line
      (netLitres t.delivered.net)

/-- R33: the arm's batch ends; `short` is R34's SHORT for a batch ended from INTERRUPTED. -/
def Device.endBatch (d : Device) (a : ArmId) (short : Bool) : Device :=
  let d0 := d.cancelPendings a false
  match (d0.arm a).batch, d0.bayOfArm a with
  | some t, some b =>
    let e := t.finish (d0.meter a).mirror d0.time short
    let d1 := d0.onArm a fun c => { (c.learn (t.lesson short)) with batch := none }
    let d2 := d1.settleLine b e
    let d3 := d2.onBay b fun r => { r with ended := insertEnded e r.ended }
    d3.armNotice a 5 (e.noticeFields ++
      [octets 1 (match e.endStatus with
        | some s => s.code
        | none => 0), volOctets (d0.meter a).mirror])
  | _, _ => d0

end Sys2Proof.Machine
end

