-- ==== Sys2Proof/Machine/Bays.lean ====
section
/-! DEFINITION. The Bay Controller (chapter 4): bay states, bids, authorization and its withdrawal, trips, holds, and the
closing of a load. -/

namespace Sys2Proof.Machine

open Sys2Proof

/-! ### State changes -/

/-- A bay enters a state; the panel message is cleared at each change of the bay state (R85). -/
def Device.enterState (d : Device) (b : BayId) (st : BayState) : Device :=
  d.onBay b fun r => if r.state = st then r else { r with state := st, message := none }

/-- A panel message set or cleared (R85). -/
def Device.showMessage (d : Device) (b : BayId) (m : Option Display) : Device := d.onBay b fun r => { r with message := m }

/-! ### Interruptions and batch ends as BC sees them (R32, R82) -/

/-- R32: the arm's batch passes to INTERRUPTED when its phase is picked, its flags marked; one already INTERRUPTED takes
the mark alone. R82: in a CLOSING bay AC ends it at once, SHORT. -/
def Device.interruptBatch (d : Device) (a : ArmId) (pick : Phase → Bool) (mark : BatchFlags → BatchFlags) : Device :=
  match (d.arm a).batch with
  | none => d
  | some t =>
    if t.phase = .interrupted then d.onBatch a fun x => { x with flags := mark x.flags }
    else if pick t.phase then
      let t1 := { t with phase := .interrupted, flags := mark t.flags }
      let d1 := (d.onArm a fun c => { c with batch := some t1 }).armNotice a 4 t1.noticeFields
      match d1.bayOfArm a with
      | some b => if (d1.bay b).state = .closing then d1.endBatch a true else d1
      | none => d1
    else d

/-- The open phases: every phase but ENDED and INTERRUPTED. -/
def Phase.beforeEnd : Phase → Bool
  | .start | .full | .taper | .closeWait => true
  | .interrupted | .ended => false

/-- R32: BC reports a trip or a hold to AC for each arm of the bay, in ascending arm number, an order that no rule gives
(DESIGN CHOICE; notes/assumptions/61.md). -/
def Device.interruptBay (d : Device) (b : BayId) : Device :=
  (d.armsOf b).foldl (fun e a => e.interruptBatch a Phase.flowing id) d

/-! ### Closing (R72, R82, R83) -/

/-- R82: what AC does with an arm's batch as its bay enters CLOSING. -/
def Device.closeArm (d : Device) (a : ArmId) : Device :=
  match (d.arm a).batch with
  | none => d
  | some t => if t.phase = .interrupted then d.endBatch a true else d.stopBatch a

/-- R82: the bay enters CLOSING. Its arms take the close in ascending arm number, an order that no rule gives (DESIGN CHOICE;
notes/assumptions/61.md). -/
def Device.closeLoad (d : Device) (b : BayId) : Device :=
  let d1 := (d.enterState b .closing).onBay b fun r =>
    { r with causes := .empty, resumeTimer := none, authTimer := .stopped, before := none, swipe := none }
  (((d.armsOf b).foldl Device.closeArm d1)).bayNotice b 14 []

/-- Whether no batch of the bay is open. -/
def Device.noBatch (d : Device) (b : BayId) : Bool := (d.armsOf b).all fun a => !d.hasBatch a

/-- R72: a LOADING bay passes to CLOSING when every line of its order is ENDED and no batch of the bay is open. -/
def Device.loadTest (d : Device) (b : BayId) : Device :=
  match d.orderOf b with
  | none => d
  | some o =>
    if (d.bay b).state = .loading ∧ o.lines.all (fun l => l.batch == .ended) ∧ d.noBatch b then d.closeLoad b else d

/-- R83: a CLOSING bay with no batch open and no shot outstanding releases the lines never batched, asks NU to commit and
enters NOTE_COMMIT. No shot is pending at the note (R131): one that R48 left pending on an ended record is cancelled at
close here (R61; notes/assumptions/21.md). -/
def Device.closingTest (d : Device) (b : BayId) : Device :=
  if (d.bay b).state = .closing ∧ d.noBatch b ∧ d.outstandingShots b = 0 then
    let d0 := d.onBay b fun r => { r with ended := r.ended.map Batch.cancelLeft }
    let d1 := match d0.orderOf b with
      | some o => d0.releaseLines o fun l => l.batch == LineBatch.notBatched
      | none => d0
    ((d1.commitNote b).enterState b .noteCommit).bayNotice b 1 []
  else d

/-- R33, R72: AC ends an arm's batch from CLOSE_WAIT and reports it to BC. -/
def Device.batchEnded (d : Device) (a : ArmId) : Device :=
  match d.bayOfArm a with
  | some b => (d.endBatch a false).loadTest b
  | none => d

/-! ### Trips (section 4.6) -/

/-- R79: a bay enters HELD from a state, and the hold is reported granted: one notice for the event, whatever it changes
(notes/assumptions/42.md). -/
def Device.enterHeld (d : Device) (b : BayId) (from' : BeforeHold) : Device :=
  ((d.enterState b .held).onBay b fun r => { r with before := some from' }).bayNotice b 12 []

/-- The ms a timer of `s` seconds starts at. -/
def secondsMs (s : Nat) : Nat := s * 1000

/-- R74: the bay enters TRIPPED; with the overfill lockout set its resume timer stays stopped (R81). One notice reports the
state and the cause set (notes/assumptions/42.md). -/
def Device.enterTrip (d : Device) (b : BayId) : Device :=
  let window := secondsMs d.mp.settings.resumeWindow
  (((d.enterState b .tripped).onBay b fun r =>
    { r with resumeTimer := if r.lockout then none else some window }).interruptBay b).bayNotice b 8 []

/-- R73, R74: a cause joins the bay's set and the trip causes seen, and an OVERFILL raises the overfill trip count. -/
def Bay.join (r : Bay) (c : TripCause) : Bay :=
  { r with
    causes := r.causes.put c true
    seen := r.seen.put c true
    trips := if c = .overfill then min 2 (r.trips + 1) else r.trips }

/-- R74: the overfill trip count reaching 2 sets the lockout. -/
def Device.lockoutTest (d : Device) (b : BayId) (before : Nat) : Device :=
  if before < 2 ∧ (d.bay b).trips = 2 then
    (d.onBay b fun r => { r with lockout := true, lockoutDuring := true, resumeTimer := none }).bayNotice b 9 []
  else d

/-- Whether causes join the set of a bay in its present state (R73): LOADING, HOLDING, TRIPPED, and HELD from LOADING. -/
def Bay.takesCauses (r : Bay) : Bool :=
  match r.state with
  | .loading | .holding | .tripped => true
  | .held => r.before == some .loading
  | .closed | .idle | .authorized | .closing | .noteCommit => false

/-- R73: BC takes a trip cause by the bay's state. -/
def Device.takeCause (d : Device) (b : BayId) (c : TripCause) : Device :=
  let r := d.bay b
  match r.state with
  | .closing | .noteCommit => d.onBay b fun x => { x with seen := x.seen.put c true }
  | .loading | .holding =>
    if r.causes.has c then d else ((d.onBay b fun x => x.join c).enterTrip b).lockoutTest b r.trips
  | .tripped | .held | .closed | .idle | .authorized =>
    if !r.takesCauses || r.causes.has c then d
    else ((d.onBay b fun x => x.join c).bayNotice b 10 []).lockoutTest b r.trips

/-- R75: a cause leaves the set; an empty set with the lockout clear takes a TRIPPED bay to LOADING or to HELD. -/
def Device.clearCause (d : Device) (b : BayId) (c : TripCause) : Device :=
  if !(d.bay b).causes.has c then d
  else
    let d1 := (d.onBay b fun x => { x with causes := x.causes.put c false }).bayNotice b 10 []
    let r := d1.bay b
    if r.state = .tripped ∧ r.causes.isEmpty ∧ r.lockout = false then
      let d2 := d1.onBay b fun x => { x with resumeTimer := none }
      if r.holding then d2.enterHeld b .loading
      else ((d2.enterState b .loading).bayNotice b 1 []).loadTest b
    else d1

/-- R73, R75, R167 to R169: a latch reported set or clear to BC for every bay; the bays take it in ascending number
(notes/assumptions/43.md). -/
def Device.latchCause (d : Device) (c : TripCause) (set : Bool) : Device :=
  allBays.foldl (fun e b => if set then e.takeCause b c else e.clearCause b c) d

/-- R75: whether every arm of the bay reports CLOSED with its travel timer stopped. -/
def Device.armsSeated (d : Device) (b : BayId) : Bool :=
  (d.armsOf b).all fun a => (d.arm a).position == .closed && (d.arm a).travel == none

/-- R75: the VALVE cause leaves when every arm of the bay is seated. The condition becomes true only at a report of
R37, since VALVE joins with an arm whose position is not CLOSED. -/
def Device.valveTest (d : Device) (b : BayId) : Device :=
  if (d.bay b).causes.valve ∧ d.armsSeated b then d.clearCause b .valve else d

/-! ### Swipes (R67, R81) -/

/-- R67: the bay takes the order that AU assigned. -/
def Bay.authorize (r : Bay) (order timeout : Nat) : Bay :=
  { r with
    order := some order
    trips := 0
    lockout := false
    seen := .empty
    heldDuring := false
    lockoutDuring := false
    authTimer := .running (secondsMs timeout)
    message := none }

/-- R67: a swipe evaluated at an IDLE bay. The notice carries the refusal code by its number of R184, 9 to 19 (DEDUCED;
notes/assumptions/9.md). -/
def Device.swipeIdle (d : Device) (b : BayId) (cred : Nat) : Device :=
  match d.evaluateSwipe b cred with
  | .refused c => (d.showMessage b (some c)).bayNotice b 3 [octets 1 c.code, octets 4 cred]
  | .assigned o p =>
    (((d.assignOrder b o p).enterState b .authorized).onBay b fun r =>
      r.authorize o.number d.mp.settings.authTimeout).bayNotice b 2 [octets 4 o.number, octets 4 cred]

/-- R67, R81, R85: a SWIPE bid taken by the bay's state. -/
def Device.swipeBid (d : Device) (b : BayId) (cred : Nat) : Device :=
  match (d.bay b).state with
  | .idle => (d.showMessage b none).swipeIdle b cred
  | .held => (d.showMessage b (some .hold)).onBay b fun r => { r with swipe := some cred }
  | .closed => d
  | .authorized | .loading | .holding | .tripped | .closing | .noteCommit => d.showMessage b none

/-! ### Holds (section 4.7) -/

/-- R68: the authorization timer suspended with its time remaining. -/
def AuthTimer.suspend : AuthTimer → AuthTimer
  | .running ms => .suspended ms
  | t => t

/-- R68: the authorization timer running on. -/
def AuthTimer.resume : AuthTimer → AuthTimer
  | .suspended ms => .running ms
  | t => t

/-- R79: a hold taken acts by the bay's state. Each event that makes several of the changes R88 names raises one notice, with
the event code of the last thing it brings (notes/assumptions/42.md). -/
def Device.holdTaken (d : Device) (b : BayId) : Device :=
  match (d.bay b).state with
  | .idle => d.enterHeld b .idle
  | .authorized =>
    (d.onBay b fun r => { r with authTimer := r.authTimer.suspend, heldDuring := true }).enterHeld b .authorized
  | .loading =>
    (((d.enterState b .holding).onBay b fun r => { r with before := some .loading, heldDuring := true }).interruptBay
      b).bayNotice b 11 []
  | .closed | .holding | .held | .tripped | .closing | .noteCommit => d.bayNotice b 11 []

/-- R80: a HOLDING bay whose arms all report CLOSED enters HELD. -/
def Device.grantHold (d : Device) (b : BayId) : Device :=
  if (d.bay b).state = .holding ∧ (d.armsOf b).all (fun a => (d.arm a).position == .closed) then
    (d.enterState b .held).bayNotice b 12 []
  else d

/-- R81: the bay leaves HELD for its state before hold, or for TRIPPED. A latched swipe is evaluated on the return to
IDLE and discarded in every other case. -/
def Device.leaveHeld (d : Device) (b : BayId) : Device :=
  let r := d.bay b
  let d1 := d.onBay b fun x => { x with before := none, swipe := none }
  match r.before with
  | some .loading =>
    if r.lockout || !r.causes.isEmpty then (d1.enterTrip b).bayNotice b 13 []
    else ((d1.enterState b .loading).bayNotice b 13 []).loadTest b
  | some .authorized =>
    ((d1.enterState b .authorized).onBay b fun x => { x with authTimer := x.authTimer.resume }).bayNotice b 13 []
  | some .idle | none =>
    let d2 := (d1.enterState b .idle).bayNotice b 13 []
    match r.swipe with
    | some cred => d2.swipeIdle b cred
    | none => d2

/-- R81: the release of the last hold source acts by the bay's state. -/
def Device.holdReleased (d : Device) (b : BayId) : Device :=
  match (d.bay b).state with
  | .held => d.leaveHeld b
  | .holding =>
    (((d.enterState b .loading).onBay b fun x => { x with before := none }).bayNotice b 13 []).loadTest b
  | .tripped => (d.onBay b fun x => { x with before := none }).bayNotice b 13 []
  | .closed | .idle | .authorized | .loading | .closing | .noteCommit => d.bayNotice b 13 []

/-- R78: the bay's hold sources take these values. -/
def Device.setHolds (d : Device) (b : BayId) (bayHold rackHold : Bool) : Device :=
  let r := d.bay b
  if r.holdBay = bayHold ∧ r.holdRack = rackHold then d
  else
    let d1 := d.onBay b fun x => { x with holdBay := bayHold, holdRack := rackHold }
    if !r.holding && (d1.bay b).holding then d1.holdTaken b
    else if r.holding && !(d1.bay b).holding then d1.holdReleased b
    else d1.bayNotice b 11 []

/-- R78, R170: the RACK source set or cleared for all four bays together, whose effects follow in ascending bay number, a
latched swipe's evaluation among them (R81, R103; notes/assumptions/43.md). -/
def Device.setRackHolds (d : Device) (v : Bool) : Device :=
  allBays.foldl (fun e b => e.setHolds b (e.bay b).holdBay v) d

/-! ### Withdrawal (R71) -/

/-- Causes of a withdrawal, as its notice numbers them: timer expiry, FINISH, LOAD FINISH, BAY CLOSE, ORDER CANCEL. -/
inductive WithdrawCause | timeout | finish | loadFinish | bayClose | orderCancel
deriving DecidableEq, Repr

/-- The number of a withdrawal's cause in its notice (notes/assumptions/9.md). -/
def WithdrawCause.code : WithdrawCause → Nat
  | .timeout => 0
  | .finish => 1
  | .loadFinish => 2
  | .bayClose => 3
  | .orderCancel => 4

/-- R71: a bay whose authorization has been withdrawn: its order is gone, its timer stopped, and its state follows. -/
def Bay.withdrawn (r : Bay) : Bay :=
  { r with order := none, authTimer := .stopped, before := if r.state = .held then some .idle else r.before }

/-- R71: the authorization of a bay in AUTHORIZED, or in HELD from AUTHORIZED, is withdrawn. -/
def Device.withdraw (d : Device) (b : BayId) (c : WithdrawCause) : Device :=
  let d1 := (d.withdrawOrder b (c == .orderCancel)).onBay b Bay.withdrawn
  let d2 := if (d.bay b).state = .authorized then d1.enterState b .idle else d1
  let d3 := if c = .bayClose then (d2.enterState b .closed).onBay b fun r => { r with before := none, swipe := none } else d2
  d3.bayNotice b 7 [octets 1 c.code]

/-- R68: the authorization timer of a bay in AUTHORIZED expires. -/
def Device.authExpired (d : Device) (b : BayId) : Device := (d.withdraw b .timeout).bayNotice b 6 []

/-! ### START, STOP and FINISH (R25, R69, R70) -/

/-- R25, R69: a refused start: its reason becomes the panel message and AC raises an ARM notice, which carries the reason by
its number of R184, 20 to 27 (DEDUCED; notes/assumptions/9.md). -/
def Device.refuseStart (d : Device) (b : BayId) (a : ArmId) (c : Display) : Device :=
  (d.showMessage b (some c)).armNotice a 1 [octets 1 c.code]

/-- R69: BC's part of an accepted start of a new batch: an AUTHORIZED bay moves to LOADING and its order with it. -/
def Device.loadStarted (d : Device) (b : BayId) : Device :=
  if (d.bay b).state = .authorized then
    let d1 := (d.enterState b .loading).onBay b fun r => { r with authTimer := .stopped }
    let d2 := match (d.bay b).order with
      | some n => d1.onOrder n fun o => { o with state := .loading }
      | none => d1
    d2.bayNotice b 5 []
  else d

/-- R25: a forwarded START at an arm without a batch. -/
def Device.startNew (d : Device) (b : BayId) (a : ArmId) : Device :=
  match d.newRefusal b a with
  | some c => d.refuseStart b a c
  | none =>
    match d.armRec a with
    | none => d
    | some r =>
      match d.chooseLine b r.product, d.productOf r.product with
      | some (k, l), some (_, p) => (d.acceptBatch b a k l p).loadStarted b
      | _, _ => d

/-- R25: a forwarded START at an arm with a batch: a resume when it is INTERRUPTED, and no effect otherwise. -/
def Device.startOld (d : Device) (b : BayId) (a : ArmId) (t : Batch) : Device :=
  if t.phase = .interrupted then
    match d.resumeRefusal b a t with
    | some c => d.refuseStart b a c
    | none => d.resumeBatch a t
  else d

/-- R69: BC forwards a START to AC. -/
def Device.forwardStart (d : Device) (b : BayId) (a : ArmId) : Device :=
  match (d.arm a).batch with
  | none => d.startNew b a
  | some t => d.startOld b a t

/-- R69: a START bid taken by the bay's state. -/
def Device.startBid (d : Device) (b : BayId) (a : ArmId) : Device :=
  let d0 := d.showMessage b none
  let r := d.bay b
  if r.state = .closed then d
  else if d.bayOfArm a ≠ some b then d0.showMessage b (some .armNotReady)
  else match r.state with
  | .idle => (d0.showMessage b (some .noOrder)).bayNotice b 4 [octets 1 Display.noOrder.code]
  | .authorized | .loading => d0.forwardStart b a
  | .holding | .held => d0.showMessage b (some .hold)
  | .tripped => d0.showMessage b (some (if r.lockout then .lockout else .trip))
  | .closed | .closing | .noteCommit => d0

/-- R70: a STOP bid: in LOADING it stops the flowing batch of an arm of the bay. -/
def Device.stopBid (d : Device) (b : BayId) (a : ArmId) : Device :=
  if (d.bay b).state = .closed then d
  else
    let d0 := d.showMessage b none
    if (d.bay b).state = .loading ∧ d.bayOfArm a = some b then d0.stopBatch a else d0

/-- R70: what a FINISH bid or LOAD FINISH does by the bay's state; none where it has no effect. -/
def Device.finishLoad (d : Device) (b : BayId) (c : WithdrawCause) : Option Device :=
  let r := d.bay b
  match r.state with
  | .closed | .idle | .closing | .noteCommit => none
  | .authorized => some (d.withdraw b c)
  | .loading | .holding => some (d.closeLoad b)
  | .held =>
    (match r.before with
      | some .authorized => some (d.withdraw b c)
      | some .loading => some (d.closeLoad b)
      | some .idle | none => none)
  | .tripped => if r.lockout then none else some (d.closeLoad b)

/-- R70: a FINISH bid. -/
def Device.finishBid (d : Device) (b : BayId) : Device :=
  if (d.bay b).state = .closed then d
  else
    let d0 := d.showMessage b none
    match d0.finishLoad b .finish with
    | some e => e
    | none =>
      if (d.bay b).state = .tripped ∧ (d.bay b).lockout then d0.showMessage b (some .lockout) else d0

/-! ### Opening, closing and committing (R66, R84) -/

/-- R66: BAY OPEN at a CLOSED bay with a record: IDLE, and on to HELD when a hold source is active. -/
def Device.openBay (d : Device) (b : BayId) : Device :=
  let d1 := (d.enterState b .idle).bayNotice b 1 []
  if (d1.bay b).holding then d1.enterHeld b .idle else d1

/-- R66: a bay passes to CLOSED with no authorization to withdraw. -/
def Device.shutBay (d : Device) (b : BayId) : Device :=
  ((d.enterState b .closed).onBay b fun r => { r with before := none, swipe := none }).bayNotice b 1 []

/-- R66: what BAY CLOSE does by the bay's state; none is WRONG_STATE. -/
def Device.closeBay (d : Device) (b : BayId) : Option Device :=
  let r := d.bay b
  match r.state with
  | .closed => some d
  | .idle => some (d.shutBay b)
  | .authorized => some (d.withdraw b .bayClose)
  | .held =>
    (match r.before with
      | some .idle => some (d.shutBay b)
      | some .authorized => some (d.withdraw b .bayClose)
      | some .loading | none => none)
  | .loading | .holding | .tripped | .closing | .noteCommit => none

/-- R84: the bay enters IDLE at the commit: its order, its ended-batch list, its overfill count and lockout go. -/
def Bay.committed (r : Bay) : Bay :=
  { r with order := none, ended := [], trips := 0, lockout := false }

/-- R141: what the NOTE notice of a commit carries besides the bay fields: note number, slot, order number, lines loaded
and lines not loaded. -/
def commitFigures (n : Nat) (k : SlotId) (i : Option NoteImage) : List (List Byte) :=
  match i with
  | some x => [octets 4 n, octets 1 k.val, octets 4 x.order, octets 1 x.lines.length, octets 1 x.notLoaded.length]
  | none => [octets 4 n, octets 1 k.val, octets 4 0, octets 1 0, octets 1 0]

/-- R133, R84, R141: a commit completes with its slot and its note number. -/
def Device.commitComplete (d : Device) (b : BayId) (k : SlotId) (n : Nat) : Device :=
  let i := (d.noteBay b).held
  let d1 := (d.setSlot k (.retained n false)).onNoteBay b fun x => { x with held := none, last := n }
  let d2 := ((d1.removeOrder b).enterState b .idle).onBay b Bay.committed
  let d3 := d2.raise .note (.bay b) 15 (bayFields d2 b ++ commitFigures n k i)
  if (d3.bay b).holding then d3.enterHeld b .idle else d3

end Sys2Proof.Machine
end

