-- ==== Sys2Proof/Machine/Metering.lean ====
section
/-! DEFINITION. The Metering Engine at work (sections 1.4 to 1.6): the meter sample from the return to the hand-on of its
increments, temperature returns, and the loss and the seal of a METER station. -/

namespace Sys2Proof.Machine

open Sys2Proof

/-! ### Temperature (R13, R14) -/

/-- R14: the temperature a sample uses and its source; the fallback is the product's, or 1500. -/
def Device.sampleTemp (d : Device) (a : ArmId) (r : ArmRecord) (p : Option Product) : Int × TempSource :=
  let s := d.station r.temp
  let m := d.meter a
  let good := r.temp != 0 && s.isKind .temp && !s.faulty && m.heldValid
  if good && s.state == .active then (m.heldTemp, .live)
  else if good && s.state == .slipped then (m.heldTemp, .held)
  else match p with
    | some x => (x.fallback, .fallback)
    | none => (1500, .fallback)

/-- R13: one arm takes a TEMP return. -/
def Meter.takeTemp (m : Meter) (t : Int) (probeFault : Bool) : Meter :=
  if !probeFault && decide (-4000 ≤ t) && decide (t ≤ 7000) then { m with heldTemp := t, heldValid := true }
  else { m with heldValid := false }

/-- The arms whose non-empty record names the address as TEMP station. -/
def Device.armsOfTemp (d : Device) (n : Addr) : List ArmId :=
  allArms.filter fun a =>
    match d.armRec a with
    | some r => r.temp == n
    | none => false

/-- R13: a good return of a usable TEMP station. -/
def Device.tempReturn (d : Device) (n : Addr) (t : Int) (probeFault : Bool) : Device :=
  (d.armsOfTemp n).foldl (fun e a => e.onMeter a fun m => m.takeTemp t probeFault) d

/-- R13: a TEMP station passes to SILENT, MISMATCH or UNCONFIGURED: the held temperature is not valid, its value kept as R13
says for a probe fault (DESIGN CHOICE; notes/assumptions/70.md). -/
def Device.tempLost (d : Device) (n : Addr) : Device :=
  (d.armsOfTemp n).foldl (fun e a => e.onMeter a fun m => { m with heldValid := false }) d

/-! ### Loss and seal (R21, R22) -/

/-- METER_GAP set. -/
def BatchFlags.markGap (f : BatchFlags) : BatchFlags := { f with meterGap := true }

/-- R21: the arm's METER station is lost: the baseline is not valid, its counts kept (DESIGN CHOICE;
notes/assumptions/70.md), and an open batch is interrupted with METER_GAP. -/
def Device.meterLost (d : Device) (a : ArmId) : Device :=
  (d.onMeter a fun m => { m with baselineValid := false }).interruptBatch a Phase.beforeEnd BatchFlags.markGap

/-- R22: the seal-open bit of the arm's METER station changes. -/
def Device.sealChanged (d : Device) (a : ArmId) (isOpen : Bool) : Device :=
  if isOpen then (d.onBatch a fun b => { b with flags := b.flags.markGap }).armNotice a 9 []
  else d.armNotice a 10 []

/-! ### The sample (R7 to R18) -/

/-- R31: the zero-flow count after a sample with pulse delta `dl`, for a batch in CLOSE_WAIT; a count fault counts as a
sample with pulses. -/
def ArmCtl.countZero (c : ArmCtl) (dl : Nat) : Nat := if c.position = .closed ∧ dl = 0 then c.zeroFlow + 1 else 0

/-- R9: a count fault: the baseline moves on, and an open batch is told the discarded pulses. -/
def Device.countFault (d : Device) (a : ArmId) (c : Counts) (dl : Nat) : Device :=
  (d.onMeter a fun m => { m with baseline := c }).onArm a fun x =>
    match x.batch with
    | none => x
    | some b =>
      { x with
        batch := some { b with flags := { b.flags with countFault := true }, discarded := b.discarded + dl }
        zeroFlow := if b.phase = .closeWait then 0 else x.zeroFlow }

/-- What a sample's arithmetic gives (R10 to R16). -/
structure Increment where
  pulses   : Nat
  mismatch : Bool
  mf       : Nat
  temp     : Int
  source   : TempSource
  vcf      : Nat
  clamped  : Bool
  known    : Bool
  vol      : Vol
  grossRes : Nat
  netRes   : Nat
deriving DecidableEq, Repr

/-- R10 to R16: the arithmetic of a sample of arm `a` with pulse deltas `dl`, `dB` and flow rate `q`. -/
def Device.increment (d : Device) (a : ArmId) (r : ArmRecord) (dl dB q : Nat) : Increment :=
  let p := (d.productOf r.product).map Prod.snd
  let m := d.meter a
  let mf := meterFactor r.curve q
  let g := grossIncrement r.kFactor dl mf m.grossResidue
  let t := d.sampleTemp a r p
  let vcf := match p with
    | some x => vcfOf x.alpha t.1
    | none => 1000000
  let n := netIncrement g.1 vcf m.netResidue
  { pulses := dl, mismatch := pulseMismatch dl dB, mf := mf, temp := t.1, source := t.2, vcf := vcf,
    clamped := (match p with
      | some x => vcfClamped x.alpha t.1
      | none => false),
    known := p.isSome, vol := ⟨g.1, n.1⟩, grossRes := g.2, netRes := n.2 }

/-- R11 to R18: the meter state after a sample's arithmetic, the mirror among it. -/
def Meter.advance (m : Meter) (i : Increment) : Meter :=
  { m with grossResidue := i.grossRes, netResidue := i.netRes, currentTemp := i.temp, tempSource := i.source,
           lastMf := i.mf, lastVcf := i.vcf, mirror := m.mirror.add i.vol }

/-- R10, R14, R15, R17, R18: an open batch after a sample's arithmetic. -/
def Batch.advance (b : Batch) (i : Increment) : Batch :=
  let n := if i.mismatch then b.mismatches + 1 else b.mismatches
  let flow := decide (0 < i.vol.gross)
  { b with
    mismatches := n
    flags := { b.flags with
      pulseMismatch := b.flags.pulseMismatch || (i.mismatch && decide (8 ≤ n))
      tempDefaulted := b.flags.tempDefaulted || (i.source == .fallback && flow && i.known)
      vcfLimited := b.flags.vcfLimited || (i.clamped && flow) }
    tempSum := b.tempSum + (i.vol.gross : Int) * i.temp
    delivered := b.delivered.add i.vol }

/-- R28: the batch after its phase test with close-ahead `ca`; a new close takes its snapshot. -/
def Batch.evaluate (b : Batch) (ca : Nat) : Batch :=
  if b.phase.flowing then
    let p := nextPhase b ca
    if p = .closeWait then { b with phase := p, snapshot := some (b.volume, .preset) } else { b with phase := p }
  else b

/-- R28, R31, R41: AC takes a sample. The zero-flow count follows the phase before the test. -/
def Device.batchSample (d : Device) (a : ArmId) (i : Increment) : Device :=
  let c := d.arm a
  match c.batch with
  | none =>
    let u := c.unassigned.add i.vol
    let d1 := d.onArm a fun x => { x with unassigned := u }
    if c.unassigned.gross / 2000000 < u.gross / 2000000 then
      d1.armNotice a 8 [volOctets u]
    else d1
  | some b =>
    let b1 := (b.advance i).evaluate c.closeAhead
    let z := if b.phase = .closeWait then c.countZero i.pulses else if b1.phase = .closeWait then 0 else c.zeroFlow
    let d1 := d.onArm a fun x => { x with batch := some b1, zeroFlow := z }
    if b.phase.flowing && b1.phase == .closeWait then d1.cancelPendings a true else d1

/-- R31: the batch ends when its zero-flow count has reached 3. -/
def Device.zeroFlowTest (d : Device) (a : ArmId) : Device :=
  match (d.arm a).batch with
  | none => d
  | some b => if b.phase = .closeWait ∧ 3 ≤ (d.arm a).zeroFlow then d.batchEnded a else d

/-- R18: a sample that reaches R16 is handed on: the mirror, AC, CW, then DU; then R31's test. -/
def Device.handOn (d : Device) (a : ArmId) (i : Increment) : Device :=
  ((((d.onMeter a fun m => m.advance i).batchSample a i).postTotals a i.vol).doseSample a i.vol.gross).zeroFlowTest a

/-- R7 to R18: a meter sample of arm `a`. -/
def Device.meterSample (d : Device) (a : ArmId) (r : ArmRecord) (c : Counts) : Device :=
  let m := d.meter a
  if !m.baselineValid then d.onMeter a fun x => { x with baseline := c, baselineValid := true }
  else
    let dl := wrapDelta c.a m.baseline.a
    let dB := wrapDelta c.b m.baseline.b
    let e := wrapDelta c.ts m.baseline.ts
    if e = 0 then (if dl = 0 then d else d.countFault a c dl)
    else
      let q := flowRate r.kFactor dl e
      if 2 * r.qMax < q then d.countFault a c dl
      else
        let d1 := d.onMeter a fun x => { x with baseline := c, lastFlow := q }
        d1.handOn a (d1.increment a r dl dB q)

end Sys2Proof.Machine
end

