-- ==== Sys2Proof/Machine/Valves.lean ====
section
/-! DEFINITION. Valves and couplers (section 2.5), and what follows every event: travel supervision, the output drives, and
the tests that BC and CW make of the state an event leaves. -/

namespace Sys2Proof.Machine

open Sys2Proof

/-! ### Reports of a VALVE station (R35, R39) -/

/-- R31, R35: the reported position set; a change away from CLOSED sets the zero-flow count to 0. -/
def ArmCtl.setPosition (c : ArmCtl) (p : Position) : ArmCtl :=
  { c with position := p, zeroFlow := if c.position = .closed ∧ p ≠ .closed then 0 else c.zeroFlow }

/-- R39: the coupler set; a change from LATCHED during flow interrupts the batch and is reported. The report's notice, event
7, carries the arm alone: it is no batch event with R42's compartment, phase, V and flags, which the interruption's own
notice carries before it (notes/assumptions/53.md). -/
def Device.setCoupler (d : Device) (a : ArmId) (k : Coupler) : Device :=
  let d1 := d.onArm a fun c => { c with coupler := k }
  if (d.arm a).coupler = .latched ∧ k ≠ .latched ∧ (d.arm a).flowing then
    (d1.interruptBatch a Phase.flowing id).armNotice a 7 []
  else d1

/-- R35: the position and the coupler of an arm take new values. -/
def Device.valveReport (d : Device) (a : ArmId) (p : Position) (k : Coupler) : Device :=
  (d.onArm a fun c => c.setPosition p).setCoupler a k

/-! ### Travel faults (R38) -/

/-- VALVE_FAULT set. -/
def BatchFlags.markValve (f : BatchFlags) : BatchFlags := { f with valveFault := true }

/-- CLOSE_WAIT alone. -/
def Phase.closing : Phase → Bool
  | .closeWait => true
  | .start | .full | .taper | .interrupted | .ended => false

/-- R37, R38: an arm's running travel timer expires: a travel fault for the effective stage. Its notice, event 6, carries the
arm, the stage and the position, and none of what R42 gives a batch event (notes/assumptions/53.md). -/
def Device.travelExpired (d : Device) (a : ArmId) : Device :=
  if (d.arm a).travel = none then d
  else
    let st := d.effectiveStage a
    let d1 := (d.onArm a fun c => { c with travel := none }).armNotice a 6
      [octets 1 st.code, octets 1 (d.arm a).position.code]
    match st with
    | .low | .high => d1.interruptBatch a Phase.flowing BatchFlags.markValve
    | .closed =>
      let d2 := match d1.bayOfArm a with
        | some b => d1.takeCause b .valve
        | none => d1
      d2.interruptBatch a Phase.closing BatchFlags.markValve

/-! ### Travel supervision (R37) -/

/-- R37: whether a position agrees with a stage; MOVING, FAULT and UNKNOWN differ from every stage. -/
def Stage.agrees : Stage → Position → Bool
  | .closed, .closed | .low, .low | .high, .high => true
  | _, _ => false

/-- R37: the travel timer of an arm after an event that took `old` to `new`. A timer that runs keeps the time it has left when
the valve travel limit is rewritten; the new limit counts from the next start or restart on (notes/assumptions/55.md). -/
def superviseArm (old new : Device) (a : ArmId) : Device :=
  let s0 := old.effectiveStage a
  let s1 := new.effectiveStage a
  let p0 := (old.arm a).position
  let p1 := (new.arm a).position
  let limit := secondsMs new.mp.settings.valveTravel
  if s0 = s1 ∧ p0 = p1 then new
  else if s1.agrees p1 then new.onArm a fun c => { c with travel := none }
  else if s0 ≠ s1 then new.onArm a fun c => { c with travel := some limit }
  else new.onArm a fun c => { c with travel := some (c.travel.getD limit) }

/-- R37 for every arm. -/
def supervise (old new : Device) : Device := allArms.foldl (fun e a => superviseArm old e a) new

/-! ### Output drives (R163) -/

/-- Whether a mode is one of the two output modes. -/
def isOutput : LineMode → Bool
  | .outputPush | .outputOpen => true
  | .input | .inputDebounced => false

/-- R163: the drive that a function gives an output; a GENERAL output keeps the drive it was asked for. -/
def Device.wantedDrive (d : Device) (f : LineFn) (asked : Bool) : Bool :=
  match f with
  | .beaconOut b => (d.bay b).state == .loading
  | .faultOut => d.lu.esd || allBays.any fun b => (d.bay b).state == .tripped
  | .general => asked
  | .esdIn | .powerfailIn | .holdIn | .groundIn _ | .overfillIn _ => false

/-- Table 9-2: an output's drive follows its function; an input has none. -/
def Device.refreshLine (d : Device) (l : LineId) : Device :=
  d.onLine l fun x =>
    { x with drive := if isOutput x.mode then some (d.wantedDrive x.func (x.drive.getD false)) else none }

/-- R87, R163: every output line driven by the bay states and the ESD latch as they stand. A drive leaves the line's pin level
alone (notes/assumptions/50.md). -/
def Device.driveOutputs (d : Device) : Device := allSixteen.foldl Device.refreshLine d

/-- R163: the level an output line is driven to; none is an undriven pin. -/
def Line.driven (x : Line) : Option Level :=
  match x.mode, x.drive with
  | .outputPush, some v => some (if v then x.active else (if x.active = .high then .low else .high))
  | .outputOpen, some v =>
    let want := if v then x.active else (if x.active = .high then Level.low else .high)
    if want = .low then some .low else none
  | _, _ => none

/-! ### What follows every event -/

/-- R75, R80, R83: BC's tests of a bay after an event: VALVE cleared, a hold granted, the closing complete. -/
def Device.bayTests (d : Device) (b : BayId) : Device := ((d.valveTest b).grantHold b).closingTest b

/-- What follows an event that took `old` to `new`: travel supervision, the bays' tests in ascending bay number
(notes/assumptions/43.md), the output drives, then CW takes work and parks (R114, R123). -/
def settle (old new : Device) : Device :=
  ((allBays.foldl Device.bayTests (supervise old new)).driveOutputs.cwStart).cwPark

/-- An event carried out with what follows it. -/
def Device.event (d : Device) (f : Device → Device) : Device := settle d (f d)

end Sys2Proof.Machine
end

