-- ==== Sys2Proof/Machine/Lines.lean ====
section
/-! DEFINITION. The Line Unit (chapter 9): line levels and edges, permissives, the ESD and power-fail latches and the rack
hold source. -/

namespace Sys2Proof.Machine

open Sys2Proof

/-! ### Lines (R162) -/

/-- R162: an input line is active when its line level equals its active level; an output is not an input line. -/
def Line.isActive (x : Line) : Bool := !isOutput x.mode && x.level == x.active

/-- Whether some line of this function is active. -/
def Device.anyActive (d : Device) (f : LineFn) : Bool :=
  allSixteen.any fun l => (d.line l).func == f && (d.line l).isActive

/-! ### Permissives (R165, R166) -/

/-- Held pair of an address. -/
def Device.pair (d : Device) (n : Addr) : HeldPair := Bank.read d.lu.pairs n

/-- The part with a held pair replaced. -/
def Device.setPair (d : Device) (n : Addr) (p : HeldPair) : Device :=
  d.onLu fun u => { u with pairs := Bank.write u.pairs n p }

/-- The function a line must have to serve a permissive of a bay. -/
def permFunc (b : BayId) (overfill : Bool) : LineFn := if overfill then .overfillIn b else .groundIn b

/-- R165, R166: whether the permissive of a bay from this source is present; `overfill` picks which of the two. -/
def Device.present (d : Device) (b : BayId) (src : PermSource) (overfill : Bool) : Bool :=
  match src with
  | .station n =>
    let s := d.station n
    let p := d.pair n
    s.isKind .permit && ((s.state == .active && !s.faulty) || s.state == .slipped) && p.valid &&
      (if overfill then p.overfill else p.ground)
  | .line l => (d.line l).func == permFunc b overfill && (d.line l).isActive

/-- R166: a bay's ground permissive as LU evaluates it; absent for an empty bay record. -/
def Device.groundNow (d : Device) (b : BayId) : Bool :=
  match d.bayRec b with
  | none => false
  | some r => d.present b r.ground false

/-- R166: a bay's overfill permissive as LU evaluates it; absent for an empty bay record. -/
def Device.overfillNow (d : Device) (b : BayId) : Bool :=
  match d.bayRec b with
  | none => false
  | some r => d.present b r.overfill true

/-- R65, R73, R75: BC takes LU's report of a bay's ground permissive. -/
def Device.reportGround (d : Device) (b : BayId) (now : Bool) : Device :=
  let d1 := d.onBay b fun r => { r with ground := now }
  if now then d1.clearCause b .ground else d1.takeCause b .ground

/-- R65, R73, R75: BC takes LU's report of a bay's overfill permissive. -/
def Device.reportOverfill (d : Device) (b : BayId) (now : Bool) : Device :=
  let d1 := d.onBay b fun r => { r with overfill := now }
  if now then d1.clearCause b .overfill else d1.takeCause b .overfill

/-- R166: LU evaluates a bay's permissives and reports each that has changed since its last report: ground before overfill
where both have, an order that R166 does not give (notes/assumptions/58.md). -/
def Device.evalBay (d : Device) (b : BayId) : Device :=
  let g := d.groundNow b
  let o := d.overfillNow b
  let d1 := if g = (d.bay b).ground then d else d.reportGround b g
  if o = (d1.bay b).overfill then d1 else d1.reportOverfill b o

/-- R166 for every bay; a bay whose sources did not change reports nothing. -/
def Device.evalPermissives (d : Device) : Device := allBays.foldl Device.evalBay d

/-- R64, R166: at a write or clear of a bay record both permissives are reported as they stand. -/
def Device.reportBoth (d : Device) (b : BayId) : Device :=
  (d.reportGround b (d.groundNow b)).reportOverfill b (d.overfillNow b)

/-- R165: a good return of a PERMIT station, taken when a bay record names the address. -/
def Device.permitReturn (d : Device) (n : Addr) (ground overfill : Bool) : Device :=
  if allBays.any (fun b =>
      match d.bayRec b with
      | some r => r.ground == .station n || r.overfill == .station n
      | none => false)
  then (d.setPair n ⟨ground, overfill, true⟩).evalPermissives else d

/-- R165: a PERMIT station is lost: its held pair is not valid; its flags stay as they last stood, which no rule says
(DESIGN CHOICE; notes/assumptions/70.md). -/
def Device.permitLost (d : Device) (n : Addr) : Device :=
  (d.setPair n { d.pair n with valid := false }).evalPermissives

/-! ### The ESD latch (R167, R168) -/

/-- A RACK notice of LU (R171). -/
def Device.luNotice (d : Device) (event : Nat) : Device := d.rackNotice event (luFields d)

/-- R167: an active edge of an ESD_IN line. The bays take the cause before DU counts the pending shots, an order that no rule
gives (DESIGN CHOICE; notes/assumptions/62.md). -/
def Device.esdEdge (d : Device) : Device :=
  if d.lu.esd = false then
    (((d.onLu fun u => { u with esd := true }).latchCause .esd true).latchShots).luNotice 5
  else if d.lu.esdPending = false then (d.onLu fun u => { u with esdPending := true }).luNotice 6
  else d

/-- R168: what an ESD CLEAR does; none is WRONG_STATE. -/
def Device.clearEsd (d : Device) : Option Device :=
  if d.lu.esd = false ∨ d.anyActive .esdIn then none
  else if d.lu.esdPending then some ((d.onLu fun u => { u with esdPending := false }).luNotice 8)
  else some (((d.onLu fun u => { u with esd := false }).latchCause .esd false).luNotice 7)

/-! ### The power-fail warning latch (R169, R123) -/

/-- R123: the latch is set: RUNNING becomes DRAINING, at once and not after the write in progress (DEDUCED;
notes/assumptions/66.md). -/
def Device.cwDrain (d : Device) : Device :=
  d.onCw fun c => { c with mode := if c.mode = .running then .draining else c.mode }

/-- R117, R123: the latch clears: CW enters RUNNING, reports leaving PARKED with what LU's notices carry
(notes/assumptions/45.md), and a held barrier is looked at again. The mode changes at once, a write in progress or not
(DEDUCED; notes/assumptions/66.md). -/
def Device.cwRun (d : Device) : Device :=
  let d1 := d.onCw fun c => { c with mode := .running, held := none }
  if d.cw.mode = .parked then d1.luNotice 14 else d1

/-- R169: an active edge of a POWERFAIL_IN line. The bays take the cause before DU counts the pending shots, an order that no
rule gives (DESIGN CHOICE; notes/assumptions/62.md). LU's notice 9 comes before the notice 13 of a CW that parks at once
(DESIGN CHOICE; notes/assumptions/69.md). -/
def Device.powerfailEdge (d : Device) : Device :=
  if d.lu.powerfail = false then
    ((((d.onLu fun u => { u with powerfail := true }).cwDrain).latchCause .power true).latchShots).luNotice 9
  else d

/-- R169: an inactive edge of a POWERFAIL_IN line clears the latch when none of them is active. -/
def Device.powerfailOff (d : Device) : Device :=
  if d.lu.powerfail = true ∧ d.anyActive .powerfailIn = false then
    (((d.onLu fun u => { u with powerfail := false }).cwRun).latchCause .power false).luNotice 10
  else d

/-! ### The rack hold source (R170) -/

/-- R170: whether the rack hold source is active. -/
def Device.holdNow (d : Device) : Bool := d.lu.mgmtHold || d.anyActive .holdIn

/-- R170: the rack hold source evaluated again; a change is reported to BC for all bays and in a RACK notice. -/
def Device.evalHold (d : Device) : Device :=
  let v := d.holdNow
  if v = d.lu.holdSource then d
  else (((d.onLu fun u => { u with holdSource := v }).setRackHolds v).luNotice 11)

/-- R170: RACK HOLD and RACK RELEASE. -/
def Device.setMgmtHold (d : Device) (v : Bool) : Device :=
  if d.lu.mgmtHold = v then d else (((d.onLu fun u => { u with mgmtHold := v }).luNotice 12).evalHold)

/-! ### Edges (R162) -/

/-- R162: an edge of a line goes to the rule of the function it is bound to. -/
def Device.lineEdge (d : Device) (l : LineId) (active : Bool) : Device :=
  match (d.line l).func with
  | .esdIn => if active then d.esdEdge else d
  | .powerfailIn => if active then d.powerfailEdge else d.powerfailOff
  | .holdIn => d.evalHold
  | .groundIn _ | .overfillIn _ => d.evalPermissives
  | .general | .beaconOut _ | .faultOut => d

/-- R162: a line level takes the pin level and its timer stops; a change of level makes an edge. -/
def Device.takePin (d : Device) (l : LineId) : Device :=
  let x := d.line l
  let d1 := d.onLine l fun y => { y with level := y.pin, timer := none }
  if x.level = x.pin then d1 else d1.lineEdge l (d1.line l).isActive

/-- R162: the pin of a line comes to a level; the line level of an output stays as its LINE SET took it
(notes/assumptions/50.md). -/
def Device.pinChanged (d : Device) (l : LineId) (v : Level) : Device :=
  let x := d.line l
  if x.pin = v then d
  else
    let d1 := d.onLine l fun y => { y with pin := v }
    match x.mode with
    | .input => d1.takePin l
    | .inputDebounced =>
      d1.onLine l fun y => { y with timer := if v = y.level then none else some d.mp.settings.debounce }
    | .outputPush | .outputOpen => d1

/-- R162: a line's debounce timer expires. -/
def Device.debounceExpired (d : Device) (l : LineId) : Device :=
  if (d.line l).timer = none then d else d.takePin l

/-! ### LINE SET and LINE DRIVE (R161, R164) -/

/-- Table 9-3: whether a function takes a mode. -/
def LineFn.takesMode (f : LineFn) (m : LineMode) : Bool :=
  match f, m with
  | .general, _ => true
  | .esdIn, .inputDebounced | .powerfailIn, .inputDebounced => true
  | .esdIn, _ | .powerfailIn, _ => false
  | .holdIn, m | .groundIn _, m | .overfillIn _, m => !isOutput m
  | .beaconOut _, m | .faultOut, m => isOutput m

/-- R161: the line after an accepted LINE SET. -/
def Line.rebind (x : Line) (m : LineMode) (f : LineFn) (active : Level) : Line where
  mode   := m
  func   := f
  active := active
  pin    := x.pin
  level  := x.pin
  timer  := none
  drive  := if isOutput m then some false else none
  bound  := x.bound || f == .esdIn || f == .powerfailIn

/-- R161, R167, R169: an accepted LINE SET and the evaluations it brings. -/
def Device.lineSet (d : Device) (l : LineId) (m : LineMode) (f : LineFn) (active : Level) : Device :=
  let d1 := ((d.onLine l fun x => x.rebind m f active).evalPermissives).evalHold
  if (d1.line l).isActive then
    match f with
    | .esdIn => d1.esdEdge
    | .powerfailIn => d1.powerfailEdge
    | .general | .holdIn | .groundIn _ | .overfillIn _ | .beaconOut _ | .faultOut => d1
  else d1

/-- R164: whether LINE DRIVE applies to a line. -/
def Line.drivable (x : Line) : Bool := isOutput x.mode && x.func == .general

end Sys2Proof.Machine
end

