-- ==== Sys2Proof/Machine/Segments.lean ====
section
/-! DEFINITION. The Management Port's segments and frames (sections 10.1 and 11.4 to 11.5): the inbound assembly, the
outbound frame, and the octets of answers and notices. -/

namespace Sys2Proof.Machine

open Sys2Proof

/-! ### Octets of outbound frames (Table 11-6) -/

/-- R137, section 11.5: the flag octet of an element: LAST, GOOD, CHECKED. -/
def Element.flags (e : Element) : Nat := bitsNat [e.last, e.good, e.checked]

/-- Section 11.5: an element with its two-octet header. -/
def Element.octs (e : Element) : List Byte := octets 1 e.body.length ++ octets 1 e.flags ++ e.body

/-- Table 11-6: an answer frame. -/
def Answer.octs (a : Answer) : List Byte :=
  [1#8, a.kind, a.tag] ++ octets 1 a.status.code ++ octets 1 a.elements.length ++ (a.elements.map Element.octs).flatten

/-- R185: the fields of a notice as triples of identifier, length and value, numbered from `k`. -/
def fieldTriples : Nat → List (List Byte) → List Byte
  | _, [] => []
  | k, v :: t => octets 1 k ++ octets 1 v.length ++ v ++ fieldTriples (k + 1) t

/-- Table 11-6: a notice frame. -/
def Notice.octs (n : Notice) : List Byte :=
  [2#8] ++ octets 1 n.kind.code ++ octets 1 n.obj.index ++ octets 1 n.replaced ++ octets 1 n.event ++ fieldTriples 1 n.fields

/-! ### Outbound (R174) -/

/-- R174: the frame MP chooses when none is in progress and the gateway is ready: the answer at the head of the answer
queue, else the oldest notice, which leaves its queue now. -/
def Mp.choose (m : Mp) : Mp :=
  if m.out.isSome || !m.ready then m
  else match m.answers with
  | a :: _ => { m with out := some ⟨a.octs, 0, 0, true⟩ }
  | [] =>
    match m.notices with
    | n :: t => { m with out := some ⟨n.octs, 0, 0, false⟩, notices := t }
    | [] => m

/-- Table 10-1: the kind code of the next segment of a frame of `n` octets with `sent` delivered. -/
def segmentKind (n sent : Nat) : Nat :=
  if n ≤ 14 then 1 else if sent = 0 then 2 else if n ≤ sent + 14 then 4 else 3

/-- Table 11-5: a segment's sixteen octets. -/
def segmentOctets (kind : Nat) (flag : Bool) (payload : List Byte) : List Byte :=
  let body := octets 1 (kind * 32 + (if flag then 16 else 0) + payload.length) ++ payload ++
    List.replicate (14 - payload.length) 0#8
  body ++ [crc8 body]

/-- R174: whether the request FIFO can take a new frame. -/
def Mp.room (m : Mp) : Bool := decide (m.fifo.length < 4)

/-- R174: MP builds the outbound segment of a sweep. -/
def Mp.outbound (m : Mp) : Mp × List Byte :=
  let m1 := m.choose
  match m1.out with
  | none => (m1, segmentOctets 0 m1.room [])
  | some f =>
    if m1.ready then
      let p := (f.octs.drop f.sent).take 14
      ({ m1 with out := some { f with inFlight := p.length } }, segmentOctets (segmentKind f.octs.length f.sent) m1.room p)
    else ({ m1 with out := some { f with inFlight := 0 } }, segmentOctets 0 m1.room [])

/-- R174: the sweep returned with a good inbound segment, so the segment it carried is delivered. -/
def Mp.delivered (m : Mp) : Mp :=
  match m.out with
  | none => m
  | some f =>
    if f.inFlight = 0 then m
    else if f.octs.length ≤ f.sent + f.inFlight then
      { m with out := none, answers := if f.answer then m.answers.tail else m.answers }
    else { m with out := some { f with sent := f.sent + f.inFlight, inFlight := 0 } }

/-- R174: the sweep timed out or returned with a bad inbound segment: the frame in progress is sent again from its first
segment. -/
def Mp.resend (m : Mp) : Mp := { m with out := m.out.map fun f => { f with sent := 0, inFlight := 0 } }

/-! ### Inbound (R172, R173) -/

/-- A good inbound segment's kind (Table 10-1). -/
inductive SegKind | none | single | first | middle | last
deriving DecidableEq, Repr

/-- Table 11-5: the kind a segment's code spells. -/
def SegKind.ofCode : Nat → Option SegKind
  | 0 => some .none
  | 1 => some .single
  | 2 => some .first
  | 3 => some .middle
  | 4 => some .last
  | _ => Option.none

/-- R172, section 11.4: a good segment's kind, READY flag and payload; none when the segment is bad. -/
def readSegment (s : List Byte) : Option (SegKind × Bool × List Byte) :=
  let c := octetAt s 0
  let n := c.toNat % 16
  if crc8 (s.take 15) = octetAt s 15 then
    match SegKind.ofCode (c.toNat / 32) with
    | some .none => if n = 0 then some (.none, c.getLsbD 4, []) else none
    | some k => if 1 ≤ n ∧ n ≤ 14 then some (k, c.getLsbD 4, (s.drop 1).take n) else none
    | Option.none => none
  else none

/-- R173: an abort counted. -/
def Mp.abort (m : Mp) (next : Assembly) : Mp := { m with aborts := min 65535 (m.aborts + 1), asm := next }

/-- R173: a frame refused for lack of room counted. -/
def Mp.discard (m : Mp) (next : Assembly) : Mp := { m with discards := min 65535 (m.discards + 1), asm := next }

/-- R173: a complete frame joins the FIFO's tail and the assembly is IDLE. -/
def Mp.join (m : Mp) (frame : List Byte) : Mp := { m with fifo := m.fifo ++ [parseFrame frame], asm := .idle }

/-- Table 10-2, column IDLE. -/
def Mp.segIdle (m : Mp) (k : SegKind) (p : List Byte) : Mp :=
  match k with
  | .none => m
  | .single => if m.room then m.join p else m.discard .idle
  | .first => if m.room then { m with asm := .assembling p 1 } else m.discard .discarding
  | .middle | .last => m.abort .idle

/-- Table 10-2: a good inbound segment by the assembly state. -/
def Mp.segment (m : Mp) (k : SegKind) (p : List Byte) : Mp :=
  match m.asm, k with
  | .idle, k => m.segIdle k p
  | .assembling _ _, .none => m
  | .assembling _ _, .single => (m.abort .idle).segIdle .single p
  | .assembling _ _, .first => (m.abort .idle).segIdle .first p
  | .assembling o n, .middle => if 18 ≤ n then m.abort .discarding else { m with asm := .assembling (o ++ p) (n + 1) }
  | .assembling o n, .last => if 18 ≤ n then m.abort .idle else m.join (o ++ p)
  | .discarding, .single => ({ m with asm := .idle }).segIdle .single p
  | .discarding, .first => ({ m with asm := .idle }).segIdle .first p
  | .discarding, .last => { m with asm := .idle }
  | .discarding, .none | .discarding, .middle => m

/-- Table 10-2, rows Bad and Lost: an assembling frame is aborted. -/
def Mp.brokenSegment (m : Mp) : Mp :=
  match m.asm with
  | .assembling _ _ => m.abort .discarding
  | .idle | .discarding => m

/-- R172 to R174: MP takes the inbound segment of a returned sweep. -/
def Mp.inbound (m : Mp) (s : List Byte) : Mp :=
  match readSegment s with
  | none => m.brokenSegment.resend
  | some (k, ready, p) => ({ m with ready := ready }).delivered.segment k p

/-- R173, R174: both segments of a timed-out sweep are lost. -/
def Mp.lost (m : Mp) : Mp := m.brokenSegment.resend

end Sys2Proof.Machine
end

