-- ==== Sys2Proof/Machine/Loop.lean ====
section
/-! DEFINITION. The Loop Master (chapter 8): building and launching a sweep, judging its return, station states, the status
trickle, and the event slot. -/

namespace Sys2Proof.Machine

open Sys2Proof

/-! ### Calls (R85, R86, R154, Table 11-3) -/

/-- R86, section 11.2: the value of an arm's lamp: OFF 0, READY 1, FLOW 2, CLOSE 3, STOPPED 4, DONE 5. -/
def Device.lamp (d : Device) (b : BayId) (a : ArmId) : Nat :=
  let r := d.bay b
  match (d.arm a).batch with
  | some t =>
    (match t.phase with
      | .start | .full | .taper => 2
      | .closeWait => 3
      | .interrupted => 4
      | .ended => 0)
  | none =>
    if (r.state == .authorized || r.state == .loading) &&
        ((d.armRec a).bind fun x => d.chooseLine b x.product).isSome then 1
    else if r.ended.any fun t => t.arm == a then 5
    else 0

/-- Section 11.2: lamp 0 + 6 × lamp 1 + 36 × lamp 2 + 216 × lamp 3; lamps beyond the bay's arms are OFF. -/
def Device.lampsOf (d : Device) (b : BayId) : Nat := ((d.armsOf b).take 4).foldr (fun a n => d.lamp b a + 6 * n) 0

/-- R85: the display code of a bay: its panel message, or the code of its state. -/
def Bay.display (r : Bay) : Display :=
  match r.message with
  | some m => m
  | none =>
    match r.state with
    | .closed => .closed
    | .idle => .ready
    | .authorized => .authorized
    | .loading => .loading
    | .holding | .held => .hold
    | .tripped => if r.lockout then .lockout else .trip
    | .closing => .closing
    | .noteCommit => .note

/-- Table 11-3: the content of a panel call. -/
def panelContent (display lamps order : Nat) : List Byte := octets 2 (display * 2048 + lamps) ++ octets 4 order

/-- R85: the content BC supplies for a bay's panel. -/
def Device.panelCall (d : Device) (b : BayId) : List Byte :=
  panelContent (d.bay b).display.code (d.lampsOf b) ((d.bay b).order.getD 0)

/-- Six octets of content, the unused ones 0. -/
def padContent (l : List Byte) : List Byte := l ++ List.replicate (6 - l.length) 0#8

/-- R154, Table 8-5: the content of the call to a station, with DU making its offer as the content is taken. -/
def Device.call (d : Device) (n : Addr) : Device × List Byte :=
  let s := d.station n
  match s.entry with
  | none => (d, padContent [])
  | some e =>
    let supplied := s.state != .mismatch
    match e.kind with
    | .meter | .temp | .permit => (d, padContent [])
    | .valve =>
      let st := match d.armOfValve n with
        | some a => if supplied then d.effectiveStage a else .closed
        | none => .closed
      (d, padContent (octets 1 st.code))
    | .injector =>
      (match d.chanOf n with
        | some c => if supplied then
            let d1 := d.offerShot c
            (d1, padContent (octets 1 (d1.inj c).callToken))
          else (d, padContent [0#8])
        | none => (d, padContent [0#8]))
    | .panel =>
      (match d.bayOfPanel n with
        | some b => if supplied then (d, d.panelCall b) else (d, panelContent Display.closed.code 0 0)
        | none => (d, panelContent Display.closed.code 0 0))

/-- Table 11-2: a call's slot. -/
def callSlot (n : Addr) (content : List Byte) : List Byte :=
  let body := octets 1 n.val ++ content
  body ++ [crc8 body]

/-- R142: the slots of the stations, in ascending address order. -/
def Device.callSlots (d : Device) : List Addr → Device × List Byte
  | [] => (d, [])
  | n :: t =>
    let c := d.call n
    let r := c.1.callSlots t
    (r.1, callSlot n c.2 ++ r.2)

/-! ### Launching (R142, R143, R152, R155) -/

/-- R142: the addresses that have a slot: those with an entry. -/
def Device.polled (d : Device) : List Addr := allAddrs.filter fun n => (d.station n).entry.isSome

/-- R152: at the launch of index 0 every assembly is emptied, and one of a station with a slot is marked not spoiled. -/
def Station.beginRound (s : Station) : Station := { s with round := 0, spoiled := s.entry.isNone }

/-- Table 11-1: the header of a sweep. -/
def sweepHeader (clear : Bool) (index slots : Nat) : List Byte :=
  let body := [0x5A#8] ++ octets 1 ((if clear then 128 else 0) + index) ++ octets 1 slots
  body ++ [crc8 body]

/-- Section 11.3: the event slot as the part sends it. -/
def emptyEventSlot : List Byte := List.replicate 7 0#8 ++ [crc8 (List.replicate 7 0#8)]

/-- R143: LM launches the next sweep. -/
def Device.launch (d : Device) : Device :=
  let i := d.lm.nextIndex
  let slots := d.polled
  let d1 := if i = 0 then d.onLm fun l => { l with stations := l.stations.map Station.beginRound } else d
  let c := d1.callSlots slots
  let o := c.1.mp.outbound
  let octs := sweepHeader d.lm.clearFlag i.val slots.length ++ c.2 ++ emptyEventSlot ++ o.2 ++ segmentOctets 0 false []
  (c.1.onMp fun _ => o.1).onLm fun l =>
    { l with
      outstanding := some ⟨i, slots, [], d.mp.settings.sweepTimeout⟩
      nextIndex := i + 1
      launched := true
      interval := d.mp.settings.minInterval
      loopOut := octs }

/-! ### Judging a slot (R148, R184) -/

/-- R148: the judgement of a station slot; a good return carries its trickle bit. -/
inductive Judged | bad | missing | other (kind : Nat) | good (trickle : Bool)
deriving DecidableEq, Repr

/-- R148, R184: a slot of address `n` judged against the entry's kind. -/
def judgeSlot (n : Addr) (k : StationKind) (s : List Byte) : Judged :=
  let c := crc8 (s.take 7)
  let o := octetAt s 7
  let plain := o == c
  let inverted := o == ~~~c
  let kind := (octetAt s 0).toNat / 32
  if !plain && !inverted then .bad
  else if kind = 0 then (if plain then .missing else .bad)
  else if (octetAt s 0).toNat % 32 ≠ n.val then .bad
  else if kind ≠ kindCode k then .other kind
  else .good inverted

/-! ### Station states and the trickle (R149 to R153) -/

/-- R149 to R151: a judgement arrives at a station's record. -/
def Station.arrive (s : Station) (j : Judged) : Station :=
  match s.state, j with
  | .unconfigured, _ => s
  | .silent, .good _ => { s with state := .aligning, align := 1 }
  | .silent, .other k => { s with state := .mismatch, kindSeen := some k }
  | .silent, .bad | .silent, .missing => s
  | .aligning, .good _ =>
    if 2 ≤ s.align then { s with state := .active, align := 0 } else { s with align := s.align + 1 }
  | .aligning, .bad => { s with align := 0 }
  | .aligning, .missing => { s with state := .silent, align := 0 }
  | .aligning, .other k => { s with state := .mismatch, align := 0, kindSeen := some k }
  | .active, .good _ => s
  | .active, .bad | .active, .missing => { s with state := .slipped, miss := 1 }
  | .active, .other k => { s with state := .mismatch, kindSeen := some k }
  | .slipped, .good _ => { s with state := .active, miss := 0 }
  | .slipped, .bad | .slipped, .missing =>
    if s.miss < 3 then { s with miss := s.miss + 1 } else { s with state := .silent, miss := 0 }
  | .slipped, .other k => { s with state := .mismatch, miss := 0, kindSeen := some k }
  | .mismatch, .other k => { s with kindSeen := some k }
  | .mismatch, .good _ | .mismatch, .bad | .mismatch, .missing => s

/-- A 16-bit word with bit `k` set to a value. -/
def setBit (w : Half) (k : Nat) (v : Bool) : Half :=
  let m : Half := 1#16 <<< k
  if v then w ||| m else w &&& ~~~m

/-- R152: the round assembly after a judgement in sweep `k`, by the state before the judgement. -/
def Station.gather (s : Station) (k : Nat) (j : Judged) : Station :=
  match j with
  | .good t =>
    if s.state = .mismatch ∨ s.state = .unconfigured then { s with spoiled := true }
    else { s with round := setBit s.round k t }
  | .bad | .missing | .other _ => { s with spoiled := true }

/-! ### Users (R151) -/

/-- The station at this address of this kind is lost to its users (R13, R21, R35, R48, R165). A word with station fault
set leaves a TEMP station's held temperature as it is (R13). -/
def Device.userLost (d : Device) (n : Addr) (k : StationKind) (byFault : Bool) : Device :=
  match k with
  | .meter =>
    (match d.armOfMeter n with
      | some a => d.meterLost a
      | none => d)
  | .temp => if byFault then d else d.tempLost n
  | .valve =>
    (match d.armOfValve n with
      | some a => d.valveReport a .unknown .unknown
      | none => d)
  | .injector =>
    (match d.chanOf n with
      | some c => d.injectorLost c
      | none => d)
  | .permit => d.permitLost n
  | .panel => d

/-- Two octets as a 16-bit count. -/
def half (x y : Byte) : Half := x ++ y

/-- R6, R13, R35, R48, R165, Table 11-3: a good return of a usable station handed to its users. -/
def Device.userReturn (d : Device) (n : Addr) (k : StationKind) (s : List Byte) : Device :=
  match k with
  | .meter =>
    (match d.armOfMeter n with
      | none => d
      | some a =>
        match d.armRec a with
        | none => d
        | some r => d.meterSample a r
            ⟨half (octetAt s 1) (octetAt s 2), half (octetAt s 3) (octetAt s 4), half (octetAt s 5) (octetAt s 6)⟩)
  | .temp => d.tempReturn n (half (octetAt s 1) (octetAt s 2)).toInt ((octetAt s 3).getLsbD 0)
  | .valve =>
    (match d.armOfValve n with
      | none => d
      | some a => d.valveReport a (Position.ofCode (octetAt s 1).toNat)
          (if (octetAt s 2).getLsbD 0 then .latched else .unlatched))
  | .injector =>
    (match d.chanOf n with
      | none => d
      | some c =>
        match d.injRec c with
        | none => d
        | some j => d.injectorReturn c j ⟨(octetAt s 1).getLsbD 0, (octetAt s 1).getLsbD 1⟩
            ((octetAt s 1).toNat / 4 % 4) (octetAt s 2).toNat (octetAt s 3).toNat
            (half (octetAt s 4) (octetAt s 5)).toNat)
  | .permit => d.permitReturn n ((octetAt s 1).getLsbD 0) ((octetAt s 1).getLsbD 1)
  | .panel => d

/-- R149 to R151: the STATION notice of a change of state, if the rules name one: active, lost, mismatch. -/
def Device.stateNotice (d : Device) (n : Addr) (before after : StationState) : Device :=
  match before, after with
  | .aligning, .active => d.stationNotice n 2 []
  | .slipped, .silent => d.stationNotice n 3 []
  | .mismatch, .mismatch => d
  | _, .mismatch => d.stationNotice n 4 []
  | _, _ => d

/-- R148 to R151: one judgement of a station in sweep `k`, with its slot's octets. -/
def Device.arrival (d : Device) (n : Addr) (e : StationEntry) (k : Nat) (j : Judged) (s : List Byte) : Device :=
  let before := (d.station n).state
  let d1 := d.onStation n fun x => (x.gather k j).arrive j
  let after := (d1.station n).state
  let d2 := d1.stateNotice n before after
  let d3 := if before ≠ after ∧ (after = .silent ∨ after = .mismatch) then d2.userLost n e.kind false else d2
  match j with
  | .good _ => if after = .active ∧ (d3.station n).faulty = false then d3.userReturn n e.kind s else d3
  | .bad | .missing | .other _ => d3

/-- R147, R148: the entry that the slot of an address in a sweep is judged against: none when it has been written or
cleared since the launch, which takes effect at the next sweep launched (notes/assumptions/17.md). -/
def Device.slotEntry (d : Device) (w : Sweep) (n : Addr) : Option StationEntry :=
  if w.changed.contains n then none else (d.station n).entry

/-- R148: the slot of an address in a returned sweep. -/
def Device.slotReturn (d : Device) (w : Sweep) (n : Addr) (s : List Byte) : Device :=
  match d.slotEntry w n with
  | none => d
  | some e => d.arrival n e w.index.val (judgeSlot n e.kind s) s

/-- R144: the slot of an address in a timed-out sweep counts as a missing return. -/
def Device.slotMissing (d : Device) (w : Sweep) (n : Addr) : Device :=
  match d.slotEntry w n with
  | none => d
  | some e => d.arrival n e w.index.val .missing []

/-- The four fields of Table 8-4 that differ between two words, as a set octet. -/
def changedFields (before after : Half) : Nat := ((before ^^^ after) &&& 15#16).toNat

/-- R152, R153: at the end of a round a station's assembly comes into force, and its changed fields are reported. -/
def Device.wordInForce (d : Device) (n : Addr) : Device :=
  let s := d.station n
  match s.entry with
  | none => d
  | some e =>
    if s.spoiled then d
    else
      let before := s.word.getD 0#16
      let after := s.round
      let d1 := d.onStation n fun x => { x with word := some after }
      let d2 := if !before.getLsbD 0 && after.getLsbD 0 then d1.userLost n e.kind true else d1
      let d3 := if before.getLsbD 0 && !after.getLsbD 0 then d2.evalPermissives else d2
      let d4 := if before.getLsbD 1 ≠ after.getLsbD 1 ∧ e.kind = .meter then
          (match d3.armOfMeter n with
            | some a => d3.sealChanged a (after.getLsbD 1)
            | none => d3)
        else d3
      if changedFields before after = 0 then d4 else d4.stationNotice n 5 [octets 1 (changedFields before after)]

/-- R152: the round ends. -/
def Device.roundEnd (d : Device) : Device := allAddrs.foldl (fun e n => e.event fun x => x.wordInForce n) d

/-! ### The event slot (R155 to R157) -/

/-- Discard reasons of a bid, numbered in the order of R157's table. -/
inductive BidDiscard | notPanel | notActive | noBay | badBid
deriving DecidableEq, Repr

/-- The number of a discard reason. -/
def BidDiscard.code : BidDiscard → Nat
  | .notPanel => 0
  | .notActive => 1
  | .noBay => 2
  | .badBid => 3

/-- A bid that names what BC can act on (Table 11-4). -/
inductive Bid | swipe (cred : Nat) | start (a : ArmId) | stop (a : ArmId) | finish
deriving DecidableEq, Repr

/-- Table 11-4, R157: the bid an event slot's octets spell; none is BAD_BID. -/
def readBid (s : List Byte) : Option Bid :=
  match (octetAt s 0).toNat / 32 with
  | 1 => some (.swipe (fromOctets [octetAt s 1, octetAt s 2, octetAt s 3, octetAt s 4]))
  | 2 => (toFin 12 (octetAt s 1).toNat).map .start
  | 3 => (toFin 12 (octetAt s 1).toNat).map .stop
  | 4 => some .finish
  | _ => none

/-- R157: the bay a bid goes to, or the reason it is discarded. -/
def Device.checkBid (d : Device) (n : Addr) (b : Option Bid) : Except BidDiscard (BayId × Bid) :=
  let s := d.station n
  if !s.isKind .panel then .error .notPanel
  else if (s.state ≠ .active ∧ s.state ≠ .slipped) ∨ s.faulty then .error .notActive
  else match d.bayOfPanel n with
  | none => .error .noBay
  | some y =>
    match b with
    | none => .error .badBid
    | some x => .ok (y, x)

/-- BC takes a bid (section 4.4). -/
def Device.takeBid (d : Device) (b : BayId) (x : Bid) : Device :=
  match x with
  | .swipe c => d.swipeBid b c
  | .start a => d.startBid b a
  | .stop a => d.stopBid b a
  | .finish => d.finishBid b

/-- R157: a bid from a station, dispatched or discarded. -/
def Device.dispatchBid (d : Device) (n : Addr) (s : List Byte) : Device :=
  match d.checkBid n (readBid s) with
  | .ok (b, x) => d.takeBid b x
  | .error r => d.stationNotice n 6 [octets 1 r.code, octets 1 ((octetAt s 0).toNat / 32)]

/-- The part with the clear flag of the next sweep set or clear (R155). -/
def Device.setClear (d : Device) (v : Bool) : Device := d.onLm fun l => { l with clearFlag := v }

/-- R155, R156: the returned event slot judged: an error, empty, or a bid. -/
def Device.eventSlot (d : Device) (s : List Byte) : Device :=
  if crc8 (s.take 7) ≠ octetAt s 7 then
    (d.onLm fun l => { l with eventErrors := min 65535 (l.eventErrors + 1) }).setClear false
  else if (octetAt s 0).toNat / 32 = 0 then d.setClear true
  else
    match toFin 32 ((octetAt s 0).toNat % 32) with
    | some n =>
      if n = 0 then (d.onLm fun l => { l with eventErrors := min 65535 (l.eventErrors + 1) }).setClear false
      else (d.setClear false).dispatchBid n s
    | none => d

/-! ### The return and the timeout of a sweep (R144, R145) -/

/-- A RACK notice of LM (R158): the count of consecutive timed-out sweeps and the event-slot error count. -/
def Device.loopNotice (d : Device) (event : Nat) : Device :=
  d.rackNotice event [octets 1 d.lm.timeouts, octets 2 d.lm.eventErrors]

/-- R144, section 11.2: whether a frame at loop-in is the return of the outstanding sweep, by its mark, its index and its
check alone. So a late frame of a sweep of index 0 that a reset abandoned is taken as the return of the first sweep when that
one is out, though R160 says that it does not match (notes/assumptions/57.md). -/
def headerMatches (s : Sweep) (f : List Byte) : Bool :=
  octetAt f 0 == 0x5A#8 && (octetAt f 1).toNat % 16 == s.index.val && crc8 (f.take 3) == octetAt f 3

/-- Eight octets of a frame from an offset. -/
def slice (f : List Byte) (off n : Nat) : List Byte := (f.drop off).take n

/-- R148: the slots of a returned sweep, from the one at offset `off`, each taken whole. -/
def Device.slotReturns (w : Sweep) (f : List Byte) : List Addr → Nat → Device → Device
  | [], _, d => d
  | n :: t, off, d => Device.slotReturns w f t (off + 8) (d.event fun x => x.slotReturn w n (slice f off 8))

/-- R145: a sweep returns: the count is 0, and a broken loop is restored. -/
def Device.loopReturned (d : Device) : Device :=
  let d1 := d.onLm fun l => { l with outstanding := none, timeouts := 0, broken := false }
  if d.lm.broken then d1.loopNotice 4 else d1

/-- R144: the outstanding sweep returns: its slots, the end of its round, its event slot and its inbound segment. -/
def Device.sweepBack (d : Device) (s : Sweep) (f : List Byte) : Device :=
  let ev := 4 + 8 * s.slots.length
  let d1 := Device.slotReturns s f s.slots 4 d.loopReturned
  let d2 := if s.index = 15 then d1.roundEnd else d1
  let d3 := d2.event fun x => x.eventSlot (slice f ev 8)
  d3.onMp fun m => m.inbound (slice f (ev + 24) 16)

/-- R145: a sweep times out: the count rises, and at 3 the loop is marked broken. -/
def Device.loopTimedOut (d : Device) : Device :=
  let n := min 3 (d.lm.timeouts + 1)
  let d1 := d.onLm fun l => { l with outstanding := none, timeouts := n }
  if n = 3 ∧ d.lm.timeouts < 3 then (d1.onLm fun l => { l with broken := true }).loopNotice 3 else d1

/-- R144: the sweep timeout expires: every slot is missing, the event slot counts as empty, the segments are lost. The loop
broken is reported before the missing slots are taken (DESIGN CHOICE; notes/assumptions/75.md). -/
def Device.sweepTimedOut (d : Device) (s : Sweep) : Device :=
  let d1 := s.slots.foldl (fun e n => e.event fun x => x.slotMissing s n) d.loopTimedOut
  let d2 := if s.index = 15 then d1.roundEnd else d1
  (d2.setClear true).onMp Mp.lost

end Sys2Proof.Machine
end

