-- ==== Sys2Proof/Machine/Reads.lean ====
section
/-! DEFINITION. Answers with elements (R176), the elements of a note (R136 to R138), and requests that wait in service. -/

namespace Sys2Proof.Machine

open Sys2Proof

/-! ### Elements -/

/-- R176: LAST on the last element of the whole list. -/
def markLast : List Element → List Element
  | [] => []
  | [e] => [{ e with last := true }]
  | e :: f :: t => { e with last := false } :: markLast (f :: t)

/-- Elements with these bodies and one value of GOOD and of CHECKED. -/
def elementsOf (bodies : List (List Byte)) (good checked : Bool) : List Element :=
  markLast (bodies.map fun b => ⟨b, false, good, checked⟩)

/-- R176: the whole elements that fit in the octets left after the answer header. -/
def fitElements : Nat → List Element → List Element
  | _, [] => []
  | n, e :: t => if e.body.length + 2 ≤ n then e :: fitElements (n - (e.body.length + 2)) t else []

/-- R176: an answer from a starting index on, 247 octets of elements at most; an index beyond the last element is
BAD_INDEX. -/
def pageFrom (start : Nat) (l : List Element) : Status × List Element :=
  if l.length ≤ start then (.badIndex, []) else (.ok, fitElements 247 (l.drop start))

/-- An answer made of a status and elements; the request leaves service. -/
def Device.replyPair (d : Device) (kind : Nat) (tag : Byte) (p : Status × List Element) : Device :=
  d.finish kind tag p.1 p.2

/-! ### A note in custody memory (R136, R137) -/

/-- Octet `i` of a slot's body as read: one that no body write stored is a free value (notes/assumptions/15.md). -/
def bodyOctet (k : SlotId) (m : SlotMem) (i : Nat) : Byte := m.body.getD i (Config.unwrittenBodyOctet k.val i)

/-- `n` octets of a slot's body from an offset. -/
def bodySlice (k : SlotId) (m : SlotMem) (off n : Nat) : List Byte := (List.range n).map fun i => bodyOctet k m (off + i)

/-- R137: the number of lines a header as read gives, at most 8. -/
def linesRead (k : SlotId) (m : SlotMem) : Nat := min 8 (bodyOctet k m 32).toNat

/-- The length of the header as read: 35 octets and 5 for each not-loaded line, of which a note has at most 7
(notes/assumptions/36.md). -/
def headerLength (k : SlotId) (m : SlotMem) : Nat := 35 + 5 * min 7 (bodyOctet k m 33).toNat

/-- R137: the number of sublines line `i` as read gives, at most 2. -/
def sublinesRead (k : SlotId) (m : SlotMem) (i : Nat) : Nat :=
  min 2 (bodyOctet k m (headerLength k m + 75 * i + 74)).toNat

/-- The number of sublines of all lines as read. -/
def allSublines (k : SlotId) (m : SlotMem) : Nat := ((List.range (linesRead k m)).map (sublinesRead k m)).sum

/-- R136, R137: the bodies of a note's elements as read: the header, the lines, the sublines. -/
def noteBodies (k : SlotId) (m : SlotMem) : List (List Byte) :=
  let h := headerLength k m
  let n := linesRead k m
  [bodySlice k m 0 h] ++ (List.range n).map (fun i => bodySlice k m (h + 75 * i) 75) ++
    (List.range (allSublines k m)).map fun i => bodySlice k m (h + 75 * n + 27 * i) 27

/-- R137: GOOD: the CRC-16 of the body as read equals the stored check, and the mark record matched its own check. -/
def noteGood (k : SlotId) (m : SlotMem) : Bool :=
  crc16 (noteBodies k m).flatten == m.bodyCheck && m.check == markCheck m.commit m.release

/-- R136, R137: a NOTE READ of the note in a slot, as custody memory stands. -/
def Device.readSlot (d : Device) (k : SlotId) (start : Nat) : Status × List Element :=
  let m := Bank.read d.custody.slots k
  pageFrom start (elementsOf (noteBodies k m) (noteGood k m) true)

/-! ### A bay's current note (R138) -/

/-- R138: the number the bay's barrier has taken while it is being written, else 0. -/
def Device.barrierNumber (d : Device) (b : BayId) : Nat :=
  (d.cw.queue.findSome? fun e =>
    match e.body with
    | .barrier x => if x.bay == b && e.started then x.number else none
    | .post _ => none).getD 0

/-- R136, R138: a NOTE READ of a bay's current note from the held image. -/
def Device.readHeld (d : Device) (b : BayId) (start : Nat) : Status × List Element :=
  match (d.noteBay b).held with
  | none => (.wrongState, [])
  | some i => pageFrom start (elementsOf (i.elements (d.barrierNumber b)) false false)

/-! ### Requests that stay in service (R175) -/

/-- R121, R136, R175: at a custody completion, a NOTE READ that stays in service reads the slot it was taken for, whatever
the write has made of the slot, and a TOTALIZER READ that stays in service is taken. -/
def Device.resumeService (d : Device) : Device :=
  match d.mp.reading, d.mp.fifo with
  | some s, .noteRead tag (some (_, k)) :: _ => (d.onMp fun m => { m with reading := none }).replyPair 16 tag (d.readSlot s k)
  | _, _ => d.resumeRead

end Sys2Proof.Machine
end

