-- ==== Sys2Proof/Machine/CustodyWrite.lean ====
section
/-! DEFINITION. Custody writes that complete or are cut off (sections 6.4 to 6.7), and the start-up scan. -/

namespace Sys2Proof.Machine

open Sys2Proof

/-! ### What a write leaves in custody memory -/

/-- The queue entry with this id. -/
def Cw.entry (c : Cw) (id : Nat) : Option QEntry := c.queue.find? fun e => e.id == id

/-- Custody memory with one slot changed. -/
def Custody.onSlot (m : Custody) (k : SlotId) (f : SlotMem → SlotMem) : Custody :=
  { m with slots := Bank.write m.slots k (f (Bank.read m.slots k)) }

/-- R114: the totalizer record of an arm written, with a fresh check. -/
def Custody.writeTotals (m : Custody) (a : ArmId) (v : Vol) : Custody :=
  { m with totals := Bank.write m.totals a ⟨v.gross, v.net, totalizerCheck v.gross v.net⟩ }

/-- The next-number record written, with a fresh check. -/
def Custody.writeNext (m : Custody) (n : Nat) : Custody := { m with next := ⟨n, nextNumberCheck n⟩ }

/-- R118: what a part of a barrier's write leaves. -/
def Custody.writePart (m : Custody) (b : Barrier) (part : BarrierPart) : Custody :=
  let n := b.number.getD 0
  match part with
  | .body => m.onSlot b.slot fun s => { s with body := b.image.body n }
  | .check => m.onSlot b.slot fun s => { s with bodyCheck := crc16 (b.image.body n) }
  | .mark =>
    (m.onSlot b.slot fun s => { s with commit := some n, release := false, check := markCheck (some n) false }).writeNext
      (n + 1)

/-- R120: what a release write leaves: the commit mark unchanged and the release mark present. -/
def Custody.writeRelease (m : Custody) (k : SlotId) : Custody :=
  m.onSlot k fun s => { s with release := true, check := markCheck s.commit true }

/-- R114: the written value of an arm after an entry. -/
def Cw.newWritten (c : Cw) (p : Post) : Vol := (Bank.read c.written p.arm).add p.vol

/-- R114, R118, R120, R125: custody memory after a write of this job has landed. -/
def Device.landed (d : Device) (job : WriteJob) : Custody :=
  match job with
  | .post id =>
    (match (d.cw.entry id).map QEntry.body with
      | some (.post p) => d.custody.writeTotals p.arm (d.cw.newWritten p)
      | _ => d.custody)
  | .barrier id part =>
    (match (d.cw.entry id).map QEntry.body with
      | some (.barrier b) => d.custody.writePart b part
      | _ => d.custody)
  | .release k => d.custody.writeRelease k
  | .nextNumber n => d.custody.writeNext n

/-! ### The start-up scan (R125, R126) -/

/-- R125: whether an arm's totalizer record fails its check. -/
def TotRecord.isBad (r : TotRecord) : Bool := r.check != totalizerCheck r.gross r.net

/-- R125: the arms whose totalizer record fails its check. -/
def badArmsOf (m : Custody) : List ArmId := allArms.filter fun a => (Bank.read m.totals a).isBad

/-- R125: whether a slot's mark record matches its check. -/
def SlotMem.markOk (s : SlotMem) : Bool := s.check == markCheck s.commit s.release

/-- R125: the directory entry the scan hands over for a slot. -/
def SlotMem.scanned (s : SlotMem) : SlotState :=
  match s.commit with
  | some n => if s.markOk && !s.release then .retained n false else .free
  | none => .free

/-- R125: the highest note number in a commit mark whose record matches its check, or 0. -/
def highestMark (m : Custody) : Nat :=
  allSlots.foldl (fun x k =>
    let s := Bank.read m.slots k
    match s.commit with
    | some n => if s.markOk then max x n else x
    | none => x) 0

/-- R125: whether the next-number record fails its check. -/
def nextBadOf (m : Custody) : Bool := m.next.check != nextNumberCheck m.next.value

/-- R125: the next note number the scan takes. -/
def takenNumber (m : Custody) : Nat :=
  let h := highestMark m
  if nextBadOf m then h + 1 else max m.next.value (if h = 0 then 0 else h + 1)

/-- R181: the scan is complete: the part runs, and the RACK notice reports the hard reset or the RESTART. The twelve arms do
not fit R185's set of one octet; the arms found bad go as a list, a count and an octet for each (notes/assumptions/52.md). -/
def Device.scanDone (d : Device) (tag : Option Byte) (bad : List ArmId) (nextBad : Bool) : Device :=
  (d.setBoot .ready).rackNotice 1
    [(match tag with
      | some t => [t]
      | none => []), listOctets (bad.map fun a => octets 1 a.val), flagOctet nextBad]

/-- R19, R125: what the scan loads into the volatile state. -/
def Device.loadScan (d : Device) : Device :=
  let m := d.custody
  { d with
    meters := Vector.ofFn fun a => { Meter.reset with mirror := ⟨(m.totals.get a).gross, (m.totals.get a).net⟩ }
    arms := Vector.ofFn fun a => { ArmCtl.reset with totFault := (m.totals.get a).isBad }
    cw := { Cw.reset with written := m.totals.map fun r => ⟨r.gross, r.net⟩ }
    nu := { Nu.reset with dir := m.slots.map SlotMem.scanned } }

/-- R125: the start-up scan over a part whose volatile state is at its reset values. When the number taken differs from the
stored one, the scan goes on until its write-back completes. Its notices carry the number taken (notes/assumptions/45.md). -/
def Device.scan (d : Device) (tag : Option Byte) : Device :=
  let m := d.custody
  let bad := badArmsOf m
  let nb := nextBadOf m
  let n := takenNumber m
  let d1 := bad.foldl (fun e a => e.armNotice a 13 []) d.loadScan
  let d2 := if nb then d1.rackNotice 18 [octets 5 n] else d1
  if n = m.next.value then d2.scanDone tag bad nb
  else (d2.setBoot (.scanning tag bad nb)).onCw fun c => { c with write := some ⟨.nextNumber n, 1⟩ }

/-- The pins as they stand, which no reset changes (R171). -/
def Device.pins (d : Device) : Vector Level 16 := d.lu.lines.map Line.pin

/-- R63, R89, R110, R124, R160, R171, R182: every volatile item at its reset value, then the scan. -/
def Device.resetWith (d : Device) (custody : Custody) (cuts : Nat) (tag : Option Byte) : Device :=
  (Device.cleared .ready cuts custody d.pins).scan tag

/-- R111: custody memory when the write in progress is cut off: the content before the write or the content written. -/
def Device.cutCustody (d : Device) : Custody :=
  match d.cw.write with
  | none => d.custody
  | some w => if Config.cutWriteLands d.cuts then d.landed w.job else d.custody

/-- The model's count of writes cut off, after one more cut if a write is in progress. -/
def Device.cutCount (d : Device) : Nat := if d.cw.write.isSome then d.cuts + 1 else d.cuts

/-- R124: a hard reset. -/
def Device.hardReset (d : Device) : Device := d.resetWith d.cutCustody d.cutCount none

/-- R111: loss of supply: custody memory and the pins stay, and the part is off until power-on. -/
def Device.powerLost (d : Device) : Device := Device.cleared .off d.cutCount d.cutCustody d.pins

/-- R124, R143, R181: a RESTART resets the part and scans when its custody writes are all done and no sweep is outstanding:
R143 gives the sweep that is outstanding at the RESTART its return or its timeout first (notes/assumptions/34.md). -/
def Device.drainTest (d : Device) : Device :=
  match d.boot with
  | .draining tag =>
    if d.cw.write = none ∧ d.cw.releases = [] ∧ d.cw.queue = [] ∧ d.lm.outstanding = none then
      d.resetWith d.custody d.cuts (some tag)
    else d
  | .off | .scanning _ _ _ | .ready => d

/-! ### Completions (R114 to R120) -/

/-- The queue without the entry of this id. -/
def Cw.drop (c : Cw) (id : Nat) : Cw := { c with queue := c.queue.filter fun e => e.id != id }

/-- R115: the failure count rises by 1. -/
def Device.countFailure (d : Device) : Device := d.onCw fun c => { c with failures := min 65535 (c.failures + 1) }

/-- R117: a good write releases a barrier held for arms whose accumulators are then 0. -/
def Device.heldTest (d : Device) : Device :=
  match d.cw.held with
  | some ⟨_, .arms l⟩ => if l.all fun a => (d.meter a).unwritten.isZero then d.onCw fun c => { c with held := none } else d
  | some ⟨_, .exhausted⟩ | none => d

/-- R118: the part of a barrier's write that comes after one, if any. -/
def BarrierPart.next : BarrierPart → Option BarrierPart
  | .body => some .check
  | .check => some .mark
  | .mark => none

/-- The queue with the next part of a barrier set. -/
def Cw.setPart (c : Cw) (id : Nat) (p : BarrierPart) : Cw :=
  { c with queue := c.queue.map fun e =>
      if e.id == id then
        (match e.body with
          | .barrier b => { e with body := .barrier { b with part := p } }
          | .post _ => e)
      else e }

/-- R114: a post written good. -/
def Device.postWritten (d : Device) (id : Nat) (p : Post) : Device :=
  d.onCw fun c => { (c.drop id) with written := Bank.write c.written p.arm (c.newWritten p) }

/-- R118: a part of a barrier written good: the next part follows, or the commit is complete. -/
def Device.partWritten (d : Device) (id : Nat) (b : Barrier) (part : BarrierPart) : Device :=
  match part.next with
  | some q => d.onCw fun c => c.setPart id q
  | none =>
    (d.onCw fun c => { (c.drop id) with heldNext := none }).commitComplete b.bay b.slot (b.number.getD 0)

/-- R120, R140: a release written good. -/
def Device.releaseWritten (d : Device) (k : SlotId) : Device :=
  (d.onCw fun c => { c with releases := c.releases.tail }).slotAvailable k

/-- R114, R118, R120, R125: a write completes good. -/
def Device.writeGood (d : Device) (job : WriteJob) : Device :=
  let d1 := d.onCustody fun _ => d.landed job
  let d2 := match job with
    | .post id =>
      (match (d.cw.entry id).map QEntry.body with
        | some (.post p) => d1.postWritten id p
        | _ => d1)
    | .barrier id part =>
      (match (d.cw.entry id).map QEntry.body with
        | some (.barrier b) => d1.partWritten id b part
        | _ => d1)
    | .release k => d1.releaseWritten k
    | .nextNumber _ => d1
  d2.heldTest

/-- Whether a barrier's note image names the arm; a bay's arms are its own, so one barrier in the queue does at most. -/
def Barrier.namesArm (b : Barrier) (a : ArmId) : Bool := b.image.lines.any fun l => l.arm == a

/-- R117: the barrier that an inserted entry was for, the one whose note names its arm, is held on the arm when the entry
has failed twice. Another bay's barrier may stand ahead of it by then (R113, R135); one that it finds held is forgotten for
the new hold (notes/assumptions/44.md). -/
def Device.holdBarrier (d : Device) (a : ArmId) : Device :=
  match d.cw.queue.findSome? fun e =>
      match e.body with
      | .barrier b => if !e.started && b.namesArm a then some b.bay else none
      | .post _ => none with
  | none => d
  | some b =>
    let l := match d.cw.held with
      | some ⟨y, .arms x⟩ => if y = b then x else []
      | some ⟨_, .exhausted⟩ | none => []
    (d.onCw fun c => { c with held := some ⟨b, .arms (l ++ [a])⟩ }).rackNotice 15 [octets 1 b.val, octets 1 a.val]

/-- R115: a post whose write failed twice: its amounts go back to ME, and the arm takes TOTALIZER_FAULT. -/
def Device.postFailed (d : Device) (id : Nat) (p : Post) : Device :=
  let d1 := (((d.countFailure.onCw fun c => c.drop id).onMeter p.arm fun m =>
    { m with unwritten := m.unwritten.add p.vol }).onArm p.arm fun c => { c with totFault := true }).armNotice p.arm 11
      [volOctets p.vol]
  if p.inserted then d1.holdBarrier p.arm else d1

/-- The note number of a RETAINED slot, 0 for any other. -/
def SlotState.number : SlotState → Nat
  | .retained n _ => n
  | .free | .reserved _ _ | .bad => 0

/-- R120, R140: a release write that failed twice: the slot becomes BAD. -/
def Device.releaseFailed (d : Device) (k : SlotId) : Device :=
  let n := (d.slot k).number
  let d1 := (d.countFailure.onCw fun c => { c with releases := c.releases.tail }).setSlot k .bad
  d1.rackNotice 17 ([octets 1 k.val, octets 4 n] ++ directoryCounts d1)

/-- R115, R119, R120, R125: a write fails for the second time. -/
def Device.writeFailed (d : Device) (job : WriteJob) : Device :=
  match job with
  | .post id =>
    (match (d.cw.entry id).map QEntry.body with
      | some (.post p) => d.postFailed id p
      | _ => d)
  | .barrier id _ =>
    (match (d.cw.entry id).map QEntry.body with
      | some (.barrier b) => (d.countFailure.onCw fun c => c.drop id).commitFailed b.bay b.slot b.image
      | _ => d)
  | .release k => d.releaseFailed k
  | .nextNumber n =>
    (d.countFailure.onCw fun c => { c with heldNext := some n }).rackNotice 19 [octets 5 n]

/-- R125: the scan's write-back is over when no write is in progress. -/
def Device.scanTest (d : Device) : Device :=
  match d.boot with
  | .scanning tag bad nb => if d.cw.write = none then d.scanDone tag bad nb else d
  | .off | .ready | .draining _ => d

/-- R114, R115, R121: the write in progress completes good or failed: its outcome, then the reads served at this
completion, then a retry. The next work is taken by `settle`. The waiting TOTALIZER READ answers before a NOTE READ in
service, an order that no rule gives (DESIGN CHOICE; notes/assumptions/67.md). -/
def Device.writeComplete (d : Device) (good : Bool) : Device :=
  match d.cw.write with
  | none => d
  | some w =>
    let d0 := d.onCw fun c => { c with write := none }
    if good then (((d0.writeGood w.job).serveWaiting false).resumeService).scanTest
    else if w.attempt = 1 then
      ((d0.serveWaiting false).resumeService).onCw fun c => { c with write := some ⟨w.job, 2⟩ }
    else (((d0.writeFailed w.job).serveWaiting false).resumeService).scanTest

/-- A custody completion with what follows it. -/
def Device.custodyEvent (d : Device) (good : Bool) : Device := (d.event fun x => x.writeComplete good).drainTest

end Sys2Proof.Machine
end

