-- ==== Sys2Proof/Machine/Operands.lean ====
section
/-! DEFINITION. Taking a request into service (R175), the operand checks of R178, and every record form that a table write,
ORDER ADD or LINE SET carries, read into a record with its ranges checked and its defaults filled in. -/

namespace Sys2Proof.Machine

open Sys2Proof

/-! ### The request FIFO (R175) -/

/-- R175: whether MP may take a request into service: none is in service and an answer place is free. -/
def Mp.canServe (m : Mp) : Bool := !m.inService && decide (m.answers.length + (if m.reserved then 1 else 0) < 4)

/-- R173: whether a whole frame that arrives by itself finds room: a frame in assembly was admitted at its FIRST and keeps
its place. -/
def Mp.roomBeside (m : Mp) : Bool :=
  match m.asm with
  | .assembling _ _ => decide (m.fifo.length + 1 < 4)
  | .idle | .discarding => m.room

/-- R175, R178: a request frame as a command. It arrives at an empty FIFO, or it is the frame at the FIFO's head: MP takes
it into service when it may, and otherwise it waits. Behind other frames it joins the tail, and without room it is
discarded (R173; notes/assumptions/1.md). While the part is off, scans or drains, no request is taken. `run` carries the
request out and has it leave service, unless it stays (R175). -/
def Device.request (d : Device) (c : Instr) (run : Device → Device) : Device :=
  if d.boot = .ready then
    if d.mp.fifo = [] ∨ (d.mp.fifo.head? = some c ∧ d.mp.inService = false) then
      if d.mp.canServe then d.event fun x => run (x.intoService c)
      else if d.mp.fifo = [] then d.onMp fun m => { m with fifo := [c] }
      else d
    else if d.mp.roomBeside then d.onMp fun m => { m with fifo := m.fifo ++ [c] }
    else d.onMp fun m => { m with discards := min 65535 (m.discards + 1) }
  else d

/-! ### Answers -/

/-- An answer without elements. -/
def Device.answer (d : Device) (kind : Nat) (tag : Byte) (st : Status) : Device := d.finish kind tag st []

/-- R176: an answer OK with one element that carries the whole body. -/
def Device.answerBody (d : Device) (kind : Nat) (tag : Byte) (body : List Byte) : Device :=
  d.finish kind tag .ok (elementsOf [body] true false)

/-- A request carried out, or refused with a status and nothing changed. -/
def Device.conclude (d : Device) (kind : Nat) (tag : Byte) (r : Except Status Device) : Device :=
  match r with
  | .ok e => e.answer kind tag .ok
  | .error st => d.answer kind tag st

/-- R178 check 2: a frame whose operands could not be read is BAD_FIELD. -/
def Device.withOps {α : Type} (d : Device) (kind : Nat) (tag : Byte) (ops : Option α) (f : α → Device) : Device :=
  match ops with
  | none => d.answer kind tag .badField
  | some x => f x

/-- R178 check 4: an index outside its range is BAD_INDEX. -/
def Device.withIndex (d : Device) (kind : Nat) (tag : Byte) (n i : Nat) (f : Fin n → Device) : Device :=
  match toFin n i with
  | none => d.answer kind tag .badIndex
  | some x => f x

/-- R178 checks 2 and 4 for a request that names one object. -/
def Device.withOne (d : Device) (kind : Nat) (tag : Byte) (n : Nat) (ops : Option Nat) (f : Fin n → Device) : Device :=
  d.withOps kind tag ops fun i => d.withIndex kind tag n i f

/-! ### Ranges -/

/-- A present number within a range. -/
def inRange (lo hi : Nat) (o : Option Nat) : Option Nat :=
  match o with
  | some n => if lo ≤ n ∧ n ≤ hi then some n else none
  | none => none

/-- A number within a range, its default when absent. -/
def inRangeOr (lo hi dflt : Nat) (o : Option Nat) : Option Nat :=
  match o with
  | some n => if lo ≤ n ∧ n ≤ hi then some n else none
  | none => some dflt

/-- A present signed number within a range. -/
def inRangeInt (lo hi : Int) (o : Option Int) : Option Int :=
  match o with
  | some n => if lo ≤ n ∧ n ≤ hi then some n else none
  | none => none

/-- A present bounded number. -/
def bounded (n : Nat) (o : Option Nat) : Option (Fin n) := o.bind (toFin n)

/-- A station address 1 to 31. -/
def fieldAddr (o : Option Nat) : Option Addr := (inRange 1 31 o).bind (toFin 32)

/-- A condition as an option. -/
def require (p : Bool) : Option Unit := if p then some () else none

/-- No two members alike. -/
def distinct (l : List Nat) : Bool := decide l.Nodup

/-! ### Arm records (Table 1-1, R1) -/

/-- R1: strictly ascending rates. -/
def ascending : List CurvePoint → Bool
  | [] | [_] => true
  | p :: r :: t => decide (p.q < r.q) && ascending (r :: t)

/-- Table 1-1: a curve of 1 to 6 points in range, its rates strictly ascending. -/
def curveOk (l : List CurvePoint) : Bool :=
  decide (1 ≤ l.length) && decide (l.length ≤ 6) &&
  l.all (fun p => decide (1 ≤ p.q) && decide (p.q ≤ 6000) && decide (90000 ≤ p.mf) && decide (p.mf ≤ 110000)) &&
  ascending l

/-- Table 1-1: an additive map entry in range. -/
def readMapEntry (e : MapEntry) : Option (Nat × Chan) :=
  match inRange 1 255 (some e.code), toFin 16 e.channel with
  | some c, some ch => some (c, ch)
  | _, _ => none

/-- Every member of a list read, or none. -/
def readAll {α β : Type} (f : α → Option β) : List α → Option (List β)
  | [] => some []
  | x :: t =>
    match f x, readAll f t with
    | some y, some u => some (y :: u)
    | _, _ => none

/-- R1: an arm record from its write: every field present and in range, the curve ascending, the map's codes different and
the station addresses different. -/
def readArm (w : ArmWrite) : Option ArmRecord := do
  let bay ← bounded 4 w.bay
  let product ← inRange 1 255 w.product
  let meter ← fieldAddr w.meter
  let temp ← bounded 32 w.temp
  let valve ← fieldAddr w.valve
  let kFactor ← inRange 1000 999999 w.kFactor
  let curve ← w.curve
  require (curveOk curve)
  let qMax ← inRange 1 6000 w.qMax
  let closeAhead ← inRange 0 40000 w.closeAhead
  let entries ← w.additiveMap
  let additiveMap ← readAll readMapEntry entries
  let inService ← w.inService
  require (decide (additiveMap.length ≤ 2) && distinct (additiveMap.map Prod.fst))
  require (meter != valve && (temp == 0 || (temp != meter && temp != valve)))
  pure { bay, product, meter, temp, valve, kFactor, curve, qMax, closeAhead, additiveMap, inService }

/-! ### Product records (Table 1-2, R3) -/

/-- Table 1-2: a recipe line in range. -/
def recipeOk (l : List RecipeLine) : Bool :=
  decide (l.length ≤ 2) && distinct (l.map RecipeLine.code) &&
  l.all fun r => decide (1 ≤ r.code) && decide (r.code ≤ 255) && decide (1 ≤ r.dose) && decide (r.dose ≤ 20000)

/-- R3: a product record from its write, defaults filled in. -/
def readProduct (w : ProductWrite) : Option Product := do
  let code ← inRange 1 255 w.code
  let alpha ← inRange 200 1500 w.alpha
  let fallback ← inRangeInt (-4000) 7000 w.fallback
  let basis ← w.basis
  let startVol ← inRangeOr 0 1000 200 w.startVol
  let taperVol ← inRangeOr 100 2000 400 w.taperVol
  let overrun ← inRangeOr 0 200 20 w.overrun
  let recipe := w.recipe.getD []
  require (recipeOk recipe)
  pure { code, alpha, fallback, basis, startVol, taperVol, overrun, classes := w.classes.getD 0#8, recipe }

/-! ### Injector records (Table 3-1, R43) -/

/-- R43: an injector record from its write, defaults filled in. -/
def readInjector (w : InjectorWrite) : Option InjectorRec := do
  let station ← fieldAddr w.station
  let code ← inRange 1 255 w.code
  let shot ← inRange 10 2000 w.shot
  let kFactor ← inRange 100000 99999999 w.kFactor
  let acceptance ← w.acceptance
  let tolerance ← inRangeOr 1 25 5 w.tolerance
  let window ← inRangeOr 4 32 8 w.window
  let timeout ← inRangeOr 1 10 4 w.timeout
  pure { station, code, shot, kFactor, acceptance, tolerance, window, timeout }

/-! ### Bay records (Table 4-1, R64) -/

/-- Table 4-1: a permissive source in range. -/
def readSource (s : Source) : Option PermSource :=
  match s with
  | .station n => (fieldAddr (some n)).map .station
  | .line n => (toFin 16 n).map .line

/-- R64: a bay record from its write. -/
def readBay (w : BayWrite) : Option BayRecord := do
  let panel ← fieldAddr w.panel
  let ground ← w.ground.bind readSource
  let overfill ← w.overfill.bind readSource
  pure { panel, ground, overfill }

/-! ### Permits and accounts (Tables 5-1 and 5-2, R90, R92) -/

/-- R90, Table 5-1: a permit record from its write. A bay set octet with a bit of 4..7 set names more than bays 0..3 and is
refused, where chapter 11 would have unused bits ignored (DESIGN CHOICE; notes/assumptions/68.md). -/
def readPermit (w : PermitWrite) : Option Permit := do
  let credential ← inRange 1 4294967295 w.credential
  let driver ← inRange 1 9999999 w.driver
  let classes ← w.classes
  let expiry ← inRange 0 65535 w.expiry
  let bays ← w.bays
  require (decide (bays.toNat < 16))
  let state ← w.state
  pure { credential, driver, classes, expiry, bays, state }

/-- Sixteen figures as a bank. -/
def bank16 (l : List Int) : Vector Int 16 := Vector.ofFn fun i => l.getD i.val 0

/-- R92: an account entry from its write, over the reserved allocations the entry keeps. -/
def readAccount (w : AccountWrite) (reserved : Vector Nat 16) : Option Account := do
  let number ← inRange 1 99999999 w.number
  let state ← w.state
  let enforcement ← w.enforcement
  let l ← w.remaining
  require (l.length == 16 && l.all fun x => decide (-99999999 ≤ x) && decide (x ≤ 99999999))
  pure { number, state, enforcement, remaining := bank16 l, reserved }

/-! ### Station entries (Table 8-1, R146) -/

/-- R146: a station entry from its write: the kind, a bay for every kind but INJECTOR, an index for METER, TEMP, VALVE and
INJECTOR. A field present that the kind does not take is left out, a bay only when it is in range
(notes/assumptions/40.md). -/
def readStation (w : StationWrite) : Option StationEntry := do
  let kind ← w.kind
  require (match w.bay with
    | some b => decide (b ≤ 3)
    | none => true)
  match kind with
  | .meter | .temp | .valve => do
    let b ← bounded 4 w.bay
    let i ← inRange 0 11 w.index
    pure ⟨kind, some b, some i⟩
  | .injector => do
    let i ← inRange 0 15 w.index
    pure ⟨kind, none, some i⟩
  | .panel | .permit => do
    let b ← bounded 4 w.bay
    pure ⟨kind, some b, none⟩

/-! ### Rack settings (Table 10-6, R179) -/

/-- R179: the settings record from its write, an absent field at its default. -/
def readSettings (w : SettingsWrite) : Option Settings := do
  let minInterval ← inRangeOr 2 50 10 w.minInterval
  let sweepTimeout ← inRangeOr 5 100 40 w.sweepTimeout
  let debounce ← inRangeOr 5 100 20 w.debounce
  let authTimeout ← inRangeOr 60 900 300 w.authTimeout
  let resumeWindow ← inRangeOr 30 600 120 w.resumeWindow
  let valveTravel ← inRangeOr 2 20 8 w.valveTravel
  require (decide (minInterval < sweepTimeout))
  pure { minInterval, sweepTimeout, debounce, authTimeout, resumeWindow, valveTravel }

/-! ### Orders (Tables 5-3 and 5-5, R95) -/

/-- R95: a compartment line from its write: NOT_BATCHED and with no reservation. -/
def readLine (w : LineWrite) : Option OrderLine := do
  let compartment ← inRange 1 8 w.compartment
  let product ← inRange 1 255 w.product
  let preset ← inRange 1 40000 w.preset
  require (match w.capacity with
    | some c => decide (1 ≤ c) && decide (c ≤ 40000) && decide (preset ≤ c)
    | none => true)
  pure { compartment, product, preset, basis := w.basis, capacity := w.capacity, batch := .notBatched,
         reservation := none }

/-- R95: an order from its write, QUEUED. -/
def readOrder (w : OrderWrite) : Option Order := do
  let number ← inRange 1 4294967295 w.number
  let account ← inRange 0 255 w.account
  let credential ← inRange 0 4294967295 w.credential
  require (match w.expiry with
    | some e => decide (e ≤ 65535)
    | none => true)
  let ls ← w.lines
  let lines ← readAll readLine ls
  require (decide (1 ≤ lines.length) && decide (lines.length ≤ 8) && distinct (lines.map OrderLine.compartment))
  pure { number, account, credential, expiry := w.expiry, lines, state := .queued, assignment := none }

/-! ### Line records (Tables 9-1 and 9-3, R161) -/

/-- Table 9-1: a line function with its bay in range. -/
def readFunc (f : LineFunc) : Option LineFn :=
  match f with
  | .general => some .general
  | .esdIn => some .esdIn
  | .powerfailIn => some .powerfailIn
  | .holdIn => some .holdIn
  | .groundIn b => (toFin 4 b).map .groundIn
  | .overfillIn b => (toFin 4 b).map .overfillIn
  | .beaconOut b => (toFin 4 b).map .beaconOut
  | .faultOut => some .faultOut

/-- R161: mode, function and active level of a LINE SET: the active level HIGH when absent, the mode one that Table 9-3
accepts for the function. -/
def readLineRec (w : LineWriteRec) : Option (LineMode × LineFn × Level) := do
  let mode ← w.mode
  let func ← w.func.bind readFunc
  require (func.takesMode mode)
  pure (mode, func, w.active.getD .high)

end Sys2Proof.Machine
end

