-- ==== Sys2Proof/Machine/Tables.lean ====
section
/-! DEFINITION. Writing and clearing the tables (R1 to R4, R23, R43, R64, R90, R92, R146, R147, R179). The checks of a write
are made in the order BAD_FIELD, then FULL or DUPLICATE, then IN_USE (notes/assumptions/39.md). -/

namespace Sys2Proof.Machine

open Sys2Proof

/-- Whether a bay is CLOSED. -/
def Device.isClosed (d : Device) (b : BayId) : Bool := (d.bay b).state == .closed

/-! ### Arm table -/

/-- The arms other than `a`, with their non-empty records. -/
def Device.otherArms (d : Device) (a : ArmId) : List ArmRecord :=
  allArms.filterMap fun x => if x = a then none else d.armRec x

/-- R1: whether an address of a record is named by another record under a different kind, or as its METER or VALVE. -/
def ArmRecord.clashes (r o : ArmRecord) : Bool :=
  r.meter == o.meter || r.valve == o.valve || r.meter == o.valve || r.valve == o.meter ||
  r.meter == o.temp || r.valve == o.temp || (r.temp != 0 && (r.temp == o.meter || r.temp == o.valve))

/-- R1: whether the write would make the bay have five arms, or a channel be mapped by a third arm. -/
def armFull (r : ArmRecord) (others : List ArmRecord) : Bool :=
  decide (4 ≤ (others.filter fun o => o.bay == r.bay).length) ||
  r.additiveMap.any fun e => decide (2 ≤ (others.filter fun o => o.additiveMap.any fun x => x.2 == e.2).length)

/-- R2: whether the bays the stored record and the new one name are CLOSED. -/
def Device.armGate (d : Device) (a : ArmId) (new : Option ArmRecord) : Bool :=
  (match d.armRec a with
    | some r => d.isClosed r.bay
    | none => true) &&
  (match new with
    | some r => d.isClosed r.bay
    | none => true)

/-- R2: the meter state after a write or clear of the arm record: the marks alone go (DESIGN CHOICE;
notes/assumptions/70.md). -/
def Meter.rewired (m : Meter) (old new : Option ArmRecord) : Meter :=
  { m with
    baselineValid := m.baselineValid && (new.isSome && old.map ArmRecord.meter == new.map ArmRecord.meter)
    heldValid := m.heldValid && (new.isSome && old.map ArmRecord.temp == new.map ArmRecord.temp) }

/-- R23: the ring and the close-ahead all at one value. -/
def ArmCtl.seedRing (c : ArmCtl) (x : Nat) : ArmCtl := { c with ring := ⟨x, x, x, x⟩, closeAhead := x }

/-- R23, R35: the controller state after a write of the arm record. A record that was empty counts as one with another
close-ahead and another VALVE address, whatever it named before (notes/assumptions/47.md). -/
def ArmCtl.rewired (c : ArmCtl) (old : Option ArmRecord) (r : ArmRecord) : ArmCtl :=
  let c1 := if old.map ArmRecord.closeAhead = some r.closeAhead then c else c.seedRing r.closeAhead
  if old.map ArmRecord.valve = some r.valve then c1 else { (c1.setPosition .unknown) with coupler := .unknown }

/-- R1, R2, R23: TABLE WRITE to an arm record. -/
def Device.writeArm (d : Device) (a : ArmId) (w : ArmWrite) : Except Status Device :=
  match readArm w with
  | none => .error .badField
  | some r =>
    let others := d.otherArms a
    if others.any r.clashes then .error .badField
    else if armFull r others then .error .full
    else if !d.armGate a (some r) then .error .inUse
    else
      let old := d.armRec a
      .ok (((d.setArmRec a (some r)).onMeter a fun m => m.rewired old (some r)).onArm a fun c => c.rewired old r)

/-- R2, R23: TABLE CLEAR of an arm record. -/
def Device.clearArm (d : Device) (a : ArmId) : Except Status Device :=
  if !d.armGate a none then .error .inUse
  else .ok (((d.setArmRec a none).onMeter a fun m => m.rewired (d.armRec a) none).onArm a fun c => c.seedRing 0)

/-! ### Product table -/

/-- R4: whether some arm has an open batch of this product code. -/
def Device.batchOf (d : Device) (code : Nat) : Bool :=
  allArms.any fun a =>
    match (d.arm a).batch with
    | some b => b.product == code
    | none => false

/-- R3: whether another non-empty entry holds the code. -/
def Device.codeTaken (d : Device) (i : ProdIdx) (code : Nat) : Bool :=
  allSixteen.any fun j =>
    match d.product j with
    | some p => j != i && p.code == code
    | none => false

/-- R4: whether the product entry's own code has an open batch. -/
def Device.productBusy (d : Device) (i : ProdIdx) : Bool :=
  match d.product i with
  | some p => d.batchOf p.code
  | none => false

/-- R3, R4: TABLE WRITE to a product entry. -/
def Device.writeProduct (d : Device) (i : ProdIdx) (w : ProductWrite) : Except Status Device :=
  match readProduct w with
  | none => .error .badField
  | some p =>
    if d.codeTaken i p.code then .error .duplicate
    else if d.productBusy i || d.batchOf p.code then .error .inUse
    else .ok (d.setProduct i (some p))

/-- R4: TABLE CLEAR of a product entry. -/
def Device.clearProduct (d : Device) (i : ProdIdx) : Except Status Device :=
  if d.productBusy i then .error .inUse else .ok (d.setProduct i none)

/-! ### Injector table -/

/-- Whether a batch has a dosing record that names the channel. -/
def Batch.names (b : Batch) (c : Chan) : Bool := b.dosing.any fun x => x.injector == some c

/-- R43: whether any dosing record names the channel, of an open batch or of one on an ended-batch list. -/
def Device.dosingNames (d : Device) (c : Chan) : Bool :=
  (allArms.any fun a =>
    match (d.arm a).batch with
    | some b => b.names c
    | none => false) ||
  allBays.any fun y => (d.bay y).ended.any fun b => b.names c

/-- R43: whether another non-empty entry names the station. -/
def Device.injectorTaken (d : Device) (c : Chan) (n : Addr) : Bool :=
  allSixteen.any fun x =>
    match d.injRec x with
    | some j => x != c && j.station == n
    | none => false

/-- R43: the run-time record after a write or clear: its next token is kept. -/
def Injector.renewed (i : Injector) (st : InjectorState) : Injector := { Injector.reset with state := st, nextToken := i.nextToken }

/-- R43, R62: TABLE WRITE to an injector entry; one that takes the injector out of FAULT is reported. -/
def Device.writeInjector (d : Device) (c : Chan) (w : InjectorWrite) : Except Status Device :=
  match readInjector w with
  | none => .error .badField
  | some j =>
    if d.injectorTaken c j.station then .error .badField
    else if d.dosingNames c then .error .inUse
    else
      let d1 := (d.setInjRec c (some j)).onInj c fun i => i.renewed .available
      .ok (if (d.inj c).state = .fault then d1.injNotice c 3 [] else d1)

/-- R43: TABLE CLEAR of an injector entry. -/
def Device.clearInjector (d : Device) (c : Chan) : Except Status Device :=
  if d.dosingNames c then .error .inUse
  else .ok ((d.setInjRec c none).onInj c fun i => i.renewed .disabled)

/-! ### Bay table -/

/-- R64: whether another bay record shares the panel or a source with this one. -/
def BayRecord.clashes (r o : BayRecord) : Bool :=
  r.panel == o.panel || r.ground == o.ground || r.ground == o.overfill || r.overfill == o.ground || r.overfill == o.overfill

/-- R64: whether another non-empty bay record clashes. -/
def Device.bayTaken (d : Device) (b : BayId) (r : BayRecord) : Bool :=
  allBays.any fun x =>
    match d.bayRec x with
    | some o => x != b && r.clashes o
    | none => false

/-- R64: TABLE WRITE to a bay record. -/
def Device.writeBay (d : Device) (b : BayId) (w : BayWrite) : Except Status Device :=
  match readBay w with
  | none => .error .badField
  | some r =>
    if d.bayTaken b r then .error .badField
    else if !d.isClosed b then .error .inUse
    else .ok ((d.setBayRec b (some r)).reportBoth b)

/-- R64: TABLE CLEAR of a bay record. -/
def Device.clearBay (d : Device) (b : BayId) : Except Status Device :=
  if !d.isClosed b then .error .inUse else .ok ((d.setBayRec b none).reportBoth b)

/-! ### Permit and account tables -/

/-- R90: TABLE WRITE to a permit slot. -/
def Device.writePermit (d : Device) (i : Nat) (w : PermitWrite) : Except Status Device :=
  match readPermit w with
  | none => .error .badField
  | some p =>
    if d.permits.any fun e => e.1 != i && e.2.credential == p.credential then .error .duplicate
    else .ok (d.onPermits fun t => Sparse.put i p t)

/-- R90: TABLE CLEAR of a permit slot. -/
def Device.clearPermit (d : Device) (i : Nat) : Device := d.onPermits fun t => Sparse.del i t

/-- R92: the reserved allocations an entry keeps: 0 for one that was empty. -/
def Device.reservedOf (d : Device) (i : Nat) : Vector Nat 16 :=
  match Sparse.get i d.accounts with
  | some a => a.reserved
  | none => Vector.replicate 16 0

/-- R92: TABLE WRITE to an account entry; reserved allocations that its frame carries are left out. -/
def Device.writeAccount (d : Device) (i : Nat) (w : AccountWrite) : Except Status Device :=
  match readAccount w (d.reservedOf i) with
  | none => .error .badField
  | some a =>
    if d.accounts.any fun e => e.1 != i && e.2.number == a.number then .error .duplicate
    else .ok (d.onAccounts fun t => Sparse.put i a t)

/-- R92: TABLE CLEAR of an account entry. -/
def Device.clearAccount (d : Device) (i : Nat) : Except Status Device :=
  if d.orders.any fun o => o.account == i then .error .inUse else .ok (d.onAccounts fun t => Sparse.del i t)

/-! ### Station table -/

/-- R146: whether the bay an entry names is CLOSED. -/
def Device.entryGate (d : Device) (e : Option StationEntry) : Bool :=
  match e.bind StationEntry.bay with
  | some b => d.isClosed b
  | none => true

/-- R146: whether every bay whose records name the address is CLOSED. -/
def Device.addressGate (d : Device) (n : Addr) : Bool :=
  (allBays.all fun b =>
    match d.bayRec b with
    | some r => !(r.panel == n || r.ground == .station n || r.overfill == .station n) || d.isClosed b
    | none => true) &&
  (allArms.all fun a =>
    match d.armRec a with
    | some r => !(r.meter == n || (r.temp == n && r.temp != 0) || r.valve == n) || d.isClosed r.bay
    | none => true) &&
  allSixteen.all fun c =>
    match d.injRec c with
    | some j => !(j.station == n) || !d.dosingNames c
    | none => true

/-- R147: the station's record after a write or clear of its entry. The round assembly is spoiled and keeps the bits gathered
so far (DESIGN CHOICE; notes/assumptions/74.md). -/
def Station.renewed (s : Station) (e : Option StationEntry) : Station :=
  { s with entry := e, state := (if e.isSome then .silent else .unconfigured), align := 0, miss := 0, kindSeen := none,
           word := none, spoiled := true }

/-- R147, R151: the users of an address under an entry's kind take the station as lost. -/
def Device.entryLost (d : Device) (n : Addr) (e : Option StationEntry) : Device :=
  match e with
  | some x => d.userLost n x.kind false
  | none => d

/-- R147: the outstanding sweep no longer carries a slot of the address that is judged. -/
def Sweep.change (w : Sweep) (n : Addr) : Sweep := { w with changed := n :: w.changed }

/-- R147: a write or clear of an entry that is taken. -/
def Device.setStation (d : Device) (n : Addr) (e : Option StationEntry) : Device :=
  let old := (d.station n).entry
  let d1 := (d.onStation n fun s => s.renewed e).onLm fun l => { l with outstanding := l.outstanding.map (Sweep.change · n) }
  (((d1.entryLost n old).entryLost n e).evalPermissives).stationNotice n 1 []

/-- R146, R147: TABLE WRITE to a station entry. -/
def Device.writeStation (d : Device) (n : Addr) (w : StationWrite) : Except Status Device :=
  match readStation w with
  | none => .error .badField
  | some e =>
    if d.entryGate (d.station n).entry && d.entryGate (some e) && d.addressGate n then .ok (d.setStation n (some e))
    else .error .inUse

/-- R146, R147: TABLE CLEAR of a station entry. -/
def Device.clearStation (d : Device) (n : Addr) : Except Status Device :=
  if d.entryGate (d.station n).entry && d.addressGate n then .ok (d.setStation n none) else .error .inUse

/-! ### Rack settings -/

/-- R179: TABLE WRITE to the rack settings record. -/
def Device.writeSettings (d : Device) (w : SettingsWrite) : Except Status Device :=
  match readSettings w with
  | none => .error .badField
  | some s => .ok (d.onMp fun m => { m with settings := s })

/-- R179: TABLE CLEAR of the rack settings record. -/
def Device.clearSettings (d : Device) : Device := d.onMp fun m => { m with settings := .default }

/-! ### Orders (R95, R97) -/

/-- R95: ORDER ADD. -/
def Device.addOrder (d : Device) (w : OrderWrite) : Except Status Device :=
  match readOrder w with
  | none => .error .badField
  | some o =>
    if (Sparse.get o.account d.accounts).isNone then .error .notFound
    else if d.orders.any fun x => x.number == o.number then .error .duplicate
    else if 48 ≤ d.orders.length then .error .full
    else .ok (d.onOrders fun q => q ++ [o])

/-- R97: ORDER CANCEL. -/
def Device.cancelOrder (d : Device) (n : Nat) : Except Status Device :=
  match d.orderNumbered n with
  | none => .error .notFound
  | some o =>
    match o.state, o.assignment with
    | .queued, _ => .ok (d.onOrders fun q => q.filter fun x => x.number != n)
    | .assigned, some s => .ok (d.withdraw s.bay .orderCancel)
    | .assigned, none => .ok (d.onOrders fun q => q.filter fun x => x.number != n)
    | .loading, _ => .error .inUse

end Sys2Proof.Machine
end

