-- ==== Sys2Proof/Machine/Status.lean ====
section
/-! DEFINITION. What TABLE READ and STATUS READ return (R176, R186): the octets of records, one element for each item, in
the order the rules set out (notes/assumptions/11.md, 54.md). -/

namespace Sys2Proof.Machine

open Sys2Proof

/-! ### Records as stored: presence octets and fields, in the form of their writes (R185) -/

/-- A permissive source as its write carries it. -/
def PermSource.written : PermSource → Source
  | .station n => .station n.val
  | .line l => .line l.val

/-- A line function as its write carries it. -/
def LineFn.written : LineFn → LineFunc
  | .general => .general
  | .esdIn => .esdIn
  | .powerfailIn => .powerfailIn
  | .holdIn => .holdIn
  | .groundIn b => .groundIn b.val
  | .overfillIn b => .overfillIn b.val
  | .beaconOut b => .beaconOut b.val
  | .faultOut => .faultOut

/-- R2: an arm record as stored. -/
def ArmRecord.octs (r : ArmRecord) : List Byte :=
  putArm ⟨some r.bay.val, some r.product, some r.meter.val, some r.temp.val, some r.valve.val, some r.kFactor,
    some r.curve, some r.qMax, some r.closeAhead, some (r.additiveMap.map fun e => ⟨e.1, e.2.val⟩), some r.inService⟩

/-- R3: a product record as stored, defaults included. -/
def Product.octs (p : Product) : List Byte :=
  putProduct ⟨some p.code, some p.alpha, some p.fallback, some p.basis, some p.startVol, some p.taperVol,
    some p.overrun, some p.classes, some p.recipe⟩

/-- R43: an injector record as stored, defaults included. -/
def InjectorRec.octs (j : InjectorRec) : List Byte :=
  putInjector ⟨some j.station.val, some j.code, some j.shot, some j.kFactor, some j.acceptance, some j.tolerance,
    some j.window, some j.timeout⟩

/-- R64: a bay record as stored. -/
def BayRecord.octs (r : BayRecord) : List Byte :=
  putBay ⟨some r.panel.val, some r.ground.written, some r.overfill.written⟩

/-- R90: a permit record as stored. -/
def Permit.octs (p : Permit) : List Byte :=
  putPermit ⟨some p.credential, some p.driver, some p.classes, some p.expiry, some p.bays, some p.state⟩

/-- R92: an account entry, the reserved allocations included. -/
def Account.octs (a : Account) : List Byte :=
  putAccount ⟨some a.number, some a.state, some a.enforcement, some a.remaining.toList, some a.reserved.toList⟩

/-- R146: a station entry as stored. -/
def StationEntry.octs (e : StationEntry) : List Byte := putStation ⟨some e.kind, e.bay.map Fin.val, e.index⟩

/-- R179: the rack settings record. -/
def Settings.octs (s : Settings) : List Byte :=
  putSettings ⟨some s.minInterval, some s.sweepTimeout, some s.debounce, some s.authTimeout, some s.resumeWindow,
    some s.valveTravel⟩

/-- Table 5-5: a compartment line with its batch state and reservation. -/
def OrderLine.octs (l : OrderLine) : List Byte :=
  [1#8, 1#8, 1#8, putPresent l.basis, putPresent l.capacity, 1#8, putPresent l.reservation] ++
  octets 1 l.compartment ++ octets 1 l.product ++ octets 2 l.preset ++ putIf (putEnum basisNames) l.basis ++
  putIf (octets 2) l.capacity ++ octets 1 l.batch.code ++ putIf (fun p : ProdIdx => octets 1 p.val) l.reservation

/-- R98: every field of Tables 5-3, 5-4 and 5-5. -/
def Order.octs (o : Order) : List Byte :=
  [1#8, 1#8, 1#8, putPresent o.expiry, 1#8, 1#8, putPresent o.assignment] ++
  octets 4 o.number ++ octets 1 o.account ++ octets 4 o.credential ++ putIf (octets 2) o.expiry ++
  putList OrderLine.octs o.lines ++ octets 1 o.state.code ++
  putIf (fun s : Assignment => octets 1 s.bay.val ++ octets 4 s.credential ++ octets 4 s.driver) o.assignment

/-- A record's octets, or no octets for an empty slot: the empty indication. -/
def stored {α : Type} (f : α → List Byte) : Option α → List Byte
  | none => []
  | some x => f x

/-- Table 10-5: what a TABLE READ of a table and index finds: BAD_TABLE, BAD_INDEX, NOT_FOUND, or a body. -/
def Device.readTable (d : Device) (table index : Nat) : Except Status (List Byte) :=
  match table with
  | 0 =>
    (match toFin 12 index with
      | some a => .ok (stored ArmRecord.octs (d.armRec a))
      | none => .error .badIndex)
  | 1 =>
    (match toFin 16 index with
      | some i => .ok (stored Product.octs (d.product i))
      | none => .error .badIndex)
  | 2 =>
    (match toFin 16 index with
      | some c => .ok (stored InjectorRec.octs (d.injRec c))
      | none => .error .badIndex)
  | 3 =>
    (match toFin 4 index with
      | some b => .ok (stored BayRecord.octs (d.bayRec b))
      | none => .error .badIndex)
  | 4 => if index < 1024 then .ok (stored Permit.octs (Sparse.get index d.permits)) else .error .badIndex
  | 5 => if index < 256 then .ok (stored Account.octs (Sparse.get index d.accounts)) else .error .badIndex
  | 6 =>
    if 48 ≤ index then .error .badIndex
    else
      (match d.orders[index]? with
        | some o => .ok o.octs
        | none => .error .notFound)
  | 7 =>
    (match fieldAddr (some index) with
      | some n => .ok (stored StationEntry.octs (d.station n).entry)
      | none => .error .badIndex)
  | 8 => if index = 0 then .ok d.mp.settings.octs else .error .badIndex
  | _ => .error .badTable

/-! ### Batches and dosing records -/

/-- A time that may be absent. -/
def optTime (t : Option Time) : List Byte := optOctets (t.map timeOctets)

/-- A volume that may be absent. -/
def optVol (v : Option Vol) : List Byte := optOctets (v.map volOctets)

/-- Causes of a close snapshot in the order of Table 2-2. -/
def CloseCause.code : CloseCause → Nat
  | .preset => 0
  | .stop => 1

/-- Table 2-2: a batch record. The flags take two octets and the weighted-temperature sum eight, in two's complement, widths
that R185 does not give; so do the eight of the snapshot's volume (DESIGN CHOICE; notes/assumptions/71.md, 72.md). -/
def Batch.octs (b : Batch) : List Byte :=
  octets 1 b.line ++ octets 1 b.compartment ++ octets 1 b.product ++ octets 2 b.preset ++ octets 1 (basisCode b.basis) ++
  octets 2 b.startVol ++ octets 2 b.taperVol ++ octets 1 b.overrun ++ octets 1 b.phase.code ++ volOctets b.delivered ++
  optOctets (b.snapshot.map fun s => octets 8 s.1 ++ octets 1 s.2.code) ++ signedOctets 8 b.tempSum ++
  volOctets b.opening ++ optVol b.closing ++ timeOctets b.startTime ++ optTime b.endTime ++ octets 2 b.flags.number ++
  octets 4 b.discarded ++ octets 4 b.mismatches ++ flagOctet b.throttle ++
  optOctets (b.endStatus.map fun s => octets 1 s.code)

/-- Table 3-3: a dosing record; 255 is no injector. The window volume takes four octets, its low ones, and the accumulator
eight (DESIGN CHOICE; notes/assumptions/64.md, 72.md). -/
def Dosing.octs (x : Dosing) : List Byte :=
  octets 1 (if x.dosed then 0 else 1) ++ octets 1 x.recipe ++ octets 1 x.code ++ octets 2 x.dose ++
  putEnum actionNames x.action ++ octets 1 (match x.injector with
    | some c => c.val
    | none => 255) ++
  octets 8 x.acc ++ octets 1 x.pending ++ flagOctet x.closeMark ++ octets 1 x.winCount ++ octets 4 x.winVol ++
  octets 4 x.completed ++ octets 4 x.missed ++ octets 4 x.cancelled ++ octets 4 x.delivered ++
  optOctets (x.required.map (octets 4))

/-! ### STATUS READ (R186) -/

/-- R5, R42, section 6.2, R62: the items of an arm. The close-ahead ring, oldest entry first, and the close-ahead are two
items of Table 2-1 and two elements (notes/assumptions/54.md). -/
def armItems (d : Device) (a : ArmId) : List (List Byte) :=
  let m := d.meter a
  let c := d.arm a
  [flagOctet m.baselineValid, octets 4 m.grossResidue, octets 4 m.netResidue,
    signedOctets 2 m.heldTemp ++ flagOctet m.heldValid, signedOctets 2 m.currentTemp, octets 1 m.tempSource.code,
    octets 2 m.lastFlow, octets 4 m.lastMf, octets 4 m.lastVcf, volOctets m.mirror, volOctets m.unwritten,
    stored Batch.octs c.batch, octets 1 c.commanded.code, octets 1 (d.effectiveStage a).code,
    octets 1 c.position.code, octets 1 c.coupler.code, flagOctet c.travel.isSome, octets 1 c.zeroFlow,
    octets 2 c.ring.e0 ++ octets 2 c.ring.e1 ++ octets 2 c.ring.e2 ++ octets 2 c.ring.e3, octets 2 c.closeAhead,
    volOctets c.unassigned, flagOctet c.totFault, volOctets (Bank.read d.cw.written a), volOctets (d.cw.queued a)] ++
  (match c.batch with
    | some b => b.dosing.map Dosing.octs
    | none => [])

/-- The state before hold; 255 is none. -/
def BeforeHold.code : Option BeforeHold → Nat
  | some .idle => 0
  | some .authorized => 1
  | some .loading => 2
  | none => 255

/-- Table 4-2: the authorization timer: stopped 0, running 1, suspended 2 (notes/assumptions/9.md). -/
def AuthTimer.code : AuthTimer → Nat
  | .stopped => 0
  | .running _ => 1
  | .suspended _ => 2

/-- The ms an authorization timer has left. -/
def AuthTimer.left : AuthTimer → Option Nat
  | .stopped => none
  | .running ms => some ms
  | .suspended ms => some ms

/-- R126: a bay's RESERVED slot with its failed mark. -/
def reservedItem (d : Device) (b : BayId) : List Byte :=
  optOctets ((d.reservedSlot b).map fun k =>
    octets 1 k.val ++ (match d.slot k with
      | .reserved _ f => flagOctet f
      | .free | .retained _ _ | .bad => flagOctet false))

/-- R65, R126: the items of a bay. A bay without an assigned order sends the order number 0 (DESIGN CHOICE;
notes/assumptions/65.md). -/
def bayItems (d : Device) (b : BayId) : List (List Byte) :=
  let r := d.bay b
  let n := d.noteBay b
  [octets 1 r.state.code, flagOctet r.order.isSome, flagOctet r.ground ++ flagOctet r.overfill,
    octets 1 r.causes.octet, octets 1 r.trips, flagOctet r.lockout, octets 1 (holdOctet r),
    octets 1 (BeforeHold.code r.before), optOctets (r.swipe.map (octets 4)), octets 1 r.authTimer.code,
    flagOctet r.resumeTimer.isSome, octets 1 (loadFlagsOctet r.seen r.heldDuring r.lockoutDuring),
    optOctets (r.message.map fun x => octets 1 x.code), octets 4 (r.order.getD 0),
    optOctets (r.authTimer.left.map (octets 4)), optOctets (r.resumeTimer.map (octets 4)), reservedItem d b,
    optOctets (n.stall.map (octets 4)), octets 4 n.last] ++
  (r.ended.map fun t => t.octs :: t.dosing.map Dosing.octs).flatten

/-- R159, R186: the items of a station: its entry and the items of Table 8-3. An address with no entry answers the empty
indication alone, in place of all of them (notes/assumptions/60.md). -/
def stationItems (d : Device) (n : Addr) : List (List Byte) :=
  let s := d.station n
  match s.entry with
  | none => [[]]
  | some e =>
    [e.octs, octets 1 s.state.code, octets 1 s.align, octets 1 s.miss, optOctets (s.kindSeen.map (octets 1)),
      optOctets (s.word.map fun w => octets 2 w.toNat), octets 2 s.round.toNat ++ flagOctet s.spoiled]

/-- R62, R185: a shot in flight: its token, the arm and recipe line it belongs to, and the ms left before its timeout, at most
10 000 and so in two octets. -/
def shotItem (d : Device) (c : Chan) (s : Shot) : List Byte :=
  let limit := match d.injRec c with
    | some j => secondsMs j.timeout
    | none => 0
  octets 1 s.token ++ octets 1 s.ref.arm.val ++ octets 1 s.ref.recipe ++ octets 2 (limit - (d.now - s.issued))

/-- R62: the items of an injector. In the return view READY is sent as 1 and BUSY as 0, a free buffer as 1 and a full one as 0
(DESIGN CHOICE; notes/assumptions/63.md). A standing offer is its token and the arm and recipe line of its dosing record, the
form R62 gives for a shot in flight alone (DESIGN CHOICE; notes/assumptions/73.md). -/
def injectorItems (d : Device) (c : Chan) : List (List Byte) :=
  let i := d.inj c
  [octets 1 i.state.code] ++ i.inFlight.map (shotItem d c) ++
  [optOctets (i.offer.map fun o => octets 1 o.token ++ octets 1 o.ref.arm.val ++ octets 1 o.ref.recipe),
    octets 1 i.nextToken, optOctets (i.lastServed.map fun a => octets 1 a.val), octets 1 i.missed,
    optOctets (i.view.map fun v => flagOctet v.ready ++ flagOctet v.bufferFree)]

/-- R173: the assembly state: IDLE 0, ASSEMBLING 1, DISCARDING 2. -/
def Assembly.code : Assembly → Nat
  | .idle => 0
  | .assembling _ _ => 1
  | .discarding => 2

/-- R182: the rack clock and MP's items. -/
def mpItems (m : Mp) : List (List Byte) :=
  [optTime m.clock, octets 1 m.fifo.length, octets 1 m.answers.length, octets 1 m.notices.length, flagOctet m.inService,
    flagOctet m.reserved, octets 1 m.asm.code, flagOctet m.out.isSome, flagOctet m.ready, octets 2 m.aborts,
    octets 2 m.discards, m.settings.octs]

/-- R159: the number of stations in each state of Table 8-2, in its order: one item (notes/assumptions/54.md). -/
def stationCounts (d : Device) : List Byte :=
  ([.unconfigured, .silent, .aligning, .active, .slipped, .mismatch].map fun s =>
    octets 1 (allAddrs.filter fun n => (d.station n).state == s).length).flatten

/-- R159: LM's items; the index of the last sweep launched has no value when none has been launched since the reset
(notes/assumptions/49.md). -/
def loopItems (d : Device) : List (List Byte) :=
  [optOctets (if d.lm.launched then some (octets 1 (d.lm.nextIndex - 1).val) else none), flagOctet d.lm.outstanding.isSome,
    octets 1 d.lm.timeouts, flagOctet d.lm.broken, octets 2 d.lm.eventErrors, stationCounts d]

/-- Section 6.2: the write in progress: 0 none, 1 a post with its arm, 2 a barrier with its bay, 3 a release with its slot,
4 the next-number record (DESIGN CHOICE; notes/assumptions/76.md). -/
def writeItem (c : Cw) : List Byte :=
  match c.write with
  | none => [0#8]
  | some w =>
    match w.job with
    | .post id =>
      [1#8] ++ (match (c.entry id).map QEntry.body with
        | some (.post p) => octets 1 p.arm.val
        | _ => [])
    | .barrier id _ =>
      [2#8] ++ (match (c.entry id).map QEntry.body with
        | some (.barrier b) => octets 1 b.bay.val
        | _ => [])
    | .release k => [3#8] ++ octets 1 k.val
    | .nextNumber _ => [4#8]

/-- Section 6.2: CW's items of the rack: the number of entries of each kind is one item (notes/assumptions/54.md). -/
def cwItems (c : Cw) : List (List Byte) :=
  [octets 1 c.mode.code, octets 1 (postCount c.queue) ++ octets 1 (c.queue.length - postCount c.queue), writeItem c,
    optOctets (c.held.map fun h => octets 1 h.bay.val), octets 1 c.releases.length, octets 2 c.deferrals,
    octets 2 c.failures]

/-- The note numbers of the RETAINED slots. -/
def retainedNumbers (d : Device) : List Nat :=
  allSlots.filterMap fun k =>
    match d.slot k with
    | .retained n _ => some n
    | .free | .reserved _ _ | .bad => none

/-- A stalled bay put in its place in stall order. -/
def insertStall (x : BayId × Nat) : List (BayId × Nat) → List (BayId × Nat)
  | [] => [x]
  | y :: t => if x.2 < y.2 then x :: y :: t else y :: insertStall x t

/-- R126: the bays whose commit is stalled, in stall order. -/
def stalledBays (d : Device) : List BayId :=
  ((allBays.filterMap fun b => (d.noteBay b).stall.map fun n => (b, n)).foldl (fun l x => insertStall x l) []).map Prod.fst

/-- R126: NU's items of the rack: the lowest and the highest number are two items, the four slot counts one
(notes/assumptions/54.md). -/
def noteItems (d : Device) : List (List Byte) :=
  let l := retainedNumbers d
  [(directoryCounts d).flatten, octets 4 (l.foldl min (l.headD 0)), octets 4 (l.foldl max 0),
    octets 1 (d.countSlots fun s =>
      match s with
      | .retained _ p => p
      | .free | .reserved _ _ | .bad => false),
    listOctets ((stalledBays d).map fun b => octets 1 b.val)]

/-- R171: the items of a line: the record of Table 9-1 in the form of its write, the five items of Table 9-2 and whether the
line is active (notes/assumptions/54.md). An output shows the line level taken at its LINE SET, and its pin as
PIN_LEVEL_CHANGE last gave it (notes/assumptions/50.md). A drive, the bound mark and the active mark are an octet, 1 asserted,
set or active and 0 otherwise (DESIGN CHOICE; notes/assumptions/78.md). -/
def lineItems (x : Line) : List (List Byte) :=
  [putLineRec ⟨some x.mode, some x.func.written, some x.active⟩, putEnum levelNames x.pin, putEnum levelNames x.level,
    optOctets (x.timer.map (octets 1)), optOctets (x.drive.map flagOctet), flagOctet x.bound, flagOctet x.isActive]

/-- R171: LU's items of the rack: the latches, the holds, the lines, one element for each bay's two permissives and then one
for each PERMIT station's held pair, with its address (notes/assumptions/59.md). Latches, holds, permissives and marks are an
octet each, 1 set, active, present or valid and 0 otherwise (DESIGN CHOICE; notes/assumptions/78.md). -/
def luItems (d : Device) : List (List Byte) :=
  [flagOctet d.lu.esd, flagOctet d.lu.esdPending, flagOctet d.lu.powerfail, flagOctet d.lu.mgmtHold,
    flagOctet d.lu.holdSource] ++
  (allSixteen.map fun l => lineItems (d.line l)).flatten ++
  allBays.map (fun b => flagOctet (d.bay b).ground ++ flagOctet (d.bay b).overfill) ++
  (allAddrs.filter fun n => (d.station n).isKind .permit).map fun n =>
    let p := d.pair n
    octets 1 n.val ++ flagOctet p.ground ++ flagOctet p.overfill ++ flagOctet p.valid

/-- R186: the items of the rack. -/
def rackItems (d : Device) : List (List Byte) := mpItems d.mp ++ loopItems d ++ cwItems d.cw ++ noteItems d ++ luItems d

/-- R178, R186: the items of an object, or none where its index names no such object; the rack's one index is 0
(notes/assumptions/51.md). -/
def statusItems (d : Device) (o : StatusObj) (i : Nat) : Option (List (List Byte)) :=
  match o with
  | .rack => if i = 0 then some (rackItems d) else none
  | .bay => (toFin 4 i).map (bayItems d)
  | .arm => (toFin 12 i).map (armItems d)
  | .station => (fieldAddr (some i)).map (stationItems d)
  | .injector => (toFin 16 i).map (injectorItems d)

/-- R176: a STATUS READ from a starting element on. -/
def Device.readStatus (d : Device) (o : StatusObj) (i start : Nat) : Status × List Element :=
  match statusItems d o i with
  | none => (.badIndex, [])
  | some l => pageFrom start (elementsOf l true false)

end Sys2Proof.Machine
end

