-- ==== Sys2Proof/Machine/Events.lean ====
section
/-! DEFINITION. The commands that are events: resets and power, sweeps, expiries, the clock, pins and custody completions. An
expiry command acts when its timer runs (notes/assumptions/2.md). -/

namespace Sys2Proof.Machine

open Sys2Proof

/-- The next state: the part changed, the waiting commands as they are. -/
def advance (s : State) (f : Device → Device) : Host.Outcome State Fault Refusal := .next { s with dev := f s.dev }

/-- HARD_RESET (R124, R125): the write in progress is cut off, volatile state is reset and the start-up scan runs. -/
def execHardReset (s : State) : Host.Outcome State Fault Refusal := advance s Device.hardReset

/-- POWER_LOSS (R111): the write in progress is cut off and volatile state is lost; the part is off. -/
def execPowerLoss (s : State) : Host.Outcome State Fault Refusal := advance s Device.powerLost

/-- R143: whether LM may launch: the part runs, no sweep is outstanding, and the minimum sweep interval has passed since
the last launch. -/
def Device.mayLaunch (d : Device) : Bool := d.boot == .ready && d.lm.outstanding.isNone && d.lm.interval == 0

/-- SWEEP_LAUNCH (R143). -/
def execSweepLaunch (s : State) : Host.Outcome State Fault Refusal :=
  advance s fun d => if d.mayLaunch then d.launch else d

/-- R143, R144: a frame arrives at loop-in. While a RESTART is in progress, a return ends its sweep, its contents are
discarded, and the reset follows if it waited for the sweep alone (notes/assumptions/34.md). -/
def Device.loopIn (d : Device) (f : List Byte) : Device :=
  match d.lm.outstanding with
  | none => d
  | some s =>
    if !headerMatches s f then d
    else match d.boot with
    | .ready => d.sweepBack s f
    | .draining _ => d.loopReturned.drainTest
    | .off | .scanning _ _ _ => d

/-- R143, R144: the sweep timeout as the part stands. While a RESTART is in progress, it ends its sweep, and the reset
follows if it waited for the sweep alone (notes/assumptions/34.md). -/
def Device.sweepExpired (d : Device) : Device :=
  match d.lm.outstanding with
  | none => d
  | some s =>
    match d.boot with
    | .ready => d.sweepTimedOut s
    | .draining _ => d.loopTimedOut.drainTest
    | .off | .scanning _ _ _ => d

/-- SWEEP_RETURN (R144): a frame arrives at loop-in; its header says whether it is the outstanding sweep. -/
def execSweepReturn (frame : List Byte) (s : State) : Host.Outcome State Fault Refusal := advance s fun d => d.loopIn frame

/-- FRAME_DISCARDED (R144): a frame arrives at loop-in; one whose header does not match is discarded. -/
def execFrameDiscarded (frame : List Byte) (s : State) : Host.Outcome State Fault Refusal :=
  advance s fun d => d.loopIn frame

/-- SWEEP_TIMEOUT (R144, R145). -/
def execSweepTimeout (s : State) : Host.Outcome State Fault Refusal := advance s Device.sweepExpired

/-- R68: whether a bay's authorization timer runs. -/
def AuthTimer.isRunning : AuthTimer → Bool
  | .running _ => true
  | .stopped | .suspended _ => false

/-- AUTHORIZATION_TIMER_EXPIRY (R68). -/
def execAuthorizationTimerExpiry (b : BayId) (s : State) : Host.Outcome State Fault Refusal :=
  advance s fun d =>
    if (d.bay b).state = .authorized ∧ (d.bay b).authTimer.isRunning then d.event fun x => x.authExpired b else d

/-- RESUME_TIMER_EXPIRY (R75): in TRIPPED the bay enters CLOSING, whatever causes remain. -/
def execResumeTimerExpiry (b : BayId) (s : State) : Host.Outcome State Fault Refusal :=
  advance s fun d =>
    if (d.bay b).state = .tripped ∧ (d.bay b).resumeTimer.isSome then d.event fun x => x.closeLoad b else d

/-- TRAVEL_TIMER_EXPIRY (R37, R38). -/
def execTravelTimerExpiry (a : ArmId) (s : State) : Host.Outcome State Fault Refusal :=
  advance s fun d => d.event fun x => x.travelExpired a

/-- SHOT_TIMEOUT (R53). -/
def execShotTimeout (c : Chan) (token : Nat) (s : State) : Host.Outcome State Fault Refusal :=
  advance s fun d =>
    match (d.inj c).inFlight.find? fun x => x.token == token with
    | some x => d.event fun e => e.timeoutShot c x
    | none => d

/-- R180: the clock one second on: after second 86 399 the next day, after day 65 535 day 0. -/
def Time.next (t : Time) : Time :=
  if t.sec < 86399 then ⟨t.day, t.sec + 1⟩ else ⟨if t.day < 65535 then t.day + 1 else 0, 0⟩

/-- RACK_CLOCK_SECOND (R180): a SET clock advances by one second; an UNSET clock stays UNSET. -/
def execRackClockSecond (s : State) : Host.Outcome State Fault Refusal :=
  advance s fun d => d.onMp fun m => { m with clock := m.clock.map Time.next, clockMs := 0 }

/-- PIN_LEVEL_CHANGE (R162). Without supply the pin's level is all that changes. -/
def execPinLevelChange (l : LineId) (v : Level) (s : State) : Host.Outcome State Fault Refusal :=
  advance s fun d => if d.boot = .off then d.onLine l fun x => { x with pin := v } else d.event fun x => x.pinChanged l v

/-- DEBOUNCE_TIMER_EXPIRY (R162). -/
def execDebounceTimerExpiry (l : LineId) (s : State) : Host.Outcome State Fault Refusal :=
  advance s fun d => d.event fun x => x.debounceExpired l

/-- CUSTODY_WRITE_COMPLETE (R114, R115). -/
def execCustodyWriteComplete (good : Bool) (s : State) : Host.Outcome State Fault Refusal :=
  advance s fun d => d.custodyEvent good

/-! ### Time (notes/assumptions/3.md, 37.md) -/

/-- An authorization timer 1 ms on. -/
def AuthTimer.tick : AuthTimer → AuthTimer
  | .running ms => .running (ms - 1)
  | .stopped => .stopped
  | .suspended ms => .suspended ms

/-- A bay's timers 1 ms on. -/
def Bay.tick (r : Bay) : Bay := { r with authTimer := r.authTimer.tick, resumeTimer := r.resumeTimer.map (· - 1) }

/-- 1 ms passes: the intervals and the running timers count down to 0 and stay there until their expiry is commanded. -/
def Device.tick (d : Device) : Device :=
  if d.boot = .off then d
  else
    { d with
      now := d.now + 1
      arms := d.arms.map fun c => { c with travel := c.travel.map (· - 1) }
      bays := d.bays.map Bay.tick
      lm := { d.lm with
        interval := d.lm.interval - 1
        outstanding := d.lm.outstanding.map fun s => { s with timeout := s.timeout - 1 } }
      lu := { d.lu with lines := d.lu.lines.map fun x => { x with timer := x.timer.map (· - 1) } }
      mp := { d.mp with clockMs := if d.mp.clock.isSome then min 1000 (d.mp.clockMs + 1) else d.mp.clockMs } }

end Sys2Proof.Machine
end

