-- ==== Sys2Proof/Machine/BayRequests.lean ====
section
/-! DEFINITION. The requests about orders, bays and injectors: ORDER ADD and CANCEL, BAY OPEN, CLOSE, HOLD and RELEASE, LOAD
FINISH, TRIP CLEAR and INJECTOR CLEAR. -/

namespace Sys2Proof.Machine

open Sys2Proof

/-- ORDER_ADD (R95). -/
def execOrderAdd (tag : Byte) (ops : Option OrderWrite) (s : State) : Host.Outcome State Fault Refusal :=
  advance s fun d => d.request (.orderAdd tag ops) fun e =>
    e.withOps 4 tag ops fun w => e.conclude 4 tag (e.addOrder w)

/-- ORDER_CANCEL (R97). -/
def execOrderCancel (tag : Byte) (ops : Option Nat) (s : State) : Host.Outcome State Fault Refusal :=
  advance s fun d => d.request (.orderCancel tag ops) fun e =>
    e.withOps 5 tag ops fun n => e.conclude 5 tag (e.cancelOrder n)

/-- WRONG_STATE where a request has no effect in the object's present state. -/
def orWrong (o : Option Device) : Except Status Device :=
  match o with
  | some d => .ok d
  | none => .error .wrongState

/-- R66: BAY OPEN in CLOSED with a non-empty bay record. -/
def Device.bayOpen (d : Device) (b : BayId) : Option Device :=
  if (d.bay b).state = .closed ∧ (d.bayRec b).isSome then some (d.openBay b) else none

/-- BAY_OPEN (R66). -/
def execBayOpen (tag : Byte) (ops : Option Nat) (s : State) : Host.Outcome State Fault Refusal :=
  advance s fun d => d.request (.bayOpen tag ops) fun e =>
    e.withOne 6 tag 4 ops fun b => e.conclude 6 tag (orWrong (e.bayOpen b))

/-- BAY_CLOSE (R66). -/
def execBayClose (tag : Byte) (ops : Option Nat) (s : State) : Host.Outcome State Fault Refusal :=
  advance s fun d => d.request (.bayClose tag ops) fun e =>
    e.withOne 7 tag 4 ops fun b => e.conclude 7 tag (orWrong (e.closeBay b))

/-- BAY_HOLD (R78). -/
def execBayHold (tag : Byte) (ops : Option Nat) (s : State) : Host.Outcome State Fault Refusal :=
  advance s fun d => d.request (.bayHold tag ops) fun e =>
    e.withOne 8 tag 4 ops fun b => e.conclude 8 tag (.ok (e.setHolds b true (e.bay b).holdRack))

/-- BAY_RELEASE (R78). -/
def execBayRelease (tag : Byte) (ops : Option Nat) (s : State) : Host.Outcome State Fault Refusal :=
  advance s fun d => d.request (.bayRelease tag ops) fun e =>
    e.withOne 9 tag 4 ops fun b => e.conclude 9 tag (.ok (e.setHolds b false (e.bay b).holdRack))

/-- RACK_HOLD (R170). -/
def execRackHold (tag : Byte) (ops : Option Unit) (s : State) : Host.Outcome State Fault Refusal :=
  advance s fun d => d.request (.rackHold tag ops) fun e =>
    e.withOps 10 tag ops fun _ => e.conclude 10 tag (.ok (e.setMgmtHold true))

/-- RACK_RELEASE (R170). -/
def execRackRelease (tag : Byte) (ops : Option Unit) (s : State) : Host.Outcome State Fault Refusal :=
  advance s fun d => d.request (.rackRelease tag ops) fun e =>
    e.withOps 11 tag ops fun _ => e.conclude 11 tag (.ok (e.setMgmtHold false))

/-- LOAD_FINISH (R70). -/
def execLoadFinish (tag : Byte) (ops : Option Nat) (s : State) : Host.Outcome State Fault Refusal :=
  advance s fun d => d.request (.loadFinish tag ops) fun e =>
    e.withOne 12 tag 4 ops fun b => e.conclude 12 tag (orWrong (e.finishLoad b .loadFinish))

/-- R76: TRIP CLEAR of a TRIPPED bay whose overfill lockout is set: the lockout is cleared and the bay enters CLOSING. -/
def Device.tripClear (d : Device) (b : BayId) : Option Device :=
  if (d.bay b).state = .tripped ∧ (d.bay b).lockout then
    some ((d.onBay b fun r => { r with lockout := false }).closeLoad b)
  else none

/-- TRIP_CLEAR (R76). -/
def execTripClear (tag : Byte) (ops : Option Nat) (s : State) : Host.Outcome State Fault Refusal :=
  advance s fun d => d.request (.tripClear tag ops) fun e =>
    e.withOne 14 tag 4 ops fun b => e.conclude 14 tag (orWrong (e.tripClear b))

/-- R44, R62: INJECTOR CLEAR by the injector's state. -/
def Device.injectorClear (d : Device) (c : Chan) : Option Device :=
  match (d.inj c).state with
  | .disabled => none
  | .available => some (d.onInj c fun i => { i with missed := 0 })
  | .fault => some ((d.onInj c fun i => { i with state := .available, missed := 0 }).injNotice c 3 [])

/-- INJECTOR_CLEAR (R44). -/
def execInjectorClear (tag : Byte) (ops : Option Nat) (s : State) : Host.Outcome State Fault Refusal :=
  advance s fun d => d.request (.injectorClear tag ops) fun e =>
    e.withOne 15 tag 16 ops fun c => e.conclude 15 tag (orWrong (e.injectorClear c))

end Sys2Proof.Machine
end

