-- ==== Sys2Proof/Machine/RackRequests.lean ====
section
/-! DEFINITION. The requests about notes, totalizers, status, the clock, the lines, the ESD latch and RESTART. -/

namespace Sys2Proof.Machine

open Sys2Proof

/-- ESD_CLEAR (R168). -/
def execEsdClear (tag : Byte) (ops : Option Unit) (s : State) : Host.Outcome State Fault Refusal :=
  advance s fun d => d.request (.esdClear tag ops) fun e =>
    e.withOps 13 tag ops fun _ => e.conclude 13 tag (orWrong e.clearEsd)

/-- R136, R175: NOTE READ by number stays in service while a custody write is in progress, with the slot it is to read; a
bay's current note is read from the held image. -/
def Device.noteRead (d : Device) (tag : Byte) (t : NoteTarget) (start : Nat) : Device :=
  match t with
  | .number n =>
    (match d.retainedSlot n with
      | none => d.answer 16 tag .notFound
      | some k =>
        if d.cw.write.isSome then d.onMp fun m => { m with reading := some k }
        else d.replyPair 16 tag (d.readSlot k start))
  | .bay b => d.withIndex 16 tag 4 b fun y => d.replyPair 16 tag (d.readHeld y start)

/-- NOTE_READ (R136 to R138). -/
def execNoteRead (tag : Byte) (ops : Option (NoteTarget × Nat)) (s : State) : Host.Outcome State Fault Refusal :=
  advance s fun d => d.request (.noteRead tag ops) fun e =>
    e.withOps 16 tag ops fun w => e.noteRead tag w.1 w.2

/-- R139: NOTE RELEASE of a number. -/
def Device.noteRelease (d : Device) (n : Nat) : Except Status Device :=
  match d.retainedSlot n with
  | none => .error .notFound
  | some k =>
    match d.slot k with
    | .retained m false =>
      .ok ((d.setSlot k (.retained m true)).onCw fun c => { c with releases := c.releases ++ [k] })
    | .retained _ true | .free | .reserved _ _ | .bad => .ok d

/-- NOTE_RELEASE (R139). -/
def execNoteRelease (tag : Byte) (ops : Option Nat) (s : State) : Host.Outcome State Fault Refusal :=
  advance s fun d => d.request (.noteRelease tag ops) fun e =>
    e.withOps 17 tag ops fun n => e.conclude 17 tag (e.noteRelease n)

/-- TOTALIZER_READ (R121, R175): while one read waits, a second stays in service. -/
def execTotalizerRead (tag : Byte) (ops : Option Nat) (s : State) : Host.Outcome State Fault Refusal :=
  advance s fun d => d.request (.totalizerRead tag ops) fun e =>
    e.withOne 18 tag 12 ops fun a =>
      if e.cw.waiting.isSome then e else e.takeRead tag a

/-- R117, R122: whether a held barrier waits on the arm; one held for want of note numbers waits on none. -/
def HeldBarrier.waitsOn (h : HeldBarrier) (a : ArmId) : Bool :=
  match h.why with
  | .arms l => l.contains a
  | .exhausted => false

/-- R122: TOTALIZER ACK of an arm. -/
def Device.totalizerAck (d : Device) (a : ArmId) : Device :=
  let d1 := d.onArm a fun c => { c with totFault := false }
  let d2 := if (d.arm a).totFault then d1.armNotice a 12 [] else d1
  match d2.cw.held with
  | some h => if h.waitsOn a then d2.onCw fun c => { c with held := none } else d2
  | none => d2

/-- TOTALIZER_ACK (R122). -/
def execTotalizerAck (tag : Byte) (ops : Option Nat) (s : State) : Host.Outcome State Fault Refusal :=
  advance s fun d => d.request (.totalizerAck tag ops) fun e =>
    e.withOne 19 tag 12 ops fun a => e.conclude 19 tag (.ok (e.totalizerAck a))

/-- STATUS_READ (R186). -/
def execStatusRead (tag : Byte) (ops : Option (StatusObj × Nat × Nat)) (s : State) : Host.Outcome State Fault Refusal :=
  advance s fun d => d.request (.statusRead tag ops) fun e =>
    e.withOps 20 tag ops fun w => e.replyPair 20 tag (e.readStatus w.1 w.2.1 w.2.2)

/-- R180: CLOCK SET of a day and a second. -/
def Device.clockSet (d : Device) (day sec : Nat) : Except Status Device :=
  if day ≤ 65535 ∧ sec ≤ 86399 then
    .ok ((d.onMp fun m => { m with clock := some ⟨day, sec⟩, clockMs := 0 }).rackNotice 2
      [timeOctets d.time, timeOctets ⟨day, sec⟩])
  else .error .badField

/-- CLOCK_SET (R180). -/
def execClockSet (tag : Byte) (ops : Option (Nat × Nat)) (s : State) : Host.Outcome State Fault Refusal :=
  advance s fun d => d.request (.clockSet tag ops) fun e =>
    e.withOps 21 tag ops fun w => e.conclude 21 tag (e.clockSet w.1 w.2)

/-- R161: LINE SET of a line: the bound mark, then the record. -/
def Device.setLine (d : Device) (l : LineId) (w : LineWriteRec) : Except Status Device :=
  if (d.line l).bound then .error .wrongState
  else match readLineRec w with
  | none => .error .badField
  | some (m, f, v) => .ok (d.lineSet l m f v)

/-- LINE_SET (R161). -/
def execLineSet (tag : Byte) (ops : Option (Nat × LineWriteRec)) (s : State) : Host.Outcome State Fault Refusal :=
  advance s fun d => d.request (.lineSet tag ops) fun e =>
    e.withOps 22 tag ops fun w => e.withIndex 22 tag 16 w.1 fun l => e.conclude 22 tag (e.setLine l w.2)

/-- R164: LINE DRIVE of a line. -/
def Device.driveLine (d : Device) (l : LineId) (v : Bool) : Except Status Device :=
  if (d.line l).drivable then .ok (d.onLine l fun x => { x with drive := some v }) else .error .wrongState

/-- LINE_DRIVE (R164). -/
def execLineDrive (tag : Byte) (ops : Option (Nat × Bool)) (s : State) : Host.Outcome State Fault Refusal :=
  advance s fun d => d.request (.lineDrive tag ops) fun e =>
    e.withOps 23 tag ops fun w => e.withIndex 23 tag 16 w.1 fun l => e.conclude 23 tag (e.driveLine l w.2)

/-- R181: whether every bay is CLOSED or IDLE. -/
def Device.baysAtRest (d : Device) : Bool :=
  allBays.all fun b => (d.bay b).state == .closed || (d.bay b).state == .idle

/-- R181: an accepted RESTART stays in service; the frames behind it, the answers, the notices and the outbound frame are
discarded, and the part waits for its custody writes and for the outstanding sweep. -/
def Device.beginRestart (d : Device) (c : Instr) (tag : Byte) : Device :=
  (d.setBoot (.draining tag)).onMp fun m =>
    { m with fifo := [c], inService := true, reading := none, answers := [], reserved := false, notices := [], out := none }

/-- RESTART (R181, R124, R143): with nothing left to write and no sweep outstanding, the reset and the scan follow at
once. -/
def execRestart (tag : Byte) (ops : Option Unit) (s : State) : Host.Outcome State Fault Refusal :=
  advance s fun d =>
    (d.request (.restart tag ops) fun e =>
      e.withOps 24 tag ops fun _ =>
        if e.baysAtRest then e.beginRestart (.restart tag ops) tag else e.answer 24 tag .wrongState).drainTest

end Sys2Proof.Machine
end

