-- ==== Sys2Proof/Machine/TableRequests.lean ====
section
/-! DEFINITION. The table requests (Table 10-5): writes, clears and reads, each answered by R178's checks and its table's
rules. -/

namespace Sys2Proof.Machine

open Sys2Proof

/-- TABLE_WRITE_ARM (R1, R2, R23). -/
def execTableWriteArm (tag : Byte) (ops : Option (Nat × ArmWrite)) (s : State) : Host.Outcome State Fault Refusal :=
  advance s fun d => d.request (.tableWriteArm tag ops) fun e =>
    e.withOps 1 tag ops fun w => e.withIndex 1 tag 12 w.1 fun i => e.conclude 1 tag (e.writeArm i w.2)

/-- TABLE_CLEAR_ARM (R1, R2, R23). -/
def execTableClearArm (tag : Byte) (ops : Option Nat) (s : State) : Host.Outcome State Fault Refusal :=
  advance s fun d => d.request (.tableClearArm tag ops) fun e =>
    e.withOne 3 tag 12 ops fun i => e.conclude 3 tag (e.clearArm i)

/-- TABLE_WRITE_PRODUCT (R3, R4). -/
def execTableWriteProduct (tag : Byte) (ops : Option (Nat × ProductWrite)) (s : State) : Host.Outcome State Fault Refusal :=
  advance s fun d => d.request (.tableWriteProduct tag ops) fun e =>
    e.withOps 1 tag ops fun w => e.withIndex 1 tag 16 w.1 fun i => e.conclude 1 tag (e.writeProduct i w.2)

/-- TABLE_CLEAR_PRODUCT (R3, R4). -/
def execTableClearProduct (tag : Byte) (ops : Option Nat) (s : State) : Host.Outcome State Fault Refusal :=
  advance s fun d => d.request (.tableClearProduct tag ops) fun e =>
    e.withOne 3 tag 16 ops fun i => e.conclude 3 tag (e.clearProduct i)

/-- TABLE_WRITE_INJECTOR (R43). -/
def execTableWriteInjector (tag : Byte) (ops : Option (Nat × InjectorWrite)) (s : State) : Host.Outcome State Fault Refusal :=
  advance s fun d => d.request (.tableWriteInjector tag ops) fun e =>
    e.withOps 1 tag ops fun w => e.withIndex 1 tag 16 w.1 fun i => e.conclude 1 tag (e.writeInjector i w.2)

/-- TABLE_CLEAR_INJECTOR (R43). -/
def execTableClearInjector (tag : Byte) (ops : Option Nat) (s : State) : Host.Outcome State Fault Refusal :=
  advance s fun d => d.request (.tableClearInjector tag ops) fun e =>
    e.withOne 3 tag 16 ops fun i => e.conclude 3 tag (e.clearInjector i)

/-- TABLE_WRITE_BAY (R64). -/
def execTableWriteBay (tag : Byte) (ops : Option (Nat × BayWrite)) (s : State) : Host.Outcome State Fault Refusal :=
  advance s fun d => d.request (.tableWriteBay tag ops) fun e =>
    e.withOps 1 tag ops fun w => e.withIndex 1 tag 4 w.1 fun i => e.conclude 1 tag (e.writeBay i w.2)

/-- TABLE_CLEAR_BAY (R64). -/
def execTableClearBay (tag : Byte) (ops : Option Nat) (s : State) : Host.Outcome State Fault Refusal :=
  advance s fun d => d.request (.tableClearBay tag ops) fun e =>
    e.withOne 3 tag 4 ops fun i => e.conclude 3 tag (e.clearBay i)

/-- TABLE_WRITE_PERMIT (R90). -/
def execTableWritePermit (tag : Byte) (ops : Option (Nat × PermitWrite)) (s : State) : Host.Outcome State Fault Refusal :=
  advance s fun d => d.request (.tableWritePermit tag ops) fun e =>
    e.withOps 1 tag ops fun w => e.withIndex 1 tag 1024 w.1 fun i => e.conclude 1 tag (e.writePermit i.val w.2)

/-- TABLE_CLEAR_PERMIT (R90). -/
def execTableClearPermit (tag : Byte) (ops : Option Nat) (s : State) : Host.Outcome State Fault Refusal :=
  advance s fun d => d.request (.tableClearPermit tag ops) fun e =>
    e.withOne 3 tag 1024 ops fun i => e.conclude 3 tag (.ok (e.clearPermit i.val))

/-- TABLE_WRITE_ACCOUNT (R92). -/
def execTableWriteAccount (tag : Byte) (ops : Option (Nat × AccountWrite)) (s : State) : Host.Outcome State Fault Refusal :=
  advance s fun d => d.request (.tableWriteAccount tag ops) fun e =>
    e.withOps 1 tag ops fun w => e.withIndex 1 tag 256 w.1 fun i => e.conclude 1 tag (e.writeAccount i.val w.2)

/-- TABLE_CLEAR_ACCOUNT (R92). -/
def execTableClearAccount (tag : Byte) (ops : Option Nat) (s : State) : Host.Outcome State Fault Refusal :=
  advance s fun d => d.request (.tableClearAccount tag ops) fun e =>
    e.withOne 3 tag 256 ops fun i => e.conclude 3 tag (e.clearAccount i.val)

/-- R146, R178: an address outside 1 to 31 is BAD_INDEX. -/
def Device.withAddress (d : Device) (kind : Nat) (tag : Byte) (i : Nat) (f : Addr → Device) : Device :=
  match fieldAddr (some i) with
  | none => d.answer kind tag .badIndex
  | some n => f n

/-- TABLE_WRITE_STATION (R146, R147). -/
def execTableWriteStation (tag : Byte) (ops : Option (Nat × StationWrite)) (s : State) : Host.Outcome State Fault Refusal :=
  advance s fun d => d.request (.tableWriteStation tag ops) fun e =>
    e.withOps 1 tag ops fun w => e.withAddress 1 tag w.1 fun n => e.conclude 1 tag (e.writeStation n w.2)

/-- TABLE_CLEAR_STATION (R146, R147). -/
def execTableClearStation (tag : Byte) (ops : Option Nat) (s : State) : Host.Outcome State Fault Refusal :=
  advance s fun d => d.request (.tableClearStation tag ops) fun e =>
    e.withOps 3 tag ops fun i => e.withAddress 3 tag i fun n => e.conclude 3 tag (e.clearStation n)

/-- TABLE_WRITE_RACK_SETTINGS (R179). -/
def execTableWriteRackSettings (tag : Byte) (ops : Option (Nat × SettingsWrite)) (s : State) : Host.Outcome State Fault Refusal :=
  advance s fun d => d.request (.tableWriteRackSettings tag ops) fun e =>
    e.withOps 1 tag ops fun w => e.withIndex 1 tag 1 w.1 fun _ => e.conclude 1 tag (e.writeSettings w.2)

/-- TABLE_CLEAR_RACK_SETTINGS (R179). -/
def execTableClearRackSettings (tag : Byte) (ops : Option Nat) (s : State) : Host.Outcome State Fault Refusal :=
  advance s fun d => d.request (.tableClearRackSettings tag ops) fun e =>
    e.withOne 3 tag 1 ops fun _ => e.conclude 3 tag (.ok e.clearSettings)

/-- R176: a TABLE READ answered with a body or a status. -/
def Device.answerRead (d : Device) (tag : Byte) (r : Except Status (List Byte)) : Device :=
  match r with
  | .ok body => d.answerBody 2 tag body
  | .error st => d.answer 2 tag st

/-- TABLE_READ (R178 and the table's rules). -/
def execTableRead (tag : Byte) (ops : Option (Nat × Nat)) (s : State) : Host.Outcome State Fault Refusal :=
  advance s fun d => d.request (.tableRead tag ops) fun e =>
    e.withOps 2 tag ops fun w => e.answerRead tag (e.readTable w.1 w.2)

/-- TABLE_READ_ORDER_QUEUE (R98). -/
def execTableReadOrderQueue (tag : Byte) (ops : Option Nat) (s : State) : Host.Outcome State Fault Refusal :=
  advance s fun d => d.request (.tableReadOrderQueue tag ops) fun e =>
    e.withOps 2 tag ops fun i => e.answerRead tag (e.readTable 6 i)

/-- TABLE_REQUEST_BAD_TABLE (R178 checks 2 and 3): BAD_FIELD when the frame holds no table number, else BAD_TABLE. -/
def execTableRequestBadTable (tag : Byte) (clear : Bool) (table : Option Nat) (s : State) :
    Host.Outcome State Fault Refusal :=
  advance s fun d => d.request (.tableRequestBadTable tag clear table) fun e =>
    e.withOps (if clear then 3 else 1) tag table fun _ => e.answer (if clear then 3 else 1) tag .badTable

/-- REQUEST_UNKNOWN_KIND (R178 check 1). -/
def execRequestUnknownKind (kind tag : Byte) (s : State) : Host.Outcome State Fault Refusal :=
  advance s fun d => d.request (.requestUnknownKind kind tag) fun e => e.answer kind.toNat tag .unknownKind

/-- FRAME_TOO_SHORT (R176): BAD_FIELD with tag 0; a frame without a kind is answered with kind 0. -/
def execFrameTooShort (kind : Option Byte) (s : State) : Host.Outcome State Fault Refusal :=
  advance s fun d => d.request (.frameTooShort kind) fun e => e.answer (kind.getD 0#8).toNat 0#8 .badField

end Sys2Proof.Machine
end

