-- ==== Sys2Proof/Machine/Dispatch.lean ====
section
/-! DEFINITION. One arm per command. -/

namespace Sys2Proof.Machine

open Sys2Proof

def exec (i : Instr) (s : State) : Host.Outcome State Fault Refusal :=
  match i with
  | .hardReset => Sys2Proof.Machine.execHardReset s
  | .powerLoss => Sys2Proof.Machine.execPowerLoss s
  | .sweepLaunch => Sys2Proof.Machine.execSweepLaunch s
  | .sweepReturn frame => Sys2Proof.Machine.execSweepReturn frame s
  | .frameDiscarded frame => Sys2Proof.Machine.execFrameDiscarded frame s
  | .sweepTimeout => Sys2Proof.Machine.execSweepTimeout s
  | .authorizationTimerExpiry bay => Sys2Proof.Machine.execAuthorizationTimerExpiry bay s
  | .resumeTimerExpiry bay => Sys2Proof.Machine.execResumeTimerExpiry bay s
  | .travelTimerExpiry arm => Sys2Proof.Machine.execTravelTimerExpiry arm s
  | .shotTimeout channel token => Sys2Proof.Machine.execShotTimeout channel token s
  | .rackClockSecond => Sys2Proof.Machine.execRackClockSecond s
  | .pinLevelChange line level => Sys2Proof.Machine.execPinLevelChange line level s
  | .debounceTimerExpiry line => Sys2Proof.Machine.execDebounceTimerExpiry line s
  | .custodyWriteComplete good => Sys2Proof.Machine.execCustodyWriteComplete good s
  | .requestUnknownKind kind tag => Sys2Proof.Machine.execRequestUnknownKind kind tag s
  | .tableWriteArm tag ops => Sys2Proof.Machine.execTableWriteArm tag ops s
  | .tableClearArm tag ops => Sys2Proof.Machine.execTableClearArm tag ops s
  | .tableWriteProduct tag ops => Sys2Proof.Machine.execTableWriteProduct tag ops s
  | .tableClearProduct tag ops => Sys2Proof.Machine.execTableClearProduct tag ops s
  | .tableWriteInjector tag ops => Sys2Proof.Machine.execTableWriteInjector tag ops s
  | .tableClearInjector tag ops => Sys2Proof.Machine.execTableClearInjector tag ops s
  | .tableWriteBay tag ops => Sys2Proof.Machine.execTableWriteBay tag ops s
  | .tableClearBay tag ops => Sys2Proof.Machine.execTableClearBay tag ops s
  | .tableWritePermit tag ops => Sys2Proof.Machine.execTableWritePermit tag ops s
  | .tableClearPermit tag ops => Sys2Proof.Machine.execTableClearPermit tag ops s
  | .tableWriteAccount tag ops => Sys2Proof.Machine.execTableWriteAccount tag ops s
  | .tableClearAccount tag ops => Sys2Proof.Machine.execTableClearAccount tag ops s
  | .tableWriteStation tag ops => Sys2Proof.Machine.execTableWriteStation tag ops s
  | .tableClearStation tag ops => Sys2Proof.Machine.execTableClearStation tag ops s
  | .tableWriteRackSettings tag ops => Sys2Proof.Machine.execTableWriteRackSettings tag ops s
  | .tableClearRackSettings tag ops => Sys2Proof.Machine.execTableClearRackSettings tag ops s
  | .tableRead tag ops => Sys2Proof.Machine.execTableRead tag ops s
  | .tableReadOrderQueue tag ops => Sys2Proof.Machine.execTableReadOrderQueue tag ops s
  | .orderAdd tag ops => Sys2Proof.Machine.execOrderAdd tag ops s
  | .orderCancel tag ops => Sys2Proof.Machine.execOrderCancel tag ops s
  | .bayOpen tag ops => Sys2Proof.Machine.execBayOpen tag ops s
  | .bayClose tag ops => Sys2Proof.Machine.execBayClose tag ops s
  | .bayHold tag ops => Sys2Proof.Machine.execBayHold tag ops s
  | .bayRelease tag ops => Sys2Proof.Machine.execBayRelease tag ops s
  | .rackHold tag ops => Sys2Proof.Machine.execRackHold tag ops s
  | .rackRelease tag ops => Sys2Proof.Machine.execRackRelease tag ops s
  | .loadFinish tag ops => Sys2Proof.Machine.execLoadFinish tag ops s
  | .esdClear tag ops => Sys2Proof.Machine.execEsdClear tag ops s
  | .tripClear tag ops => Sys2Proof.Machine.execTripClear tag ops s
  | .injectorClear tag ops => Sys2Proof.Machine.execInjectorClear tag ops s
  | .noteRead tag ops => Sys2Proof.Machine.execNoteRead tag ops s
  | .noteRelease tag ops => Sys2Proof.Machine.execNoteRelease tag ops s
  | .totalizerRead tag ops => Sys2Proof.Machine.execTotalizerRead tag ops s
  | .totalizerAck tag ops => Sys2Proof.Machine.execTotalizerAck tag ops s
  | .statusRead tag ops => Sys2Proof.Machine.execStatusRead tag ops s
  | .clockSet tag ops => Sys2Proof.Machine.execClockSet tag ops s
  | .lineSet tag ops => Sys2Proof.Machine.execLineSet tag ops s
  | .lineDrive tag ops => Sys2Proof.Machine.execLineDrive tag ops s
  | .restart tag ops => Sys2Proof.Machine.execRestart tag ops s
  | .tableRequestBadTable tag clear table => Sys2Proof.Machine.execTableRequestBadTable tag clear table s
  | .frameTooShort kind => Sys2Proof.Machine.execFrameTooShort kind s

end Sys2Proof.Machine
end

