-- ==== Sys2Proof/Machine/Step.lean ====
section
/-! DEFINITION. The step: the command at the front of the queue, or 1 ms of the part's own time when none waits. -/

namespace Sys2Proof.Machine

open Sys2Proof

/-- R175: the request at the head of MP's FIFO, when MP may take it into service. -/
def Device.nextRequest (d : Device) : Option Instr :=
  if d.boot = .ready ∧ d.mp.canServe then d.mp.fifo.head? else none

/-- What the part does when no command waits: 1 ms passes, then MP takes the request at the head of its FIFO into service
if it may (notes/assumptions/3.md). -/
def idle (s : State) : Host.Outcome State Fault Refusal :=
  let s1 : State := { s with dev := s.dev.tick }
  match s1.dev.nextRequest with
  | some c => exec c s1
  | none => .next s1

/-- The command at the front is carried out on the part with the queue's rest. -/
def step (s : State) : Host.Outcome State Fault Refusal :=
  match s.pending with
  | [] => idle s
  | c :: rest => exec c { s with pending := rest }

/-- The state with the command a word spells at the front of its queue; the opcode table gives no row any bits, so no word
spells one. -/
def State.withFetchWord (s : State) (nbits w : Nat) : State :=
  match decodeTableWord nbits w with
  | some c => { s with pending := c :: s.pending }
  | none => s

end Sys2Proof.Machine
end

