-- ==== Sys2Proof/Safety.lean ====
section
/-! DEFINITION. What counts as a safe run, in the terms the statements use: the laws of the device (L1 to L4, L9) as
conditions on a state, the canonical form of the tables, when nothing is left for the blocks to do, what an edge of a line
brings, what STATUS READ lists, what a delivery note holds, and the segments that carry a frame. -/

namespace Sys2Proof.Machine

open Sys2Proof

/-! ### Taking a request -/

/-- R175: MP takes a request that arrives now into service at once: the part runs, no frame waits or is in service, and an
answer place is free. -/
def Device.serves (d : Device) : Bool := d.boot == .ready && d.mp.fifo.isEmpty && d.mp.canServe

/-- The operands of a request that could not be read, by kind octet and tag: every request of Table 10-4 with no operands. -/
def unreadable : Instr → Option (Nat × Byte)
  | .tableWriteArm t none | .tableWriteProduct t none | .tableWriteInjector t none | .tableWriteBay t none
  | .tableWritePermit t none | .tableWriteAccount t none | .tableWriteStation t none
  | .tableWriteRackSettings t none => some (1, t)
  | .tableRead t none | .tableReadOrderQueue t none => some (2, t)
  | .tableClearArm t none | .tableClearProduct t none | .tableClearInjector t none | .tableClearBay t none
  | .tableClearPermit t none | .tableClearAccount t none | .tableClearStation t none
  | .tableClearRackSettings t none => some (3, t)
  | .orderAdd t none => some (4, t)
  | .orderCancel t none => some (5, t)
  | .bayOpen t none => some (6, t)
  | .bayClose t none => some (7, t)
  | .bayHold t none => some (8, t)
  | .bayRelease t none => some (9, t)
  | .rackHold t none => some (10, t)
  | .rackRelease t none => some (11, t)
  | .loadFinish t none => some (12, t)
  | .esdClear t none => some (13, t)
  | .tripClear t none => some (14, t)
  | .injectorClear t none => some (15, t)
  | .noteRead t none => some (16, t)
  | .noteRelease t none => some (17, t)
  | .totalizerRead t none => some (18, t)
  | .totalizerAck t none => some (19, t)
  | .statusRead t none => some (20, t)
  | .clockSet t none => some (21, t)
  | .lineSet t none => some (22, t)
  | .lineDrive t none => some (23, t)
  | .restart t none => some (24, t)
  | _ => none

/-- A request whose object index lies outside its range, by kind octet and tag (R178 check 4). -/
def outOfRange : Instr → Option (Nat × Byte)
  | .tableWriteArm t (some (i, _)) => if i < 12 then none else some (1, t)
  | .tableWriteProduct t (some (i, _)) => if i < 16 then none else some (1, t)
  | .tableWriteInjector t (some (i, _)) => if i < 16 then none else some (1, t)
  | .tableWriteBay t (some (i, _)) => if i < 4 then none else some (1, t)
  | .tableWritePermit t (some (i, _)) => if i < 1024 then none else some (1, t)
  | .tableWriteAccount t (some (i, _)) => if i < 256 then none else some (1, t)
  | .tableWriteStation t (some (i, _)) => if 1 ≤ i ∧ i ≤ 31 then none else some (1, t)
  | .tableWriteRackSettings t (some (i, _)) => if i < 1 then none else some (1, t)
  | .tableClearArm t (some i) => if i < 12 then none else some (3, t)
  | .tableClearProduct t (some i) => if i < 16 then none else some (3, t)
  | .tableClearInjector t (some i) => if i < 16 then none else some (3, t)
  | .tableClearBay t (some i) => if i < 4 then none else some (3, t)
  | .tableClearPermit t (some i) => if i < 1024 then none else some (3, t)
  | .tableClearAccount t (some i) => if i < 256 then none else some (3, t)
  | .tableClearStation t (some i) => if 1 ≤ i ∧ i ≤ 31 then none else some (3, t)
  | .tableClearRackSettings t (some i) => if i < 1 then none else some (3, t)
  | .bayOpen t (some i) => if i < 4 then none else some (6, t)
  | .bayClose t (some i) => if i < 4 then none else some (7, t)
  | .bayHold t (some i) => if i < 4 then none else some (8, t)
  | .bayRelease t (some i) => if i < 4 then none else some (9, t)
  | .loadFinish t (some i) => if i < 4 then none else some (12, t)
  | .tripClear t (some i) => if i < 4 then none else some (14, t)
  | .injectorClear t (some i) => if i < 16 then none else some (15, t)
  | .noteRead t (some (.bay i, _)) => if i < 4 then none else some (16, t)
  | .totalizerRead t (some i) => if i < 12 then none else some (18, t)
  | .totalizerAck t (some i) => if i < 12 then none else some (19, t)
  | .lineSet t (some (i, _)) => if i < 16 then none else some (22, t)
  | .lineDrive t (some (i, _)) => if i < 16 then none else some (23, t)
  | _ => none

/-- The state with the part `d` and one more answer queued. -/
def State.answers (s : State) (d : Device) (kind : Nat) (tag : Byte) (st : Status) (els : List Element) : State :=
  { s with dev := d.reply kind tag st els }

/-! ### Fields of a written record -/

/-- A field that a written record must have, absent or outside its range. -/
def outside (lo hi : Nat) (o : Option Nat) : Prop := ∀ n, o = some n → n < lo ∨ hi < n

/-- A field that a written record may leave out, present and outside its range. -/
def strays (lo hi : Nat) (o : Option Nat) : Prop := ∃ n, o = some n ∧ (n < lo ∨ hi < n)

/-! ### Why a START is refused -/

/-- Table 2-3: when each reason refuses a START at arm `a` of bay `b`; `t` is the batch to resume, and none at the start of
a new batch. -/
def Device.startFails (d : Device) (b : BayId) (a : ArmId) (t : Option Batch) : Display → Prop
  | .esd => d.lu.esd = true ∨ d.lu.powerfail = true
  | .permissive => (d.bay b).ground = false ∨ (d.bay b).overfill = false
  | .armNotReady => ∀ r, d.armRec a = some r → r.inService = false ∨ r.curve.length < 2 ∨ d.productOf r.product = none ∨
      d.usable r.meter .meter = false ∨ d.usable r.valve .valve = false ∨
      (r.temp ≠ 0 ∧ d.usable r.temp .temp = false) ∨ (d.arm a).position ≠ .closed
  | .sealOpen => ∃ r, d.armRec a = some r ∧ (d.station r.meter).isKind .meter = true ∧
      ∃ w, (d.station r.meter).word = some w ∧ w.getLsbD 1 = true
  | .totalizerFault => t = none ∧ (d.arm a).totFault = true
  | .coupler => (d.arm a).coupler ≠ .latched
  | .noLine => t = none ∧ ∀ r o, d.armRec a = some r → d.orderOf b = some o →
      ∀ l ∈ o.lines, l.batch = .notBatched → l.product ≠ r.product
  | .additiveUnavailable =>
    match t with
    | none => ∃ r i p, d.armRec a = some r ∧ d.productOf r.product = some (i, p) ∧
        ∃ x ∈ p.recipe, x.action = .stop ∧ d.servedBy a x.code = none
    | some t => ∃ x ∈ t.dosing, x.dosed = true ∧ x.action = .stop ∧ d.servedBy t.arm x.code = none
  | _ => False

/-- Table 2-3: the reasons in the order in which they are checked. -/
def startReasons : List Display :=
  [.esd, .permissive, .armNotReady, .sealOpen, .totalizerFault, .coupler, .noLine, .additiveUnavailable]

/-- R25: what refuses a START is the first reason of Table 2-3 that holds; none when no reason does. -/
def Device.firstReason (d : Device) (b : BayId) (a : ArmId) (t : Option Batch) : Option Display → Prop
  | none => ∀ c ∈ startReasons, ¬ d.startFails b a t c
  | some c => ∃ l r, startReasons = l ++ c :: r ∧ d.startFails b a t c ∧ ∀ x ∈ l, ¬ d.startFails b a t x

/-! ### The order that a swipe chooses -/

/-- R100: a QUEUED order with this driver credential that the bay does not pass over. -/
def Device.fits (d : Device) (b : BayId) (cred : Nat) (o : Order) : Prop :=
  o.state = .queued ∧ o.credential = cred ∧ d.passedOver b o = false

/-- R100: the order is the oldest that fits this driver credential, the one nearest the head of the queue. -/
def Device.oldest (d : Device) (b : BayId) (cred : Nat) (o : Order) : Prop :=
  d.fits b cred o ∧ ∃ l r, d.orders = l ++ o :: r ∧ ∀ x ∈ l, ¬ d.fits b cred x

/-! ### What the close of a load does, from `d` to `e` -/

/-- R34, R61, R82, R83: the load of bay `b` is closed. Its causes, its state before hold and its latched swipe are gone and
its timers stopped; an INTERRUPTED batch of it is ENDED, SHORT, one in CLOSE_WAIT stays, and a flowing one is in CLOSE_WAIT
with a STOP snapshot. With every batch INTERRUPTED and no shot outstanding the bay is in NOTE_COMMIT, with nothing pending on
its ended batches; otherwise it is CLOSING. -/
def Device.loadCloses (d e : Device) (b : BayId) : Prop :=
  (e.bay b).causes = CauseSet.empty ∧ (e.bay b).before = none ∧ (e.bay b).swipe = none ∧
  (e.bay b).resumeTimer = none ∧ (e.bay b).authTimer = .stopped ∧ (e.bay b).order = (d.bay b).order ∧
  (e.bay b).holdBay = (d.bay b).holdBay ∧ (e.bay b).holdRack = (d.bay b).holdRack ∧
  (∀ a t, a ∈ d.armsOf b → (d.arm a).batch = some t →
    (t.phase = .interrupted → (e.arm a).batch = none ∧
      ∃ x ∈ (e.bay b).ended, x.arm = t.arm ∧ x.line = t.line ∧ x.delivered = t.delivered ∧
        x.closing = some (d.meter a).mirror ∧ x.endStatus = some .short ∧ x.phase = .ended) ∧
    (t.phase = .closeWait → (e.arm a).batch = some t) ∧
    (t.phase.flowing = true → (e.arm a).zeroFlow = 0 ∧ ∃ x, (e.arm a).batch = some x ∧ x.phase = .closeWait ∧
      x.snapshot = some (t.volume, .stop) ∧ x.delivered = t.delivered)) ∧
  (((∀ a t, a ∈ d.armsOf b → (d.arm a).batch = some t → t.phase = .interrupted) ∧ d.outstandingShots b = 0) →
    (e.bay b).state = .noteCommit ∧ ∀ x ∈ (e.bay b).ended, ∀ y ∈ x.dosing, y.pending = 0) ∧
  (¬ ((∀ a t, a ∈ d.armsOf b → (d.arm a).batch = some t → t.phase = .interrupted) ∧ d.outstandingShots b = 0) →
    (e.bay b).state = .closing) ∧
  ∀ y, y ≠ b → (e.bay y).state = (d.bay y).state

/-! ### What STATUS READ lists (R186) and the octets of a read -/

/-- Tables 2-1 to 8-2, section 11.2: the numbers of the enumerations that the elements of a read carry, each from 0 in the
order of its table (notes/assumptions/9.md). -/
def codesFollow : Prop :=
  [TempSource.live, .held, .fallback].map TempSource.code = [0, 1, 2] ∧
  [Phase.start, .full, .taper, .closeWait, .interrupted, .ended].map Phase.code = [0, 1, 2, 3, 4, 5] ∧
  [Stage.closed, .low, .high].map Stage.code = [0, 1, 2] ∧
  [Position.closed, .low, .high, .moving, .fault, .unknown].map Position.code = [0, 1, 2, 3, 4, 5] ∧
  [Coupler.latched, .unlatched, .unknown].map Coupler.code = [0, 1, 2] ∧
  [InjectorState.available, .fault, .disabled].map InjectorState.code = [0, 1, 2] ∧
  [BayState.closed, .idle, .authorized, .loading, .holding, .held, .tripped, .closing, .noteCommit].map BayState.code =
    [0, 1, 2, 3, 4, 5, 6, 7, 8] ∧
  [OrderState.queued, .assigned, .loading].map OrderState.code = [0, 1, 2] ∧
  [LineBatch.notBatched, .opened, .ended].map LineBatch.code = [0, 1, 2] ∧
  [StationState.unconfigured, .silent, .aligning, .active, .slipped, .mismatch].map StationState.code = [0, 1, 2, 3, 4, 5] ∧
  [CwMode.running, .draining, .parked].map CwMode.code = [0, 1, 2]

/-- R185: a volume, a time, an item that may be absent and a list, in octets. -/
def octetsFollow : Prop :=
  (∀ v : Vol, volOctets v = octets 8 v.gross ++ octets 8 v.net) ∧
  (∀ t : Time, timeOctets t = octets 2 t.day ++ octets 3 t.sec) ∧
  optOctets none = [0#8] ∧ (∀ l, optOctets (some l) = 1#8 :: l) ∧
  ∀ l : List (List Byte), listOctets l = octets 1 l.length ++ l.flatten

/-- R98, Tables 5-3 to 5-5: an order as a read of the queue returns it: a presence octet for each field, then the fields that
are present, its lines with batch state and reservation as a list. -/
def Order.octsFollow : Prop :=
  ∀ o : Order, o.octs =
    ([[1#8, 1#8, 1#8, if o.expiry.isSome then 1#8 else 0#8, 1#8, 1#8, if o.assignment.isSome then 1#8 else 0#8],
      octets 4 o.number, octets 1 o.account, octets 4 o.credential,
      match o.expiry with
        | some x => octets 2 x
        | none => [],
      octets 1 o.lines.length,
      (o.lines.map fun l =>
        ([[1#8, 1#8, 1#8, if l.basis.isSome then 1#8 else 0#8, if l.capacity.isSome then 1#8 else 0#8, 1#8,
            if l.reservation.isSome then 1#8 else 0#8],
          octets 1 l.compartment, octets 1 l.product, octets 2 l.preset,
          match l.basis with
            | some .gross => [0#8]
            | some .net => [1#8]
            | none => [],
          match l.capacity with
            | some x => octets 2 x
            | none => [],
          octets 1 l.batch.code,
          match l.reservation with
            | some p => octets 1 p.val
            | none => []] : List (List Byte)).flatten).flatten,
      octets 1 o.state.code,
      match o.assignment with
        | some x => octets 1 x.bay.val ++ octets 4 x.credential ++ octets 4 x.driver
        | none => []] : List (List Byte)).flatten

/-- Tables 2-2 and 3-3: a batch record and a dosing record as STATUS READ sends them, each one element, its fields in the
order of its table (notes/assumptions/11.md, 64.md, 71.md, 72.md). -/
def recordsFollow : Prop :=
  (∀ b : Batch, b.octs =
    [octets 1 b.line, octets 1 b.compartment, octets 1 b.product, octets 2 b.preset,
      [if b.basis = .gross then 0#8 else 1#8], octets 2 b.startVol, octets 2 b.taperVol, octets 1 b.overrun,
      octets 1 b.phase.code, volOctets b.delivered,
      optOctets (b.snapshot.map fun s => octets 8 s.1 ++ [if s.2 = .preset then 0#8 else 1#8]), signedOctets 8 b.tempSum,
      volOctets b.opening, optOctets (b.closing.map volOctets), timeOctets b.startTime,
      optOctets (b.endTime.map timeOctets), octets 2 b.flags.number, octets 4 b.discarded, octets 4 b.mismatches,
      flagOctet b.throttle, optOctets (b.endStatus.map fun s => [if s = .complete then 0#8 else 1#8])].flatten) ∧
  ∀ x : Dosing, x.octs =
    [[if x.dosed then 0#8 else 1#8], octets 1 x.recipe, octets 1 x.code, octets 2 x.dose,
      [if x.action = .stop then 0#8 else 1#8], octets 1 ((x.injector.map Fin.val).getD 255), octets 8 x.acc,
      octets 1 x.pending, flagOctet x.closeMark, octets 1 x.winCount, octets 4 x.winVol, octets 4 x.completed,
      octets 4 x.missed, octets 4 x.cancelled, octets 4 x.delivered, optOctets (x.required.map (octets 4))].flatten

/-- R5, R42, R62, section 6.2: the elements of an arm: the items of Table 1-3, what R42 lists, the written value, the queued
amounts, and the dosing records of the open batch. -/
def Device.armListed (d : Device) (a : ArmId) (l : List (List Byte)) : Prop :=
  ∃ m c, m = d.meter a ∧ c = d.arm a ∧ l =
    [flagOctet m.baselineValid, octets 4 m.grossResidue, octets 4 m.netResidue,
      signedOctets 2 m.heldTemp ++ flagOctet m.heldValid, signedOctets 2 m.currentTemp, octets 1 m.tempSource.code,
      octets 2 m.lastFlow, octets 4 m.lastMf, octets 4 m.lastVcf, volOctets m.mirror, volOctets m.unwritten] ++
    [match c.batch with
      | some b => b.octs
      | none => [],
      octets 1 c.commanded.code, octets 1 (d.effectiveStage a).code, octets 1 c.position.code, octets 1 c.coupler.code,
      flagOctet c.travel.isSome, octets 1 c.zeroFlow,
      octets 2 c.ring.e0 ++ octets 2 c.ring.e1 ++ octets 2 c.ring.e2 ++ octets 2 c.ring.e3,
      octets 2 c.closeAhead,
      volOctets c.unassigned, flagOctet c.totFault] ++
    [volOctets (Bank.read d.cw.written a), volOctets (d.cw.queued a)] ++
    match c.batch with
      | some b => b.dosing.map Dosing.octs
      | none => []

/-- R65, R126: the elements of a bay: the items of Table 4-2, the assigned order's number and the time left on each timer, the
RESERVED slot with its failed mark, the stall and the last note number, and each ended batch with its dosing records. -/
def Device.bayListed (d : Device) (b : BayId) (l : List (List Byte)) : Prop :=
  ∃ r e, r = d.bay b ∧ l =
    [octets 1 r.state.code, flagOctet r.order.isSome, flagOctet r.ground ++ flagOctet r.overfill,
      octets 1 (bitsNat [r.causes.ground, r.causes.overfill, r.causes.esd, r.causes.power, r.causes.valve]),
      octets 1 r.trips, flagOctet r.lockout, octets 1 (bitsNat [r.holdBay, r.holdRack]),
      [match r.before with
        | some .idle => 0#8
        | some .authorized => 1#8
        | some .loading => 2#8
        | none => 255#8],
      optOctets (r.swipe.map (octets 4)),
      [match r.authTimer with
        | .stopped => 0#8
        | .running _ => 1#8
        | .suspended _ => 2#8],
      flagOctet r.resumeTimer.isSome,
      octets 1 (bitsNat [r.seen.ground, r.seen.overfill, r.seen.esd, r.seen.power, r.seen.valve, r.heldDuring,
        r.lockoutDuring]),
      optOctets (r.message.map fun x => octets 1 x.code)] ++
    [octets 4 (r.order.getD 0),
      match r.authTimer with
        | .stopped => [0#8]
        | .running ms | .suspended ms => 1#8 :: octets 4 ms,
      optOctets (r.resumeTimer.map (octets 4))] ++
    [e, optOctets ((d.noteBay b).stall.map (octets 4)), octets 4 (d.noteBay b).last] ++
    (r.ended.map fun t => t.octs :: t.dosing.map Dosing.octs).flatten ∧
    ((∀ k f, d.slot k ≠ .reserved b f) → e = [0#8]) ∧
    ∀ k f, d.slot k = .reserved b f → (∀ j g, j < k → d.slot j ≠ .reserved b g) →
      e = 1#8 :: (octets 1 k.val ++ flagOctet f)

/-- R159: the elements of a station: its entry and the items of Table 8-3; the empty indication alone for an address with no
entry (notes/assumptions/60.md). -/
def Device.stationListed (d : Device) (n : Addr) (l : List (List Byte)) : Prop :=
  ((d.station n).entry = none → l = [[]]) ∧
  ∀ e s, (d.station n).entry = some e → s = d.station n → l =
    [putStation ⟨some e.kind, e.bay.map Fin.val, e.index⟩, octets 1 s.state.code, octets 1 s.align, octets 1 s.miss,
      optOctets (s.kindSeen.map (octets 1)), optOctets (s.word.map fun w => octets 2 w.toNat),
      octets 2 s.round.toNat ++ flagOctet s.spoiled]

/-- R62: the elements of an injector: the items of Table 3-2, one for each shot in flight, with its token, its arm, its recipe
line and the ms left before its timeout. -/
def Device.injectorListed (d : Device) (c : Chan) (l : List (List Byte)) : Prop :=
  ∃ i ms, i = d.inj c ∧ (d.injRec c = none → ms = 0) ∧ (∀ j, d.injRec c = some j → ms = j.timeout * 1000) ∧ l =
    [octets 1 i.state.code] ++
    (i.inFlight.map fun s =>
      octets 1 s.token ++ octets 1 s.ref.arm.val ++ octets 1 s.ref.recipe ++ octets 2 (ms - (d.now - s.issued))) ++
    [optOctets (i.offer.map fun o => octets 1 o.token ++ octets 1 o.ref.arm.val ++ octets 1 o.ref.recipe),
      octets 1 i.nextToken, optOctets (i.lastServed.map fun a => octets 1 a.val), octets 1 i.missed,
      optOctets (i.view.map fun v => flagOctet v.ready ++ flagOctet v.bufferFree)]

/-- R182: the rack clock and MP's items. -/
def Device.mpListed (d : Device) (l : List (List Byte)) : Prop :=
  ∃ m, m = d.mp ∧ l =
    [optOctets (m.clock.map timeOctets), octets 1 m.fifo.length, octets 1 m.answers.length, octets 1 m.notices.length,
      flagOctet m.inService, flagOctet m.reserved,
      [match m.asm with
        | .idle => 0#8
        | .assembling _ _ => 1#8
        | .discarding => 2#8],
      flagOctet m.out.isSome, flagOctet m.ready, octets 2 m.aborts, octets 2 m.discards,
      putSettings ⟨some m.settings.minInterval, some m.settings.sweepTimeout, some m.settings.debounce,
        some m.settings.authTimeout, some m.settings.resumeWindow, some m.settings.valveTravel⟩]

/-- R159: LM's items of the rack: the last index, absent before the first launch (notes/assumptions/49.md), whether a sweep is
outstanding, the counts, and the number of stations in each state of Table 8-2. -/
def Device.lmListed (d : Device) (l : List (List Byte)) : Prop :=
  ∃ m, m = d.lm ∧ l =
    [if m.launched then 1#8 :: octets 1 (m.nextIndex - 1).val else [0#8], flagOctet m.outstanding.isSome,
      octets 1 m.timeouts, flagOctet m.broken, octets 2 m.eventErrors,
      ([StationState.unconfigured, .silent, .aligning, .active, .slipped, .mismatch].map fun x =>
        octets 1 ((List.finRange 32).countP fun n => n ≠ 0 && (d.station n).state == x)).flatten]

/-- Section 6.2: CW's items of the rack: the mode, the posts and barriers queued, the write in progress and what it writes,
the held barrier's bay, the releases, the deferrals and the failures. -/
def Device.cwListed (d : Device) (l : List (List Byte)) : Prop :=
  ∃ c w, c = d.cw ∧ l =
    [octets 1 c.mode.code, octets 1 (c.queue.countP QEntry.isPost) ++ octets 1 (c.queue.countP fun e => !e.isPost), w,
      optOctets (c.held.map fun h => octets 1 h.bay.val), octets 1 c.releases.length, octets 2 c.deferrals,
      octets 2 c.failures] ∧
    (c.write = none → w = [0#8]) ∧
    (∀ n e p, c.write = some ⟨.post e.id, n⟩ → c.entry e.id = some e → e.body = .post p → w = 1#8 :: octets 1 p.arm.val) ∧
    (∀ n part e x, c.write = some ⟨.barrier e.id part, n⟩ → c.entry e.id = some e → e.body = .barrier x →
      w = 2#8 :: octets 1 x.bay.val) ∧
    (∀ n k, c.write = some ⟨.release k, n⟩ → w = 3#8 :: octets 1 k.val) ∧
    ∀ n k, c.write = some ⟨.nextNumber k, n⟩ → w = [4#8]

/-- R126: NU's items of the rack: the slots in each state, the lowest and highest numbers among RETAINED slots (0 and 0 when
there are none), those with release pending, and the bays whose commit is stalled, in stall order. -/
def Device.nuListed (d : Device) (l : List (List Byte)) : Prop :=
  ∃ (free reserved retained bad pending lo hi : Nat) (bs : List BayId), l =
    [octets 1 free ++ octets 1 reserved ++ octets 1 retained ++ octets 1 bad, octets 4 lo, octets 4 hi, octets 1 pending,
      octets 1 bs.length ++ (bs.map fun b => octets 1 b.val).flatten] ∧
    free = (List.finRange 128).countP (fun k => d.slot k == .free) ∧
    reserved = (List.finRange 128).countP (fun k =>
      (List.finRange 4).any fun b => d.slot k == .reserved b true || d.slot k == .reserved b false) ∧
    free + reserved + retained + bad = 128 ∧ bad = (List.finRange 128).countP (fun k => d.slot k == .bad) ∧
    pending = (List.finRange 128).countP (fun k => match d.slot k with
      | .retained _ p => p
      | .free | .reserved _ _ | .bad => false) ∧
    ((∀ k n p, d.slot k ≠ .retained n p) → lo = 0 ∧ hi = 0) ∧
    (∀ k n p, d.slot k = .retained n p → lo ≤ n ∧ n ≤ hi ∧
      (∃ j q, d.slot j = .retained lo q) ∧ ∃ j q, d.slot j = .retained hi q) ∧
    bs.Nodup ∧ (∀ b, b ∈ bs ↔ (d.noteBay b).stall ≠ none) ∧
    bs.Pairwise fun x y => (d.noteBay x).stall.getD 0 ≤ (d.noteBay y).stall.getD 0

/-- R171: LU's items of the rack: the latches, the management hold and the hold source; for each line, L0 to L15, its record in
the form of its write, the five items of Table 9-2 and whether it is active; each bay's permissives; and each PERMIT station's
address, held pair and valid mark (notes/assumptions/54.md, 59.md). -/
def Device.luListed (d : Device) (l : List (List Byte)) : Prop :=
  ∃ (u : Lu) (ns : List Addr), u = d.lu ∧ l =
    [flagOctet u.esd, flagOctet u.esdPending, flagOctet u.powerfail, flagOctet u.mgmtHold, flagOctet u.holdSource] ++
    ((List.finRange 16).map fun k =>
      [putLineRec ⟨some (d.line k).mode, some (d.line k).func.written, some (d.line k).active⟩,
        putEnum levelNames (d.line k).pin, putEnum levelNames (d.line k).level,
        optOctets ((d.line k).timer.map (octets 1)), optOctets ((d.line k).drive.map flagOctet), flagOctet (d.line k).bound,
        flagOctet (((d.line k).mode == .input || (d.line k).mode == .inputDebounced) &&
          (d.line k).level == (d.line k).active)]).flatten ++
    ((List.finRange 4).map fun b => flagOctet (d.bay b).ground ++ flagOctet (d.bay b).overfill) ++
    (ns.map fun n => octets 1 n.val ++ flagOctet (d.pair n).ground ++ flagOctet (d.pair n).overfill ++
      flagOctet (d.pair n).valid) ∧
    ns.Pairwise (· < ·) ∧
    ∀ n, n ∈ ns ↔ n ≠ 0 ∧ ∃ e, (d.station n).entry = some e ∧ e.kind = .permit

/-- R186: the elements of the rack: MP's, LM's, CW's, NU's and LU's, in that order. -/
def Device.rackListed (d : Device) (l : List (List Byte)) : Prop :=
  ∃ a b c e f, l = a ++ b ++ c ++ e ++ f ∧ d.mpListed a ∧ d.lmListed b ∧ d.cwListed c ∧ d.nuListed e ∧ d.luListed f

/-- R186: what STATUS READ lists for each object it can name, and nothing for an index that names none. -/
def Device.statusFollows (d : Device) : Prop :=
  (∀ a : ArmId, ∃ l, statusItems d .arm a.val = some l ∧ d.armListed a l) ∧
  (∀ b : BayId, ∃ l, statusItems d .bay b.val = some l ∧ d.bayListed b l) ∧
  (∀ n : Addr, n ≠ 0 → ∃ l, statusItems d .station n.val = some l ∧ d.stationListed n l) ∧
  (∀ c : Chan, ∃ l, statusItems d .injector c.val = some l ∧ d.injectorListed c l) ∧
  (∃ l, statusItems d .rack 0 = some l ∧ d.rackListed l) ∧
  ∀ i, (12 ≤ i → statusItems d .arm i = none) ∧ (4 ≤ i → statusItems d .bay i = none) ∧
    ((i = 0 ∨ 32 ≤ i) → statusItems d .station i = none) ∧ (16 ≤ i → statusItems d .injector i = none) ∧
    (i ≠ 0 → statusItems d .rack i = none)

/-! ### What a delivery note holds -/

/-- R129, Table 7-3: the header items of the image of bay `b`'s note, with the order `o` that the bay holds. -/
def Device.headerFollows (d : Device) (b : BayId) (o : Order) (i : NoteImage) : Prop :=
  i.order = o.number ∧ i.accountIndex = o.account ∧
  (∀ x, Sparse.get o.account d.accounts = some x → i.accountNumber = x.number) ∧
  (∀ x, o.assignment = some x → i.credential = x.credential ∧ i.driver = x.driver) ∧ i.bay = b ∧ i.endTime = d.time ∧
  (∀ x ∈ (d.bay b).ended, (∃ y ∈ (d.bay b).ended, i.startTime = y.startTime) ∧ (i.startTime.day < x.startTime.day ∨
    (i.startTime.day = x.startTime.day ∧ i.startTime.sec ≤ x.startTime.sec))) ∧
  (∀ n : NotLoaded, n ∈ i.notLoaded ↔
    ∃ l, o.lines[n.line]? = some l ∧ l.batch = .notBatched ∧ n = ⟨n.line, l.compartment, l.product, l.preset⟩) ∧
  i.notLoaded.Nodup ∧ i.notLoaded.Pairwise (fun x y => x.compartment ≤ y.compartment) ∧ i.seen = (d.bay b).seen ∧
  i.heldDuring = (d.bay b).heldDuring ∧ i.lockoutDuring = (d.bay b).lockoutDuring

/-- R131: the subline of a dosing record. -/
def Dosing.sublineFollows (x : Dosing) (s : NoteSub) : Prop :=
  s.dosed = x.dosed ∧ s.recipe = x.recipe ∧ s.code = x.code ∧ s.dose = x.dose ∧ s.injector = x.injector ∧
  (∀ n, x.required = some n → s.required = n) ∧ s.delivered = x.delivered ∧ s.completed = x.completed ∧
  s.missed = x.missed ∧ s.cancelled = x.cancelled

/-- R130, R131, Table 7-4: the line of an ended batch, volumes in decilitres rounded half up, the average temperature half
away from zero and the average VCF half up, with its sublines in recipe-line order. -/
def Device.lineFollows (d : Device) (x : Batch) (l : NoteLine) : Prop :=
  l.compartment = x.compartment ∧ l.line = x.line ∧ l.product = x.product ∧ l.arm = x.arm ∧ l.basis = x.basis ∧
  l.preset = x.preset ∧ l.grossDl = (x.delivered.gross + 50000) / 100000 ∧ l.netDl = (x.delivered.net + 50000) / 100000 ∧
  (x.delivered.gross = 0 → l.avgVcf = 1000000 ∧ ((∀ i p, d.product i = some p → p.code ≠ x.product) → l.avgTemp = 1500) ∧
    ∀ i p, d.productOf x.product = some (i, p) → l.avgTemp = p.fallback) ∧
  (x.delivered.gross ≠ 0 → l.avgVcf = (2 * (x.delivered.net * 1000000) + x.delivered.gross) / (2 * x.delivered.gross) ∧
    l.avgTemp.natAbs = (2 * x.tempSum.natAbs + x.delivered.gross) / (2 * x.delivered.gross) ∧
    (0 ≤ x.tempSum → 0 ≤ l.avgTemp) ∧ (x.tempSum ≤ 0 → l.avgTemp ≤ 0)) ∧
  l.opening = x.opening ∧ (∀ v, x.closing = some v → l.closing = v) ∧ l.startTime = x.startTime ∧
  (∀ t, x.endTime = some t → l.endTime = t) ∧ (∀ s, x.endStatus = some s → l.status = s) ∧ l.flags = x.flags ∧
  l.discarded = x.discarded ∧ l.mismatches = x.mismatches ∧ l.subs.length = x.dosing.length ∧
  ∀ (j : Nat) (y : Dosing), x.dosing[j]? = some y → ∃ s, l.subs[j]? = some s ∧ y.sublineFollows s

/-- R129 to R131: the image of bay `b`'s note: its header items, and a line for each ended batch in the list's order. -/
def Device.imageFollows (d : Device) (b : BayId) (o : Order) (i : NoteImage) : Prop :=
  d.headerFollows b o i ∧ i.lines.length = (d.bay b).ended.length ∧
  ∀ (j : Nat) (x : Batch), (d.bay b).ended[j]? = some x → ∃ l, i.lines[j]? = some l ∧ d.lineFollows x l

/-- R136, Tables 11-7 to 11-9: the elements of a note, number 0 while it has none: the header, the lines, then the sublines
grouped by line. -/
def elementsFollow : Prop :=
  ∀ (i : NoteImage) (n : Nat), i.elements n =
    [[octets 4 n, octets 4 i.order, octets 4 i.accountNumber, octets 1 i.accountIndex, octets 4 i.credential,
      octets 4 i.driver, octets 1 i.bay.val, octets 2 i.startTime.day, octets 3 i.startTime.sec, octets 2 i.endTime.day,
      octets 3 i.endTime.sec, octets 1 i.lines.length, octets 1 i.notLoaded.length,
      octets 1 (bitsNat [i.seen.ground, i.seen.overfill, i.seen.esd, i.seen.power, i.seen.valve, i.heldDuring,
        i.lockoutDuring]),
      (i.notLoaded.map fun x =>
        octets 1 x.line ++ octets 1 x.compartment ++ octets 1 x.product ++ octets 2 x.preset).flatten].flatten] ++
    (i.lines.map fun l =>
      [octets 1 l.compartment, octets 1 l.line, octets 1 l.product, octets 1 l.arm.val,
        [if l.basis = .gross then 0#8 else 1#8], octets 2 l.preset, octets 4 l.grossDl, octets 4 l.netDl,
        signedOctets 2 l.avgTemp, octets 4 l.avgVcf, octets 8 l.opening.gross, octets 8 l.opening.net,
        octets 8 l.closing.gross, octets 8 l.closing.net, octets 2 l.startTime.day, octets 3 l.startTime.sec,
        octets 2 l.endTime.day, octets 3 l.endTime.sec, [if l.status = .complete then 0#8 else 1#8],
        octets 2 (bitsNat [l.flags.countFault, l.flags.pulseMismatch, l.flags.tempDefaulted, l.flags.vcfLimited,
          l.flags.meterGap, l.flags.valveFault, l.flags.overrun, l.flags.additiveSkipped, l.flags.additiveFault,
          l.flags.doseShortfall]),
        octets 4 l.discarded, octets 4 l.mismatches, octets 1 l.subs.length].flatten) ++
    (i.lines.map fun l => l.subs.map fun s =>
      [octets 1 l.compartment, [if s.dosed then 0#8 else 1#8], octets 1 s.recipe, octets 1 s.code, octets 2 s.dose,
        octets 1 ((s.injector.map Fin.val).getD 255), octets 4 s.required, octets 4 s.delivered, octets 4 s.completed,
        octets 4 s.missed, octets 4 s.cancelled].flatten).flatten

/-- R118, R136, R137, R183: what a NOTE READ finds in slot `k`: the body that a good write stored reads back as the elements
it was made of; a note as read has at most 8 lines and 2 sublines a line; and GOOD says that both checks match. -/
def noteReadsBack (k : SlotId) (m : SlotMem) : Prop :=
  (∀ (i : NoteImage) (n : Nat), m.body = (i.elements n).flatten → i.lines.length ≤ 8 → i.notLoaded.length ≤ 7 →
    (∀ l ∈ i.lines, l.subs.length ≤ 2) → noteBodies k m = i.elements n) ∧
  1 ≤ (noteBodies k m).length ∧ (noteBodies k m).length ≤ 25 ∧
  (noteGood k m = true ↔ m.bodyCheck = crc16 (noteBodies k m).flatten ∧ m.check = markCheck m.commit m.release)

/-! ### Nothing left to do after an event -/

/-- R75, R80, R83: no test of the bay holds: VALVE has not cleared, no hold is to be granted, the closing is not complete. -/
def Device.bayRests (d : Device) (b : BayId) : Bool :=
  !((d.bay b).causes.valve && d.armsSeated b) &&
  !((d.bay b).state == .holding && (d.armsOf b).all fun a => (d.arm a).position == .closed) &&
  !((d.bay b).state == .closing && d.noBatch b && d.outstandingShots b == 0)

/-- R163: the line's drive is the one its function gives; an input has none. -/
def Device.lineRests (d : Device) (l : LineId) : Bool :=
  (d.line l).drive ==
    (if isOutput (d.line l).mode then some (d.wantedDrive (d.line l).func ((d.line l).drive.getD false)) else none)

/-- R114, R116 to R118: the head of the queue gives CW nothing to start: there is none, or it is the held barrier. -/
def Device.headWaits (d : Device) : Bool :=
  match d.cw.queue with
  | [] => true
  | e :: _ =>
    match e.body, d.cw.held with
    | .barrier b, some h => !e.started && h.bay == b.bay
    | .barrier _, none => false
    | .post _, _ => false

/-- R114: CW has no work to take: a write is in progress, it may start none, or the list and the queue offer none. -/
def Device.cwRests (d : Device) : Bool :=
  d.cw.write.isSome || !d.cwMayWork || (d.cw.releases.isEmpty && d.headWaits)

/-- R123: CW is not about to park. -/
def Device.parkRests (d : Device) : Bool :=
  !(d.boot == .ready && d.cw.mode == .draining && d.cw.write == none && d.cw.releases.isEmpty && d.cw.queue.isEmpty)

/-- Every block has done what the events so far ask of it (R75, R80, R83, R114, R123, R163). -/
def Device.settled (d : Device) : Bool :=
  (allBays.all fun b => d.bayRests b) && (allSixteen.all fun l => d.lineRests l) && d.cwRests && d.parkRests

/-- A request that arrives now is served at once, and no block has anything else left to do. -/
def State.quiet (s : State) : Bool := s.dev.serves && s.dev.settled

/-! ### Laws as conditions on a state -/

/-- The permit table has slots below 1024 and the account table entries below 256, indexes strictly rising. -/
def Device.tablesWf (d : Device) : Bool := Sparse.wf 1024 d.permits && Sparse.wf 256 d.accounts

/-- L9 (R177): no two entries of the notice queue are for one source object. -/
def Device.noticesDistinct (d : Device) : Prop := (d.mp.notices.map Notice.obj).Nodup

/-- L3, L4 (R15, R16): every arm's net residue is below 10^6, and the VCF it last applied lies in 950 000..1 050 000. -/
def Device.residuesBounded (d : Device) : Prop :=
  ∀ a, (d.meter a).netResidue < 1000000 ∧ 950000 ≤ (d.meter a).lastVcf ∧ (d.meter a).lastVcf ≤ 1050000

/-- The stored totalizers of an arm. -/
def Device.stored (d : Device) (a : ArmId) : Vol := ⟨(Bank.read d.custody.totals a).gross, (Bank.read d.custody.totals a).net⟩

/-- L1 (R19): for every arm, the running totalizer equals the stored one plus the amounts queued plus the unwritten
accumulator, gross and net. -/
def Device.mirrorsAgree (d : Device) : Prop :=
  ∀ a, (d.meter a).mirror = ((d.stored a).add (d.cw.queued a)).add (d.meter a).unwritten

/-- What L1 rests on: each written value is the stored one, and queue entries have identifiers of their own, all given out
before. -/
def Device.queueSound (d : Device) : Prop :=
  (∀ a, Bank.read d.cw.written a = d.stored a) ∧ (d.cw.queue.map QEntry.id).Nodup ∧ ∀ e ∈ d.cw.queue, e.id < d.cw.nextId

/-- L1 with what it rests on, at every moment but while the part has no supply. -/
def Device.custodySound (d : Device) : Prop := d.boot ≠ .off → d.queueSound ∧ d.mirrorsAgree

/-- L2 (R33): an open batch's opening readings plus what it has delivered are the running totalizers, and an ended batch's
are its closing readings. -/
def Device.batchesAgree (d : Device) : Prop :=
  (∀ a x, (d.arm a).batch = some x → (d.meter a).mirror = x.opening.add x.delivered) ∧
  ∀ b, ∀ x ∈ (d.bay b).ended, x.closing = some (x.opening.add x.delivered)

/-- R172 to R175: the FIFO and the frame in assembly share four places; while the part runs, the answers, the place reserved
for the waiting read and the one the request in service will need share four; a NOTE READ that waits for a write is in
service at the head; and while the scan goes on nothing is there yet. -/
def Device.placesHold (d : Device) : Prop :=
  d.mp.fifo.length + (match d.mp.asm with
    | .assembling _ _ => 1
    | .idle | .discarding => 0) ≤ 4 ∧
  (d.boot = .ready →
    d.mp.answers.length + (if d.mp.reserved then 1 else 0) + (if d.mp.inService then 1 else 0) ≤ 4 ∧
    (d.cw.waiting.isSome = true → d.mp.reserved = true) ∧
    (d.mp.reading.isSome = true → d.mp.inService = true ∧ ∃ t w l, d.mp.fifo = .noteRead t (some w) :: l)) ∧
  ∀ t l b, d.boot = .scanning t l b →
    d.mp.answers = [] ∧ d.mp.reserved = false ∧ d.mp.inService = false ∧ d.mp.reading = none ∧ d.cw.waiting = none

/-! ### What an edge of a line brings, from `d` to `e` -/

/-- R65, R73, R75, R166: every bay holds its permissives as their sources stand in `e`; a bay in LOADING or HOLDING that
loses one is TRIPPED with its cause, one gained leaves the cause set, an overfill counts, and a bay whose permissives have
not changed is as it was. -/
def Device.permissivesFollow (d e : Device) : Prop :=
  (∀ b, (e.bay b).ground = e.groundNow b ∧ (e.bay b).overfill = e.overfillNow b) ∧
  (∀ b, (d.bay b).ground = true → (e.bay b).ground = false → (d.bay b).state ∈ [.loading, .holding] →
    (d.bay b).causes.ground = false → (e.bay b).state = .tripped ∧ (e.bay b).causes.ground = true) ∧
  (∀ b, (d.bay b).overfill = true → (e.bay b).overfill = false → (d.bay b).state ∈ [.loading, .holding] →
    (d.bay b).causes.overfill = false →
    (e.bay b).state = .tripped ∧ (e.bay b).causes.overfill = true ∧ (e.bay b).trips = min 2 ((d.bay b).trips + 1)) ∧
  (∀ b, (d.bay b).ground = false → (e.bay b).ground = true → (e.bay b).causes.ground = false) ∧
  (∀ b, (d.bay b).overfill = false → (e.bay b).overfill = true → (e.bay b).causes.overfill = false) ∧
  ∀ b, (e.bay b).ground = (d.bay b).ground → (e.bay b).overfill = (d.bay b).overfill → e.bay b = d.bay b

/-- R78, R79, R81, R170: the rack hold source is as the management hold and the HOLD_IN lines say in `e`. Where it has not
changed no bay has; where it has, it is every bay's, and a bay without a hold of its own follows: IDLE or AUTHORIZED to
HELD, LOADING to HOLDING, or HELD with its arms all CLOSED, and back from HELD with no swipe latched. -/
def Device.holdFollows (d e : Device) : Prop :=
  e.lu.holdSource = e.holdNow ∧ e.lu.mgmtHold = d.lu.mgmtHold ∧ (e.lu.holdSource = d.lu.holdSource → e.bays = d.bays) ∧
  (e.lu.holdSource ≠ d.lu.holdSource →
    ∀ b, (e.bay b).holdRack = e.lu.holdSource ∧ (e.bay b).holdBay = (d.bay b).holdBay) ∧
  (d.lu.holdSource = false → e.lu.holdSource = true → ∀ b, (d.bay b).holdBay = false → (d.bay b).holdRack = false →
    ((d.bay b).state = .idle → (e.bay b).state = .held ∧ (e.bay b).before = some .idle) ∧
    ((d.bay b).state = .authorized → (e.bay b).state = .held ∧ (e.bay b).before = some .authorized) ∧
    ((d.bay b).state = .loading → (e.bay b).before = some .loading ∧ (e.bay b).heldDuring = true ∧
      (e.bay b).state = (if (d.armsOf b).all fun a => (d.arm a).position == .closed then .held else .holding))) ∧
  (d.lu.holdSource = true → e.lu.holdSource = false → ∀ b, (d.bay b).holdBay = false → (d.bay b).holdRack = true →
    (d.bay b).state = .held →
    ((d.bay b).before = some .idle → (d.bay b).swipe = none → (e.bay b).state = .idle) ∧
    ((d.bay b).before = some .authorized → (e.bay b).state = .authorized))

/-- R167: an active ESD edge sets the latch, or the pending mark when it is set; a latch newly set trips every bay in
LOADING or HOLDING. An inactive edge brings nothing. -/
def Device.esdFollows (d e : Device) (active : Bool) : Prop :=
  if active then
    e.lu.esd = true ∧ e.lu.esdPending = (d.lu.esdPending || d.lu.esd) ∧
    (d.lu.esd = true → e.bays = d.bays) ∧
    (d.lu.esd = false → ∀ b, (d.bay b).state ∈ [.loading, .holding] → (d.bay b).causes.esd = false →
      (e.bay b).state = .tripped ∧ (e.bay b).causes.esd = true)
  else e.lu.esd = d.lu.esd ∧ e.lu.esdPending = d.lu.esdPending ∧ e.bays = d.bays

/-- R123, R169: an active power-fail edge sets the latch; newly set, it trips every bay in LOADING or HOLDING, and CW goes
from RUNNING to DRAINING, and on to PARKED when nothing is left to write. An inactive edge clears the latch unless another
POWERFAIL_IN line is active; CW then runs and the cause leaves every bay's set. -/
def Device.powerFollows (d e : Device) (active : Bool) : Prop :=
  if active then
    e.lu.powerfail = true ∧ (d.lu.powerfail = true → e.bays = d.bays ∧ e.cw = d.cw) ∧
    (d.lu.powerfail = false →
      (∀ b, (d.bay b).state ∈ [.loading, .holding] → (d.bay b).causes.power = false →
        (e.bay b).state = .tripped ∧ (e.bay b).causes.power = true) ∧
      (d.cw.mode = .running →
        e.cw.mode = (if d.cw.write = none ∧ d.cw.releases = [] ∧ d.cw.queue = [] then .parked else .draining)) ∧
      (d.cw.mode ≠ .running → e.cw.mode = d.cw.mode) ∧ e.cw.queue = d.cw.queue ∧ e.cw.write = d.cw.write)
  else
    (d.lu.powerfail = true → e.anyActive .powerfailIn = false →
      e.lu.powerfail = false ∧ e.cw.mode = .running ∧ ∀ b, (e.bay b).causes.power = false) ∧
    ((d.lu.powerfail = false ∨ e.anyActive .powerfailIn = true) →
      e.lu.powerfail = d.lu.powerfail ∧ e.bays = d.bays ∧ e.cw = d.cw)

/-- R162: an edge of a line brings what the line's function says; an edge of a line of any other function brings nothing. -/
def Device.edgeFollows (d e : Device) (l : LineId) : Prop :=
  match (d.line l).func with
  | .holdIn => d.holdFollows e
  | .groundIn _ | .overfillIn _ => d.permissivesFollow e
  | .esdIn => d.esdFollows e (e.line l).isActive
  | .powerfailIn => d.powerFollows e (e.line l).isActive
  | .general | .beaconOut _ | .faultOut => e.bays = d.bays ∧ e.cw = d.cw

/-! ### LINE SET (R161, Tables 9-1 and 9-3) -/

/-- Table 9-1: the function that a LINE SET names, its bay one of 0 to 3 where it has one. -/
def funcNamed (g : LineFunc) (f : LineFn) : Prop :=
  match g with
  | .general => f = .general
  | .esdIn => f = .esdIn
  | .powerfailIn => f = .powerfailIn
  | .holdIn => f = .holdIn
  | .groundIn n => ∃ b : BayId, b.val = n ∧ f = .groundIn b
  | .overfillIn n => ∃ b : BayId, b.val = n ∧ f = .overfillIn b
  | .beaconOut n => ∃ b : BayId, b.val = n ∧ f = .beaconOut b
  | .faultOut => f = .faultOut

/-- Table 9-3: the modes that a function accepts. -/
def modeAccepted (f : LineFn) (m : LineMode) : Prop :=
  match f with
  | .general => True
  | .esdIn | .powerfailIn => m = .inputDebounced
  | .holdIn | .groundIn _ | .overfillIn _ => m = .input ∨ m = .inputDebounced
  | .beaconOut _ | .faultOut => m = .outputPush ∨ m = .outputOpen

/-- R161: a LINE SET's record is accepted exactly when it has a mode and a function in range and Table 9-3 has the function
accept the mode; the active level is HIGH when the record has none. -/
def lineRecFollows : Prop :=
  ∀ (w : LineWriteRec) (m : LineMode) (f : LineFn) (v : Level), readLineRec w = some (m, f, v) ↔
    w.mode = some m ∧ (∃ g, w.func = some g ∧ funcNamed g f) ∧ modeAccepted f m ∧
    (w.active = none → v = .high) ∧ (w.active ≠ none → w.active = some v)

/-- R163: the drive of an output of this function in `e`; a GENERAL output starts off. -/
def Device.driveGiven (e : Device) (f : LineFn) : Bool :=
  match f with
  | .beaconOut b => (e.bay b).state == .loading
  | .faultOut => e.lu.esd || (List.finRange 4).any fun b => (e.bay b).state == .tripped
  | .general | .esdIn | .powerfailIn | .holdIn | .groundIn _ | .overfillIn _ => false

/-- R161: what LU evaluates again when a line is bound to `f`, `on` saying whether it is then active. Every bay's permissives
and the rack hold source are as the lines stand in `e`; a bay in LOADING or HOLDING that loses a permissive is TRIPPED, and
what changes alone, the permissives, the hold source or a latch that the binding serves, brings what its rule says. -/
def Device.rebindFollows (d e : Device) (f : LineFn) (on : Bool) : Prop :=
  (∀ b, (e.bay b).ground = e.groundNow b ∧ (e.bay b).overfill = e.overfillNow b) ∧
  e.lu.holdSource = e.holdNow ∧ e.lu.mgmtHold = d.lu.mgmtHold ∧
  (∀ b, (d.bay b).state ∈ [.loading, .holding] →
    ((d.bay b).ground = true → (e.bay b).ground = false → (d.bay b).causes.ground = false →
      (e.bay b).state = .tripped ∧ (e.bay b).causes.ground = true) ∧
    ((d.bay b).overfill = true → (e.bay b).overfill = false → (d.bay b).causes.overfill = false →
      (e.bay b).state = .tripped ∧ (e.bay b).causes.overfill = true)) ∧
  (¬ (f = .esdIn ∧ on = true) → e.lu.esd = d.lu.esd ∧ e.lu.esdPending = d.lu.esdPending) ∧
  (f = .esdIn → on = true → e.lu.esd = true ∧ e.lu.esdPending = (d.lu.esdPending || d.lu.esd)) ∧
  (¬ (f = .powerfailIn ∧ on = true) → e.lu.powerfail = d.lu.powerfail ∧ e.cw.mode = d.cw.mode) ∧
  (f = .powerfailIn → on = true → e.lu.powerfail = true) ∧
  (e.lu.holdSource = d.lu.holdSource → e.lu.esd = d.lu.esd → e.lu.powerfail = d.lu.powerfail → d.permissivesFollow e) ∧
  ((∀ b, (e.bay b).ground = (d.bay b).ground ∧ (e.bay b).overfill = (d.bay b).overfill) →
    (e.lu.esd = d.lu.esd → e.lu.powerfail = d.lu.powerfail → d.holdFollows e) ∧
    (e.lu.holdSource = d.lu.holdSource →
      (f = .esdIn → d.esdFollows e on) ∧ (f = .powerfailIn → on = true → d.powerFollows e true)))

/-! ### What a status word coming into force brings, from `d` to `e` -/

/-- R152, R153, R13, R21, R22, R35, R48, R165: the round ends for the station of address `n`. One without an entry or with a
spoiled assembly keeps its word, and nothing changes. Otherwise the assembled word is in force. With no field of Table 8-4
changed that is all; else a STATION notice carries the fields changed. Station fault newly set is a loss for the station's
user, but not for the arms of a TEMP station; newly clear, the permissives are evaluated again. Seal open newly set at an
arm's METER station marks its open batch METER_GAP, which goes on, and is reported; newly clear, it is reported. -/
def Device.wordFollows (d e : Device) (n : Addr) : Prop :=
  (((d.station n).entry = none ∨ (d.station n).spoiled = true) → e = d) ∧
  ∀ (x : StationEntry) (s : Station) (old : Half) (k : Nat), (d.station n).entry = some x → (d.station n).spoiled = false →
    s = { d.station n with word := some (d.station n).round } → old = (d.station n).word.getD 0#16 →
    k = bitsNat [old.getLsbD 0 != s.round.getLsbD 0, old.getLsbD 1 != s.round.getLsbD 1,
      old.getLsbD 2 != s.round.getLsbD 2, old.getLsbD 3 != s.round.getLsbD 3] →
    e.station n = s ∧ (∀ m, m ≠ n → e.station m = d.station m) ∧
    (k = 0 → e = d.onStation n fun _ => s) ∧
    (k ≠ 0 → ∃ y ∈ e.mp.notices, y.obj = .station n ∧ y.event = 5 ∧ y.fields =
      [octets 1 n.val, octets 1 (kindCode x.kind), octets 1 s.state.code, octets 2 s.round.toNat,
        (if s.state = .mismatch then (s.kindSeen.map (octets 1)).getD [] else []), octets 1 k]) ∧
    (old.getLsbD 0 = false → s.round.getLsbD 0 = true →
      (∀ a, x.kind = .meter → d.armOfMeter n = some a → (e.meter a).baselineValid = false ∧
        ∀ t, (d.arm a).batch = some t → t.phase ≠ .ended → (∀ b, d.bayOfArm a = some b → (d.bay b).state ≠ .closing) →
          (e.arm a).batch = some { t with phase := .interrupted, flags := { t.flags with meterGap := true } }) ∧
      (∀ a, x.kind = .valve → d.armOfValve n = some a → (e.arm a).position = .unknown ∧ (e.arm a).coupler = .unknown) ∧
      (∀ c, x.kind = .injector → d.chanOf n = some c →
        e.inj c = { d.inj c with view := none, offer := none } ∧ ∀ y, y ≠ c → e.inj y = d.inj y) ∧
      (x.kind = .permit → e.pair n = { d.pair n with valid := false } ∧
        ∀ b, (e.bay b).ground = e.groundNow b ∧ (e.bay b).overfill = e.overfillNow b) ∧
      (x.kind ∈ [.temp, .panel] → e.arms = d.arms ∧ e.meters = d.meters ∧ e.bays = d.bays ∧ e.injs = d.injs)) ∧
    (¬ (old.getLsbD 0 = false ∧ s.round.getLsbD 0 = true) → e.meters = d.meters ∧ e.injs = d.injs ∧ e.lu.pairs = d.lu.pairs) ∧
    (old.getLsbD 0 = true → s.round.getLsbD 0 = false →
      ∀ b, (e.bay b).ground = e.groundNow b ∧ (e.bay b).overfill = e.overfillNow b) ∧
    (∀ a, x.kind = .meter → d.armOfMeter n = some a → old.getLsbD 1 ≠ s.round.getLsbD 1 →
      ∃ y ∈ e.mp.notices, y.obj = .arm a ∧ y.event = (if s.round.getLsbD 1 then 9 else 10) ∧ y.fields = [octets 1 a.val]) ∧
    (old.getLsbD 0 = s.round.getLsbD 0 → e.bays = d.bays ∧ e.orders = d.orders ∧ ∀ a, e.arm a =
      (if x.kind = .meter ∧ d.armOfMeter n = some a ∧ old.getLsbD 1 = false ∧ s.round.getLsbD 1 = true then
        { d.arm a with batch := (d.arm a).batch.map fun t => { t with flags := { t.flags with meterGap := true } } }
      else d.arm a)) ∧
    e.custody = d.custody ∧ e.cw = d.cw ∧ e.armRecs = d.armRecs ∧ e.lu.lines = d.lu.lines

/-! ### Frames as segments (R172 to R174) -/

/-- R173: the segments that carry a frame: 14 octets in each, the last with what is left. -/
def frameSegments (f : List Byte) : List (SegKind × List Byte) :=
  (List.range ((f.length + 13) / 14)).map fun i =>
    ((SegKind.ofCode (segmentKind f.length (14 * i))).getD .none, (f.drop (14 * i)).take 14)

/-- R174: MP after `n` sweeps that each returned with a good inbound segment of kind NONE, the gateway ready, and the
payloads its outbound segments carried. -/
def Mp.sent : Nat → Mp → Mp × List Byte
  | 0, m => (m, [])
  | n + 1, m =>
    let o := m.outbound
    let r := Mp.sent n o.1.delivered
    (r.1, (o.2.drop 1).take ((octetAt o.2 0).toNat % 16) ++ r.2)

end Sys2Proof.Machine
end

