-- ==== Sys2Proof/WellFormed.lean ====
section
/-! DEFINITION. Well-formed commands: every operand fits the octets that carry it (R185, chapter 11). Ranges that a rule
answers with BAD_FIELD or BAD_INDEX are no part of it: such a request is well formed and is refused by its rule. -/

namespace Sys2Proof

/-- A number fits `k` octets. -/
def fits (k n : Nat) : Bool := decide (n < 256 ^ k)

/-- A signed number fits `k` octets, two's complement. -/
def fitsInt (k : Nat) (i : Int) : Bool :=
  decide (-((256 ^ k / 2 : Nat) : Int) ≤ i) && decide (i < ((256 ^ k / 2 : Nat) : Int))

/-- A field that may be absent. -/
def optWf {α : Type} (p : α → Bool) : Option α → Bool
  | none => true
  | some x => p x

/-- A list within its limit, each item well formed. -/
def listWf {α : Type} (limit : Nat) (p : α → Bool) (l : List α) : Bool := decide (l.length ≤ limit) && l.all p

/-- A curve point. -/
def CurvePoint.wf (p : CurvePoint) : Bool := fits 2 p.q && fits 4 p.mf
/-- An additive map entry. -/
def MapEntry.wf (e : MapEntry) : Bool := fits 1 e.code && fits 1 e.channel
/-- A recipe line. -/
def RecipeLine.wf (r : RecipeLine) : Bool := fits 1 r.code && fits 2 r.dose
/-- A permissive source. -/
def Source.wf : Source → Bool
  | .station n => fits 1 n
  | .line n => fits 1 n
/-- A line function. -/
def LineFunc.wf : LineFunc → Bool
  | .general | .esdIn | .powerfailIn | .holdIn | .faultOut => true
  | .groundIn b => fits 1 b
  | .overfillIn b => fits 1 b
  | .beaconOut b => fits 1 b
/-- What a NOTE READ names. -/
def NoteTarget.wf : NoteTarget → Bool
  | .number n => fits 4 n
  | .bay b => fits 1 b

/-- Table 1-1. -/
def ArmWrite.wf (r : ArmWrite) : Bool :=
  optWf (fits 1) r.bay && optWf (fits 1) r.product && optWf (fits 1) r.meter && optWf (fits 1) r.temp &&
  optWf (fits 1) r.valve && optWf (fits 4) r.kFactor && optWf (listWf 6 CurvePoint.wf) r.curve && optWf (fits 2) r.qMax &&
  optWf (fits 2) r.closeAhead && optWf (listWf 2 MapEntry.wf) r.additiveMap

/-- Table 1-2. -/
def ProductWrite.wf (r : ProductWrite) : Bool :=
  optWf (fits 1) r.code && optWf (fits 2) r.alpha && optWf (fitsInt 2) r.fallback && optWf (fits 2) r.startVol &&
  optWf (fits 2) r.taperVol && optWf (fits 1) r.overrun && optWf (listWf 2 RecipeLine.wf) r.recipe

/-- Table 3-1. -/
def InjectorWrite.wf (r : InjectorWrite) : Bool :=
  optWf (fits 1) r.station && optWf (fits 1) r.code && optWf (fits 2) r.shot && optWf (fits 4) r.kFactor &&
  optWf (fits 1) r.tolerance && optWf (fits 1) r.window && optWf (fits 1) r.timeout

/-- Table 4-1. -/
def BayWrite.wf (r : BayWrite) : Bool := optWf (fits 1) r.panel && optWf Source.wf r.ground && optWf Source.wf r.overfill

/-- Table 5-1. -/
def PermitWrite.wf (r : PermitWrite) : Bool :=
  optWf (fits 4) r.credential && optWf (fits 4) r.driver && optWf (fits 2) r.expiry

/-- Table 5-2: the remaining allocations are sixteen. -/
def AccountWrite.wf (r : AccountWrite) : Bool :=
  optWf (fits 4) r.number && optWf (fun l => decide (l.length = 16) && l.all (fitsInt 4)) r.remaining &&
  optWf (fun l => decide (l.length = 16) && l.all (fits 4)) r.reserved

/-- Table 8-1. -/
def StationWrite.wf (r : StationWrite) : Bool := optWf (fits 1) r.bay && optWf (fits 1) r.index

/-- Table 10-6. -/
def SettingsWrite.wf (r : SettingsWrite) : Bool :=
  optWf (fits 1) r.minInterval && optWf (fits 1) r.sweepTimeout && optWf (fits 1) r.debounce &&
  optWf (fits 2) r.authTimeout && optWf (fits 2) r.resumeWindow && optWf (fits 1) r.valveTravel

/-- Table 5-5. -/
def LineWrite.wf (r : LineWrite) : Bool :=
  optWf (fits 1) r.compartment && optWf (fits 1) r.product && optWf (fits 2) r.preset && optWf (fits 2) r.capacity

/-- Table 5-3. -/
def OrderWrite.wf (r : OrderWrite) : Bool :=
  optWf (fits 4) r.number && optWf (fits 1) r.account && optWf (fits 4) r.credential && optWf (fits 2) r.expiry &&
  optWf (listWf 8 LineWrite.wf) r.lines

/-- Table 9-1. -/
def LineWriteRec.wf (r : LineWriteRec) : Bool := optWf LineFunc.wf r.func

/-- Index and record of a table write. -/
def pairWf {α : Type} (k : Nat) (p : α → Bool) (ops : Option (Nat × α)) : Bool := optWf (fun w => fits k w.1 && p w.2) ops

/-- The longest sweep: 292 octets (chapter 11). -/
def maxSweep : Nat := 292

/-- A command's operands fit the octets that carry them, and its kind and table numbers are ones its row is for. -/
def Instr.wf : Instr → Bool
  | .hardReset | .powerLoss | .sweepLaunch | .sweepTimeout | .rackClockSecond => true
  | .sweepReturn f => decide (f.length ≤ maxSweep)
  | .frameDiscarded f => decide (f.length ≤ maxSweep)
  | .authorizationTimerExpiry _ | .resumeTimerExpiry _ | .travelTimerExpiry _ | .debounceTimerExpiry _ => true
  | .shotTimeout _ t => decide (1 ≤ t) && decide (t ≤ 255)
  | .pinLevelChange _ _ | .custodyWriteComplete _ => true
  | .requestUnknownKind k _ => k == 0#8 || decide (24 < k.toNat)
  | .tableWriteArm _ o => pairWf 1 ArmWrite.wf o
  | .tableWriteProduct _ o => pairWf 1 ProductWrite.wf o
  | .tableWriteInjector _ o => pairWf 1 InjectorWrite.wf o
  | .tableWriteBay _ o => pairWf 1 BayWrite.wf o
  | .tableWritePermit _ o => pairWf 2 PermitWrite.wf o
  | .tableWriteAccount _ o => pairWf 1 AccountWrite.wf o
  | .tableWriteStation _ o => pairWf 1 StationWrite.wf o
  | .tableWriteRackSettings _ o => pairWf 1 SettingsWrite.wf o
  | .tableClearArm _ o | .tableClearProduct _ o | .tableClearInjector _ o | .tableClearBay _ o => optWf (fits 1) o
  | .tableClearPermit _ o => optWf (fits 2) o
  | .tableClearAccount _ o | .tableClearStation _ o | .tableClearRackSettings _ o => optWf (fits 1) o
  | .tableRead _ o => optWf (fun w => fits 1 w.1 && w.1 != 6 && fits (if w.1 = 4 then 2 else 1) w.2) o
  | .tableReadOrderQueue _ o => optWf (fits 1) o
  | .orderAdd _ o => optWf OrderWrite.wf o
  | .orderCancel _ o => optWf (fits 4) o
  | .bayOpen _ o | .bayClose _ o | .bayHold _ o | .bayRelease _ o => optWf (fits 1) o
  | .rackHold _ _ | .rackRelease _ _ | .esdClear _ _ | .restart _ _ => true
  | .loadFinish _ o | .tripClear _ o | .injectorClear _ o | .totalizerRead _ o | .totalizerAck _ o => optWf (fits 1) o
  | .noteRead _ o => optWf (fun w => w.1.wf && fits 1 w.2) o
  | .noteRelease _ o => optWf (fits 4) o
  | .statusRead _ o => optWf (fun w => fits 1 w.2.1 && fits 1 w.2.2) o
  | .clockSet _ o => optWf (fun w => fits 2 w.1 && fits 3 w.2) o
  | .lineSet _ o => optWf (fun w => fits 1 w.1 && w.2.wf) o
  | .lineDrive _ o => optWf (fun w => fits 1 w.1) o
  | .tableRequestBadTable _ _ o => optWf (fun n => fits 1 n && (n == 6 || decide (8 < n))) o
  | .frameTooShort _ => true

end Sys2Proof
end

