-- ==== Sys2Proof/Certificates/Slice0/Obligations.lean ====
section
/-! DEFINITION. The statements about the B412: what its commands do, from the rules R1 to R186, and what every step keeps. -/

open Sys2Proof Sys2Proof.Machine

/-! ### The machine as a whole -/

/-- The step takes the command at the front of the queue and carries it out with the queue's rest; every command gives a
next state, and it leaves the queue of waiting commands as it is. -/
def Obligations.StepRunsTheFrontCommand : Prop :=
  (∀ (s : State) (c : Instr) (rest : List Instr), s.pending = c :: rest → step s = exec c { s with pending := rest }) ∧
  ∀ (c : Instr) (s : State), ∃ d : Device, exec c s = .next { s with dev := d }

/-- The model's choice (notes/assumptions/3.md): with no command waiting, 1 ms passes on every timer and interval, on the
sweep timeout and on the fraction of the clock's second, and nothing else changes: every arm, bay and line is as it was but
for its timers, and so is every other item of the part. Then the request at the head of the FIFO is carried out if MP may
serve it. Without supply nothing passes. -/
def Obligations.IdleStepPassesOneMillisecond : Prop :=
  ∀ s : State, s.pending = [] →
    (∀ c, s.dev.tick.nextRequest = some c → step s = exec c { s with dev := s.dev.tick }) ∧
    (s.dev.tick.nextRequest = none → step s = .next { s with dev := s.dev.tick }) ∧
    (s.dev.boot = .off → s.dev.tick = s.dev) ∧
    (s.dev.boot ≠ .off →
      s.dev.tick.now = s.dev.now + 1 ∧
      (∀ a, s.dev.tick.arm a = { s.dev.arm a with travel := (s.dev.arm a).travel.map (· - 1) }) ∧
      (∀ b, s.dev.tick.bay b = { s.dev.bay b with
        resumeTimer := (s.dev.bay b).resumeTimer.map (· - 1)
        authTimer := (match (s.dev.bay b).authTimer with
          | .running n => .running (n - 1)
          | .suspended n => .suspended n
          | .stopped => .stopped) }) ∧
      (∀ l, s.dev.tick.line l = { s.dev.line l with timer := (s.dev.line l).timer.map (· - 1) }) ∧
      s.dev.tick.lu = { s.dev.lu with lines := s.dev.tick.lu.lines } ∧
      s.dev.tick.lm = { s.dev.lm with
        interval := s.dev.lm.interval - 1
        outstanding := s.dev.lm.outstanding.map fun w => { w with timeout := w.timeout - 1 } } ∧
      s.dev.tick.mp = { s.dev.mp with
        clockMs := if s.dev.mp.clock.isSome then min 1000 (s.dev.mp.clockMs + 1) else s.dev.mp.clockMs } ∧
      s.dev.tick.cw = s.dev.cw ∧ s.dev.tick.nu = s.dev.nu ∧ s.dev.tick.custody = s.dev.custody ∧
      s.dev.tick.meters = s.dev.meters ∧ s.dev.tick.injs = s.dev.injs ∧ s.dev.tick.orders = s.dev.orders ∧
      s.dev.tick.permits = s.dev.permits ∧ s.dev.tick.accounts = s.dev.accounts ∧
      s.dev.tick.armRecs = s.dev.armRecs ∧ s.dev.tick.products = s.dev.products ∧ s.dev.tick.injRecs = s.dev.injRecs ∧
      s.dev.tick.bayRecs = s.dev.bayRecs ∧ s.dev.tick.boot = s.dev.boot ∧ s.dev.tick.cuts = s.dev.cuts)

/-- The values State.reset holds: what the manual gives for hard reset in Tables 1-3, 2-1, 3-2, 4-2, 6-1, 6-2, 7-2, 8-3,
9-1, 9-2, 10-6 and in R160, R171 and R182. -/
def Obligations.ResetHoldsTheResetValues : Prop :=
  ∀ d : Device, d = State.reset.dev → State.reset.pending = [] ∧ d.boot = .ready ∧
  (∀ a, d.armRec a = none ∧ d.meter a = Meter.reset ∧ (d.meter a).baselineValid = false ∧ (d.meter a).lastVcf = 1000000 ∧
    (d.arm a).batch = none ∧ (d.arm a).position = .unknown ∧ (d.arm a).coupler = .unknown ∧ (d.arm a).travel = none ∧
    (d.arm a).closeAhead = 0 ∧ (d.arm a).totFault = false ∧ d.stored a = ⟨0, 0⟩) ∧
  (∀ i, d.product i = none) ∧
  (∀ c, d.injRec c = none ∧ (d.inj c).state = .disabled ∧ (d.inj c).nextToken = 1 ∧ (d.inj c).offer = none ∧
    (d.inj c).inFlight = []) ∧
  (∀ b, d.bayRec b = none ∧ (d.bay b).state = .closed ∧ (d.bay b).order = none ∧ (d.bay b).causes = CauseSet.empty ∧
    (d.bay b).lockout = false ∧ (d.bay b).authTimer = .stopped ∧ (d.bay b).resumeTimer = none ∧ d.noteBay b = ⟨none, none, 0⟩) ∧
  d.permits = [] ∧ d.accounts = [] ∧ d.orders = [] ∧
  d.cw.mode = .running ∧ d.cw.queue = [] ∧ d.cw.write = none ∧ d.cw.releases = [] ∧ d.cw.held = none ∧
  (∀ k, d.slot k = .free) ∧ d.custody.next.value = 1 ∧
  (∀ n, (d.station n).entry = none ∧ (d.station n).state = .unconfigured ∧ (d.station n).word = none) ∧
  d.lm.outstanding = none ∧ d.lm.nextIndex = 0 ∧ d.lm.clearFlag = true ∧ d.lm.timeouts = 0 ∧ d.lm.broken = false ∧
  (∀ l, (d.line l).mode = .input ∧ (d.line l).func = .general ∧ (d.line l).active = .high ∧
    (d.line l).level = (d.line l).pin ∧ (d.line l).timer = none ∧ (d.line l).drive = none ∧ (d.line l).bound = false) ∧
  d.lu.esd = false ∧ d.lu.esdPending = false ∧ d.lu.powerfail = false ∧ d.lu.mgmtHold = false ∧ d.lu.holdSource = false ∧
  d.mp.clock = none ∧ d.mp.fifo = [] ∧ d.mp.answers = [] ∧ d.mp.asm = .idle ∧ d.mp.out = none ∧
  d.mp.settings = ⟨10, 40, 20, 300, 120, 8⟩ ∧ d.mp.notices = [resetNotice]

/-- State.reset meets every invariant stated below. -/
def Obligations.ResetMeetsTheInvariants : Prop :=
  State.reset.dev.settled = true ∧ State.reset.dev.tablesWf = true ∧ State.reset.dev.noticesDistinct ∧
  State.reset.dev.residuesBounded ∧ State.reset.dev.custodySound ∧ State.reset.dev.batchesAgree ∧ State.reset.dev.placesHold

/-! ### Invariants that every step keeps -/

/-- After every step no block has anything left to do (R75, R80, R83, R114, R123, R163). -/
def Obligations.StepLeavesNothingUndone : Prop :=
  ∀ s t : State, s.dev.settled = true → step s = .next t → t.dev.settled = true

/-- The permit and account tables keep their canonical form: indexes in range, each listed once, in ascending order. -/
def Obligations.StepKeepsTheTablesCanonical : Prop :=
  ∀ s t : State, s.dev.tablesWf = true → step s = .next t → t.dev.tablesWf = true

/-- L9: no two entries of the notice queue are for one object. -/
def Obligations.StepKeepsOneNoticePerObject : Prop :=
  ∀ s t : State, s.dev.noticesDistinct → step s = .next t → t.dev.noticesDistinct

/-- L1: the running totalizer of every arm equals the stored one plus the amounts queued plus the unwritten accumulator. -/
def Obligations.StepKeepsTheTotalizersReconciled : Prop :=
  ∀ s t : State, s.dev.custodySound → step s = .next t → t.dev.custodySound

/-- L2: what a batch has delivered is the running totalizer less its opening readings. -/
def Obligations.StepKeepsBatchesAndTotalizersInStep : Prop :=
  ∀ s t : State, s.dev.batchesAgree → step s = .next t → t.dev.batchesAgree

/-- L3, L4: the net residue stays below 1 000 000 and the VCF last applied within 950 000 to 1 050 000. -/
def Obligations.StepKeepsResiduesAndFactorsInRange : Prop :=
  ∀ s t : State, s.dev.residuesBounded → step s = .next t → t.dev.residuesBounded

/-- R172 to R175, Table 10-6's four places each: every step keeps the FIFO with the frame in assembly within four frames,
and the answers with the places spoken for within four; what waits in service stands at the FIFO's head. -/
def Obligations.StepKeepsPlacesForFrames : Prop :=
  ∀ s t : State, s.dev.placesHold → step s = .next t → t.dev.placesHold

/-! ### Resets and power -/

/-- R124, R125: a hard reset leaves the part with every volatile item at its reset value and what the scan loads from
custody memory, which holds the content before the write it cut off or the content written; the part then runs, or goes on
scanning while it writes the next note number back. R111: a loss of supply leaves custody memory alone, but for the write it
cuts off, and loses all volatile state. The model's choice (notes/assumptions/5.md): until HARD_RESET nothing but a change
of a pin has an effect. -/
def Obligations.HardResetAndPowerLossKeepCustodyMemory : Prop :=
  (∀ s : State, ∃ t : State, exec .hardReset s = .next t ∧ t.pending = s.pending ∧
    (t.dev.custody = s.dev.custody ∨ ∃ w, s.dev.cw.write = some w ∧ t.dev.custody = s.dev.landed w.job) ∧
    (∃ n, t.dev = (Device.cleared .ready n t.dev.custody s.dev.pins).scan none) ∧
    (∀ a, t.dev.armRec a = none ∧ t.dev.meter a = { Meter.reset with mirror := t.dev.stored a } ∧
      t.dev.arm a = { ArmCtl.reset with totFault := (Bank.read t.dev.custody.totals a).isBad }) ∧
    (∀ i, t.dev.product i = none) ∧ (∀ c, t.dev.injRec c = none ∧ t.dev.inj c = Injector.reset) ∧
    (∀ b, t.dev.bayRec b = none ∧ t.dev.bay b = Bay.reset ∧ t.dev.noteBay b = ⟨none, none, 0⟩) ∧
    t.dev.permits = [] ∧ t.dev.accounts = [] ∧ t.dev.orders = [] ∧
    (∀ k, t.dev.slot k = (Bank.read t.dev.custody.slots k).scanned) ∧
    t.dev.cw = { Cw.reset with written := t.dev.cw.written, write := t.dev.cw.write } ∧
    (∀ a, Bank.read t.dev.cw.written a = t.dev.stored a) ∧
    t.dev.lm = Lm.reset ∧ t.dev.lu = Lu.reset s.dev.pins ∧
    t.dev.mp = { Mp.reset with notices := t.dev.mp.notices } ∧
    (if takenNumber t.dev.custody = t.dev.custody.next.value then
      t.dev.boot = .ready ∧ t.dev.cw.write = none
    else
      t.dev.boot = .scanning none (badArmsOf t.dev.custody) (nextBadOf t.dev.custody) ∧
      t.dev.cw.write = some ⟨.nextNumber (takenNumber t.dev.custody), 1⟩)) ∧
  (∀ s : State, ∃ (n : Nat) (m : Custody),
    exec .powerLoss s = .next { s with dev := Device.cleared .off n m s.dev.pins } ∧
    (m = s.dev.custody ∨ ∃ w, s.dev.cw.write = some w ∧ m = s.dev.landed w.job)) ∧
  ∀ (s : State) (n : Nat) (m : Custody) (p : Vector Level 16), s.dev = Device.cleared .off n m p →
    (∀ c : Instr, c ≠ .hardReset → (∀ l v, c ≠ .pinLevelChange l v) → exec c s = .next s) ∧
    ∀ l v, exec (.pinLevelChange l v) s = .next { s with dev := s.dev.onLine l fun x => { x with pin := v } }

/-! ### Requests refused -/

/-- R176, R178: a frame that is too short, of an unknown kind, or that names no table of its request, a request whose
operands cannot be read, and one whose object index is out of range are answered with the status of the first check that
fails; and nothing else changes. A frame that names no table its request takes fails check 2 without an index, and check 3
with one (notes/assumptions/28.md). -/
def Obligations.RefusedFramesChangeNothing : Prop :=
  ∀ (s : State) (t k : Byte) (clear : Bool) (n : Nat), s.quiet = true →
    exec (.requestUnknownKind k t) s = .next (s.answers s.dev k.toNat t .unknownKind []) ∧
    exec (.tableRequestBadTable t clear none) s = .next (s.answers s.dev (if clear then 3 else 1) t .badField []) ∧
    exec (.tableRequestBadTable t clear (some n)) s = .next (s.answers s.dev (if clear then 3 else 1) t .badTable []) ∧
    exec (.frameTooShort none) s = .next (s.answers s.dev 0 0#8 .badField []) ∧
    exec (.frameTooShort (some k)) s = .next (s.answers s.dev k.toNat 0#8 .badField []) ∧
    (∀ (c : Instr) (j : Nat) (u : Byte), unreadable c = some (j, u) →
      exec c s = .next (s.answers s.dev j u .badField [])) ∧
    ∀ (c : Instr) (j : Nat) (u : Byte), outOfRange c = some (j, u) → exec c s = .next (s.answers s.dev j u .badIndex [])

/-! ### The tables -/

/-- R90, R178: TABLE WRITE of a permit slot: a field absent or outside its range is BAD_FIELD, a bay set octet past bays
0..3 among them (notes/assumptions/68.md); else the record is in its slot, unless another slot holds the credential, which
is DUPLICATE; TABLE CLEAR empties the slot. Nothing else changes but for the answer. That BAD_FIELD comes before DUPLICATE,
here and for an account, is notes/assumptions/39.md. R92: TABLE WRITE of an account entry: a field absent or outside its
range is BAD_FIELD; else the write keeps the reserved allocations of an entry that is not empty and gives an empty one
zeros, whatever reserved allocations its frame carries (notes/assumptions/10.md); another entry with the number makes it
DUPLICATE. TABLE CLEAR is IN_USE while an order names the entry. Nothing else changes but for the answer. -/
def Obligations.PermitAndAccountWriteAndClear : Prop :=
  (∀ (s : State) (t : Byte) (i : Nat) (w : PermitWrite), s.quiet = true → i < 1024 →
    (outside 1 4294967295 w.credential ∨ outside 1 9999999 w.driver ∨ w.classes = none ∨ outside 0 65535 w.expiry ∨
      (∀ x, w.bays = some x → 16 ≤ x.toNat) ∨ w.state = none) →
    exec (.tableWritePermit t (some (i, w))) s = .next (s.answers s.dev 1 t .badField [])) ∧
  (∀ (s : State) (t : Byte) (i : Nat) (w : AccountWrite), s.quiet = true → i < 256 →
    (outside 1 99999999 w.number ∨ w.state = none ∨ w.enforcement = none ∨
      (∀ l, w.remaining = some l → l.length ≠ 16 ∨ ∃ x ∈ l, x < -99999999 ∨ 99999999 < x)) →
    exec (.tableWriteAccount t (some (i, w))) s = .next (s.answers s.dev 1 t .badField [])) ∧
  (∀ (s : State) (t : Byte) (i cred driver expiry : Nat) (classes bays : Byte) (st : PermitState),
    s.quiet = true → i < 1024 → 1 ≤ cred → cred ≤ 4294967295 → 1 ≤ driver → driver ≤ 9999999 → expiry ≤ 65535 →
    bays.toNat < 16 →
    ((∀ e ∈ s.dev.permits, e.1 = i ∨ e.2.credential ≠ cred) →
      exec (.tableWritePermit t
        (some (i, ⟨some cred, some driver, some classes, some expiry, some bays, some st⟩))) s =
      .next (s.answers
        { s.dev with permits := Sparse.put i ⟨cred, driver, classes, expiry, bays, st⟩ s.dev.permits } 1 t .ok [])) ∧
    ((∃ e ∈ s.dev.permits, e.1 ≠ i ∧ e.2.credential = cred) →
      exec (.tableWritePermit t
        (some (i, ⟨some cred, some driver, some classes, some expiry, some bays, some st⟩))) s =
      .next (s.answers s.dev 1 t .duplicate [])) ∧
    exec (.tableClearPermit t (some i)) s =
      .next (s.answers { s.dev with permits := Sparse.del i s.dev.permits } 3 t .ok [])) ∧
  ∀ (s : State) (t : Byte) (i num : Nat) (st : AccountState) (enf : Bool) (rem : List Int)
      (rsv : Option (List Nat)),
    s.quiet = true → i < 256 → 1 ≤ num → num ≤ 99999999 → rem.length = 16 →
    (∀ x ∈ rem, -99999999 ≤ x ∧ x ≤ 99999999) →
    ((∀ e ∈ s.dev.accounts, e.1 = i ∨ e.2.number ≠ num) →
      ∃ a : Account, a.number = num ∧ a.state = st ∧ a.enforcement = enf ∧ a.remaining.toList = rem ∧
        (∀ p, Bank.read a.reserved p =
          match Sparse.get i s.dev.accounts with
          | some x => Bank.read x.reserved p
          | none => 0) ∧
        exec (.tableWriteAccount t (some (i, ⟨some num, some st, some enf, some rem, rsv⟩))) s =
          .next (s.answers { s.dev with accounts := Sparse.put i a s.dev.accounts } 1 t .ok [])) ∧
    ((∃ e ∈ s.dev.accounts, e.1 ≠ i ∧ e.2.number = num) →
      exec (.tableWriteAccount t (some (i, ⟨some num, some st, some enf, some rem, rsv⟩))) s =
        .next (s.answers s.dev 1 t .duplicate [])) ∧
    ((∀ o ∈ s.dev.orders, o.account ≠ i) →
      exec (.tableClearAccount t (some i)) s =
        .next (s.answers { s.dev with accounts := Sparse.del i s.dev.accounts } 3 t .ok [])) ∧
    ((∃ o ∈ s.dev.orders, o.account = i) →
      exec (.tableClearAccount t (some i)) s = .next (s.answers s.dev 3 t .inUse []))


/-- R3, R4, Table 1-2: TABLE WRITE of a product entry: a field outside its range, one absent that may not be, or two recipe
lines of one additive is BAD_FIELD. With its fields in range, absent ones at their defaults, it replaces the entry, unless
another entry holds the code or a batch of the stored or the new code is open; a write that would be both is DUPLICATE
(notes/assumptions/39.md). TABLE CLEAR empties it under the same guard. Nothing else changes but for the answer. -/
def Obligations.ProductWriteAndClear : Prop :=
  (∀ (s : State) (t : Byte) (i : ProdIdx) (w : ProductWrite), s.quiet = true →
    (outside 1 255 w.code ∨ outside 200 1500 w.alpha ∨ (∀ x, w.fallback = some x → x < -4000 ∨ 7000 < x) ∨
      w.basis = none ∨ strays 0 1000 w.startVol ∨ strays 100 2000 w.taperVol ∨ strays 0 200 w.overrun ∨
      ∃ l, w.recipe = some l ∧ (2 < l.length ∨ ¬ (l.map RecipeLine.code).Nodup ∨
        ∃ r ∈ l, r.code < 1 ∨ 255 < r.code ∨ r.dose < 1 ∨ 20000 < r.dose)) →
    exec (.tableWriteProduct t (some (i.val, w))) s = .next (s.answers s.dev 1 t .badField [])) ∧
  ∀ (s : State) (t : Byte) (i : ProdIdx) (w : ProductWrite) (code alpha : Nat) (fallback : Int) (basis : Basis),
    s.quiet = true → w.code = some code → w.alpha = some alpha → w.fallback = some fallback → w.basis = some basis →
    1 ≤ code → code ≤ 255 → 200 ≤ alpha → alpha ≤ 1500 → -4000 ≤ fallback → fallback ≤ 7000 →
    w.startVol.getD 200 ≤ 1000 → 100 ≤ w.taperVol.getD 400 → w.taperVol.getD 400 ≤ 2000 → w.overrun.getD 20 ≤ 200 →
    (w.recipe.getD []).length ≤ 2 → ((w.recipe.getD []).map RecipeLine.code).Nodup →
    (∀ r ∈ w.recipe.getD [], 1 ≤ r.code ∧ r.code ≤ 255 ∧ 1 ≤ r.dose ∧ r.dose ≤ 20000) →
    ((∀ j p, j ≠ i → s.dev.product j = some p → p.code ≠ code) →
      (∀ a b, (s.dev.arm a).batch = some b → b.product ≠ code ∧ ∀ p, s.dev.product i = some p → b.product ≠ p.code) →
      exec (.tableWriteProduct t (some (i.val, w))) s =
        .next (s.answers (s.dev.setProduct i (some ⟨code, alpha, fallback, basis, w.startVol.getD 200,
          w.taperVol.getD 400, w.overrun.getD 20, w.classes.getD 0#8, w.recipe.getD []⟩)) 1 t .ok [])) ∧
    ((∃ j p, j ≠ i ∧ s.dev.product j = some p ∧ p.code = code) →
      exec (.tableWriteProduct t (some (i.val, w))) s = .next (s.answers s.dev 1 t .duplicate [])) ∧
    ((∀ j p, j ≠ i → s.dev.product j = some p → p.code ≠ code) →
      (∃ a b, (s.dev.arm a).batch = some b ∧ (b.product = code ∨ ∃ p, s.dev.product i = some p ∧ b.product = p.code)) →
      exec (.tableWriteProduct t (some (i.val, w))) s = .next (s.answers s.dev 1 t .inUse [])) ∧
    ((∀ a b p, (s.dev.arm a).batch = some b → s.dev.product i = some p → b.product ≠ p.code) →
      exec (.tableClearProduct t (some i.val)) s = .next (s.answers (s.dev.setProduct i none) 3 t .ok [])) ∧
    ((∃ a b p, (s.dev.arm a).batch = some b ∧ s.dev.product i = some p ∧ b.product = p.code) →
      exec (.tableClearProduct t (some i.val)) s = .next (s.answers s.dev 3 t .inUse []))


/-- R179, Table 10-6: TABLE WRITE of the rack settings puts each field, an absent one at its default, when all are in range
and the minimum sweep interval is below the sweep timeout, and is BAD_FIELD otherwise; TABLE CLEAR restores the defaults.
Nothing else changes but for the answer.
R180: CLOCK SET of a day and a second in range sets the clock and reports the old time and the new; out of range it is
BAD_FIELD. A second of the clock input moves a SET clock on by one, day 65 535 to day 0, and leaves an UNSET clock UNSET.
That the notice carries each time as one field of five octets is the model's reading (notes/assumptions/12.md). -/
def Obligations.SettingsAndClockAreSet : Prop :=
  (∀ (s : State) (t : Byte) (w : SettingsWrite), s.quiet = true →
    exec (.tableWriteRackSettings t (some (0, w))) s =
      (if 2 ≤ w.minInterval.getD 10 ∧ w.minInterval.getD 10 ≤ 50 ∧ 5 ≤ w.sweepTimeout.getD 40 ∧
          w.sweepTimeout.getD 40 ≤ 100 ∧ 5 ≤ w.debounce.getD 20 ∧ w.debounce.getD 20 ≤ 100 ∧
          60 ≤ w.authTimeout.getD 300 ∧ w.authTimeout.getD 300 ≤ 900 ∧ 30 ≤ w.resumeWindow.getD 120 ∧
          w.resumeWindow.getD 120 ≤ 600 ∧ 2 ≤ w.valveTravel.getD 8 ∧ w.valveTravel.getD 8 ≤ 20 ∧
          w.minInterval.getD 10 < w.sweepTimeout.getD 40 then
        .next (s.answers (s.dev.onMp fun m =>
          { m with settings := ⟨w.minInterval.getD 10, w.sweepTimeout.getD 40, w.debounce.getD 20, w.authTimeout.getD 300,
              w.resumeWindow.getD 120, w.valveTravel.getD 8⟩ }) 1 t .ok [])
      else .next (s.answers s.dev 1 t .badField [])) ∧
    exec (.tableClearRackSettings t (some 0)) s =
      .next (s.answers (s.dev.onMp fun m => { m with settings := ⟨10, 40, 20, 300, 120, 8⟩ }) 3 t .ok [])) ∧
  (∀ (s : State) (t : Byte) (day sec : Nat), s.quiet = true →
    exec (.clockSet t (some (day, sec))) s =
      (if day ≤ 65535 ∧ sec ≤ 86399 then
        .next (s.answers ((s.dev.onMp fun m => { m with clock := some ⟨day, sec⟩, clockMs := 0 }).raise .rack .rack 2
          [octets 2 s.dev.time.day ++ octets 3 s.dev.time.sec, octets 2 day ++ octets 3 sec]) 21 t .ok [])
      else .next (s.answers s.dev 21 t .badField []))) ∧
  ∀ s : State, exec .rackClockSecond s =
    .next { s with dev := { s.dev with mp := { s.dev.mp with
      clock := (match s.dev.mp.clock with
        | none => none
        | some ⟨day, sec⟩ =>
          some (if sec < 86399 then ⟨day, sec + 1⟩ else if day < 65535 then ⟨day + 1, 0⟩ else ⟨0, 0⟩)),
      clockMs := 0 } } }

/-- R1, R2, R23, R35: an accepted TABLE WRITE of an arm record, its bays CLOSED, replaces the record; the baseline stays
valid only with the METER station unchanged and the held temperature only with the TEMP station, and counts and value are
kept (notes/assumptions/70.md); a new close-ahead fills the ring; a new VALVE station leaves position and coupler UNKNOWN,
and a record that was empty counts as one with other stations (notes/assumptions/47.md). TABLE CLEAR empties the record.
While the bay the stored record names is not CLOSED both are IN_USE, and so is a write while the bay its new record names is
not CLOSED. No other arm, no bay, no other table and no custody state changes.
R1, Table 1-1: a write is BAD_FIELD unless every field is present and in range, the curve ascends, the map's codes differ
and its stations differ, and when another record names a station of it under another kind or as its own METER or VALVE; FULL
when four other records name the bay, or two others map a channel of its map (the order of the checks:
notes/assumptions/39.md). -/
def Obligations.ArmWriteAndClear : Prop :=
  (∀ (s : State) (t : Byte) (a : ArmId), s.quiet = true →
    ((∀ b, (s.dev.bay b).state = .closed → (s.dev.bay b).causes.valve = false) →
    (∀ old, s.dev.armRec a = some old → (s.dev.bay old.bay).state = .closed) →
    (∀ (w : ArmWrite) (r : ArmRecord), readArm w = some r → (s.dev.bay r.bay).state = .closed →
      (∀ o ∈ s.dev.otherArms a, r.clashes o = false) → armFull r (s.dev.otherArms a) = false →
      ∃ u : State, exec (.tableWriteArm t (some (a.val, w))) s = .next u ∧ u.pending = s.pending ∧
        u.dev.armRecs = Bank.write s.dev.armRecs a (some r) ∧
        (∀ x, x ≠ a → u.dev.meter x = s.dev.meter x ∧ u.dev.arm x = s.dev.arm x) ∧
        u.dev.meter a = { s.dev.meter a with
          baselineValid := (s.dev.meter a).baselineValid && (s.dev.armRec a).map ArmRecord.meter == some r.meter,
          heldValid := (s.dev.meter a).heldValid && (s.dev.armRec a).map ArmRecord.temp == some r.temp } ∧
        ((s.dev.armRec a).map ArmRecord.closeAhead = some r.closeAhead →
          (u.dev.arm a).ring = (s.dev.arm a).ring ∧ (u.dev.arm a).closeAhead = (s.dev.arm a).closeAhead) ∧
        ((s.dev.armRec a).map ArmRecord.closeAhead ≠ some r.closeAhead →
          (u.dev.arm a).ring = ⟨r.closeAhead, r.closeAhead, r.closeAhead, r.closeAhead⟩ ∧
          (u.dev.arm a).closeAhead = r.closeAhead) ∧
        ((s.dev.armRec a).map ArmRecord.valve = some r.valve →
          (u.dev.arm a).position = (s.dev.arm a).position ∧ (u.dev.arm a).coupler = (s.dev.arm a).coupler) ∧
        ((s.dev.armRec a).map ArmRecord.valve ≠ some r.valve →
          (u.dev.arm a).position = .unknown ∧ (u.dev.arm a).coupler = .unknown) ∧
        (u.dev.arm a).batch = (s.dev.arm a).batch ∧ u.dev.bays = s.dev.bays ∧ u.dev.injs = s.dev.injs ∧
        u.dev.orders = s.dev.orders ∧ u.dev.accounts = s.dev.accounts ∧ u.dev.custody = s.dev.custody ∧
        u.dev.products = s.dev.products ∧ u.dev.permits = s.dev.permits ∧ u.dev.injRecs = s.dev.injRecs ∧
        u.dev.bayRecs = s.dev.bayRecs ∧ u.dev.mp.settings = s.dev.mp.settings ∧ u.dev.mp.clock = s.dev.mp.clock ∧
        u.dev.cw = s.dev.cw ∧ u.dev.lm = s.dev.lm ∧ u.dev.lu = s.dev.lu ∧ u.dev.nu = s.dev.nu ∧
        u.dev.mp.answers = s.dev.mp.answers ++ [⟨1#8, t, .ok, []⟩]) ∧
    exec (.tableClearArm t (some a.val)) s =
      .next (s.answers (((s.dev.setArmRec a none).onMeter a fun m =>
        { m with baselineValid := false, heldValid := false }).onArm a fun c =>
          { c with ring := ⟨0, 0, 0, 0⟩, closeAhead := 0 }) 3 t .ok [])) ∧
    (∀ old, s.dev.armRec a = some old → (s.dev.bay old.bay).state ≠ .closed →
      exec (.tableClearArm t (some a.val)) s = .next (s.answers s.dev 3 t .inUse [])) ∧
    ∀ (w : ArmWrite) (r : ArmRecord), readArm w = some r → (∀ o ∈ s.dev.otherArms a, r.clashes o = false) →
      armFull r (s.dev.otherArms a) = false →
      ((∃ old, s.dev.armRec a = some old ∧ (s.dev.bay old.bay).state ≠ .closed) ∨ (s.dev.bay r.bay).state ≠ .closed) →
      exec (.tableWriteArm t (some (a.val, w))) s = .next (s.answers s.dev 1 t .inUse [])) ∧
  (∀ (w : ArmWrite) (r : ArmRecord), readArm w = some r ↔
    w.bay = some r.bay.val ∧ w.product = some r.product ∧ 1 ≤ r.product ∧ r.product ≤ 255 ∧
    w.meter = some r.meter.val ∧ r.meter ≠ 0 ∧ w.temp = some r.temp.val ∧ w.valve = some r.valve.val ∧ r.valve ≠ 0 ∧
    w.kFactor = some r.kFactor ∧ 1000 ≤ r.kFactor ∧ r.kFactor ≤ 999999 ∧
    w.curve = some r.curve ∧ 1 ≤ r.curve.length ∧ r.curve.length ≤ 6 ∧
    (∀ p ∈ r.curve, 1 ≤ p.q ∧ p.q ≤ 6000 ∧ 90000 ≤ p.mf ∧ p.mf ≤ 110000) ∧
    (r.curve.map CurvePoint.q).Pairwise (· < ·) ∧
    w.qMax = some r.qMax ∧ 1 ≤ r.qMax ∧ r.qMax ≤ 6000 ∧ w.closeAhead = some r.closeAhead ∧ r.closeAhead ≤ 40000 ∧
    w.additiveMap = some (r.additiveMap.map fun e => ⟨e.1, e.2.val⟩) ∧ r.additiveMap.length ≤ 2 ∧
    (∀ e ∈ r.additiveMap, 1 ≤ e.1 ∧ e.1 ≤ 255) ∧ (r.additiveMap.map Prod.fst).Nodup ∧ w.inService = some r.inService ∧
    r.meter ≠ r.valve ∧ (r.temp = 0 ∨ (r.temp ≠ r.meter ∧ r.temp ≠ r.valve))) ∧
  (∀ (d : Device) (a : ArmId) (o : ArmRecord), o ∈ d.otherArms a ↔ ∃ x, x ≠ a ∧ d.armRec x = some o) ∧
  (∀ r o : ArmRecord, r.clashes o = true ↔
    r.meter = o.meter ∨ r.valve = o.valve ∨ r.meter = o.valve ∨ r.valve = o.meter ∨ r.meter = o.temp ∨ r.valve = o.temp ∨
    (r.temp ≠ 0 ∧ (r.temp = o.meter ∨ r.temp = o.valve))) ∧
  (∀ (d : Device) (a : ArmId) (r : ArmRecord), armFull r (d.otherArms a) = true ↔
    (∃ l : List ArmId, l.Nodup ∧ l.length = 4 ∧ ∀ x ∈ l, x ≠ a ∧ ∃ o, d.armRec x = some o ∧ o.bay = r.bay) ∨
    ∃ e ∈ r.additiveMap, ∃ l : List ArmId, l.Nodup ∧ l.length = 2 ∧
      ∀ x ∈ l, x ≠ a ∧ ∃ o, d.armRec x = some o ∧ ∃ f ∈ o.additiveMap, f.2 = e.2) ∧
  ∀ (s : State) (t : Byte) (a : ArmId) (w : ArmWrite), s.quiet = true →
    ((readArm w = none ∨ ∃ r, readArm w = some r ∧ ∃ o ∈ s.dev.otherArms a, r.clashes o = true) →
      exec (.tableWriteArm t (some (a.val, w))) s = .next (s.answers s.dev 1 t .badField [])) ∧
    ∀ r, readArm w = some r → (∀ o ∈ s.dev.otherArms a, r.clashes o = false) → armFull r (s.dev.otherArms a) = true →
      exec (.tableWriteArm t (some (a.val, w))) s = .next (s.answers s.dev 1 t .full [])


/-- R43, R62, Table 3-1: TABLE WRITE of an injector entry is BAD_FIELD with a field out of range, one absent that may not
be, or a station that another entry names. With its fields in range, absent ones at their defaults, it makes the injector
AVAILABLE with everything but its next token reset, shots in flight and a standing offer among it, and reports it when it
was in FAULT; TABLE CLEAR makes it DISABLED; both are IN_USE while a dosing record names the channel (BAD_FIELD before
IN_USE: notes/assumptions/39.md). R44, R62: INJECTOR CLEAR of an injector in FAULT makes it AVAILABLE with its missed count
0 and reports it; of an AVAILABLE one it zeroes the missed count; of a DISABLED one it is WRONG_STATE. Nothing else changes
but for the answer. The notices carry the state AVAILABLE as 0 (notes/assumptions/9.md). -/
def Obligations.InjectorWriteClearAndRestore : Prop :=
  (∀ (s : State) (t : Byte) (c : Chan) (w : InjectorWrite), s.quiet = true →
    (outside 1 31 w.station ∨ outside 1 255 w.code ∨ outside 10 2000 w.shot ∨ outside 100000 99999999 w.kFactor ∨
      w.acceptance = none ∨ strays 1 25 w.tolerance ∨ strays 4 32 w.window ∨ strays 1 10 w.timeout ∨
      ∃ x j, x ≠ c ∧ s.dev.injRec x = some j ∧ w.station = some j.station.val) →
    exec (.tableWriteInjector t (some (c.val, w))) s = .next (s.answers s.dev 1 t .badField [])) ∧
  (∀ (s : State) (t : Byte) (c : Chan) (w : InjectorWrite) (st : Addr) (code shot k : Nat) (acc : Acceptance),
    s.quiet = true → w.station = some st.val → w.code = some code → w.shot = some shot →
    w.kFactor = some k → w.acceptance = some acc →
    st ≠ 0 → 1 ≤ code → code ≤ 255 → 10 ≤ shot → shot ≤ 2000 → 100000 ≤ k → k ≤ 99999999 →
    1 ≤ w.tolerance.getD 5 → w.tolerance.getD 5 ≤ 25 → 4 ≤ w.window.getD 8 → w.window.getD 8 ≤ 32 →
    1 ≤ w.timeout.getD 4 → w.timeout.getD 4 ≤ 10 → (∀ x j, x ≠ c → s.dev.injRec x = some j → j.station ≠ st) →
    (s.dev.dosingNames c = false → (s.dev.inj c).inFlight = [] → (s.dev.inj c).offer = none →
      (∃ e : Device,
        e = (s.dev.setInjRec c (some ⟨st, code, shot, k, acc, w.tolerance.getD 5, w.window.getD 8, w.timeout.getD 4⟩)).onInj c
          (fun i => ⟨.available, [], none, i.nextToken, none, 0, none⟩) ∧
        exec (.tableWriteInjector t (some (c.val, w))) s =
          .next (s.answers (if (s.dev.inj c).state = .fault then
            e.raise .injector (.injector c) 3 [octets 1 c.val, [0#8], [0#8]] else e) 1 t .ok [])) ∧
      exec (.tableClearInjector t (some c.val)) s =
        .next (s.answers ((s.dev.setInjRec c none).onInj c
          (fun i => ⟨.disabled, [], none, i.nextToken, none, 0, none⟩)) 3 t .ok [])) ∧
    (s.dev.dosingNames c = false →
      (∃ u : State, exec (.tableWriteInjector t (some (c.val, w))) s = .next u ∧ u.pending = s.pending ∧
        u.dev.inj c = ⟨.available, [], none, (s.dev.inj c).nextToken, none, 0, none⟩ ∧
        u.dev.injRecs = Bank.write s.dev.injRecs c
          (some ⟨st, code, shot, k, acc, w.tolerance.getD 5, w.window.getD 8, w.timeout.getD 4⟩) ∧
        (∀ x, x ≠ c → u.dev.inj x = s.dev.inj x) ∧ u.dev.armRecs = s.dev.armRecs ∧ u.dev.arms = s.dev.arms ∧
        u.dev.custody = s.dev.custody ∧ (s.dev.mp.answers ++ [⟨1#8, t, .ok, []⟩]) <+: u.dev.mp.answers) ∧
      ∃ u : State, exec (.tableClearInjector t (some c.val)) s = .next u ∧ u.pending = s.pending ∧
        u.dev.inj c = ⟨.disabled, [], none, (s.dev.inj c).nextToken, none, 0, none⟩ ∧
        u.dev.injRecs = Bank.write s.dev.injRecs c none ∧
        (∀ x, x ≠ c → u.dev.inj x = s.dev.inj x) ∧ u.dev.armRecs = s.dev.armRecs ∧ u.dev.arms = s.dev.arms ∧
        u.dev.custody = s.dev.custody ∧ (s.dev.mp.answers ++ [⟨3#8, t, .ok, []⟩]) <+: u.dev.mp.answers) ∧
    (s.dev.dosingNames c = true →
      exec (.tableWriteInjector t (some (c.val, w))) s = .next (s.answers s.dev 1 t .inUse []) ∧
      exec (.tableClearInjector t (some c.val)) s = .next (s.answers s.dev 3 t .inUse []))) ∧
  ∀ (s : State) (t : Byte) (c : Chan), s.quiet = true →
    exec (.injectorClear t (some c.val)) s =
      (match (s.dev.inj c).state with
        | .disabled => .next (s.answers s.dev 15 t .wrongState [])
        | .available => .next (s.answers (s.dev.onInj c fun i => { i with missed := 0 }) 15 t .ok [])
        | .fault => .next (s.answers ((s.dev.onInj c fun i => { i with state := .available, missed := 0 }).raise .injector
            (.injector c) 3 [octets 1 c.val, [0#8], [0#8]]) 15 t .ok []))


/-- R64, R166: TABLE WRITE of the record of a CLOSED bay, its fields in range and its panel and sources shared with no other
bay, replaces the record and has both permissives reported as they stand; TABLE CLEAR empties it, which makes both absent;
in any other bay state both are IN_USE. A write with a field absent or out of range, or whose panel or a source of which
another bay record names, is BAD_FIELD (its place before IN_USE: notes/assumptions/39.md). -/
def Obligations.BayWriteAndClear : Prop :=
  (∀ (s : State) (t : Byte) (b : BayId) (w : BayWrite) (r : BayRecord), s.quiet = true → readBay w = some r →
    s.dev.bayTaken b r = false →
    ((s.dev.bay b).state = .closed → (s.dev.bay b).causes = CauseSet.empty →
      (∀ e : Device, e = s.dev.setBayRec b (some r) →
        exec (.tableWriteBay t (some (b.val, w))) s =
          .next (s.answers (e.onBay b fun x =>
            { x with ground := e.present b r.ground false, overfill := e.present b r.overfill true }) 1 t .ok [])) ∧
      exec (.tableClearBay t (some b.val)) s =
        .next (s.answers ((s.dev.setBayRec b none).onBay b fun x => { x with ground := false, overfill := false }) 3 t .ok
          [])) ∧
    ((s.dev.bay b).state ≠ .closed →
      exec (.tableWriteBay t (some (b.val, w))) s = .next (s.answers s.dev 1 t .inUse []) ∧
      exec (.tableClearBay t (some b.val)) s = .next (s.answers s.dev 3 t .inUse []))) ∧
  (∀ (w : BayWrite) (r : BayRecord), readBay w = some r ↔
    w.panel = some r.panel.val ∧ r.panel ≠ 0 ∧ r.ground ≠ .station 0 ∧ r.overfill ≠ .station 0 ∧
    w.ground = some (match r.ground with
      | .station n => .station n.val
      | .line l => .line l.val) ∧
    w.overfill = some (match r.overfill with
      | .station n => .station n.val
      | .line l => .line l.val)) ∧
  (∀ (d : Device) (b : BayId) (r : BayRecord), d.bayTaken b r = true ↔ ∃ x o, x ≠ b ∧ d.bayRec x = some o ∧
    (r.panel = o.panel ∨ r.ground = o.ground ∨ r.ground = o.overfill ∨ r.overfill = o.ground ∨ r.overfill = o.overfill)) ∧
  ∀ (s : State) (t : Byte) (b : BayId) (w : BayWrite), s.quiet = true →
    (readBay w = none ∨ ∃ r, readBay w = some r ∧ s.dev.bayTaken b r = true) →
    exec (.tableWriteBay t (some (b.val, w))) s = .next (s.answers s.dev 1 t .badField [])


/-- R146, R147: an accepted TABLE WRITE of a station entry leaves the station SILENT with its counts, its kind seen, its
word discarded and its round assembly spoiled, the bits gathered kept (notes/assumptions/74.md); TABLE CLEAR leaves it
UNCONFIGURED; each is reported and keeps the address's slot in a sweep outstanding from being judged
(notes/assumptions/17.md). No other station's record, no arm, injector, bay, product or permit record, no setting and no
custody state changes. Both are IN_USE while the bay of the stored entry, or a bay whose records name the address, is not
CLOSED, or a dosing record names an injector of the address, and a write is so while the bay of its new entry is not CLOSED.
A write without its kind, a bay or an index that its kind requires, or with one out of range, is BAD_FIELD (before IN_USE:
notes/assumptions/39.md); a field its kind does not have is dropped (notes/assumptions/40.md). -/
def Obligations.StationWriteAndClear : Prop :=
  (∀ (s : State) (t : Byte) (n : Addr) (w : StationWrite) (e : StationEntry), s.quiet = true → n ≠ 0 →
    readStation w = some e →
    ((s.dev.entryGate (s.dev.station n).entry && s.dev.addressGate n) = true →
      (s.dev.entryGate (some e) = true →
        ∃ u : State, exec (.tableWriteStation t (some (n.val, w))) s = .next u ∧ u.pending = s.pending ∧
          u.dev.station n = ⟨some e, .silent, 0, 0, none, none, (s.dev.station n).round, true⟩ ∧
          (∀ m, m ≠ n → u.dev.station m = s.dev.station m) ∧
          (∃ x ∈ u.dev.mp.notices, x.obj = .station n ∧ x.event = 1) ∧
          u.dev.armRecs = s.dev.armRecs ∧ u.dev.injRecs = s.dev.injRecs ∧ u.dev.bayRecs = s.dev.bayRecs ∧
          u.dev.products = s.dev.products ∧ u.dev.permits = s.dev.permits ∧ u.dev.custody = s.dev.custody ∧
          u.dev.mp.settings = s.dev.mp.settings ∧
          u.dev.lm.outstanding = s.dev.lm.outstanding.map (fun x => { x with changed := n :: x.changed }) ∧
          u.dev.mp.answers = s.dev.mp.answers ++ [⟨1#8, t, .ok, []⟩]) ∧
      ∃ u : State, exec (.tableClearStation t (some n.val)) s = .next u ∧ u.pending = s.pending ∧
        u.dev.station n = ⟨none, .unconfigured, 0, 0, none, none, (s.dev.station n).round, true⟩ ∧
        (∀ m, m ≠ n → u.dev.station m = s.dev.station m) ∧
        (∃ x ∈ u.dev.mp.notices, x.obj = .station n ∧ x.event = 1) ∧
        u.dev.armRecs = s.dev.armRecs ∧ u.dev.injRecs = s.dev.injRecs ∧ u.dev.bayRecs = s.dev.bayRecs ∧
        u.dev.products = s.dev.products ∧ u.dev.permits = s.dev.permits ∧ u.dev.custody = s.dev.custody ∧
        u.dev.mp.settings = s.dev.mp.settings ∧
        u.dev.lm.outstanding = s.dev.lm.outstanding.map (fun x => { x with changed := n :: x.changed }) ∧
        u.dev.mp.answers = s.dev.mp.answers ++ [⟨3#8, t, .ok, []⟩]) ∧
    (((s.dev.entryGate (s.dev.station n).entry && s.dev.addressGate n) = false ∨ s.dev.entryGate (some e) = false) →
      exec (.tableWriteStation t (some (n.val, w))) s = .next (s.answers s.dev 1 t .inUse [])) ∧
    ((s.dev.entryGate (s.dev.station n).entry && s.dev.addressGate n) = false →
      exec (.tableClearStation t (some n.val)) s = .next (s.answers s.dev 3 t .inUse []))) ∧
  (∀ (w : StationWrite) (e : StationEntry), readStation w = some e ↔
    w.kind = some e.kind ∧ (∀ x, w.bay = some x → x ≤ 3) ∧
    (e.kind ∈ [.meter, .temp, .valve] →
      (∃ y, e.bay = some y ∧ w.bay = some y.val) ∧ ∃ i, e.index = some i ∧ w.index = some i ∧ i ≤ 11) ∧
    (e.kind = .injector → e.bay = none ∧ ∃ i, e.index = some i ∧ w.index = some i ∧ i ≤ 15) ∧
    (e.kind ∈ [.panel, .permit] → e.index = none ∧ ∃ y, e.bay = some y ∧ w.bay = some y.val)) ∧
  (∀ (d : Device) (e : StationEntry), d.entryGate none = true ∧
    (d.entryGate (some e) = true ↔ ∀ y, e.bay = some y → (d.bay y).state = .closed)) ∧
  (∀ (d : Device) (n : Addr), n ≠ 0 → (d.addressGate n = true ↔
    (∀ b r, d.bayRec b = some r → (r.panel = n ∨ r.ground = .station n ∨ r.overfill = .station n) →
      (d.bay b).state = .closed) ∧
    (∀ a r, d.armRec a = some r → (r.meter = n ∨ r.temp = n ∨ r.valve = n) → (d.bay r.bay).state = .closed) ∧
    ∀ c j, d.injRec c = some j → j.station = n → d.dosingNames c = false)) ∧
  ∀ (s : State) (t : Byte) (n : Addr) (w : StationWrite), s.quiet = true → n ≠ 0 → readStation w = none →
    exec (.tableWriteStation t (some (n.val, w))) s = .next (s.answers s.dev 1 t .badField [])


/-! ### Orders and reads -/

/-- R95, Tables 5-3 and 5-5: ORDER ADD with a field absent that may not be, a field out of its range, no line or more than
8, two lines of one compartment, or a preset above its capacity is BAD_FIELD. With its fields in range the order joins the
tail of the queue, QUEUED, with no line batched or reserved; an account entry that is empty makes it NOT_FOUND, an order
number in the queue DUPLICATE, 48 orders FULL. Nothing else changes but for the answer.
R97: ORDER CANCEL of a number no order has is NOT_FOUND; a LOADING order is IN_USE; a QUEUED order leaves the queue; an
ASSIGNED order's authorization is withdrawn (R71), whether its bay is AUTHORIZED or HELD from AUTHORIZED, and the order
leaves the queue; CW, when it is free to, then takes up the barrier of a stalled commit that got the bay's slot (R135); with
no commit stalled there is none. -/
def Obligations.OrderAddAndCancel : Prop :=
  (∀ (w : LineWrite) (l : OrderLine), readLine w = some l ↔
    w.compartment = some l.compartment ∧ 1 ≤ l.compartment ∧ l.compartment ≤ 8 ∧
    w.product = some l.product ∧ 1 ≤ l.product ∧ l.product ≤ 255 ∧
    w.preset = some l.preset ∧ 1 ≤ l.preset ∧ l.preset ≤ 40000 ∧ w.basis = l.basis ∧ w.capacity = l.capacity ∧
    (∀ c, l.capacity = some c → 1 ≤ c ∧ c ≤ 40000 ∧ l.preset ≤ c) ∧ l.batch = .notBatched ∧ l.reservation = none) ∧
  (∀ (s : State) (t : Byte) (w : OrderWrite), s.quiet = true →
    (outside 1 4294967295 w.number ∨ outside 0 255 w.account ∨ outside 0 4294967295 w.credential ∨
      strays 0 65535 w.expiry ∨ ∀ ls, w.lines = some ls → ls = [] ∨ 8 < ls.length ∨ (∃ l ∈ ls, readLine l = none) ∨
        ¬ (ls.map LineWrite.compartment).Nodup) →
    exec (.orderAdd t (some w)) s = .next (s.answers s.dev 4 t .badField [])) ∧
  (∀ (s : State) (t : Byte) (num acct cred : Nat) (exp : Option Nat) (ls : List LineWrite) (lines : List OrderLine),
    s.quiet = true → 1 ≤ num → num ≤ 4294967295 → acct ≤ 255 → cred ≤ 4294967295 → (∀ x, exp = some x → x ≤ 65535) →
    readAll readLine ls = some lines → 1 ≤ lines.length → lines.length ≤ 8 →
    (lines.map OrderLine.compartment).Nodup →
    (∀ l ∈ lines, l.batch = .notBatched ∧ l.reservation = none) ∧
    exec (.orderAdd t (some ⟨some num, some acct, some cred, exp, some ls⟩)) s =
      (if (Sparse.get acct s.dev.accounts).isNone then .next (s.answers s.dev 4 t .notFound [])
      else if ∃ o ∈ s.dev.orders, o.number = num then .next (s.answers s.dev 4 t .duplicate [])
      else if 48 ≤ s.dev.orders.length then .next (s.answers s.dev 4 t .full [])
      else .next (s.answers { s.dev with
        orders := s.dev.orders ++ [⟨num, acct, cred, exp, lines, .queued, none⟩] } 4 t .ok []))) ∧
  ∀ (s : State) (t : Byte) (n : Nat), s.quiet = true →
    ((∀ o ∈ s.dev.orders, o.number ≠ n) → exec (.orderCancel t (some n)) s = .next (s.answers s.dev 5 t .notFound [])) ∧
    ∀ o, s.dev.orderNumbered n = some o →
      (o.state = .loading → exec (.orderCancel t (some n)) s = .next (s.answers s.dev 5 t .inUse [])) ∧
      (o.state = .queued → exec (.orderCancel t (some n)) s =
        .next (s.answers { s.dev with orders := s.dev.orders.filter fun x => x.number != n } 5 t .ok [])) ∧
      ∀ b cr dr, o.state = .assigned → o.assignment = some ⟨b, cr, dr⟩ → (s.dev.bay b).order = some n →
        ((s.dev.bay b).state = .authorized ∨ ((s.dev.bay b).state = .held ∧ (s.dev.bay b).before = some .authorized)) →
        exec (.orderCancel t (some n)) s = .next (s.answers (s.dev.withdraw b .orderCancel).cwStart 5 t .ok []) ∧
        (s.dev.firstStalled = none →
          exec (.orderCancel t (some n)) s = .next (s.answers (s.dev.withdraw b .orderCancel) 5 t .ok []))


/-- R71, R107, R128, R135: the withdrawal of the authorization of a bay AUTHORIZED, or HELD from AUTHORIZED, leaves it IDLE,
or HELD from IDLE, or CLOSED when BAY CLOSE caused it, with no order and its timer stopped. Its order is QUEUED again at its
place with no assignment and no line reserved, or gone when ORDER CANCEL caused it; the order's account gets back each
reservation; and its slot is FREE, or goes to the stalled commit whose stall began first, whose own slot is BAD and whose
barrier is queued again. -/
def Obligations.WithdrawalUndoesTheAssignment : Prop :=
  ∀ (d e : Device) (b : BayId) (o : Order) (k : SlotId) (c : WithdrawCause), e = d.withdraw b c →
    ((d.bay b).state = .authorized ∨ ((d.bay b).state = .held ∧ (d.bay b).before = some .authorized)) →
    d.orderOf b = some o → d.reservedSlot b = some k →
    (e.bay b).state = (if c = .bayClose then .closed else if (d.bay b).state = .held then .held else .idle) ∧
    ((d.bay b).state = .held → (e.bay b).before = (if c = .bayClose then none else some .idle)) ∧
    (e.bay b).order = none ∧ (e.bay b).authTimer = .stopped ∧ (∀ x, x ≠ b → e.bay x = d.bay x) ∧
    e.orders.map Order.number =
      (if c = .orderCancel then d.orders.filter fun x => x.number != o.number else d.orders).map Order.number ∧
    (c = .orderCancel → e.orderNumbered o.number = none) ∧
    (c ≠ .orderCancel → ∃ q, e.orderNumbered o.number = some q ∧ q.state = .queued ∧ q.assignment = none ∧
      q.lines.map OrderLine.preset = o.lines.map OrderLine.preset ∧ ∀ l ∈ q.lines, l.reservation = none) ∧
    (∀ n, n ≠ o.number → e.orderNumbered n = d.orderNumbered n) ∧
    (d.tablesWf = true →
      (∀ x, Sparse.get o.account d.accounts = some x → ∃ y, Sparse.get o.account e.accounts = some y ∧
        y.number = x.number ∧ y.state = x.state ∧ y.enforcement = x.enforcement ∧
        (∀ p, Bank.read y.reserved p =
          Bank.read x.reserved p - ((o.lines.filter fun l => l.reservation == some p).map OrderLine.preset).sum) ∧
        ((∀ p, -2147483648 ≤ Bank.read x.remaining p) → y.remaining = x.remaining)) ∧
      ∀ i, i ≠ o.account → Sparse.get i e.accounts = Sparse.get i d.accounts) ∧
    (d.firstStalled = none → e.slot k = .free ∧ (∀ j, j ≠ k → e.slot j = d.slot j) ∧ e.cw = d.cw) ∧
    (∀ y, d.firstStalled = some y → y ≠ b →
      e.slot k = .reserved y false ∧ (e.noteBay y).stall = none ∧ (∀ j, d.reservedSlot y = some j → e.slot j = .bad) ∧
      (∀ j, j ≠ k → d.reservedSlot y ≠ some j → e.slot j = d.slot j) ∧
      ∀ i, (d.noteBay y).held = some i →
        ∃ q ∈ e.cw.queue, ∃ x, q.body = .barrier x ∧ x.bay = y ∧ x.slot = k ∧ x.image = i) ∧
    e.custody = d.custody ∧ e.arms = d.arms ∧ e.meters = d.meters

/-- TABLE READ, the read of the order queue and STATUS READ answer from the state and change nothing. A TABLE READ of an
arm, product, injector, bay, permit, account or station entry or of the rack settings (Table 10-5) is answered with one
element: the record in the octets of its write, every field as stored, and no octets for an empty entry. An index out of the
table's range is BAD_INDEX, a table that is none of Table 10-5 BAD_TABLE. A place of the order queue gives the order that
stands there, every field of Tables 5-3 to 5-5 with batch state and reservation of each line (R98), NOT_FOUND beyond the
list, and BAD_INDEX from 48 on. A status object is answered with the elements of its list from the starting one on, with the
STATUS READ itself in service at the FIFO's head (R175). The lists (R186): of an arm, Table 1-3, what R42 names, the written
value and the queued amounts, the open batch's dosing records; of a bay, Table 4-2, the order and the timers, what R126
names, each ended batch with its records; of a station, its entry and Table 8-3, or the empty indication
(notes/assumptions/60.md); of an injector, Table 3-2 with each shot in flight; of the rack, the items of MP, LM, CW, NU and
LU (R182, R159, section 6.2, R126, R171). Where the manual leaves their octets and their division open they are those of
notes/assumptions/11.md, 54.md, 59.md, 63.md to 65.md, 71.md to 73.md and 76.md, a flag's octet 10.md's and 78.md's; the
moment of a stall is 23.md's count, and a shot's time of issue 22.md's. -/
def Obligations.ReadsAnswerAndChangeNothing : Prop :=
  codesFollow ∧ octetsFollow ∧ Order.octsFollow ∧ recordsFollow ∧ (∀ d : Device, d.statusFollows) ∧
  ∀ (s : State) (t : Byte), s.quiet = true →
    (∀ a r, s.dev.armRec a = some r → exec (.tableRead t (some (0, a.val))) s = .next (s.answers s.dev 2 t .ok
      [⟨putArm ⟨some r.bay.val, some r.product, some r.meter.val, some r.temp.val, some r.valve.val, some r.kFactor,
        some r.curve, some r.qMax, some r.closeAhead, some (r.additiveMap.map fun e => ⟨e.1, e.2.val⟩), some r.inService⟩,
        true, true, false⟩])) ∧
    (∀ i p, s.dev.product i = some p → exec (.tableRead t (some (1, i.val))) s = .next (s.answers s.dev 2 t .ok
      [⟨putProduct ⟨some p.code, some p.alpha, some p.fallback, some p.basis, some p.startVol, some p.taperVol,
        some p.overrun, some p.classes, some p.recipe⟩, true, true, false⟩])) ∧
    (∀ c j, s.dev.injRec c = some j → exec (.tableRead t (some (2, c.val))) s = .next (s.answers s.dev 2 t .ok
      [⟨putInjector ⟨some j.station.val, some j.code, some j.shot, some j.kFactor, some j.acceptance, some j.tolerance,
        some j.window, some j.timeout⟩, true, true, false⟩])) ∧
    (∀ b r, s.dev.bayRec b = some r → exec (.tableRead t (some (3, b.val))) s = .next (s.answers s.dev 2 t .ok
      [⟨putBay ⟨some r.panel.val, some r.ground.written, some r.overfill.written⟩, true, true, false⟩])) ∧
    (∀ i p, i < 1024 → Sparse.get i s.dev.permits = some p →
      exec (.tableRead t (some (4, i))) s = .next (s.answers s.dev 2 t .ok
        [⟨putPermit ⟨some p.credential, some p.driver, some p.classes, some p.expiry, some p.bays, some p.state⟩, true, true,
          false⟩])) ∧
    (∀ i x, i < 256 → Sparse.get i s.dev.accounts = some x →
      exec (.tableRead t (some (5, i))) s = .next (s.answers s.dev 2 t .ok
        [⟨putAccount ⟨some x.number, some x.state, some x.enforcement, some x.remaining.toList, some x.reserved.toList⟩,
          true, true, false⟩])) ∧
    (∀ n e, n ≠ 0 → (s.dev.station n).entry = some e → exec (.tableRead t (some (7, n.val))) s =
      .next (s.answers s.dev 2 t .ok [⟨putStation ⟨some e.kind, e.bay.map Fin.val, e.index⟩, true, true, false⟩])) ∧
    (∀ x, x = s.dev.mp.settings → exec (.tableRead t (some (8, 0))) s = .next (s.answers s.dev 2 t .ok
      [⟨putSettings ⟨some x.minInterval, some x.sweepTimeout, some x.debounce, some x.authTimeout, some x.resumeWindow,
        some x.valveTravel⟩, true, true, false⟩])) ∧
    (∀ n i, ((n = 0 ∧ ∃ a : ArmId, a.val = i ∧ s.dev.armRec a = none) ∨
        (n = 1 ∧ ∃ p : ProdIdx, p.val = i ∧ s.dev.product p = none) ∨
        (n = 2 ∧ ∃ c : Chan, c.val = i ∧ s.dev.injRec c = none) ∨ (n = 3 ∧ ∃ b : BayId, b.val = i ∧ s.dev.bayRec b = none) ∨
        (n = 4 ∧ i < 1024 ∧ Sparse.get i s.dev.permits = none) ∨ (n = 5 ∧ i < 256 ∧ Sparse.get i s.dev.accounts = none) ∨
        (n = 7 ∧ ∃ m : Addr, m ≠ 0 ∧ m.val = i ∧ (s.dev.station m).entry = none)) →
      exec (.tableRead t (some (n, i))) s = .next (s.answers s.dev 2 t .ok [⟨[], true, true, false⟩])) ∧
    (∀ n i, ((n = 0 ∧ 12 ≤ i) ∨ ((n = 1 ∨ n = 2) ∧ 16 ≤ i) ∨ (n = 3 ∧ 4 ≤ i) ∨ (n = 4 ∧ 1024 ≤ i) ∨ (n = 5 ∧ 256 ≤ i) ∨
        (n = 7 ∧ (i = 0 ∨ 32 ≤ i)) ∨ (n = 8 ∧ i ≠ 0)) →
      exec (.tableRead t (some (n, i))) s = .next (s.answers s.dev 2 t .badIndex [])) ∧
    (∀ n i, 8 < n → exec (.tableRead t (some (n, i))) s = .next (s.answers s.dev 2 t .badTable [])) ∧
    (∀ n i, ∃ st els, exec (.tableRead t (some (n, i))) s = .next (s.answers s.dev 2 t st els)) ∧
    (∀ i o, s.dev.orders[i]? = some o → i < 48 →
      exec (.tableReadOrderQueue t (some i)) s = .next (s.answers s.dev 2 t .ok [⟨o.octs, true, true, false⟩])) ∧
    (∀ i, s.dev.orders.length ≤ i → i < 48 →
      exec (.tableReadOrderQueue t (some i)) s = .next (s.answers s.dev 2 t .notFound [])) ∧
    (∀ i, 48 ≤ i → exec (.tableReadOrderQueue t (some i)) s = .next (s.answers s.dev 2 t .badIndex [])) ∧
    (∀ o i k l, statusItems (s.dev.intoService (.statusRead t (some (o, i, k)))) o i = some l → k < l.length →
      exec (.statusRead t (some (o, i, k))) s =
        .next (s.answers s.dev 20 t .ok (fitElements 247 ((elementsOf l true false).drop k)))) ∧
    (∀ o i k l, statusItems (s.dev.intoService (.statusRead t (some (o, i, k)))) o i = some l → l.length ≤ k →
      exec (.statusRead t (some (o, i, k))) s = .next (s.answers s.dev 20 t .badIndex [])) ∧
    (∀ o i k, statusItems (s.dev.intoService (.statusRead t (some (o, i, k)))) o i = none →
      exec (.statusRead t (some (o, i, k))) s = .next (s.answers s.dev 20 t .badIndex []))


/-! ### Lines and the rack -/

/-- R161, R163, R166, R167, R169, R170, Tables 9-1 to 9-3: a LINE SET is accepted exactly when its record has a mode and a
function, a bay of 0 to 3 where the function has one, and Table 9-3 has the function accept the mode; the active level is
HIGH when absent. LINE SET of a bound line is WRONG_STATE, and one whose record is not accepted BAD_FIELD. An accepted one
sets mode, function and active level, takes the pin's level as the line level without an edge, stops the timer, gives an
output the drive of its function, and binds the line for ESD_IN and POWERFAIL_IN. Then every bay's permissives and the rack
hold source follow the lines as they stand, and a line active at once sets the latch it serves, CW's mode with it
(notes/assumptions/66.md). No other line's binding, no arm, product, injector, bay or permit record, no station, no setting
and no custody state changes. R164: LINE DRIVE sets the drive of a GENERAL output line and changes nothing else but for the
answer; on any other line it is WRONG_STATE. -/
def Obligations.LineSetAndDrive : Prop :=
  lineRecFollows ∧
  (∀ (s : State) (t : Byte) (l : LineId) (w : LineWriteRec), s.quiet = true →
    ((s.dev.line l).bound = true → exec (.lineSet t (some (l.val, w))) s = .next (s.answers s.dev 22 t .wrongState [])) ∧
    ((s.dev.line l).bound = false → readLineRec w = none →
      exec (.lineSet t (some (l.val, w))) s = .next (s.answers s.dev 22 t .badField [])) ∧
    ∀ m f v, (s.dev.line l).bound = false → readLineRec w = some (m, f, v) →
      ∃ u : State, exec (.lineSet t (some (l.val, w))) s = .next u ∧ u.pending = s.pending ∧
        u.dev.line l = ⟨m, f, v, (s.dev.line l).pin, (s.dev.line l).pin, none,
          if isOutput m then some (u.dev.driveGiven f) else none, f == .esdIn || f == .powerfailIn⟩ ∧
        s.dev.rebindFollows u.dev f ((m == .input || m == .inputDebounced) && (s.dev.line l).pin == v) ∧
        (∀ k, k ≠ l → (u.dev.line k).mode = (s.dev.line k).mode ∧ (u.dev.line k).func = (s.dev.line k).func ∧
          (u.dev.line k).pin = (s.dev.line k).pin ∧ (u.dev.line k).level = (s.dev.line k).level ∧
          (u.dev.line k).bound = (s.dev.line k).bound) ∧
        u.dev.armRecs = s.dev.armRecs ∧ u.dev.permits = s.dev.permits ∧ u.dev.custody = s.dev.custody ∧
        u.dev.products = s.dev.products ∧ u.dev.injRecs = s.dev.injRecs ∧ u.dev.bayRecs = s.dev.bayRecs ∧
        u.dev.mp.settings = s.dev.mp.settings ∧
        u.dev.lm.stations = s.dev.lm.stations ∧ (s.dev.mp.answers ++ [⟨22#8, t, .ok, []⟩]) <+: u.dev.mp.answers) ∧
  ∀ (s : State) (t : Byte) (l : LineId) (v : Bool), s.quiet = true →
    exec (.lineDrive t (some (l.val, v))) s =
      (if isOutput (s.dev.line l).mode = true ∧ (s.dev.line l).func = .general then
        .next (s.answers (s.dev.onLine l fun x => { x with drive := some v }) 23 t .ok [])
      else .next (s.answers s.dev 23 t .wrongState []))


/-- R162, R163, R165 to R170, R123: a pin that comes to a new level: an INPUT line follows it at once, an INPUT_DEBOUNCED
line starts its debounce timer, or stops it when the level is the line's own again, and an output line records it, its level
and timer unchanged (notes/assumptions/50.md). When the debounce timer expires the line level takes the pin level and the
timer stops; a command for a stopped timer does nothing (notes/assumptions/2.md). A line level that changes is an edge,
which brings what the line's function says (HOLD_IN, GROUND_IN, OVERFILL_IN, ESD_IN, POWERFAIL_IN; CW's mode:
notes/assumptions/66.md); with function GENERAL, or without an edge, nothing else changes. -/
def Obligations.PinsAndDebounceByLine : Prop :=
  (∀ (s : State) (l : LineId) (v : Level), s.dev.settled = true → s.dev.boot ≠ .off →
    (((s.dev.line l).func = .general ∨ (s.dev.line l).mode ≠ .input ∨ (s.dev.line l).pin = v ∨ (s.dev.line l).level = v) →
      exec (.pinLevelChange l v) s = .next { s with dev :=
        if (s.dev.line l).pin = v then s.dev
        else match (s.dev.line l).mode with
          | .input => s.dev.onLine l fun x => { x with pin := v, level := v, timer := none }
          | .inputDebounced => s.dev.onLine l fun x =>
              { x with pin := v, timer := if v = x.level then none else some s.dev.mp.settings.debounce }
          | .outputPush | .outputOpen => s.dev.onLine l fun x => { x with pin := v } }) ∧
    (s.dev.boot = .ready → (s.dev.line l).mode = .input → (s.dev.line l).pin ≠ v → (s.dev.line l).level ≠ v →
      ∃ u : State, exec (.pinLevelChange l v) s = .next u ∧ u.pending = s.pending ∧
        (u.dev.line l).pin = v ∧ (u.dev.line l).level = v ∧ (u.dev.line l).timer = none ∧ s.dev.edgeFollows u.dev l ∧
        u.dev.permits = s.dev.permits ∧ u.dev.armRecs = s.dev.armRecs ∧ u.dev.custody = s.dev.custody ∧
        u.dev.lm.stations = s.dev.lm.stations)) ∧
  ∀ (s : State) (l : LineId), s.dev.settled = true →
    ((s.dev.line l).timer = none → exec (.debounceTimerExpiry l) s = .next s) ∧
    ((s.dev.line l).timer ≠ none → ((s.dev.line l).func = .general ∨ (s.dev.line l).level = (s.dev.line l).pin) →
      exec (.debounceTimerExpiry l) s =
        .next { s with dev := s.dev.onLine l fun x => { x with level := x.pin, timer := none } }) ∧
    (s.dev.boot = .ready → (s.dev.line l).timer ≠ none → (s.dev.line l).level ≠ (s.dev.line l).pin →
      ∃ u : State, exec (.debounceTimerExpiry l) s = .next u ∧ u.pending = s.pending ∧
        (u.dev.line l).pin = (s.dev.line l).pin ∧ (u.dev.line l).level = (s.dev.line l).pin ∧
        (u.dev.line l).timer = none ∧ s.dev.edgeFollows u.dev l ∧
        u.dev.permits = s.dev.permits ∧ u.dev.armRecs = s.dev.armRecs ∧ u.dev.custody = s.dev.custody ∧
        u.dev.lm.stations = s.dev.lm.stations)

/-- R165, R166: a permissive is present from a PERMIT station that is ACTIVE without station fault, or SLIPPED, with a valid
held pair that has its bit, and from an input line of its function that is active. A good return of a PERMIT station that a
bay record names is its held pair from then on; its loss makes the pair not valid, the flags kept (notes/assumptions/70.md);
and every bay's permissives follow. A return of a station that no bay record names changes nothing. -/
def Obligations.PermissivesFollowTheirSources : Prop :=
  (∀ (d : Device) (b : BayId) (n : Addr) (top : Bool), d.present b (.station n) top = true ↔
    (∃ e, (d.station n).entry = some e ∧ e.kind = .permit) ∧
    (((d.station n).state = .active ∧ ∀ w, (d.station n).word = some w → w.getLsbD 0 = false) ∨
      (d.station n).state = .slipped) ∧
    (d.pair n).valid = true ∧ (top = true → (d.pair n).overfill = true) ∧ (top = false → (d.pair n).ground = true)) ∧
  (∀ (d : Device) (b : BayId) (l : LineId) (top : Bool), d.present b (.line l) top = true ↔
    (d.line l).func = (if top then .overfillIn b else .groundIn b) ∧ (d.line l).level = (d.line l).active ∧
    ((d.line l).mode = .input ∨ (d.line l).mode = .inputDebounced)) ∧
  ∀ (d : Device) (n : Addr),
    ((∃ b r, d.bayRec b = some r ∧ (r.ground = .station n ∨ r.overfill = .station n)) →
      ∀ (g o : Bool) (e : Device), e = d.permitReturn n g o →
        e.pair n = ⟨g, o, true⟩ ∧ (∀ m, m ≠ n → e.pair m = d.pair m) ∧ d.permissivesFollow e ∧
        e.custody = d.custody ∧ e.lm.stations = d.lm.stations ∧ e.meters = d.meters) ∧
    ((∀ b r, d.bayRec b = some r → r.ground ≠ .station n ∧ r.overfill ≠ .station n) →
      ∀ g o, d.permitReturn n g o = d) ∧
    ∀ e : Device, e = d.permitLost n →
      e.pair n = { d.pair n with valid := false } ∧ (∀ m, m ≠ n → e.pair m = d.pair m) ∧ d.permissivesFollow e ∧
      e.custody = d.custody ∧ e.lm.stations = d.lm.stations ∧ e.meters = d.meters

/-- R168: ESD CLEAR with the latch clear, or with an ESD_IN line active, is WRONG_STATE; with the pending mark set it clears
the mark and leaves the latch, its RACK notice carrying the five flags with the ESD latch first (notes/assumptions/12.md),
each an octet 1 or 0 (78.md); else it clears the latch, and the cause leaves every bay's set: a TRIPPED bay with no other
cause and no lockout is HELD when a hold source is active, and LOADING when some line of its order has not ended. -/
def Obligations.EsdClearClearsMarkThenLatch : Prop :=
  ∀ (s : State) (t : Byte), s.quiet = true →
    ((s.dev.lu.esd = false ∨ s.dev.anyActive .esdIn = true) →
      exec (.esdClear t (some ())) s = .next (s.answers s.dev 13 t .wrongState [])) ∧
    (s.dev.lu.esd = true → s.dev.anyActive .esdIn = false → s.dev.lu.esdPending = true →
      exec (.esdClear t (some ())) s =
        .next (s.answers ((s.dev.onLu fun u => { u with esdPending := false }).raise .rack .rack 8
          [[1#8], [0#8], flagOctet s.dev.lu.powerfail, flagOctet s.dev.lu.mgmtHold, flagOctet s.dev.lu.holdSource]) 13 t .ok
            [])) ∧
    (s.dev.lu.esd = true → s.dev.anyActive .esdIn = false → s.dev.lu.esdPending = false →
      ∃ u : State, exec (.esdClear t (some ())) s = .next u ∧ u.pending = s.pending ∧ u.dev.lu.esd = false ∧
        (∀ b, (u.dev.bay b).causes.esd = false) ∧
        (∀ b o, (∀ y, y ≠ b → (s.dev.bay y).order ≠ (s.dev.bay b).order) →
          (s.dev.bay b).state = .tripped → (s.dev.bay b).causes = ⟨false, false, true, false, false⟩ →
          (s.dev.bay b).lockout = false → s.dev.orderOf b = some o → (∃ x ∈ o.lines, x.batch ≠ .ended) →
          (u.dev.bay b).state = (if (s.dev.bay b).holding then .held else .loading) ∧
          (u.dev.bay b).resumeTimer = none) ∧
        u.dev.permits = s.dev.permits ∧ u.dev.armRecs = s.dev.armRecs ∧ u.dev.custody = s.dev.custody)

/-- R72, R78, R79, R81, R170: RACK HOLD sets the management rack hold; when the rack hold source was not active it becomes
so for every bay: an IDLE or AUTHORIZED bay without a hold is HELD, a LOADING one HOLDING, or HELD at once when its arms are
all CLOSED. RACK RELEASE clears it; with no HOLD_IN line active the source goes with it for every bay: a bay HELD from IDLE
with no hold of its own and no swipe latched is IDLE again, one HELD from AUTHORIZED is AUTHORIZED, one HELD from LOADING is
LOADING when a line has not ended, and TRIPPED when a cause or the lockout stands; a HOLDING one with a line not ended is
LOADING; either one whose lines have all ended, with no batch open, closes its load at once (R72). While a HOLD_IN line
keeps the source active, either request changes the management rack hold alone and reports it, in a notice whose fields
leave the event to the header (notes/assumptions/12.md). Where the management rack hold does not change, nothing does but
for the answer. -/
def Obligations.RackHoldAndRelease : Prop :=
  ∀ (s : State) (t : Byte), s.quiet = true →
    (s.dev.lu.mgmtHold = true → exec (.rackHold t (some ())) s = .next (s.answers s.dev 10 t .ok [])) ∧
    (s.dev.lu.mgmtHold = false → exec (.rackRelease t (some ())) s = .next (s.answers s.dev 11 t .ok [])) ∧
    (s.dev.lu.mgmtHold = false → s.dev.lu.holdSource = false → (∀ b, (s.dev.bay b).holdRack = false) →
      ∃ u : State, exec (.rackHold t (some ())) s = .next u ∧ u.pending = s.pending ∧
        u.dev.lu.mgmtHold = true ∧ u.dev.lu.holdSource = true ∧
        (∀ b, (u.dev.bay b).holdRack = true ∧ (u.dev.bay b).holdBay = (s.dev.bay b).holdBay) ∧
        (∀ b, (s.dev.bay b).holdBay = false → (s.dev.bay b).state = .idle ∨ (s.dev.bay b).state = .authorized →
          (u.dev.bay b).state = .held ∧
          (u.dev.bay b).before = some (if (s.dev.bay b).state = .idle then .idle else .authorized)) ∧
        (∀ b, (s.dev.bay b).holdBay = false → (s.dev.bay b).state = .loading →
          (u.dev.bay b).state = (if (s.dev.armsOf b).all fun a => (s.dev.arm a).position == .closed then .held
            else .holding) ∧ (u.dev.bay b).before = some .loading ∧ (u.dev.bay b).heldDuring = true) ∧
        u.dev.orders = s.dev.orders ∧ u.dev.permits = s.dev.permits ∧ u.dev.custody = s.dev.custody) ∧
    (s.dev.lu.mgmtHold = false → s.dev.lu.holdSource = true → exec (.rackHold t (some ())) s =
      .next (s.answers ((s.dev.onLu fun u => { u with mgmtHold := true }).raise .rack .rack 12
        [flagOctet s.dev.lu.esd, flagOctet s.dev.lu.esdPending, flagOctet s.dev.lu.powerfail, [1#8], [1#8]]) 10 t .ok [])) ∧
    (s.dev.lu.mgmtHold = true → s.dev.lu.holdSource = true → s.dev.anyActive .holdIn = true →
      exec (.rackRelease t (some ())) s =
      .next (s.answers ((s.dev.onLu fun u => { u with mgmtHold := false }).raise .rack .rack 12
        [flagOctet s.dev.lu.esd, flagOctet s.dev.lu.esdPending, flagOctet s.dev.lu.powerfail, [0#8], [1#8]]) 11 t .ok [])) ∧
    (s.dev.lu.mgmtHold = true → s.dev.lu.holdSource = true → s.dev.anyActive .holdIn = false →
      ∃ u : State, exec (.rackRelease t (some ())) s = .next u ∧ u.pending = s.pending ∧
        u.dev.lu.mgmtHold = false ∧ u.dev.lu.holdSource = false ∧
        (∀ b, (u.dev.bay b).holdRack = false ∧ (u.dev.bay b).holdBay = (s.dev.bay b).holdBay) ∧
        (∀ b, (s.dev.bay b).holdRack = true → (s.dev.bay b).holdBay = false → (s.dev.bay b).state = .held →
          (s.dev.bay b).before = some .idle → (s.dev.bay b).swipe = none → (u.dev.bay b).state = .idle) ∧
        (∀ b, (s.dev.bay b).holdRack = true → (s.dev.bay b).holdBay = false → (s.dev.bay b).state = .held →
          (s.dev.bay b).before = some .authorized → (u.dev.bay b).state = .authorized) ∧
        (∀ b o, (s.dev.bay b).holdRack = true → (s.dev.bay b).holdBay = false → (s.dev.bay b).state = .held →
          (s.dev.bay b).before = some .loading → s.dev.orderOf b = some o →
          (∀ y, y ≠ b → (s.dev.bay y).order ≠ (s.dev.bay b).order) →
          (u.dev.bay b).before = none ∧
          (((s.dev.bay b).causes ≠ CauseSet.empty ∨ (s.dev.bay b).lockout = true) → (u.dev.bay b).state = .tripped ∧
            (u.dev.bay b).resumeTimer =
              (if (s.dev.bay b).lockout then none else some (s.dev.mp.settings.resumeWindow * 1000))) ∧
          ((s.dev.bay b).causes = CauseSet.empty → (s.dev.bay b).lockout = false → (∃ x ∈ o.lines, x.batch ≠ .ended) →
            (u.dev.bay b).state = .loading)) ∧
        (∀ b o, (s.dev.bay b).holdRack = true → (s.dev.bay b).holdBay = false →
          ((s.dev.bay b).state = .holding ∨ ((s.dev.bay b).state = .held ∧ (s.dev.bay b).before = some .loading ∧
            (s.dev.bay b).causes = CauseSet.empty ∧ (s.dev.bay b).lockout = false)) →
          s.dev.orderOf b = some o → (∀ y, y ≠ b → (s.dev.bay y).order ≠ (s.dev.bay b).order) →
          ((∃ x ∈ o.lines, x.batch ≠ .ended) → (u.dev.bay b).state = .loading ∧ (u.dev.bay b).before = none) ∧
          ((∀ x ∈ o.lines, x.batch = .ended) → s.dev.noBatch b = true →
            (u.dev.bay b).state = (if s.dev.outstandingShots b = 0 then .noteCommit else .closing) ∧
            (u.dev.bay b).before = none ∧ (u.dev.bay b).causes = CauseSet.empty)) ∧
        u.dev.permits = s.dev.permits ∧ u.dev.custody = s.dev.custody)

/-! ### Bays -/

/-- R66: BAY OPEN of a CLOSED bay with a record makes it IDLE, or HELD when a hold source is active; otherwise it is
WRONG_STATE. BAY CLOSE of a bay IDLE, or HELD from IDLE, makes it CLOSED; of one AUTHORIZED, or HELD from AUTHORIZED, it
withdraws the authorization and makes it CLOSED, and CW, when it is free to, takes up the barrier of a stalled commit that
got the bay's slot (R135); with no commit stalled there is none. BAY CLOSE of a CLOSED bay does nothing; while a load is on
the bay it is WRONG_STATE. -/
def Obligations.BayOpenAndClose : Prop :=
  ∀ (s : State) (t : Byte) (b : BayId), s.quiet = true →
    (((s.dev.bay b).state ≠ .closed ∨ s.dev.bayRec b = none) →
      exec (.bayOpen t (some b.val)) s = .next (s.answers s.dev 6 t .wrongState [])) ∧
    ((s.dev.bay b).state = .closed → (s.dev.bayRec b).isSome = true → (s.dev.bay b).holding = false →
      exec (.bayOpen t (some b.val)) s =
        .next (s.answers ((s.dev.onBay b fun r => { r with state := .idle, message := none }).bayNotice b 1 []) 6 t .ok
          [])) ∧
    ((s.dev.bay b).state = .closed → (s.dev.bayRec b).isSome = true → (s.dev.bay b).holding = true →
      ∃ u : State, exec (.bayOpen t (some b.val)) s = .next u ∧ u.pending = s.pending ∧
        u.dev.bay b = { s.dev.bay b with state := .held, message := none, before := some .idle } ∧
        (∀ x, x ≠ b → u.dev.bay x = s.dev.bay x) ∧ u.dev.orders = s.dev.orders ∧ u.dev.custody = s.dev.custody ∧
        u.dev.mp.answers = s.dev.mp.answers ++ [⟨6#8, t, .ok, []⟩]) ∧
    ((s.dev.bay b).state = .closed → exec (.bayClose t (some b.val)) s = .next (s.answers s.dev 7 t .ok [])) ∧
    (((s.dev.bay b).state = .idle ∨ ((s.dev.bay b).state = .held ∧ (s.dev.bay b).before = some .idle)) →
      exec (.bayClose t (some b.val)) s =
      .next (s.answers ((s.dev.onBay b fun r =>
        { r with state := .closed, message := none, before := none, swipe := none }).bayNotice b 1 []) 7 t .ok [])) ∧
    (((s.dev.bay b).state = .authorized ∨ ((s.dev.bay b).state = .held ∧ (s.dev.bay b).before = some .authorized)) →
      exec (.bayClose t (some b.val)) s = .next (s.answers (s.dev.withdraw b .bayClose).cwStart 7 t .ok []) ∧
      (s.dev.firstStalled = none →
        exec (.bayClose t (some b.val)) s = .next (s.answers (s.dev.withdraw b .bayClose) 7 t .ok []))) ∧
    (((s.dev.bay b).state ∈ [.loading, .holding, .tripped, .closing, .noteCommit] ∨
        ((s.dev.bay b).state = .held ∧ (s.dev.bay b).before = some .loading)) →
      exec (.bayClose t (some b.val)) s = .next (s.answers s.dev 7 t .wrongState []))

/-- R68, R72, R78 to R81: BAY HOLD sets the bay's hold source. With no other hold: an IDLE or AUTHORIZED bay is HELD, the
authorization timer suspended; a LOADING one is HOLDING, or HELD at once with its arms all CLOSED, and every flowing batch
is INTERRUPTED; in any other state the hold is recorded. BAY RELEASE clears it. With no other hold: a bay HELD from IDLE
is IDLE and a latched swipe is evaluated there, one HELD from AUTHORIZED is AUTHORIZED and its timer runs on, one HELD
from LOADING is LOADING when a line has not ended, and TRIPPED when a cause or the lockout stands; a HOLDING one with a
line not ended is LOADING; either one whose lines have all ended, with no batch open, closes its load at once (R72); a
TRIPPED one loses its state before hold; elsewhere the release is recorded. With the rack hold active the bay's own source
alone changes. Where the source does not change, nothing does but for the answer. -/
def Obligations.BayHoldAndRelease : Prop :=
  ∀ (s : State) (t : Byte) (b : BayId), s.quiet = true →
    ((s.dev.bay b).holdBay = true → exec (.bayHold t (some b.val)) s = .next (s.answers s.dev 8 t .ok [])) ∧
    ((s.dev.bay b).holdBay = false → exec (.bayRelease t (some b.val)) s = .next (s.answers s.dev 9 t .ok [])) ∧
    ((s.dev.bay b).holdBay = false → (s.dev.bay b).holdRack = false → (s.dev.bay b).state = .idle →
      exec (.bayHold t (some b.val)) s =
        .next (s.answers ((s.dev.onBay b fun r =>
          { r with state := .held, message := none, holdBay := true, before := some .idle }).bayNotice b 12 []) 8 t .ok
            [])) ∧
    ((s.dev.bay b).holdBay = false → (s.dev.bay b).holdRack = false → (s.dev.bay b).state = .loading →
      (∃ a ∈ s.dev.armsOf b, (s.dev.arm a).position ≠ .closed) →
      ∃ u : State, exec (.bayHold t (some b.val)) s = .next u ∧ u.pending = s.pending ∧
        (u.dev.bay b).state = .holding ∧ (u.dev.bay b).holdBay = true ∧ (u.dev.bay b).heldDuring = true ∧
        (∀ a x, a ∈ s.dev.armsOf b → (s.dev.arm a).batch = some x → x.phase.flowing = true →
          (u.dev.arm a).batch = some { x with phase := .interrupted }) ∧
        (∀ x, x ≠ b → u.dev.bay x = s.dev.bay x) ∧ u.dev.custody = s.dev.custody ∧ u.dev.orders = s.dev.orders) ∧
    ((s.dev.bay b).holdBay = true → (s.dev.bay b).holdRack = false → (s.dev.bay b).state = .held →
      (s.dev.bay b).before = some .idle → (s.dev.bay b).swipe = none →
      exec (.bayRelease t (some b.val)) s =
        .next (s.answers ((s.dev.onBay b fun r =>
          { r with state := .idle, message := none, holdBay := false, before := none }).bayNotice b 13 []) 9 t .ok [])) ∧
    (∀ o, (s.dev.bay b).holdBay = true → (s.dev.bay b).holdRack = false → (s.dev.bay b).state = .holding →
      s.dev.orderOf b = some o → (∃ x ∈ o.lines, x.batch ≠ .ended) →
      ∃ u : State, exec (.bayRelease t (some b.val)) s = .next u ∧ u.pending = s.pending ∧
        (u.dev.bay b).state = .loading ∧ (u.dev.bay b).holdBay = false ∧ (u.dev.bay b).before = none ∧
        (∀ x, x ≠ b → u.dev.bay x = s.dev.bay x) ∧ u.dev.custody = s.dev.custody ∧ u.dev.orders = s.dev.orders) ∧
    ((s.dev.bay b).holdBay = false → (s.dev.bay b).holdRack = false → (s.dev.bay b).state = .authorized →
      exec (.bayHold t (some b.val)) s =
        .next (s.answers ((s.dev.onBay b fun r =>
          { r with
            state := .held, message := none, holdBay := true, before := some .authorized, heldDuring := true
            authTimer := (match r.authTimer with
              | .running n => .suspended n
              | x => x) }).bayNotice b 12 []) 8 t .ok [])) ∧
    ((s.dev.bay b).holdBay = false → (s.dev.bay b).holdRack = false → (s.dev.bay b).state = .loading →
      (∀ a ∈ s.dev.armsOf b, (s.dev.arm a).position = .closed) →
      ∃ u : State, exec (.bayHold t (some b.val)) s = .next u ∧ u.pending = s.pending ∧
        (u.dev.bay b).state = .held ∧ (u.dev.bay b).before = some .loading ∧ (u.dev.bay b).holdBay = true ∧
        (u.dev.bay b).heldDuring = true ∧
        (∀ a x, a ∈ s.dev.armsOf b → (s.dev.arm a).batch = some x → x.phase.flowing = true →
          (u.dev.arm a).batch = some { x with phase := .interrupted }) ∧
        (∀ x, x ≠ b → u.dev.bay x = s.dev.bay x) ∧ u.dev.custody = s.dev.custody ∧ u.dev.orders = s.dev.orders) ∧
    ((s.dev.bay b).holdBay = false →
      ((s.dev.bay b).holdRack = true ∨
        (s.dev.bay b).state ∈ [.closed, .holding, .held, .tripped, .closing, .noteCommit]) →
      exec (.bayHold t (some b.val)) s =
        .next (s.answers ((s.dev.onBay b fun r => { r with holdBay := true }).bayNotice b 11 []) 8 t .ok [])) ∧
    ((s.dev.bay b).holdBay = true → (s.dev.bay b).holdRack = true → exec (.bayRelease t (some b.val)) s =
      .next (s.answers ((s.dev.onBay b fun r => { r with holdBay := false }).bayNotice b 11 []) 9 t .ok [])) ∧
    ((s.dev.bay b).holdBay = true → (s.dev.bay b).holdRack = false →
      ((s.dev.bay b).state ∈ [.closed, .idle, .authorized, .loading, .closing, .noteCommit] →
        exec (.bayRelease t (some b.val)) s =
          .next (s.answers ((s.dev.onBay b fun r => { r with holdBay := false }).bayNotice b 13 []) 9 t .ok [])) ∧
      ((s.dev.bay b).state = .tripped → exec (.bayRelease t (some b.val)) s =
        .next (s.answers ((s.dev.onBay b fun r => { r with holdBay := false, before := none }).bayNotice b 13 []) 9 t .ok
          []))) ∧
    ((s.dev.bay b).holdBay = true → (s.dev.bay b).holdRack = false → (s.dev.bay b).state = .held →
      ((s.dev.bay b).before = some .authorized → exec (.bayRelease t (some b.val)) s =
        .next (s.answers ((s.dev.onBay b fun r =>
          { r with
            state := .authorized, message := none, holdBay := false, before := none, swipe := none
            authTimer := (match r.authTimer with
              | .suspended n => .running n
              | x => x) }).bayNotice b 13 []) 9 t .ok [])) ∧
      (∀ cred, (s.dev.bay b).before = some .idle → (s.dev.bay b).swipe = some cred →
        ∃ u : State, exec (.bayRelease t (some b.val)) s = .next u ∧ u.pending = s.pending ∧
          (u.dev.bay b).holdBay = false ∧ (u.dev.bay b).before = none ∧ (u.dev.bay b).swipe = none ∧
          (∀ c, s.dev.evaluateSwipe b cred = .refused c →
            (u.dev.bay b).state = .idle ∧ (u.dev.bay b).message = some c ∧ u.dev.orders = s.dev.orders) ∧
          (∀ o p, s.dev.evaluateSwipe b cred = .assigned o p →
            (u.dev.bay b).state = .authorized ∧ (u.dev.bay b).order = some o.number) ∧
          (∀ x, x ≠ b → u.dev.bay x = s.dev.bay x) ∧ u.dev.custody = s.dev.custody) ∧
      ((s.dev.bay b).before = some .loading →
        (((s.dev.bay b).causes ≠ CauseSet.empty ∨ (s.dev.bay b).lockout = true) →
          ∃ u : State, exec (.bayRelease t (some b.val)) s = .next u ∧ u.pending = s.pending ∧
            (u.dev.bay b).state = .tripped ∧ (u.dev.bay b).holdBay = false ∧ (u.dev.bay b).before = none ∧
            (u.dev.bay b).swipe = none ∧ (u.dev.bay b).causes = (s.dev.bay b).causes ∧
            (u.dev.bay b).resumeTimer =
              (if (s.dev.bay b).lockout then none else some (s.dev.mp.settings.resumeWindow * 1000)) ∧
            (∀ x, x ≠ b → u.dev.bay x = s.dev.bay x) ∧ u.dev.custody = s.dev.custody ∧ u.dev.orders = s.dev.orders) ∧
        (∀ o, (s.dev.bay b).causes = CauseSet.empty → (s.dev.bay b).lockout = false → s.dev.orderOf b = some o →
          (∃ x ∈ o.lines, x.batch ≠ .ended) →
          ∃ u : State, exec (.bayRelease t (some b.val)) s = .next u ∧ u.pending = s.pending ∧
            (u.dev.bay b).state = .loading ∧ (u.dev.bay b).holdBay = false ∧ (u.dev.bay b).before = none ∧
            (u.dev.bay b).swipe = none ∧ (∀ a, (u.dev.arm a).batch = (s.dev.arm a).batch) ∧
            (∀ x, x ≠ b → u.dev.bay x = s.dev.bay x) ∧ u.dev.custody = s.dev.custody ∧ u.dev.orders = s.dev.orders))) ∧
    ∀ o, (s.dev.bay b).holdBay = true → (s.dev.bay b).holdRack = false →
      ((s.dev.bay b).state = .holding ∨ ((s.dev.bay b).state = .held ∧ (s.dev.bay b).before = some .loading ∧
        (s.dev.bay b).causes = CauseSet.empty ∧ (s.dev.bay b).lockout = false)) →
      s.dev.orderOf b = some o → (∀ x ∈ o.lines, x.batch = .ended) → s.dev.noBatch b = true →
      ∃ u : State, exec (.bayRelease t (some b.val)) s = .next u ∧ u.pending = s.pending ∧
        (u.dev.bay b).state = (if s.dev.outstandingShots b = 0 then .noteCommit else .closing) ∧
        (u.dev.bay b).holdBay = false ∧ (u.dev.bay b).before = none ∧ (u.dev.bay b).swipe = none ∧
        (u.dev.bay b).causes = CauseSet.empty ∧ (∀ y, y ≠ b → (u.dev.bay y).state = (s.dev.bay y).state) ∧
        u.dev.custody = s.dev.custody


/-- R70: LOAD FINISH of a bay AUTHORIZED, or HELD from AUTHORIZED, withdraws the authorization, and CW, when it is free to,
takes up the barrier of a stalled commit that got the bay's slot (R135); of a bay LOADING, HOLDING, HELD from LOADING, or
TRIPPED without the lockout, it closes the load; of a TRIPPED bay with the overfill lockout set, and of a bay with no load
to finish, it is WRONG_STATE. R76: TRIP CLEAR of a TRIPPED bay with the overfill lockout set clears the lockout and closes
the load; otherwise it is WRONG_STATE. R34, R82, R83: a load closed empties the cause set and stops the timers; every
INTERRUPTED batch ends SHORT, a flowing one is stopped, one in CLOSE_WAIT stays. With a batch then open, or a shot in flight
or on offer, the bay is CLOSING; with none it is in NOTE_COMMIT, and after a TRIP CLEAR with its slot and its order there
the note's barrier is queued. -/
def Obligations.LoadFinishAndTripClear : Prop :=
  (∀ (s : State) (t : Byte) (b : BayId), s.quiet = true →
    (((s.dev.bay b).state ∈ [.closed, .idle, .closing, .noteCommit] ∨
        ((s.dev.bay b).state = .held ∧ (s.dev.bay b).before = some .idle) ∨
        ((s.dev.bay b).state = .tripped ∧ (s.dev.bay b).lockout = true)) →
      exec (.loadFinish t (some b.val)) s = .next (s.answers s.dev 12 t .wrongState [])) ∧
    (((s.dev.bay b).state = .authorized ∨ ((s.dev.bay b).state = .held ∧ (s.dev.bay b).before = some .authorized)) →
      exec (.loadFinish t (some b.val)) s = .next (s.answers (s.dev.withdraw b .loadFinish).cwStart 12 t .ok []) ∧
      (s.dev.firstStalled = none →
        exec (.loadFinish t (some b.val)) s = .next (s.answers (s.dev.withdraw b .loadFinish) 12 t .ok []))) ∧
    (((s.dev.bay b).state ∈ [.loading, .holding] ∨
        ((s.dev.bay b).state = .held ∧ (s.dev.bay b).before = some .loading) ∨
        ((s.dev.bay b).state = .tripped ∧ (s.dev.bay b).lockout = false)) →
      ∃ u : State, exec (.loadFinish t (some b.val)) s = .next u ∧ u.pending = s.pending ∧ s.dev.loadCloses u.dev b ∧
        (u.dev.bay b).lockout = (s.dev.bay b).lockout ∧ u.dev.custody = s.dev.custody ∧
        u.dev.mp.answers = s.dev.mp.answers ++ [⟨12#8, t, .ok, []⟩]) ∧
    ∀ a x, (s.dev.bay b).state = .loading → a ∈ s.dev.armsOf b → (s.dev.arm a).batch = some x → x.phase = .closeWait →
      ∃ u : State, exec (.loadFinish t (some b.val)) s = .next u ∧ u.pending = s.pending ∧
        (u.dev.bay b).state = .closing ∧ (u.dev.bay b).causes = CauseSet.empty ∧ (u.dev.bay b).before = none ∧
        (u.dev.bay b).resumeTimer = none ∧ (u.dev.arm a).batch = some x ∧
        (∀ y, y ≠ b → (u.dev.bay y).state = (s.dev.bay y).state) ∧ u.dev.custody = s.dev.custody ∧
        u.dev.mp.answers = s.dev.mp.answers ++ [⟨12#8, t, .ok, []⟩]) ∧
  ∀ (s : State) (t : Byte) (b : BayId), s.quiet = true →
    (((s.dev.bay b).state ≠ .tripped ∨ (s.dev.bay b).lockout = false) →
      exec (.tripClear t (some b.val)) s = .next (s.answers s.dev 14 t .wrongState [])) ∧
    ((s.dev.bay b).state = .tripped → (s.dev.bay b).lockout = true →
      ∃ u : State, exec (.tripClear t (some b.val)) s = .next u ∧ u.pending = s.pending ∧ s.dev.loadCloses u.dev b ∧
        (u.dev.bay b).lockout = false ∧ (u.dev.bay b).trips = (s.dev.bay b).trips ∧
        (u.dev.bay b).lockoutDuring = (s.dev.bay b).lockoutDuring ∧ u.dev.custody = s.dev.custody ∧
        u.dev.mp.answers = s.dev.mp.answers ++ [⟨14#8, t, .ok, []⟩]) ∧
    ∀ o k, (s.dev.bay b).state = .tripped → (s.dev.bay b).lockout = true → s.dev.noBatch b = true →
      s.dev.outstandingShots b = 0 → s.dev.orderOf b = some o → s.dev.reservedSlot b = some k →
      ∃ u : State, exec (.tripClear t (some b.val)) s = .next u ∧ u.pending = s.pending ∧
        (u.dev.bay b).state = .noteCommit ∧ (u.dev.bay b).lockout = false ∧ (u.dev.bay b).causes = CauseSet.empty ∧
        (∃ i, (u.dev.noteBay b).held = some i ∧ i.order = o.number ∧ i.bay = b ∧
          i.lines.length = (s.dev.bay b).ended.length ∧
          ∃ e ∈ u.dev.cw.queue, ∃ x, e.body = .barrier x ∧ x.bay = b ∧ x.slot = k ∧ x.image = i) ∧
        (∀ y, y ≠ b → u.dev.bay y = s.dev.bay y) ∧ u.dev.custody = s.dev.custody ∧ u.dev.slot k = s.dev.slot k

/-! ### Bids -/

/-- R99 to R101, Table 5-6: the tests of a swipe in their order, each with its refusal code: NOCLOCK, RACK_ESD, NO_PERMIT
(for credential 0 too), SUSPENDED, EXPIRED, BAY_BARRED, NO_ORDER, CLASS, ACCOUNT_STOPPED, ALLOCATION, NOTE_STORE_FULL; and
only an order that passes them all is assigned. The order is the oldest QUEUED one, nearest the head of the queue, that
names the driver and is not passed over, and without one the oldest open to any driver; an order is passed over when it has
expired, or a line's product has no entry or is carried by no in-service arm of the bay.
R67, R102, R127: an assignment makes the order ASSIGNED to the bay with the permit's credential and driver, reserves every
line's preset on its account, takes the lowest FREE slot for the bay, and makes the IDLE bay AUTHORIZED with its timer
running and the records of the last load gone. A refusal shows its code and reports it with the credential in a BAY notice
(notes/assumptions/9.md, 12.md). R81, R85: in HELD the swipe is latched; a CLOSED bay ignores it, and in any other state it
clears the message. -/
def Obligations.SwipePassesEveryTest : Prop :=
  (∀ (d : Device) (b : BayId) (cred : Nat) (o : Order) (p : Permit), d.evaluateSwipe b cred = .assigned o p →
    d.mp.clock ≠ none ∧ d.lu.esd = false ∧ cred ≠ 0 ∧ (∃ i, (i, p) ∈ d.permits) ∧ p.credential = cred ∧ p.state = .valid ∧
    d.time.day ≤ p.expiry ∧ p.bays.getLsbD b.val = true ∧
    o ∈ d.orders ∧ o.state = .queued ∧ (o.credential = cred ∨ o.credential = 0) ∧
    (o.credential ≠ cred → ∀ x ∈ d.orders, x.state = .queued → x.credential = cred → d.passedOver b x = true) ∧
    (∀ e, o.expiry = some e → d.time.day ≤ e) ∧
    (∀ l ∈ o.lines, (∃ i r, d.productOf l.product = some (i, r) ∧ r.classes &&& p.classes = r.classes) ∧
      ∃ a r, d.armRec a = some r ∧ r.bay = b ∧ r.inService = true ∧ r.product = l.product) ∧
    (∃ x, Sparse.get o.account d.accounts = some x ∧ x.state = .opened ∧
      (x.enforcement = true → ∀ l ∈ o.lines, ∀ i r, d.productOf l.product = some (i, r) →
        ((d.presetsOn o i : Nat) : Int) ≤ Bank.read x.remaining i - ((Bank.read x.reserved i : Nat) : Int))) ∧
    ∃ k, d.slot k = .free) ∧
  (∀ (d : Device) (b : BayId) (o : Order), d.passedOver b o = true ↔ (∃ e, o.expiry = some e ∧ e < d.time.day) ∨
    ∃ l ∈ o.lines, d.productOf l.product = none ∨
      ∀ a r, d.armRec a = some r → r.bay = b → r.inService = true → r.product ≠ l.product) ∧
  (∀ (d : Device) (b : BayId) (cred : Nat),
    (d.mp.clock = none → d.evaluateSwipe b cred = .refused .noClock) ∧
    (d.mp.clock ≠ none → d.lu.esd = true → d.evaluateSwipe b cred = .refused .rackEsd) ∧
    (d.mp.clock ≠ none → d.lu.esd = false → (cred = 0 ∨ ∀ e ∈ d.permits, e.2.credential ≠ cred) →
      d.evaluateSwipe b cred = .refused .noPermit) ∧
    ∀ i p, d.mp.clock ≠ none → d.lu.esd = false → cred ≠ 0 → (i, p) ∈ d.permits → p.credential = cred →
      (∀ e ∈ d.permits, e.2.credential = cred → e.2 = p) →
      (p.state = .suspended → d.evaluateSwipe b cred = .refused .suspended) ∧
      (p.state = .valid → p.expiry < d.time.day → d.evaluateSwipe b cred = .refused .expired) ∧
      (p.state = .valid → d.time.day ≤ p.expiry → p.bays.getLsbD b.val = false →
        d.evaluateSwipe b cred = .refused .bayBarred) ∧
      (p.state = .valid → d.time.day ≤ p.expiry → p.bays.getLsbD b.val = true →
        ((∀ o ∈ d.orders, ¬ d.fits b cred o ∧ ¬ d.fits b 0 o) → d.evaluateSwipe b cred = .refused .noOrder) ∧
        ∀ o, (d.oldest b cred o ∨ ((∀ x ∈ d.orders, ¬ d.fits b cred x) ∧ d.oldest b 0 o)) →
          ((∃ l ∈ o.lines, ∃ j r, d.productOf l.product = some (j, r) ∧ r.classes &&& p.classes ≠ r.classes) →
            d.evaluateSwipe b cred = .refused .class) ∧
          ((∀ l ∈ o.lines, ∀ j r, d.productOf l.product = some (j, r) → r.classes &&& p.classes = r.classes) →
            ((∀ x, Sparse.get o.account d.accounts = some x → x.state = .stopped) →
              d.evaluateSwipe b cred = .refused .accountStopped) ∧
            ∀ x, Sparse.get o.account d.accounts = some x → x.state = .opened →
              ((x.enforcement = true ∧ ∃ l ∈ o.lines, ∃ j r, d.productOf l.product = some (j, r) ∧
                  Bank.read x.remaining j - ((Bank.read x.reserved j : Nat) : Int) < ((d.presetsOn o j : Nat) : Int)) →
                d.evaluateSwipe b cred = .refused .allocation) ∧
              ((x.enforcement = true → ∀ l ∈ o.lines, ∀ j r, d.productOf l.product = some (j, r) →
                  ((d.presetsOn o j : Nat) : Int) ≤ Bank.read x.remaining j - ((Bank.read x.reserved j : Nat) : Int)) →
                ((∀ k, d.slot k ≠ .free) → d.evaluateSwipe b cred = .refused .noteStoreFull) ∧
                ((∃ k, d.slot k = .free) → d.evaluateSwipe b cred = .assigned o p))))) ∧
  ∀ (d : Device) (b : BayId) (cred : Nat),
    ((d.bay b).state = .closed → d.swipeBid b cred = d) ∧
    ((d.bay b).state = .held → d.swipeBid b cred = d.onBay b fun r => { r with message := some .hold, swipe := some cred }) ∧
    ((d.bay b).state ∈ [.authorized, .loading, .holding, .tripped, .closing, .noteCommit] →
      d.swipeBid b cred = d.onBay b fun r => { r with message := none }) ∧
    (∀ c, (d.bay b).state = .idle → d.evaluateSwipe b cred = .refused c →
      d.swipeBid b cred =
        (d.onBay b fun r => { r with message := some c }).bayNotice b 3 [octets 1 c.code, octets 4 cred]) ∧
    ∀ (o : Order) (p : Permit) (e : Device), (d.bay b).state = .idle → d.evaluateSwipe b cred = .assigned o p →
      d.orderNumbered o.number = some o → e = d.swipeBid b cred →
      e.bay b = { d.bay b with
        state := .authorized, message := none, order := some o.number, trips := 0, lockout := false, seen := .empty
        heldDuring := false, lockoutDuring := false, authTimer := .running (d.mp.settings.authTimeout * 1000) } ∧
      (∀ x, x ≠ b → e.bay x = d.bay x) ∧
      e.orderNumbered o.number = some { o with
        state := .assigned, assignment := some ⟨b, p.credential, p.driver⟩
        lines := o.lines.map fun l => { l with reservation := (d.productOf l.product).map Prod.fst } } ∧
      e.orders.map Order.number = d.orders.map Order.number ∧
      (∀ n, n ≠ o.number → e.orderNumbered n = d.orderNumbered n) ∧
      (d.tablesWf = true →
        (∀ x, Sparse.get o.account d.accounts = some x → ∃ y, Sparse.get o.account e.accounts = some y ∧
          y.number = x.number ∧ y.remaining = x.remaining ∧
          ∀ i, Bank.read y.reserved i = Bank.read x.reserved i + d.presetsOn o i) ∧
        ∀ i, i ≠ o.account → Sparse.get i e.accounts = Sparse.get i d.accounts) ∧
      (∃ k, d.slot k = .free ∧ (∀ j, j < k → d.slot j ≠ .free) ∧ e.slot k = .reserved b false ∧
        ∀ j, j ≠ k → e.slot j = d.slot j) ∧
      (∃ x ∈ e.mp.notices, x.obj = .bay b ∧ x.event = 2) ∧
      e.custody = d.custody ∧ e.cw = d.cw ∧ e.arms = d.arms ∧ e.meters = d.meters ∧ e.injs = d.injs ∧
      e.permits = d.permits ∧ e.lm = d.lm


/-- R25 to R27, R45, R60, R69, Tables 2-2, 2-3, 3-3: a START by the bay's state: a bay LOADING or AUTHORIZED forwards it to
the arm. There it is refused with its reason shown and reported, the arm and the reason as the notice's fields
(notes/assumptions/12.md); or it opens a batch on the chosen line, at the arm's running totals, with a dosing record for
each recipe line, and an AUTHORIZED bay becomes LOADING with its order; or it takes an INTERRUPTED batch back to START with
its snapshot and close marks gone. A new batch, and a resume by its column, is refused with the first reason of Table 2-3
that holds, and with none when none holds; the reasons travel as 20 to 27, and NO_ORDER of a BAY notice as 15
(notes/assumptions/9.md). A recipe line is served by the channel the arm's map gives its code, when that injector has the
code, is AVAILABLE and its station usable. Any other bay state shows its message, and a CLOSED bay ignores the bid. -/
def Obligations.StartBids : Prop :=
  ∀ (d : Device) (b : BayId) (a : ArmId),
    ((d.bay b).state = .closed → d.startBid b a = d) ∧
    ((d.bay b).state ≠ .closed → d.bayOfArm a ≠ some b →
      d.startBid b a = d.onBay b fun r => { r with message := some .armNotReady }) ∧
    (d.bayOfArm a = some b →
      ((d.bay b).state = .idle → d.startBid b a =
        (d.onBay b fun r => { r with message := some .noOrder }).bayNotice b 4 [octets 1 15]) ∧
      ((d.bay b).state ∈ [.holding, .held] → d.startBid b a = d.onBay b fun r => { r with message := some .hold }) ∧
      ((d.bay b).state = .tripped → d.startBid b a =
        d.onBay b fun r => { r with message := some (if r.lockout then .lockout else .trip) }) ∧
      ((d.bay b).state ∈ [.closing, .noteCommit] → d.startBid b a = d.onBay b fun r => { r with message := none })) ∧
    (d.bayOfArm a = some b → (d.bay b).state ∈ [.authorized, .loading] →
      (∀ t, (d.arm a).batch = some t → t.phase ≠ .interrupted →
        d.startBid b a = d.onBay b fun r => { r with message := none }) ∧
      (∀ c, (((d.arm a).batch = none ∧ d.newRefusal b a = some c) ∨
          ∃ t, (d.arm a).batch = some t ∧ t.phase = .interrupted ∧ d.resumeRefusal b a t = some c) →
        d.startBid b a = (d.onBay b fun r => { r with message := some c }).raise .arm (.arm a) 1
          [octets 1 a.val, octets 1 c.code]) ∧
      (∀ t e, (d.arm a).batch = some t → t.phase = .interrupted → d.resumeRefusal b a t = none → e = d.startBid b a →
        e.arm a = { d.arm a with batch := some { t with
          phase := .start, snapshot := none, dosing := t.dosing.map fun x => { x with closeMark := false } } } ∧
        e.bay b = { d.bay b with message := none } ∧ (∀ x, x ≠ a → e.arm x = d.arm x) ∧
        (∀ x, x ≠ b → e.bay x = d.bay x) ∧ e.orders = d.orders ∧ e.injs = d.injs ∧ e.meters = d.meters ∧
        e.cw = d.cw ∧ e.custody = d.custody) ∧
      ∀ r k l i p e, (d.arm a).batch = none → d.newRefusal b a = none → d.armRec a = some r →
        d.chooseLine b r.product = some (k, l) → d.productOf r.product = some (i, p) → e = d.startBid b a →
        (∃ t, e.arm a = { d.arm a with batch := some t, zeroFlow := 0 } ∧ t.arm = a ∧ t.line = k ∧
          t.compartment = l.compartment ∧ t.product = l.product ∧ t.preset = l.preset ∧ t.basis = l.basis.getD p.basis ∧
          t.startVol = p.startVol ∧ t.taperVol = p.taperVol ∧ t.overrun = p.overrun ∧ t.phase = .start ∧
          t.delivered = ⟨0, 0⟩ ∧ t.opening = (d.meter a).mirror ∧ t.closing = none ∧ t.snapshot = none ∧
          t.startTime = d.time ∧ t.endStatus = none ∧ t.throttle = false ∧ t.dosing.length = p.recipe.length ∧
          t.flags = { BatchFlags.none with additiveSkipped := t.dosing.any fun x => !x.dosed } ∧
          ∀ (j : Nat) (y : RecipeLine), p.recipe[j]? = some y → ∃ x : Dosing, t.dosing[j]? = some x ∧
            x.recipe = j ∧ x.code = y.code ∧ x.dose = y.dose ∧
            x.action = y.action ∧ x.injector = d.servedBy a y.code ∧ x.dosed = (d.servedBy a y.code).isSome ∧
            x.pending = 0 ∧ x.closeMark = false ∧
            ∀ c q, d.servedBy a y.code = some c → d.injRec c = some q → x.acc = q.shot * 100000000 / 2) ∧
        e.bay b = { d.bay b with
          state := .loading, message := none
          authTimer := if (d.bay b).state = .authorized then .stopped else (d.bay b).authTimer } ∧
        (∀ o, d.orderOf b = some o → e.orderOf b = some { o with
          state := if (d.bay b).state = .authorized then .loading else o.state
          lines := o.lines.modify k fun x => { x with batch := .opened } }) ∧
        (∀ x, x ≠ a → e.arm x = d.arm x) ∧ (∀ x, x ≠ b → e.bay x = d.bay x) ∧ e.accounts = d.accounts ∧
        e.injs = d.injs ∧ e.meters = d.meters ∧ e.cw = d.cw ∧ e.custody = d.custody) ∧
    (d.newRefusal b a = none →
      d.lu.esd = false ∧ d.lu.powerfail = false ∧ (d.bay b).ground = true ∧ (d.bay b).overfill = true ∧
      d.sealOpenAt a = false ∧ (d.arm a).totFault = false ∧ (d.arm a).coupler = .latched ∧ (d.arm a).position = .closed ∧
      ∃ r, d.armRec a = some r ∧ r.inService = true ∧ 2 ≤ r.curve.length ∧ d.usable r.meter .meter = true ∧
        d.usable r.valve .valve = true ∧ (r.temp ≠ 0 → d.usable r.temp .temp = true) ∧
        (∃ k l, d.chooseLine b r.product = some (k, l) ∧ l.batch = .notBatched ∧ l.product = r.product) ∧
        ∃ i p, d.productOf r.product = some (i, p) ∧
          ∀ x ∈ p.recipe, x.action = .stop → (d.servedBy a x.code).isSome = true) ∧
    d.firstReason b a none (d.newRefusal b a) ∧ (∀ t, d.firstReason b a (some t) (d.resumeRefusal b a t)) ∧
    (∀ code c, d.servedBy a code = some c ↔ ∃ r j, d.armRec a = some r ∧
      r.additiveMap.find? (fun e => e.1 == code) = some (code, c) ∧ d.injRec c = some j ∧ j.code = code ∧
      (d.inj c).state = .available ∧ d.usable j.station .injector = true) ∧
    startReasons.map Display.code = [20, 21, 22, 23, 24, 25, 26, 27]


/-- R30, R58, R70, R155 to R157: a STOP in LOADING at an arm of the bay takes its flowing batch to CLOSE_WAIT with a STOP
snapshot and its DOSED records marked closed: each pending shot of one is counted cancelled, so that pending and cancelled
keep their sum and nothing stays pending, but for the one that a standing offer of the record's injector is for. Elsewhere
it clears the message. A FINISH withdraws an authorization, closes the load of a bay LOADING, HOLDING, HELD from LOADING, or
TRIPPED without the lockout, shows LOCKOUT with it, and clears the message elsewhere. A CLOSED bay ignores both. A returned
event slot with a bad check or naming address 0 is counted and clears the flag; an empty one sets the flag; a bid clears it
and goes to the bay of its panel, or is reported with the reason it is discarded for, numbered as notes/assumptions/9.md
says. -/
def Obligations.BidsBeyondStart : Prop :=
  (∀ (d : Device) (b : BayId) (a : ArmId),
    ((d.bay b).state = .closed → d.stopBid b a = d ∧ d.finishBid b = d) ∧
    (∀ t, (d.bay b).state = .loading → d.bayOfArm a = some b → (d.arm a).batch = some t → t.arm = a →
      t.phase.flowing = true → ∀ e : Device, e = d.stopBid b a →
        (∃ x, (e.arm a).batch = some x ∧ x.phase = .closeWait ∧ x.snapshot = some (t.volume, .stop) ∧
          x.delivered = t.delivered ∧ x.dosing.length = t.dosing.length ∧
          ∀ (j : Nat) (y : Dosing) (r : DoseRef), t.dosing[j]? = some y → y.dosed = true → r = ⟨a, t.line, y.recipe⟩ →
            ∃ z, x.dosing[j]? = some z ∧ z.closeMark = true ∧ z.pending + z.cancelled = y.pending + y.cancelled ∧
              ((∀ c, (d.inj c).offers r = false) → z.pending = 0) ∧ z.pending ≤ 1 ∧
              (∀ c, d.dose r = some y → y.injector = some c → (d.inj c).offers r = true →
                z.pending = min 1 y.pending) ∧
              z.completed = y.completed ∧ z.missed = y.missed ∧ z.delivered = y.delivered ∧ z.acc = y.acc) ∧
        (e.arm a).zeroFlow = 0 ∧ (e.arm a).commanded = .closed ∧ e.bay b = { d.bay b with message := none } ∧
        (∀ x, x ≠ a → e.arm x = d.arm x) ∧ e.orders = d.orders ∧ e.meters = d.meters ∧ e.cw = d.cw) ∧
    ((d.bay b).state ≠ .closed →
      ((d.bay b).state ≠ .loading ∨ d.bayOfArm a ≠ some b ∨ (∀ t, (d.arm a).batch = some t → t.phase.flowing = false)) →
      d.stopBid b a = d.onBay b fun r => { r with message := none }) ∧
    ∀ e : Device, e = (d.onBay b fun r => { r with message := none }) →
      (((d.bay b).state = .authorized ∨ ((d.bay b).state = .held ∧ (d.bay b).before = some .authorized)) →
        d.finishBid b = e.withdraw b .finish) ∧
      (((d.bay b).state ∈ [.loading, .holding] ∨ ((d.bay b).state = .held ∧ (d.bay b).before = some .loading) ∨
          ((d.bay b).state = .tripped ∧ (d.bay b).lockout = false)) → d.finishBid b = e.closeLoad b) ∧
      (((d.bay b).state ∈ [.idle, .closing, .noteCommit] ∨ ((d.bay b).state = .held ∧ (d.bay b).before = some .idle)) →
        d.finishBid b = e) ∧
      ((d.bay b).state = .tripped → (d.bay b).lockout = true →
        d.finishBid b = d.onBay b fun r => { r with message := some .lockout })) ∧
  (∀ (d : Device) (sl : List Byte), sl.length = 8 →
    ((crc8 (sl.take 7) ≠ octetAt sl 7 ∨ ((octetAt sl 0).toNat / 32 ≠ 0 ∧ (octetAt sl 0).toNat % 32 = 0)) →
      d.eventSlot sl = d.onLm fun l => { l with eventErrors := min 65535 (l.eventErrors + 1), clearFlag := false }) ∧
    (crc8 (sl.take 7) = octetAt sl 7 → (octetAt sl 0).toNat / 32 = 0 →
      d.eventSlot sl = d.onLm fun l => { l with clearFlag := true }) ∧
    ∀ n : Addr, crc8 (sl.take 7) = octetAt sl 7 → (octetAt sl 0).toNat / 32 ≠ 0 → (octetAt sl 0).toNat % 32 = n.val →
      n ≠ 0 → d.eventSlot sl = (d.onLm fun l => { l with clearFlag := false }).dispatchBid n sl) ∧
  ∀ (d : Device) (n : Addr) (sl : List Byte),
    ((d.station n).isKind .panel = false →
      d.dispatchBid n sl = d.stationNotice n 6 [octets 1 0, octets 1 ((octetAt sl 0).toNat / 32)]) ∧
    ((d.station n).isKind .panel = true →
      (((d.station n).state ≠ .active ∧ (d.station n).state ≠ .slipped) ∨ (d.station n).faulty = true) →
      d.dispatchBid n sl = d.stationNotice n 6 [octets 1 1, octets 1 ((octetAt sl 0).toNat / 32)]) ∧
    ((d.station n).isKind .panel = true → (d.station n).state ∈ [.active, .slipped] → (d.station n).faulty = false →
      (d.bayOfPanel n = none →
        d.dispatchBid n sl = d.stationNotice n 6 [octets 1 2, octets 1 ((octetAt sl 0).toNat / 32)]) ∧
      ∀ b, d.bayOfPanel n = some b →
        (readBid sl = none →
          d.dispatchBid n sl = d.stationNotice n 6 [octets 1 3, octets 1 ((octetAt sl 0).toNat / 32)]) ∧
        (∀ cred, readBid sl = some (.swipe cred) → d.dispatchBid n sl = d.swipeBid b cred) ∧
        (∀ a, readBid sl = some (.start a) → d.dispatchBid n sl = d.startBid b a) ∧
        (∀ a, readBid sl = some (.stop a) → d.dispatchBid n sl = d.stopBid b a) ∧
        (readBid sl = some .finish → d.dispatchBid n sl = d.finishBid b))

/-! ### Timers -/

/-- R68, R71: a bay's authorization timer expires: an AUTHORIZED bay whose timer runs has its authorization withdrawn, the
expiry is reported, and CW, when it is free to, takes up the barrier of a stalled commit that got the bay's slot (R135);
with no commit stalled there is none. On any other bay nothing changes.
R75, R82, R83, R34: a TRIPPED bay's resume timer expires: its load closes, whatever causes remain. The cause set is emptied
and the timers are stopped; every INTERRUPTED batch of it ends SHORT with the running totalizer as its closing readings, a
flowing one is stopped, one in CLOSE_WAIT stays. With a batch then open, or a shot in flight or on offer, the bay is
CLOSING; with none it goes on to NOTE_COMMIT. On any other bay nothing changes (notes/assumptions/2.md). -/
def Obligations.BayTimersExpire : Prop :=
  (∀ (s : State) (b : BayId), s.dev.settled = true →
    (∀ n, (s.dev.bay b).state = .authorized → (s.dev.bay b).authTimer = .running n → s.dev.firstStalled = none →
      exec (.authorizationTimerExpiry b) s =
        .next { s with dev := (s.dev.withdraw b .timeout).bayNotice b 6 [] }) ∧
    (∀ n, (s.dev.bay b).state = .authorized → (s.dev.bay b).authTimer = .running n →
      exec (.authorizationTimerExpiry b) s =
        .next { s with dev := ((s.dev.withdraw b .timeout).bayNotice b 6 []).cwStart }) ∧
    (((s.dev.bay b).state ≠ .authorized ∨ ∀ n, (s.dev.bay b).authTimer ≠ .running n) →
      exec (.authorizationTimerExpiry b) s = .next s)) ∧
  ∀ (s : State) (b : BayId), s.dev.settled = true →
    (∀ n, (s.dev.bay b).state = .tripped → (s.dev.bay b).resumeTimer = some n →
      ∃ u : State, exec (.resumeTimerExpiry b) s = .next u ∧ u.pending = s.pending ∧
        s.dev.loadCloses u.dev b ∧ (u.dev.bay b).lockout = (s.dev.bay b).lockout ∧
        (u.dev.bay b).trips = (s.dev.bay b).trips ∧
        u.dev.custody = s.dev.custody ∧ u.dev.permits = s.dev.permits ∧ u.dev.lm = s.dev.lm) ∧
    (((s.dev.bay b).state ≠ .tripped ∨ (s.dev.bay b).resumeTimer = none) → exec (.resumeTimerExpiry b) s = .next s)


/-- R37, R38, R73, R82: an arm's travel timer expires. With an open effective stage the flowing batch is INTERRUPTED with
VALVE_FAULT and the timer restarts at the travel limit for the stage CLOSED, unless the position is CLOSED. With the stage
CLOSED and the position another, the bay takes the cause VALVE: from LOADING or HOLDING without the cause it is TRIPPED; in
TRIPPED, and in HELD from LOADING, the cause joins its set and the causes seen; in CLOSING and NOTE_COMMIT it joins the
causes seen alone; in any other state nothing. A batch in CLOSE_WAIT is INTERRUPTED with VALVE_FAULT and one INTERRUPTED is
given the flag, but a CLOSING bay ends the one in CLOSE_WAIT, SHORT, and passes to NOTE_COMMIT when that was the last thing
it waited for. Without a batch the ARM notice of the fault carries arm, stage and position (notes/assumptions/53.md, 12.md,
9.md). With the timer stopped nothing changes. -/
def Obligations.TravelExpiryFaultsTheValve : Prop :=
  ∀ (s : State) (a : ArmId), s.dev.settled = true →
    ((s.dev.arm a).travel = none → exec (.travelTimerExpiry a) s = .next s) ∧
    (∀ x, (s.dev.arm a).travel ≠ none → s.dev.effectiveStage a ≠ .closed → (s.dev.arm a).batch = some x →
      ∃ u : State, exec (.travelTimerExpiry a) s = .next u ∧ u.pending = s.pending ∧
        (u.dev.arm a).batch = some { x with phase := .interrupted, flags := { x.flags with valveFault := true } } ∧
        (u.dev.arm a).travel =
          (if (s.dev.arm a).position = .closed then none else some (s.dev.mp.settings.valveTravel * 1000)) ∧
        (∀ y, y ≠ a → u.dev.arm y = s.dev.arm y) ∧ (∀ b, (u.dev.bay b).state = (s.dev.bay b).state) ∧
        u.dev.custody = s.dev.custody ∧ u.dev.lm = s.dev.lm) ∧
    ((s.dev.arm a).travel ≠ none → s.dev.effectiveStage a = .closed → (s.dev.arm a).position ≠ .closed →
      ∃ u : State, exec (.travelTimerExpiry a) s = .next u ∧ u.pending = s.pending ∧ (u.dev.arm a).travel = none ∧
        u.dev.custody = s.dev.custody ∧ u.dev.lm = s.dev.lm ∧
        (∀ y, s.dev.bayOfArm a ≠ some y → (u.dev.bay y).state = (s.dev.bay y).state) ∧
        ((∀ b, s.dev.bayOfArm a = some b → (s.dev.bay b).state ≠ .closing) → ∀ x, (s.dev.arm a).batch = some x →
          (x.phase ∈ [.closeWait, .interrupted] → (u.dev.arm a).batch =
            some { x with phase := .interrupted, flags := { x.flags with valveFault := true } })) ∧
        ((s.dev.arm a).batch = none → (u.dev.arm a).batch = none ∧ ∃ x ∈ u.dev.mp.notices, x.obj = .arm a ∧ x.event = 6 ∧
          x.fields = [octets 1 a.val, octets 1 0, octets 1 (s.dev.arm a).position.code]) ∧
        ∀ b, s.dev.bayOfArm a = some b →
          ((s.dev.bay b).state ∈ [.loading, .holding] → (s.dev.bay b).causes.valve = false →
            (u.dev.bay b).state = .tripped ∧ (u.dev.bay b).causes.valve = true ∧ (u.dev.bay b).seen.valve = true) ∧
          (((s.dev.bay b).state = .tripped ∨ ((s.dev.bay b).state = .held ∧ (s.dev.bay b).before = some .loading)) →
            u.dev.bay b = (if (s.dev.bay b).causes.valve then s.dev.bay b else { s.dev.bay b with
              causes := { (s.dev.bay b).causes with valve := true }, seen := { (s.dev.bay b).seen with valve := true } })) ∧
          (((s.dev.bay b).state ∈ [.closed, .idle, .authorized] ∨
              ((s.dev.bay b).state = .held ∧ (s.dev.bay b).before ≠ some .loading)) → u.dev.bay b = s.dev.bay b) ∧
          ((s.dev.bay b).state = .noteCommit → u.dev.bay b =
            { s.dev.bay b with seen := { (s.dev.bay b).seen with valve := true } }) ∧
          ((s.dev.bay b).state ∈ [.tripped, .held, .closed, .idle, .authorized, .noteCommit] →
            ∀ y, y ≠ a → u.dev.arm y = s.dev.arm y) ∧
          ((s.dev.bay b).state = .closing →
            (u.dev.bay b).seen.valve = true ∧ (u.dev.bay b).causes = (s.dev.bay b).causes ∧
            (∀ y, y ≠ a → u.dev.arm y = s.dev.arm y) ∧
            ∀ x, (s.dev.arm a).batch = some x → x.phase = .closeWait → (u.dev.arm a).batch = none ∧
              (∃ z ∈ (u.dev.bay b).ended, z.arm = x.arm ∧ z.line = x.line ∧ z.delivered = x.delivered ∧
                z.closing = some (s.dev.meter a).mirror ∧ z.endStatus = some .short ∧ z.phase = .ended ∧
                z.flags.valveFault = true) ∧
              (u.dev.bay b).state =
                (if (∀ y ∈ s.dev.armsOf b, y ≠ a → (s.dev.arm y).batch = none) ∧ s.dev.outstandingShots b = 0 then
                  .noteCommit else .closing)))


/-- R53, R55: a shot in flight times out: it leaves the injector's list, the consecutive missed count rises by 1, and at 3
an AVAILABLE injector enters FAULT; short of that, its dosing record counts one more missed. Every totalizer mirror is
unchanged, and so is each arm's unwritten accumulator with what is queued for it (when the shot was the last one that a
CLOSING bay waited for, R83, R113 and R116 may move one into the other). With no shot of the token in flight nothing
changes. -/
def Obligations.ShotTimeoutCountsAMiss : Prop :=
  ∀ (s : State) (c : Chan) (token : Nat), s.dev.settled = true →
    ((∀ x ∈ (s.dev.inj c).inFlight, x.token ≠ token) → exec (.shotTimeout c token) s = .next s) ∧
    ∀ x, ((s.dev.inj c).inFlight.find? fun y => y.token == token) = some x →
      ∃ u : State, exec (.shotTimeout c token) s = .next u ∧ u.pending = s.pending ∧
        (u.dev.inj c).inFlight = (s.dev.inj c).inFlight.erase x ∧
        (u.dev.inj c).missed = min 3 ((s.dev.inj c).missed + 1) ∧
        (u.dev.inj c).state =
          (if (s.dev.inj c).state = .available ∧ 2 ≤ (s.dev.inj c).missed then .fault else (s.dev.inj c).state) ∧
        (u.dev.inj c).nextToken = (s.dev.inj c).nextToken ∧ (u.dev.inj c).lastServed = (s.dev.inj c).lastServed ∧
        (∀ y, (s.dev.inj c).missed < 2 → s.dev.dose x.ref = some y →
          ∃ z, u.dev.dose x.ref = some z ∧ z.missed = y.missed + 1 ∧ z.completed = y.completed ∧ z.delivered = y.delivered) ∧
        (∀ k, k ≠ c → (u.dev.inj k).inFlight = (s.dev.inj k).inFlight ∧ (u.dev.inj k).state = (s.dev.inj k).state) ∧
        (∀ a, (u.dev.meter a).mirror = (s.dev.meter a).mirror ∧
          (u.dev.meter a).unwritten.add (u.dev.cw.queued a) = (s.dev.meter a).unwritten.add (s.dev.cw.queued a)) ∧
        u.dev.custody = s.dev.custody ∧ u.dev.lm = s.dev.lm

/-! ### Custody writes -/

/-- R114: a totalizer post written good: the arm's totalizer record holds the written value plus the entry's amounts, with a
check that matches, the entry has left the queue, and the written value is the stored one. No other totalizer record, no
slot and not the next-number record changes. -/
def Obligations.GoodPostIsStored : Prop :=
  ∀ (s : State) (w : Write) (e : QEntry) (id : Nat) (p : Post), s.dev.boot = .ready → s.dev.queueSound →
    s.dev.cw.write = some w → w.job = .post id → s.dev.cw.entry id = some e → e.body = .post p →
    ∃ u : State, exec (.custodyWriteComplete true) s = .next u ∧ u.pending = s.pending ∧
      Bank.read u.dev.custody.totals p.arm =
        ⟨(s.dev.stored p.arm).gross + p.vol.gross, (s.dev.stored p.arm).net + p.vol.net,
          totalizerCheck ((s.dev.stored p.arm).gross + p.vol.gross) ((s.dev.stored p.arm).net + p.vol.net)⟩ ∧
      (∀ a, a ≠ p.arm → Bank.read u.dev.custody.totals a = Bank.read s.dev.custody.totals a) ∧
      u.dev.custody.slots = s.dev.custody.slots ∧ u.dev.custody.next = s.dev.custody.next ∧
      (∀ x ∈ u.dev.cw.queue, x.id ≠ id) ∧ Bank.read u.dev.cw.written p.arm = u.dev.stored p.arm ∧
      (∀ a, (u.dev.meter a).mirror = (s.dev.meter a).mirror)

/-- R115: a first failure of a custody write is tried again, and changes neither custody memory, the queue nor the failure
count. R115, R18: a post that fails for the second time gives its amounts back to the arm's unwritten accumulator, or R116
puts them in the queue again at once, so that the accumulator and the queue together hold what they held; the arm takes
TOTALIZER_FAULT, the failure count rises by 1, and custody memory is unchanged. -/
def Obligations.FailedWriteIsRetriedThenGivenBack : Prop :=
  ∀ (s : State) (job : WriteJob), s.dev.boot = .ready → s.dev.settled = true →
    (s.dev.cw.write = some ⟨job, 1⟩ →
      ∃ u : State, exec (.custodyWriteComplete false) s = .next u ∧ u.pending = s.pending ∧
        u.dev.cw.write = some ⟨job, 2⟩ ∧ u.dev.custody = s.dev.custody ∧ u.dev.cw.queue = s.dev.cw.queue ∧
        u.dev.cw.failures = s.dev.cw.failures ∧ u.dev.meters = s.dev.meters) ∧
    ∀ (e : QEntry) (id : Nat) (p : Post), s.dev.queueSound → s.dev.cw.write = some ⟨.post id, 2⟩ →
      s.dev.cw.entry id = some e → e.body = .post p →
      ∃ u : State, exec (.custodyWriteComplete false) s = .next u ∧ u.pending = s.pending ∧
        u.dev.custody = s.dev.custody ∧ u.dev.cw.failures = min 65535 (s.dev.cw.failures + 1) ∧
        (u.dev.arm p.arm).totFault = true ∧
        (∀ a, (u.dev.meter a).unwritten.add (u.dev.cw.queued a) = (s.dev.meter a).unwritten.add (s.dev.cw.queued a)) ∧
        ((∀ x ∈ s.dev.cw.queue, x.isPost = true) →
          (u.dev.meter p.arm).unwritten = (s.dev.meter p.arm).unwritten.add p.vol) ∧
        (∀ a, (u.dev.meter a).mirror = (s.dev.meter a).mirror)

/-- R118, R119, R133, R84, R108: the mark of a note's barrier written good: the slot's mark record holds the note number and
a check that matches, the next note number is one higher, the slot is RETAINED with the number, and the bay is IDLE, or HELD
when a hold source is active, with no order, no ended batch and no lockout; the order has left the queue. R118, with each
queue entry under an identifier of its own: a body or a body check written good is in the slot's record, every other part of
custody memory as it was, and the next part of the barrier follows. R115, R119, R134: a part that fails for the second time
leaves custody memory as it is and takes the barrier from the queue: with a slot FREE the failed slot is BAD and the barrier
is queued again with that slot; with none the bay keeps the failed slot, stalled, which is reported; its moment is the
model's count of stalls (notes/assumptions/23.md). -/
def Obligations.BarrierWritesByPart : Prop :=
  (∀ (s : State) (w : Write) (e : QEntry) (id n : Nat) (x : Barrier), s.dev.boot = .ready →
    s.dev.cw.write = some w → w.job = .barrier id .mark → s.dev.cw.entry id = some e → e.body = .barrier x →
    x.number = some n →
    ∃ u : State, exec (.custodyWriteComplete true) s = .next u ∧ u.pending = s.pending ∧
      (Bank.read u.dev.custody.slots x.slot).commit = some n ∧ (Bank.read u.dev.custody.slots x.slot).release = false ∧
      (Bank.read u.dev.custody.slots x.slot).markOk = true ∧
      (Bank.read u.dev.custody.slots x.slot).body = (Bank.read s.dev.custody.slots x.slot).body ∧
      u.dev.custody.next = ⟨n + 1, nextNumberCheck (n + 1)⟩ ∧ u.dev.custody.totals = s.dev.custody.totals ∧
      (∀ k, k ≠ x.slot → Bank.read u.dev.custody.slots k = Bank.read s.dev.custody.slots k) ∧
      u.dev.slot x.slot = .retained n false ∧ u.dev.noteBay x.bay = ⟨none, (s.dev.noteBay x.bay).stall, n⟩ ∧
      (u.dev.bay x.bay).state = (if (s.dev.bay x.bay).holding then .held else .idle) ∧
      (u.dev.bay x.bay).order = none ∧ (u.dev.bay x.bay).ended = [] ∧ (u.dev.bay x.bay).lockout = false ∧
      (∀ m, (s.dev.bay x.bay).order = some m → u.dev.orderNumbered m = none) ∧
      (∀ y ∈ u.dev.cw.queue, y.id ≠ id ∨ s.dev.cw.nextId ≤ y.id)) ∧
  (∀ (s : State) (id n k : Nat) (e : QEntry) (x : Barrier) (part : BarrierPart), s.dev.boot = .ready → s.dev.settled = true →
    s.dev.queueSound → s.dev.cw.write = some ⟨.barrier id part, k⟩ → s.dev.cw.entry id = some e → e.body = .barrier x →
    x.number = some n → part ≠ .mark → e.started = true →
    ∃ u : State, exec (.custodyWriteComplete true) s = .next u ∧ u.pending = s.pending ∧
      (part = .body → u.dev.custody = s.dev.custody.onSlot x.slot fun m => { m with body := x.image.body n }) ∧
      (part = .check → u.dev.custody = s.dev.custody.onSlot x.slot fun m => { m with bodyCheck := crc16 (x.image.body n) }) ∧
      u.dev.cw.entry id =
        some { e with body := .barrier { x with part := if part = .body then .check else .mark } } ∧
      (s.dev.cw.mode ≠ .parked → s.dev.cw.releases = [] → s.dev.cw.queue.head? = some e →
        u.dev.cw.write = some ⟨.barrier id (if part = .body then .check else .mark), 1⟩) ∧
      u.dev.bays = s.dev.bays ∧ u.dev.nu = s.dev.nu ∧ u.dev.orders = s.dev.orders) ∧
  ∀ (s : State) (id : Nat) (e : QEntry) (x : Barrier) (part : BarrierPart), s.dev.boot = .ready → s.dev.settled = true →
    s.dev.queueSound → s.dev.cw.write = some ⟨.barrier id part, 2⟩ → s.dev.cw.entry id = some e → e.body = .barrier x →
    ∃ u : State, exec (.custodyWriteComplete false) s = .next u ∧ u.pending = s.pending ∧
      u.dev.custody = s.dev.custody ∧ u.dev.cw.failures = min 65535 (s.dev.cw.failures + 1) ∧
      (∀ y ∈ u.dev.cw.queue, y.id ≠ id) ∧ (u.dev.noteBay x.bay).held = some x.image ∧ u.dev.bays = s.dev.bays ∧
      (∀ f, s.dev.freeSlot = some f → f ≠ x.slot →
        u.dev.slot x.slot = .bad ∧ u.dev.slot f = .reserved x.bay false ∧
        (∀ k, k ≠ f → k ≠ x.slot → u.dev.slot k = s.dev.slot k) ∧
        ∃ y ∈ u.dev.cw.queue, ∃ z, y.body = .barrier z ∧ z.bay = x.bay ∧ z.slot = f ∧ z.image = x.image) ∧
      (s.dev.freeSlot = none →
        u.dev.slot x.slot = .reserved x.bay true ∧ (∀ k, k ≠ x.slot → u.dev.slot k = s.dev.slot k) ∧
        (u.dev.noteBay x.bay).stall = some s.dev.nu.stallSeq ∧
        ∃ y ∈ u.dev.mp.notices, y.obj = .bay x.bay ∧ y.event = 16)

/-- R120, R140: a release written good leaves the commit mark and the body as they are and the release mark present; the
slot is FREE, or goes to the stalled commit whose stall began first. Failed twice it leaves custody memory as it is and the
slot BAD.
R125: the scan's write of the next note number: written good it is the stored one and the part runs; a first failure is
tried again; at the second the part runs with the number held, and the next note takes it (R118). R123: the last write of a
DRAINING writer parks it, which is reported, and no read waits any more; a PARKED writer starts nothing. -/
def Obligations.ReleasesNextNumberAndParking : Prop :=
  (∀ (s : State) (k : SlotId) (rest : List SlotId) (w : Write), s.dev.boot = .ready → s.dev.settled = true →
    s.dev.cw.write = some w → w.job = .release k → s.dev.cw.releases = k :: rest →
    (∃ u : State, exec (.custodyWriteComplete true) s = .next u ∧ u.pending = s.pending ∧
      u.dev.custody = (s.dev.custody.onSlot k fun m => { m with release := true, check := markCheck m.commit true }) ∧
      u.dev.cw.releases = rest ∧
      (s.dev.firstStalled = none → u.dev.slot k = .free ∧ ∀ j, j ≠ k → u.dev.slot j = s.dev.slot j) ∧
      (∀ b, s.dev.firstStalled = some b →
        u.dev.slot k = .reserved b false ∧ (u.dev.noteBay b).stall = none ∧
        ∀ j, j ≠ k → s.dev.reservedSlot b = some j → u.dev.slot j = .bad)) ∧
    (w.attempt = 2 → ∃ u : State, exec (.custodyWriteComplete false) s = .next u ∧ u.pending = s.pending ∧
      u.dev.custody = s.dev.custody ∧ u.dev.cw.releases = rest ∧ u.dev.slot k = .bad ∧
      (∀ j, j ≠ k → u.dev.slot j = s.dev.slot j) ∧ u.dev.cw.failures = min 65535 (s.dev.cw.failures + 1))) ∧
  (∀ (s : State) (n : Nat) (tag : Option Byte) (bad : List ArmId) (nb : Bool) (w : Write), s.dev.boot = .scanning tag bad nb →
    s.dev.cw.write = some w → w.job = .nextNumber n →
    (∃ u : State, exec (.custodyWriteComplete true) s = .next u ∧ u.pending = s.pending ∧ u.dev.boot = .ready ∧
      u.dev.custody = { s.dev.custody with next := ⟨n, nextNumberCheck n⟩ } ∧ u.dev.cw.heldNext = s.dev.cw.heldNext) ∧
    (w.attempt = 1 → ∃ u : State, exec (.custodyWriteComplete false) s = .next u ∧ u.pending = s.pending ∧
      u.dev.boot = s.dev.boot ∧ u.dev.custody = s.dev.custody ∧ u.dev.cw.write = some ⟨.nextNumber n, 2⟩) ∧
    (w.attempt = 2 → ∃ u : State, exec (.custodyWriteComplete false) s = .next u ∧ u.pending = s.pending ∧
      u.dev.boot = .ready ∧ u.dev.custody = s.dev.custody ∧ u.dev.nextNumber = n ∧
      u.dev.cw.failures = min 65535 (s.dev.cw.failures + 1))) ∧
  (∀ (s : State) (e : QEntry) (w : Write) (good : Bool), s.dev.boot = .ready → s.dev.settled = true →
    s.dev.cw.mode = .draining → s.dev.cw.write = some w → w.job = .post e.id → s.dev.cw.queue = [e] → e.isPost = true →
    s.dev.cw.releases = [] → (good = true ∨ w.attempt = 2) →
    ∃ u : State, exec (.custodyWriteComplete good) s = .next u ∧ u.pending = s.pending ∧ u.dev.cw.mode = .parked ∧
      u.dev.cw.write = none ∧ u.dev.cw.queue = [] ∧ u.dev.cw.waiting = none ∧
      ∃ x ∈ u.dev.mp.notices, x.obj = .rack ∧ x.event = 13) ∧
  ∀ d : Device, d.boot = .ready → d.cw.mode = .parked → d.cwStart = d

/-! ### Notes and totalizers -/

/-- R139: NOTE RELEASE of a number that no RETAINED slot holds is NOT_FOUND; of one whose release is pending it changes
nothing; otherwise the slot's release is pending and joins the tail of the release list. No custody memory changes.
R136 to R138, R175: NOTE READ of a number that no RETAINED slot holds is NOT_FOUND; of one that is retained it is answered
from custody memory, or stays in service while a custody write is in progress, and the completion of that write answers it
from the slot it was taken for; of a bay's current note it is WRONG_STATE with none held, and is answered from the held
image, not CHECKED, otherwise. Nothing else changes at a NOTE READ.
R129 to R132: the note held at a commit has the header items of Table 7-3, the lines not loaded in compartment order, and for
each ended batch the line of Table 7-4: volumes in decilitres rounded half up, averages over the delivered gross, or their
stand-ins when it is 0, and a subline for each dosing record. Its elements are the octets of Tables 11-7 to 11-9: header,
lines, sublines by line. A slot whose body a write stored reads back as them, a read has at most 8 lines and 2
sublines a line (notes/assumptions/36.md), and GOOD says that both checks match. -/
def Obligations.NoteReleaseAndRead : Prop :=
  (∀ (d : Device) (b : BayId) (o : Order) (k : SlotId), d.orderOf b = some o → d.reservedSlot b = some k →
    ∃ i, ((d.commitNote b).noteBay b).held = some i ∧ d.imageFollows b o i) ∧
  elementsFollow ∧ (∀ (k : SlotId) (m : SlotMem), noteReadsBack k m) ∧
  (∀ (s : State) (t : Byte) (n : Nat), s.quiet = true →
    (s.dev.retainedSlot n = none → exec (.noteRelease t (some n)) s = .next (s.answers s.dev 17 t .notFound [])) ∧
    ∀ k, s.dev.retainedSlot n = some k →
      (∀ m, s.dev.slot k = .retained m true → exec (.noteRelease t (some n)) s = .next (s.answers s.dev 17 t .ok [])) ∧
      (s.dev.slot k = .retained n false →
        ∃ u : State, exec (.noteRelease t (some n)) s = .next u ∧ u.pending = s.pending ∧
          u.dev.slot k = .retained n true ∧ (∀ j, j ≠ k → u.dev.slot j = s.dev.slot j) ∧
          u.dev.cw.releases = s.dev.cw.releases ++ [k] ∧ u.dev.cw.queue = s.dev.cw.queue ∧
          u.dev.custody = s.dev.custody ∧ u.dev.bays = s.dev.bays ∧
          u.dev.mp.answers = s.dev.mp.answers ++ [⟨17#8, t, .ok, []⟩])) ∧
  (∀ (s : State) (t : Byte) (n k : Nat) (b : BayId), s.quiet = true →
    (s.dev.retainedSlot n = none →
      exec (.noteRead t (some (.number n, k))) s = .next (s.answers s.dev 16 t .notFound [])) ∧
    (∀ j m, s.dev.retainedSlot n = some j → s.dev.cw.write = none → m = Bank.read s.dev.custody.slots j →
      k < (noteBodies j m).length →
      exec (.noteRead t (some (.number n, k))) s = .next (s.answers s.dev 16 t .ok
        (fitElements 247 ((elementsOf (noteBodies j m) (noteGood j m) true).drop k)))) ∧
    (∀ j, s.dev.retainedSlot n = some j → s.dev.cw.write ≠ none →
      exec (.noteRead t (some (.number n, k))) s = .next { s with dev := s.dev.onMp fun q =>
        { q with fifo := [.noteRead t (some (.number n, k))], inService := true, reading := some j } }) ∧
    ((s.dev.noteBay b).held = none →
      exec (.noteRead t (some (.bay b.val, k))) s = .next (s.answers s.dev 16 t .wrongState [])) ∧
    (∀ i, (s.dev.noteBay b).held = some i → k < (i.elements (s.dev.barrierNumber b)).length →
      exec (.noteRead t (some (.bay b.val, k))) s = .next (s.answers s.dev 16 t .ok
        (fitElements 247 ((elementsOf (i.elements (s.dev.barrierNumber b)) false false).drop k))))) ∧
  ∀ (s : State) (good : Bool) (j : SlotId) (t : Byte) (n k : Nat) (rest : List Instr), s.dev.boot = .ready →
    s.dev.cw.write ≠ none → s.dev.mp.inService = true → s.dev.mp.reading = some j →
    s.dev.mp.fifo = .noteRead t (some (.number n, k)) :: rest →
    ∃ u : State, exec (.custodyWriteComplete good) s = .next u ∧ u.pending = s.pending ∧
      ⟨16#8, t, (u.dev.readSlot j k).1, (u.dev.readSlot j k).2⟩ ∈ u.dev.mp.answers ∧
      u.dev.mp.fifo = rest ∧ u.dev.mp.inService = false ∧ u.dev.mp.reading = none


/-- R121: TOTALIZER READ is answered at once in PARKED, and when no entry of the arm is queued and no custody write is in
progress; else it becomes the waiting read, which notes the arm's entries and reserves an answer place; while one waits,
another stays in service. R122, R116: TOTALIZER ACK clears the arm's fault mark and reports the change; a barrier held for
the arm (notes/assumptions/24.md) is held no more, and when it stands at the head with CW free to work it is looked at
again: the accumulators of its arms are queued ahead of it, or its body write starts, or it is held for want of a note
number. The octets of the answer and of the notice are the model's (notes/assumptions/11.md, 12.md). -/
def Obligations.TotalizerReadAndAck : Prop :=
  ∀ (s : State) (t : Byte) (a : ArmId), s.quiet = true →
    (s.dev.cw.waiting = none → (s.dev.cw.mode = .parked ∨ (s.dev.cw.entriesOf a = [] ∧ s.dev.cw.write = none)) →
      exec (.totalizerRead t (some a.val)) s = .next (s.answers s.dev 18 t .ok
        [⟨totalizerBody s.dev a, true,
          (Bank.read s.dev.custody.totals a).check ==
            totalizerCheck (Bank.read s.dev.custody.totals a).gross (Bank.read s.dev.custody.totals a).net, true⟩])) ∧
    (s.dev.cw.waiting = none → s.dev.cw.mode ≠ .parked → (s.dev.cw.entriesOf a ≠ [] ∨ s.dev.cw.write ≠ none) →
      exec (.totalizerRead t (some a.val)) s = .next { s with dev :=
        (s.dev.onCw fun c => { c with waiting := some ⟨t, a, c.entriesOf a⟩ }).onMp fun m => { m with reserved := true } }) ∧
    (s.dev.cw.waiting ≠ none →
      exec (.totalizerRead t (some a.val)) s = .next { s with dev := s.dev.onMp fun m =>
        { m with fifo := [.totalizerRead t (some a.val)], inService := true } }) ∧
    ((∀ h, s.dev.cw.held = some h → h.waitsOn a = false) →
      ((s.dev.arm a).totFault = true →
        exec (.totalizerAck t (some a.val)) s =
          .next (s.answers ((s.dev.onArm a fun c => { c with totFault := false }).raise .arm (.arm a) 12
            [octets 1 a.val]) 19 t .ok [])) ∧
      ((s.dev.arm a).totFault = false → exec (.totalizerAck t (some a.val)) s = .next (s.answers s.dev 19 t .ok []))) ∧
    (∀ h, s.dev.cw.held = some h → h.waitsOn a = true →
      ∃ u : State, exec (.totalizerAck t (some a.val)) s = .next u ∧ u.pending = s.pending ∧
        (u.dev.arm a).totFault = false ∧ u.dev.custody = s.dev.custody ∧ u.dev.bays = s.dev.bays ∧
        (∀ y, y ≠ a → u.dev.arm y = s.dev.arm y) ∧ u.dev.mp.answers = s.dev.mp.answers ++ [⟨19#8, t, .ok, []⟩] ∧
        ((s.dev.arm a).totFault = true → ∃ x ∈ u.dev.mp.notices, x.obj = .arm a ∧ x.event = 12 ∧ x.fields = [octets 1 a.val]) ∧
        ((s.dev.cw.write ≠ none ∨ s.dev.cw.mode = .parked ∨ s.dev.cw.queue = []) →
          u.dev.cw = { s.dev.cw with held := none } ∧ u.dev.meters = s.dev.meters) ∧
        ∀ e x rest, s.dev.cw.write = none → s.dev.cw.mode ≠ .parked → s.dev.cw.queue = e :: rest → e.body = .barrier x →
          (s.dev.recoveryArms x.image = [] → s.dev.nextNumber < 4294967296 →
            u.dev.cw = { s.dev.cw with
              held := none
              queue := ⟨e.id, .barrier { x with number := some s.dev.nextNumber, part := .body }, true⟩ :: rest
              write := some ⟨.barrier e.id .body, 1⟩ }) ∧
          (s.dev.recoveryArms x.image = [] → 4294967296 ≤ s.dev.nextNumber →
            u.dev.cw = { s.dev.cw with held := some ⟨x.bay, .exhausted⟩ }) ∧
          (∀ y l, s.dev.recoveryArms x.image = y :: l →
            u.dev.cw = { s.dev.cw with
              held := none
              queue := ⟨s.dev.cw.nextId, .post ⟨y, (s.dev.meter y).unwritten, true⟩, true⟩ ::
                (recoveryEntries s.dev (s.dev.cw.nextId + 1) l ++ e :: rest)
              nextId := s.dev.cw.nextId + l.length + 1
              write := some ⟨.post s.dev.cw.nextId, 1⟩ } ∧
            ∀ z, (u.dev.meter z).unwritten = (if z ∈ y :: l then ⟨0, 0⟩ else (s.dev.meter z).unwritten)))

/-- R181, R124, R143: RESTART with a bay neither CLOSED nor IDLE is WRONG_STATE and changes nothing else; with nothing left
for the Custody Writer to write and no sweep outstanding it resets the part and scans at once; else it stays in service,
with the other frames, the answers and the outbound frame discarded, while the part completes its custody writes and waits
for the sweep (notes/assumptions/34.md). No sweep is launched meanwhile. The sweep outstanding returns or times out: of its
contents nothing is taken, no station, no bid, no inbound segment. The last of the custody writes, a post or a release,
written good or failed for the second time, and the end of the sweep, whichever comes last, leaves the part with every
volatile item cleared and the start-up scan run with the RESTART's tag, over custody memory as the writes left it. No answer
is made, and a scan that has no number to write back reports the RESTART with its tag. -/
def Obligations.RestartDrainsThenResets : Prop :=
  (∀ (s : State) (t : Byte), s.quiet = true →
    ((∃ b, (s.dev.bay b).state ≠ .closed ∧ (s.dev.bay b).state ≠ .idle) →
      exec (.restart t (some ())) s = .next (s.answers s.dev 24 t .wrongState [])) ∧
    ((∀ b, (s.dev.bay b).state = .closed ∨ (s.dev.bay b).state = .idle) →
      (s.dev.cw.write = none → s.dev.cw.releases = [] → s.dev.cw.queue = [] → s.dev.lm.outstanding = none →
        exec (.restart t (some ())) s =
          .next { s with dev := (Device.cleared .ready s.dev.cuts s.dev.custody s.dev.pins).scan (some t) }) ∧
      ((s.dev.cw.write ≠ none ∨ s.dev.cw.releases ≠ [] ∨ s.dev.cw.queue ≠ [] ∨ s.dev.lm.outstanding ≠ none) →
        ∃ u : State, exec (.restart t (some ())) s = .next u ∧ u.pending = s.pending ∧ u.dev.boot = .draining t ∧
          u.dev.mp.fifo = [.restart t (some ())] ∧ u.dev.mp.inService = true ∧ u.dev.mp.answers = [] ∧
          u.dev.mp.out = none ∧ u.dev.custody = s.dev.custody ∧ u.dev.permits = s.dev.permits ∧ u.dev.lm = s.dev.lm))) ∧
  (∀ (s : State) (tag : Byte), s.dev.boot = .draining tag →
    exec .sweepLaunch s = .next s ∧
    ∀ w c, s.dev.lm.outstanding = some w →
      (c = .sweepTimeout ∨ ∃ f, headerMatches w f = true ∧ (c = .sweepReturn f ∨ c = .frameDiscarded f)) →
      ((s.dev.cw.write = none ∧ s.dev.cw.releases = [] ∧ s.dev.cw.queue = []) →
        exec c s = .next { s with dev := (Device.cleared .ready s.dev.cuts s.dev.custody s.dev.pins).scan (some tag) }) ∧
      ((s.dev.cw.write ≠ none ∨ s.dev.cw.releases ≠ [] ∨ s.dev.cw.queue ≠ []) →
        ∃ u : State, exec c s = .next u ∧ u.pending = s.pending ∧ u.dev.boot = .draining tag ∧
          u.dev.lm.outstanding = none ∧ u.dev.lm.stations = s.dev.lm.stations ∧ u.dev.lm.clearFlag = s.dev.lm.clearFlag ∧
          u.dev.lm.eventErrors = s.dev.lm.eventErrors ∧ u.dev.mp.asm = s.dev.mp.asm ∧ u.dev.mp.fifo = s.dev.mp.fifo ∧
          u.dev.bays = s.dev.bays ∧ u.dev.arms = s.dev.arms ∧ u.dev.meters = s.dev.meters ∧ u.dev.injs = s.dev.injs ∧
          u.dev.cw = s.dev.cw ∧ u.dev.custody = s.dev.custody)) ∧
  (∀ (s : State) (tag : Byte) (w : Write) (good : Bool), s.dev.boot = .draining tag → s.dev.cw.write = some w →
    (good = true ∨ w.attempt = 2) → (∀ b, (s.dev.bay b).state = .closed ∨ (s.dev.bay b).state = .idle) →
    ∀ m : Custody,
      ((∃ e p, w.job = .post e.id ∧ e.body = .post p ∧ s.dev.cw.queue = [e] ∧ s.dev.cw.releases = [] ∧
          m = if good then s.dev.custody.writeTotals p.arm ((Bank.read s.dev.cw.written p.arm).add p.vol)
            else s.dev.custody) ∨
        (∃ k, w.job = .release k ∧ s.dev.cw.releases = [k] ∧ s.dev.cw.queue = [] ∧ s.dev.firstStalled = none ∧
          m = if good then s.dev.custody.onSlot k fun x => { x with release := true, check := markCheck x.commit true }
            else s.dev.custody)) →
      (s.dev.lm.outstanding = none → exec (.custodyWriteComplete good) s =
        .next { s with dev := (Device.cleared .ready s.dev.cuts m s.dev.pins).scan (some tag) }) ∧
      (s.dev.lm.outstanding ≠ none →
        ∃ u : State, exec (.custodyWriteComplete good) s = .next u ∧ u.pending = s.pending ∧ u.dev.boot = .draining tag ∧
          u.dev.lm = s.dev.lm ∧ u.dev.custody = m ∧ u.dev.cw.write = none ∧ u.dev.cw.releases = [] ∧
          u.dev.cw.queue = [])) ∧
  ∀ (n : Nat) (m : Custody) (p : Vector Level 16) (tag : Byte) (d : Device),
    d = (Device.cleared .ready n m p).scan (some tag) →
    d.custody = m ∧ d.mp.answers = [] ∧ d.mp.fifo = [] ∧
    (takenNumber m = m.next.value → d.boot = .ready ∧
      ∃ x ∈ d.mp.notices, x.obj = .rack ∧ x.event = 1 ∧ x.fields.head? = some [tag])


/-! ### The rack loop -/

/-- R142, R143, R155, R174: a launch, when the part runs, no sweep is outstanding and the minimum interval has passed since
the last launch: a sweep of the next index is outstanding with a slot for every address that has an entry, and the octets at
loop-out are its header, its slots, an event slot of zeros, MP's outbound segment and an empty inbound one. A call carries,
by its station's kind (R36, R49, R85, R154, Tables 8-5 and 11-3): the arm's effective stage, the token of the injector's
standing offer, the display, lamps and order number of the panel's bay, and nothing for METER, TEMP and PERMIT; a call whose
station no record names, or that is in MISMATCH, carries CLOSED, no token, and the display of a closed bay. Otherwise the
command does nothing (notes/assumptions/2.md). -/
def Obligations.LaunchSendsTheNextSweep : Prop :=
  ∀ s : State,
    ((s.dev.boot ≠ .ready ∨ s.dev.lm.outstanding ≠ none ∨ s.dev.lm.interval ≠ 0) → exec .sweepLaunch s = .next s) ∧
    (s.dev.boot = .ready → s.dev.lm.outstanding = none → s.dev.lm.interval = 0 →
      ∃ u : State, exec .sweepLaunch s = .next u ∧ u.pending = s.pending ∧
        u.dev.lm.outstanding = some ⟨s.dev.lm.nextIndex, s.dev.polled, [], s.dev.mp.settings.sweepTimeout⟩ ∧
        u.dev.lm.nextIndex = s.dev.lm.nextIndex + 1 ∧ u.dev.lm.launched = true ∧
        u.dev.lm.interval = s.dev.mp.settings.minInterval ∧ u.dev.lm.timeouts = s.dev.lm.timeouts ∧
        (s.dev.lm.nextIndex = 0 → ∀ n, u.dev.station n =
          { s.dev.station n with round := 0, spoiled := (s.dev.station n).entry.isNone }) ∧
        (s.dev.lm.nextIndex ≠ 0 → u.dev.lm.stations = s.dev.lm.stations) ∧
        u.dev.lm.loopOut.length = 44 + 8 * s.dev.polled.length ∧
        u.dev.lm.loopOut.take 4 = sweepHeader s.dev.lm.clearFlag s.dev.lm.nextIndex.val s.dev.polled.length ∧
        (∀ (i : Nat) (n : Addr) (e : StationEntry) (sl : List Byte), s.dev.polled[i]? = some n →
          (s.dev.station n).entry = some e → sl = slice u.dev.lm.loopOut (4 + 8 * i) 8 →
          (e.kind ∈ [.meter, .temp, .permit] → sl = callSlot n [0#8, 0#8, 0#8, 0#8, 0#8, 0#8]) ∧
          (∀ a, e.kind = .valve → s.dev.armOfValve n = some a → (s.dev.station n).state ≠ .mismatch →
            sl = callSlot n [BitVec.ofNat 8 (s.dev.effectiveStage a).code, 0#8, 0#8, 0#8, 0#8, 0#8]) ∧
          (∀ c, e.kind = .injector → s.dev.chanOf n = some c → (s.dev.station n).state ≠ .mismatch →
            u.dev.inj c = (s.dev.offerShot c).inj c ∧
            sl = callSlot n [BitVec.ofNat 8 (u.dev.inj c).callToken, 0#8, 0#8, 0#8, 0#8, 0#8]) ∧
          (∀ b, e.kind = .panel → s.dev.bayOfPanel n = some b → (s.dev.station n).state ≠ .mismatch →
            sl = callSlot n (octets 2 ((s.dev.bay b).display.code * 2048 + s.dev.lampsOf b) ++
              octets 4 ((s.dev.bay b).order.getD 0))) ∧
          (((e.kind = .valve ∧ s.dev.armOfValve n = none) ∨ (e.kind = .injector ∧ s.dev.chanOf n = none) ∨
              (e.kind = .panel ∧ s.dev.bayOfPanel n = none) ∨ (s.dev.station n).state = .mismatch) →
            sl = callSlot n [0#8, 0#8, 0#8, 0#8, 0#8, 0#8])) ∧
        slice u.dev.lm.loopOut (4 + 8 * s.dev.polled.length) 8 =
          List.replicate 7 0#8 ++ [crc8 (List.replicate 7 0#8)] ∧
        slice u.dev.lm.loopOut (12 + 8 * s.dev.polled.length) 16 = s.dev.mp.outbound.2 ∧
        slice u.dev.lm.loopOut (28 + 8 * s.dev.polled.length) 16 = segmentOctets 0 false [] ∧
        u.dev.mp = s.dev.mp.outbound.1 ∧
        u.dev.arms = s.dev.arms ∧ u.dev.bays = s.dev.bays ∧ u.dev.meters = s.dev.meters ∧ u.dev.cw = s.dev.cw ∧
        u.dev.custody = s.dev.custody ∧ u.dev.lu = s.dev.lu ∧ u.dev.orders = s.dev.orders)

/-- R144, R145, R148, R152, R155: the outstanding sweep returns: it is no longer outstanding, the loop is not broken, every
station that had a slot takes the judgement of its slot, its word coming into force at the end of a round that did not spoil
it, and the event slot decides the clear flag of the next sweep. The slot of an address written or cleared since the launch
is passed over (notes/assumptions/17.md), and octets the frame lacks count as 0 (notes/assumptions/18.md). The slots come in
order, then the round's end, the event slot and the inbound segment; a good return of a station ACTIVE without station fault
goes to its user. A frame that is not the outstanding sweep is discarded: nothing changes. -/
def Obligations.ReturnJudgesEverySlot : Prop :=
  (∀ (s : State) (f : List Byte), (∀ w, s.dev.lm.outstanding = some w → headerMatches w f = false) →
    exec (.frameDiscarded f) s = .next s ∧ exec (.sweepReturn f) s = .next s) ∧
  ∀ (s : State) (f : List Byte) (w : Sweep), s.dev.boot = .ready → s.dev.lm.outstanding = some w → headerMatches w f = true →
    w.slots.Nodup → (0 : Addr) ∉ w.slots →
    ∃ u : State, exec (.sweepReturn f) s = .next u ∧ u.pending = s.pending ∧
      u.dev.lm.outstanding = none ∧ u.dev.lm.timeouts = 0 ∧ u.dev.lm.broken = false ∧
      u.dev.lm.nextIndex = s.dev.lm.nextIndex ∧
      (∀ (i : Nat) (n : Addr) (e : StationEntry) (x : Station), w.slots[i]? = some n → n ∉ w.changed →
        (s.dev.station n).entry = some e →
        x = ((s.dev.station n).gather w.index.val (judgeSlot n e.kind (slice f (4 + 8 * i) 8))).arrive
          (judgeSlot n e.kind (slice f (4 + 8 * i) 8)) →
        u.dev.station n = (if w.index.val = 15 ∧ x.spoiled = false then { x with word := some x.round } else x)) ∧
      (w.index.val ≠ 15 → ∀ n, n ∉ w.slots ∨ n ∈ w.changed → u.dev.station n = s.dev.station n) ∧
      u.dev.lm.clearFlag =
        (crc8 (slice f (4 + 8 * w.slots.length) 7) == octetAt (slice f (4 + 8 * w.slots.length) 8) 7 &&
          (octetAt f (4 + 8 * w.slots.length)).toNat / 32 == 0) ∧
      u.dev.custody = s.dev.custody ∧ u.dev.armRecs = s.dev.armRecs ∧ u.dev.permits = s.dev.permits ∧
      u.dev.mp.settings = s.dev.mp.settings ∧ u.dev.mp.clock = s.dev.mp.clock ∧
      (∀ d1 d2 : Device, d1 = Device.slotReturns w f w.slots 4 s.dev.loopReturned →
        d2 = (if w.index.val = 15 then d1.roundEnd else d1) →
        u.dev = ((d2.event fun x => x.eventSlot (slice f (4 + 8 * w.slots.length) 8)).onMp fun m =>
          m.inbound (slice f (28 + 8 * w.slots.length) 16))) ∧
      ∀ (d : Device) (n : Addr) (e : StationEntry) (sl : List Byte) (x : Bool), (d.station n).entry = some e →
        n ∉ w.changed → (d.station n).state = .active → (d.station n).faulty = false → judgeSlot n e.kind sl = .good x →
        d.slotReturn w n sl = (d.onStation n fun r => r.gather w.index.val (.good x)).userReturn n e.kind sl

/-- R144, R145, R174: the sweep timeout runs out: the sweep is no longer outstanding, the count of timed-out sweeps rises by
1 and holds at 3, the third in a row marks the loop broken, every station that had a slot takes a missing return, the event
slot counts as empty, and the frame in progress is sent again from its first segment. An address written or cleared since
the launch is passed over (notes/assumptions/17.md); with no sweep outstanding the command does nothing
(notes/assumptions/2.md). -/
def Obligations.TimeoutMissesEverySlot : Prop :=
  ∀ s : State, (s.dev.lm.outstanding = none → exec .sweepTimeout s = .next s) ∧
    ∀ w, s.dev.boot = .ready → s.dev.lm.outstanding = some w → w.slots.Nodup → (0 : Addr) ∉ w.slots →
      ∃ u : State, exec .sweepTimeout s = .next u ∧ u.pending = s.pending ∧
        u.dev.lm.outstanding = none ∧ u.dev.lm.timeouts = min 3 (s.dev.lm.timeouts + 1) ∧
        u.dev.lm.broken = (s.dev.lm.broken || s.dev.lm.timeouts == 2) ∧ u.dev.lm.clearFlag = true ∧
        (∀ (n : Addr) (e : StationEntry) (x : Station), n ∈ w.slots → n ∉ w.changed →
          (s.dev.station n).entry = some e →
          x = ((s.dev.station n).gather w.index.val .missing).arrive .missing → u.dev.station n = x) ∧
        u.dev.mp.out = s.dev.mp.out.map (fun o => { o with sent := 0, inFlight := 0 }) ∧
        u.dev.custody = s.dev.custody ∧ u.dev.armRecs = s.dev.armRecs ∧ u.dev.permits = s.dev.permits

/-- R149 to R151: a SILENT station becomes ACTIVE at its third good return in a row; an ACTIVE one is SLIPPED after one to
three bad or missing returns in a row and SILENT after the fourth, and one good return makes it ACTIVE again; a return of
another kind takes any configured station to MISMATCH, which no arrival leaves. R152: a good return gathers its trickle bit
at the sweep's index, but not in MISMATCH; any other spoils the assembly. At the end of a round the stations take their
words in ascending address order (notes/assumptions/16.md). A spoiled one keeps its word and nothing changes; else the
assembled word is in force. R153: fields changed are reported in a STATION notice, and without any nothing else changes.
Station fault newly set is a loss for the station's user: METER (R21), VALVE (R35), INJECTOR (R48), PERMIT (R165); newly
clear, the permissives are evaluated again. R22: a seal newly open marks the arm's open batch METER_GAP, which goes on, and
is reported, as a seal newly closed is. -/
def Obligations.StationArrivals : Prop :=
  (∀ (s : Station) (x y z : Bool), s.state = .silent →
    (s.arrive (.good x)).state = .aligning ∧ ((s.arrive (.good x)).arrive (.good y)).state = .aligning ∧
    (((s.arrive (.good x)).arrive (.good y)).arrive (.good z)).state = .active ∧
    ((s.arrive (.good x)).arrive .bad).align = 0 ∧ ((s.arrive (.good x)).arrive .missing).state = .silent) ∧
  (∀ (s : Station) (l : List Judged), s.state = .active → (∀ j ∈ l, j = .bad ∨ j = .missing) →
    (l = [] → (l.foldl Station.arrive s).state = .active) ∧
    (1 ≤ l.length → l.length ≤ 3 → (l.foldl Station.arrive s).state = .slipped ∧
      (l.foldl Station.arrive s).miss = l.length ∧ ∀ x, ((l.foldl Station.arrive s).arrive (.good x)).state = .active) ∧
    (4 ≤ l.length → (l.foldl Station.arrive s).state = .silent)) ∧
  (∀ (s : Station) (k : Nat), s.state ≠ .unconfigured →
    (s.arrive (.other k)).state = .mismatch ∧ (s.arrive (.other k)).kindSeen = some k) ∧
  (∀ (s : Station) (l : List Judged), s.state = .mismatch → (l.foldl Station.arrive s).state = .mismatch) ∧
  (∀ (s : Station) (j : Judged), (s.arrive j).entry = s.entry ∧ (s.arrive j).word = s.word ∧ (s.arrive j).round = s.round ∧
    (s.arrive j).spoiled = s.spoiled) ∧
  (∀ (s : Station) (k : Nat) (x : Bool), k < 16 →
    (s.state ≠ .mismatch → s.state ≠ .unconfigured → ∃ r : Half, s.gather k (.good x) = { s with round := r } ∧
      ∀ i, i < 16 → r.getLsbD i = (if i = k then x else s.round.getLsbD i)) ∧
    (s.state = .mismatch → s.gather k (.good x) = { s with spoiled := true }) ∧
    ∀ j, (∀ y, j ≠ .good y) → s.gather k j = { s with spoiled := true }) ∧
  (∀ d : Device, d.roundEnd = ((List.finRange 32).filter (· ≠ 0)).foldl (fun e n => e.event fun x => x.wordInForce n) d) ∧
  ∀ (d : Device) (n : Addr), d.wordFollows (d.wordInForce n) n


/-- R6, R13, R21, R32, R35, R39, R184, Table 11-3: the octets of a good return at its user. METER: the two counts and the
timestamp make the arm's sample. TEMP: in range and without a probe fault it is the held temperature of every arm that names
the station, and otherwise their held temperature is not valid. VALVE: position and coupler are the arm's; a position code
above 4 is FAULT; leaving CLOSED zeroes the zero-flow count; and a coupler that leaves LATCHED in flow interrupts the batch.
A VALVE station lost leaves both UNKNOWN, a METER station lost the baseline not valid and an open batch INTERRUPTED with
METER_GAP, a TEMP station lost the held temperature not valid; only the marks go (notes/assumptions/70.md). -/
def Obligations.ReturnsReachTheirUsers : Prop :=
  ∀ (d e : Device) (n : Addr) (sl : List Byte),
    (∀ a r, d.armOfMeter n = some a → d.armRec a = some r →
      d.userReturn n .meter sl = d.meterSample a r
        ⟨octetAt sl 1 ++ octetAt sl 2, octetAt sl 3 ++ octetAt sl 4, octetAt sl 5 ++ octetAt sl 6⟩) ∧
    (∀ t : Int, t = (octetAt sl 1 ++ octetAt sl 2 : Half).toInt → e = d.userReturn n .temp sl →
      (∀ a, a ∈ d.armsOfTemp n → e.meter a =
        (if (octetAt sl 3).getLsbD 0 = false ∧ -4000 ≤ t ∧ t ≤ 7000 then
          { d.meter a with heldTemp := t, heldValid := true } else { d.meter a with heldValid := false })) ∧
      (∀ a, a ∉ d.armsOfTemp n → e.meter a = d.meter a) ∧ e.arms = d.arms ∧ e.bays = d.bays ∧ e.cw = d.cw) ∧
    (∀ byFault, e = d.userLost n .temp byFault → ∀ a, e.meter a =
      (if a ∈ d.armsOfTemp n ∧ byFault = false then { d.meter a with heldValid := false } else d.meter a)) ∧
    (∀ a p k f, d.armOfValve n = some a →
      ((e = d.userReturn n .valve sl ∧ k = (if (octetAt sl 2).getLsbD 0 then Coupler.latched else .unlatched) ∧
          p = (match (octetAt sl 1).toNat with
            | 0 => Position.closed
            | 1 => .low
            | 2 => .high
            | 3 => .moving
            | _ => .fault)) ∨
        (e = d.userLost n .valve f ∧ k = .unknown ∧ p = .unknown)) →
      (e.arm a).position = p ∧ (e.arm a).coupler = k ∧ (e.arm a).ring = (d.arm a).ring ∧
      (e.arm a).zeroFlow = (if (d.arm a).position = .closed ∧ p ≠ .closed then 0 else (d.arm a).zeroFlow) ∧
      (((d.arm a).coupler ≠ .latched ∨ k = .latched ∨ (d.arm a).flowing = false) →
        (e.arm a).batch = (d.arm a).batch ∧ e.bays = d.bays ∧ e.mp = d.mp) ∧
      (∀ t, (d.arm a).coupler = .latched → k ≠ .latched → (d.arm a).batch = some t → t.phase.flowing = true →
        (∃ x ∈ e.mp.notices, x.obj = .arm a ∧ x.event = 7) ∧
        ((∀ b, d.bayOfArm a = some b → (d.bay b).state ≠ .closing) →
          (e.arm a).batch = some { t with phase := .interrupted })) ∧
      (∀ x, x ≠ a → e.arm x = d.arm x) ∧ e.meters = d.meters ∧ e.custody = d.custody ∧ e.cw = d.cw) ∧
    ∀ a f, d.armOfMeter n = some a → e = d.userLost n .meter f →
      e.meter a = { d.meter a with baselineValid := false } ∧ (∀ x, x ≠ a → e.meter x = d.meter x) ∧
      ((d.arm a).batch = none → e.arms = d.arms) ∧
      (∀ t, (d.arm a).batch = some t → t.phase ≠ .ended →
        (∀ b, d.bayOfArm a = some b → (d.bay b).state ≠ .closing) →
        (e.arm a).batch = some { t with phase := .interrupted, flags := { t.flags with meterGap := true } }) ∧
      e.custody = d.custody ∧ e.cw = d.cw

/-- R43, R48 to R52: an injector keeps a standing offer; without one, and when it may make one, it offers a shot of an
eligible record, of an open or an ended batch, with shots pending and its close mark clear, under its next token and with
the part's time as the time of issue (notes/assumptions/22.md), of the two arms the one not served last, the higher-numbered
one when neither has been. An answer that takes the offer puts the shot in flight with its arm served last and takes it from
the pending ones; any other answer ends the offer, whose shot stays pending, is missed, or is cancelled at close, and one
the buffer should have held faults the injector. A completion that matches a shot in flight credits its volume to the shot's
record and its window, and zeroes the missed count. A station lost leaves the injector not seen and without an offer, the
shot pending. -/
def Obligations.InjectorReturns : Prop :=
  (∀ (d : Device) (c : Chan) (j : InjectorRec), d.injRec c = some j →
    (((d.inj c).offer ≠ none ∨ d.mayOffer c j = false ∨ d.eligible c = []) → d.offerShot c = d) ∧
    (d.mayOffer c j = true →
      (d.inj c).state = .available ∧ d.usable j.station .injector = true ∧ d.lu.esd = false ∧ d.lu.powerfail = false ∧
      ∃ v, (d.inj c).view = some v ∧ v.ready = true ∧
        ((d.inj c).inFlight = [] ∨ (j.acceptance = .buffered ∧ (d.inj c).inFlight.length = 1 ∧ v.bufferFree = true))) ∧
    (∀ t y, ((d.arm t.arm).batch = some t ∨ ∃ b, t ∈ (d.bay b).ended) → y ∈ t.dosing → y.dosed = true →
      y.injector = some c → 0 < y.pending → y.closeMark = false → d.dose ⟨t.arm, t.line, y.recipe⟩ = some y →
      ⟨t.arm, t.line, y.recipe⟩ ∈ d.eligible c) ∧
    ((d.eligible c).map DoseRef.arm).Pairwise (· ≤ ·) ∧
    ∀ r l, (d.inj c).offer = none → d.mayOffer c j = true → d.eligible c = r :: l →
      ∃ x, d.offerShot c = (d.onInj c fun i => { i with
          offer := some ⟨i.nextToken, x, !i.inFlight.isEmpty, .stays⟩
          nextToken := if i.nextToken = 255 then 1 else i.nextToken + 1 }) ∧ x ∈ d.eligible c ∧
        (∃ y, d.dose x = some y ∧ y.injector = some c ∧ 0 < y.pending ∧ y.closeMark = false) ∧
        ∀ q m, l = q :: m →
          (((d.inj c).lastServed = some r.arm ∨ (d.inj c).lastServed = none) → x = q) ∧
          ((d.inj c).lastServed = some q.arm → q.arm ≠ r.arm → x = r)) ∧
  (∀ (d e : Device) (c : Chan) (j : InjectorRec) (answer token : Nat), e = d.answerOffer c j answer token →
    ((d.inj c).offer = none → e = d) ∧
    ∀ o, (d.inj c).offer = some o →
      (answer = 1 → token = o.token →
        e.inj c = { d.inj c with
          offer := none, lastServed := some o.ref.arm, inFlight := (d.inj c).inFlight ++ [⟨o.token, o.ref, d.now⟩] } ∧
        ∀ y, d.dose o.ref = some y → e.dose o.ref = some { y with pending := y.pending - 1 }) ∧
      (¬ (answer = 1 ∧ token = o.token) →
        (e.inj c).offer = none ∧ (e.inj c).inFlight = (d.inj c).inFlight ∧ (e.inj c).lastServed = (d.inj c).lastServed ∧
        (j.acceptance = .buffered → o.onBuffer = true → (d.inj c).state ≠ .disabled → (e.inj c).state = .fault) ∧
        ((j.acceptance ≠ .buffered ∨ o.onBuffer = false) → (e.inj c).state = (d.inj c).state ∧
          ∀ y, d.dose o.ref = some y → ∃ z, e.dose o.ref = some z ∧ z.delivered = y.delivered ∧ z.completed = y.completed ∧
            (o.fate = .stays → (d.inj c).state ≠ .fault → z = y) ∧
            (o.fate = .cancelled → z = { y with pending := y.pending - 1, cancelled := y.cancelled + 1 }) ∧
            (o.fate = .missed → z.missed = y.missed + 1)))) ∧
  (∀ (d e : Device) (c : Chan) (j : InjectorRec) (token pulses : Nat), e = d.completeShot c j token pulses →
    ((∀ x ∈ (d.inj c).inFlight, x.token ≠ token) → e = d) ∧
    ∀ x, ((d.inj c).inFlight.find? fun y => y.token == token) = some x →
      (e.inj c).inFlight = (d.inj c).inFlight.erase x ∧ (e.inj c).missed = 0 ∧ (e.inj c).state = (d.inj c).state ∧
      (∀ y, d.dose x.ref = some y → ∃ z, e.dose x.ref = some z ∧ z.completed = y.completed + 1 ∧
        z.delivered = y.delivered + pulses * 1000000000 / j.kFactor ∧ z.missed = y.missed ∧
        ∀ k q, y.injector = some k → d.injRec k = some q → y.winCount + 1 < q.window →
          z.winCount = y.winCount + 1 ∧ z.winVol = y.winVol + pulses * 1000000000 / j.kFactor) ∧
      e.custody = d.custody ∧ e.meters = d.meters) ∧
  ∀ (d e : Device) (n : Addr) (c : Chan) (f : Bool), d.chanOf n = some c → e = d.userLost n .injector f →
    e = d.onInj c fun i => { i with view := none, offer := none }

/-! ### Frames -/

/-- R172, R173, Tables 10-1, 10-2 and 11-5: a segment built from a kind, a flag and a payload reads back as they are. From
an assembly at rest with room, the segments of a frame of 1 to 252 octets put that frame, and nothing else, at the FIFO's
tail. A frame without room is discarded and counted; a stray MIDDLE or LAST, a new FIRST or SINGLE over a frame in assembly,
a nineteenth segment, and a bad or lost segment in a frame abort it and are counted, and what is left of it is dropped. The
readiness is the last good segment's, and a good segment delivers the outbound segment its sweep carried. -/
def Obligations.InboundSegments : Prop :=
  (∀ (k : SegKind) (c : Nat) (flag : Bool) (p : List Byte), SegKind.ofCode c = some k →
    (k = .none → p = []) → (k ≠ .none → 1 ≤ p.length ∧ p.length ≤ 14) →
    readSegment (segmentOctets c flag p) = some (k, flag, p)) ∧
  (∀ (m : Mp) (f : List Byte), m.asm = .idle → m.fifo.length < 4 → 1 ≤ f.length → f.length ≤ 252 →
    (frameSegments f).foldl (fun x g => x.segment g.1 g.2) m = { m with fifo := m.fifo ++ [parseFrame f] }) ∧
  (∀ (m : Mp) (p : List Byte),
    (m.asm = .idle →
      m.segment .none p = m ∧
      (4 ≤ m.fifo.length → m.segment .single p = { m with discards := min 65535 (m.discards + 1) } ∧
        m.segment .first p = { m with discards := min 65535 (m.discards + 1), asm := .discarding }) ∧
      m.segment .middle p = { m with aborts := min 65535 (m.aborts + 1) } ∧
      m.segment .last p = { m with aborts := min 65535 (m.aborts + 1) }) ∧
    (∀ o n, m.asm = .assembling o n →
      m.segment .none p = m ∧
      (∀ x : Mp, x = { m with aborts := min 65535 (m.aborts + 1), asm := .idle } →
        m.segment .single p = x.segment .single p ∧ m.segment .first p = x.segment .first p) ∧
      (18 ≤ n → m.segment .middle p = { m with aborts := min 65535 (m.aborts + 1), asm := .discarding } ∧
        m.segment .last p = { m with aborts := min 65535 (m.aborts + 1), asm := .idle })) ∧
    (m.asm = .discarding →
      m.segment .none p = m ∧ m.segment .middle p = m ∧ m.segment .last p = { m with asm := .idle } ∧
      ∀ x : Mp, x = { m with asm := .idle } →
        m.segment .single p = x.segment .single p ∧ m.segment .first p = x.segment .first p)) ∧
  ∀ (m : Mp) (g : List Byte),
    (∀ k r p, readSegment g = some (k, r, p) → m.inbound g = ({ m with ready := r }.delivered).segment k p) ∧
    (readSegment g = none → ∀ x : Mp, x = m.inbound g →
      x = m.lost ∧ x.ready = m.ready ∧ x.fifo = m.fifo ∧ x.answers = m.answers ∧
      x.out = m.out.map (fun o => { o with sent := 0, inFlight := 0 }) ∧
      (∀ o n, m.asm = .assembling o n → x.asm = .discarding ∧ x.aborts = min 65535 (m.aborts + 1)) ∧
      ((∀ o n, m.asm ≠ .assembling o n) → x.asm = m.asm ∧ x.aborts = m.aborts))

/-- R174, R175, R177: with the gateway ready and no frame in progress MP chooses the answer at the head of its queue, else
the oldest notice, and the outbound segments of the sweeps that follow carry exactly that frame's octets, 14 in each, after
which an answer leaves its queue. Without readiness, or with nothing to send, the segment is NONE and the frame keeps its
place. Each segment's flag says whether the FIFO has room. -/
def Obligations.OutboundFrames : Prop :=
  (∀ (m : Mp) (a : Answer) (t : List Answer), m.out = none → m.ready = true → m.answers = a :: t →
    Mp.sent ((a.octs.length + 13) / 14) m = ({ m with answers := t }, a.octs) ∧
    ∀ n, n < (a.octs.length + 13) / 14 → (Mp.sent n m).1.answers = m.answers) ∧
  (∀ (m : Mp) (a : Notice) (t : List Notice), m.out = none → m.ready = true → m.answers = [] → m.notices = a :: t →
    Mp.sent ((a.octs.length + 13) / 14) m = ({ m with notices := t }, a.octs)) ∧
  (∀ (m : Mp) (f : OutFrame), m.out = some f → m.ready = true → f.sent < f.octs.length →
    m.outbound.2 = segmentOctets (segmentKind f.octs.length f.sent) (decide (m.fifo.length < 4))
      ((f.octs.drop f.sent).take 14) ∧
    (f.octs.length ≤ f.sent + 14 → m.outbound.1.delivered =
      { m with out := none, answers := if f.answer then m.answers.tail else m.answers }) ∧
    (f.sent + 14 < f.octs.length → m.outbound.1.delivered =
      { m with out := some { f with sent := f.sent + 14, inFlight := 0 } })) ∧
  (∀ m : Mp, (m.ready = false ∨ (m.out = none ∧ m.answers = [] ∧ m.notices = [])) →
    m.outbound.2 = segmentOctets 0 (decide (m.fifo.length < 4)) [] ∧
    m.outbound.1 = { m with out := m.out.map fun f => { f with inFlight := 0 } }) ∧
  ∀ n sent : Nat, segmentKind n sent =
    (if n ≤ 14 then 1 else if sent = 0 then 2 else if n ≤ sent + 14 then 4 else 3)

/-! ### What the blocks compute -/

/-- R11: the meter factor of a rate from an ascending curve: the first point's below it, the last point's above it, and
between two points the straight line, its fraction rounded half away from zero; it lies between the curve's smallest and
largest factors, and it becomes the arm's last MF. -/
def Obligations.MeterFactorFollowsTheCurve : Prop :=
  (∀ (curve : List CurvePoint) (q : Nat), (curve.map CurvePoint.q).Pairwise (· < ·) →
    (∀ p, curve.head? = some p → q ≤ p.q → meterFactor curve q = p.mf) ∧
    (∀ p, curve.getLast? = some p → p.q ≤ q → meterFactor curve q = p.mf) ∧
    (∀ p, curve = [p] → meterFactor curve q = p.mf) ∧
    (∀ (i : Nat) (p r : CurvePoint), curve[i]? = some p → curve[i + 1]? = some r → p.q ≤ q → q < r.q →
      (meterFactor curve q : Int) =
        p.mf + roundHalfAway (((r.mf : Int) - p.mf) * ((q : Int) - p.q)) (r.q - p.q)) ∧
    (curve ≠ [] → ∀ lo hi, (∀ p ∈ curve, lo ≤ p.mf ∧ p.mf ≤ hi) → lo ≤ meterFactor curve q ∧ meterFactor curve q ≤ hi)) ∧
  (∀ (d : Device) (a : ArmId) (r : ArmRecord) (dl dB q : Nat), (d.increment a r dl dB q).mf = meterFactor r.curve q) ∧
  ∀ (m : Meter) (i : Increment), (m.advance i).lastMf = i.mf

/-- R12: a sample's gross increment is floor(N / K) with N = d × 10^4 × MF + residue, and the residue becomes N mod K, so
that no fraction is lost; a sample without pulses leaves a residue below K as it is and gives no increment. -/
def Obligations.GrossIncrementKeepsEveryFraction : Prop :=
  ∀ (d : Device) (a : ArmId) (r : ArmRecord) (dl dB q : Nat) (i : Increment), i = d.increment a r dl dB q →
    i.vol.gross = (dl * 10 ^ 4 * i.mf + (d.meter a).grossResidue) / r.kFactor ∧
    i.grossRes = (dl * 10 ^ 4 * i.mf + (d.meter a).grossResidue) % r.kFactor ∧
    r.kFactor * i.vol.gross + i.grossRes = dl * 10 ^ 4 * i.mf + (d.meter a).grossResidue ∧
    (dl = 0 → (d.meter a).grossResidue < r.kFactor → i.vol.gross = 0 ∧ i.grossRes = (d.meter a).grossResidue) ∧
    ((d.meter a).advance i).grossResidue = i.grossRes

/-- R7 to R10, R12, R14 to R18, R41: a meter sample. Without a valid baseline it only sets it; with no time and no pulses it
is ignored; with pulses in no time, or faster than twice q_max, it is a count fault, which moves the baseline, marks an
open batch and adds its pulses to the discarded ones; otherwise the increments go to the mirror, to an open batch or the
unassigned accumulator, and to the Custody Writer. Its temperature is the held one, LIVE or HELD by the TEMP station's
state, or the product's FALLBACK (15.00 °C without a product); its VCF is 1 000 000 − F + G within 950 000 and 1 050 000,
with the roundings named. A mismatch of the channels, |d − dB| above max(2, d / 1000), is counted on an open batch and
flagged from the eighth on; TEMP_DEFAULTED and VCF_LIMITED are set by a sample with volume whose temperature is FALLBACK,
or whose VCF was clamped. -/
def Obligations.MeterSampleByItsDifferences : Prop :=
  (∀ (d : Device) (a : ArmId) (r : ArmRecord) (c : Counts) (dl dB e q : Nat), dl = (c.a - (d.meter a).baseline.a).toNat →
    dB = (c.b - (d.meter a).baseline.b).toNat → e = (c.ts - (d.meter a).baseline.ts).toNat →
    q = 6 * 10 ^ 8 * dl / (r.kFactor * e) →
    ((d.meter a).baselineValid = false →
      d.meterSample a r c = d.onMeter a fun x => { x with baseline := c, baselineValid := true }) ∧
    ((d.meter a).baselineValid = true → e = 0 → dl = 0 → d.meterSample a r c = d) ∧
    ((d.meter a).baselineValid = true → ((e = 0 ∧ dl ≠ 0) ∨ (e ≠ 0 ∧ 2 * r.qMax < q)) →
      (d.meterSample a r c).meter a = { d.meter a with baseline := c } ∧
      (∀ b, (d.arm a).batch = some b →
        ((d.meterSample a r c).arm a).batch =
          some { b with flags := { b.flags with countFault := true }, discarded := b.discarded + dl } ∧
        (b.phase = .closeWait → ((d.meterSample a r c).arm a).zeroFlow = 0)) ∧
      ((d.arm a).batch = none → (d.meterSample a r c).arm a = d.arm a) ∧
      (d.meterSample a r c).cw = d.cw ∧ (d.meterSample a r c).injs = d.injs ∧ (d.meterSample a r c).mp = d.mp) ∧
    ((d.meter a).baselineValid = true → e ≠ 0 → q ≤ 2 * r.qMax →
      ∀ i, i = d.increment a r dl dB q →
        ((d.meterSample a r c).meter a).baseline = c ∧ ((d.meterSample a r c).meter a).lastFlow = q ∧
        ((d.meterSample a r c).meter a).grossResidue = i.grossRes ∧ ((d.meterSample a r c).meter a).netResidue = i.netRes ∧
        ((d.meterSample a r c).meter a).lastVcf = i.vcf ∧
        i.vol.net = (i.vol.gross * i.vcf + (d.meter a).netResidue) / 10 ^ 6 ∧
        i.netRes = (i.vol.gross * i.vcf + (d.meter a).netResidue) % 10 ^ 6 ∧
        ((d.meterSample a r c).meter a).mirror = (d.meter a).mirror.add i.vol ∧
        (∀ x, x ≠ a → (d.meterSample a r c).meter x = d.meter x) ∧
        ((d.meterSample a r c).meter a).unwritten.add ((d.meterSample a r c).cw.queued a) =
          ((d.meter a).unwritten.add (d.cw.queued a)).add i.vol ∧
        ((d.arm a).batch = none → ((d.meterSample a r c).arm a).unassigned = (d.arm a).unassigned.add i.vol) ∧
        (∀ b, (d.arm a).batch = some b → b.phase ≠ .closeWait →
          ∃ x, ((d.meterSample a r c).arm a).batch = some x ∧ x.delivered = b.delivered.add i.vol ∧
            x.tempSum = b.tempSum + (i.vol.gross : Int) * i.temp) ∧
        ((d.meterSample a r c).meter a).lastMf = i.mf ∧ ((d.meterSample a r c).meter a).currentTemp = i.temp ∧
        ((d.meterSample a r c).meter a).tempSource = i.source ∧
        (∀ p, p = (d.productOf r.product).map Prod.snd → ∀ good : Prop, (good ↔ r.temp ≠ 0 ∧
            (d.station r.temp).isKind .temp = true ∧ (d.station r.temp).faulty = false ∧ (d.meter a).heldValid = true) →
          (good → (d.station r.temp).state = .active → i.temp = (d.meter a).heldTemp ∧ i.source = .live) ∧
          (good → (d.station r.temp).state = .slipped → i.temp = (d.meter a).heldTemp ∧ i.source = .held) ∧
          ((good → (d.station r.temp).state ≠ .active ∧ (d.station r.temp).state ≠ .slipped) →
            i.source = .fallback ∧ i.temp = (p.map Product.fallback).getD 1500) ∧
          (p = none → i.vcf = 1000000 ∧ i.clamped = false) ∧
          (∀ (x : Product) (f v : Int) (g : Nat), p = some x → f = roundHalfAway ((x.alpha : Int) * (i.temp - 1500)) 100 →
            g = roundHalfUp (f.natAbs * f.natAbs) 2000000 → v = 1000000 - f + (g : Int) →
            (v < 950000 → i.vcf = 950000) ∧ (1050000 < v → i.vcf = 1050000) ∧
            (950000 ≤ v → v ≤ 1050000 → (i.vcf : Int) = v) ∧ (i.clamped = true ↔ v < 950000 ∨ 1050000 < v))) ∧
        (i.mismatch = true ↔ max 2 (dl / 1000) < ((dl : Int) - (dB : Int)).natAbs) ∧
        (∀ b, (d.arm a).batch = some b → b.arm = a → ∃ x,
          (((d.meterSample a r c).arm a).batch = some x ∨ ∃ y, x ∈ ((d.meterSample a r c).bay y).ended) ∧
          x.line = b.line ∧ x.delivered = b.delivered.add i.vol ∧
          x.mismatches = (if i.mismatch then b.mismatches + 1 else b.mismatches) ∧
          (x.flags.pulseMismatch = true ↔ b.flags.pulseMismatch = true ∨ (i.mismatch = true ∧ 8 ≤ x.mismatches)) ∧
          (x.flags.tempDefaulted = true ↔ b.flags.tempDefaulted = true ∨
            (i.source = .fallback ∧ 0 < i.vol.gross ∧ d.productOf r.product ≠ none)) ∧
          (x.flags.vcfLimited = true ↔ b.flags.vcfLimited = true ∨ (i.clamped = true ∧ 0 < i.vol.gross)) ∧
          x.flags.countFault = b.flags.countFault ∧ x.discarded = b.discarded))) ∧
  (∀ n d : Nat, 0 < d → d * (2 * roundHalfUp n d) ≤ 2 * n + d ∧ 2 * n + d < d * (2 * roundHalfUp n d + 2)) ∧
  ∀ (n : Int) (d : Nat), roundHalfAway n d = (if 0 ≤ n then (roundHalfUp n.natAbs d : Int) else -(roundHalfUp n.natAbs d : Int))


/-- R28: a sample handed to an open batch adds its increments and then tests the phase: within the close-ahead of the preset
the batch passes to CLOSE_WAIT with a PRESET snapshot, the stage CLOSED, the zero-flow count 0 and its dosing records told;
else START passes to TAPER or FULL at the start volume, and FULL to TAPER at the taper volume. A count fault changes no
phase. -/
def Obligations.PhaseTestsInOrder : Prop :=
  ∀ (d : Device) (a : ArmId) (i : Increment) (b : Batch) (v : Nat) (left : Int), (d.arm a).batch = some b → b.arm = a →
    v = (match b.basis with
      | .gross => b.delivered.gross + i.vol.gross
      | .net => b.delivered.net + i.vol.net) →
    left = ((b.preset * 10 ^ 6 : Nat) : Int) - (v : Int) →
    (∃ x, ((d.batchSample a i).arm a).batch = some x ∧ x.delivered = b.delivered.add i.vol ∧
      (b.phase.flowing = true → left ≤ (((d.arm a).closeAhead * 1000 : Nat) : Int) →
        x.phase = .closeWait ∧ x.snapshot = some (v, .preset) ∧ ((d.batchSample a i).arm a).zeroFlow = 0 ∧
        ((d.batchSample a i).arm a).commanded = .closed ∧ ∀ y ∈ x.dosing, y.dosed = true → y.closeMark = true) ∧
      (b.phase.flowing = true → (((d.arm a).closeAhead * 1000 : Nat) : Int) < left →
        x.snapshot = b.snapshot ∧
        x.phase = (if b.phase = .start ∧ b.startVol * 10 ^ 6 ≤ v then
            (if left ≤ ((b.taperVol * 10 ^ 6 : Nat) : Int) then .taper else .full)
          else if b.phase = .full ∧ left ≤ ((b.taperVol * 10 ^ 6 : Nat) : Int) then .taper
          else b.phase)) ∧
      (b.phase.flowing = false → x.phase = b.phase ∧ x.snapshot = b.snapshot)) ∧
    ∀ (c : Counts) (dl : Nat), ∃ x, ((d.countFault a c dl).arm a).batch = some x ∧ x.phase = b.phase ∧
      x.delivered = b.delivered ∧ x.snapshot = b.snapshot

/-- R29: the throttle mark acts in FULL alone, where it makes the commanded stage LOW and its absence HIGH; START and TAPER
command LOW, CLOSE_WAIT, INTERRUPTED and ENDED CLOSED, whatever the mark. R36: a VALVE call carries the commanded stage when
it is LOW or HIGH, the bay is LOADING, both permissives are present, neither ESD nor the power-fail warning is latched and
the batch is in START, FULL or TAPER, and CLOSED otherwise; R37: the travel timer stops when the position agrees with that
stage. R154, Table 8-5: without an arm record, or with the station in MISMATCH, the call carries CLOSED. -/
def Obligations.StageOfAValveCall : Prop :=
  (∀ (c : ArmCtl) (b : Batch), c.batch = some b →
    c.commanded = (match b.phase with
      | .start | .taper => .low
      | .full => if b.throttle then .low else .high
      | .closeWait | .interrupted | .ended => .closed)) ∧
  (∀ (d : Device) (n : Addr) (e : StationEntry), (d.station n).entry = some e → e.kind = .valve →
    (d.station n).state ≠ .mismatch →
    (∀ a, d.armOfValve n = some a →
      d.call n = (d, [BitVec.ofNat 8 (d.effectiveStage a).code, 0#8, 0#8, 0#8, 0#8, 0#8])) ∧
    (d.armOfValve n = none → d.call n = (d, [0#8, 0#8, 0#8, 0#8, 0#8, 0#8]))) ∧
  (∀ (d : Device) (n : Addr) (e : StationEntry), (d.station n).entry = some e → e.kind = .valve →
    (d.station n).state = .mismatch → d.call n = (d, [0#8, 0#8, 0#8, 0#8, 0#8, 0#8])) ∧
  (∀ (d : Device) (a : ArmId),
    ((∃ b x, d.bayOfArm a = some b ∧ (d.bay b).state = .loading ∧ (d.bay b).ground = true ∧ (d.bay b).overfill = true ∧
        d.lu.esd = false ∧ d.lu.powerfail = false ∧ (d.arm a).batch = some x ∧ x.phase ∈ [.start, .full, .taper]) →
      d.effectiveStage a = (d.arm a).commanded) ∧
    (¬ (∃ b x, d.bayOfArm a = some b ∧ (d.bay b).state = .loading ∧ (d.bay b).ground = true ∧ (d.bay b).overfill = true ∧
        d.lu.esd = false ∧ d.lu.powerfail = false ∧ (d.arm a).batch = some x ∧ x.phase ∈ [.start, .full, .taper]) →
      d.effectiveStage a = .closed)) ∧
  ∀ (old new : Device) (a : ArmId),
    (old.effectiveStage a ≠ new.effectiveStage a ∨ (old.arm a).position ≠ (new.arm a).position) →
    (((superviseArm old new a).arm a).travel = none ↔
      (((new.arm a).position = .closed ∧ new.effectiveStage a = .closed) ∨
        ((new.arm a).position = .low ∧ new.effectiveStage a = .low) ∨
        ((new.arm a).position = .high ∧ new.effectiveStage a = .high)))

/-- R31, R33, R34, R40, R61, R72, R93, R105: a batch in CLOSE_WAIT whose zero-flow count has reached 3 ends. It joins its
bay's ended batches with the running totals as closing readings, its end time, COMPLETE or SHORT, OVERRUN beyond its limit,
and the required additive of each dosing record; a close on PRESET teaches the ring its overrun and the close-ahead its
average; its order line is ENDED, gives its reservation back, and the account is charged the net litres delivered. A LOADING
bay whose lines have all ENDED with no batch open then closes the load. -/
def Obligations.BatchEnds : Prop :=
  (∀ (d e : Device) (a : ArmId) (b : BayId) (t : Batch) (short : Bool), (d.arm a).batch = some t → t.arm = a →
    d.bayOfArm a = some b → e = d.endBatch a short →
    (e.arm a).batch = none ∧ (∀ x, x ≠ a → e.arm x = d.arm x) ∧
    (∀ v n, t.phase = .closeWait → t.snapshot = some (v, .preset) → short = false → n = overrunMl t.volume v →
      (e.arm a).ring = ⟨(d.arm a).ring.e1, (d.arm a).ring.e2, (d.arm a).ring.e3, n⟩ ∧
      (e.arm a).closeAhead = ((d.arm a).ring.e1 + (d.arm a).ring.e2 + (d.arm a).ring.e3 + n) / 4) ∧
    ((short = true ∨ t.phase ≠ .closeWait ∨ ∀ v, t.snapshot ≠ some (v, .preset)) →
      (e.arm a).ring = (d.arm a).ring ∧ (e.arm a).closeAhead = (d.arm a).closeAhead) ∧
    (∃ x ∈ (e.bay b).ended, x.arm = a ∧ x.line = t.line ∧ x.compartment = t.compartment ∧ x.delivered = t.delivered ∧
      x.opening = t.opening ∧ x.closing = some (d.meter a).mirror ∧ x.endTime = some d.time ∧ x.phase = .ended ∧
      x.endStatus = some (if short = true ∨ t.volume + 1000000 < t.preset * 1000000 then .short else .complete) ∧
      x.flags.overrun =
        (t.flags.overrun || decide (t.preset * 1000000 + t.overrun * 1000000 < t.volume)) ∧
      x.dosing.length = t.dosing.length ∧
      ∀ y ∈ x.dosing, y.required = some (requiredAdditive t.delivered.gross y.dose)) ∧
    (e.bay b).ended.length = (d.bay b).ended.length + 1 ∧
    (((d.bay b).ended.map Batch.compartment).Pairwise (· ≤ ·) → ((e.bay b).ended.map Batch.compartment).Pairwise (· ≤ ·)) ∧
    (e.bay b).state = (d.bay b).state ∧ (∀ x, x ≠ b → e.bay x = d.bay x) ∧
    (∀ o l p, d.orderOf b = some o → o.lines[t.line]? = some l → l.reservation = some p →
      e.orderNumbered o.number = some { o with
        lines := o.lines.modify t.line fun y => { y with batch := .ended, reservation := none } } ∧
      (d.tablesWf = true → ∀ x, Sparse.get o.account d.accounts = some x → ∃ y, Sparse.get o.account e.accounts = some y ∧
        Bank.read y.reserved p = Bank.read x.reserved p - l.preset ∧
        Bank.read y.remaining p =
          max (-2147483648) (Bank.read x.remaining p - ((netLitres t.delivered.net : Nat) : Int)) ∧
        ∀ i, i ≠ p → Bank.read y.reserved i = Bank.read x.reserved i ∧ Bank.read y.remaining i = Bank.read x.remaining i)) ∧
    (∃ x ∈ e.mp.notices, x.obj = .arm a ∧ x.event = 5) ∧
    e.custody = d.custody ∧ e.meters = d.meters ∧ e.cw = d.cw ∧ e.lm = d.lm) ∧
  (∀ (d : Device) (a : ArmId) (b : BayId) (t : Batch), (d.arm a).batch = some t → d.bayOfArm a = some b →
    (t.phase = .closeWait → 3 ≤ (d.arm a).zeroFlow → d.zeroFlowTest a = (d.endBatch a false).loadTest b) ∧
    ((t.phase ≠ .closeWait ∨ (d.arm a).zeroFlow < 3) → d.zeroFlowTest a = d) ∧
    ∀ i : Increment, t.phase = .closeWait → ((d.batchSample a i).arm a).zeroFlow =
      (if (d.arm a).position = .closed ∧ i.pulses = 0 then (d.arm a).zeroFlow + 1 else 0)) ∧
  ∀ (d : Device) (b : BayId) (o : Order), d.orderOf b = some o →
    (((d.bay b).state = .loading ∧ (∀ l ∈ o.lines, l.batch = .ended) ∧ ∀ a ∈ d.armsOf b, (d.arm a).batch = none) →
      d.loadTest b = d.closeLoad b ∧ ((d.loadTest b).bay b).state = .closing) ∧
    (¬ ((d.bay b).state = .loading ∧ (∀ l ∈ o.lines, l.batch = .ended) ∧ ∀ a ∈ d.armsOf b, (d.arm a).batch = none) →
      d.loadTest b = d)

/-- R46, Table 3-4, L3: a gross increment leaves the accumulator of a DOSED record below its threshold S × 10^8, and every
shot that falls due is settled once, one after the other: with the close mark set it is cancelled at close; with the
injector in FAULT, ESD or the power-fail warning latched, or two pending, it is missed, counted in the window and marked
DOSE_SHORTFALL; otherwise it is pending, and the second pending one throttles the batch (R47). R56, R57: a record whose
window count reaches W is checked: it fails when its volume differs from W × S × 100 by more than T per cent. A failed
window sets ADDITIVE_FAULT and is reported with its figures (notes/assumptions/64.md, 9.md, 12.md), and a STOP line then
stops its flowing batch; a passed one changes nothing but the window, which begins again. -/
def Obligations.EveryShotDueIsSettledOnce : Prop :=
  (∀ (d : Device) (r : DoseRef) (dVg : Nat) (x : Dosing) (c : Chan) (j : InjectorRec), d.dose r = some x →
    x.injector = some c → d.injRec c = some j → 0 < j.shot →
    ∃ y, (d.doseRecord dVg r).dose r = some y ∧
      y.acc = (x.acc + dVg * x.dose) % (j.shot * 10 ^ 8) ∧ y.acc < j.shot * 10 ^ 8 ∧
      y.pending + y.missed + y.cancelled =
        x.pending + x.missed + x.cancelled + (x.acc + dVg * x.dose) / (j.shot * 10 ^ 8) ∧
      y.completed = x.completed ∧ y.delivered = x.delivered ∧ y.injector = x.injector ∧
      d.doseRecord dVg r = Device.shotsDue ((x.acc + dVg * x.dose) / (j.shot * 10 ^ 8)) r c
        (d.onDose r fun z => { z with acc := (x.acc + dVg * x.dose) % (j.shot * 10 ^ 8) })) ∧
  (∀ (n : Nat) (d : Device) (r : DoseRef) (c : Chan),
    Device.shotsDue 0 r c d = d ∧ Device.shotsDue (n + 1) r c d = Device.shotsDue n r c (d.shotDue r c)) ∧
  (∀ (d e : Device) (r : DoseRef) (c : Chan) (x : Dosing), d.dose r = some x → e = d.shotDue r c →
    (x.closeMark = true → e.dose r = some { x with cancelled := x.cancelled + 1 } ∧ e.mp = d.mp) ∧
    (x.closeMark = false →
      ((d.inj c).state = .fault ∨ d.lu.esd = true ∨ d.lu.powerfail = true ∨ 2 ≤ x.pending) →
      ∃ y, e.dose r = some y ∧ y.missed = x.missed + 1 ∧ y.pending + y.cancelled = x.pending + x.cancelled ∧
        (∃ t, e.doseBatch r = some t ∧ t.flags.doseShortfall = true) ∧
        ∀ k j, x.injector = some k → d.injRec k = some j →
          (x.winCount + 1 < j.window → y = { x with missed := x.missed + 1, winCount := x.winCount + 1 } ∧ e.mp = d.mp) ∧
          (j.window ≤ x.winCount + 1 → y.winCount = 0 ∧ y.winVol = 0)) ∧
    (x.closeMark = false → (d.inj c).state ≠ .fault → d.lu.esd = false → d.lu.powerfail = false → x.pending < 2 →
      e.dose r = some { x with pending := x.pending + 1 } ∧ e.mp = d.mp ∧
      ∀ t, d.doseBatch r = some t → ∃ u, e.doseBatch r = some u ∧ u.flags = t.flags ∧
        u.throttle = (t.throttle || x.pending == 1))) ∧
  ∀ (d e : Device) (r : DoseRef) (x : Dosing) (c : Chan) (j : InjectorRec), d.dose r = some x →
    x.injector = some c → d.injRec c = some j → e = d.checkWindow r →
    (x.winCount < j.window → e = d) ∧
    (j.window ≤ x.winCount →
      (∃ y, e.dose r = some y ∧ y.winCount = 0 ∧ y.winVol = 0 ∧ y.missed = x.missed ∧ y.completed = x.completed ∧
        y.delivered = x.delivered) ∧
      ∀ fails : Prop, (fails ↔ j.tolerance * (j.window * j.shot * 100) <
          ((x.winVol : Int) - ((j.window * j.shot * 100 : Nat) : Int)).natAbs * 100) →
        (¬ fails → e = d.onDose r fun y => { y with winCount := 0, winVol := 0 }) ∧
        (fails →
          (∃ m ∈ e.mp.notices, m.obj = .injector c ∧ m.event = 2 ∧ m.fields =
            [octets 1 c.val, octets 1 (d.inj c).state.code, octets 1 (d.inj c).missed, octets 1 r.arm.val,
              octets 1 r.recipe, octets 4 x.winVol, octets 4 (j.window * j.shot * 100)]) ∧
          (∃ t, e.doseBatch r = some t ∧ t.flags.additiveFault = true) ∧
          ∀ t, d.refOpen r = true → (d.arm r.arm).batch = some t →
            ∃ u, (e.arm r.arm).batch = some u ∧ u.delivered = t.delivered ∧
              (if x.action = .stop ∧ t.phase.flowing = true then u.phase = .closeWait ∧ u.snapshot = some (t.volume, .stop)
                else u.phase = t.phase ∧ u.snapshot = t.snapshot)))


/-- R185, Tables 10-4 and 10-5: the frame of a well-formed request reads back as that request, whatever its kind and its
operands. -/
def Obligations.EveryRequestFrameReadsBack : Prop :=
  ∀ (i : Instr) (f : List Byte), i.wf = true → encodeFrame i = some f → parseFrame f = i
end

