-- ==== Sys2Proof/Laws/Tables.lean ====
section
/-! SUPPORT. The laws of banks and of sparse tables: a read after a write, writes that change nothing, and the canonical
form every sparse operation keeps. -/

namespace Sys2Proof.Machine

open Sys2Proof

/-! ### Banks -/

theorem Bank.read_write {α : Type} {n : Nat} (v : Vector α n) (i j : Fin n) (x : α) :
    Bank.read (Bank.write v i x) j = if j = i then x else Bank.read v j := by
  simp only [Bank.read, Bank.write, Vector.get_eq_getElem, Vector.getElem_set, Fin.ext_iff, eq_comm]

@[simp] theorem Bank.read_write_same {α : Type} {n : Nat} (v : Vector α n) (i : Fin n) (x : α) :
    Bank.read (Bank.write v i x) i = x := by rw [Bank.read_write, if_pos rfl]

theorem Bank.read_write_other {α : Type} {n : Nat} (v : Vector α n) (i j : Fin n) (x : α) (h : j ≠ i) :
    Bank.read (Bank.write v i x) j = Bank.read v j := by rw [Bank.read_write, if_neg h]

/-- Two banks that read alike everywhere are one bank. -/
theorem Bank.ext {α : Type} {n : Nat} (v w : Vector α n) (h : ∀ i, Bank.read v i = Bank.read w i) : v = w :=
  Vector.ext fun i hi => by have := h ⟨i, hi⟩; simpa only [Bank.read, Vector.get_eq_getElem] using this

/-- Writing back what a bank holds changes nothing. -/
@[simp] theorem Bank.write_read {α : Type} {n : Nat} (v : Vector α n) (i : Fin n) : Bank.write v i (Bank.read v i) = v :=
  Bank.ext _ _ fun j => by rw [Bank.read_write]; split <;> simp_all

@[simp] theorem Bank.write_write {α : Type} {n : Nat} (v : Vector α n) (i : Fin n) (x y : α) :
    Bank.write (Bank.write v i x) i y = Bank.write v i y :=
  Bank.ext _ _ fun j => by simp only [Bank.read_write]; split <;> rfl

/-- A bank made by changing every record the same way. -/
@[simp] theorem Bank.read_map {α β : Type} {n : Nat} (v : Vector α n) (f : α → β) (i : Fin n) :
    Bank.read (v.map f) i = f (Bank.read v i) := by simp [Bank.read]

@[simp] theorem Bank.read_ofFn {α : Type} {n : Nat} (f : Fin n → α) (i : Fin n) : Bank.read (Vector.ofFn f) i = f i := by
  simp [Bank.read]

@[simp] theorem Bank.read_replicate {α : Type} {n : Nat} (x : α) (i : Fin n) : Bank.read (Vector.replicate n x) i = x := by
  simp [Bank.read]

/-! ### Sparse tables -/

@[simp] theorem Sparse.get_put_same {α : Type} (i : Nat) (x : α) (t : List (Nat × α)) : Sparse.get i (Sparse.put i x t) = some x := by
  induction t with
  | nil => simp [Sparse.put, Sparse.get]
  | cons e t ih =>
    obtain ⟨j, y⟩ := e
    simp only [Sparse.put]
    split
    · simp [Sparse.get]
    · split
      · simp [Sparse.get]
      · simp [Sparse.get, *]

/-- A write to one index leaves every other index as it was. -/
theorem Sparse.get_put_other {α : Type} (i j : Nat) (x : α) (t : List (Nat × α)) (h : j ≠ i) :
    Sparse.get j (Sparse.put i x t) = Sparse.get j t := by
  induction t with
  | nil => simp [Sparse.put, Sparse.get, h]
  | cons e t ih =>
    obtain ⟨k, y⟩ := e
    simp only [Sparse.put]
    split
    · simp [Sparse.get, h]
    · split
      · subst_vars; simp [Sparse.get, h]
      · simp only [Sparse.get, ih]

/-- The canonical form says that the tail's indexes lie above the head's and that the tail is canonical. -/
theorem Sparse.wf_cons {α : Type} (n j : Nat) (x : α) (t : List (Nat × α)) :
    Sparse.wf n ((j, x) :: t) = true ↔ j < n ∧ Sparse.wf n t = true ∧ ∀ e ∈ t, j < e.1 := by
  induction t generalizing j x with
  | nil => simp [Sparse.wf]
  | cons e t ih =>
    obtain ⟨k, y⟩ := e
    simp only [Sparse.wf, Bool.and_eq_true, decide_eq_true_eq, List.mem_cons, forall_eq_or_imp]
    rw [ih]
    constructor
    · rintro ⟨h, h1, h2, h3⟩
      exact ⟨by omega, ⟨h1, h2, h3⟩, h, fun e he => lt_trans h (h3 e he)⟩
    · rintro ⟨-, ⟨h1, h2, h3⟩, h, -⟩
      exact ⟨h, h1, h2, h3⟩

theorem Sparse.mem_put {α : Type} (i : Nat) (x : α) (t : List (Nat × α)) (e : Nat × α) (h : e ∈ Sparse.put i x t) :
    e = (i, x) ∨ e ∈ t := by
  induction t with
  | nil => simpa [Sparse.put] using h
  | cons f t ih =>
    obtain ⟨j, y⟩ := f
    simp only [Sparse.put] at h
    split at h
    · simpa using h
    · split at h
      · simp only [List.mem_cons] at h ⊢; tauto
      · simp only [List.mem_cons] at h ⊢; tauto

/-- A write below the bound keeps the canonical form. -/
theorem Sparse.wf_put {α : Type} (n i : Nat) (x : α) (t : List (Nat × α)) (hi : i < n) (h : Sparse.wf n t = true) :
    Sparse.wf n (Sparse.put i x t) = true := by
  induction t with
  | nil => simpa [Sparse.put, Sparse.wf] using hi
  | cons e t ih =>
    obtain ⟨j, y⟩ := e
    have h' := (Sparse.wf_cons n j y t).mp h
    simp only [Sparse.put]
    split
    next hlt =>
      refine (Sparse.wf_cons _ _ _ _).mpr ⟨hi, h, fun e he => ?_⟩
      rcases List.mem_cons.mp he with rfl | he
      · exact hlt
      · exact lt_trans hlt (h'.2.2 e he)
    next hlt =>
      split
      next heq => subst heq; exact (Sparse.wf_cons _ _ _ _).mpr h'
      next hne =>
        refine (Sparse.wf_cons _ _ _ _).mpr ⟨h'.1, ih h'.2.1, fun e he => ?_⟩
        rcases Sparse.mem_put i x t e he with rfl | he
        · exact (by omega : j < i)
        · exact h'.2.2 e he

theorem Sparse.mem_del {α : Type} (i : Nat) (t : List (Nat × α)) (e : Nat × α) (h : e ∈ Sparse.del i t) : e ∈ t := by
  induction t with
  | nil => simp [Sparse.del] at h
  | cons f t ih =>
    obtain ⟨j, y⟩ := f
    simp only [Sparse.del] at h
    split at h
    · exact List.mem_cons_of_mem _ h
    · simp only [List.mem_cons] at h ⊢; tauto

/-- Emptying a slot keeps the canonical form. -/
theorem Sparse.wf_del {α : Type} (n i : Nat) (t : List (Nat × α)) (h : Sparse.wf n t = true) :
    Sparse.wf n (Sparse.del i t) = true := by
  induction t with
  | nil => rfl
  | cons e t ih =>
    obtain ⟨j, y⟩ := e
    have h' := (Sparse.wf_cons n j y t).mp h
    simp only [Sparse.del]
    split
    · exact h'.2.1
    · exact (Sparse.wf_cons _ _ _ _).mpr ⟨h'.1, ih h'.2.1, fun e he => h'.2.2 e (Sparse.mem_del i t e he)⟩

/-- An emptied slot of a canonical table reads as empty. -/
theorem Sparse.get_del_same {α : Type} (n i : Nat) (t : List (Nat × α)) (h : Sparse.wf n t = true) :
    Sparse.get i (Sparse.del i t) = none := by
  induction t with
  | nil => rfl
  | cons e t ih =>
    obtain ⟨j, y⟩ := e
    have h' := (Sparse.wf_cons n j y t).mp h
    simp only [Sparse.del]
    split
    next heq =>
      subst heq
      have : ∀ u : List (Nat × α), (∀ e ∈ u, i < e.1) → Sparse.get i u = none := by
        intro u hu
        induction u with
        | nil => rfl
        | cons f u ihu =>
          have := hu f (by simp)
          simp only [Sparse.get]
          rw [if_neg (by omega)]
          exact ihu fun e he => hu e (by simp [he])
      exact this t h'.2.2
    next hne => simp only [Sparse.get, if_neg hne]; exact ih h'.2.1

/-- Emptying one slot leaves every other as it was. -/
theorem Sparse.get_del_other {α : Type} (i j : Nat) (t : List (Nat × α)) (h : j ≠ i) :
    Sparse.get j (Sparse.del i t) = Sparse.get j t := by
  induction t with
  | nil => rfl
  | cons e t ih =>
    obtain ⟨k, y⟩ := e
    simp only [Sparse.del]
    split
    · subst_vars; simp [Sparse.get, h]
    · simp only [Sparse.get, ih]

/-- An index that a canonical table holds lies below its bound. -/
theorem Sparse.lt_of_get {α : Type} (n i : Nat) (x : α) (t : List (Nat × α)) (h : Sparse.wf n t = true)
    (hg : Sparse.get i t = some x) : i < n := by
  induction t with
  | nil => simp [Sparse.get] at hg
  | cons e t ih =>
    obtain ⟨j, y⟩ := e
    have h' := (Sparse.wf_cons n j y t).mp h
    simp only [Sparse.get] at hg
    split at hg
    · subst_vars; exact h'.1
    · exact ih h'.2.1 hg

end Sys2Proof.Machine
end

