-- ==== Sys2Proof/Laws/State.lean ====
section
/-! SUPPORT. What each named update of the part leaves in each field and in each record: one lemma per field per update, so
that no later proof unfolds a record update. -/

namespace Sys2Proof.Machine.Device

open Sys2Proof

/-! ### `onMp` -/

@[simp] theorem onMp_boot (d : Device) (f : Mp → Mp) : (d.onMp f).boot = d.boot := rfl
@[simp] theorem onMp_now (d : Device) (f : Mp → Mp) : (d.onMp f).now = d.now := rfl
@[simp] theorem onMp_cuts (d : Device) (f : Mp → Mp) : (d.onMp f).cuts = d.cuts := rfl
@[simp] theorem onMp_custody (d : Device) (f : Mp → Mp) : (d.onMp f).custody = d.custody := rfl
@[simp] theorem onMp_armRecs (d : Device) (f : Mp → Mp) : (d.onMp f).armRecs = d.armRecs := rfl
@[simp] theorem onMp_products (d : Device) (f : Mp → Mp) : (d.onMp f).products = d.products := rfl
@[simp] theorem onMp_meters (d : Device) (f : Mp → Mp) : (d.onMp f).meters = d.meters := rfl
@[simp] theorem onMp_arms (d : Device) (f : Mp → Mp) : (d.onMp f).arms = d.arms := rfl
@[simp] theorem onMp_injRecs (d : Device) (f : Mp → Mp) : (d.onMp f).injRecs = d.injRecs := rfl
@[simp] theorem onMp_injs (d : Device) (f : Mp → Mp) : (d.onMp f).injs = d.injs := rfl
@[simp] theorem onMp_bayRecs (d : Device) (f : Mp → Mp) : (d.onMp f).bayRecs = d.bayRecs := rfl
@[simp] theorem onMp_bays (d : Device) (f : Mp → Mp) : (d.onMp f).bays = d.bays := rfl
@[simp] theorem onMp_permits (d : Device) (f : Mp → Mp) : (d.onMp f).permits = d.permits := rfl
@[simp] theorem onMp_accounts (d : Device) (f : Mp → Mp) : (d.onMp f).accounts = d.accounts := rfl
@[simp] theorem onMp_orders (d : Device) (f : Mp → Mp) : (d.onMp f).orders = d.orders := rfl
@[simp] theorem onMp_cw (d : Device) (f : Mp → Mp) : (d.onMp f).cw = d.cw := rfl
@[simp] theorem onMp_nu (d : Device) (f : Mp → Mp) : (d.onMp f).nu = d.nu := rfl
@[simp] theorem onMp_lm (d : Device) (f : Mp → Mp) : (d.onMp f).lm = d.lm := rfl
@[simp] theorem onMp_lu (d : Device) (f : Mp → Mp) : (d.onMp f).lu = d.lu := rfl
@[simp] theorem onMp_mp (d : Device) (f : Mp → Mp) : (d.onMp f).mp = f d.mp := rfl
@[simp] theorem onMp_arm (d : Device) (f : Mp → Mp) (j : ArmId) : (d.onMp f).arm j = d.arm j := rfl
@[simp] theorem onMp_meter (d : Device) (f : Mp → Mp) (j : ArmId) : (d.onMp f).meter j = d.meter j := rfl
@[simp] theorem onMp_armRec (d : Device) (f : Mp → Mp) (j : ArmId) : (d.onMp f).armRec j = d.armRec j := rfl
@[simp] theorem onMp_product (d : Device) (f : Mp → Mp) (j : ProdIdx) : (d.onMp f).product j = d.product j := rfl
@[simp] theorem onMp_injRec (d : Device) (f : Mp → Mp) (j : Chan) : (d.onMp f).injRec j = d.injRec j := rfl
@[simp] theorem onMp_inj (d : Device) (f : Mp → Mp) (j : Chan) : (d.onMp f).inj j = d.inj j := rfl
@[simp] theorem onMp_bayRec (d : Device) (f : Mp → Mp) (j : BayId) : (d.onMp f).bayRec j = d.bayRec j := rfl
@[simp] theorem onMp_bay (d : Device) (f : Mp → Mp) (j : BayId) : (d.onMp f).bay j = d.bay j := rfl
@[simp] theorem onMp_station (d : Device) (f : Mp → Mp) (j : Addr) : (d.onMp f).station j = d.station j := rfl
@[simp] theorem onMp_line (d : Device) (f : Mp → Mp) (j : LineId) : (d.onMp f).line j = d.line j := rfl
@[simp] theorem onMp_slot (d : Device) (f : Mp → Mp) (j : SlotId) : (d.onMp f).slot j = d.slot j := rfl
@[simp] theorem onMp_noteBay (d : Device) (f : Mp → Mp) (j : BayId) : (d.onMp f).noteBay j = d.noteBay j := rfl

/-! ### `onLm` -/

@[simp] theorem onLm_boot (d : Device) (f : Lm → Lm) : (d.onLm f).boot = d.boot := rfl
@[simp] theorem onLm_now (d : Device) (f : Lm → Lm) : (d.onLm f).now = d.now := rfl
@[simp] theorem onLm_cuts (d : Device) (f : Lm → Lm) : (d.onLm f).cuts = d.cuts := rfl
@[simp] theorem onLm_custody (d : Device) (f : Lm → Lm) : (d.onLm f).custody = d.custody := rfl
@[simp] theorem onLm_armRecs (d : Device) (f : Lm → Lm) : (d.onLm f).armRecs = d.armRecs := rfl
@[simp] theorem onLm_products (d : Device) (f : Lm → Lm) : (d.onLm f).products = d.products := rfl
@[simp] theorem onLm_meters (d : Device) (f : Lm → Lm) : (d.onLm f).meters = d.meters := rfl
@[simp] theorem onLm_arms (d : Device) (f : Lm → Lm) : (d.onLm f).arms = d.arms := rfl
@[simp] theorem onLm_injRecs (d : Device) (f : Lm → Lm) : (d.onLm f).injRecs = d.injRecs := rfl
@[simp] theorem onLm_injs (d : Device) (f : Lm → Lm) : (d.onLm f).injs = d.injs := rfl
@[simp] theorem onLm_bayRecs (d : Device) (f : Lm → Lm) : (d.onLm f).bayRecs = d.bayRecs := rfl
@[simp] theorem onLm_bays (d : Device) (f : Lm → Lm) : (d.onLm f).bays = d.bays := rfl
@[simp] theorem onLm_permits (d : Device) (f : Lm → Lm) : (d.onLm f).permits = d.permits := rfl
@[simp] theorem onLm_accounts (d : Device) (f : Lm → Lm) : (d.onLm f).accounts = d.accounts := rfl
@[simp] theorem onLm_orders (d : Device) (f : Lm → Lm) : (d.onLm f).orders = d.orders := rfl
@[simp] theorem onLm_cw (d : Device) (f : Lm → Lm) : (d.onLm f).cw = d.cw := rfl
@[simp] theorem onLm_nu (d : Device) (f : Lm → Lm) : (d.onLm f).nu = d.nu := rfl
@[simp] theorem onLm_lm (d : Device) (f : Lm → Lm) : (d.onLm f).lm = f d.lm := rfl
@[simp] theorem onLm_lu (d : Device) (f : Lm → Lm) : (d.onLm f).lu = d.lu := rfl
@[simp] theorem onLm_mp (d : Device) (f : Lm → Lm) : (d.onLm f).mp = d.mp := rfl
@[simp] theorem onLm_arm (d : Device) (f : Lm → Lm) (j : ArmId) : (d.onLm f).arm j = d.arm j := rfl
@[simp] theorem onLm_meter (d : Device) (f : Lm → Lm) (j : ArmId) : (d.onLm f).meter j = d.meter j := rfl
@[simp] theorem onLm_armRec (d : Device) (f : Lm → Lm) (j : ArmId) : (d.onLm f).armRec j = d.armRec j := rfl
@[simp] theorem onLm_product (d : Device) (f : Lm → Lm) (j : ProdIdx) : (d.onLm f).product j = d.product j := rfl
@[simp] theorem onLm_injRec (d : Device) (f : Lm → Lm) (j : Chan) : (d.onLm f).injRec j = d.injRec j := rfl
@[simp] theorem onLm_inj (d : Device) (f : Lm → Lm) (j : Chan) : (d.onLm f).inj j = d.inj j := rfl
@[simp] theorem onLm_bayRec (d : Device) (f : Lm → Lm) (j : BayId) : (d.onLm f).bayRec j = d.bayRec j := rfl
@[simp] theorem onLm_bay (d : Device) (f : Lm → Lm) (j : BayId) : (d.onLm f).bay j = d.bay j := rfl
@[simp] theorem onLm_line (d : Device) (f : Lm → Lm) (j : LineId) : (d.onLm f).line j = d.line j := rfl
@[simp] theorem onLm_slot (d : Device) (f : Lm → Lm) (j : SlotId) : (d.onLm f).slot j = d.slot j := rfl
@[simp] theorem onLm_noteBay (d : Device) (f : Lm → Lm) (j : BayId) : (d.onLm f).noteBay j = d.noteBay j := rfl

/-! ### `onLu` -/

@[simp] theorem onLu_boot (d : Device) (f : Lu → Lu) : (d.onLu f).boot = d.boot := rfl
@[simp] theorem onLu_now (d : Device) (f : Lu → Lu) : (d.onLu f).now = d.now := rfl
@[simp] theorem onLu_cuts (d : Device) (f : Lu → Lu) : (d.onLu f).cuts = d.cuts := rfl
@[simp] theorem onLu_custody (d : Device) (f : Lu → Lu) : (d.onLu f).custody = d.custody := rfl
@[simp] theorem onLu_armRecs (d : Device) (f : Lu → Lu) : (d.onLu f).armRecs = d.armRecs := rfl
@[simp] theorem onLu_products (d : Device) (f : Lu → Lu) : (d.onLu f).products = d.products := rfl
@[simp] theorem onLu_meters (d : Device) (f : Lu → Lu) : (d.onLu f).meters = d.meters := rfl
@[simp] theorem onLu_arms (d : Device) (f : Lu → Lu) : (d.onLu f).arms = d.arms := rfl
@[simp] theorem onLu_injRecs (d : Device) (f : Lu → Lu) : (d.onLu f).injRecs = d.injRecs := rfl
@[simp] theorem onLu_injs (d : Device) (f : Lu → Lu) : (d.onLu f).injs = d.injs := rfl
@[simp] theorem onLu_bayRecs (d : Device) (f : Lu → Lu) : (d.onLu f).bayRecs = d.bayRecs := rfl
@[simp] theorem onLu_bays (d : Device) (f : Lu → Lu) : (d.onLu f).bays = d.bays := rfl
@[simp] theorem onLu_permits (d : Device) (f : Lu → Lu) : (d.onLu f).permits = d.permits := rfl
@[simp] theorem onLu_accounts (d : Device) (f : Lu → Lu) : (d.onLu f).accounts = d.accounts := rfl
@[simp] theorem onLu_orders (d : Device) (f : Lu → Lu) : (d.onLu f).orders = d.orders := rfl
@[simp] theorem onLu_cw (d : Device) (f : Lu → Lu) : (d.onLu f).cw = d.cw := rfl
@[simp] theorem onLu_nu (d : Device) (f : Lu → Lu) : (d.onLu f).nu = d.nu := rfl
@[simp] theorem onLu_lm (d : Device) (f : Lu → Lu) : (d.onLu f).lm = d.lm := rfl
@[simp] theorem onLu_lu (d : Device) (f : Lu → Lu) : (d.onLu f).lu = f d.lu := rfl
@[simp] theorem onLu_mp (d : Device) (f : Lu → Lu) : (d.onLu f).mp = d.mp := rfl
@[simp] theorem onLu_arm (d : Device) (f : Lu → Lu) (j : ArmId) : (d.onLu f).arm j = d.arm j := rfl
@[simp] theorem onLu_meter (d : Device) (f : Lu → Lu) (j : ArmId) : (d.onLu f).meter j = d.meter j := rfl
@[simp] theorem onLu_armRec (d : Device) (f : Lu → Lu) (j : ArmId) : (d.onLu f).armRec j = d.armRec j := rfl
@[simp] theorem onLu_product (d : Device) (f : Lu → Lu) (j : ProdIdx) : (d.onLu f).product j = d.product j := rfl
@[simp] theorem onLu_injRec (d : Device) (f : Lu → Lu) (j : Chan) : (d.onLu f).injRec j = d.injRec j := rfl
@[simp] theorem onLu_inj (d : Device) (f : Lu → Lu) (j : Chan) : (d.onLu f).inj j = d.inj j := rfl
@[simp] theorem onLu_bayRec (d : Device) (f : Lu → Lu) (j : BayId) : (d.onLu f).bayRec j = d.bayRec j := rfl
@[simp] theorem onLu_bay (d : Device) (f : Lu → Lu) (j : BayId) : (d.onLu f).bay j = d.bay j := rfl
@[simp] theorem onLu_station (d : Device) (f : Lu → Lu) (j : Addr) : (d.onLu f).station j = d.station j := rfl
@[simp] theorem onLu_slot (d : Device) (f : Lu → Lu) (j : SlotId) : (d.onLu f).slot j = d.slot j := rfl
@[simp] theorem onLu_noteBay (d : Device) (f : Lu → Lu) (j : BayId) : (d.onLu f).noteBay j = d.noteBay j := rfl

/-! ### `onCw` -/

@[simp] theorem onCw_boot (d : Device) (f : Cw → Cw) : (d.onCw f).boot = d.boot := rfl
@[simp] theorem onCw_now (d : Device) (f : Cw → Cw) : (d.onCw f).now = d.now := rfl
@[simp] theorem onCw_cuts (d : Device) (f : Cw → Cw) : (d.onCw f).cuts = d.cuts := rfl
@[simp] theorem onCw_custody (d : Device) (f : Cw → Cw) : (d.onCw f).custody = d.custody := rfl
@[simp] theorem onCw_armRecs (d : Device) (f : Cw → Cw) : (d.onCw f).armRecs = d.armRecs := rfl
@[simp] theorem onCw_products (d : Device) (f : Cw → Cw) : (d.onCw f).products = d.products := rfl
@[simp] theorem onCw_meters (d : Device) (f : Cw → Cw) : (d.onCw f).meters = d.meters := rfl
@[simp] theorem onCw_arms (d : Device) (f : Cw → Cw) : (d.onCw f).arms = d.arms := rfl
@[simp] theorem onCw_injRecs (d : Device) (f : Cw → Cw) : (d.onCw f).injRecs = d.injRecs := rfl
@[simp] theorem onCw_injs (d : Device) (f : Cw → Cw) : (d.onCw f).injs = d.injs := rfl
@[simp] theorem onCw_bayRecs (d : Device) (f : Cw → Cw) : (d.onCw f).bayRecs = d.bayRecs := rfl
@[simp] theorem onCw_bays (d : Device) (f : Cw → Cw) : (d.onCw f).bays = d.bays := rfl
@[simp] theorem onCw_permits (d : Device) (f : Cw → Cw) : (d.onCw f).permits = d.permits := rfl
@[simp] theorem onCw_accounts (d : Device) (f : Cw → Cw) : (d.onCw f).accounts = d.accounts := rfl
@[simp] theorem onCw_orders (d : Device) (f : Cw → Cw) : (d.onCw f).orders = d.orders := rfl
@[simp] theorem onCw_cw (d : Device) (f : Cw → Cw) : (d.onCw f).cw = f d.cw := rfl
@[simp] theorem onCw_nu (d : Device) (f : Cw → Cw) : (d.onCw f).nu = d.nu := rfl
@[simp] theorem onCw_lm (d : Device) (f : Cw → Cw) : (d.onCw f).lm = d.lm := rfl
@[simp] theorem onCw_lu (d : Device) (f : Cw → Cw) : (d.onCw f).lu = d.lu := rfl
@[simp] theorem onCw_mp (d : Device) (f : Cw → Cw) : (d.onCw f).mp = d.mp := rfl
@[simp] theorem onCw_arm (d : Device) (f : Cw → Cw) (j : ArmId) : (d.onCw f).arm j = d.arm j := rfl
@[simp] theorem onCw_meter (d : Device) (f : Cw → Cw) (j : ArmId) : (d.onCw f).meter j = d.meter j := rfl
@[simp] theorem onCw_armRec (d : Device) (f : Cw → Cw) (j : ArmId) : (d.onCw f).armRec j = d.armRec j := rfl
@[simp] theorem onCw_product (d : Device) (f : Cw → Cw) (j : ProdIdx) : (d.onCw f).product j = d.product j := rfl
@[simp] theorem onCw_injRec (d : Device) (f : Cw → Cw) (j : Chan) : (d.onCw f).injRec j = d.injRec j := rfl
@[simp] theorem onCw_inj (d : Device) (f : Cw → Cw) (j : Chan) : (d.onCw f).inj j = d.inj j := rfl
@[simp] theorem onCw_bayRec (d : Device) (f : Cw → Cw) (j : BayId) : (d.onCw f).bayRec j = d.bayRec j := rfl
@[simp] theorem onCw_bay (d : Device) (f : Cw → Cw) (j : BayId) : (d.onCw f).bay j = d.bay j := rfl
@[simp] theorem onCw_station (d : Device) (f : Cw → Cw) (j : Addr) : (d.onCw f).station j = d.station j := rfl
@[simp] theorem onCw_line (d : Device) (f : Cw → Cw) (j : LineId) : (d.onCw f).line j = d.line j := rfl
@[simp] theorem onCw_slot (d : Device) (f : Cw → Cw) (j : SlotId) : (d.onCw f).slot j = d.slot j := rfl
@[simp] theorem onCw_noteBay (d : Device) (f : Cw → Cw) (j : BayId) : (d.onCw f).noteBay j = d.noteBay j := rfl

/-! ### `onNu` -/

@[simp] theorem onNu_boot (d : Device) (f : Nu → Nu) : (d.onNu f).boot = d.boot := rfl
@[simp] theorem onNu_now (d : Device) (f : Nu → Nu) : (d.onNu f).now = d.now := rfl
@[simp] theorem onNu_cuts (d : Device) (f : Nu → Nu) : (d.onNu f).cuts = d.cuts := rfl
@[simp] theorem onNu_custody (d : Device) (f : Nu → Nu) : (d.onNu f).custody = d.custody := rfl
@[simp] theorem onNu_armRecs (d : Device) (f : Nu → Nu) : (d.onNu f).armRecs = d.armRecs := rfl
@[simp] theorem onNu_products (d : Device) (f : Nu → Nu) : (d.onNu f).products = d.products := rfl
@[simp] theorem onNu_meters (d : Device) (f : Nu → Nu) : (d.onNu f).meters = d.meters := rfl
@[simp] theorem onNu_arms (d : Device) (f : Nu → Nu) : (d.onNu f).arms = d.arms := rfl
@[simp] theorem onNu_injRecs (d : Device) (f : Nu → Nu) : (d.onNu f).injRecs = d.injRecs := rfl
@[simp] theorem onNu_injs (d : Device) (f : Nu → Nu) : (d.onNu f).injs = d.injs := rfl
@[simp] theorem onNu_bayRecs (d : Device) (f : Nu → Nu) : (d.onNu f).bayRecs = d.bayRecs := rfl
@[simp] theorem onNu_bays (d : Device) (f : Nu → Nu) : (d.onNu f).bays = d.bays := rfl
@[simp] theorem onNu_permits (d : Device) (f : Nu → Nu) : (d.onNu f).permits = d.permits := rfl
@[simp] theorem onNu_accounts (d : Device) (f : Nu → Nu) : (d.onNu f).accounts = d.accounts := rfl
@[simp] theorem onNu_orders (d : Device) (f : Nu → Nu) : (d.onNu f).orders = d.orders := rfl
@[simp] theorem onNu_cw (d : Device) (f : Nu → Nu) : (d.onNu f).cw = d.cw := rfl
@[simp] theorem onNu_nu (d : Device) (f : Nu → Nu) : (d.onNu f).nu = f d.nu := rfl
@[simp] theorem onNu_lm (d : Device) (f : Nu → Nu) : (d.onNu f).lm = d.lm := rfl
@[simp] theorem onNu_lu (d : Device) (f : Nu → Nu) : (d.onNu f).lu = d.lu := rfl
@[simp] theorem onNu_mp (d : Device) (f : Nu → Nu) : (d.onNu f).mp = d.mp := rfl
@[simp] theorem onNu_arm (d : Device) (f : Nu → Nu) (j : ArmId) : (d.onNu f).arm j = d.arm j := rfl
@[simp] theorem onNu_meter (d : Device) (f : Nu → Nu) (j : ArmId) : (d.onNu f).meter j = d.meter j := rfl
@[simp] theorem onNu_armRec (d : Device) (f : Nu → Nu) (j : ArmId) : (d.onNu f).armRec j = d.armRec j := rfl
@[simp] theorem onNu_product (d : Device) (f : Nu → Nu) (j : ProdIdx) : (d.onNu f).product j = d.product j := rfl
@[simp] theorem onNu_injRec (d : Device) (f : Nu → Nu) (j : Chan) : (d.onNu f).injRec j = d.injRec j := rfl
@[simp] theorem onNu_inj (d : Device) (f : Nu → Nu) (j : Chan) : (d.onNu f).inj j = d.inj j := rfl
@[simp] theorem onNu_bayRec (d : Device) (f : Nu → Nu) (j : BayId) : (d.onNu f).bayRec j = d.bayRec j := rfl
@[simp] theorem onNu_bay (d : Device) (f : Nu → Nu) (j : BayId) : (d.onNu f).bay j = d.bay j := rfl
@[simp] theorem onNu_station (d : Device) (f : Nu → Nu) (j : Addr) : (d.onNu f).station j = d.station j := rfl
@[simp] theorem onNu_line (d : Device) (f : Nu → Nu) (j : LineId) : (d.onNu f).line j = d.line j := rfl

/-! ### `onCustody` -/

@[simp] theorem onCustody_boot (d : Device) (f : Custody → Custody) : (d.onCustody f).boot = d.boot := rfl
@[simp] theorem onCustody_now (d : Device) (f : Custody → Custody) : (d.onCustody f).now = d.now := rfl
@[simp] theorem onCustody_cuts (d : Device) (f : Custody → Custody) : (d.onCustody f).cuts = d.cuts := rfl
@[simp] theorem onCustody_custody (d : Device) (f : Custody → Custody) : (d.onCustody f).custody = f d.custody := rfl
@[simp] theorem onCustody_armRecs (d : Device) (f : Custody → Custody) : (d.onCustody f).armRecs = d.armRecs := rfl
@[simp] theorem onCustody_products (d : Device) (f : Custody → Custody) : (d.onCustody f).products = d.products := rfl
@[simp] theorem onCustody_meters (d : Device) (f : Custody → Custody) : (d.onCustody f).meters = d.meters := rfl
@[simp] theorem onCustody_arms (d : Device) (f : Custody → Custody) : (d.onCustody f).arms = d.arms := rfl
@[simp] theorem onCustody_injRecs (d : Device) (f : Custody → Custody) : (d.onCustody f).injRecs = d.injRecs := rfl
@[simp] theorem onCustody_injs (d : Device) (f : Custody → Custody) : (d.onCustody f).injs = d.injs := rfl
@[simp] theorem onCustody_bayRecs (d : Device) (f : Custody → Custody) : (d.onCustody f).bayRecs = d.bayRecs := rfl
@[simp] theorem onCustody_bays (d : Device) (f : Custody → Custody) : (d.onCustody f).bays = d.bays := rfl
@[simp] theorem onCustody_permits (d : Device) (f : Custody → Custody) : (d.onCustody f).permits = d.permits := rfl
@[simp] theorem onCustody_accounts (d : Device) (f : Custody → Custody) : (d.onCustody f).accounts = d.accounts := rfl
@[simp] theorem onCustody_orders (d : Device) (f : Custody → Custody) : (d.onCustody f).orders = d.orders := rfl
@[simp] theorem onCustody_cw (d : Device) (f : Custody → Custody) : (d.onCustody f).cw = d.cw := rfl
@[simp] theorem onCustody_nu (d : Device) (f : Custody → Custody) : (d.onCustody f).nu = d.nu := rfl
@[simp] theorem onCustody_lm (d : Device) (f : Custody → Custody) : (d.onCustody f).lm = d.lm := rfl
@[simp] theorem onCustody_lu (d : Device) (f : Custody → Custody) : (d.onCustody f).lu = d.lu := rfl
@[simp] theorem onCustody_mp (d : Device) (f : Custody → Custody) : (d.onCustody f).mp = d.mp := rfl
@[simp] theorem onCustody_arm (d : Device) (f : Custody → Custody) (j : ArmId) : (d.onCustody f).arm j = d.arm j := rfl
@[simp] theorem onCustody_meter (d : Device) (f : Custody → Custody) (j : ArmId) : (d.onCustody f).meter j = d.meter j := rfl
@[simp] theorem onCustody_armRec (d : Device) (f : Custody → Custody) (j : ArmId) : (d.onCustody f).armRec j = d.armRec j := rfl
@[simp] theorem onCustody_product (d : Device) (f : Custody → Custody) (j : ProdIdx) : (d.onCustody f).product j = d.product j := rfl
@[simp] theorem onCustody_injRec (d : Device) (f : Custody → Custody) (j : Chan) : (d.onCustody f).injRec j = d.injRec j := rfl
@[simp] theorem onCustody_inj (d : Device) (f : Custody → Custody) (j : Chan) : (d.onCustody f).inj j = d.inj j := rfl
@[simp] theorem onCustody_bayRec (d : Device) (f : Custody → Custody) (j : BayId) : (d.onCustody f).bayRec j = d.bayRec j := rfl
@[simp] theorem onCustody_bay (d : Device) (f : Custody → Custody) (j : BayId) : (d.onCustody f).bay j = d.bay j := rfl
@[simp] theorem onCustody_station (d : Device) (f : Custody → Custody) (j : Addr) : (d.onCustody f).station j = d.station j := rfl
@[simp] theorem onCustody_line (d : Device) (f : Custody → Custody) (j : LineId) : (d.onCustody f).line j = d.line j := rfl
@[simp] theorem onCustody_slot (d : Device) (f : Custody → Custody) (j : SlotId) : (d.onCustody f).slot j = d.slot j := rfl
@[simp] theorem onCustody_noteBay (d : Device) (f : Custody → Custody) (j : BayId) : (d.onCustody f).noteBay j = d.noteBay j := rfl

/-! ### `onOrders` -/

@[simp] theorem onOrders_boot (d : Device) (f : List Order → List Order) : (d.onOrders f).boot = d.boot := rfl
@[simp] theorem onOrders_now (d : Device) (f : List Order → List Order) : (d.onOrders f).now = d.now := rfl
@[simp] theorem onOrders_cuts (d : Device) (f : List Order → List Order) : (d.onOrders f).cuts = d.cuts := rfl
@[simp] theorem onOrders_custody (d : Device) (f : List Order → List Order) : (d.onOrders f).custody = d.custody := rfl
@[simp] theorem onOrders_armRecs (d : Device) (f : List Order → List Order) : (d.onOrders f).armRecs = d.armRecs := rfl
@[simp] theorem onOrders_products (d : Device) (f : List Order → List Order) : (d.onOrders f).products = d.products := rfl
@[simp] theorem onOrders_meters (d : Device) (f : List Order → List Order) : (d.onOrders f).meters = d.meters := rfl
@[simp] theorem onOrders_arms (d : Device) (f : List Order → List Order) : (d.onOrders f).arms = d.arms := rfl
@[simp] theorem onOrders_injRecs (d : Device) (f : List Order → List Order) : (d.onOrders f).injRecs = d.injRecs := rfl
@[simp] theorem onOrders_injs (d : Device) (f : List Order → List Order) : (d.onOrders f).injs = d.injs := rfl
@[simp] theorem onOrders_bayRecs (d : Device) (f : List Order → List Order) : (d.onOrders f).bayRecs = d.bayRecs := rfl
@[simp] theorem onOrders_bays (d : Device) (f : List Order → List Order) : (d.onOrders f).bays = d.bays := rfl
@[simp] theorem onOrders_permits (d : Device) (f : List Order → List Order) : (d.onOrders f).permits = d.permits := rfl
@[simp] theorem onOrders_accounts (d : Device) (f : List Order → List Order) : (d.onOrders f).accounts = d.accounts := rfl
@[simp] theorem onOrders_orders (d : Device) (f : List Order → List Order) : (d.onOrders f).orders = f d.orders := rfl
@[simp] theorem onOrders_cw (d : Device) (f : List Order → List Order) : (d.onOrders f).cw = d.cw := rfl
@[simp] theorem onOrders_nu (d : Device) (f : List Order → List Order) : (d.onOrders f).nu = d.nu := rfl
@[simp] theorem onOrders_lm (d : Device) (f : List Order → List Order) : (d.onOrders f).lm = d.lm := rfl
@[simp] theorem onOrders_lu (d : Device) (f : List Order → List Order) : (d.onOrders f).lu = d.lu := rfl
@[simp] theorem onOrders_mp (d : Device) (f : List Order → List Order) : (d.onOrders f).mp = d.mp := rfl
@[simp] theorem onOrders_arm (d : Device) (f : List Order → List Order) (j : ArmId) : (d.onOrders f).arm j = d.arm j := rfl
@[simp] theorem onOrders_meter (d : Device) (f : List Order → List Order) (j : ArmId) : (d.onOrders f).meter j = d.meter j := rfl
@[simp] theorem onOrders_armRec (d : Device) (f : List Order → List Order) (j : ArmId) : (d.onOrders f).armRec j = d.armRec j := rfl
@[simp] theorem onOrders_product (d : Device) (f : List Order → List Order) (j : ProdIdx) : (d.onOrders f).product j = d.product j := rfl
@[simp] theorem onOrders_injRec (d : Device) (f : List Order → List Order) (j : Chan) : (d.onOrders f).injRec j = d.injRec j := rfl
@[simp] theorem onOrders_inj (d : Device) (f : List Order → List Order) (j : Chan) : (d.onOrders f).inj j = d.inj j := rfl
@[simp] theorem onOrders_bayRec (d : Device) (f : List Order → List Order) (j : BayId) : (d.onOrders f).bayRec j = d.bayRec j := rfl
@[simp] theorem onOrders_bay (d : Device) (f : List Order → List Order) (j : BayId) : (d.onOrders f).bay j = d.bay j := rfl
@[simp] theorem onOrders_station (d : Device) (f : List Order → List Order) (j : Addr) : (d.onOrders f).station j = d.station j := rfl
@[simp] theorem onOrders_line (d : Device) (f : List Order → List Order) (j : LineId) : (d.onOrders f).line j = d.line j := rfl
@[simp] theorem onOrders_slot (d : Device) (f : List Order → List Order) (j : SlotId) : (d.onOrders f).slot j = d.slot j := rfl
@[simp] theorem onOrders_noteBay (d : Device) (f : List Order → List Order) (j : BayId) : (d.onOrders f).noteBay j = d.noteBay j := rfl

/-! ### `onPermits` -/

@[simp] theorem onPermits_boot (d : Device) (f : List (Nat × Permit) → List (Nat × Permit)) : (d.onPermits f).boot = d.boot := rfl
@[simp] theorem onPermits_now (d : Device) (f : List (Nat × Permit) → List (Nat × Permit)) : (d.onPermits f).now = d.now := rfl
@[simp] theorem onPermits_cuts (d : Device) (f : List (Nat × Permit) → List (Nat × Permit)) : (d.onPermits f).cuts = d.cuts := rfl
@[simp] theorem onPermits_custody (d : Device) (f : List (Nat × Permit) → List (Nat × Permit)) : (d.onPermits f).custody = d.custody := rfl
@[simp] theorem onPermits_armRecs (d : Device) (f : List (Nat × Permit) → List (Nat × Permit)) : (d.onPermits f).armRecs = d.armRecs := rfl
@[simp] theorem onPermits_products (d : Device) (f : List (Nat × Permit) → List (Nat × Permit)) : (d.onPermits f).products = d.products := rfl
@[simp] theorem onPermits_meters (d : Device) (f : List (Nat × Permit) → List (Nat × Permit)) : (d.onPermits f).meters = d.meters := rfl
@[simp] theorem onPermits_arms (d : Device) (f : List (Nat × Permit) → List (Nat × Permit)) : (d.onPermits f).arms = d.arms := rfl
@[simp] theorem onPermits_injRecs (d : Device) (f : List (Nat × Permit) → List (Nat × Permit)) : (d.onPermits f).injRecs = d.injRecs := rfl
@[simp] theorem onPermits_injs (d : Device) (f : List (Nat × Permit) → List (Nat × Permit)) : (d.onPermits f).injs = d.injs := rfl
@[simp] theorem onPermits_bayRecs (d : Device) (f : List (Nat × Permit) → List (Nat × Permit)) : (d.onPermits f).bayRecs = d.bayRecs := rfl
@[simp] theorem onPermits_bays (d : Device) (f : List (Nat × Permit) → List (Nat × Permit)) : (d.onPermits f).bays = d.bays := rfl
@[simp] theorem onPermits_permits (d : Device) (f : List (Nat × Permit) → List (Nat × Permit)) : (d.onPermits f).permits = f d.permits := rfl
@[simp] theorem onPermits_accounts (d : Device) (f : List (Nat × Permit) → List (Nat × Permit)) : (d.onPermits f).accounts = d.accounts := rfl
@[simp] theorem onPermits_orders (d : Device) (f : List (Nat × Permit) → List (Nat × Permit)) : (d.onPermits f).orders = d.orders := rfl
@[simp] theorem onPermits_cw (d : Device) (f : List (Nat × Permit) → List (Nat × Permit)) : (d.onPermits f).cw = d.cw := rfl
@[simp] theorem onPermits_nu (d : Device) (f : List (Nat × Permit) → List (Nat × Permit)) : (d.onPermits f).nu = d.nu := rfl
@[simp] theorem onPermits_lm (d : Device) (f : List (Nat × Permit) → List (Nat × Permit)) : (d.onPermits f).lm = d.lm := rfl
@[simp] theorem onPermits_lu (d : Device) (f : List (Nat × Permit) → List (Nat × Permit)) : (d.onPermits f).lu = d.lu := rfl
@[simp] theorem onPermits_mp (d : Device) (f : List (Nat × Permit) → List (Nat × Permit)) : (d.onPermits f).mp = d.mp := rfl
@[simp] theorem onPermits_arm (d : Device) (f : List (Nat × Permit) → List (Nat × Permit)) (j : ArmId) : (d.onPermits f).arm j = d.arm j := rfl
@[simp] theorem onPermits_meter (d : Device) (f : List (Nat × Permit) → List (Nat × Permit)) (j : ArmId) : (d.onPermits f).meter j = d.meter j := rfl
@[simp] theorem onPermits_armRec (d : Device) (f : List (Nat × Permit) → List (Nat × Permit)) (j : ArmId) : (d.onPermits f).armRec j = d.armRec j := rfl
@[simp] theorem onPermits_product (d : Device) (f : List (Nat × Permit) → List (Nat × Permit)) (j : ProdIdx) : (d.onPermits f).product j = d.product j := rfl
@[simp] theorem onPermits_injRec (d : Device) (f : List (Nat × Permit) → List (Nat × Permit)) (j : Chan) : (d.onPermits f).injRec j = d.injRec j := rfl
@[simp] theorem onPermits_inj (d : Device) (f : List (Nat × Permit) → List (Nat × Permit)) (j : Chan) : (d.onPermits f).inj j = d.inj j := rfl
@[simp] theorem onPermits_bayRec (d : Device) (f : List (Nat × Permit) → List (Nat × Permit)) (j : BayId) : (d.onPermits f).bayRec j = d.bayRec j := rfl
@[simp] theorem onPermits_bay (d : Device) (f : List (Nat × Permit) → List (Nat × Permit)) (j : BayId) : (d.onPermits f).bay j = d.bay j := rfl
@[simp] theorem onPermits_station (d : Device) (f : List (Nat × Permit) → List (Nat × Permit)) (j : Addr) : (d.onPermits f).station j = d.station j := rfl
@[simp] theorem onPermits_line (d : Device) (f : List (Nat × Permit) → List (Nat × Permit)) (j : LineId) : (d.onPermits f).line j = d.line j := rfl
@[simp] theorem onPermits_slot (d : Device) (f : List (Nat × Permit) → List (Nat × Permit)) (j : SlotId) : (d.onPermits f).slot j = d.slot j := rfl
@[simp] theorem onPermits_noteBay (d : Device) (f : List (Nat × Permit) → List (Nat × Permit)) (j : BayId) : (d.onPermits f).noteBay j = d.noteBay j := rfl

/-! ### `onAccounts` -/

@[simp] theorem onAccounts_boot (d : Device) (f : List (Nat × Account) → List (Nat × Account)) : (d.onAccounts f).boot = d.boot := rfl
@[simp] theorem onAccounts_now (d : Device) (f : List (Nat × Account) → List (Nat × Account)) : (d.onAccounts f).now = d.now := rfl
@[simp] theorem onAccounts_cuts (d : Device) (f : List (Nat × Account) → List (Nat × Account)) : (d.onAccounts f).cuts = d.cuts := rfl
@[simp] theorem onAccounts_custody (d : Device) (f : List (Nat × Account) → List (Nat × Account)) : (d.onAccounts f).custody = d.custody := rfl
@[simp] theorem onAccounts_armRecs (d : Device) (f : List (Nat × Account) → List (Nat × Account)) : (d.onAccounts f).armRecs = d.armRecs := rfl
@[simp] theorem onAccounts_products (d : Device) (f : List (Nat × Account) → List (Nat × Account)) : (d.onAccounts f).products = d.products := rfl
@[simp] theorem onAccounts_meters (d : Device) (f : List (Nat × Account) → List (Nat × Account)) : (d.onAccounts f).meters = d.meters := rfl
@[simp] theorem onAccounts_arms (d : Device) (f : List (Nat × Account) → List (Nat × Account)) : (d.onAccounts f).arms = d.arms := rfl
@[simp] theorem onAccounts_injRecs (d : Device) (f : List (Nat × Account) → List (Nat × Account)) : (d.onAccounts f).injRecs = d.injRecs := rfl
@[simp] theorem onAccounts_injs (d : Device) (f : List (Nat × Account) → List (Nat × Account)) : (d.onAccounts f).injs = d.injs := rfl
@[simp] theorem onAccounts_bayRecs (d : Device) (f : List (Nat × Account) → List (Nat × Account)) : (d.onAccounts f).bayRecs = d.bayRecs := rfl
@[simp] theorem onAccounts_bays (d : Device) (f : List (Nat × Account) → List (Nat × Account)) : (d.onAccounts f).bays = d.bays := rfl
@[simp] theorem onAccounts_permits (d : Device) (f : List (Nat × Account) → List (Nat × Account)) : (d.onAccounts f).permits = d.permits := rfl
@[simp] theorem onAccounts_accounts (d : Device) (f : List (Nat × Account) → List (Nat × Account)) : (d.onAccounts f).accounts = f d.accounts := rfl
@[simp] theorem onAccounts_orders (d : Device) (f : List (Nat × Account) → List (Nat × Account)) : (d.onAccounts f).orders = d.orders := rfl
@[simp] theorem onAccounts_cw (d : Device) (f : List (Nat × Account) → List (Nat × Account)) : (d.onAccounts f).cw = d.cw := rfl
@[simp] theorem onAccounts_nu (d : Device) (f : List (Nat × Account) → List (Nat × Account)) : (d.onAccounts f).nu = d.nu := rfl
@[simp] theorem onAccounts_lm (d : Device) (f : List (Nat × Account) → List (Nat × Account)) : (d.onAccounts f).lm = d.lm := rfl
@[simp] theorem onAccounts_lu (d : Device) (f : List (Nat × Account) → List (Nat × Account)) : (d.onAccounts f).lu = d.lu := rfl
@[simp] theorem onAccounts_mp (d : Device) (f : List (Nat × Account) → List (Nat × Account)) : (d.onAccounts f).mp = d.mp := rfl
@[simp] theorem onAccounts_arm (d : Device) (f : List (Nat × Account) → List (Nat × Account)) (j : ArmId) : (d.onAccounts f).arm j = d.arm j := rfl
@[simp] theorem onAccounts_meter (d : Device) (f : List (Nat × Account) → List (Nat × Account)) (j : ArmId) : (d.onAccounts f).meter j = d.meter j := rfl
@[simp] theorem onAccounts_armRec (d : Device) (f : List (Nat × Account) → List (Nat × Account)) (j : ArmId) : (d.onAccounts f).armRec j = d.armRec j := rfl
@[simp] theorem onAccounts_product (d : Device) (f : List (Nat × Account) → List (Nat × Account)) (j : ProdIdx) : (d.onAccounts f).product j = d.product j := rfl
@[simp] theorem onAccounts_injRec (d : Device) (f : List (Nat × Account) → List (Nat × Account)) (j : Chan) : (d.onAccounts f).injRec j = d.injRec j := rfl
@[simp] theorem onAccounts_inj (d : Device) (f : List (Nat × Account) → List (Nat × Account)) (j : Chan) : (d.onAccounts f).inj j = d.inj j := rfl
@[simp] theorem onAccounts_bayRec (d : Device) (f : List (Nat × Account) → List (Nat × Account)) (j : BayId) : (d.onAccounts f).bayRec j = d.bayRec j := rfl
@[simp] theorem onAccounts_bay (d : Device) (f : List (Nat × Account) → List (Nat × Account)) (j : BayId) : (d.onAccounts f).bay j = d.bay j := rfl
@[simp] theorem onAccounts_station (d : Device) (f : List (Nat × Account) → List (Nat × Account)) (j : Addr) : (d.onAccounts f).station j = d.station j := rfl
@[simp] theorem onAccounts_line (d : Device) (f : List (Nat × Account) → List (Nat × Account)) (j : LineId) : (d.onAccounts f).line j = d.line j := rfl
@[simp] theorem onAccounts_slot (d : Device) (f : List (Nat × Account) → List (Nat × Account)) (j : SlotId) : (d.onAccounts f).slot j = d.slot j := rfl
@[simp] theorem onAccounts_noteBay (d : Device) (f : List (Nat × Account) → List (Nat × Account)) (j : BayId) : (d.onAccounts f).noteBay j = d.noteBay j := rfl

/-! ### `setBoot` -/

@[simp] theorem setBoot_boot (d : Device) (b : Boot) : (d.setBoot b).boot = b := rfl
@[simp] theorem setBoot_now (d : Device) (b : Boot) : (d.setBoot b).now = d.now := rfl
@[simp] theorem setBoot_cuts (d : Device) (b : Boot) : (d.setBoot b).cuts = d.cuts := rfl
@[simp] theorem setBoot_custody (d : Device) (b : Boot) : (d.setBoot b).custody = d.custody := rfl
@[simp] theorem setBoot_armRecs (d : Device) (b : Boot) : (d.setBoot b).armRecs = d.armRecs := rfl
@[simp] theorem setBoot_products (d : Device) (b : Boot) : (d.setBoot b).products = d.products := rfl
@[simp] theorem setBoot_meters (d : Device) (b : Boot) : (d.setBoot b).meters = d.meters := rfl
@[simp] theorem setBoot_arms (d : Device) (b : Boot) : (d.setBoot b).arms = d.arms := rfl
@[simp] theorem setBoot_injRecs (d : Device) (b : Boot) : (d.setBoot b).injRecs = d.injRecs := rfl
@[simp] theorem setBoot_injs (d : Device) (b : Boot) : (d.setBoot b).injs = d.injs := rfl
@[simp] theorem setBoot_bayRecs (d : Device) (b : Boot) : (d.setBoot b).bayRecs = d.bayRecs := rfl
@[simp] theorem setBoot_bays (d : Device) (b : Boot) : (d.setBoot b).bays = d.bays := rfl
@[simp] theorem setBoot_permits (d : Device) (b : Boot) : (d.setBoot b).permits = d.permits := rfl
@[simp] theorem setBoot_accounts (d : Device) (b : Boot) : (d.setBoot b).accounts = d.accounts := rfl
@[simp] theorem setBoot_orders (d : Device) (b : Boot) : (d.setBoot b).orders = d.orders := rfl
@[simp] theorem setBoot_cw (d : Device) (b : Boot) : (d.setBoot b).cw = d.cw := rfl
@[simp] theorem setBoot_nu (d : Device) (b : Boot) : (d.setBoot b).nu = d.nu := rfl
@[simp] theorem setBoot_lm (d : Device) (b : Boot) : (d.setBoot b).lm = d.lm := rfl
@[simp] theorem setBoot_lu (d : Device) (b : Boot) : (d.setBoot b).lu = d.lu := rfl
@[simp] theorem setBoot_mp (d : Device) (b : Boot) : (d.setBoot b).mp = d.mp := rfl
@[simp] theorem setBoot_arm (d : Device) (b : Boot) (j : ArmId) : (d.setBoot b).arm j = d.arm j := rfl
@[simp] theorem setBoot_meter (d : Device) (b : Boot) (j : ArmId) : (d.setBoot b).meter j = d.meter j := rfl
@[simp] theorem setBoot_armRec (d : Device) (b : Boot) (j : ArmId) : (d.setBoot b).armRec j = d.armRec j := rfl
@[simp] theorem setBoot_product (d : Device) (b : Boot) (j : ProdIdx) : (d.setBoot b).product j = d.product j := rfl
@[simp] theorem setBoot_injRec (d : Device) (b : Boot) (j : Chan) : (d.setBoot b).injRec j = d.injRec j := rfl
@[simp] theorem setBoot_inj (d : Device) (b : Boot) (j : Chan) : (d.setBoot b).inj j = d.inj j := rfl
@[simp] theorem setBoot_bayRec (d : Device) (b : Boot) (j : BayId) : (d.setBoot b).bayRec j = d.bayRec j := rfl
@[simp] theorem setBoot_bay (d : Device) (b : Boot) (j : BayId) : (d.setBoot b).bay j = d.bay j := rfl
@[simp] theorem setBoot_station (d : Device) (b : Boot) (j : Addr) : (d.setBoot b).station j = d.station j := rfl
@[simp] theorem setBoot_line (d : Device) (b : Boot) (j : LineId) : (d.setBoot b).line j = d.line j := rfl
@[simp] theorem setBoot_slot (d : Device) (b : Boot) (j : SlotId) : (d.setBoot b).slot j = d.slot j := rfl
@[simp] theorem setBoot_noteBay (d : Device) (b : Boot) (j : BayId) : (d.setBoot b).noteBay j = d.noteBay j := rfl

/-! ### `onArm` -/

@[simp] theorem onArm_boot (d : Device) (a : ArmId) (f : ArmCtl → ArmCtl) : (d.onArm a f).boot = d.boot := rfl
@[simp] theorem onArm_now (d : Device) (a : ArmId) (f : ArmCtl → ArmCtl) : (d.onArm a f).now = d.now := rfl
@[simp] theorem onArm_cuts (d : Device) (a : ArmId) (f : ArmCtl → ArmCtl) : (d.onArm a f).cuts = d.cuts := rfl
@[simp] theorem onArm_custody (d : Device) (a : ArmId) (f : ArmCtl → ArmCtl) : (d.onArm a f).custody = d.custody := rfl
@[simp] theorem onArm_armRecs (d : Device) (a : ArmId) (f : ArmCtl → ArmCtl) : (d.onArm a f).armRecs = d.armRecs := rfl
@[simp] theorem onArm_products (d : Device) (a : ArmId) (f : ArmCtl → ArmCtl) : (d.onArm a f).products = d.products := rfl
@[simp] theorem onArm_meters (d : Device) (a : ArmId) (f : ArmCtl → ArmCtl) : (d.onArm a f).meters = d.meters := rfl
@[simp] theorem onArm_arms (d : Device) (a : ArmId) (f : ArmCtl → ArmCtl) : (d.onArm a f).arms = Bank.write d.arms a (f (d.arm a)) := rfl
@[simp] theorem onArm_injRecs (d : Device) (a : ArmId) (f : ArmCtl → ArmCtl) : (d.onArm a f).injRecs = d.injRecs := rfl
@[simp] theorem onArm_injs (d : Device) (a : ArmId) (f : ArmCtl → ArmCtl) : (d.onArm a f).injs = d.injs := rfl
@[simp] theorem onArm_bayRecs (d : Device) (a : ArmId) (f : ArmCtl → ArmCtl) : (d.onArm a f).bayRecs = d.bayRecs := rfl
@[simp] theorem onArm_bays (d : Device) (a : ArmId) (f : ArmCtl → ArmCtl) : (d.onArm a f).bays = d.bays := rfl
@[simp] theorem onArm_permits (d : Device) (a : ArmId) (f : ArmCtl → ArmCtl) : (d.onArm a f).permits = d.permits := rfl
@[simp] theorem onArm_accounts (d : Device) (a : ArmId) (f : ArmCtl → ArmCtl) : (d.onArm a f).accounts = d.accounts := rfl
@[simp] theorem onArm_orders (d : Device) (a : ArmId) (f : ArmCtl → ArmCtl) : (d.onArm a f).orders = d.orders := rfl
@[simp] theorem onArm_cw (d : Device) (a : ArmId) (f : ArmCtl → ArmCtl) : (d.onArm a f).cw = d.cw := rfl
@[simp] theorem onArm_nu (d : Device) (a : ArmId) (f : ArmCtl → ArmCtl) : (d.onArm a f).nu = d.nu := rfl
@[simp] theorem onArm_lm (d : Device) (a : ArmId) (f : ArmCtl → ArmCtl) : (d.onArm a f).lm = d.lm := rfl
@[simp] theorem onArm_lu (d : Device) (a : ArmId) (f : ArmCtl → ArmCtl) : (d.onArm a f).lu = d.lu := rfl
@[simp] theorem onArm_mp (d : Device) (a : ArmId) (f : ArmCtl → ArmCtl) : (d.onArm a f).mp = d.mp := rfl
@[simp] theorem onArm_arm_same (d : Device) (a : ArmId) (f : ArmCtl → ArmCtl) : (d.onArm a f).arm a = f (d.arm a) := Bank.read_write_same _ _ _
theorem onArm_arm_other (d : Device) (a : ArmId) (f : ArmCtl → ArmCtl) (j : ArmId) (h : j ≠ a) : (d.onArm a f).arm j = d.arm j :=
  Bank.read_write_other _ _ _ _ h
theorem onArm_arm (d : Device) (a : ArmId) (f : ArmCtl → ArmCtl) (j : ArmId) : (d.onArm a f).arm j = if j = a then f (d.arm a) else d.arm j :=
  Bank.read_write _ _ _ _
@[simp] theorem onArm_meter (d : Device) (a : ArmId) (f : ArmCtl → ArmCtl) (j : ArmId) : (d.onArm a f).meter j = d.meter j := rfl
@[simp] theorem onArm_armRec (d : Device) (a : ArmId) (f : ArmCtl → ArmCtl) (j : ArmId) : (d.onArm a f).armRec j = d.armRec j := rfl
@[simp] theorem onArm_product (d : Device) (a : ArmId) (f : ArmCtl → ArmCtl) (j : ProdIdx) : (d.onArm a f).product j = d.product j := rfl
@[simp] theorem onArm_injRec (d : Device) (a : ArmId) (f : ArmCtl → ArmCtl) (j : Chan) : (d.onArm a f).injRec j = d.injRec j := rfl
@[simp] theorem onArm_inj (d : Device) (a : ArmId) (f : ArmCtl → ArmCtl) (j : Chan) : (d.onArm a f).inj j = d.inj j := rfl
@[simp] theorem onArm_bayRec (d : Device) (a : ArmId) (f : ArmCtl → ArmCtl) (j : BayId) : (d.onArm a f).bayRec j = d.bayRec j := rfl
@[simp] theorem onArm_bay (d : Device) (a : ArmId) (f : ArmCtl → ArmCtl) (j : BayId) : (d.onArm a f).bay j = d.bay j := rfl
@[simp] theorem onArm_station (d : Device) (a : ArmId) (f : ArmCtl → ArmCtl) (j : Addr) : (d.onArm a f).station j = d.station j := rfl
@[simp] theorem onArm_line (d : Device) (a : ArmId) (f : ArmCtl → ArmCtl) (j : LineId) : (d.onArm a f).line j = d.line j := rfl
@[simp] theorem onArm_slot (d : Device) (a : ArmId) (f : ArmCtl → ArmCtl) (j : SlotId) : (d.onArm a f).slot j = d.slot j := rfl
@[simp] theorem onArm_noteBay (d : Device) (a : ArmId) (f : ArmCtl → ArmCtl) (j : BayId) : (d.onArm a f).noteBay j = d.noteBay j := rfl

/-! ### `onMeter` -/

@[simp] theorem onMeter_boot (d : Device) (a : ArmId) (f : Meter → Meter) : (d.onMeter a f).boot = d.boot := rfl
@[simp] theorem onMeter_now (d : Device) (a : ArmId) (f : Meter → Meter) : (d.onMeter a f).now = d.now := rfl
@[simp] theorem onMeter_cuts (d : Device) (a : ArmId) (f : Meter → Meter) : (d.onMeter a f).cuts = d.cuts := rfl
@[simp] theorem onMeter_custody (d : Device) (a : ArmId) (f : Meter → Meter) : (d.onMeter a f).custody = d.custody := rfl
@[simp] theorem onMeter_armRecs (d : Device) (a : ArmId) (f : Meter → Meter) : (d.onMeter a f).armRecs = d.armRecs := rfl
@[simp] theorem onMeter_products (d : Device) (a : ArmId) (f : Meter → Meter) : (d.onMeter a f).products = d.products := rfl
@[simp] theorem onMeter_meters (d : Device) (a : ArmId) (f : Meter → Meter) : (d.onMeter a f).meters = Bank.write d.meters a (f (d.meter a)) := rfl
@[simp] theorem onMeter_arms (d : Device) (a : ArmId) (f : Meter → Meter) : (d.onMeter a f).arms = d.arms := rfl
@[simp] theorem onMeter_injRecs (d : Device) (a : ArmId) (f : Meter → Meter) : (d.onMeter a f).injRecs = d.injRecs := rfl
@[simp] theorem onMeter_injs (d : Device) (a : ArmId) (f : Meter → Meter) : (d.onMeter a f).injs = d.injs := rfl
@[simp] theorem onMeter_bayRecs (d : Device) (a : ArmId) (f : Meter → Meter) : (d.onMeter a f).bayRecs = d.bayRecs := rfl
@[simp] theorem onMeter_bays (d : Device) (a : ArmId) (f : Meter → Meter) : (d.onMeter a f).bays = d.bays := rfl
@[simp] theorem onMeter_permits (d : Device) (a : ArmId) (f : Meter → Meter) : (d.onMeter a f).permits = d.permits := rfl
@[simp] theorem onMeter_accounts (d : Device) (a : ArmId) (f : Meter → Meter) : (d.onMeter a f).accounts = d.accounts := rfl
@[simp] theorem onMeter_orders (d : Device) (a : ArmId) (f : Meter → Meter) : (d.onMeter a f).orders = d.orders := rfl
@[simp] theorem onMeter_cw (d : Device) (a : ArmId) (f : Meter → Meter) : (d.onMeter a f).cw = d.cw := rfl
@[simp] theorem onMeter_nu (d : Device) (a : ArmId) (f : Meter → Meter) : (d.onMeter a f).nu = d.nu := rfl
@[simp] theorem onMeter_lm (d : Device) (a : ArmId) (f : Meter → Meter) : (d.onMeter a f).lm = d.lm := rfl
@[simp] theorem onMeter_lu (d : Device) (a : ArmId) (f : Meter → Meter) : (d.onMeter a f).lu = d.lu := rfl
@[simp] theorem onMeter_mp (d : Device) (a : ArmId) (f : Meter → Meter) : (d.onMeter a f).mp = d.mp := rfl
@[simp] theorem onMeter_arm (d : Device) (a : ArmId) (f : Meter → Meter) (j : ArmId) : (d.onMeter a f).arm j = d.arm j := rfl
@[simp] theorem onMeter_meter_same (d : Device) (a : ArmId) (f : Meter → Meter) : (d.onMeter a f).meter a = f (d.meter a) := Bank.read_write_same _ _ _
theorem onMeter_meter_other (d : Device) (a : ArmId) (f : Meter → Meter) (j : ArmId) (h : j ≠ a) : (d.onMeter a f).meter j = d.meter j :=
  Bank.read_write_other _ _ _ _ h
theorem onMeter_meter (d : Device) (a : ArmId) (f : Meter → Meter) (j : ArmId) : (d.onMeter a f).meter j = if j = a then f (d.meter a) else d.meter j :=
  Bank.read_write _ _ _ _
@[simp] theorem onMeter_armRec (d : Device) (a : ArmId) (f : Meter → Meter) (j : ArmId) : (d.onMeter a f).armRec j = d.armRec j := rfl
@[simp] theorem onMeter_product (d : Device) (a : ArmId) (f : Meter → Meter) (j : ProdIdx) : (d.onMeter a f).product j = d.product j := rfl
@[simp] theorem onMeter_injRec (d : Device) (a : ArmId) (f : Meter → Meter) (j : Chan) : (d.onMeter a f).injRec j = d.injRec j := rfl
@[simp] theorem onMeter_inj (d : Device) (a : ArmId) (f : Meter → Meter) (j : Chan) : (d.onMeter a f).inj j = d.inj j := rfl
@[simp] theorem onMeter_bayRec (d : Device) (a : ArmId) (f : Meter → Meter) (j : BayId) : (d.onMeter a f).bayRec j = d.bayRec j := rfl
@[simp] theorem onMeter_bay (d : Device) (a : ArmId) (f : Meter → Meter) (j : BayId) : (d.onMeter a f).bay j = d.bay j := rfl
@[simp] theorem onMeter_station (d : Device) (a : ArmId) (f : Meter → Meter) (j : Addr) : (d.onMeter a f).station j = d.station j := rfl
@[simp] theorem onMeter_line (d : Device) (a : ArmId) (f : Meter → Meter) (j : LineId) : (d.onMeter a f).line j = d.line j := rfl
@[simp] theorem onMeter_slot (d : Device) (a : ArmId) (f : Meter → Meter) (j : SlotId) : (d.onMeter a f).slot j = d.slot j := rfl
@[simp] theorem onMeter_noteBay (d : Device) (a : ArmId) (f : Meter → Meter) (j : BayId) : (d.onMeter a f).noteBay j = d.noteBay j := rfl

/-! ### `setArmRec` -/

@[simp] theorem setArmRec_boot (d : Device) (a : ArmId) (r : Option ArmRecord) : (d.setArmRec a r).boot = d.boot := rfl
@[simp] theorem setArmRec_now (d : Device) (a : ArmId) (r : Option ArmRecord) : (d.setArmRec a r).now = d.now := rfl
@[simp] theorem setArmRec_cuts (d : Device) (a : ArmId) (r : Option ArmRecord) : (d.setArmRec a r).cuts = d.cuts := rfl
@[simp] theorem setArmRec_custody (d : Device) (a : ArmId) (r : Option ArmRecord) : (d.setArmRec a r).custody = d.custody := rfl
@[simp] theorem setArmRec_armRecs (d : Device) (a : ArmId) (r : Option ArmRecord) : (d.setArmRec a r).armRecs = Bank.write d.armRecs a r := rfl
@[simp] theorem setArmRec_products (d : Device) (a : ArmId) (r : Option ArmRecord) : (d.setArmRec a r).products = d.products := rfl
@[simp] theorem setArmRec_meters (d : Device) (a : ArmId) (r : Option ArmRecord) : (d.setArmRec a r).meters = d.meters := rfl
@[simp] theorem setArmRec_arms (d : Device) (a : ArmId) (r : Option ArmRecord) : (d.setArmRec a r).arms = d.arms := rfl
@[simp] theorem setArmRec_injRecs (d : Device) (a : ArmId) (r : Option ArmRecord) : (d.setArmRec a r).injRecs = d.injRecs := rfl
@[simp] theorem setArmRec_injs (d : Device) (a : ArmId) (r : Option ArmRecord) : (d.setArmRec a r).injs = d.injs := rfl
@[simp] theorem setArmRec_bayRecs (d : Device) (a : ArmId) (r : Option ArmRecord) : (d.setArmRec a r).bayRecs = d.bayRecs := rfl
@[simp] theorem setArmRec_bays (d : Device) (a : ArmId) (r : Option ArmRecord) : (d.setArmRec a r).bays = d.bays := rfl
@[simp] theorem setArmRec_permits (d : Device) (a : ArmId) (r : Option ArmRecord) : (d.setArmRec a r).permits = d.permits := rfl
@[simp] theorem setArmRec_accounts (d : Device) (a : ArmId) (r : Option ArmRecord) : (d.setArmRec a r).accounts = d.accounts := rfl
@[simp] theorem setArmRec_orders (d : Device) (a : ArmId) (r : Option ArmRecord) : (d.setArmRec a r).orders = d.orders := rfl
@[simp] theorem setArmRec_cw (d : Device) (a : ArmId) (r : Option ArmRecord) : (d.setArmRec a r).cw = d.cw := rfl
@[simp] theorem setArmRec_nu (d : Device) (a : ArmId) (r : Option ArmRecord) : (d.setArmRec a r).nu = d.nu := rfl
@[simp] theorem setArmRec_lm (d : Device) (a : ArmId) (r : Option ArmRecord) : (d.setArmRec a r).lm = d.lm := rfl
@[simp] theorem setArmRec_lu (d : Device) (a : ArmId) (r : Option ArmRecord) : (d.setArmRec a r).lu = d.lu := rfl
@[simp] theorem setArmRec_mp (d : Device) (a : ArmId) (r : Option ArmRecord) : (d.setArmRec a r).mp = d.mp := rfl
@[simp] theorem setArmRec_arm (d : Device) (a : ArmId) (r : Option ArmRecord) (j : ArmId) : (d.setArmRec a r).arm j = d.arm j := rfl
@[simp] theorem setArmRec_meter (d : Device) (a : ArmId) (r : Option ArmRecord) (j : ArmId) : (d.setArmRec a r).meter j = d.meter j := rfl
@[simp] theorem setArmRec_armRec_same (d : Device) (a : ArmId) (r : Option ArmRecord) : (d.setArmRec a r).armRec a = r := Bank.read_write_same _ _ _
theorem setArmRec_armRec_other (d : Device) (a : ArmId) (r : Option ArmRecord) (j : ArmId) (h : j ≠ a) : (d.setArmRec a r).armRec j = d.armRec j :=
  Bank.read_write_other _ _ _ _ h
theorem setArmRec_armRec (d : Device) (a : ArmId) (r : Option ArmRecord) (j : ArmId) : (d.setArmRec a r).armRec j = if j = a then r else d.armRec j :=
  Bank.read_write _ _ _ _
@[simp] theorem setArmRec_product (d : Device) (a : ArmId) (r : Option ArmRecord) (j : ProdIdx) : (d.setArmRec a r).product j = d.product j := rfl
@[simp] theorem setArmRec_injRec (d : Device) (a : ArmId) (r : Option ArmRecord) (j : Chan) : (d.setArmRec a r).injRec j = d.injRec j := rfl
@[simp] theorem setArmRec_inj (d : Device) (a : ArmId) (r : Option ArmRecord) (j : Chan) : (d.setArmRec a r).inj j = d.inj j := rfl
@[simp] theorem setArmRec_bayRec (d : Device) (a : ArmId) (r : Option ArmRecord) (j : BayId) : (d.setArmRec a r).bayRec j = d.bayRec j := rfl
@[simp] theorem setArmRec_bay (d : Device) (a : ArmId) (r : Option ArmRecord) (j : BayId) : (d.setArmRec a r).bay j = d.bay j := rfl
@[simp] theorem setArmRec_station (d : Device) (a : ArmId) (r : Option ArmRecord) (j : Addr) : (d.setArmRec a r).station j = d.station j := rfl
@[simp] theorem setArmRec_line (d : Device) (a : ArmId) (r : Option ArmRecord) (j : LineId) : (d.setArmRec a r).line j = d.line j := rfl
@[simp] theorem setArmRec_slot (d : Device) (a : ArmId) (r : Option ArmRecord) (j : SlotId) : (d.setArmRec a r).slot j = d.slot j := rfl
@[simp] theorem setArmRec_noteBay (d : Device) (a : ArmId) (r : Option ArmRecord) (j : BayId) : (d.setArmRec a r).noteBay j = d.noteBay j := rfl

/-! ### `setProduct` -/

@[simp] theorem setProduct_boot (d : Device) (i : ProdIdx) (r : Option Product) : (d.setProduct i r).boot = d.boot := rfl
@[simp] theorem setProduct_now (d : Device) (i : ProdIdx) (r : Option Product) : (d.setProduct i r).now = d.now := rfl
@[simp] theorem setProduct_cuts (d : Device) (i : ProdIdx) (r : Option Product) : (d.setProduct i r).cuts = d.cuts := rfl
@[simp] theorem setProduct_custody (d : Device) (i : ProdIdx) (r : Option Product) : (d.setProduct i r).custody = d.custody := rfl
@[simp] theorem setProduct_armRecs (d : Device) (i : ProdIdx) (r : Option Product) : (d.setProduct i r).armRecs = d.armRecs := rfl
@[simp] theorem setProduct_products (d : Device) (i : ProdIdx) (r : Option Product) : (d.setProduct i r).products = Bank.write d.products i r := rfl
@[simp] theorem setProduct_meters (d : Device) (i : ProdIdx) (r : Option Product) : (d.setProduct i r).meters = d.meters := rfl
@[simp] theorem setProduct_arms (d : Device) (i : ProdIdx) (r : Option Product) : (d.setProduct i r).arms = d.arms := rfl
@[simp] theorem setProduct_injRecs (d : Device) (i : ProdIdx) (r : Option Product) : (d.setProduct i r).injRecs = d.injRecs := rfl
@[simp] theorem setProduct_injs (d : Device) (i : ProdIdx) (r : Option Product) : (d.setProduct i r).injs = d.injs := rfl
@[simp] theorem setProduct_bayRecs (d : Device) (i : ProdIdx) (r : Option Product) : (d.setProduct i r).bayRecs = d.bayRecs := rfl
@[simp] theorem setProduct_bays (d : Device) (i : ProdIdx) (r : Option Product) : (d.setProduct i r).bays = d.bays := rfl
@[simp] theorem setProduct_permits (d : Device) (i : ProdIdx) (r : Option Product) : (d.setProduct i r).permits = d.permits := rfl
@[simp] theorem setProduct_accounts (d : Device) (i : ProdIdx) (r : Option Product) : (d.setProduct i r).accounts = d.accounts := rfl
@[simp] theorem setProduct_orders (d : Device) (i : ProdIdx) (r : Option Product) : (d.setProduct i r).orders = d.orders := rfl
@[simp] theorem setProduct_cw (d : Device) (i : ProdIdx) (r : Option Product) : (d.setProduct i r).cw = d.cw := rfl
@[simp] theorem setProduct_nu (d : Device) (i : ProdIdx) (r : Option Product) : (d.setProduct i r).nu = d.nu := rfl
@[simp] theorem setProduct_lm (d : Device) (i : ProdIdx) (r : Option Product) : (d.setProduct i r).lm = d.lm := rfl
@[simp] theorem setProduct_lu (d : Device) (i : ProdIdx) (r : Option Product) : (d.setProduct i r).lu = d.lu := rfl
@[simp] theorem setProduct_mp (d : Device) (i : ProdIdx) (r : Option Product) : (d.setProduct i r).mp = d.mp := rfl
@[simp] theorem setProduct_arm (d : Device) (i : ProdIdx) (r : Option Product) (j : ArmId) : (d.setProduct i r).arm j = d.arm j := rfl
@[simp] theorem setProduct_meter (d : Device) (i : ProdIdx) (r : Option Product) (j : ArmId) : (d.setProduct i r).meter j = d.meter j := rfl
@[simp] theorem setProduct_armRec (d : Device) (i : ProdIdx) (r : Option Product) (j : ArmId) : (d.setProduct i r).armRec j = d.armRec j := rfl
@[simp] theorem setProduct_product_same (d : Device) (i : ProdIdx) (r : Option Product) : (d.setProduct i r).product i = r := Bank.read_write_same _ _ _
theorem setProduct_product_other (d : Device) (i : ProdIdx) (r : Option Product) (j : ProdIdx) (h : j ≠ i) : (d.setProduct i r).product j = d.product j :=
  Bank.read_write_other _ _ _ _ h
theorem setProduct_product (d : Device) (i : ProdIdx) (r : Option Product) (j : ProdIdx) : (d.setProduct i r).product j = if j = i then r else d.product j :=
  Bank.read_write _ _ _ _
@[simp] theorem setProduct_injRec (d : Device) (i : ProdIdx) (r : Option Product) (j : Chan) : (d.setProduct i r).injRec j = d.injRec j := rfl
@[simp] theorem setProduct_inj (d : Device) (i : ProdIdx) (r : Option Product) (j : Chan) : (d.setProduct i r).inj j = d.inj j := rfl
@[simp] theorem setProduct_bayRec (d : Device) (i : ProdIdx) (r : Option Product) (j : BayId) : (d.setProduct i r).bayRec j = d.bayRec j := rfl
@[simp] theorem setProduct_bay (d : Device) (i : ProdIdx) (r : Option Product) (j : BayId) : (d.setProduct i r).bay j = d.bay j := rfl
@[simp] theorem setProduct_station (d : Device) (i : ProdIdx) (r : Option Product) (j : Addr) : (d.setProduct i r).station j = d.station j := rfl
@[simp] theorem setProduct_line (d : Device) (i : ProdIdx) (r : Option Product) (j : LineId) : (d.setProduct i r).line j = d.line j := rfl
@[simp] theorem setProduct_slot (d : Device) (i : ProdIdx) (r : Option Product) (j : SlotId) : (d.setProduct i r).slot j = d.slot j := rfl
@[simp] theorem setProduct_noteBay (d : Device) (i : ProdIdx) (r : Option Product) (j : BayId) : (d.setProduct i r).noteBay j = d.noteBay j := rfl

/-! ### `setInjRec` -/

@[simp] theorem setInjRec_boot (d : Device) (c : Chan) (r : Option InjectorRec) : (d.setInjRec c r).boot = d.boot := rfl
@[simp] theorem setInjRec_now (d : Device) (c : Chan) (r : Option InjectorRec) : (d.setInjRec c r).now = d.now := rfl
@[simp] theorem setInjRec_cuts (d : Device) (c : Chan) (r : Option InjectorRec) : (d.setInjRec c r).cuts = d.cuts := rfl
@[simp] theorem setInjRec_custody (d : Device) (c : Chan) (r : Option InjectorRec) : (d.setInjRec c r).custody = d.custody := rfl
@[simp] theorem setInjRec_armRecs (d : Device) (c : Chan) (r : Option InjectorRec) : (d.setInjRec c r).armRecs = d.armRecs := rfl
@[simp] theorem setInjRec_products (d : Device) (c : Chan) (r : Option InjectorRec) : (d.setInjRec c r).products = d.products := rfl
@[simp] theorem setInjRec_meters (d : Device) (c : Chan) (r : Option InjectorRec) : (d.setInjRec c r).meters = d.meters := rfl
@[simp] theorem setInjRec_arms (d : Device) (c : Chan) (r : Option InjectorRec) : (d.setInjRec c r).arms = d.arms := rfl
@[simp] theorem setInjRec_injRecs (d : Device) (c : Chan) (r : Option InjectorRec) : (d.setInjRec c r).injRecs = Bank.write d.injRecs c r := rfl
@[simp] theorem setInjRec_injs (d : Device) (c : Chan) (r : Option InjectorRec) : (d.setInjRec c r).injs = d.injs := rfl
@[simp] theorem setInjRec_bayRecs (d : Device) (c : Chan) (r : Option InjectorRec) : (d.setInjRec c r).bayRecs = d.bayRecs := rfl
@[simp] theorem setInjRec_bays (d : Device) (c : Chan) (r : Option InjectorRec) : (d.setInjRec c r).bays = d.bays := rfl
@[simp] theorem setInjRec_permits (d : Device) (c : Chan) (r : Option InjectorRec) : (d.setInjRec c r).permits = d.permits := rfl
@[simp] theorem setInjRec_accounts (d : Device) (c : Chan) (r : Option InjectorRec) : (d.setInjRec c r).accounts = d.accounts := rfl
@[simp] theorem setInjRec_orders (d : Device) (c : Chan) (r : Option InjectorRec) : (d.setInjRec c r).orders = d.orders := rfl
@[simp] theorem setInjRec_cw (d : Device) (c : Chan) (r : Option InjectorRec) : (d.setInjRec c r).cw = d.cw := rfl
@[simp] theorem setInjRec_nu (d : Device) (c : Chan) (r : Option InjectorRec) : (d.setInjRec c r).nu = d.nu := rfl
@[simp] theorem setInjRec_lm (d : Device) (c : Chan) (r : Option InjectorRec) : (d.setInjRec c r).lm = d.lm := rfl
@[simp] theorem setInjRec_lu (d : Device) (c : Chan) (r : Option InjectorRec) : (d.setInjRec c r).lu = d.lu := rfl
@[simp] theorem setInjRec_mp (d : Device) (c : Chan) (r : Option InjectorRec) : (d.setInjRec c r).mp = d.mp := rfl
@[simp] theorem setInjRec_arm (d : Device) (c : Chan) (r : Option InjectorRec) (j : ArmId) : (d.setInjRec c r).arm j = d.arm j := rfl
@[simp] theorem setInjRec_meter (d : Device) (c : Chan) (r : Option InjectorRec) (j : ArmId) : (d.setInjRec c r).meter j = d.meter j := rfl
@[simp] theorem setInjRec_armRec (d : Device) (c : Chan) (r : Option InjectorRec) (j : ArmId) : (d.setInjRec c r).armRec j = d.armRec j := rfl
@[simp] theorem setInjRec_product (d : Device) (c : Chan) (r : Option InjectorRec) (j : ProdIdx) : (d.setInjRec c r).product j = d.product j := rfl
@[simp] theorem setInjRec_injRec_same (d : Device) (c : Chan) (r : Option InjectorRec) : (d.setInjRec c r).injRec c = r := Bank.read_write_same _ _ _
theorem setInjRec_injRec_other (d : Device) (c : Chan) (r : Option InjectorRec) (j : Chan) (h : j ≠ c) : (d.setInjRec c r).injRec j = d.injRec j :=
  Bank.read_write_other _ _ _ _ h
theorem setInjRec_injRec (d : Device) (c : Chan) (r : Option InjectorRec) (j : Chan) : (d.setInjRec c r).injRec j = if j = c then r else d.injRec j :=
  Bank.read_write _ _ _ _
@[simp] theorem setInjRec_inj (d : Device) (c : Chan) (r : Option InjectorRec) (j : Chan) : (d.setInjRec c r).inj j = d.inj j := rfl
@[simp] theorem setInjRec_bayRec (d : Device) (c : Chan) (r : Option InjectorRec) (j : BayId) : (d.setInjRec c r).bayRec j = d.bayRec j := rfl
@[simp] theorem setInjRec_bay (d : Device) (c : Chan) (r : Option InjectorRec) (j : BayId) : (d.setInjRec c r).bay j = d.bay j := rfl
@[simp] theorem setInjRec_station (d : Device) (c : Chan) (r : Option InjectorRec) (j : Addr) : (d.setInjRec c r).station j = d.station j := rfl
@[simp] theorem setInjRec_line (d : Device) (c : Chan) (r : Option InjectorRec) (j : LineId) : (d.setInjRec c r).line j = d.line j := rfl
@[simp] theorem setInjRec_slot (d : Device) (c : Chan) (r : Option InjectorRec) (j : SlotId) : (d.setInjRec c r).slot j = d.slot j := rfl
@[simp] theorem setInjRec_noteBay (d : Device) (c : Chan) (r : Option InjectorRec) (j : BayId) : (d.setInjRec c r).noteBay j = d.noteBay j := rfl

/-! ### `onInj` -/

@[simp] theorem onInj_boot (d : Device) (c : Chan) (f : Injector → Injector) : (d.onInj c f).boot = d.boot := rfl
@[simp] theorem onInj_now (d : Device) (c : Chan) (f : Injector → Injector) : (d.onInj c f).now = d.now := rfl
@[simp] theorem onInj_cuts (d : Device) (c : Chan) (f : Injector → Injector) : (d.onInj c f).cuts = d.cuts := rfl
@[simp] theorem onInj_custody (d : Device) (c : Chan) (f : Injector → Injector) : (d.onInj c f).custody = d.custody := rfl
@[simp] theorem onInj_armRecs (d : Device) (c : Chan) (f : Injector → Injector) : (d.onInj c f).armRecs = d.armRecs := rfl
@[simp] theorem onInj_products (d : Device) (c : Chan) (f : Injector → Injector) : (d.onInj c f).products = d.products := rfl
@[simp] theorem onInj_meters (d : Device) (c : Chan) (f : Injector → Injector) : (d.onInj c f).meters = d.meters := rfl
@[simp] theorem onInj_arms (d : Device) (c : Chan) (f : Injector → Injector) : (d.onInj c f).arms = d.arms := rfl
@[simp] theorem onInj_injRecs (d : Device) (c : Chan) (f : Injector → Injector) : (d.onInj c f).injRecs = d.injRecs := rfl
@[simp] theorem onInj_injs (d : Device) (c : Chan) (f : Injector → Injector) : (d.onInj c f).injs = Bank.write d.injs c (f (d.inj c)) := rfl
@[simp] theorem onInj_bayRecs (d : Device) (c : Chan) (f : Injector → Injector) : (d.onInj c f).bayRecs = d.bayRecs := rfl
@[simp] theorem onInj_bays (d : Device) (c : Chan) (f : Injector → Injector) : (d.onInj c f).bays = d.bays := rfl
@[simp] theorem onInj_permits (d : Device) (c : Chan) (f : Injector → Injector) : (d.onInj c f).permits = d.permits := rfl
@[simp] theorem onInj_accounts (d : Device) (c : Chan) (f : Injector → Injector) : (d.onInj c f).accounts = d.accounts := rfl
@[simp] theorem onInj_orders (d : Device) (c : Chan) (f : Injector → Injector) : (d.onInj c f).orders = d.orders := rfl
@[simp] theorem onInj_cw (d : Device) (c : Chan) (f : Injector → Injector) : (d.onInj c f).cw = d.cw := rfl
@[simp] theorem onInj_nu (d : Device) (c : Chan) (f : Injector → Injector) : (d.onInj c f).nu = d.nu := rfl
@[simp] theorem onInj_lm (d : Device) (c : Chan) (f : Injector → Injector) : (d.onInj c f).lm = d.lm := rfl
@[simp] theorem onInj_lu (d : Device) (c : Chan) (f : Injector → Injector) : (d.onInj c f).lu = d.lu := rfl
@[simp] theorem onInj_mp (d : Device) (c : Chan) (f : Injector → Injector) : (d.onInj c f).mp = d.mp := rfl
@[simp] theorem onInj_arm (d : Device) (c : Chan) (f : Injector → Injector) (j : ArmId) : (d.onInj c f).arm j = d.arm j := rfl
@[simp] theorem onInj_meter (d : Device) (c : Chan) (f : Injector → Injector) (j : ArmId) : (d.onInj c f).meter j = d.meter j := rfl
@[simp] theorem onInj_armRec (d : Device) (c : Chan) (f : Injector → Injector) (j : ArmId) : (d.onInj c f).armRec j = d.armRec j := rfl
@[simp] theorem onInj_product (d : Device) (c : Chan) (f : Injector → Injector) (j : ProdIdx) : (d.onInj c f).product j = d.product j := rfl
@[simp] theorem onInj_injRec (d : Device) (c : Chan) (f : Injector → Injector) (j : Chan) : (d.onInj c f).injRec j = d.injRec j := rfl
@[simp] theorem onInj_inj_same (d : Device) (c : Chan) (f : Injector → Injector) : (d.onInj c f).inj c = f (d.inj c) := Bank.read_write_same _ _ _
theorem onInj_inj_other (d : Device) (c : Chan) (f : Injector → Injector) (j : Chan) (h : j ≠ c) : (d.onInj c f).inj j = d.inj j :=
  Bank.read_write_other _ _ _ _ h
theorem onInj_inj (d : Device) (c : Chan) (f : Injector → Injector) (j : Chan) : (d.onInj c f).inj j = if j = c then f (d.inj c) else d.inj j :=
  Bank.read_write _ _ _ _
@[simp] theorem onInj_bayRec (d : Device) (c : Chan) (f : Injector → Injector) (j : BayId) : (d.onInj c f).bayRec j = d.bayRec j := rfl
@[simp] theorem onInj_bay (d : Device) (c : Chan) (f : Injector → Injector) (j : BayId) : (d.onInj c f).bay j = d.bay j := rfl
@[simp] theorem onInj_station (d : Device) (c : Chan) (f : Injector → Injector) (j : Addr) : (d.onInj c f).station j = d.station j := rfl
@[simp] theorem onInj_line (d : Device) (c : Chan) (f : Injector → Injector) (j : LineId) : (d.onInj c f).line j = d.line j := rfl
@[simp] theorem onInj_slot (d : Device) (c : Chan) (f : Injector → Injector) (j : SlotId) : (d.onInj c f).slot j = d.slot j := rfl
@[simp] theorem onInj_noteBay (d : Device) (c : Chan) (f : Injector → Injector) (j : BayId) : (d.onInj c f).noteBay j = d.noteBay j := rfl

/-! ### `setBayRec` -/

@[simp] theorem setBayRec_boot (d : Device) (b : BayId) (r : Option BayRecord) : (d.setBayRec b r).boot = d.boot := rfl
@[simp] theorem setBayRec_now (d : Device) (b : BayId) (r : Option BayRecord) : (d.setBayRec b r).now = d.now := rfl
@[simp] theorem setBayRec_cuts (d : Device) (b : BayId) (r : Option BayRecord) : (d.setBayRec b r).cuts = d.cuts := rfl
@[simp] theorem setBayRec_custody (d : Device) (b : BayId) (r : Option BayRecord) : (d.setBayRec b r).custody = d.custody := rfl
@[simp] theorem setBayRec_armRecs (d : Device) (b : BayId) (r : Option BayRecord) : (d.setBayRec b r).armRecs = d.armRecs := rfl
@[simp] theorem setBayRec_products (d : Device) (b : BayId) (r : Option BayRecord) : (d.setBayRec b r).products = d.products := rfl
@[simp] theorem setBayRec_meters (d : Device) (b : BayId) (r : Option BayRecord) : (d.setBayRec b r).meters = d.meters := rfl
@[simp] theorem setBayRec_arms (d : Device) (b : BayId) (r : Option BayRecord) : (d.setBayRec b r).arms = d.arms := rfl
@[simp] theorem setBayRec_injRecs (d : Device) (b : BayId) (r : Option BayRecord) : (d.setBayRec b r).injRecs = d.injRecs := rfl
@[simp] theorem setBayRec_injs (d : Device) (b : BayId) (r : Option BayRecord) : (d.setBayRec b r).injs = d.injs := rfl
@[simp] theorem setBayRec_bayRecs (d : Device) (b : BayId) (r : Option BayRecord) : (d.setBayRec b r).bayRecs = Bank.write d.bayRecs b r := rfl
@[simp] theorem setBayRec_bays (d : Device) (b : BayId) (r : Option BayRecord) : (d.setBayRec b r).bays = d.bays := rfl
@[simp] theorem setBayRec_permits (d : Device) (b : BayId) (r : Option BayRecord) : (d.setBayRec b r).permits = d.permits := rfl
@[simp] theorem setBayRec_accounts (d : Device) (b : BayId) (r : Option BayRecord) : (d.setBayRec b r).accounts = d.accounts := rfl
@[simp] theorem setBayRec_orders (d : Device) (b : BayId) (r : Option BayRecord) : (d.setBayRec b r).orders = d.orders := rfl
@[simp] theorem setBayRec_cw (d : Device) (b : BayId) (r : Option BayRecord) : (d.setBayRec b r).cw = d.cw := rfl
@[simp] theorem setBayRec_nu (d : Device) (b : BayId) (r : Option BayRecord) : (d.setBayRec b r).nu = d.nu := rfl
@[simp] theorem setBayRec_lm (d : Device) (b : BayId) (r : Option BayRecord) : (d.setBayRec b r).lm = d.lm := rfl
@[simp] theorem setBayRec_lu (d : Device) (b : BayId) (r : Option BayRecord) : (d.setBayRec b r).lu = d.lu := rfl
@[simp] theorem setBayRec_mp (d : Device) (b : BayId) (r : Option BayRecord) : (d.setBayRec b r).mp = d.mp := rfl
@[simp] theorem setBayRec_arm (d : Device) (b : BayId) (r : Option BayRecord) (j : ArmId) : (d.setBayRec b r).arm j = d.arm j := rfl
@[simp] theorem setBayRec_meter (d : Device) (b : BayId) (r : Option BayRecord) (j : ArmId) : (d.setBayRec b r).meter j = d.meter j := rfl
@[simp] theorem setBayRec_armRec (d : Device) (b : BayId) (r : Option BayRecord) (j : ArmId) : (d.setBayRec b r).armRec j = d.armRec j := rfl
@[simp] theorem setBayRec_product (d : Device) (b : BayId) (r : Option BayRecord) (j : ProdIdx) : (d.setBayRec b r).product j = d.product j := rfl
@[simp] theorem setBayRec_injRec (d : Device) (b : BayId) (r : Option BayRecord) (j : Chan) : (d.setBayRec b r).injRec j = d.injRec j := rfl
@[simp] theorem setBayRec_inj (d : Device) (b : BayId) (r : Option BayRecord) (j : Chan) : (d.setBayRec b r).inj j = d.inj j := rfl
@[simp] theorem setBayRec_bayRec_same (d : Device) (b : BayId) (r : Option BayRecord) : (d.setBayRec b r).bayRec b = r := Bank.read_write_same _ _ _
theorem setBayRec_bayRec_other (d : Device) (b : BayId) (r : Option BayRecord) (j : BayId) (h : j ≠ b) : (d.setBayRec b r).bayRec j = d.bayRec j :=
  Bank.read_write_other _ _ _ _ h
theorem setBayRec_bayRec (d : Device) (b : BayId) (r : Option BayRecord) (j : BayId) : (d.setBayRec b r).bayRec j = if j = b then r else d.bayRec j :=
  Bank.read_write _ _ _ _
@[simp] theorem setBayRec_bay (d : Device) (b : BayId) (r : Option BayRecord) (j : BayId) : (d.setBayRec b r).bay j = d.bay j := rfl
@[simp] theorem setBayRec_station (d : Device) (b : BayId) (r : Option BayRecord) (j : Addr) : (d.setBayRec b r).station j = d.station j := rfl
@[simp] theorem setBayRec_line (d : Device) (b : BayId) (r : Option BayRecord) (j : LineId) : (d.setBayRec b r).line j = d.line j := rfl
@[simp] theorem setBayRec_slot (d : Device) (b : BayId) (r : Option BayRecord) (j : SlotId) : (d.setBayRec b r).slot j = d.slot j := rfl
@[simp] theorem setBayRec_noteBay (d : Device) (b : BayId) (r : Option BayRecord) (j : BayId) : (d.setBayRec b r).noteBay j = d.noteBay j := rfl

/-! ### `onBay` -/

@[simp] theorem onBay_boot (d : Device) (b : BayId) (f : Bay → Bay) : (d.onBay b f).boot = d.boot := rfl
@[simp] theorem onBay_now (d : Device) (b : BayId) (f : Bay → Bay) : (d.onBay b f).now = d.now := rfl
@[simp] theorem onBay_cuts (d : Device) (b : BayId) (f : Bay → Bay) : (d.onBay b f).cuts = d.cuts := rfl
@[simp] theorem onBay_custody (d : Device) (b : BayId) (f : Bay → Bay) : (d.onBay b f).custody = d.custody := rfl
@[simp] theorem onBay_armRecs (d : Device) (b : BayId) (f : Bay → Bay) : (d.onBay b f).armRecs = d.armRecs := rfl
@[simp] theorem onBay_products (d : Device) (b : BayId) (f : Bay → Bay) : (d.onBay b f).products = d.products := rfl
@[simp] theorem onBay_meters (d : Device) (b : BayId) (f : Bay → Bay) : (d.onBay b f).meters = d.meters := rfl
@[simp] theorem onBay_arms (d : Device) (b : BayId) (f : Bay → Bay) : (d.onBay b f).arms = d.arms := rfl
@[simp] theorem onBay_injRecs (d : Device) (b : BayId) (f : Bay → Bay) : (d.onBay b f).injRecs = d.injRecs := rfl
@[simp] theorem onBay_injs (d : Device) (b : BayId) (f : Bay → Bay) : (d.onBay b f).injs = d.injs := rfl
@[simp] theorem onBay_bayRecs (d : Device) (b : BayId) (f : Bay → Bay) : (d.onBay b f).bayRecs = d.bayRecs := rfl
@[simp] theorem onBay_bays (d : Device) (b : BayId) (f : Bay → Bay) : (d.onBay b f).bays = Bank.write d.bays b (f (d.bay b)) := rfl
@[simp] theorem onBay_permits (d : Device) (b : BayId) (f : Bay → Bay) : (d.onBay b f).permits = d.permits := rfl
@[simp] theorem onBay_accounts (d : Device) (b : BayId) (f : Bay → Bay) : (d.onBay b f).accounts = d.accounts := rfl
@[simp] theorem onBay_orders (d : Device) (b : BayId) (f : Bay → Bay) : (d.onBay b f).orders = d.orders := rfl
@[simp] theorem onBay_cw (d : Device) (b : BayId) (f : Bay → Bay) : (d.onBay b f).cw = d.cw := rfl
@[simp] theorem onBay_nu (d : Device) (b : BayId) (f : Bay → Bay) : (d.onBay b f).nu = d.nu := rfl
@[simp] theorem onBay_lm (d : Device) (b : BayId) (f : Bay → Bay) : (d.onBay b f).lm = d.lm := rfl
@[simp] theorem onBay_lu (d : Device) (b : BayId) (f : Bay → Bay) : (d.onBay b f).lu = d.lu := rfl
@[simp] theorem onBay_mp (d : Device) (b : BayId) (f : Bay → Bay) : (d.onBay b f).mp = d.mp := rfl
@[simp] theorem onBay_arm (d : Device) (b : BayId) (f : Bay → Bay) (j : ArmId) : (d.onBay b f).arm j = d.arm j := rfl
@[simp] theorem onBay_meter (d : Device) (b : BayId) (f : Bay → Bay) (j : ArmId) : (d.onBay b f).meter j = d.meter j := rfl
@[simp] theorem onBay_armRec (d : Device) (b : BayId) (f : Bay → Bay) (j : ArmId) : (d.onBay b f).armRec j = d.armRec j := rfl
@[simp] theorem onBay_product (d : Device) (b : BayId) (f : Bay → Bay) (j : ProdIdx) : (d.onBay b f).product j = d.product j := rfl
@[simp] theorem onBay_injRec (d : Device) (b : BayId) (f : Bay → Bay) (j : Chan) : (d.onBay b f).injRec j = d.injRec j := rfl
@[simp] theorem onBay_inj (d : Device) (b : BayId) (f : Bay → Bay) (j : Chan) : (d.onBay b f).inj j = d.inj j := rfl
@[simp] theorem onBay_bayRec (d : Device) (b : BayId) (f : Bay → Bay) (j : BayId) : (d.onBay b f).bayRec j = d.bayRec j := rfl
@[simp] theorem onBay_bay_same (d : Device) (b : BayId) (f : Bay → Bay) : (d.onBay b f).bay b = f (d.bay b) := Bank.read_write_same _ _ _
theorem onBay_bay_other (d : Device) (b : BayId) (f : Bay → Bay) (j : BayId) (h : j ≠ b) : (d.onBay b f).bay j = d.bay j :=
  Bank.read_write_other _ _ _ _ h
theorem onBay_bay (d : Device) (b : BayId) (f : Bay → Bay) (j : BayId) : (d.onBay b f).bay j = if j = b then f (d.bay b) else d.bay j :=
  Bank.read_write _ _ _ _
@[simp] theorem onBay_station (d : Device) (b : BayId) (f : Bay → Bay) (j : Addr) : (d.onBay b f).station j = d.station j := rfl
@[simp] theorem onBay_line (d : Device) (b : BayId) (f : Bay → Bay) (j : LineId) : (d.onBay b f).line j = d.line j := rfl
@[simp] theorem onBay_slot (d : Device) (b : BayId) (f : Bay → Bay) (j : SlotId) : (d.onBay b f).slot j = d.slot j := rfl
@[simp] theorem onBay_noteBay (d : Device) (b : BayId) (f : Bay → Bay) (j : BayId) : (d.onBay b f).noteBay j = d.noteBay j := rfl

/-! ### `onStation` -/

@[simp] theorem onStation_boot (d : Device) (n : Addr) (f : Station → Station) : (d.onStation n f).boot = d.boot := rfl
@[simp] theorem onStation_now (d : Device) (n : Addr) (f : Station → Station) : (d.onStation n f).now = d.now := rfl
@[simp] theorem onStation_cuts (d : Device) (n : Addr) (f : Station → Station) : (d.onStation n f).cuts = d.cuts := rfl
@[simp] theorem onStation_custody (d : Device) (n : Addr) (f : Station → Station) : (d.onStation n f).custody = d.custody := rfl
@[simp] theorem onStation_armRecs (d : Device) (n : Addr) (f : Station → Station) : (d.onStation n f).armRecs = d.armRecs := rfl
@[simp] theorem onStation_products (d : Device) (n : Addr) (f : Station → Station) : (d.onStation n f).products = d.products := rfl
@[simp] theorem onStation_meters (d : Device) (n : Addr) (f : Station → Station) : (d.onStation n f).meters = d.meters := rfl
@[simp] theorem onStation_arms (d : Device) (n : Addr) (f : Station → Station) : (d.onStation n f).arms = d.arms := rfl
@[simp] theorem onStation_injRecs (d : Device) (n : Addr) (f : Station → Station) : (d.onStation n f).injRecs = d.injRecs := rfl
@[simp] theorem onStation_injs (d : Device) (n : Addr) (f : Station → Station) : (d.onStation n f).injs = d.injs := rfl
@[simp] theorem onStation_bayRecs (d : Device) (n : Addr) (f : Station → Station) : (d.onStation n f).bayRecs = d.bayRecs := rfl
@[simp] theorem onStation_bays (d : Device) (n : Addr) (f : Station → Station) : (d.onStation n f).bays = d.bays := rfl
@[simp] theorem onStation_permits (d : Device) (n : Addr) (f : Station → Station) : (d.onStation n f).permits = d.permits := rfl
@[simp] theorem onStation_accounts (d : Device) (n : Addr) (f : Station → Station) : (d.onStation n f).accounts = d.accounts := rfl
@[simp] theorem onStation_orders (d : Device) (n : Addr) (f : Station → Station) : (d.onStation n f).orders = d.orders := rfl
@[simp] theorem onStation_cw (d : Device) (n : Addr) (f : Station → Station) : (d.onStation n f).cw = d.cw := rfl
@[simp] theorem onStation_nu (d : Device) (n : Addr) (f : Station → Station) : (d.onStation n f).nu = d.nu := rfl
@[simp] theorem onStation_lm (d : Device) (n : Addr) (f : Station → Station) : (d.onStation n f).lm = { d.lm with stations := Bank.write d.lm.stations n (f (d.station n)) } := rfl
@[simp] theorem onStation_lu (d : Device) (n : Addr) (f : Station → Station) : (d.onStation n f).lu = d.lu := rfl
@[simp] theorem onStation_mp (d : Device) (n : Addr) (f : Station → Station) : (d.onStation n f).mp = d.mp := rfl
@[simp] theorem onStation_arm (d : Device) (n : Addr) (f : Station → Station) (j : ArmId) : (d.onStation n f).arm j = d.arm j := rfl
@[simp] theorem onStation_meter (d : Device) (n : Addr) (f : Station → Station) (j : ArmId) : (d.onStation n f).meter j = d.meter j := rfl
@[simp] theorem onStation_armRec (d : Device) (n : Addr) (f : Station → Station) (j : ArmId) : (d.onStation n f).armRec j = d.armRec j := rfl
@[simp] theorem onStation_product (d : Device) (n : Addr) (f : Station → Station) (j : ProdIdx) : (d.onStation n f).product j = d.product j := rfl
@[simp] theorem onStation_injRec (d : Device) (n : Addr) (f : Station → Station) (j : Chan) : (d.onStation n f).injRec j = d.injRec j := rfl
@[simp] theorem onStation_inj (d : Device) (n : Addr) (f : Station → Station) (j : Chan) : (d.onStation n f).inj j = d.inj j := rfl
@[simp] theorem onStation_bayRec (d : Device) (n : Addr) (f : Station → Station) (j : BayId) : (d.onStation n f).bayRec j = d.bayRec j := rfl
@[simp] theorem onStation_bay (d : Device) (n : Addr) (f : Station → Station) (j : BayId) : (d.onStation n f).bay j = d.bay j := rfl
@[simp] theorem onStation_station_same (d : Device) (n : Addr) (f : Station → Station) : (d.onStation n f).station n = f (d.station n) := Bank.read_write_same _ _ _
theorem onStation_station_other (d : Device) (n : Addr) (f : Station → Station) (j : Addr) (h : j ≠ n) : (d.onStation n f).station j = d.station j :=
  Bank.read_write_other _ _ _ _ h
theorem onStation_station (d : Device) (n : Addr) (f : Station → Station) (j : Addr) : (d.onStation n f).station j = if j = n then f (d.station n) else d.station j :=
  Bank.read_write _ _ _ _
@[simp] theorem onStation_line (d : Device) (n : Addr) (f : Station → Station) (j : LineId) : (d.onStation n f).line j = d.line j := rfl
@[simp] theorem onStation_slot (d : Device) (n : Addr) (f : Station → Station) (j : SlotId) : (d.onStation n f).slot j = d.slot j := rfl
@[simp] theorem onStation_noteBay (d : Device) (n : Addr) (f : Station → Station) (j : BayId) : (d.onStation n f).noteBay j = d.noteBay j := rfl

/-! ### `onLine` -/

@[simp] theorem onLine_boot (d : Device) (l : LineId) (f : Line → Line) : (d.onLine l f).boot = d.boot := rfl
@[simp] theorem onLine_now (d : Device) (l : LineId) (f : Line → Line) : (d.onLine l f).now = d.now := rfl
@[simp] theorem onLine_cuts (d : Device) (l : LineId) (f : Line → Line) : (d.onLine l f).cuts = d.cuts := rfl
@[simp] theorem onLine_custody (d : Device) (l : LineId) (f : Line → Line) : (d.onLine l f).custody = d.custody := rfl
@[simp] theorem onLine_armRecs (d : Device) (l : LineId) (f : Line → Line) : (d.onLine l f).armRecs = d.armRecs := rfl
@[simp] theorem onLine_products (d : Device) (l : LineId) (f : Line → Line) : (d.onLine l f).products = d.products := rfl
@[simp] theorem onLine_meters (d : Device) (l : LineId) (f : Line → Line) : (d.onLine l f).meters = d.meters := rfl
@[simp] theorem onLine_arms (d : Device) (l : LineId) (f : Line → Line) : (d.onLine l f).arms = d.arms := rfl
@[simp] theorem onLine_injRecs (d : Device) (l : LineId) (f : Line → Line) : (d.onLine l f).injRecs = d.injRecs := rfl
@[simp] theorem onLine_injs (d : Device) (l : LineId) (f : Line → Line) : (d.onLine l f).injs = d.injs := rfl
@[simp] theorem onLine_bayRecs (d : Device) (l : LineId) (f : Line → Line) : (d.onLine l f).bayRecs = d.bayRecs := rfl
@[simp] theorem onLine_bays (d : Device) (l : LineId) (f : Line → Line) : (d.onLine l f).bays = d.bays := rfl
@[simp] theorem onLine_permits (d : Device) (l : LineId) (f : Line → Line) : (d.onLine l f).permits = d.permits := rfl
@[simp] theorem onLine_accounts (d : Device) (l : LineId) (f : Line → Line) : (d.onLine l f).accounts = d.accounts := rfl
@[simp] theorem onLine_orders (d : Device) (l : LineId) (f : Line → Line) : (d.onLine l f).orders = d.orders := rfl
@[simp] theorem onLine_cw (d : Device) (l : LineId) (f : Line → Line) : (d.onLine l f).cw = d.cw := rfl
@[simp] theorem onLine_nu (d : Device) (l : LineId) (f : Line → Line) : (d.onLine l f).nu = d.nu := rfl
@[simp] theorem onLine_lm (d : Device) (l : LineId) (f : Line → Line) : (d.onLine l f).lm = d.lm := rfl
@[simp] theorem onLine_lu (d : Device) (l : LineId) (f : Line → Line) : (d.onLine l f).lu = { d.lu with lines := Bank.write d.lu.lines l (f (d.line l)) } := rfl
@[simp] theorem onLine_mp (d : Device) (l : LineId) (f : Line → Line) : (d.onLine l f).mp = d.mp := rfl
@[simp] theorem onLine_arm (d : Device) (l : LineId) (f : Line → Line) (j : ArmId) : (d.onLine l f).arm j = d.arm j := rfl
@[simp] theorem onLine_meter (d : Device) (l : LineId) (f : Line → Line) (j : ArmId) : (d.onLine l f).meter j = d.meter j := rfl
@[simp] theorem onLine_armRec (d : Device) (l : LineId) (f : Line → Line) (j : ArmId) : (d.onLine l f).armRec j = d.armRec j := rfl
@[simp] theorem onLine_product (d : Device) (l : LineId) (f : Line → Line) (j : ProdIdx) : (d.onLine l f).product j = d.product j := rfl
@[simp] theorem onLine_injRec (d : Device) (l : LineId) (f : Line → Line) (j : Chan) : (d.onLine l f).injRec j = d.injRec j := rfl
@[simp] theorem onLine_inj (d : Device) (l : LineId) (f : Line → Line) (j : Chan) : (d.onLine l f).inj j = d.inj j := rfl
@[simp] theorem onLine_bayRec (d : Device) (l : LineId) (f : Line → Line) (j : BayId) : (d.onLine l f).bayRec j = d.bayRec j := rfl
@[simp] theorem onLine_bay (d : Device) (l : LineId) (f : Line → Line) (j : BayId) : (d.onLine l f).bay j = d.bay j := rfl
@[simp] theorem onLine_station (d : Device) (l : LineId) (f : Line → Line) (j : Addr) : (d.onLine l f).station j = d.station j := rfl
@[simp] theorem onLine_line_same (d : Device) (l : LineId) (f : Line → Line) : (d.onLine l f).line l = f (d.line l) := Bank.read_write_same _ _ _
theorem onLine_line_other (d : Device) (l : LineId) (f : Line → Line) (j : LineId) (h : j ≠ l) : (d.onLine l f).line j = d.line j :=
  Bank.read_write_other _ _ _ _ h
theorem onLine_line (d : Device) (l : LineId) (f : Line → Line) (j : LineId) : (d.onLine l f).line j = if j = l then f (d.line l) else d.line j :=
  Bank.read_write _ _ _ _
@[simp] theorem onLine_slot (d : Device) (l : LineId) (f : Line → Line) (j : SlotId) : (d.onLine l f).slot j = d.slot j := rfl
@[simp] theorem onLine_noteBay (d : Device) (l : LineId) (f : Line → Line) (j : BayId) : (d.onLine l f).noteBay j = d.noteBay j := rfl

/-! ### `setSlot` -/

@[simp] theorem setSlot_boot (d : Device) (k : SlotId) (x : SlotState) : (d.setSlot k x).boot = d.boot := rfl
@[simp] theorem setSlot_now (d : Device) (k : SlotId) (x : SlotState) : (d.setSlot k x).now = d.now := rfl
@[simp] theorem setSlot_cuts (d : Device) (k : SlotId) (x : SlotState) : (d.setSlot k x).cuts = d.cuts := rfl
@[simp] theorem setSlot_custody (d : Device) (k : SlotId) (x : SlotState) : (d.setSlot k x).custody = d.custody := rfl
@[simp] theorem setSlot_armRecs (d : Device) (k : SlotId) (x : SlotState) : (d.setSlot k x).armRecs = d.armRecs := rfl
@[simp] theorem setSlot_products (d : Device) (k : SlotId) (x : SlotState) : (d.setSlot k x).products = d.products := rfl
@[simp] theorem setSlot_meters (d : Device) (k : SlotId) (x : SlotState) : (d.setSlot k x).meters = d.meters := rfl
@[simp] theorem setSlot_arms (d : Device) (k : SlotId) (x : SlotState) : (d.setSlot k x).arms = d.arms := rfl
@[simp] theorem setSlot_injRecs (d : Device) (k : SlotId) (x : SlotState) : (d.setSlot k x).injRecs = d.injRecs := rfl
@[simp] theorem setSlot_injs (d : Device) (k : SlotId) (x : SlotState) : (d.setSlot k x).injs = d.injs := rfl
@[simp] theorem setSlot_bayRecs (d : Device) (k : SlotId) (x : SlotState) : (d.setSlot k x).bayRecs = d.bayRecs := rfl
@[simp] theorem setSlot_bays (d : Device) (k : SlotId) (x : SlotState) : (d.setSlot k x).bays = d.bays := rfl
@[simp] theorem setSlot_permits (d : Device) (k : SlotId) (x : SlotState) : (d.setSlot k x).permits = d.permits := rfl
@[simp] theorem setSlot_accounts (d : Device) (k : SlotId) (x : SlotState) : (d.setSlot k x).accounts = d.accounts := rfl
@[simp] theorem setSlot_orders (d : Device) (k : SlotId) (x : SlotState) : (d.setSlot k x).orders = d.orders := rfl
@[simp] theorem setSlot_cw (d : Device) (k : SlotId) (x : SlotState) : (d.setSlot k x).cw = d.cw := rfl
@[simp] theorem setSlot_nu (d : Device) (k : SlotId) (x : SlotState) : (d.setSlot k x).nu = { d.nu with dir := Bank.write d.nu.dir k x } := rfl
@[simp] theorem setSlot_lm (d : Device) (k : SlotId) (x : SlotState) : (d.setSlot k x).lm = d.lm := rfl
@[simp] theorem setSlot_lu (d : Device) (k : SlotId) (x : SlotState) : (d.setSlot k x).lu = d.lu := rfl
@[simp] theorem setSlot_mp (d : Device) (k : SlotId) (x : SlotState) : (d.setSlot k x).mp = d.mp := rfl
@[simp] theorem setSlot_arm (d : Device) (k : SlotId) (x : SlotState) (j : ArmId) : (d.setSlot k x).arm j = d.arm j := rfl
@[simp] theorem setSlot_meter (d : Device) (k : SlotId) (x : SlotState) (j : ArmId) : (d.setSlot k x).meter j = d.meter j := rfl
@[simp] theorem setSlot_armRec (d : Device) (k : SlotId) (x : SlotState) (j : ArmId) : (d.setSlot k x).armRec j = d.armRec j := rfl
@[simp] theorem setSlot_product (d : Device) (k : SlotId) (x : SlotState) (j : ProdIdx) : (d.setSlot k x).product j = d.product j := rfl
@[simp] theorem setSlot_injRec (d : Device) (k : SlotId) (x : SlotState) (j : Chan) : (d.setSlot k x).injRec j = d.injRec j := rfl
@[simp] theorem setSlot_inj (d : Device) (k : SlotId) (x : SlotState) (j : Chan) : (d.setSlot k x).inj j = d.inj j := rfl
@[simp] theorem setSlot_bayRec (d : Device) (k : SlotId) (x : SlotState) (j : BayId) : (d.setSlot k x).bayRec j = d.bayRec j := rfl
@[simp] theorem setSlot_bay (d : Device) (k : SlotId) (x : SlotState) (j : BayId) : (d.setSlot k x).bay j = d.bay j := rfl
@[simp] theorem setSlot_station (d : Device) (k : SlotId) (x : SlotState) (j : Addr) : (d.setSlot k x).station j = d.station j := rfl
@[simp] theorem setSlot_line (d : Device) (k : SlotId) (x : SlotState) (j : LineId) : (d.setSlot k x).line j = d.line j := rfl
@[simp] theorem setSlot_slot_same (d : Device) (k : SlotId) (x : SlotState) : (d.setSlot k x).slot k = x := Bank.read_write_same _ _ _
theorem setSlot_slot_other (d : Device) (k : SlotId) (x : SlotState) (j : SlotId) (h : j ≠ k) : (d.setSlot k x).slot j = d.slot j :=
  Bank.read_write_other _ _ _ _ h
theorem setSlot_slot (d : Device) (k : SlotId) (x : SlotState) (j : SlotId) : (d.setSlot k x).slot j = if j = k then x else d.slot j :=
  Bank.read_write _ _ _ _
@[simp] theorem setSlot_noteBay (d : Device) (k : SlotId) (x : SlotState) (j : BayId) : (d.setSlot k x).noteBay j = d.noteBay j := rfl

/-! ### `onNoteBay` -/

@[simp] theorem onNoteBay_boot (d : Device) (b : BayId) (f : NoteBay → NoteBay) : (d.onNoteBay b f).boot = d.boot := rfl
@[simp] theorem onNoteBay_now (d : Device) (b : BayId) (f : NoteBay → NoteBay) : (d.onNoteBay b f).now = d.now := rfl
@[simp] theorem onNoteBay_cuts (d : Device) (b : BayId) (f : NoteBay → NoteBay) : (d.onNoteBay b f).cuts = d.cuts := rfl
@[simp] theorem onNoteBay_custody (d : Device) (b : BayId) (f : NoteBay → NoteBay) : (d.onNoteBay b f).custody = d.custody := rfl
@[simp] theorem onNoteBay_armRecs (d : Device) (b : BayId) (f : NoteBay → NoteBay) : (d.onNoteBay b f).armRecs = d.armRecs := rfl
@[simp] theorem onNoteBay_products (d : Device) (b : BayId) (f : NoteBay → NoteBay) : (d.onNoteBay b f).products = d.products := rfl
@[simp] theorem onNoteBay_meters (d : Device) (b : BayId) (f : NoteBay → NoteBay) : (d.onNoteBay b f).meters = d.meters := rfl
@[simp] theorem onNoteBay_arms (d : Device) (b : BayId) (f : NoteBay → NoteBay) : (d.onNoteBay b f).arms = d.arms := rfl
@[simp] theorem onNoteBay_injRecs (d : Device) (b : BayId) (f : NoteBay → NoteBay) : (d.onNoteBay b f).injRecs = d.injRecs := rfl
@[simp] theorem onNoteBay_injs (d : Device) (b : BayId) (f : NoteBay → NoteBay) : (d.onNoteBay b f).injs = d.injs := rfl
@[simp] theorem onNoteBay_bayRecs (d : Device) (b : BayId) (f : NoteBay → NoteBay) : (d.onNoteBay b f).bayRecs = d.bayRecs := rfl
@[simp] theorem onNoteBay_bays (d : Device) (b : BayId) (f : NoteBay → NoteBay) : (d.onNoteBay b f).bays = d.bays := rfl
@[simp] theorem onNoteBay_permits (d : Device) (b : BayId) (f : NoteBay → NoteBay) : (d.onNoteBay b f).permits = d.permits := rfl
@[simp] theorem onNoteBay_accounts (d : Device) (b : BayId) (f : NoteBay → NoteBay) : (d.onNoteBay b f).accounts = d.accounts := rfl
@[simp] theorem onNoteBay_orders (d : Device) (b : BayId) (f : NoteBay → NoteBay) : (d.onNoteBay b f).orders = d.orders := rfl
@[simp] theorem onNoteBay_cw (d : Device) (b : BayId) (f : NoteBay → NoteBay) : (d.onNoteBay b f).cw = d.cw := rfl
@[simp] theorem onNoteBay_nu (d : Device) (b : BayId) (f : NoteBay → NoteBay) : (d.onNoteBay b f).nu = { d.nu with bays := Bank.write d.nu.bays b (f (d.noteBay b)) } := rfl
@[simp] theorem onNoteBay_lm (d : Device) (b : BayId) (f : NoteBay → NoteBay) : (d.onNoteBay b f).lm = d.lm := rfl
@[simp] theorem onNoteBay_lu (d : Device) (b : BayId) (f : NoteBay → NoteBay) : (d.onNoteBay b f).lu = d.lu := rfl
@[simp] theorem onNoteBay_mp (d : Device) (b : BayId) (f : NoteBay → NoteBay) : (d.onNoteBay b f).mp = d.mp := rfl
@[simp] theorem onNoteBay_arm (d : Device) (b : BayId) (f : NoteBay → NoteBay) (j : ArmId) : (d.onNoteBay b f).arm j = d.arm j := rfl
@[simp] theorem onNoteBay_meter (d : Device) (b : BayId) (f : NoteBay → NoteBay) (j : ArmId) : (d.onNoteBay b f).meter j = d.meter j := rfl
@[simp] theorem onNoteBay_armRec (d : Device) (b : BayId) (f : NoteBay → NoteBay) (j : ArmId) : (d.onNoteBay b f).armRec j = d.armRec j := rfl
@[simp] theorem onNoteBay_product (d : Device) (b : BayId) (f : NoteBay → NoteBay) (j : ProdIdx) : (d.onNoteBay b f).product j = d.product j := rfl
@[simp] theorem onNoteBay_injRec (d : Device) (b : BayId) (f : NoteBay → NoteBay) (j : Chan) : (d.onNoteBay b f).injRec j = d.injRec j := rfl
@[simp] theorem onNoteBay_inj (d : Device) (b : BayId) (f : NoteBay → NoteBay) (j : Chan) : (d.onNoteBay b f).inj j = d.inj j := rfl
@[simp] theorem onNoteBay_bayRec (d : Device) (b : BayId) (f : NoteBay → NoteBay) (j : BayId) : (d.onNoteBay b f).bayRec j = d.bayRec j := rfl
@[simp] theorem onNoteBay_bay (d : Device) (b : BayId) (f : NoteBay → NoteBay) (j : BayId) : (d.onNoteBay b f).bay j = d.bay j := rfl
@[simp] theorem onNoteBay_station (d : Device) (b : BayId) (f : NoteBay → NoteBay) (j : Addr) : (d.onNoteBay b f).station j = d.station j := rfl
@[simp] theorem onNoteBay_line (d : Device) (b : BayId) (f : NoteBay → NoteBay) (j : LineId) : (d.onNoteBay b f).line j = d.line j := rfl
@[simp] theorem onNoteBay_slot (d : Device) (b : BayId) (f : NoteBay → NoteBay) (j : SlotId) : (d.onNoteBay b f).slot j = d.slot j := rfl
@[simp] theorem onNoteBay_noteBay_same (d : Device) (b : BayId) (f : NoteBay → NoteBay) : (d.onNoteBay b f).noteBay b = f (d.noteBay b) := Bank.read_write_same _ _ _
theorem onNoteBay_noteBay_other (d : Device) (b : BayId) (f : NoteBay → NoteBay) (j : BayId) (h : j ≠ b) : (d.onNoteBay b f).noteBay j = d.noteBay j :=
  Bank.read_write_other _ _ _ _ h
theorem onNoteBay_noteBay (d : Device) (b : BayId) (f : NoteBay → NoteBay) (j : BayId) : (d.onNoteBay b f).noteBay j = if j = b then f (d.noteBay b) else d.noteBay j :=
  Bank.read_write _ _ _ _

/-! ### `onBatch` -/

@[simp] theorem onBatch_boot (d : Device) (a : ArmId) (f : Batch → Batch) : (d.onBatch a f).boot = d.boot := rfl
@[simp] theorem onBatch_now (d : Device) (a : ArmId) (f : Batch → Batch) : (d.onBatch a f).now = d.now := rfl
@[simp] theorem onBatch_cuts (d : Device) (a : ArmId) (f : Batch → Batch) : (d.onBatch a f).cuts = d.cuts := rfl
@[simp] theorem onBatch_custody (d : Device) (a : ArmId) (f : Batch → Batch) : (d.onBatch a f).custody = d.custody := rfl
@[simp] theorem onBatch_armRecs (d : Device) (a : ArmId) (f : Batch → Batch) : (d.onBatch a f).armRecs = d.armRecs := rfl
@[simp] theorem onBatch_products (d : Device) (a : ArmId) (f : Batch → Batch) : (d.onBatch a f).products = d.products := rfl
@[simp] theorem onBatch_meters (d : Device) (a : ArmId) (f : Batch → Batch) : (d.onBatch a f).meters = d.meters := rfl
@[simp] theorem onBatch_arms (d : Device) (a : ArmId) (f : Batch → Batch) : (d.onBatch a f).arms = Bank.write d.arms a { d.arm a with batch := (d.arm a).batch.map f } := rfl
@[simp] theorem onBatch_injRecs (d : Device) (a : ArmId) (f : Batch → Batch) : (d.onBatch a f).injRecs = d.injRecs := rfl
@[simp] theorem onBatch_injs (d : Device) (a : ArmId) (f : Batch → Batch) : (d.onBatch a f).injs = d.injs := rfl
@[simp] theorem onBatch_bayRecs (d : Device) (a : ArmId) (f : Batch → Batch) : (d.onBatch a f).bayRecs = d.bayRecs := rfl
@[simp] theorem onBatch_bays (d : Device) (a : ArmId) (f : Batch → Batch) : (d.onBatch a f).bays = d.bays := rfl
@[simp] theorem onBatch_permits (d : Device) (a : ArmId) (f : Batch → Batch) : (d.onBatch a f).permits = d.permits := rfl
@[simp] theorem onBatch_accounts (d : Device) (a : ArmId) (f : Batch → Batch) : (d.onBatch a f).accounts = d.accounts := rfl
@[simp] theorem onBatch_orders (d : Device) (a : ArmId) (f : Batch → Batch) : (d.onBatch a f).orders = d.orders := rfl
@[simp] theorem onBatch_cw (d : Device) (a : ArmId) (f : Batch → Batch) : (d.onBatch a f).cw = d.cw := rfl
@[simp] theorem onBatch_nu (d : Device) (a : ArmId) (f : Batch → Batch) : (d.onBatch a f).nu = d.nu := rfl
@[simp] theorem onBatch_lm (d : Device) (a : ArmId) (f : Batch → Batch) : (d.onBatch a f).lm = d.lm := rfl
@[simp] theorem onBatch_lu (d : Device) (a : ArmId) (f : Batch → Batch) : (d.onBatch a f).lu = d.lu := rfl
@[simp] theorem onBatch_mp (d : Device) (a : ArmId) (f : Batch → Batch) : (d.onBatch a f).mp = d.mp := rfl
@[simp] theorem onBatch_arm_same (d : Device) (a : ArmId) (f : Batch → Batch) : (d.onBatch a f).arm a = { d.arm a with batch := (d.arm a).batch.map f } := Bank.read_write_same _ _ _
theorem onBatch_arm_other (d : Device) (a : ArmId) (f : Batch → Batch) (j : ArmId) (h : j ≠ a) : (d.onBatch a f).arm j = d.arm j :=
  Bank.read_write_other _ _ _ _ h
theorem onBatch_arm (d : Device) (a : ArmId) (f : Batch → Batch) (j : ArmId) : (d.onBatch a f).arm j = if j = a then { d.arm a with batch := (d.arm a).batch.map f } else d.arm j :=
  Bank.read_write _ _ _ _
@[simp] theorem onBatch_meter (d : Device) (a : ArmId) (f : Batch → Batch) (j : ArmId) : (d.onBatch a f).meter j = d.meter j := rfl
@[simp] theorem onBatch_armRec (d : Device) (a : ArmId) (f : Batch → Batch) (j : ArmId) : (d.onBatch a f).armRec j = d.armRec j := rfl
@[simp] theorem onBatch_product (d : Device) (a : ArmId) (f : Batch → Batch) (j : ProdIdx) : (d.onBatch a f).product j = d.product j := rfl
@[simp] theorem onBatch_injRec (d : Device) (a : ArmId) (f : Batch → Batch) (j : Chan) : (d.onBatch a f).injRec j = d.injRec j := rfl
@[simp] theorem onBatch_inj (d : Device) (a : ArmId) (f : Batch → Batch) (j : Chan) : (d.onBatch a f).inj j = d.inj j := rfl
@[simp] theorem onBatch_bayRec (d : Device) (a : ArmId) (f : Batch → Batch) (j : BayId) : (d.onBatch a f).bayRec j = d.bayRec j := rfl
@[simp] theorem onBatch_bay (d : Device) (a : ArmId) (f : Batch → Batch) (j : BayId) : (d.onBatch a f).bay j = d.bay j := rfl
@[simp] theorem onBatch_station (d : Device) (a : ArmId) (f : Batch → Batch) (j : Addr) : (d.onBatch a f).station j = d.station j := rfl
@[simp] theorem onBatch_line (d : Device) (a : ArmId) (f : Batch → Batch) (j : LineId) : (d.onBatch a f).line j = d.line j := rfl
@[simp] theorem onBatch_slot (d : Device) (a : ArmId) (f : Batch → Batch) (j : SlotId) : (d.onBatch a f).slot j = d.slot j := rfl
@[simp] theorem onBatch_noteBay (d : Device) (a : ArmId) (f : Batch → Batch) (j : BayId) : (d.onBatch a f).noteBay j = d.noteBay j := rfl

/-! ### `raise` -/

@[simp] theorem raise_boot (d : Device) (k : NoticeKind) (o : SourceObj) (e : Nat) (l : List (List Byte)) : (d.raise k o e l).boot = d.boot := rfl
@[simp] theorem raise_now (d : Device) (k : NoticeKind) (o : SourceObj) (e : Nat) (l : List (List Byte)) : (d.raise k o e l).now = d.now := rfl
@[simp] theorem raise_cuts (d : Device) (k : NoticeKind) (o : SourceObj) (e : Nat) (l : List (List Byte)) : (d.raise k o e l).cuts = d.cuts := rfl
@[simp] theorem raise_custody (d : Device) (k : NoticeKind) (o : SourceObj) (e : Nat) (l : List (List Byte)) : (d.raise k o e l).custody = d.custody := rfl
@[simp] theorem raise_armRecs (d : Device) (k : NoticeKind) (o : SourceObj) (e : Nat) (l : List (List Byte)) : (d.raise k o e l).armRecs = d.armRecs := rfl
@[simp] theorem raise_products (d : Device) (k : NoticeKind) (o : SourceObj) (e : Nat) (l : List (List Byte)) : (d.raise k o e l).products = d.products := rfl
@[simp] theorem raise_meters (d : Device) (k : NoticeKind) (o : SourceObj) (e : Nat) (l : List (List Byte)) : (d.raise k o e l).meters = d.meters := rfl
@[simp] theorem raise_arms (d : Device) (k : NoticeKind) (o : SourceObj) (e : Nat) (l : List (List Byte)) : (d.raise k o e l).arms = d.arms := rfl
@[simp] theorem raise_injRecs (d : Device) (k : NoticeKind) (o : SourceObj) (e : Nat) (l : List (List Byte)) : (d.raise k o e l).injRecs = d.injRecs := rfl
@[simp] theorem raise_injs (d : Device) (k : NoticeKind) (o : SourceObj) (e : Nat) (l : List (List Byte)) : (d.raise k o e l).injs = d.injs := rfl
@[simp] theorem raise_bayRecs (d : Device) (k : NoticeKind) (o : SourceObj) (e : Nat) (l : List (List Byte)) : (d.raise k o e l).bayRecs = d.bayRecs := rfl
@[simp] theorem raise_bays (d : Device) (k : NoticeKind) (o : SourceObj) (e : Nat) (l : List (List Byte)) : (d.raise k o e l).bays = d.bays := rfl
@[simp] theorem raise_permits (d : Device) (k : NoticeKind) (o : SourceObj) (e : Nat) (l : List (List Byte)) : (d.raise k o e l).permits = d.permits := rfl
@[simp] theorem raise_accounts (d : Device) (k : NoticeKind) (o : SourceObj) (e : Nat) (l : List (List Byte)) : (d.raise k o e l).accounts = d.accounts := rfl
@[simp] theorem raise_orders (d : Device) (k : NoticeKind) (o : SourceObj) (e : Nat) (l : List (List Byte)) : (d.raise k o e l).orders = d.orders := rfl
@[simp] theorem raise_cw (d : Device) (k : NoticeKind) (o : SourceObj) (e : Nat) (l : List (List Byte)) : (d.raise k o e l).cw = d.cw := rfl
@[simp] theorem raise_nu (d : Device) (k : NoticeKind) (o : SourceObj) (e : Nat) (l : List (List Byte)) : (d.raise k o e l).nu = d.nu := rfl
@[simp] theorem raise_lm (d : Device) (k : NoticeKind) (o : SourceObj) (e : Nat) (l : List (List Byte)) : (d.raise k o e l).lm = d.lm := rfl
@[simp] theorem raise_lu (d : Device) (k : NoticeKind) (o : SourceObj) (e : Nat) (l : List (List Byte)) : (d.raise k o e l).lu = d.lu := rfl
@[simp] theorem raise_mp (d : Device) (k : NoticeKind) (o : SourceObj) (e : Nat) (l : List (List Byte)) : (d.raise k o e l).mp = { d.mp with notices := noticeQueue ⟨k, o, e, l, 0⟩ d.mp.notices } := rfl
@[simp] theorem raise_arm (d : Device) (k : NoticeKind) (o : SourceObj) (e : Nat) (l : List (List Byte)) (j : ArmId) : (d.raise k o e l).arm j = d.arm j := rfl
@[simp] theorem raise_meter (d : Device) (k : NoticeKind) (o : SourceObj) (e : Nat) (l : List (List Byte)) (j : ArmId) : (d.raise k o e l).meter j = d.meter j := rfl
@[simp] theorem raise_armRec (d : Device) (k : NoticeKind) (o : SourceObj) (e : Nat) (l : List (List Byte)) (j : ArmId) : (d.raise k o e l).armRec j = d.armRec j := rfl
@[simp] theorem raise_product (d : Device) (k : NoticeKind) (o : SourceObj) (e : Nat) (l : List (List Byte)) (j : ProdIdx) : (d.raise k o e l).product j = d.product j := rfl
@[simp] theorem raise_injRec (d : Device) (k : NoticeKind) (o : SourceObj) (e : Nat) (l : List (List Byte)) (j : Chan) : (d.raise k o e l).injRec j = d.injRec j := rfl
@[simp] theorem raise_inj (d : Device) (k : NoticeKind) (o : SourceObj) (e : Nat) (l : List (List Byte)) (j : Chan) : (d.raise k o e l).inj j = d.inj j := rfl
@[simp] theorem raise_bayRec (d : Device) (k : NoticeKind) (o : SourceObj) (e : Nat) (l : List (List Byte)) (j : BayId) : (d.raise k o e l).bayRec j = d.bayRec j := rfl
@[simp] theorem raise_bay (d : Device) (k : NoticeKind) (o : SourceObj) (e : Nat) (l : List (List Byte)) (j : BayId) : (d.raise k o e l).bay j = d.bay j := rfl
@[simp] theorem raise_station (d : Device) (k : NoticeKind) (o : SourceObj) (e : Nat) (l : List (List Byte)) (j : Addr) : (d.raise k o e l).station j = d.station j := rfl
@[simp] theorem raise_line (d : Device) (k : NoticeKind) (o : SourceObj) (e : Nat) (l : List (List Byte)) (j : LineId) : (d.raise k o e l).line j = d.line j := rfl
@[simp] theorem raise_slot (d : Device) (k : NoticeKind) (o : SourceObj) (e : Nat) (l : List (List Byte)) (j : SlotId) : (d.raise k o e l).slot j = d.slot j := rfl
@[simp] theorem raise_noteBay (d : Device) (k : NoticeKind) (o : SourceObj) (e : Nat) (l : List (List Byte)) (j : BayId) : (d.raise k o e l).noteBay j = d.noteBay j := rfl

/-! ### `intoService` -/

@[simp] theorem intoService_boot (d : Device) (c : Instr) : (d.intoService c).boot = d.boot := rfl
@[simp] theorem intoService_now (d : Device) (c : Instr) : (d.intoService c).now = d.now := rfl
@[simp] theorem intoService_cuts (d : Device) (c : Instr) : (d.intoService c).cuts = d.cuts := rfl
@[simp] theorem intoService_custody (d : Device) (c : Instr) : (d.intoService c).custody = d.custody := rfl
@[simp] theorem intoService_armRecs (d : Device) (c : Instr) : (d.intoService c).armRecs = d.armRecs := rfl
@[simp] theorem intoService_products (d : Device) (c : Instr) : (d.intoService c).products = d.products := rfl
@[simp] theorem intoService_meters (d : Device) (c : Instr) : (d.intoService c).meters = d.meters := rfl
@[simp] theorem intoService_arms (d : Device) (c : Instr) : (d.intoService c).arms = d.arms := rfl
@[simp] theorem intoService_injRecs (d : Device) (c : Instr) : (d.intoService c).injRecs = d.injRecs := rfl
@[simp] theorem intoService_injs (d : Device) (c : Instr) : (d.intoService c).injs = d.injs := rfl
@[simp] theorem intoService_bayRecs (d : Device) (c : Instr) : (d.intoService c).bayRecs = d.bayRecs := rfl
@[simp] theorem intoService_bays (d : Device) (c : Instr) : (d.intoService c).bays = d.bays := rfl
@[simp] theorem intoService_permits (d : Device) (c : Instr) : (d.intoService c).permits = d.permits := rfl
@[simp] theorem intoService_accounts (d : Device) (c : Instr) : (d.intoService c).accounts = d.accounts := rfl
@[simp] theorem intoService_orders (d : Device) (c : Instr) : (d.intoService c).orders = d.orders := rfl
@[simp] theorem intoService_cw (d : Device) (c : Instr) : (d.intoService c).cw = d.cw := rfl
@[simp] theorem intoService_nu (d : Device) (c : Instr) : (d.intoService c).nu = d.nu := rfl
@[simp] theorem intoService_lm (d : Device) (c : Instr) : (d.intoService c).lm = d.lm := rfl
@[simp] theorem intoService_lu (d : Device) (c : Instr) : (d.intoService c).lu = d.lu := rfl
@[simp] theorem intoService_mp (d : Device) (c : Instr) : (d.intoService c).mp = { d.mp with fifo := c :: d.mp.fifo.tail, inService := true } := rfl
@[simp] theorem intoService_arm (d : Device) (c : Instr) (j : ArmId) : (d.intoService c).arm j = d.arm j := rfl
@[simp] theorem intoService_meter (d : Device) (c : Instr) (j : ArmId) : (d.intoService c).meter j = d.meter j := rfl
@[simp] theorem intoService_armRec (d : Device) (c : Instr) (j : ArmId) : (d.intoService c).armRec j = d.armRec j := rfl
@[simp] theorem intoService_product (d : Device) (c : Instr) (j : ProdIdx) : (d.intoService c).product j = d.product j := rfl
@[simp] theorem intoService_injRec (d : Device) (c : Instr) (j : Chan) : (d.intoService c).injRec j = d.injRec j := rfl
@[simp] theorem intoService_inj (d : Device) (c : Instr) (j : Chan) : (d.intoService c).inj j = d.inj j := rfl
@[simp] theorem intoService_bayRec (d : Device) (c : Instr) (j : BayId) : (d.intoService c).bayRec j = d.bayRec j := rfl
@[simp] theorem intoService_bay (d : Device) (c : Instr) (j : BayId) : (d.intoService c).bay j = d.bay j := rfl
@[simp] theorem intoService_station (d : Device) (c : Instr) (j : Addr) : (d.intoService c).station j = d.station j := rfl
@[simp] theorem intoService_line (d : Device) (c : Instr) (j : LineId) : (d.intoService c).line j = d.line j := rfl
@[simp] theorem intoService_slot (d : Device) (c : Instr) (j : SlotId) : (d.intoService c).slot j = d.slot j := rfl
@[simp] theorem intoService_noteBay (d : Device) (c : Instr) (j : BayId) : (d.intoService c).noteBay j = d.noteBay j := rfl

/-! ### `leaveService` -/

@[simp] theorem leaveService_boot (d : Device) : (d.leaveService).boot = d.boot := rfl
@[simp] theorem leaveService_now (d : Device) : (d.leaveService).now = d.now := rfl
@[simp] theorem leaveService_cuts (d : Device) : (d.leaveService).cuts = d.cuts := rfl
@[simp] theorem leaveService_custody (d : Device) : (d.leaveService).custody = d.custody := rfl
@[simp] theorem leaveService_armRecs (d : Device) : (d.leaveService).armRecs = d.armRecs := rfl
@[simp] theorem leaveService_products (d : Device) : (d.leaveService).products = d.products := rfl
@[simp] theorem leaveService_meters (d : Device) : (d.leaveService).meters = d.meters := rfl
@[simp] theorem leaveService_arms (d : Device) : (d.leaveService).arms = d.arms := rfl
@[simp] theorem leaveService_injRecs (d : Device) : (d.leaveService).injRecs = d.injRecs := rfl
@[simp] theorem leaveService_injs (d : Device) : (d.leaveService).injs = d.injs := rfl
@[simp] theorem leaveService_bayRecs (d : Device) : (d.leaveService).bayRecs = d.bayRecs := rfl
@[simp] theorem leaveService_bays (d : Device) : (d.leaveService).bays = d.bays := rfl
@[simp] theorem leaveService_permits (d : Device) : (d.leaveService).permits = d.permits := rfl
@[simp] theorem leaveService_accounts (d : Device) : (d.leaveService).accounts = d.accounts := rfl
@[simp] theorem leaveService_orders (d : Device) : (d.leaveService).orders = d.orders := rfl
@[simp] theorem leaveService_cw (d : Device) : (d.leaveService).cw = d.cw := rfl
@[simp] theorem leaveService_nu (d : Device) : (d.leaveService).nu = d.nu := rfl
@[simp] theorem leaveService_lm (d : Device) : (d.leaveService).lm = d.lm := rfl
@[simp] theorem leaveService_lu (d : Device) : (d.leaveService).lu = d.lu := rfl
@[simp] theorem leaveService_mp (d : Device) : (d.leaveService).mp = { d.mp with fifo := d.mp.fifo.tail, inService := false } := rfl
@[simp] theorem leaveService_arm (d : Device)  (j : ArmId) : (d.leaveService).arm j = d.arm j := rfl
@[simp] theorem leaveService_meter (d : Device)  (j : ArmId) : (d.leaveService).meter j = d.meter j := rfl
@[simp] theorem leaveService_armRec (d : Device)  (j : ArmId) : (d.leaveService).armRec j = d.armRec j := rfl
@[simp] theorem leaveService_product (d : Device)  (j : ProdIdx) : (d.leaveService).product j = d.product j := rfl
@[simp] theorem leaveService_injRec (d : Device)  (j : Chan) : (d.leaveService).injRec j = d.injRec j := rfl
@[simp] theorem leaveService_inj (d : Device)  (j : Chan) : (d.leaveService).inj j = d.inj j := rfl
@[simp] theorem leaveService_bayRec (d : Device)  (j : BayId) : (d.leaveService).bayRec j = d.bayRec j := rfl
@[simp] theorem leaveService_bay (d : Device)  (j : BayId) : (d.leaveService).bay j = d.bay j := rfl
@[simp] theorem leaveService_station (d : Device)  (j : Addr) : (d.leaveService).station j = d.station j := rfl
@[simp] theorem leaveService_line (d : Device)  (j : LineId) : (d.leaveService).line j = d.line j := rfl
@[simp] theorem leaveService_slot (d : Device)  (j : SlotId) : (d.leaveService).slot j = d.slot j := rfl
@[simp] theorem leaveService_noteBay (d : Device)  (j : BayId) : (d.leaveService).noteBay j = d.noteBay j := rfl

/-! ### `reply` -/

@[simp] theorem reply_boot (d : Device) (k : Nat) (t : Byte) (st : Status) (l : List Element) : (d.reply k t st l).boot = d.boot := rfl
@[simp] theorem reply_now (d : Device) (k : Nat) (t : Byte) (st : Status) (l : List Element) : (d.reply k t st l).now = d.now := rfl
@[simp] theorem reply_cuts (d : Device) (k : Nat) (t : Byte) (st : Status) (l : List Element) : (d.reply k t st l).cuts = d.cuts := rfl
@[simp] theorem reply_custody (d : Device) (k : Nat) (t : Byte) (st : Status) (l : List Element) : (d.reply k t st l).custody = d.custody := rfl
@[simp] theorem reply_armRecs (d : Device) (k : Nat) (t : Byte) (st : Status) (l : List Element) : (d.reply k t st l).armRecs = d.armRecs := rfl
@[simp] theorem reply_products (d : Device) (k : Nat) (t : Byte) (st : Status) (l : List Element) : (d.reply k t st l).products = d.products := rfl
@[simp] theorem reply_meters (d : Device) (k : Nat) (t : Byte) (st : Status) (l : List Element) : (d.reply k t st l).meters = d.meters := rfl
@[simp] theorem reply_arms (d : Device) (k : Nat) (t : Byte) (st : Status) (l : List Element) : (d.reply k t st l).arms = d.arms := rfl
@[simp] theorem reply_injRecs (d : Device) (k : Nat) (t : Byte) (st : Status) (l : List Element) : (d.reply k t st l).injRecs = d.injRecs := rfl
@[simp] theorem reply_injs (d : Device) (k : Nat) (t : Byte) (st : Status) (l : List Element) : (d.reply k t st l).injs = d.injs := rfl
@[simp] theorem reply_bayRecs (d : Device) (k : Nat) (t : Byte) (st : Status) (l : List Element) : (d.reply k t st l).bayRecs = d.bayRecs := rfl
@[simp] theorem reply_bays (d : Device) (k : Nat) (t : Byte) (st : Status) (l : List Element) : (d.reply k t st l).bays = d.bays := rfl
@[simp] theorem reply_permits (d : Device) (k : Nat) (t : Byte) (st : Status) (l : List Element) : (d.reply k t st l).permits = d.permits := rfl
@[simp] theorem reply_accounts (d : Device) (k : Nat) (t : Byte) (st : Status) (l : List Element) : (d.reply k t st l).accounts = d.accounts := rfl
@[simp] theorem reply_orders (d : Device) (k : Nat) (t : Byte) (st : Status) (l : List Element) : (d.reply k t st l).orders = d.orders := rfl
@[simp] theorem reply_cw (d : Device) (k : Nat) (t : Byte) (st : Status) (l : List Element) : (d.reply k t st l).cw = d.cw := rfl
@[simp] theorem reply_nu (d : Device) (k : Nat) (t : Byte) (st : Status) (l : List Element) : (d.reply k t st l).nu = d.nu := rfl
@[simp] theorem reply_lm (d : Device) (k : Nat) (t : Byte) (st : Status) (l : List Element) : (d.reply k t st l).lm = d.lm := rfl
@[simp] theorem reply_lu (d : Device) (k : Nat) (t : Byte) (st : Status) (l : List Element) : (d.reply k t st l).lu = d.lu := rfl
@[simp] theorem reply_mp (d : Device) (k : Nat) (t : Byte) (st : Status) (l : List Element) : (d.reply k t st l).mp = { d.mp with answers := d.mp.answers ++ [⟨BitVec.ofNat 8 k, t, st, l⟩] } := rfl
@[simp] theorem reply_arm (d : Device) (k : Nat) (t : Byte) (st : Status) (l : List Element) (j : ArmId) : (d.reply k t st l).arm j = d.arm j := rfl
@[simp] theorem reply_meter (d : Device) (k : Nat) (t : Byte) (st : Status) (l : List Element) (j : ArmId) : (d.reply k t st l).meter j = d.meter j := rfl
@[simp] theorem reply_armRec (d : Device) (k : Nat) (t : Byte) (st : Status) (l : List Element) (j : ArmId) : (d.reply k t st l).armRec j = d.armRec j := rfl
@[simp] theorem reply_product (d : Device) (k : Nat) (t : Byte) (st : Status) (l : List Element) (j : ProdIdx) : (d.reply k t st l).product j = d.product j := rfl
@[simp] theorem reply_injRec (d : Device) (k : Nat) (t : Byte) (st : Status) (l : List Element) (j : Chan) : (d.reply k t st l).injRec j = d.injRec j := rfl
@[simp] theorem reply_inj (d : Device) (k : Nat) (t : Byte) (st : Status) (l : List Element) (j : Chan) : (d.reply k t st l).inj j = d.inj j := rfl
@[simp] theorem reply_bayRec (d : Device) (k : Nat) (t : Byte) (st : Status) (l : List Element) (j : BayId) : (d.reply k t st l).bayRec j = d.bayRec j := rfl
@[simp] theorem reply_bay (d : Device) (k : Nat) (t : Byte) (st : Status) (l : List Element) (j : BayId) : (d.reply k t st l).bay j = d.bay j := rfl
@[simp] theorem reply_station (d : Device) (k : Nat) (t : Byte) (st : Status) (l : List Element) (j : Addr) : (d.reply k t st l).station j = d.station j := rfl
@[simp] theorem reply_line (d : Device) (k : Nat) (t : Byte) (st : Status) (l : List Element) (j : LineId) : (d.reply k t st l).line j = d.line j := rfl
@[simp] theorem reply_slot (d : Device) (k : Nat) (t : Byte) (st : Status) (l : List Element) (j : SlotId) : (d.reply k t st l).slot j = d.slot j := rfl
@[simp] theorem reply_noteBay (d : Device) (k : Nat) (t : Byte) (st : Status) (l : List Element) (j : BayId) : (d.reply k t st l).noteBay j = d.noteBay j := rfl

end Sys2Proof.Machine.Device
end

