-- ==== Sys2Proof/Laws/Bays.lean ====
section
/-! SUPPORT. How updates of one bay's record combine, and what the bay operations do to the parts they do not name. -/

namespace Sys2Proof.Machine.Device

open Sys2Proof

/-- Two changes that agree on the bay's record are one change. -/
theorem onBay_congr (d : Device) (b : BayId) (f g : Bay → Bay) (h : f (d.bay b) = g (d.bay b)) : d.onBay b f = d.onBay b g := by
  simp only [onBay, h]

/-- Two changes of one bay, one after the other. -/
theorem onBay_onBay (d : Device) (b : BayId) (f g : Bay → Bay) : (d.onBay b f).onBay b g = d.onBay b fun r => g (f r) := by
  simp only [onBay, bay, Bank.read_write_same, Bank.write_write]

/-- A change that leaves the bay's record as it is changes nothing. -/
theorem onBay_same (d : Device) (b : BayId) (f : Bay → Bay) (h : f (d.bay b) = d.bay b) : d.onBay b f = d := by
  simp only [onBay, h]
  exact congrArg (fun v => { d with bays := v }) (Bank.write_read _ _)

/-- A notice and a change of a bay commute. -/
theorem raise_onBay (d : Device) (b : BayId) (f : Bay → Bay) (k : NoticeKind) (o : SourceObj) (e : Nat) (l : List (List Byte)) :
    (d.raise k o e l).onBay b f = (d.onBay b f).raise k o e l := rfl

/-- R85: a change of the bay state clears the panel message. -/
theorem enterState_eq (d : Device) (b : BayId) (st : BayState) (h : (d.bay b).state ≠ st) :
    d.enterState b st = d.onBay b fun r => { r with state := st, message := none } :=
  onBay_congr _ _ _ _ (if_neg h)

/-- A bay that is in the state already keeps its panel message. -/
theorem enterState_same (d : Device) (b : BayId) (st : BayState) (h : (d.bay b).state = st) : d.enterState b st = d :=
  onBay_same _ _ _ (if_pos h)

@[simp] theorem enterState_state (d : Device) (b : BayId) (st : BayState) : ((d.enterState b st).bay b).state = st := by
  simp only [enterState, onBay_bay_same]; split <;> simp_all

theorem enterState_bay_other (d : Device) (b x : BayId) (st : BayState) (h : x ≠ b) : (d.enterState b st).bay x = d.bay x :=
  onBay_bay_other _ _ _ _ h

@[simp] theorem bayNotice_bay (d : Device) (b x : BayId) (e : Nat) (l : List (List Byte)) : (d.bayNotice b e l).bay x = d.bay x := rfl

@[simp] theorem bayNotice_onBay (d : Device) (b x : BayId) (e : Nat) (l : List (List Byte)) (f : Bay → Bay) :
    ((d.bayNotice b e l).onBay x f).bays = (d.onBay x f).bays := rfl

end Sys2Proof.Machine.Device

namespace Sys2Proof.Machine

open Sys2Proof

/-! ### Dosing records -/

/-- R58, R61: what a cancellation at close leaves of a record: every shot it settles is one less pending and one more
cancelled. -/
theorem Dosing.cancelPending_counts (x : Dosing) (mark : Bool) (offered : Nat) :
    (x.cancelPending mark offered).pending + (x.cancelPending mark offered).cancelled = x.pending + x.cancelled ∧
    (x.cancelPending mark offered).pending = min offered x.pending ∧
    (x.cancelPending mark offered).missed = x.missed := by
  refine ⟨?_, rfl, rfl⟩
  show min offered x.pending + (x.cancelled + (x.pending - min offered x.pending)) = _
  omega

/-- R61: nothing is pending on the records of an ended batch once they are settled. -/
theorem Batch.cancelLeft_pending (b : Batch) (x : Dosing) (h : x ∈ b.cancelLeft.dosing) : x.pending = 0 := by
  have hd : b.cancelLeft.dosing = b.dosing.map fun y => y.cancelPending false 0 := by
    simp only [cancelLeft, throttleClear]
    split <;> rfl
  rw [hd, List.mem_map] at h
  obtain ⟨y, -, rfl⟩ := h
  simpa using (y.cancelPending_counts false 0).2.1

/-- R43: the records on an injector are the DOSED ones that name it, of an open batch or an ended one. -/
theorem Device.mem_refsOn (d : Device) (c : Chan) (r : DoseRef) :
    r ∈ d.refsOn c ↔ r ∈ d.doseRefs ∧ ∃ x, d.dose r = some x ∧ x.injector = some c := by
  simp only [refsOn, List.mem_filter]
  cases d.dose r <;> simp

/-- R49: the eligible records are those on the injector with a shot pending and the close mark clear. -/
theorem Device.mem_eligible (d : Device) (c : Chan) (r : DoseRef) :
    r ∈ d.eligible c ↔ r ∈ d.refsOn c ∧ ∃ x, d.dose r = some x ∧ 0 < x.pending ∧ x.closeMark = false := by
  have ha : r.arm ∈ allArms := (by decide : ∀ a : ArmId, a ∈ allArms) r.arm
  simp only [eligible, List.mem_flatten, List.mem_map]
  constructor
  · rintro ⟨l, ⟨a, -, rfl⟩, h⟩
    rw [List.mem_filter, List.mem_filter] at h
    refine ⟨h.1.1, ?_⟩
    have h2 := h.1.2
    cases hx : d.dose r <;> simp_all
  · rintro ⟨h, x, hx, hp, hm⟩
    refine ⟨_, ⟨r.arm, ha, rfl⟩, ?_⟩
    rw [List.mem_filter, List.mem_filter]
    simp [h, hx, hp, hm]

end Sys2Proof.Machine
end

