-- ==== Sys2Proof/Laws/Settle.lean ====
section
/-! SUPPORT. When nothing follows an event: a part on which every block has done its work is left as it is by `settle`, and
a request that is served at once changes what its rule changes and nothing else. When a written field is refused, and when
a RESTART's wait ends. -/

namespace Sys2Proof.Machine

open Sys2Proof

/-! ### Fields of a written record -/

@[simp] theorem outside_none (lo hi : Nat) : outside lo hi none := fun _ h => nomatch h
@[simp] theorem outside_some (lo hi n : Nat) : outside lo hi (some n) ↔ n < lo ∨ hi < n := by simp [outside]
@[simp] theorem strays_none (lo hi : Nat) : ¬ strays lo hi none := by simp [strays]
@[simp] theorem strays_some (lo hi n : Nat) : strays lo hi (some n) ↔ n < lo ∨ hi < n := by simp [strays]

/-! ### The parts of `settle` on a part that rests -/

/-- R37: an arm whose effective stage and position are unchanged keeps its travel timer. -/
theorem superviseArm_quiet (old new : Device) (a : ArmId) (hs : old.effectiveStage a = new.effectiveStage a)
    (hp : (old.arm a).position = (new.arm a).position) : superviseArm old new a = new := by
  simp [superviseArm, hs, hp]

/-- R37: no timer moves when no arm's effective stage or position has changed. -/
theorem supervise_quiet (old new : Device)
    (h : ∀ a, old.effectiveStage a = new.effectiveStage a ∧ (old.arm a).position = (new.arm a).position) :
    supervise old new = new := by
  unfold supervise
  generalize allArms = l
  induction l with
  | nil => rfl
  | cons a l ih => rw [List.foldl_cons, superviseArm_quiet old new a (h a).1 (h a).2, ih]

theorem bayTests_rest (d : Device) (b : BayId) (h : d.bayRests b = true) : d.bayTests b = d := by
  simp only [Device.bayRests, Bool.and_eq_true, Bool.not_eq_true', Bool.and_eq_false_iff, beq_eq_false_iff_ne,
    ne_eq] at h
  obtain ⟨⟨h1, h2⟩, h3⟩ := h
  have e1 : d.valveTest b = d := by
    unfold Device.valveTest; rw [if_neg]; rintro ⟨x, y⟩; simp_all
  have e2 : d.grantHold b = d := by
    unfold Device.grantHold; rw [if_neg]; rintro ⟨x, y⟩; simp_all
  have e3 : d.closingTest b = d := by
    unfold Device.closingTest; rw [if_neg]; rintro ⟨x, y, z⟩; simp_all
  rw [Device.bayTests, e1, e2, e3]

theorem allBayTests_rest (d : Device) (h : ∀ b, d.bayRests b = true) : allBays.foldl Device.bayTests d = d := by
  generalize allBays = l
  induction l with
  | nil => rfl
  | cons b l ih => rw [List.foldl_cons, bayTests_rest d b (h b), ih]

theorem refreshLine_rest (d : Device) (l : LineId) (h : d.lineRests l = true) : d.refreshLine l = d := by
  simp only [Device.lineRests, beq_iff_eq] at h
  have e : Bank.write d.lu.lines l { d.line l with
      drive := if isOutput (d.line l).mode then some (d.wantedDrive (d.line l).func ((d.line l).drive.getD false)) else none }
      = d.lu.lines := by
    rw [← h]; exact Bank.write_read _ _
  show { d with lu := { d.lu with lines := _ } } = d
  exact congrArg (fun v => { d with lu := { d.lu with lines := v } }) e

theorem driveOutputs_rest (d : Device) (h : ∀ l, d.lineRests l = true) : d.driveOutputs = d := by
  unfold Device.driveOutputs
  generalize allSixteen = q
  induction q with
  | nil => rfl
  | cons l q ih => rw [List.foldl_cons, refreshLine_rest d l (h l), ih]

theorem cwStart_rest (d : Device) (h : d.cwRests = true) : d.cwStart = d := by
  unfold Device.cwRests at h
  unfold Device.cwStart
  split
  · rfl
  next hn =>
    have hr : d.cw.releases.isEmpty = true ∧ d.headWaits = true := by
      simp only [Bool.or_eq_true, Bool.and_eq_true] at h hn ⊢; tauto
    obtain ⟨hr, hw⟩ := hr
    have : d.cw.releases = [] := by simpa using hr
    simp only [this]
    unfold Device.headWaits at hw
    split
    · rfl
    next e rest hq =>
      rw [hq] at hw
      obtain ⟨i, body, st⟩ := e
      cases body with
      | post p => simp at hw
      | barrier b =>
        simp only at hw ⊢
        cases hh : d.cw.held with
        | none => simp [hh] at hw
        | some x => rw [hh] at hw; simp at hw; simp [hw.1, hw.2]

theorem cwPark_rest (d : Device) (h : d.parkRests = true) : d.cwPark = d := by
  unfold Device.cwPark
  rw [if_neg]
  rintro ⟨h1, h2, h3, h4, h5⟩
  simp [Device.parkRests, h1, h2, h3, h4, h5] at h

theorem settled_iff (d : Device) : d.settled = true ↔
    (∀ b, d.bayRests b = true) ∧ (∀ l, d.lineRests l = true) ∧ d.cwRests = true ∧ d.parkRests = true := by
  have hb : (∀ b ∈ allBays, d.bayRests b = true) ↔ ∀ b, d.bayRests b = true :=
    ⟨fun h b => h b (by revert b; decide), fun h b _ => h b⟩
  have hl : (∀ l ∈ allSixteen, d.lineRests l = true) ↔ ∀ l, d.lineRests l = true :=
    ⟨fun h l => h l (by revert l; decide), fun h l _ => h l⟩
  simp only [Device.settled, Bool.and_eq_true, List.all_eq_true, hb, hl, and_assoc]

/-- Nothing follows an event that leaves every block at rest and no arm's stage or position changed. -/
theorem settle_quiet (old new : Device) (hn : new.settled = true)
    (h : ∀ a, old.effectiveStage a = new.effectiveStage a ∧ (old.arm a).position = (new.arm a).position) :
    settle old new = new := by
  obtain ⟨h1, h2, h3, h4⟩ := (settled_iff new).mp hn
  rw [settle, supervise_quiet old new h, allBayTests_rest new h1, driveOutputs_rest new h2, cwStart_rest new h3,
    cwPark_rest new h4]

/-! ### Events that touch nothing the blocks watch -/

/-- The two parts agree in all that the blocks watch after an event. -/
structure Device.SameView (d e : Device) : Prop where
  boot    : e.boot = d.boot
  armRecs : e.armRecs = d.armRecs
  arms    : e.arms = d.arms
  injs    : e.injs = d.injs
  bays    : e.bays = d.bays
  cw      : e.cw = d.cw
  lu      : e.lu = d.lu

theorem Device.SameView.settled {d e : Device} (v : d.SameView e) : e.settled = d.settled := by
  obtain ⟨h1, h2, h3, h4, h5, h6, h7⟩ := v
  cases d; cases e; simp only at h1 h2 h3 h4 h5 h6 h7; subst h1 h2 h3 h4 h5 h6 h7; rfl

theorem Device.SameView.stage {d e : Device} (v : d.SameView e) (a : ArmId) :
    d.effectiveStage a = e.effectiveStage a ∧ (d.arm a).position = (e.arm a).position := by
  obtain ⟨h1, h2, h3, h4, h5, h6, h7⟩ := v
  cases d; cases e; simp only at h1 h2 h3 h4 h5 h6 h7; subst h1 h2 h3 h4 h5 h6 h7; exact ⟨rfl, rfl⟩

/-- Nothing follows an event that changes nothing the blocks watch. -/
theorem settle_sameView (d e : Device) (h : d.settled = true) (v : d.SameView e) : settle d e = e :=
  settle_quiet d e (v.settled.trans h) v.stage

/-- The two parts agree in all that the blocks watch after an event but for one bay's record. -/
structure Device.SameButBay (d e : Device) (b : BayId) : Prop where
  boot    : e.boot = d.boot
  armRecs : e.armRecs = d.armRecs
  arms    : e.arms = d.arms
  injs    : e.injs = d.injs
  others  : ∀ x, x ≠ b → e.bay x = d.bay x
  cw      : e.cw = d.cw
  lu      : e.lu = d.lu

/-- Nothing follows an event that moves one bay between states in which nothing flows and no block waits for it, when no
VALVE cause comes and no trip comes or goes. -/
theorem settle_sameButBay (d e : Device) (b : BayId) (h : d.settled = true) (v : d.SameButBay e b)
    (h0 : (d.bay b).state ≠ .loading) (h1 : (e.bay b).state ≠ .loading) (h2 : (e.bay b).state ≠ .holding)
    (h3 : (e.bay b).state ≠ .closing) (h4 : (e.bay b).causes.valve = true → (d.bay b).causes.valve = true)
    (h5 : (e.bay b).state = .tripped ↔ (d.bay b).state = .tripped) : settle d e = e := by
  obtain ⟨g1, g2, g3, g4, g5, g6, g7⟩ := v
  have hst : ∀ x, (e.bay x).state = .loading ↔ (d.bay x).state = .loading := by
    intro x
    by_cases hx : x = b
    · subst hx; exact ⟨fun k => absurd k h1, fun k => absurd k h0⟩
    · rw [g5 x hx]
  have htr : ∀ x, (e.bay x).state = .tripped ↔ (d.bay x).state = .tripped := by
    intro x
    by_cases hx : x = b
    · subst hx; exact h5
    · rw [g5 x hx]
  have harm : ∀ a, e.arm a = d.arm a := fun a => by simp only [Device.arm, g3]
  have hrec : ∀ a, e.armRec a = d.armRec a := fun a => by simp only [Device.armRec, g2]
  have hof : ∀ x, e.armsOf x = d.armsOf x := fun x => by simp only [Device.armsOf, hrec]
  have hinj : ∀ c, e.inj c = d.inj c := fun c => by simp only [Device.inj, g4]
  have hline : ∀ l, e.line l = d.line l := fun l => by simp only [Device.line, g7]
  obtain ⟨k1, k2, k3, k4⟩ := (settled_iff d).mp h
  refine settle_quiet d e ((settled_iff e).mpr ⟨fun x => ?_, fun l => ?_, ?_, ?_⟩) fun a => ⟨?_, by rw [harm]⟩
  · by_cases hx : x = b
    · subst hx
      have k := k1 x
      simp only [Device.bayRests, Device.armsSeated, hof, harm, Bool.and_eq_true, Bool.not_eq_true',
        Bool.and_eq_false_iff, beq_eq_false_iff_ne, ne_eq] at k ⊢
      refine ⟨⟨?_, Or.inl h2⟩, Or.inl (Or.inl h3)⟩
      rcases k.1.1 with k | k
      · left
        cases hv : (e.bay x).causes.valve
        · rfl
        · rw [h4 hv] at k; cases k
      · exact Or.inr k
    · have k := k1 x
      simpa only [Device.bayRests, Device.armsSeated, Device.noBatch, Device.hasBatch, Device.outstandingShots, hof, harm,
        hinj, hrec, g5 x hx] using k
  · have k := k2 l
    have hany : (allBays.any fun x => (e.bay x).state == .tripped) = allBays.any fun x => (d.bay x).state == .tripped := by
      congr 1; funext x; exact Bool.eq_iff_iff.mpr (by simpa using htr x)
    have hload : ∀ x, ((e.bay x).state == .loading) = ((d.bay x).state == .loading) := fun x =>
      Bool.eq_iff_iff.mpr (by simpa using hst x)
    have hw : ∀ f q, e.wantedDrive f q = d.wantedDrive f q := by
      intro f q; cases f <;> simp only [Device.wantedDrive, hload, hany, g7]
    simpa only [Device.lineRests, hline, hw] using k
  · simpa only [Device.cwRests, Device.cwMayWork, Device.headWaits, g1, g6] using k3
  · simpa only [Device.parkRests, g1, g6] using k4
  · have hm : e.mayOpen a = d.mayOpen a := by
      simp only [Device.mayOpen, Device.bayOfArm, hrec, Device.latched, g7, harm]
      cases hb : (d.armRec a).map ArmRecord.bay with
      | none => rfl
      | some y =>
        simp only
        by_cases hy : y = b
        · subst hy
          rw [beq_eq_false_iff_ne.mpr h1, beq_eq_false_iff_ne.mpr h0]; simp
        · rw [g5 y hy]
    simp only [Device.effectiveStage, hm, harm]

/-! ### Requests -/

theorem State.quiet_iff (s : State) : s.quiet = true ↔ s.dev.serves = true ∧ s.dev.settled = true := by simp [State.quiet]

/-- What a part that serves a request at once has: it runs, its FIFO is empty, nothing is in service. -/
theorem serves_iff (d : Device) :
    d.serves = true ↔ d.boot = .ready ∧ d.mp.fifo = [] ∧ d.mp.inService = false ∧ d.mp.canServe = true := by
  simp only [Device.serves, Mp.canServe, Bool.and_eq_true, beq_iff_eq, List.isEmpty_iff, Bool.not_eq_true']; tauto

/-- R175: a request taken into service at an empty FIFO and answered leaves the FIFO as it was. -/
theorem finish_intoService (d : Device) (c : Instr) (k : Nat) (t : Byte) (st : Status) (els : List Element)
    (h1 : d.mp.fifo = []) (h2 : d.mp.inService = false) : (d.intoService c).finish k t st els = d.reply k t st els := by
  show { d with mp := { d.mp with fifo := d.mp.fifo.tail, inService := false, answers := _ } } = { d with mp := _ }
  rw [h1, ← h2, List.tail_nil, ← h1]; rfl

/-- R175: a request that MP takes into service as it arrives is carried out with its frame at the FIFO's head. -/
theorem request_serves (d : Device) (c : Instr) (run : Device → Device) (h : d.serves = true) :
    d.request c run = settle d (run (d.intoService c)) := by
  obtain ⟨h1, h2, -, h3⟩ := (serves_iff d).mp h
  unfold Device.request
  rw [if_pos h1, if_pos (Or.inl h2), if_pos h3, Device.event]

/-- R175, R173: everything a request command can do: nothing, be carried out in service, wait at the FIFO's tail, or be
discarded and counted. -/
theorem request_cases (d : Device) (c : Instr) (run : Device → Device) :
    (d.request c run = d ∧ (d.boot ≠ .ready ∨ d.mp.canServe = false)) ∨
    (d.request c run = settle d (run (d.intoService c)) ∧ d.boot = .ready ∧ d.mp.canServe = true ∧
      (d.mp.fifo = [] ∨ d.mp.fifo.head? = some c)) ∨
    (d.request c run = d.onMp (fun m => { m with fifo := m.fifo ++ [c] }) ∧ d.boot = .ready ∧
      (d.mp.fifo = [] ∨ d.mp.roomBeside = true)) ∨
    (d.request c run = d.onMp (fun m => { m with discards := min 65535 (m.discards + 1) }) ∧ d.boot = .ready ∧
      d.mp.fifo ≠ [] ∧ d.mp.roomBeside = false) := by
  unfold Device.request
  split
  next hb =>
    split
    next hh =>
      split
      next hc => exact .inr (.inl ⟨rfl, hb, hc, hh.imp id And.left⟩)
      next hc =>
        split
        next hf => exact .inr (.inr (.inl ⟨by simp only [Device.onMp, hf, List.nil_append], hb, .inl hf⟩))
        next => exact .inl ⟨rfl, .inr (by simpa using hc)⟩
    next hh =>
      split
      next hr => exact .inr (.inr (.inl ⟨rfl, hb, .inr hr⟩))
      next hr => exact .inr (.inr (.inr ⟨rfl, hb, fun hf => hh (.inl hf), by simpa using hr⟩))
  next hb => exact .inl ⟨rfl, .inl hb⟩

/-- A served request that changes nothing the blocks watch. -/
theorem request_sameView (d : Device) (c : Instr) (run : Device → Device) (h : d.serves = true) (hs : d.settled = true)
    (v : d.SameView (run (d.intoService c))) : d.request c run = run (d.intoService c) := by
  rw [request_serves d c run h, settle_sameView d _ hs v]

/-- A request, served as it arrives, that changes nothing the blocks watch and then answers. -/
theorem request_answers {s : State} {c : Instr} {run : Device → Device} {e : Device} {k : Nat} {t : Byte} {st : Status}
    {els : List Element} (h : s.quiet = true) (v : s.dev.SameView e) (hf : e.mp.fifo = s.dev.mp.fifo)
    (hi : e.mp.inService = s.dev.mp.inService) (hr : run (s.dev.intoService c) = (e.intoService c).finish k t st els) :
    advance s (fun d => d.request c run) = .next (s.answers e k t st els) := by
  obtain ⟨h1, h2⟩ := (s.quiet_iff).mp h
  obtain ⟨-, g1, g2, -⟩ := (serves_iff _).mp h1
  rw [finish_intoService e c k t st els (hf.trans g1) (hi.trans g2)] at hr
  have hv : s.dev.SameView (run (s.dev.intoService c)) := by
    rw [hr]; exact ⟨v.boot, v.armRecs, v.arms, v.injs, v.bays, v.cw, v.lu⟩
  simp only [advance]
  rw [request_sameView _ _ _ h1 h2 hv, hr]; rfl

/-- A request, served as it arrives, that moves one bay between states at rest and then answers. -/
theorem request_answers_bay {s : State} {c : Instr} {run : Device → Device} {e : Device} {k : Nat} {t : Byte} {st : Status}
    {els : List Element} (b : BayId) (h : s.quiet = true) (v : s.dev.SameButBay e b) (h0 : (s.dev.bay b).state ≠ .loading)
    (h1 : (e.bay b).state ≠ .loading) (h2 : (e.bay b).state ≠ .holding) (h3 : (e.bay b).state ≠ .closing)
    (h4 : (e.bay b).causes.valve = true → (s.dev.bay b).causes.valve = true)
    (h5 : (e.bay b).state = .tripped ↔ (s.dev.bay b).state = .tripped) (hf : e.mp.fifo = s.dev.mp.fifo)
    (hi : e.mp.inService = s.dev.mp.inService) (hr : run (s.dev.intoService c) = (e.intoService c).finish k t st els) :
    advance s (fun d => d.request c run) = .next (s.answers e k t st els) := by
  obtain ⟨g1, g2⟩ := (s.quiet_iff).mp h
  obtain ⟨-, f1, f2, -⟩ := (serves_iff _).mp g1
  rw [finish_intoService e c k t st els (hf.trans f1) (hi.trans f2)] at hr
  simp only [advance]
  rw [request_serves _ _ _ g1, hr, settle_sameButBay s.dev (e.reply k t st els) b g2
    ⟨v.boot, v.armRecs, v.arms, v.injs, v.others, v.cw, v.lu⟩ h0 h1 h2 h3 h4 h5]; rfl

/-! ### The checks of a request's operands -/

theorem toFin_lt {n i : Nat} (h : i < n) : toFin n i = some ⟨i, h⟩ := by simp [toFin, h]

@[simp] theorem toFin_val {n : Nat} (i : Fin n) : toFin n i.val = some i := by simp [toFin]

theorem toFin_ge {n i : Nat} (h : n ≤ i) : toFin n i = none := by simp [toFin, Nat.not_lt.mpr h]

@[simp] theorem withOps_none {α : Type} (d : Device) (k : Nat) (t : Byte) (f : α → Device) :
    d.withOps k t none f = d.answer k t .badField := rfl

@[simp] theorem withOps_some {α : Type} (d : Device) (k : Nat) (t : Byte) (x : α) (f : α → Device) :
    d.withOps k t (some x) f = f x := rfl

@[simp] theorem withIndex_val (d : Device) (k : Nat) (t : Byte) (n : Nat) (i : Fin n) (f : Fin n → Device) :
    d.withIndex k t n i.val f = f i := by simp [Device.withIndex]

theorem withIndex_ge (d : Device) (k : Nat) (t : Byte) (n i : Nat) (f : Fin n → Device) (h : n ≤ i) :
    d.withIndex k t n i f = d.answer k t .badIndex := by simp [Device.withIndex, toFin_ge h]

@[simp] theorem withOne_val (d : Device) (k : Nat) (t : Byte) (n : Nat) (i : Fin n) (f : Fin n → Device) :
    d.withOne k t n (some i.val) f = f i := by simp [Device.withOne]

@[simp] theorem conclude_ok (d e : Device) (k : Nat) (t : Byte) : d.conclude k t (.ok e) = e.finish k t .ok [] := rfl

@[simp] theorem conclude_error (d : Device) (k : Nat) (t : Byte) (st : Status) : d.conclude k t (.error st) = d.finish k t st [] := rfl

/-! ### The end of a RESTART's wait (R124, R143, R181) -/

/-- All that `drainTest` can do: it resets the part with the RESTART's tag when the part waits for nothing more, and else it
leaves the part as it is. -/
theorem drainTest_cases (d : Device) :
    (∃ t, d.boot = .draining t ∧ d.cw.write = none ∧ d.cw.releases = [] ∧ d.cw.queue = [] ∧ d.lm.outstanding = none ∧
      d.drainTest = d.resetWith d.custody d.cuts (some t)) ∨ d.drainTest = d := by
  unfold Device.drainTest
  split
  · next t ht =>
    split
    · next h => exact .inl ⟨t, ht, h.1, h.2.1, h.2.2.1, h.2.2.2, rfl⟩
    · exact .inr rfl
  · exact .inr rfl
  · exact .inr rfl
  · exact .inr rfl

theorem drainTest_ready (d : Device) (h : d.boot = .ready) : d.drainTest = d := by simp [Device.drainTest, h]

theorem drainTest_waits (d : Device) (h : d.lm.outstanding ≠ none) : d.drainTest = d := by
  rcases drainTest_cases d with ⟨_, -, -, -, -, h1, -⟩ | h1
  · exact absurd h1 h
  · exact h1

end Sys2Proof.Machine
end

