-- ==== Sys2Proof/Tests/Slice0.lean ====
section
/-! SUPPORT. Tests of the model against the manual's own figures, the refusals of well-formedness, request frames written
out octet by octet, and for every statement with hypotheses states and operands that meet them. -/

set_option maxRecDepth 100000
set_option Elab.async false

namespace Sys2Proof.Tests

open Sys2Proof Sys2Proof.Machine

/-! ### Ill-formed commands: one for each check of `Instr.wf` -/

theorem test_wf_sweep_too_long :
    Instr.wf (.sweepReturn (List.replicate 293 0#8)) = false ∧ Instr.wf (.sweepReturn (List.replicate 292 0#8)) = true := by
  decide +kernel
theorem test_wf_discarded_too_long : Instr.wf (.frameDiscarded (List.replicate 293 0#8)) = false := by decide +kernel
theorem test_wf_shot_token : Instr.wf (.shotTimeout 0 0) = false ∧ Instr.wf (.shotTimeout 0 256) = false := by decide
theorem test_wf_known_kind :
    Instr.wf (.requestUnknownKind 1 0) = false ∧ Instr.wf (.requestUnknownKind 24 0) = false ∧
    Instr.wf (.requestUnknownKind 25 0) = true := by decide
theorem test_wf_index_octets :
    (Instr.wf (.tableClearArm 0 (some 256)) || Instr.wf (.tableClearPermit 0 (some 65536)) ||
      Instr.wf (.tableClearAccount 0 (some 256)) || Instr.wf (.bayOpen 0 (some 256)) ||
      Instr.wf (.loadFinish 0 (some 256)) || Instr.wf (.tableReadOrderQueue 0 (some 256))) = false := by decide
theorem test_wf_arm_record :
    (Instr.wf (.tableWriteArm 0 (some (256, ⟨none, none, none, none, none, none, none, none, none, none, none⟩))) ||
      ArmWrite.wf ⟨some 256, none, none, none, none, none, none, none, none, none, none⟩ ||
      ArmWrite.wf ⟨none, some 256, none, none, none, none, none, none, none, none, none⟩ ||
      ArmWrite.wf ⟨none, none, some 256, none, none, none, none, none, none, none, none⟩ ||
      ArmWrite.wf ⟨none, none, none, some 256, none, none, none, none, none, none, none⟩ ||
      ArmWrite.wf ⟨none, none, none, none, some 256, none, none, none, none, none, none⟩ ||
      ArmWrite.wf ⟨none, none, none, none, none, some 4294967296, none, none, none, none, none⟩ ||
      ArmWrite.wf ⟨none, none, none, none, none, none, some (List.replicate 7 ⟨0, 0⟩), none, none, none, none⟩ ||
      ArmWrite.wf ⟨none, none, none, none, none, none, some [⟨65536, 0⟩], none, none, none, none⟩ ||
      ArmWrite.wf ⟨none, none, none, none, none, none, none, some 65536, none, none, none⟩ ||
      ArmWrite.wf ⟨none, none, none, none, none, none, none, none, some 65536, none, none⟩ ||
      ArmWrite.wf ⟨none, none, none, none, none, none, none, none, none, some (List.replicate 3 ⟨0, 0⟩), none⟩ ||
      ArmWrite.wf ⟨none, none, none, none, none, none, none, none, none, some [⟨0, 256⟩], none⟩) = false := by
  decide +kernel
theorem test_wf_product_record :
    (ProductWrite.wf ⟨some 256, none, none, none, none, none, none, none, none⟩ ||
      ProductWrite.wf ⟨none, some 65536, none, none, none, none, none, none, none⟩ ||
      ProductWrite.wf ⟨none, none, some 32768, none, none, none, none, none, none⟩ ||
      ProductWrite.wf ⟨none, none, none, none, some 65536, none, none, none, none⟩ ||
      ProductWrite.wf ⟨none, none, none, none, none, some 65536, none, none, none⟩ ||
      ProductWrite.wf ⟨none, none, none, none, none, none, some 256, none, none⟩ ||
      ProductWrite.wf ⟨none, none, none, none, none, none, none, none, some [⟨256, 0, .stop⟩]⟩ ||
      ProductWrite.wf ⟨none, none, none, none, none, none, none, none, some (List.replicate 3 ⟨0, 0, .flag⟩)⟩) = false := by
  decide +kernel
theorem test_wf_injector_record :
    (InjectorWrite.wf ⟨some 256, none, none, none, none, none, none, none⟩ ||
      InjectorWrite.wf ⟨none, some 256, none, none, none, none, none, none⟩ ||
      InjectorWrite.wf ⟨none, none, some 65536, none, none, none, none, none⟩ ||
      InjectorWrite.wf ⟨none, none, none, some 4294967296, none, none, none, none⟩ ||
      InjectorWrite.wf ⟨none, none, none, none, none, some 256, none, none⟩ ||
      InjectorWrite.wf ⟨none, none, none, none, none, none, some 256, none⟩ ||
      InjectorWrite.wf ⟨none, none, none, none, none, none, none, some 256⟩) = false := by decide +kernel
theorem test_wf_bay_record :
    (BayWrite.wf ⟨some 256, none, none⟩ || BayWrite.wf ⟨none, some (.station 256), none⟩ ||
      BayWrite.wf ⟨none, none, some (.line 256)⟩) = false := by decide
theorem test_wf_permit_record :
    (PermitWrite.wf ⟨some 4294967296, none, none, none, none, none⟩ ||
      PermitWrite.wf ⟨none, some 4294967296, none, none, none, none⟩ ||
      PermitWrite.wf ⟨none, none, none, some 65536, none, none⟩) = false := by decide
theorem test_wf_account_record :
    (AccountWrite.wf ⟨some 4294967296, none, none, none, none⟩ || AccountWrite.wf ⟨none, none, none, some [0], none⟩ ||
      AccountWrite.wf ⟨none, none, none, some (List.replicate 16 2147483648), none⟩ ||
      AccountWrite.wf ⟨none, none, none, none, some [0]⟩ ||
      AccountWrite.wf ⟨none, none, none, none, some (List.replicate 16 4294967296)⟩) = false := by decide
theorem test_wf_station_record :
    (StationWrite.wf ⟨none, some 256, none⟩ || StationWrite.wf ⟨none, none, some 256⟩) = false := by decide
theorem test_wf_settings_record :
    (SettingsWrite.wf ⟨some 256, none, none, none, none, none⟩ || SettingsWrite.wf ⟨none, some 256, none, none, none, none⟩ ||
      SettingsWrite.wf ⟨none, none, some 256, none, none, none⟩ ||
      SettingsWrite.wf ⟨none, none, none, some 65536, none, none⟩ ||
      SettingsWrite.wf ⟨none, none, none, none, some 65536, none⟩ ||
      SettingsWrite.wf ⟨none, none, none, none, none, some 256⟩) = false := by decide
theorem test_wf_order :
    (OrderWrite.wf ⟨some 4294967296, none, none, none, none⟩ || OrderWrite.wf ⟨none, some 256, none, none, none⟩ ||
      OrderWrite.wf ⟨none, none, some 4294967296, none, none⟩ || OrderWrite.wf ⟨none, none, none, some 65536, none⟩ ||
      OrderWrite.wf ⟨none, none, none, none, some (List.replicate 9 ⟨none, none, none, none, none⟩)⟩ ||
      OrderWrite.wf ⟨none, none, none, none, some [⟨some 256, none, none, none, none⟩]⟩) = false := by decide +kernel
theorem test_wf_table_read :
    Instr.wf (.tableRead 0 (some (6, 0))) = false ∧ Instr.wf (.tableRead 0 (some (256, 0))) = false ∧
    Instr.wf (.tableRead 0 (some (1, 256))) = false ∧ Instr.wf (.tableRead 0 (some (4, 65536))) = false ∧
    Instr.wf (.tableRead 0 (some (4, 256))) = true := by decide
theorem test_wf_other_operands :
    (Instr.wf (.orderCancel 0 (some 4294967296)) || Instr.wf (.noteRead 0 (some (.number 4294967296, 0))) ||
      Instr.wf (.noteRead 0 (some (.bay 0, 256))) || Instr.wf (.noteRelease 0 (some 4294967296)) ||
      Instr.wf (.statusRead 0 (some (.rack, 256, 0))) || Instr.wf (.statusRead 0 (some (.rack, 0, 256))) ||
      Instr.wf (.clockSet 0 (some (65536, 0))) || Instr.wf (.clockSet 0 (some (0, 16777216))) ||
      Instr.wf (.lineSet 0 (some (256, ⟨none, none, none⟩))) ||
      Instr.wf (.lineSet 0 (some (0, ⟨none, some (.groundIn 256), none⟩))) ||
      Instr.wf (.lineDrive 0 (some (256, true)))) = false := by decide
theorem test_wf_bad_table :
    Instr.wf (.tableRequestBadTable 0 true (some 8)) = false ∧ Instr.wf (.tableRequestBadTable 0 true (some 6)) = true ∧
    Instr.wf (.tableRequestBadTable 0 false (some 256)) = false := by decide

/-! ### Request frames written out (R185, Table 10-5) -/

/-- BAY OPEN is kind 6: kind, tag, bay. -/
theorem test_frame_bay_open : parseFrame [6#8, 0x21#8, 3#8] = .bayOpen 0x21 (some 3) := by decide
/-- A BAY OPEN frame one octet too long spells no operands. -/
theorem test_frame_bay_open_long : parseFrame [6#8, 0x21#8, 3#8, 0#8] = .bayOpen 0x21 none := by decide
/-- RESTART is kind 24 and carries no operand. -/
theorem test_frame_restart : parseFrame [24#8, 7#8] = .restart 7 (some ()) := by decide
/-- Kinds 0 and 25 are none of Table 10-4. -/
theorem test_frame_unknown :
    parseFrame [0#8, 5#8] = .requestUnknownKind 0 5 ∧ parseFrame [25#8, 5#8, 1#8] = .requestUnknownKind 25 5 := by decide
theorem test_frame_short : parseFrame [] = .frameTooShort none ∧ parseFrame [6#8] = .frameTooShort (some 6) := by decide
/-- CLOCK SET, kind 21: day in 2 octets and second in 3, the most significant first. -/
theorem test_frame_clock : parseFrame [21#8, 1#8, 0x4E#8, 0x20#8, 1#8, 0x51#8, 0x7F#8] = .clockSet 1 (some (20000, 86399)) := by
  decide
/-- ORDER CANCEL, kind 5: the order number in 4 octets. -/
theorem test_frame_order_cancel : parseFrame [5#8, 1#8, 0#8, 0#8, 0x15#8, 0x86#8] = .orderCancel 1 (some 5510) := by decide
/-- TABLE CLEAR, kind 3, of permit slot 1023: table 4, index in 2 octets. -/
theorem test_frame_clear_permit : parseFrame [3#8, 1#8, 4#8, 3#8, 0xFF#8] = .tableClearPermit 1 (some 1023) := by decide
/-- TABLE CLEAR naming the order queue (table 6) and a write naming a table above 8 are the bad-table row; a missing index, and
an octet too many in a TABLE CLEAR, fail check 2 first. -/
theorem test_frame_bad_table :
    parseFrame [3#8, 1#8, 6#8, 0#8] = .tableRequestBadTable 1 true (some 6) ∧
    parseFrame [1#8, 1#8, 9#8, 0#8] = .tableRequestBadTable 1 false (some 9) ∧
    parseFrame [3#8, 1#8, 6#8] = .tableRequestBadTable 1 true none ∧
    parseFrame [3#8, 1#8, 6#8, 0#8, 0#8] = .tableRequestBadTable 1 true none ∧
    parseFrame [1#8, 1#8, 9#8] = .tableRequestBadTable 1 false none := by decide
/-- TABLE WRITE of account 3: a presence octet for each of Table 5-2's five fields, the reserved allocations the last. -/
theorem test_frame_account :
    parseFrame ([1#8, 1#8, 5#8, 3#8, 1#8, 0#8, 0#8, 0#8, 1#8, 0#8, 0#8, 3#8, 0x70#8] ++ (List.replicate 16 (octets 4 2)).flatten) =
      .tableWriteAccount 1 (some (3, ⟨some 880, none, none, none, some (List.replicate 16 2)⟩)) := by decide +kernel
/-- TABLE WRITE, kind 1, of the rack settings: six presence octets, then the fields present. -/
theorem test_frame_settings :
    parseFrame [1#8, 2#8, 8#8, 0#8, 1#8, 0#8, 0#8, 1#8, 0#8, 0#8, 10#8, 1#8, 0x2C#8] =
      .tableWriteRackSettings 2 (some (0, ⟨some 10, none, none, some 300, none, none⟩)) := by decide
/-- NOTE RELEASE, kind 17. -/
theorem test_frame_note_release : parseFrame [17#8, 1#8, 0#8, 0#8, 7#8, 0xFF#8] = .noteRelease 1 (some 2047) := by decide
/-- LINE DRIVE, kind 23: the line and a flag. -/
theorem test_frame_line_drive : parseFrame [23#8, 1#8, 15#8, 1#8] = .lineDrive 1 (some (15, true)) := by decide

/-! ### Checks and arithmetic of the manual -/

/-- R183: the published check values of the two polynomials over the digits 1 to 9, with no final inversion. -/
theorem test_crc_figures :
    crc16 [0x31#8, 0x32#8, 0x33#8, 0x34#8, 0x35#8, 0x36#8, 0x37#8, 0x38#8, 0x39#8] = 0x29B1#16 ∧
    crc8 [0x31#8, 0x32#8, 0x33#8, 0x34#8, 0x35#8, 0x36#8, 0x37#8, 0x38#8, 0x39#8] = 0x20#8 := by decide +kernel
/-- Section 1.8, the worked limit of the correction factor. -/
theorem test_vcf_limits : vcfOf 1500 (-4000) = 1050000 ∧ rawVcf 1500 (-4000) = 1085903 ∧ vcfClamped 1500 (-4000) = true ∧
    vcfOf 1500 7000 = 950000 ∧ rawVcf 1500 7000 = 920903 ∧ vcfOf 800 (-1000) = 1020200 ∧ vcfClamped 800 (-1000) = false := by
  decide
/-- Section 2.6: the ring learns 8500 and averages to 8275. -/
theorem test_ring_learns : overrunMl 5000330410 4991830000 = 8500 ∧
    ((Machine.Ring.mk 8200 7900 8600 8100).push 8500).average = 8275 ∧
    (Machine.Ring.mk 8200 7900 8600 8100).average = 8200 := by decide
/-- Table 3-7: windows 1 and 3 pass and window 2 fails. -/
theorem test_windows : windowFails 391000 8 500 5 = false ∧ windowFails 345000 8 500 5 = true ∧
    windowFails 394500 8 500 5 = false := by decide
/-- Section 3.6: the required additive and the volume of 100 pulses. -/
theorem test_required_additive : requiredAdditive 3000412900 400 = 1200165 ∧ shotVolume 782 2000000 = 391000 := by decide

/-! ### States for the tests and witnesses -/

/-- The reset state with its part changed. -/
def made (f : Device → Device) : State := { State.reset with dev := f State.reset.dev }
def armRecord : ArmRecord := ⟨0, 7, 12, 0, 13, 49920, [⟨2000, 100160⟩, ⟨2800, 100140⟩], 3000, 8000, [(41, 3)], true⟩
def armWrite : ArmWrite :=
  ⟨some 0, some 7, some 12, some 0, some 13, some 49920, some [⟨2000, 100160⟩, ⟨2800, 100140⟩], some 3000, some 8000,
    some [⟨41, 3⟩], some true⟩
def product7 : Product := ⟨7, 1200, 1500, .gross, 200, 400, 20, 0, [⟨41, 400, .flag⟩]⟩
def injector3 : InjectorRec := ⟨20, 41, 500, 2000000, .single, 5, 8, 4⟩
def bayWrite : BayWrite := ⟨some 9, some (.station 10), some (.line 6)⟩
def bayRecord : BayRecord := ⟨9, .station 10, .line 6⟩
def permit77 : Permit := ⟨77, 5, 0xFF, 65535, 0xF, .valid⟩
def account880 : Account := ⟨880, .opened, true, Vector.replicate 16 6000, Vector.replicate 16 0⟩
def orderLine (x : LineBatch) : OrderLine := ⟨1, 7, 5000, none, none, x, none⟩
def order (st : OrderState) (x : LineBatch) : Order := ⟨5510, 0, 77, none, [orderLine x], st, some ⟨0, 77, 5⟩⟩
def batch (p : Phase) : Batch :=
  ⟨2, 0, 1, 7, 5000, .gross, 200, 400, 20, p, ⟨0, 0⟩, none, 0, ⟨0, 0⟩, none, ⟨0, 0⟩, none, .none, 0, 0, false, none, []⟩

/-- Bay 0 with its records, the assigned order 5510, its note slot, and arm 2 with a batch and its valve at LOW. -/
def onBay0 (st : BayState) (o : OrderState) (x : LineBatch) (b : Option Batch) (f : Bay → Bay) : State := made fun d =>
  let d1 := ((d.setArmRec 2 (some armRecord)).setProduct 0 (some product7)).setBayRec 0 (some bayRecord)
  let d2 := d1.onBay 0 fun r => f { r with state := st, order := some 5510, ground := true, overfill := true }
  let d3 := d2.onArm 2 fun c => { c with batch := b, position := .low, travel := some 8000 }
  { d3 with orders := [order o x] }.setSlot 0 (.reserved 0 false)
/-- Bay 0 in a state with no order, its record written. -/
def bayIn (st : BayState) (f : Bay → Bay) : State :=
  made fun d => (d.setBayRec 0 (some bayRecord)).onBay 0 fun r => f { r with state := st }
/-- Bay 0 LOADING with a batch in this phase. -/
def loading (p : Phase) : State := onBay0 .loading .loading .opened (some (batch p)) id

/-! ### Section 1.7: the worked samples of arm 2 -/

/-- Arm 2 as section 1.7 opens: its TEMP station ACTIVE at 28.40 °C, the baseline, the batch and the mirror it gives. -/
def worked : Device :=
  let d := (State.reset.dev.setArmRec 2 (some { armRecord with temp := 6 })).setProduct 0 (some product7)
  let d1 := d.onMeter 2 fun m => { m with
    baseline := ⟨65530, 65530, 65480⟩, baselineValid := true, heldTemp := 2840, heldValid := true
    mirror := ⟨1208455120000, 1187300004000⟩ }
  (d1.onStation 6 fun n => { n with entry := some ⟨.temp, none, none⟩, state := .active, word := some 0#16 }).onArm 2
    fun c => { c with batch := some (batch .full) }
def workedRecord : ArmRecord := { armRecord with temp := 6 }
def sample1 : Device := worked.meterSample 2 workedRecord ⟨14, 14, 44⟩
def sample3 : Device := (sample1.meterSample 2 workedRecord ⟨34, 35, 144⟩).meterSample 2 workedRecord ⟨1334, 1334, 244⟩
/-- The part after a command. -/
def after (c : Instr) (s : State) : Device :=
  match exec c s with
  | .next u => u.dev
  | .fault _ | .refused _ => s.dev
theorem test_worked_sample_1 :
    (sample1.meter 2).grossResidue = 49280 ∧ (sample1.meter 2).netResidue = 804809 ∧
    (sample1.meter 2).mirror = ⟨1208455521241, 1187300398840⟩ ∧
    ((sample1.arm 2).batch.map Batch.delivered) = some ⟨401241, 394840⟩ ∧
    ((sample1.arm 2).batch.map Batch.tempSum) = some 1139524440 := by decide +kernel
/-- Sample 3 is a count fault: the totals are sample 2's, with the flag and 1300 pulses discarded. -/
theorem test_worked_sample_3 :
    (sample3.meter 2).grossResidue = 48640 ∧ (sample3.meter 2).netResidue = 593667 ∧
    (sample3.arm 2).batch.map (fun b => (b.delivered, b.flags.countFault, b.discarded)) =
      some (⟨802483, 789682⟩, true, 1300) := by decide +kernel

/-! ### Witnesses: the machine and its invariants -/

theorem witness_step_runs_the_front_command :
    ({ State.reset with pending := [.hardReset] } : State).pending = .hardReset :: [] := rfl

/-- A request at the head of the FIFO, none there, no supply, and a timer that runs, is at 0, or does not run. -/
def headed : State := made fun d => d.onMp fun m => { m with fifo := [.rackHold 1 (some ())] }
def unpowered : State := ⟨Device.cleared .off 0 Custody.factory (Vector.replicate 16 .low), []⟩
def timed (n : Nat) : State := made fun d => d.onBay 0 fun r => { r with authTimer := .running n }
theorem witness_idle_step :
    headed.pending = [] ∧ headed.dev.tick.nextRequest = some (.rackHold 1 (some ())) ∧
    State.reset.pending = [] ∧ State.reset.dev.tick.nextRequest = none ∧ State.reset.dev.boot ≠ .off ∧
    unpowered.pending = [] ∧ unpowered.dev.boot = .off ∧
    (timed 1).pending = [] ∧ ((timed 1).dev.bay 0).authTimer = .running 1 ∧
    (timed 0).dev.boot ≠ .off ∧ ((timed 0).dev.bay 0).authTimer = .running 0 := by decide +kernel
theorem witness_idle_step_stopped : ∀ n, (State.reset.dev.bay 0).authTimer ≠ .running n := by
  intro n h
  rw [show (State.reset.dev.bay 0).authTimer = .stopped by decide +kernel] at h
  cases h

theorem witness_reset_holds : ∃ d : Device, d = State.reset.dev := ⟨_, rfl⟩

/-- A load in progress, with a totalizer post being written and one command waiting. -/
def working : State :=
  let d := (loading .full).dev
  let d1 := d.onMeter 2 fun m => { m with mirror := ⟨10, 9⟩ }
  let d2 := d1.onArm 2 fun c => { c with batch := some { batch .full with delivered := ⟨10, 9⟩ } }
  let d3 := d2.onCw fun c =>
    { c with queue := [⟨0, .post ⟨2, ⟨10, 9⟩, false⟩, true⟩], nextId := 1, write := some ⟨.post 0, 1⟩ }
  ⟨{ d3 with permits := [(3, permit77)], accounts := [(0, account880)] }, [.custodyWriteComplete true]⟩
theorem witness_invariants_settled_tables : working.dev.settled = true ∧ working.dev.tablesWf = true := by decide +kernel
theorem witness_invariant_notices : working.dev.noticesDistinct := by unfold Device.noticesDistinct; decide +kernel
theorem witness_invariant_residues : working.dev.residuesBounded := by unfold Device.residuesBounded; decide +kernel
theorem witness_invariant_custody : working.dev.custodySound := by
  unfold Device.custodySound Device.queueSound Device.mirrorsAgree; decide +kernel
theorem witness_invariant_batches : working.dev.batchesAgree := by
  have h : (∀ a, ∀ x ∈ (working.dev.arm a).batch, (working.dev.meter a).mirror = x.opening.add x.delivered) ∧
      ∀ b, ∀ x ∈ (working.dev.bay b).ended, x.closing = some (x.opening.add x.delivered) := by decide +kernel
  exact h
/-- Slot 127 holds note 7, its release pending or not, with a custody write in progress or none. -/
def retained (p busy : Bool) : State :=
  ⟨(working.dev.setSlot 127 (.retained 7 p)).onCw fun c => { c with write := if busy then c.write else none
                                                                    queue := if busy then c.queue else [] }, []⟩
/-- A NOTE READ in service that waits for the write in progress. -/
def noteWaiting : State := ⟨(retained false true).dev.onMp fun m =>
  { m with fifo := [.noteRead 1 (some (.number 7, 0))], inService := true, reading := some 127 }, []⟩
theorem witness_invariant_places : noteWaiting.dev.placesHold ∧ noteWaiting.dev.mp.reading = some 127 := by
  have hb : noteWaiting.dev.boot = .ready := by decide +kernel
  refine ⟨⟨by decide +kernel, fun _ => ⟨by decide +kernel, by decide +kernel, fun _ => ⟨by decide +kernel, 1, (.number 7, 0), [],
    by decide +kernel⟩⟩, fun t l b h => ?_⟩, by decide +kernel⟩
  rw [hb] at h
  cases h
theorem witness_invariant_places_step : ∃ t, step ⟨noteWaiting.dev, [.custodyWriteComplete true]⟩ = .next t := ⟨_, rfl⟩
/-- The step of that state is a next state, so the invariants' other hypothesis is met. -/
theorem witness_invariants_step : ∃ t, step working = .next t := ⟨_, rfl⟩

/-- Both branches of the start-up scan's write-back: a factory part, and one whose slot 0 holds note 5. -/
theorem witness_hard_reset :
    takenNumber Custody.factory = Custody.factory.next.value ∧
    (∀ m, m = { Custody.factory with
      slots := Bank.write Custody.factory.slots 0 ⟨[], 0#16, some 5, false, markCheck (some 5) false⟩ } →
      takenNumber m = 6 ∧ takenNumber m ≠ m.next.value) ∧
    working.dev.cw.write = some ⟨.post 0, 1⟩ := by
  refine ⟨by decide +kernel, fun m h => ?_, by decide +kernel⟩
  subst h
  decide +kernel
theorem witness_power_loss :
    unpowered.dev = Device.cleared .off 0 Custody.factory (Vector.replicate 16 .low) ∧
    Instr.rackClockSecond ≠ .hardReset ∧ (∀ l v, Instr.rackClockSecond ≠ .pinLevelChange l v) :=
  ⟨rfl, by decide, by intro l v h; cases h⟩
theorem witness_refused_frames :
    State.reset.quiet = true ∧ unreadable (.bayOpen 1 none) = some (6, 1) ∧ outOfRange (.bayOpen 1 (some 4)) = some (6, 1) ∧
    outOfRange (.bayOpen 1 (some 3)) = none ∧ outOfRange (.tableClearStation 1 (some 0)) = some (3, 1) ∧
    outOfRange (.tableClearStation 1 (some 32)) = some (3, 1) ∧ outOfRange (.tableClearStation 1 (some 31)) = none := by
  decide +kernel

/-! ### Witnesses: the tables -/

theorem witness_permit :
    State.reset.quiet = true ∧ (∀ e ∈ State.reset.dev.permits, e.1 = 1023 ∨ e.2.credential ≠ 4294967295) ∧
    working.quiet = true ∧ (∃ e ∈ working.dev.permits, e.1 ≠ 1023 ∧ e.2.credential = 77) := by decide +kernel
theorem witness_account :
    State.reset.quiet = true ∧ (List.replicate 16 (-99999999 : Int)).length = 16 ∧
    (∀ x ∈ List.replicate 16 (-99999999 : Int), -99999999 ≤ x ∧ x ≤ 99999999) ∧
    (∀ e ∈ State.reset.dev.accounts, e.1 = 255 ∨ e.2.number ≠ 99999999) ∧
    working.quiet = true ∧ (∃ e ∈ working.dev.accounts, e.1 ≠ 255 ∧ e.2.number = 880) ∧
    (∀ o ∈ working.dev.orders, o.account ≠ 255) ∧ (∃ o ∈ working.dev.orders, o.account = 0) := by decide +kernel

/-- A product write at the ends of its ranges. -/
def productWrite : ProductWrite :=
  ⟨some 255, some 1500, some 7000, some .net, some 1000, some 2000, some 200, none, some [⟨1, 1, .stop⟩, ⟨255, 20000, .flag⟩]⟩
theorem witness_product_fields :
    (productWrite.recipe.getD []).length ≤ 2 ∧ ((productWrite.recipe.getD []).map RecipeLine.code).Nodup ∧
    (∀ r ∈ productWrite.recipe.getD [], 1 ≤ r.code ∧ r.code ≤ 255 ∧ 1 ≤ r.dose ∧ r.dose ≤ 20000) ∧
    productWrite.startVol.getD 200 ≤ 1000 ∧ productWrite.taperVol.getD 400 ≤ 2000 ∧ productWrite.overrun.getD 20 ≤ 200 := by
  decide
theorem witness_product_free : State.reset.quiet = true ∧
    (∀ j p, j ≠ (15 : ProdIdx) → State.reset.dev.product j = some p → p.code ≠ 255) ∧
    (∀ a b, (State.reset.dev.arm a).batch = some b →
      b.product ≠ 255 ∧ ∀ p, State.reset.dev.product 15 = some p → b.product ≠ p.code) ∧
    ∀ a b p, (State.reset.dev.arm a).batch = some b → State.reset.dev.product 15 = some p → b.product ≠ p.code := by
  have hp : ∀ j, State.reset.dev.product j = none := by decide +kernel
  have ha : ∀ a, (State.reset.dev.arm a).batch = none := by decide +kernel
  exact ⟨by decide +kernel, fun j p _ h => by simp [hp j] at h, fun a b h => by simp [ha a] at h,
    fun a b p h => by simp [ha a] at h⟩
/-- Entry 15 against entry 0's code 7, and entry 0 while arm 2 has a batch of it. -/
theorem witness_product_guarded :
    (loading .full).quiet = true ∧ (∃ j : ProdIdx, j ≠ 15 ∧ ∃ p ∈ (loading .full).dev.product j, p.code = 7) ∧
    (∀ j : ProdIdx, j ≠ 0 → (loading .full).dev.product j = none) ∧
    (∃ a, ∃ b ∈ ((loading .full).dev.arm a).batch, ∃ p ∈ (loading .full).dev.product 0, b.product = p.code) := by
  decide +kernel
theorem witness_settings : State.reset.quiet = true ∧
    (2 ≤ (SettingsWrite.mk (some 50) (some 51) none none none none).minInterval.getD 10 ∧ 50 < 51) := by decide +kernel

/-- Arm 2 written with every bay CLOSED: the same record, and one that differs in close-ahead and VALVE station. -/
def armThere : State := made fun d => d.setArmRec 2 (some armRecord)
def armMoved : ArmRecord := { armRecord with closeAhead := 40000, valve := 31 }
theorem witness_arm_write :
    armThere.quiet = true ∧ (∀ b, (armThere.dev.bay b).state = .closed → (armThere.dev.bay b).causes.valve = false) ∧
    (∀ old ∈ armThere.dev.armRec 2, (armThere.dev.bay old.bay).state = .closed) ∧
    readArm armWrite = some armRecord ∧ readArm { armWrite with closeAhead := some 40000, valve := some 31 } = some armMoved ∧
    (armThere.dev.bay armRecord.bay).state = .closed ∧
    (∀ o ∈ armThere.dev.otherArms 2, armRecord.clashes o = false ∧ armMoved.clashes o = false) ∧
    armFull armRecord (armThere.dev.otherArms 2) = false ∧ armFull armMoved (armThere.dev.otherArms 2) = false ∧
    (armThere.dev.armRec 2).map ArmRecord.closeAhead = some armRecord.closeAhead ∧
    (armThere.dev.armRec 2).map ArmRecord.closeAhead ≠ some armMoved.closeAhead ∧
    (armThere.dev.armRec 2).map ArmRecord.valve = some armRecord.valve ∧
    (armThere.dev.armRec 2).map ArmRecord.valve ≠ some armMoved.valve := by decide +kernel
theorem witness_arm_in_use :
    (loading .full).quiet = true ∧ (loading .full).dev.armRec 2 = some armRecord ∧
    ((loading .full).dev.bay armRecord.bay).state ≠ .closed ∧ readArm armWrite = some armRecord ∧
    (∀ o ∈ (loading .full).dev.otherArms 2, armRecord.clashes o = false) ∧
    armFull armRecord ((loading .full).dev.otherArms 2) = false := by decide +kernel

/-- Bay 0's arm 2 written to name bay 1, which is not CLOSED. -/
def bay1Idle : State := ⟨armThere.dev.onBay 1 fun r => { r with state := .idle }, []⟩
theorem witness_arm_new_bay_in_use :
    bay1Idle.quiet = true ∧ readArm { armWrite with bay := some 1 } = some { armRecord with bay := 1 } ∧
    (∀ old ∈ bay1Idle.dev.armRec 2, (bay1Idle.dev.bay old.bay).state = .closed) ∧ (bay1Idle.dev.bay 1).state ≠ .closed ∧
    (∀ o ∈ bay1Idle.dev.otherArms 2, ({ armRecord with bay := 1 } : ArmRecord).clashes o = false) ∧
    armFull { armRecord with bay := 1 } (bay1Idle.dev.otherArms 2) = false := by decide +kernel
def dosed : Dosing := ⟨true, 0, 41, 400, .flag, some 3, 0, 1, false, 0, 0, 0, 0, 0, 0, none⟩
/-- A load with injector 3 in this state, serving the batch's one dosing record, or none of it. -/
def dosing (st : InjectorState) (f : Injector → Injector) : State := made fun d =>
  let d1 := (loading .full).dev.setInjRec 3 (some injector3)
  let d2 := d1.onArm 2 fun c => { c with batch := c.batch.map fun b => { b with dosing := [dosed] } }
  { d2.onInj 3 (fun i => f { i with state := st }) with now := d.now }
theorem witness_injector_write :
    ∀ s ∈ [State.reset, made fun d => d.onInj 3 fun i => { i with state := .fault }],
      s.quiet = true ∧ (s.dev.inj 3).inFlight = [] ∧ (s.dev.inj 3).offer = none ∧ s.dev.dosingNames 3 = false ∧
      ∀ x, x ≠ (3 : Chan) → ∀ j ∈ s.dev.injRec x, j.station ≠ 31 := by decide +kernel
theorem witness_injector_write_busy :
    ∀ s, s = (made fun d => d.onInj 3 fun i =>
      { i with inFlight := [⟨255, ⟨2, 0, 0⟩, 0⟩], offer := some ⟨1, ⟨2, 0, 0⟩, true, .stays⟩ }) →
      s.quiet = true ∧ s.dev.dosingNames 3 = false ∧ (s.dev.inj 3).inFlight ≠ [] ∧ (s.dev.inj 3).offer ≠ none := by
  intro s h
  subst h
  decide +kernel
theorem witness_injector_in_use :
    (dosing .available id).quiet = true ∧ ((dosing .available id).dev.inj 3).inFlight = [] ∧
    ((dosing .available id).dev.inj 3).offer = none ∧ (dosing .available id).dev.dosingNames 3 = true ∧
    ∀ x, x ≠ (3 : Chan) → ∀ j ∈ (dosing .available id).dev.injRec x, j.station ≠ 20 := by decide +kernel
theorem witness_bay_write :
    State.reset.quiet = true ∧ readBay bayWrite = some bayRecord ∧ State.reset.dev.bayTaken 0 bayRecord = false ∧
    (State.reset.dev.bay 0).state = .closed ∧ (State.reset.dev.bay 0).causes = CauseSet.empty ∧
    (bayIn .idle id).quiet = true ∧ (bayIn .idle id).dev.bayTaken 0 bayRecord = false ∧
    ((bayIn .idle id).dev.bay 0).state ≠ .closed := by decide +kernel
/-- Addresses 1 and 31 of a part at rest; panel 9 of a bay that is not CLOSED; an entry for such a bay. -/
theorem witness_station_write :
    State.reset.quiet = true ∧ readStation ⟨some .panel, some 0, none⟩ = some ⟨.panel, some 0, none⟩ ∧
    (State.reset.dev.entryGate (State.reset.dev.station 1).entry && State.reset.dev.addressGate 1) = true ∧
    (State.reset.dev.entryGate (State.reset.dev.station 31).entry && State.reset.dev.addressGate 31) = true ∧
    State.reset.dev.entryGate (some ⟨.panel, some 0, none⟩) = true ∧
    (bayIn .idle id).quiet = true ∧
    ((bayIn .idle id).dev.entryGate ((bayIn .idle id).dev.station 9).entry && (bayIn .idle id).dev.addressGate 9) = false ∧
    (bayIn .idle id).dev.entryGate (some ⟨.panel, some 0, none⟩) = false := by decide +kernel

/-! ### Witnesses: orders, reads and the clock -/

def full48 : State := made fun d => { d with
  accounts := [(255, account880)]
  orders := (List.range 48).map fun n => ⟨n + 1, 255, 0, none, [], .queued, none⟩ }
theorem witness_order_add :
    readAll readLine [⟨some 8, some 255, some 40000, none, none⟩] = some [⟨8, 255, 40000, none, none, .notBatched, none⟩] ∧
    State.reset.quiet = true ∧ (Sparse.get 255 State.reset.dev.accounts).isNone ∧
    full48.quiet = true ∧ (Sparse.get 255 full48.dev.accounts).isNone = false ∧ (∃ o ∈ full48.dev.orders, o.number = 48) ∧
    48 ≤ full48.dev.orders.length ∧ (¬ ∃ o ∈ full48.dev.orders, o.number = 4294967295) ∧
    working.quiet = true ∧ (Sparse.get 0 working.dev.accounts).isNone = false ∧ working.dev.orders.length < 48 ∧
    ¬ ∃ o ∈ working.dev.orders, o.number = 1 := by decide +kernel
def authorized : State := onBay0 .authorized .assigned .notBatched none fun r => { r with authTimer := .running 1 }
theorem witness_order_cancel :
    State.reset.quiet = true ∧ (∀ o ∈ State.reset.dev.orders, o.number ≠ 0) ∧
    (loading .full).quiet = true ∧ (loading .full).dev.orderNumbered 5510 = some (order .loading .opened) ∧
    full48.quiet = true ∧ full48.dev.orderNumbered 48 = some ⟨48, 255, 0, none, [], .queued, none⟩ ∧
    authorized.quiet = true ∧ authorized.dev.orderNumbered 5510 = some (order .assigned .notBatched) ∧
    (authorized.dev.bay 0).order = some 5510 ∧ (authorized.dev.bay 0).state = .authorized ∧
    authorized.dev.firstStalled = none := by decide +kernel
theorem witness_withdrawal :
    (authorized.dev.bay 0).state = .authorized ∧ authorized.dev.orderOf 0 = some (order .assigned .notBatched) ∧
    authorized.dev.reservedSlot 0 = some 0 ∧ authorized.dev.firstStalled = none := by decide +kernel
/-- Bay 0 HELD from AUTHORIZED, and bay 0 AUTHORIZED while bay 1's commit is stalled on slot 127. -/
def heldAuthorized : State := onBay0 .held .assigned .notBatched none fun r =>
  { r with before := some .authorized, holdBay := true, authTimer := .suspended 1 }
def imageOf (b : BayId) : NoteImage := ⟨5510, 880, b, 77, 5, 0, ⟨0, 0⟩, ⟨0, 0⟩, [], .empty, false, false, []⟩
def stalled : State :=
  ⟨((authorized.dev.onBay 1 fun r => { r with state := .noteCommit }).setSlot 127 (.reserved 1 true)).onNoteBay 1 fun n =>
    { n with stall := some 0, held := some (imageOf 1) }, []⟩
theorem witness_withdrawal_held_or_stalled :
    (heldAuthorized.dev.bay 0).state = .held ∧ (heldAuthorized.dev.bay 0).before = some .authorized ∧
    heldAuthorized.dev.orderOf 0 = some (order .assigned .notBatched) ∧ heldAuthorized.dev.reservedSlot 0 = some 0 ∧
    stalled.dev.orderOf 0 = some (order .assigned .notBatched) ∧ stalled.dev.reservedSlot 0 = some 0 ∧
    stalled.dev.firstStalled = some 1 ∧ stalled.dev.reservedSlot 1 = some 127 ∧
    (stalled.dev.noteBay 1).held = some (imageOf 1) ∧
    (∀ s, s = { working.dev with orders := [order .assigned .notBatched] } →
      s.tablesWf = true ∧ (Sparse.get 0 s.accounts).isSome = true) := by
  refine ⟨by decide +kernel, by decide +kernel, by decide +kernel, by decide +kernel, by decide +kernel, by decide +kernel,
    by decide +kernel, by decide +kernel, by decide +kernel, fun s h => ?_⟩
  subst h
  decide +kernel
def permitsAtEnds : State := made fun d => { d with permits := [(0, permit77), (1023, permit77)] }
theorem witness_reads :
    permitsAtEnds.quiet = true ∧ Sparse.get 1023 permitsAtEnds.dev.permits = some permit77 ∧
    Sparse.get 1022 permitsAtEnds.dev.permits = none ∧ full48.dev.orders[47]? = some ⟨48, 255, 0, none, [], .queued, none⟩ ∧
    (∃ l ∈ statusItems (State.reset.dev.intoService (.statusRead 1 (some (.bay, 3, 255)))) .bay 3,
      0 < l.length ∧ l.length ≤ 255) ∧
    statusItems (State.reset.dev.intoService (.statusRead 1 (some (.bay, 4, 0)))) .bay 4 = none ∧
    statusItems (State.reset.dev.intoService (.statusRead 1 (some (.station, 0, 0)))) .station 0 = none ∧
    (statusItems (State.reset.dev.intoService (.statusRead 1 (some (.station, 31, 0)))) .station 31).isSome = true := by
  decide +kernel
/-- R175, R182: the STATUS READ of the rack counts itself in the FIFO and shows itself in service. -/
theorem test_status_read_sees_itself :
    statusItems (State.reset.dev.intoService (.statusRead 1 (some (.rack, 0, 0)))) .rack 0 ≠
      statusItems State.reset.dev .rack 0 := by decide +kernel
theorem witness_clock : State.reset.quiet = true ∧ (65535 ≤ 65535 ∧ 86399 ≤ 86399) ∧ ¬ (65536 ≤ 65535 ∧ 0 ≤ 86399) := by
  decide +kernel
/-- Midnight of day 65 535, and an UNSET clock. -/
theorem test_clock_rolls_over :
    ((made fun d => d.onMp fun m => { m with clock := some ⟨65535, 86399⟩ }).dev.mp.clock.map Time.next) = some ⟨0, 0⟩ ∧
    State.reset.dev.mp.clock.map Time.next = none := by decide +kernel

/-! ### Witnesses: lines, ESD and the rack -/

def lineIs (l : LineId) (f : Line → Line) : State := made fun d => d.onLine l f
theorem witness_line_set :
    (lineIs 15 fun x => { x with bound := true }).quiet = true ∧
    ((lineIs 15 fun x => { x with bound := true }).dev.line 15).bound = true ∧
    State.reset.quiet = true ∧ (State.reset.dev.line 15).bound = false ∧
    readLineRec ⟨some .outputPush, some .esdIn, none⟩ = none ∧
    readLineRec ⟨some .inputDebounced, some .esdIn, some .low⟩ = some (.inputDebounced, .esdIn, .low) ∧
    readLineRec ⟨some .inputDebounced, some .powerfailIn, some .low⟩ = some (.inputDebounced, .powerfailIn, .low) ∧
    (State.reset.dev.line 15).pin = .low := by decide +kernel
theorem witness_line_drive :
    State.reset.quiet = true ∧ isOutput (State.reset.dev.line 0).mode = false ∧
    (lineIs 15 fun x => { x with mode := .outputPush, drive := some false }).quiet = true ∧
    isOutput ((lineIs 15 fun x => { x with mode := .outputPush, drive := some false }).dev.line 15).mode = true := by
  decide +kernel
theorem witness_pin_change :
    State.reset.dev.settled = true ∧ State.reset.dev.boot ≠ .off ∧ (State.reset.dev.line 15).func = .general ∧
    (lineIs 15 fun x => { x with mode := .inputDebounced, level := .high }).dev.settled = true ∧
    ((lineIs 15 fun x => { x with mode := .inputDebounced, level := .high }).dev.line 15).level = .high := by decide +kernel
def esdLine (x : Line) : Line :=
  { x with mode := .inputDebounced, func := .esdIn, active := .high, pin := .high, level := .low, timer := some 0, bound := true }
def esdComing : State := ⟨(loading .full).dev.onLine 15 esdLine, []⟩
theorem witness_debounce :
    State.reset.dev.settled = true ∧ (State.reset.dev.line 15).timer = none ∧
    (lineIs 15 fun x => { x with mode := .inputDebounced, timer := some 0 }).dev.settled = true ∧
    ((lineIs 15 fun x => { x with mode := .inputDebounced, timer := some 0 }).dev.line 15).timer ≠ none ∧
    ((lineIs 15 fun x => { x with mode := .inputDebounced, timer := some 0 }).dev.line 15).func = .general ∧
    esdComing.dev.settled = true ∧ (esdComing.dev.line 15).timer ≠ none ∧ (esdComing.dev.line 15).func = .esdIn ∧
    (esdComing.dev.line 15).mode = .inputDebounced ∧ (esdComing.dev.line 15).pin = (esdComing.dev.line 15).active ∧
    (esdComing.dev.line 15).level ≠ (esdComing.dev.line 15).pin ∧ esdComing.dev.lu.esd = false ∧
    (esdComing.dev.bay 0).state = .loading ∧ (esdComing.dev.bay 0).causes.esd = false := by decide +kernel
/-- The latch set with its pending mark or without, and a bay that ESD alone tripped, with a hold or none. -/
def esdLatched (mark hold : Bool) : State :=
  ⟨(onBay0 .tripped .loading .opened (some (batch .interrupted)) fun r =>
    { r with causes := ⟨false, false, true, false, false⟩, holdBay := hold }).dev.onLu fun u =>
      { u with esd := true, esdPending := mark }, []⟩
theorem witness_esd_clear :
    State.reset.quiet = true ∧ State.reset.dev.lu.esd = false ∧
    (∀ s, s ∈ [esdLatched true false, esdLatched false false, esdLatched false true] →
      s.quiet = true ∧ s.dev.lu.esd = true ∧ s.dev.anyActive .esdIn = false) ∧
    (∀ s, s ∈ [esdLatched false false, esdLatched false true] →
      s.dev.lu.esdPending = false ∧ (∀ y, y ≠ (0 : BayId) → (s.dev.bay y).order ≠ (s.dev.bay 0).order) ∧
      (s.dev.bay 0).state = .tripped ∧ (s.dev.bay 0).causes = ⟨false, false, true, false, false⟩ ∧
      (s.dev.bay 0).lockout = false ∧ s.dev.orderOf 0 = some (order .loading .opened)) ∧
    (∃ x ∈ (order .loading .opened).lines, x.batch ≠ .ended) := by decide +kernel
def rackHeld (f : Bay → Bay) : State :=
  ⟨(bayIn .held fun r => f { r with holdRack := true }).dev.onLu fun u => { u with mgmtHold := true, holdSource := true }, []⟩
theorem witness_rack_hold :
    (∀ s, s ∈ [bayIn .idle id, authorized, loading .full] →
      s.quiet = true ∧ s.dev.lu.mgmtHold = false ∧ s.dev.lu.holdSource = false ∧
      (∀ b, (s.dev.bay b).holdRack = false) ∧ (s.dev.bay 0).holdBay = false) ∧
    ((bayIn .idle id).dev.bay 0).state = .idle ∧ (authorized.dev.bay 0).state = .authorized ∧
    ((loading .full).dev.bay 0).state = .loading := by decide +kernel
/-- Line 15 an INPUT of this function, at this level on its pin and as its own, its active level high. -/
def wired (s : State) (f : LineFn) (v : Level) : State :=
  ⟨s.dev.onLine 15 fun x => { x with mode := .input, func := f, active := .high, pin := v, level := v }, []⟩
/-- A load whose permissives come from line 15. -/
def fromLine (f : LineFn) (v : Level) : State :=
  wired ⟨(loading .full).dev.setBayRec 0 (some ⟨9, .line 15, .line 15⟩), []⟩ f v
theorem witness_edges :
    ∀ s, s ∈ [wired (bayIn .idle id) .holdIn .low, wired authorized .holdIn .low, wired (loading .full) .holdIn .low,
      wired (rackHeld fun r => { r with before := some .idle }) .holdIn .low,
      fromLine (.groundIn 0) .low, fromLine (.overfillIn 0) .low, wired (loading .full) .esdIn .low,
      wired (loading .full) .powerfailIn .low, wired working .powerfailIn .low] →
      s.dev.settled = true ∧ s.dev.boot = .ready ∧ (s.dev.line 15).mode = .input ∧ (s.dev.line 15).pin ≠ .high ∧
      (s.dev.line 15).level ≠ .high := by decide +kernel
/-- R73, R170, R123: what the edges of those lines do. -/
theorem test_edges :
    ((after (.pinLevelChange 15 .high) (wired (bayIn .idle id) .holdIn .low)).bay 0).state = .held ∧
    ((after (.pinLevelChange 15 .low) (fromLine (.groundIn 0) .high)).bay 0).causes.ground = true ∧
    ((after (.pinLevelChange 15 .low) (fromLine (.overfillIn 0) .high)).bay 0).trips = 1 ∧
    (after (.pinLevelChange 15 .high) (wired (loading .full) .powerfailIn .low)).cw.mode = .parked ∧
    (after (.pinLevelChange 15 .high) (wired working .powerfailIn .low)).cw.mode = .draining := by decide +kernel
/-- Station 10, a PERMIT station ACTIVE with both permissives, which bay 0's record names; no record names station 11. -/
def permitting : Device :=
  let d := (loading .full).dev.onStation 10 fun n => { n with entry := some ⟨.permit, some 0, none⟩, state := .active }
  d.onLu fun u => { u with pairs := Bank.write u.pairs 10 ⟨true, true, true⟩ }
theorem witness_permissives :
    permitting.present 0 (.station 10) true = true ∧ permitting.bayRec 0 = some bayRecord ∧
    bayRecord.ground = .station 10 ∧ (∀ b, ∀ r ∈ permitting.bayRec b, r.ground ≠ .station 11 ∧ r.overfill ≠ .station 11) ∧
    (fromLine (.groundIn 0) .high).dev.present 0 (.line 15) false = true ∧
    ((permitting.permitReturn 10 false true).bay 0).state = .tripped := by decide +kernel
theorem witness_rack_release :
    (∀ s, s ∈ [rackHeld fun r => { r with before := some .idle }, rackHeld fun r => { r with before := some .authorized }] →
      s.quiet = true ∧ s.dev.lu.mgmtHold = true ∧ s.dev.lu.holdSource = true ∧ s.dev.anyActive .holdIn = false ∧
      (s.dev.bay 0).holdRack = true ∧ (s.dev.bay 0).holdBay = false ∧ (s.dev.bay 0).state = .held ∧
      (s.dev.bay 0).swipe = none) ∧
    ((rackHeld fun r => { r with before := some .idle }).dev.bay 0).before = some .idle ∧
    ((rackHeld fun r => { r with before := some .authorized }).dev.bay 0).before = some .authorized := by decide +kernel

/-! ### Witnesses: bays -/

theorem witness_bay_open :
    State.reset.quiet = true ∧ State.reset.dev.bayRec 3 = none ∧
    (bayIn .closed id).quiet = true ∧ ((bayIn .closed id).dev.bayRec 0).isSome = true ∧
    ((bayIn .closed id).dev.bay 0).state = .closed ∧ ((bayIn .closed id).dev.bay 0).holding = false ∧
    (bayIn .closed fun r => { r with holdBay := true }).quiet = true ∧
    ((bayIn .closed fun r => { r with holdBay := true }).dev.bay 0).holding = true := by decide +kernel
theorem witness_bay_close :
    (bayIn .idle id).quiet = true ∧ ((bayIn .idle id).dev.bay 0).state = .idle ∧
    (bayIn .held fun r => { r with before := some .idle }).quiet = true ∧
    authorized.quiet = true ∧ (authorized.dev.bay 0).state = .authorized ∧ authorized.dev.firstStalled = none ∧
    (onBay0 .held .assigned .notBatched none fun r => { r with before := some .authorized }).quiet = true ∧
    (loading .full).quiet = true ∧ ((loading .full).dev.bay 0).state = .loading ∧
    (onBay0 .held .loading .opened none fun r => { r with before := some .loading }).quiet = true := by decide +kernel
def holding : State := onBay0 .holding .loading .opened (some (batch .interrupted)) fun r => { r with holdBay := true }
theorem witness_bay_hold :
    (bayIn .idle fun r => { r with holdBay := true }).quiet = true ∧
    (bayIn .idle id).quiet = true ∧ ((bayIn .idle id).dev.bay 0).holdBay = false ∧
    ((bayIn .idle id).dev.bay 0).holdRack = false ∧
    (loading .full).quiet = true ∧ ((loading .full).dev.bay 0).holdBay = false ∧
    ((loading .full).dev.bay 0).holdRack = false ∧
    (∃ a ∈ (loading .full).dev.armsOf 0, ((loading .full).dev.arm a).position ≠ .closed) ∧
    ((loading .full).dev.arm 2).batch = some (batch .full) ∧ (batch .full).phase.flowing = true := by decide +kernel
theorem witness_bay_release :
    (bayIn .held fun r => { r with before := some .idle, holdBay := true }).quiet = true ∧
    ((bayIn .held fun r => { r with before := some .idle, holdBay := true }).dev.bay 0).swipe = none ∧
    holding.quiet = true ∧ (holding.dev.bay 0).holdBay = true ∧ (holding.dev.bay 0).holdRack = false ∧
    (holding.dev.bay 0).state = .holding ∧ holding.dev.orderOf 0 = some (order .loading .opened) ∧
    ∃ x ∈ (order .loading .opened).lines, x.batch ≠ .ended := by decide +kernel
theorem witness_load_finish :
    (bayIn .idle id).quiet = true ∧ (bayIn .held fun r => { r with before := some .idle }).quiet = true ∧
    (onBay0 .tripped .loading .opened none fun r => { r with lockout := true }).quiet = true ∧
    authorized.quiet = true ∧ authorized.dev.firstStalled = none ∧
    (loading .closeWait).quiet = true ∧ 2 ∈ (loading .closeWait).dev.armsOf 0 ∧
    ((loading .closeWait).dev.arm 2).batch = some (batch .closeWait) ∧ (batch .closeWait).phase = .closeWait := by
  decide +kernel
def lockedOut : State := onBay0 .tripped .loading .ended none fun r =>
  { r with lockout := true, ended := [{ batch .ended with closing := some ⟨0, 0⟩, endStatus := some .short }] }
theorem witness_trip_clear :
    (bayIn .idle id).quiet = true ∧ ((bayIn .idle id).dev.bay 0).state ≠ .tripped ∧
    lockedOut.quiet = true ∧ (lockedOut.dev.bay 0).state = .tripped ∧ (lockedOut.dev.bay 0).lockout = true ∧
    lockedOut.dev.noBatch 0 = true ∧ lockedOut.dev.outstandingShots 0 = 0 ∧
    lockedOut.dev.orderOf 0 = some (order .loading .ended) ∧ lockedOut.dev.reservedSlot 0 = some 0 := by decide +kernel
theorem witness_injector_clear :
    (State.reset.dev.inj 15).state = .disabled ∧ (dosing .available id).quiet = true ∧
    ((dosing .available id).dev.inj 3).state = .available ∧ (dosing .fault id).quiet = true ∧
    ((dosing .fault id).dev.inj 3).state = .fault := by decide +kernel

/-! ### Witnesses: timers -/

theorem witness_authorization_expiry :
    authorized.dev.settled = true ∧ (authorized.dev.bay 0).state = .authorized ∧
    (authorized.dev.bay 0).authTimer = .running 1 ∧ authorized.dev.firstStalled = none ∧
    State.reset.dev.settled = true ∧ (State.reset.dev.bay 3).state ≠ .authorized := by decide +kernel
def resuming (p : Phase) : State := onBay0 .tripped .loading .opened (some (batch p)) fun r => { r with resumeTimer := some 0 }
theorem witness_resume_expiry :
    (∀ p, p ∈ [Phase.interrupted, .closeWait] →
      (resuming p).dev.settled = true ∧ ((resuming p).dev.bay 0).state = .tripped ∧
      ((resuming p).dev.bay 0).resumeTimer = some 0 ∧ 2 ∈ (resuming p).dev.armsOf 0 ∧
      ((resuming p).dev.arm 2).batch = some (batch p) ∧ (batch p).phase = p) ∧
    State.reset.dev.settled = true ∧ (State.reset.dev.bay 3).resumeTimer = none := by decide +kernel
theorem witness_travel_expiry :
    State.reset.dev.settled = true ∧ (State.reset.dev.arm 11).travel = none ∧
    (loading .full).dev.settled = true ∧ ((loading .full).dev.arm 2).travel ≠ none ∧
    (loading .full).dev.effectiveStage 2 ≠ .closed ∧ ((loading .full).dev.arm 2).batch = some (batch .full) ∧
    (loading .closeWait).dev.settled = true ∧ ((loading .closeWait).dev.arm 2).travel ≠ none ∧
    (loading .closeWait).dev.effectiveStage 2 = .closed ∧ ((loading .closeWait).dev.arm 2).position ≠ .closed ∧
    (loading .closeWait).dev.bayOfArm 2 = some 0 ∧ ((loading .closeWait).dev.bay 0).state = .loading ∧
    ((loading .closeWait).dev.bay 0).causes.valve = false ∧
    ((loading .closeWait).dev.arm 2).batch = some (batch .closeWait) := by decide +kernel
def shot255 : Shot := ⟨255, ⟨2, 0, 0⟩, 0⟩
theorem witness_shot_timeout :
    (∀ n, n ∈ [0, 1, 2] → ∀ s, s = dosing .available (fun i => { i with inFlight := [shot255], missed := n }) →
      s.dev.settled = true ∧ (s.dev.inj 3).inFlight.find? (fun y => y.token == 255) = some shot255 ∧
      (s.dev.inj 3).missed = n ∧ s.dev.dose shot255.ref = some dosed) ∧
    State.reset.dev.settled = true ∧ ∀ x ∈ (State.reset.dev.inj 3).inFlight, x.token ≠ 1 := by
  refine ⟨fun n hn s hs => ?_, by decide +kernel⟩
  subst hs
  revert n
  decide +kernel

/-! ### Witnesses: custody writes, notes and totalizers -/

theorem witness_good_post : working.dev.boot = .ready ∧ working.dev.queueSound ∧ working.dev.cw.write = some ⟨.post 0, 1⟩ ∧
    working.dev.cw.entry 0 = some ⟨0, .post ⟨2, ⟨10, 9⟩, false⟩, true⟩ := by
  unfold Device.queueSound; decide +kernel
def secondTry : State := ⟨working.dev.onCw fun c => { c with write := some ⟨.post 0, 2⟩ }, []⟩
theorem witness_failed_write : working.dev.settled = true ∧ secondTry.dev.boot = .ready ∧ secondTry.dev.settled = true ∧
    secondTry.dev.queueSound ∧ secondTry.dev.cw.write = some ⟨.post 0, 2⟩ ∧
    secondTry.dev.cw.entry 0 = some ⟨0, .post ⟨2, ⟨10, 9⟩, false⟩, true⟩ ∧
    ∀ x ∈ secondTry.dev.cw.queue, x.isPost = true := by
  unfold Device.queueSound; decide +kernel
def image0 : NoteImage := ⟨5510, 880, 0, 77, 5, 0, ⟨0, 0⟩, ⟨0, 0⟩, [], .empty, false, false, []⟩
def barrier0 : Barrier := ⟨0, 0, image0, some 1, .mark⟩
/-- Bay 0 in NOTE_COMMIT with its barrier's mark being written, with a hold source active or none. -/
def marking (hold : Bool) : State :=
  ⟨((onBay0 .noteCommit .loading .ended none fun r => { r with holdBay := hold }).dev.onNoteBay 0 fun n =>
    { n with held := some image0 }).onCw fun c =>
      { c with queue := [⟨0, .barrier barrier0, true⟩], nextId := 1, write := some ⟨.barrier 0 .mark, 1⟩ }, []⟩
theorem witness_good_mark : ∀ h, (marking h).dev.boot = .ready ∧ (marking h).dev.cw.write = some ⟨.barrier 0 .mark, 1⟩ ∧
    (marking h).dev.cw.entry 0 = some ⟨0, .barrier barrier0, true⟩ ∧ barrier0.number = some 1 ∧
    ((marking h).dev.bay 0).holding = h ∧ ((marking h).dev.bay 0).order = some 5510 := by decide +kernel
theorem witness_note_release :
    State.reset.quiet = true ∧ State.reset.dev.retainedSlot 7 = none ∧
    (retained true false).quiet = true ∧ (retained true false).dev.retainedSlot 7 = some 127 ∧
    (retained true false).dev.slot 127 = .retained 7 true ∧
    (retained false false).quiet = true ∧ (retained false false).dev.retainedSlot 7 = some 127 ∧
    (retained false false).dev.slot 127 = .retained 7 false := by decide +kernel
theorem witness_note_read :
    (retained false false).quiet = true ∧ (retained false false).dev.cw.write = none ∧
    0 < (noteBodies 127 (Bank.read (retained false false).dev.custody.slots 127)).length ∧
    (retained false true).quiet = true ∧ (retained false true).dev.cw.write ≠ none ∧
    (retained false true).dev.retainedSlot 7 = some 127 ∧
    State.reset.quiet = true ∧ (State.reset.dev.noteBay 3).held = none ∧
    (marking false).quiet = true ∧ ((marking false).dev.noteBay 0).held = some image0 ∧
    0 < (image0.elements ((marking false).dev.barrierNumber 0)).length := by decide +kernel
def parkedBusy : State := ⟨working.dev.onCw fun c => { c with mode := .parked, write := none }, []⟩
def reading : State := ⟨(working.dev.onCw fun c => { c with waiting := some ⟨1, 2, [0]⟩ }).onMp fun m => { m with reserved := true }, []⟩
theorem witness_totalizer_read :
    State.reset.quiet = true ∧ State.reset.dev.cw.waiting = none ∧ State.reset.dev.cw.entriesOf 11 = [] ∧
    State.reset.dev.cw.write = none ∧
    parkedBusy.quiet = true ∧ parkedBusy.dev.cw.mode = .parked ∧ parkedBusy.dev.cw.waiting = none ∧
    working.quiet = true ∧ working.dev.cw.waiting = none ∧ working.dev.cw.mode ≠ .parked ∧
    working.dev.cw.entriesOf 2 ≠ [] ∧ working.dev.cw.write ≠ none ∧
    reading.quiet = true ∧ reading.dev.cw.waiting ≠ none := by decide +kernel
def faulted (w : HeldWhy) : State :=
  ⟨((marking false).dev.onCw fun c =>
    { c with write := none, queue := [⟨0, .barrier { barrier0 with part := .body }, false⟩], held := some ⟨0, w⟩ }).onArm 2 fun a =>
      { a with totFault := true }, []⟩
theorem witness_totalizer_ack :
    (faulted .exhausted).quiet = true ∧ (∀ h ∈ (faulted .exhausted).dev.cw.held, h.waitsOn 2 = false) ∧
    ((faulted .exhausted).dev.arm 2).totFault = true ∧ ((faulted .exhausted).dev.arm 11).totFault = false ∧
    (faulted (.arms [2])).quiet = true ∧ (∃ h ∈ (faulted (.arms [2])).dev.cw.held, h.waitsOn 2 = true) := by decide +kernel
theorem witness_restart :
    (loading .full).quiet = true ∧ (∃ b, ((loading .full).dev.bay b).state ≠ .closed ∧ ((loading .full).dev.bay b).state ≠ .idle) ∧
    State.reset.quiet = true ∧ (∀ b, (State.reset.dev.bay b).state = .closed ∨ (State.reset.dev.bay b).state = .idle) ∧
    State.reset.dev.cw.write = none ∧ State.reset.dev.cw.releases = [] ∧ State.reset.dev.cw.queue = [] ∧
    State.reset.dev.lm.outstanding = none ∧
    (∀ s, s = made (fun d => d.onCw fun c => { c with
        queue := [⟨0, .post ⟨2, ⟨10, 9⟩, false⟩, true⟩], nextId := 1, write := some ⟨.post 0, 1⟩ }) →
      s.quiet = true ∧ (∀ b, (s.dev.bay b).state = .closed ∨ (s.dev.bay b).state = .idle) ∧ s.dev.cw.write ≠ none) := by
  refine ⟨by decide +kernel, by decide +kernel, by decide +kernel, by decide +kernel, by decide +kernel, by decide +kernel,
    by decide +kernel, by decide +kernel, fun s h => ?_⟩
  subst h
  decide +kernel

/-! ### Witnesses: the rack loop -/

/-- Addresses 13 (arm 2's VALVE station) and 31 polled, a sweep of this index outstanding or none. -/
def looping (i : Option (Fin 16)) : State :=
  let d := ((loading .full).dev.onStation 13 fun n => { n with entry := some ⟨.valve, some 0, some 2⟩, state := .active }).onStation
    31 fun n => { n with entry := some ⟨.meter, some 0, some 2⟩, state := .slipped, miss := 3, spoiled := false }
  ⟨d.onLm fun l => { l with outstanding := i.map fun k => ⟨k, [13, 31], [], 0⟩ }, []⟩
theorem witness_launch :
    unpowered.dev.boot ≠ .ready ∧ (looping (some 0)).dev.lm.outstanding ≠ none ∧
    (looping none).dev.boot = .ready ∧ (looping none).dev.lm.outstanding = none ∧ (looping none).dev.lm.interval = 0 ∧
    (looping none).dev.polled = [13, 31] ∧
    (looping none).dev.polled[0]? = some 13 ∧ ((looping none).dev.station 13).entry = some ⟨.valve, some 0, some 2⟩ ∧
    ((looping none).dev.station 13).state ≠ .mismatch ∧ (looping none).dev.armOfValve 13 = some 2 := by decide +kernel
/-- The header of a return of sweep 15 with two slots, and one that is not its return. -/
theorem witness_return :
    (∀ w ∈ (looping (some 15)).dev.lm.outstanding, headerMatches w [0x5A#8, 0x0E#8, 2#8, crc8 [0x5A#8, 0x0E#8, 2#8]] = false) ∧
    (looping (some 15)).dev.boot = .ready ∧ (looping (some 15)).dev.lm.outstanding = some ⟨15, [13, 31], [], 0⟩ ∧
    headerMatches ⟨15, [13, 31], [], 0⟩ [0x5A#8, 0x0F#8, 2#8, crc8 [0x5A#8, 0x0F#8, 2#8]] = true ∧
    ([13, 31] : List Addr).Nodup ∧ (0 : Addr) ∉ ([13, 31] : List Addr) ∧
    ((looping (some 15)).dev.station 31).entry = some ⟨.meter, some 0, some 2⟩ ∧
    (looping (some 0)).dev.lm.outstanding = some ⟨0, [13, 31], [], 0⟩ := by decide +kernel
theorem witness_timeout :
    State.reset.dev.lm.outstanding = none ∧ (looping (some 0)).dev.boot = .ready ∧
    (looping (some 0)).dev.lm.outstanding = some ⟨0, [13, 31], [], 0⟩ ∧ ([13, 31] : List Addr).Nodup ∧
    (0 : Addr) ∉ ([13, 31] : List Addr) ∧ ((looping (some 0)).dev.station 13).entry = some ⟨.valve, some 0, some 2⟩ := by
  decide +kernel
/-- A station lost at its fourth miss: the slip of three ends SILENT. -/
theorem test_fourth_miss_is_silent : (((looping (some 0)).dev.station 31).arrive .missing).state = .silent := by decide +kernel

/-! ### Witnesses: what the blocks compute -/

theorem witness_meter_factor :
    (armRecord.curve.map CurvePoint.q).Pairwise (· < ·) ∧ armRecord.curve.head? = some ⟨2000, 100160⟩ ∧
    armRecord.curve.getLast? = some ⟨2800, 100140⟩ ∧ armRecord.curve[0]? = some ⟨2000, 100160⟩ ∧
    armRecord.curve[0 + 1]? = some ⟨2800, 100140⟩ ∧ (2000 ≤ 2000 ∧ 2000 < 2800) ∧ (2000 ≤ 2799 ∧ 2799 < 2800) ∧
    (∀ p ∈ armRecord.curve, 100140 ≤ p.mf ∧ p.mf ≤ 100160) ∧ armRecord.curve ≠ [] ∧
    meterFactor armRecord.curve 2000 = 100160 ∧ meterFactor armRecord.curve 2800 = 100140 := by decide
theorem witness_gross_increment : (worked.meter 2).grossResidue < workedRecord.kFactor := by decide +kernel
/-- The clauses by e, d and the rate: no baseline; e and d both 0; d alone; a rate above 6000; the rate 6000 itself. -/
theorem witness_meter_sample :
    (State.reset.dev.meter 2).baselineValid = false ∧ (worked.meter 2).baselineValid = true ∧
    ((65480#16 - 65480#16).toNat = 0 ∧ (65530#16 - 65530#16).toNat = 0 ∧ (14#16 - 65530#16).toNat ≠ 0) ∧
    2 * workedRecord.qMax < 600000000 * 1300 / (workedRecord.kFactor * 100) ∧
    600000000 * 50 / (49920 * 100) = 6009 ∧ 600000000 * 49 / (49920 * 100) ≤ 2 * workedRecord.qMax ∧
    (worked.arm 2).batch = some (batch .full) ∧ (worked.arm 0).batch = none ∧ (batch .full).phase ≠ .closeWait ∧
    ((loading .closeWait).dev.arm 2).batch = some (batch .closeWait) := by decide +kernel
/-- The three tests at their thresholds, with a close-ahead of 8275 mL and the preset of 5000 L. -/
def nearClose (p : Phase) : Device := (loading p).dev.onArm 2 fun c => { c with closeAhead := 8275 }
theorem witness_phase_tests :
    (∀ p, ((nearClose p).arm 2).batch = some (batch p) ∧ (batch p).arm = 2) ∧
    (batch .full).phase.flowing = true ∧ (batch .closeWait).phase.flowing = false ∧
    (((batch .full).preset * 10 ^ 6 : Nat) : Int) - ((4991725000 : Nat) : Int) ≤ ((8275 * 1000 : Nat) : Int) ∧
    ((8275 * 1000 : Nat) : Int) < (((batch .full).preset * 10 ^ 6 : Nat) : Int) - ((4991724999 : Nat) : Int) := by
  refine ⟨fun p => ?_, by decide⟩
  cases p <;> decide +kernel
theorem witness_stage_of_a_call :
    ((loading .full).dev.arm 2).batch = some (batch .full) ∧ (loading .full).dev.effectiveStage 2 = .high ∧
    (loading .full).dev.bayOfArm 2 = some 0 ∧ ((loading .full).dev.bay 0).state = .loading ∧
    ((loading .full).dev.bay 0).ground = true ∧ ((loading .full).dev.bay 0).overfill = true ∧
    (loading .full).dev.lu.esd = false ∧ (loading .full).dev.lu.powerfail = false ∧
    ((looping none).dev.station 13).entry = some ⟨.valve, some 0, some 2⟩ ∧ (looping none).dev.armOfValve 13 = some 2 ∧
    State.reset.dev.armOfValve 13 = none ∧ State.reset.dev.bayOfArm 2 = none ∧
    (loading .closeWait).dev.effectiveStage 2 ≠ (loading .full).dev.effectiveStage 2 := by decide +kernel
theorem witness_station_arrivals :
    (∃ s : Station, s.state = .silent) ∧ (∃ s : Station, s.state = .active) ∧ (∃ s : Station, s.state = .mismatch) ∧
    (∀ j ∈ ([.bad, .missing, .bad] : List Judged), j = .bad ∨ j = .missing) := by
  refine ⟨⟨{ Station.reset with state := .silent }, rfl⟩, ⟨{ Station.reset with state := .active }, rfl⟩,
    ⟨{ Station.reset with state := .mismatch }, rfl⟩, by decide⟩
/-- A swipe that passes every test, for an order that names the driver. -/
def swiping : Device :=
  let d := (authorized.dev.onBay 0 fun r => { r with state := .idle, order := none }).setSlot 0 .free
  { d.onMp (fun m => { m with clock := some ⟨65535, 0⟩ }) with
    permits := [(1023, permit77)], accounts := [(0, account880)]
    orders := [⟨5510, 0, 77, some 65535, [orderLine .notBatched], .queued, none⟩] }
theorem witness_swipe : swiping.evaluateSwipe 0 77 =
    .assigned ⟨5510, 0, 77, some 65535, [orderLine .notBatched], .queued, none⟩ permit77 := by decide +kernel
theorem witness_swipe_by_state :
    (swiping.bay 0).state = .idle ∧
    swiping.orderNumbered 5510 = some ⟨5510, 0, 77, some 65535, [orderLine .notBatched], .queued, none⟩ ∧
    ((bayIn .closed id).dev.bay 0).state = .closed ∧ ((bayIn .held id).dev.bay 0).state = .held ∧
    ((loading .full).dev.bay 0).state ∈ [.authorized, .loading, .holding, .tripped, .closing, .noteCommit] ∧
    (bayIn .idle id).dev.evaluateSwipe 0 77 = .refused .noClock ∧ swiping.tablesWf = true ∧
    (Sparse.get 0 swiping.accounts).isSome = true ∧ ((swiping.swipeBid 0 77).bay 0).state = .authorized := by decide +kernel

/-- Arm 2 ready to start: its stations ACTIVE, its valve CLOSED, its coupler LATCHED. -/
def active (d : Device) (n : Addr) (e : StationEntry) : Device :=
  d.onStation n fun r => { r with entry := some e, state := .active }
def starting (st : BayState) (b : Option Batch) : Device :=
  let d := (onBay0 st .assigned (if b.isSome then .opened else .notBatched) b id).dev.onArm 2 fun c =>
    { c with position := .closed, coupler := .latched, travel := none }
  active (active d 12 ⟨.meter, some 0, some 2⟩) 13 ⟨.valve, some 0, some 2⟩
theorem witness_start :
    (starting .authorized none).bayOfArm 2 = some 0 ∧ ((starting .authorized none).bay 0).state = .authorized ∧
    ((starting .authorized none).arm 2).batch = none ∧ (starting .authorized none).newRefusal 0 2 = none ∧
    (starting .authorized none).armRec 2 = some armRecord ∧
    (starting .authorized none).chooseLine 0 7 = some (0, orderLine .notBatched) ∧
    (starting .authorized none).productOf 7 = some (0, product7) ∧
    (starting .authorized none).orderOf 0 = some (order .assigned .notBatched) ∧ product7.recipe[0]? = some ⟨41, 400, .flag⟩ ∧
    ((starting .loading (some (batch .interrupted))).arm 2).batch = some (batch .interrupted) ∧
    (starting .loading (some (batch .interrupted))).resumeRefusal 0 2 (batch .interrupted) = none := by decide +kernel
theorem witness_start_refused :
    authorized.dev.newRefusal 0 2 = some .armNotReady ∧ (authorized.dev.arm 2).batch = none ∧
    authorized.dev.bayOfArm 2 = some 0 ∧
    ((loading .interrupted).dev.arm 2).batch = some (batch .interrupted) ∧
    (loading .interrupted).dev.resumeRefusal 0 2 (batch .interrupted) = some .armNotReady ∧
    ((loading .full).dev.arm 2).batch = some (batch .full) ∧ (batch .full).phase ≠ .interrupted ∧
    ((bayIn .closed id).dev.bay 0).state = .closed ∧ ((bayIn .idle id).dev.bay 0).state ≠ .closed ∧
    (bayIn .idle id).dev.bayOfArm 2 ≠ some 0 ∧
    (∀ st ∈ [BayState.idle, .holding, .held, .tripped, .closing, .noteCommit],
      (starting st none).bayOfArm 2 = some 0 ∧ ((starting st none).bay 0).state = st) := by decide +kernel
/-- R69, R27: the accepted START opens the batch and makes the bay LOADING; the resumed batch is in START. -/
theorem test_start :
    (((starting .authorized none).startBid 0 2).bay 0).state = .loading ∧
    ((((starting .authorized none).startBid 0 2).arm 2).batch.map Batch.preset) = some 5000 ∧
    ((((starting .loading (some (batch .interrupted))).startBid 0 2).arm 2).batch.map Batch.phase) = some .start := by
  decide +kernel
theorem witness_stop_and_finish :
    ((loading .full).dev.bay 0).state = .loading ∧ (loading .full).dev.bayOfArm 2 = some 0 ∧
    ((loading .full).dev.arm 2).batch = some (batch .full) ∧ (batch .full).arm = 2 ∧ (batch .full).phase.flowing = true ∧
    ((loading .closeWait).dev.arm 2).batch = some (batch .closeWait) ∧ (batch .closeWait).phase.flowing = false ∧
    (authorized.dev.bay 0).state = .authorized ∧ (heldAuthorized.dev.bay 0).before = some .authorized ∧
    (holding.dev.bay 0).state = .holding ∧
    ((onBay0 .held .loading .opened none fun r => { r with before := some .loading }).dev.bay 0).before = some .loading ∧
    ((esdLatched false false).dev.bay 0).state = .tripped ∧ ((esdLatched false false).dev.bay 0).lockout = false ∧
    ((bayIn .idle id).dev.bay 0).state = .idle ∧
    ((bayIn .held fun r => { r with before := some .idle }).dev.bay 0).before = some .idle ∧
    ((marking false).dev.bay 0).state = .noteCommit ∧
    (lockedOut.dev.bay 0).state = .tripped ∧ (lockedOut.dev.bay 0).lockout = true ∧
    ((bayIn .closed id).dev.bay 0).state = .closed := by decide +kernel
/-- An event slot of this kind and address with these octets, its check right. -/
def eventOf (k : Nat) (n : Nat) (l : List Byte) : List Byte :=
  let b := (octets 1 (k * 32 + n) ++ l ++ List.replicate (6 - l.length) 0#8)
  b ++ [crc8 b]
def swipeSlot : List Byte := eventOf 1 9 (octets 4 77)
/-- Panel 9 of bay 0 in this state and with this word. -/
def panelIn (st : StationState) (w : Option Half) : Device :=
  (bayIn .idle id).dev.onStation 9 fun n => { n with entry := some ⟨.panel, some 0, none⟩, state := st, word := w }
theorem witness_event_slot :
    (swipeSlot.length = 8 ∧ crc8 (swipeSlot.take 7) = octetAt swipeSlot 7 ∧ (octetAt swipeSlot 0).toNat / 32 = 1 ∧
      (octetAt swipeSlot 0).toNat % 32 = 9 ∧ readBid swipeSlot = some (.swipe 77)) ∧
    (crc8 ((List.replicate 8 1#8).take 7) ≠ octetAt (List.replicate 8 1#8) 7) ∧
    (crc8 ((eventOf 1 0 []).take 7) = octetAt (eventOf 1 0 []) 7 ∧ (octetAt (eventOf 1 0 []) 0).toNat % 32 = 0 ∧
      (octetAt (eventOf 1 0 []) 0).toNat / 32 ≠ 0) ∧
    (crc8 ((eventOf 0 31 []).take 7) = octetAt (eventOf 0 31 []) 7 ∧ (octetAt (eventOf 0 31 []) 0).toNat / 32 = 0) ∧
    readBid (eventOf 2 9 [11#8]) = some (.start 11) ∧ readBid (eventOf 2 9 [12#8]) = none ∧
    readBid (eventOf 3 9 [0#8]) = some (.stop 0) ∧ readBid (eventOf 4 9 []) = some .finish ∧
    readBid (eventOf 5 9 []) = none := by decide +kernel
theorem witness_bid_dispatch :
    (State.reset.dev.station 9).isKind .panel = false ∧
    ((panelIn .silent none).station 9).isKind .panel = true ∧ ((panelIn .silent none).station 9).state = .silent ∧
    ((panelIn .active (some 1)).station 9).faulty = true ∧
    (∀ st ∈ [StationState.active, .slipped], ((panelIn st none).station 9).state = st ∧
      ((panelIn st none).station 9).faulty = false ∧ (panelIn st none).bayOfPanel 9 = some 0) ∧
    ((panelIn .active none).setBayRec 0 none).bayOfPanel 9 = none := by decide +kernel

/-! ### Witnesses: custody writes by part, releases and the next number -/

/-- The barrier of bay 0 with this part being written, at this attempt; every slot but its own BAD, or slot 1 FREE. -/
def writing (p : BarrierPart) (attempt : Nat) (free : Bool) : State :=
  let d := ((marking false).dev.onCw fun c =>
    { c with queue := [⟨0, .barrier { barrier0 with part := p }, true⟩], write := some ⟨.barrier 0 p, attempt⟩ })
  ⟨if free then d else (d.onNu fun n => { n with dir := Vector.replicate 128 .bad }).setSlot 0 (.reserved 0 false), []⟩
theorem witness_barrier_parts :
    ∀ p ∈ [BarrierPart.body, .check], (writing p 1 true).dev.boot = .ready ∧ (writing p 1 true).dev.settled = true ∧
      (writing p 1 true).dev.queueSound ∧
      (writing p 1 true).dev.cw.write = some ⟨.barrier 0 p, 1⟩ ∧
      (writing p 1 true).dev.cw.entry 0 = some ⟨0, .barrier { barrier0 with part := p }, true⟩ ∧ p ≠ .mark ∧
      (writing p 1 true).dev.cw.mode ≠ .parked ∧ (writing p 1 true).dev.cw.releases = [] ∧
      (writing p 1 true).dev.cw.queue.head? = some ⟨0, .barrier { barrier0 with part := p }, true⟩ := by
  unfold Device.queueSound; decide +kernel
theorem witness_barrier_second_failure :
    ∀ f, (writing .mark 2 f).dev.boot = .ready ∧ (writing .mark 2 f).dev.settled = true ∧
      (writing .mark 2 f).dev.queueSound ∧ (writing .mark 2 f).dev.cw.write = some ⟨.barrier 0 .mark, 2⟩ ∧
      (writing .mark 2 f).dev.cw.entry 0 = some ⟨0, .barrier barrier0, true⟩ ∧
      (writing .mark 2 f).dev.freeSlot = (if f then some 1 else none) := by
  unfold Device.queueSound; decide +kernel
/-- Slot 127's release being written, alone or while bay 1's commit is stalled on slot 1. -/
def releasing (attempt : Nat) (stall : Bool) : State :=
  let d := (retained true false).dev.onCw fun c => { c with releases := [127], write := some ⟨.release 127, attempt⟩ }
  ⟨if stall then ((d.onBay 1 fun r => { r with state := .noteCommit }).setSlot 1 (.reserved 1 true)).onNoteBay 1 fun n =>
    { n with stall := some 0, held := some (imageOf 1) } else d, []⟩
theorem witness_release_write :
    (∀ n ∈ [1, 2], ∀ b, (releasing n b).dev.boot = .ready ∧ (releasing n b).dev.settled = true ∧
      (releasing n b).dev.cw.write = some ⟨.release 127, n⟩ ∧ (releasing n b).dev.cw.releases = [127]) ∧
    (releasing 1 false).dev.firstStalled = none ∧ (releasing 1 true).dev.firstStalled = some 1 ∧
    (releasing 1 true).dev.reservedSlot 1 = some 1 := by decide +kernel
/-- The scan writing the next note number 6 back, and the last post of a DRAINING writer. -/
def scanning (attempt : Nat) : State :=
  made fun d => (d.setBoot (.scanning none [] false)).onCw fun c => { c with write := some ⟨.nextNumber 6, attempt⟩ }
def draining (attempt : Nat) : State :=
  ⟨working.dev.onCw fun c => { c with mode := .draining, write := some ⟨.post 0, attempt⟩ }, []⟩
theorem witness_next_number_and_parking :
    (∀ n ∈ [1, 2], (scanning n).dev.boot = .scanning none [] false ∧ (scanning n).dev.cw.write = some ⟨.nextNumber 6, n⟩) ∧
    (∀ n ∈ [1, 2], (draining n).dev.boot = .ready ∧ (draining n).dev.settled = true ∧ (draining n).dev.cw.mode = .draining ∧
      (draining n).dev.cw.write = some ⟨.post 0, n⟩ ∧ (draining n).dev.cw.releases = [] ∧
      (draining n).dev.cw.queue = [⟨0, .post ⟨2, ⟨10, 9⟩, false⟩, true⟩]) ∧
    parkedBusy.dev.boot = .ready ∧ parkedBusy.dev.cw.mode = .parked := by decide +kernel
theorem witness_waiting_note_read :
    noteWaiting.dev.boot = .ready ∧ noteWaiting.dev.cw.write ≠ none ∧ noteWaiting.dev.mp.inService = true ∧
    noteWaiting.dev.mp.reading = some 127 ∧ noteWaiting.dev.mp.fifo = [.noteRead 1 (some (.number 7, 0))] ∧
    (after (.custodyWriteComplete true) noteWaiting).mp.answers.length = 1 := by decide +kernel
/-- A barrier held for arm 2: with its arms' accumulators empty or not, the number below or past its end, CW busy or not. -/
theorem witness_held_barrier :
    (∀ h ∈ (faulted (.arms [2])).dev.cw.held, h.waitsOn 2 = true) ∧ (faulted (.arms [2])).dev.cw.write = none ∧
    (faulted (.arms [2])).dev.cw.mode ≠ .parked ∧
    (faulted (.arms [2])).dev.cw.queue = [⟨0, .barrier { barrier0 with part := .body }, false⟩] ∧
    (faulted (.arms [2])).dev.recoveryArms image0 = [] ∧ (faulted (.arms [2])).dev.nextNumber < 4294967296 ∧
    (∀ d, d = ((faulted (.arms [2])).dev.onMeter 2 fun m => { m with unwritten := ⟨1, 1⟩ }) →
      d.recoveryArms { image0 with lines := [⟨1, 0, 7, 2, .gross, 5000, 0, 0, 0, 0, ⟨0, 0⟩, ⟨0, 0⟩, ⟨0, 0⟩, ⟨0, 0⟩, .short, .none, 0, 0, []⟩] } = [2]) ∧
    (∀ d, d = ((faulted (.arms [2])).dev.onCw fun c => { c with heldNext := some 4294967296 }) →
      4294967296 ≤ d.nextNumber) := by
  refine ⟨by decide +kernel, by decide +kernel, by decide +kernel, by decide +kernel, by decide +kernel, by decide +kernel,
    fun d h => ?_, fun d h => ?_⟩ <;> subst h <;> decide +kernel

/-! ### Witnesses: the calls, the returns at their users, and injectors -/

/-- Every kind of station polled, injector 3's with an offer to make, and a VALVE station in MISMATCH at 14. -/
def offering : Device :=
  let d := (dosing .available fun i => { i with view := some ⟨true, true⟩, lastServed := none }).dev
  active d 20 ⟨.injector, none, some 3⟩
def calling : State :=
  let d := active (active (active (active offering 9 ⟨.panel, some 0, none⟩) 12 ⟨.meter, some 0, some 2⟩)
    13 ⟨.valve, some 0, some 2⟩) 21 ⟨.panel, some 1, none⟩
  ⟨d.onStation 14 fun n => { n with entry := some ⟨.valve, some 0, some 3⟩, state := .mismatch }, []⟩
theorem witness_calls :
    calling.dev.boot = .ready ∧ calling.dev.lm.outstanding = none ∧ calling.dev.lm.interval = 0 ∧
    calling.dev.polled = [9, 12, 13, 14, 20, 21] ∧ calling.dev.bayOfPanel 9 = some 0 ∧ calling.dev.chanOf 20 = some 3 ∧
    calling.dev.armOfValve 13 = some 2 ∧ calling.dev.bayOfPanel 21 = none ∧
    (calling.dev.station 14).state = .mismatch ∧ (calling.dev.station 9).state ≠ .mismatch ∧
    (made fun d => d.onLm fun l => { l with interval := 1 }).dev.lm.interval ≠ 0 := by decide +kernel
/-- R85, R49: the PANEL call shows order 5510, and the INJECTOR call the next token. -/
theorem test_calls :
    slice (after .sweepLaunch calling).lm.loopOut 4 8 = callSlot 9 ((slice (after .sweepLaunch calling).lm.loopOut 5 2) ++
      octets 4 5510) ∧
    slice (after .sweepLaunch calling).lm.loopOut 36 8 = callSlot 20 [1#8, 0#8, 0#8, 0#8, 0#8, 0#8] := by decide +kernel
def meterSlot : List Byte := eventOf 1 12 [0#8, 1#8, 0#8, 1#8, 0#8, 9#8]
theorem witness_return_to_user :
    (calling.dev.station 12).entry = some ⟨.meter, some 0, some 2⟩ ∧ (calling.dev.station 12).state = .active ∧
    (calling.dev.station 12).faulty = false ∧ judgeSlot 12 .meter meterSlot = .good false ∧
    calling.dev.armOfMeter 12 = some 2 ∧ calling.dev.armRec 2 = some armRecord ∧ worked.armsOfTemp 6 = [2] ∧
    ((loading .full).dev.arm 2).coupler ≠ .latched := by decide +kernel
def latchedFlow : Device := (loading .full).dev.onArm 2 fun c => { c with coupler := .latched }
theorem witness_valve_return :
    latchedFlow.armOfValve 13 = some 2 ∧ (latchedFlow.arm 2).coupler = .latched ∧
    (latchedFlow.arm 2).batch = some (batch .full) ∧ (batch .full).phase.flowing = true ∧
    (∀ b ∈ latchedFlow.bayOfArm 2, (latchedFlow.bay b).state ≠ .closing) ∧
    latchedFlow.armOfMeter 12 = some 2 ∧ (batch .full).phase ≠ .ended := by decide +kernel
/-- Two arms with shots pending on injector 3. -/
def twoArms (last : Option ArmId) : Device :=
  (offering.onArm 3 fun c => { c with batch := some { batch .full with arm := 3, dosing := [dosed] } }).onInj 3 fun i =>
    { i with lastServed := last }
theorem witness_offers :
    offering.injRec 3 = some injector3 ∧ offering.mayOffer 3 injector3 = true ∧ offering.eligible 3 = [⟨2, 0, 0⟩] ∧
    (offering.inj 3).offer = none ∧
    (∀ l ∈ [none, some (2 : ArmId), some 3], (twoArms l).mayOffer 3 injector3 = true ∧ (twoArms l).eligible 3 = [⟨2, 0, 0⟩, ⟨3, 0, 0⟩] ∧
      ((twoArms l).inj 3).lastServed = l) ∧
    (dosing .available id).dev.mayOffer 3 injector3 = false := by decide +kernel
/-- R50: neither arm served, the higher-numbered one; the other one after a service. -/
theorem test_offers :
    (((twoArms none).offerShot 3).inj 3).offer = some ⟨1, ⟨3, 0, 0⟩, false, .stays⟩ ∧
    (((twoArms (some 3)).offerShot 3).inj 3).offer = some ⟨1, ⟨2, 0, 0⟩, false, .stays⟩ := by decide +kernel
def offered (f : OfferFate) (onBuffer : Bool) : Device :=
  offering.onInj 3 fun i => { i with offer := some ⟨255, ⟨2, 0, 0⟩, onBuffer, f⟩, inFlight := [⟨254, ⟨2, 0, 0⟩, 0⟩] }
theorem witness_answers :
    (∀ f ∈ [OfferFate.stays, .missed, .cancelled], ∀ b,
      ((offered f b).inj 3).offer = some ⟨255, ⟨2, 0, 0⟩, b, f⟩ ∧ (offered f b).dose ⟨2, 0, 0⟩ = some dosed ∧
      ((offered f b).inj 3).state = .available) ∧
    ((offered .stays false).inj 3).inFlight.find? (fun y => y.token == 254) = some ⟨254, ⟨2, 0, 0⟩, 0⟩ ∧
    (∀ x ∈ ((offered .stays false).inj 3).inFlight, x.token ≠ 255) ∧ (offered .stays false).chanOf 20 = some 3 := by
  decide +kernel
/-- R59: the fates of an offer that is not taken. -/
theorem test_answers :
    (((offered .cancelled false).answerOffer 3 injector3 2 0).dose ⟨2, 0, 0⟩).map Dosing.cancelled = some 1 ∧
    (((offered .missed false).answerOffer 3 injector3 2 0).dose ⟨2, 0, 0⟩).map Dosing.missed = some 1 ∧
    (((offered .stays false).answerOffer 3 injector3 1 255).dose ⟨2, 0, 0⟩).map Dosing.pending = some 0 := by decide +kernel

/-! ### Witnesses: frames and batch ends -/

def frameOf (n : Nat) : List Byte := List.replicate n 6#8
theorem witness_segments :
    SegKind.ofCode 4 = some .last ∧ (frameOf 252).length = 252 ∧ (frameSegments (frameOf 252)).length = 18 ∧
    (frameSegments (frameOf 14)).length = 1 ∧ (frameSegments (frameOf 15)).length = 2 ∧
    Mp.reset.asm = .idle ∧ Mp.reset.fifo.length < 4 ∧
    (∃ m : Mp, m.asm = .idle ∧ 4 ≤ m.fifo.length) ∧ (∃ m : Mp, m.asm = .assembling [6#8] 18) ∧
    (∃ m : Mp, m.asm = .discarding) ∧
    readSegment (segmentOctets 1 true (frameOf 14)) = some (.single, true, frameOf 14) ∧
    readSegment (List.replicate 16 1#8) = none := by
  refine ⟨rfl, by decide, by decide +kernel, by decide +kernel, by decide +kernel, rfl, by decide,
    ⟨{ Mp.reset with fifo := List.replicate 4 .sweepTimeout }, rfl, by decide⟩,
    ⟨{ Mp.reset with asm := .assembling [6#8] 18 }, rfl⟩, ⟨{ Mp.reset with asm := .discarding }, rfl⟩,
    by decide +kernel, by decide +kernel⟩
def sending : Mp := { Mp.reset with
  ready := true, answers := [⟨6#8, 1#8, .ok, [⟨frameOf 20, true, true, false⟩]⟩], notices := [resetNotice] }
theorem witness_outbound :
    sending.out = none ∧ sending.ready = true ∧ sending.answers = [⟨6#8, 1#8, .ok, [⟨frameOf 20, true, true, false⟩]⟩] ∧
    ({ sending with answers := [] } : Mp).notices = [resetNotice] ∧ Mp.reset.ready = false ∧
    (∀ f ∈ sending.outbound.1.delivered.out, f.sent = 14 ∧ f.sent < f.octs.length ∧ f.octs.length ≤ f.sent + 14) ∧
    sending.outbound.1.delivered.out.isSome = true := by decide +kernel
/-- A batch in CLOSE_WAIT that closed on its preset, its order line reserved, with this zero-flow count. -/
def ending (z : Nat) (c : CloseCause) : Device :=
  let t := { batch .closeWait with snapshot := some (4991830000, c), delivered := ⟨5000330410, 4900000000⟩, dosing := [dosed] }
  let d := (loading .closeWait).dev.onArm 2 fun a => { a with batch := some t, zeroFlow := z }
  { d with
    accounts := [(0, account880)]
    orders := [{ order .loading .opened with lines := [{ orderLine .opened with reservation := some 0 }] }] }
theorem witness_batch_end :
    (∀ c ∈ [CloseCause.preset, .stop], ∃ t ∈ ((ending 3 c).arm 2).batch,
      t.arm = 2 ∧ t.phase = .closeWait ∧ t.snapshot = some (4991830000, c) ∧ t.line = 0) ∧
    (ending 3 .preset).bayOfArm 2 = some 0 ∧ 3 ≤ ((ending 3 .preset).arm 2).zeroFlow ∧ ((ending 2 .preset).arm 2).zeroFlow < 3 ∧
    (ending 3 .preset).tablesWf = true ∧ (Sparse.get 0 (ending 3 .preset).accounts).isSome = true ∧
    (∃ o ∈ (ending 3 .preset).orderOf 0, ∃ l ∈ o.lines[0]?, l.reservation = some 0) := by decide +kernel
theorem witness_load_test :
    ((onBay0 .loading .loading .ended none id).dev.bay 0).state = .loading ∧
    (onBay0 .loading .loading .ended none id).dev.orderOf 0 = some (order .loading .ended) ∧
    (∀ l ∈ (order .loading .ended).lines, l.batch = .ended) ∧
    (∀ a ∈ (onBay0 .loading .loading .ended none id).dev.armsOf 0,
      ((onBay0 .loading .loading .ended none id).dev.arm a).batch = none) ∧
    (loading .full).dev.orderOf 0 = some (order .loading .opened) := by decide +kernel
/-- Section 2.6: the close at 4 991 830 000 with 5 000 330 410 delivered teaches 8500 mL; the line ends and its account pays. -/
theorem test_batch_end :
    (((ending 3 .preset).endBatch 2 false).arm 2).ring.e3 = 8500 ∧
    ((((ending 3 .preset).endBatch 2 false).orderOf 0).map fun o => o.lines.map OrderLine.batch) = some [.ended] ∧
    (((ending 3 .preset).endBatch 2 false).bay 0).ended.map Batch.endStatus = [some .complete] := by decide +kernel
theorem witness_dose :
    (dosing .available id).dev.dose ⟨2, 0, 0⟩ = some dosed ∧ dosed.injector = some 3 ∧
    (dosing .available id).dev.injRec 3 = some injector3 ∧ 0 < injector3.shot := by decide +kernel
theorem witness_encoding :
    Instr.wf (.tableWriteArm 1 (some (2, armWrite))) = true ∧ (encodeFrame (.tableWriteArm 1 (some (2, armWrite)))).isSome ∧
    Instr.wf (.tableWriteProduct 1 (some (15, productWrite))) = true ∧
    (encodeFrame (.tableWriteProduct 1 (some (15, productWrite)))).isSome = true := by decide +kernel

/-! ### Witnesses: records refused -/

/-- The ends of a field's range and the numbers beyond them. -/
theorem witness_field_ranges :
    (outside 1 4294967295 none ∧ outside 1 4294967295 (some 0) ∧ outside 1 4294967295 (some 4294967296)) ∧
    (¬ outside 1 4294967295 (some 1) ∧ ¬ outside 1 4294967295 (some 4294967295)) ∧
    (¬ strays 1 25 none ∧ strays 1 25 (some 0) ∧ strays 1 25 (some 26)) ∧ ¬ strays 1 25 (some 1) ∧ ¬ strays 1 25 (some 25) := by
  simp
theorem witness_record_bad_field :
    State.reset.quiet = true ∧ (16#8 : Byte).toNat = 16 ∧
    (List.replicate 15 (0 : Int)).length ≠ 16 ∧ (∃ x ∈ List.replicate 16 (100000000 : Int), x < -99999999 ∨ 99999999 < x) ∧
    (∃ x ∈ List.replicate 16 (-100000000 : Int), x < -99999999 ∨ 99999999 < x) ∧
    ((7001 : Int) < -4000 ∨ (7000 : Int) < 7001) ∧ 2 < (List.replicate 3 (RecipeLine.mk 1 1 .flag)).length ∧
    ¬ ([RecipeLine.mk 1 1 .flag, ⟨1, 2, .stop⟩].map RecipeLine.code).Nodup ∧
    (dosing .available id).quiet = true ∧
    (∃ x : Chan, x ≠ 15 ∧ ∃ j ∈ (dosing .available id).dev.injRec x, (some 20 : Option Nat) = some j.station.val) := by
  decide +kernel
/-- `n` arms from arm 3 on, of bay 0, with stations of their own from 16 on, two of them mapping channel 3. -/
def arms (n : Nat) : State := made fun d =>
  (List.range n).foldl (fun d i => d.setArmRec (Fin.ofNat 12 (3 + i))
    (some { armRecord with
      meter := Fin.ofNat 32 (16 + 2 * i), valve := Fin.ofNat 32 (17 + 2 * i), temp := if i = 0 then 1 else 0
      additiveMap := if i < 2 then [(41, 3)] else [] })) d
theorem witness_arm_bad_field_or_full :
    readArm { armWrite with bay := some 4 } = none ∧ readArm { armWrite with temp := some 13 } = none ∧
    readArm { armWrite with curve := some [⟨2800, 100140⟩, ⟨2800, 100160⟩] } = none ∧
    readArm { armWrite with additiveMap := some [⟨41, 3⟩, ⟨41, 4⟩] } = none ∧
    (∀ n, n ∈ [1, 4] → (arms n).quiet = true ∧
      (∃ o ∈ (arms n).dev.otherArms 2, ({ armRecord with meter := 17 } : ArmRecord).clashes o = true) ∧
      (∃ o ∈ (arms n).dev.otherArms 2, ({ armRecord with valve := 1 } : ArmRecord).clashes o = true) ∧
      ∀ o ∈ (arms n).dev.otherArms 2, ({ armRecord with temp := 1 } : ArmRecord).clashes o = false ∧ armRecord.clashes o = false) ∧
    armFull { armRecord with additiveMap := [] } ((arms 4).dev.otherArms 2) = true ∧
    armFull { armRecord with additiveMap := [] } ((arms 3).dev.otherArms 2) = false ∧
    armFull { armRecord with bay := 1 } ((arms 2).dev.otherArms 2) = true ∧
    armFull { armRecord with bay := 1 } ((arms 1).dev.otherArms 2) = false ∧
    (State.reset.dev.armRec 2).map ArmRecord.closeAhead ≠ some armRecord.closeAhead ∧
    (State.reset.dev.armRec 2).map ArmRecord.valve ≠ some armRecord.valve := by decide +kernel
theorem witness_bay_bad_field :
    readBay ⟨some 0, some (.station 10), some (.line 6)⟩ = none ∧ readBay ⟨some 32, some (.station 10), some (.line 6)⟩ = none ∧
    readBay ⟨some 31, some (.station 0), some (.line 6)⟩ = none ∧ readBay ⟨some 31, some (.line 16), some (.line 6)⟩ = none ∧
    readBay ⟨some 31, some (.line 15), some (.line 6)⟩ = some ⟨31, .line 15, .line 6⟩ ∧
    (bayIn .closed id).quiet = true ∧ (bayIn .closed id).dev.bayTaken 1 bayRecord = true ∧
    (bayIn .closed id).dev.bayTaken 0 bayRecord = false ∧ (bayIn .closed id).dev.bayTaken 1 ⟨31, .line 15, .line 6⟩ = true ∧
    (bayIn .closed id).dev.bayTaken 1 ⟨31, .line 15, .line 5⟩ = false := by decide +kernel
theorem witness_station_bad_field :
    State.reset.quiet = true ∧ readStation ⟨none, some 0, some 0⟩ = none ∧ readStation ⟨some .meter, some 4, some 0⟩ = none ∧
    readStation ⟨some .meter, some 3, some 12⟩ = none ∧ readStation ⟨some .injector, some 4, some 15⟩ = none ∧
    readStation ⟨some .injector, some 3, some 16⟩ = none ∧ readStation ⟨some .panel, none, some 0⟩ = none ∧
    readStation ⟨some .injector, some 3, some 15⟩ = some ⟨.injector, none, some 15⟩ ∧
    readStation ⟨some .permit, some 3, some 200⟩ = some ⟨.permit, some 3, none⟩ := by decide +kernel
theorem witness_order_bad_field :
    State.reset.quiet = true ∧ readLine ⟨some 0, some 7, some 600, none, none⟩ = none ∧
    readLine ⟨some 8, some 7, some 40001, none, none⟩ = none ∧ readLine ⟨some 8, some 7, some 600, none, some 599⟩ = none ∧
    (readLine ⟨some 8, some 7, some 600, none, some 600⟩).isSome = true ∧
    8 < (List.replicate 9 (LineWrite.mk none none none none none)).length ∧
    ¬ ([LineWrite.mk (some 1) (some 7) (some 1) none none, ⟨some 1, some 12, some 1, none, none⟩].map
      LineWrite.compartment).Nodup := by decide +kernel
theorem witness_table_reads :
    (armThere.dev.armRec 2 = some armRecord ∧ armThere.quiet = true) ∧
    ((loading .full).dev.product 0 = some product7 ∧ (loading .full).dev.bayRec 0 = some bayRecord ∧
      (loading .full).quiet = true) ∧
    (dosing .available id).dev.injRec 3 = some injector3 ∧ Sparse.get 255 full48.dev.accounts = some account880 ∧
    ((looping none).quiet = true ∧ ((looping none).dev.station 31).entry = some ⟨.meter, some 0, some 2⟩) ∧
    (State.reset.quiet = true ∧ State.reset.dev.armRec 11 = none ∧ State.reset.dev.product 15 = none ∧
      State.reset.dev.injRec 15 = none ∧ State.reset.dev.bayRec 3 = none ∧ Sparse.get 1023 State.reset.dev.permits = none ∧
      Sparse.get 255 State.reset.dev.accounts = none ∧ (State.reset.dev.station 31).entry = none) ∧
    (full48.dev.orders.length ≤ 48 ∧ State.reset.dev.orders.length ≤ 47) := by decide +kernel
/-- R98: the 48th place of a full queue, and the place after it. -/
theorem test_order_queue_ends :
    ((after (.tableReadOrderQueue 1 (some 47)) full48).mp.answers.map Answer.status) = [.ok] ∧
    ((after (.tableReadOrderQueue 1 (some 48)) full48).mp.answers.map Answer.status) = [.badIndex] ∧
    ((after (.tableReadOrderQueue 1 (some 47)) State.reset).mp.answers.map Answer.status) = [.notFound] := by decide +kernel

/-! ### Witnesses: holds, releases and loads closed -/

/-- Bay 0 with this state before a hold of its own or of the rack, its order line ENDED or not, arm 2 with this batch. -/
def heldFrom (st : BayState) (rack ended : Bool) (b : Option Batch) (f : Bay → Bay) : State :=
  let s := onBay0 st .loading (if ended then .ended else .opened) b fun r =>
    f { r with before := some .loading, holdBay := !rack, holdRack := rack }
  ⟨if rack then s.dev.onLu fun u => { u with mgmtHold := true, holdSource := true } else s.dev, []⟩
/-- The causes and the lockout that keep a bay from LOADING. -/
def overfilled (lockout : Bool) (r : Bay) : Bay := { r with causes := ⟨false, !lockout, false, false, false⟩, lockout := lockout }
theorem witness_held_from_loading :
    (∀ rack, (heldFrom .held rack false none id).quiet = true ∧ (heldFrom .held rack true none id).quiet = true ∧
      (heldFrom .holding rack false none id).quiet = true ∧ (heldFrom .holding rack true none id).quiet = true ∧
      (heldFrom .holding rack true none id).dev.noBatch 0 = true ∧
      (heldFrom .held rack false none id).dev.orderOf 0 = some (order .loading .opened) ∧
      (heldFrom .held rack true none id).dev.orderOf 0 = some (order .loading .ended) ∧
      ((heldFrom .held rack false none id).dev.bay 0).causes = CauseSet.empty ∧
      (∀ y, y ≠ (0 : BayId) → ((heldFrom .held rack false none id).dev.bay y).order ≠ some 5510) ∧
      ∀ l, (heldFrom .held rack false none (overfilled l)).quiet = true ∧
        ((heldFrom .held rack false none (overfilled l)).dev.bay 0).lockout = l ∧
        (l = false → ((heldFrom .held rack false none (overfilled l)).dev.bay 0).causes ≠ CauseSet.empty)) ∧
    ((heldFrom .held true false none id).dev.anyActive .holdIn = false) := by decide +kernel
/-- The rack hold source that a HOLD_IN line keeps, with the management hold set or clear. -/
def holdIn (mgmt : Bool) : State :=
  wired ⟨(rackHeld fun r => { r with before := some .idle }).dev.onLu fun u => { u with mgmtHold := mgmt }, []⟩ .holdIn .high
theorem witness_hold_in :
    ∀ m, (holdIn m).quiet = true ∧ (holdIn m).dev.lu.mgmtHold = m ∧ (holdIn m).dev.lu.holdSource = true ∧
      (holdIn m).dev.anyActive .holdIn = true := by decide +kernel
/-- The part with every valve of bay 0 CLOSED. -/
def seated (s : State) : State := ⟨s.dev.onArm 2 fun c => { c with position := .closed, travel := none }, []⟩
theorem witness_bay_hold_elsewhere :
    authorized.quiet = true ∧ (authorized.dev.bay 0).authTimer = .running 1 ∧
    (seated (loading .full)).quiet = true ∧ (∀ a ∈ (seated (loading .full)).dev.armsOf 0, ((seated (loading .full)).dev.arm a).position = .closed) ∧
    (∀ st ∈ [BayState.closed, .idle, .authorized, .loading, .holding, .held, .tripped, .closing, .noteCommit], ∀ h,
      (onBay0 st .loading .opened (some (batch .interrupted)) fun r => { r with holdBay := h }).quiet = true) ∧
    (∀ h, (bayIn .held fun r => { r with before := some .idle, holdRack := true, holdBay := h }).quiet = true) ∧
    heldAuthorized.quiet = true ∧ (heldAuthorized.dev.bay 0).before = some .authorized := by decide +kernel
/-- A bay HELD from IDLE whose latched swipe passes every test, or is refused by an UNSET clock. -/
def heldSwipe (pass : Bool) : State :=
  ⟨(if pass then swiping else (bayIn .idle id).dev).onBay 0 fun r =>
    { r with state := .held, before := some .idle, holdBay := true, swipe := some 77 }, []⟩
theorem witness_latched_swipe :
    (∀ p, (heldSwipe p).quiet = true ∧ ((heldSwipe p).dev.bay 0).swipe = some 77 ∧ ((heldSwipe p).dev.bay 0).before = some .idle) ∧
    (heldSwipe false).dev.evaluateSwipe 0 77 = .refused .noClock ∧
    (heldSwipe true).dev.evaluateSwipe 0 77 =
      .assigned ⟨5510, 0, 77, some 65535, [orderLine .notBatched], .queued, none⟩ permit77 := by decide +kernel
/-- A load of bay 0 with a batch of arm 2 in this phase and a shot of it in flight or none. -/
def closing (st : BayState) (p : Phase) (shot lockout : Bool) : State :=
  ⟨((onBay0 st .loading .opened (some (batch p)) fun r => { r with before := some .loading, lockout := lockout }).dev.onInj 3
    fun i => { i with inFlight := if shot then [⟨255, ⟨2, 0, 0⟩, 0⟩] else [] }), []⟩
theorem witness_load_closes :
    (∀ p, p ∈ [Phase.full, .closeWait, .interrupted] → ∀ x,
      (closing .loading p x false).quiet = true ∧ (closing .holding p x false).quiet = true ∧
      (closing .held p x false).quiet = true ∧ (closing .tripped p x false).quiet = true ∧ (closing .tripped p x true).quiet = true ∧
      2 ∈ (closing .loading p x false).dev.armsOf 0 ∧ ((closing .loading p x false).dev.arm 2).batch = some (batch p) ∧
      (closing .loading p x false).dev.outstandingShots 0 = (if x then 1 else 0)) ∧
    (batch .full).phase.flowing = true := by decide +kernel
/-- R82, R83: the load closes into NOTE_COMMIT, or into CLOSING while a shot is in flight. -/
theorem test_load_closes :
    ((after (.tripClear 1 (some 0)) (closing .tripped .interrupted false true)).bay 0).state = .noteCommit ∧
    ((after (.tripClear 1 (some 0)) (closing .tripped .interrupted true true)).bay 0).state = .closing := by decide +kernel

/-! ### Witnesses: the restart's last write -/

/-- A RESTART draining, with the post of arm 2 or the release of slot 127 as the last write, at this attempt. -/
def restarting (post : Bool) (attempt : Nat) : State := made fun d =>
  (d.setBoot (.draining 9)).onCw fun c =>
    if post then { c with queue := [⟨0, .post ⟨2, ⟨10, 9⟩, false⟩, true⟩], nextId := 1, write := some ⟨.post 0, attempt⟩ }
    else { c with releases := [127], write := some ⟨.release 127, attempt⟩ }
theorem witness_restart_drained :
    (∀ p, ∀ n ∈ [1, 2], (restarting p n).dev.boot = .draining 9 ∧
      (∀ b, ((restarting p n).dev.bay b).state = .closed ∨ ((restarting p n).dev.bay b).state = .idle)) ∧
    (restarting true 2).dev.cw.write = some ⟨.post 0, 2⟩ ∧
    (restarting true 2).dev.cw.queue = [⟨0, .post ⟨2, ⟨10, 9⟩, false⟩, true⟩] ∧ (restarting true 2).dev.cw.releases = [] ∧
    (restarting false 1).dev.cw.write = some ⟨.release 127, 1⟩ ∧ (restarting false 1).dev.cw.releases = [127] ∧
    (restarting false 1).dev.cw.queue = [] ∧ (restarting false 1).dev.firstStalled = none ∧
    takenNumber State.reset.dev.custody = State.reset.dev.custody.next.value := by decide +kernel
/-- R124, R181: the part runs again, the post in custody memory, no answer made. -/
theorem test_restart_drained :
    (after (.custodyWriteComplete true) (restarting true 1)).boot = .ready ∧
    ((after (.custodyWriteComplete true) (restarting true 1)).meter 2).mirror = ⟨10, 9⟩ ∧
    (after (.custodyWriteComplete true) (restarting true 1)).mp.answers = [] := by decide +kernel

/-! ### Witnesses: the order of a swipe's refusals -/

/-- The passing swipe with its permit, its order and its account changed. -/
def swipeWith (p : Permit → Permit) (o : Order → Order) (x : Account → Account) : Device :=
  { swiping with
    permits := [(1023, p permit77)], accounts := [(0, x account880)]
    orders := [o ⟨5510, 0, 77, some 65535, [orderLine .notBatched], .queued, none⟩] }
theorem witness_swipe_refused :
    (swiping.onLu fun u => { u with esd := true }).evaluateSwipe 0 77 = .refused .rackEsd ∧
    swiping.evaluateSwipe 0 0 = .refused .noPermit ∧ (∀ e ∈ swiping.permits, e.2.credential ≠ 78) ∧
    (swipeWith (fun p => { p with state := .suspended }) id id).evaluateSwipe 0 77 = .refused .suspended ∧
    (swipeWith (fun p => { p with expiry := 65534 }) id id).evaluateSwipe 0 77 = .refused .expired ∧
    (swipeWith (fun p => { p with bays := 0xE }) id id).evaluateSwipe 0 77 = .refused .bayBarred ∧
    (swipeWith id (fun o => { o with expiry := some 65534 }) id).evaluateSwipe 0 77 = .refused .noOrder ∧
    ((swipeWith (fun p => { p with classes := 0 }) id id).setProduct 0 (some { product7 with classes := 1 })).evaluateSwipe 0 77 =
      .refused .class ∧
    (swipeWith id id fun x => { x with state := .stopped }).evaluateSwipe 0 77 = .refused .accountStopped ∧
    (swipeWith id id fun x => { x with remaining := Vector.replicate 16 4999 }).evaluateSwipe 0 77 = .refused .allocation ∧
    (swiping.onNu fun n => { n with dir := Vector.replicate 128 .bad }).evaluateSwipe 0 77 = .refused .noteStoreFull := by
  decide +kernel
/-- Two orders for the driver and one open to any: the oldest for the driver, which is not the oldest of all. -/
def threeOrders : List Order :=
  [⟨1, 0, 0, none, [orderLine .notBatched], .queued, none⟩, ⟨2, 0, 77, some 100, [orderLine .notBatched], .queued, none⟩,
    ⟨3, 0, 77, none, [orderLine .notBatched], .queued, none⟩]
theorem witness_oldest_order :
    Device.oldest { swiping with orders := threeOrders } 0 77 ⟨3, 0, 77, none, [orderLine .notBatched], .queued, none⟩ ∧
    Device.oldest { swiping with orders := threeOrders } 0 0 ⟨1, 0, 0, none, [orderLine .notBatched], .queued, none⟩ ∧
    (∀ o ∈ threeOrders.take 2, ¬ Device.fits { swiping with orders := threeOrders } 0 77 o) ∧
    (swiping.permits = [(1023, permit77)] ∧ ∀ e ∈ swiping.permits, e.2.credential = 77 → e.2 = permit77) := by
  refine ⟨⟨?_, threeOrders.take 2, [], rfl, ?_⟩, ⟨?_, [], threeOrders.tail, rfl, ?_⟩, ?_, by decide +kernel⟩ <;>
    unfold Device.fits <;> decide +kernel

/-! ### Witnesses: START's reasons, samples, shots and offers -/

theorem witness_start_reasons :
    (starting .authorized none).newRefusal 0 2 = none ∧ authorized.dev.newRefusal 0 2 = some .armNotReady ∧
    (active (dosing .available id).dev 20 ⟨.injector, none, some 3⟩).servedBy 2 41 = some 3 ∧
    (dosing .fault id).dev.servedBy 2 41 = none := by decide +kernel
/-- A sample of the worked arm with its TEMP station in this state, with a product of this alpha or none. -/
def tempered (st : StationState) (alpha : Option Nat) (t : Int) : Device :=
  ((worked.onStation 6 fun n => { n with state := st }).onMeter 2 fun m => { m with heldTemp := t }).setProduct 0
    (alpha.map fun x => { product7 with alpha := x })
theorem witness_sample_temperature :
    (∀ st ∈ [StationState.active, .slipped, .silent], ((tempered st (some 1200) 2840).station 6).state = st ∧
      ((tempered st (some 1200) 2840).station 6).isKind .temp = true ∧
      ((tempered st (some 1200) 2840).station 6).faulty = false ∧ ((tempered st (some 1200) 2840).meter 2).heldValid = true) ∧
    workedRecord.temp = 6 ∧ (tempered .active none 2840).productOf 7 = none ∧
    (tempered .active (some 1500) 7000).productOf 7 = some (0, { product7 with alpha := 1500 }) ∧
    1000000 - roundHalfAway (1500 * (7000 - 1500)) 100 +
      ((roundHalfUp ((roundHalfAway (1500 * (7000 - 1500)) 100).natAbs * (roundHalfAway (1500 * (7000 - 1500)) 100).natAbs)
        2000000 : Nat) : Int) < 950000 ∧
    max 2 (0 / 1000) < ((0 : Int) - (3 : Int)).natAbs ∧ ¬ max 2 (0 / 1000) < ((0 : Int) - (2 : Int)).natAbs := by decide +kernel
/-- R14, R15: LIVE, HELD and FALLBACK, and a factor at its lower limit. -/
theorem test_sample_temperature :
    ((tempered .active (some 1500) 7000).increment 2 workedRecord 20 20 3000).vcf = 950000 ∧
    ((tempered .slipped (some 1200) 2840).increment 2 workedRecord 20 20 3000).source = .held ∧
    ((tempered .silent (some 1200) 2840).increment 2 workedRecord 20 20 3000).temp = 1500 ∧
    ((tempered .silent none 2840).increment 2 workedRecord 20 20 3000).vcf = 1000000 := by decide +kernel
/-- A load whose one dosing record is changed, its injector in this state. -/
def due (st : InjectorState) (f : Dosing → Dosing) : Device := (dosing st id).dev.onDose ⟨2, 0, 0⟩ f
theorem witness_shot_due :
    (due .available fun x => { x with closeMark := true }).dose ⟨2, 0, 0⟩ = some { dosed with closeMark := true } ∧
    ((due .fault id).inj 3).state = .fault ∧ (due .fault id).dose ⟨2, 0, 0⟩ = some dosed ∧
    ((due .available id).onLu fun u => { u with powerfail := true }).lu.powerfail = true ∧
    (due .available fun x => { x with pending := 2 }).dose ⟨2, 0, 0⟩ = some { dosed with pending := 2 } ∧
    dosed.pending = 1 ∧ dosed.closeMark = false ∧ ((due .available id).inj 3).state ≠ .fault ∧
    (due .available id).lu.esd = false ∧ (due .available id).lu.powerfail = false ∧
    dosed.winCount + 1 < injector3.window ∧
    (due .fault fun x => { x with winCount := 7 }).dose ⟨2, 0, 0⟩ = some { dosed with winCount := 7 } ∧
    injector3.window ≤ 7 + 1 := by decide +kernel
/-- A window of 8 shots of 50 mL at 5 %: 420 mL passes, a microlitre more fails, for a STOP line and a FLAG line. -/
theorem witness_window :
    (∀ v ∈ [420000, 420001], ∀ a ∈ [FaultAction.stop, .flag], ∀ x : Dosing, x = { dosed with winCount := 8, winVol := v, action := a } →
      (due .available fun _ => x).dose ⟨2, 0, 0⟩ = some x ∧ (due .available fun _ => x).refOpen ⟨2, 0, 0⟩ = true) ∧
    (due .available id).injRec 3 = some injector3 ∧ injector3.window ≤ 8 ∧ ¬ injector3.window ≤ 7 ∧
    ¬ injector3.tolerance * (injector3.window * injector3.shot * 100) <
      (((420000 : Nat) : Int) - ((injector3.window * injector3.shot * 100 : Nat) : Int)).natAbs * 100 ∧
    injector3.tolerance * (injector3.window * injector3.shot * 100) <
      (((420001 : Nat) : Int) - ((injector3.window * injector3.shot * 100 : Nat) : Int)).natAbs * 100 := by
  refine ⟨fun v hv a ha x hx => ?_, by decide +kernel⟩
  subst hx
  revert a v
  decide +kernel
/-- R46, R57: a due shot throttles at the second pending one; a failed STOP window stops the batch. -/
theorem test_shot_due_and_window :
    (((due .available id).shotDue ⟨2, 0, 0⟩ 3).doseBatch ⟨2, 0, 0⟩).map Batch.throttle = some true ∧
    (((due .available fun x => { x with winCount := 8, winVol := 420001, action := .stop }).checkWindow ⟨2, 0, 0⟩).arm 2).batch.map
      Batch.phase = some .closeWait := by decide +kernel
/-- Bay 0 CLOSING with arm 2's batch open, in CLOSE_WAIT with its close mark set, and an ended batch of arm 3 whose record
injector 3's loss left one shot pending on. -/
def endedPending (open' : Bool) : Device :=
  let t := { batch .ended with arm := 3, line := 1, closing := some ⟨0, 0⟩, endStatus := some .short, dosing := [dosed] }
  let d := (onBay0 .closing .loading .ended
    (if open' then some { batch .closeWait with dosing := [{ dosed with closeMark := true }] } else none)
    fun r => { r with ended := [t] }).dev.setInjRec 3 (some injector3)
  active (d.onInj 3 fun i => { i with state := .available, view := some ⟨true, true⟩ }) 20 ⟨.injector, none, some 3⟩
theorem witness_ended_record_offered :
    (endedPending true).eligible 3 = [⟨3, 1, 0⟩] ∧ (endedPending true).dose ⟨3, 1, 0⟩ = some dosed ∧
    (endedPending true).mayOffer 3 injector3 = true ∧ ((endedPending true).inj 3).offer = none ∧
    (endedPending true).bayRests 0 = true := by decide +kernel
/-- R43, R49: the ended batch's shot is offered while its bay waits for arm 2. R61, R131: at the commit it is cancelled. -/
theorem test_ended_record :
    (((endedPending true).offerShot 3).inj 3).offer = some ⟨1, ⟨3, 1, 0⟩, false, .stays⟩ ∧
    ((((endedPending false).closingTest 0).bay 0).ended.map fun t => t.dosing.map fun x => (x.pending, x.cancelled)) =
      [[(0, 1)]] := by decide +kernel
theorem witness_completion_window :
    dosed.winCount + 1 < injector3.window ∧ (offered .stays false).dose shot255.ref = some dosed := by decide +kernel

/-! ### Witnesses: stops, expiries, lists and notes -/

/-- A flowing batch of arm 2 with `n` shots pending on injector 3, one of them on offer or none. -/
def stopping (n : Nat) (offer : Bool) : Device :=
  (dosing .available fun i => { i with offer := if offer then some ⟨7, ⟨2, 0, 0⟩, false, .stays⟩ else none }).dev.onDose
    ⟨2, 0, 0⟩ fun x => { x with pending := n }
theorem witness_stop_pending :
    ∀ n ∈ [0, 1, 2], ∀ v, ((stopping n v).bay 0).state = .loading ∧ (stopping n v).bayOfArm 2 = some 0 ∧
      ((stopping n v).arm 2).batch = some { batch .full with dosing := [{ dosed with pending := n }] } ∧
      (stopping n v).dose ⟨2, 0, 0⟩ = some { dosed with pending := n } ∧ dosed.injector = some 3 ∧
      ((stopping n v).inj 3).offers ⟨2, 0, 0⟩ = v ∧ ∀ c, c ≠ 3 → ((stopping n v).inj c).offers ⟨2, 0, 0⟩ = false := by
  decide +kernel
/-- R58: of two pending shots a STOP cancels both, or the one that is not on offer. -/
theorem test_stop_pending :
    (((stopping 2 false).stopBid 0 2).dose ⟨2, 0, 0⟩).map (fun x => (x.pending, x.cancelled)) = some (0, 2) ∧
    (((stopping 2 true).stopBid 0 2).dose ⟨2, 0, 0⟩).map (fun x => (x.pending, x.cancelled)) = some (1, 1) := by
  decide +kernel
/-- R71, R135: an authorization that times out while a commit is stalled gives it the slot, and CW its body write. -/
theorem witness_authorization_expiry_stalled :
    stalled.dev.settled = true ∧ (stalled.dev.bay 0).state = .authorized ∧ (stalled.dev.bay 0).authTimer = .running 1 ∧
    stalled.dev.firstStalled = some 1 ∧
    ((after (.authorizationTimerExpiry 0) stalled).slot 0 = .reserved 1 false ∧
      (after (.authorizationTimerExpiry 0) stalled).cw.write.isSome = true) := by decide +kernel
/-- Bay 0 TRIPPED, its resume timer at 0, with a batch of arm 2 in this phase and a shot of it in flight or none. -/
def resumeDue (p : Phase) (shot : Bool) : State :=
  ⟨(closing .tripped p shot false).dev.onBay 0 fun r => { r with resumeTimer := some 0 }, []⟩
theorem witness_resume_expiry_closes :
    ∀ p ∈ [Phase.start, .full, .taper, .closeWait, .interrupted], ∀ x,
      (resumeDue p x).dev.settled = true ∧ ((resumeDue p x).dev.bay 0).state = .tripped ∧
      ((resumeDue p x).dev.bay 0).resumeTimer = some 0 ∧ 2 ∈ (resumeDue p x).dev.armsOf 0 ∧
      ((resumeDue p x).dev.arm 2).batch = some (batch p) ∧ (resumeDue p x).dev.outstandingShots 0 = (if x then 1 else 0) := by
  decide +kernel
/-- R75, R82, R83: the expiry ends at NOTE_COMMIT, or in CLOSING with a shot in flight or a batch still open. -/
theorem test_resume_expiry_closes :
    ((after (.resumeTimerExpiry 0) (resumeDue .interrupted false)).bay 0).state = .noteCommit ∧
    ((after (.resumeTimerExpiry 0) (resumeDue .interrupted true)).bay 0).state = .closing ∧
    ((after (.resumeTimerExpiry 0) (resumeDue .full false)).bay 0).state = .closing := by decide +kernel
theorem witness_status_lists :
    (State.reset.dev.station 31).entry = none ∧ (∃ e ∈ ((looping none).dev.station 31).entry, e.kind = .meter) ∧
    State.reset.dev.injRec 15 = none ∧ (dosing .fault id).dev.injRec 3 = some injector3 ∧
    (loading .full).dev.slot 0 = .reserved 0 false ∧ (∀ k, State.reset.dev.slot k = .free) ∧
    (retained false false).dev.slot 127 = .retained 7 false ∧ stalled.dev.firstStalled = some 1 ∧
    State.reset.dev.cw.write = none ∧ working.dev.cw.write = some ⟨.post 0, 1⟩ ∧
    (∃ e ∈ working.dev.cw.entry 0, e.id = 0 ∧ e.isPost = true) ∧
    (marking false).dev.cw.write = some ⟨.barrier 0 .mark, 1⟩ ∧
    (∃ e ∈ (marking false).dev.cw.entry 0, e.id = 0 ∧ e.isPost = false) ∧
    (releasing 1 false).dev.cw.write = some ⟨.release 127, 1⟩ ∧ (scanning 1).dev.cw.write = some ⟨.nextNumber 6, 1⟩ := by
  decide +kernel
/-- R62, R185: the 4000 ms a shot has left at its issue, and 0 with no record, in two octets. -/
theorem test_shot_time_left :
    shotItem { (dosing .available id).dev with now := 5 } 3 ⟨7, ⟨2, 0, 1⟩, 5⟩ = [7#8, 2#8, 1#8, 0x0F#8, 0xA0#8] ∧
    shotItem State.reset.dev 3 ⟨7, ⟨2, 0, 1⟩, 0⟩ = [7#8, 2#8, 1#8, 0#8, 0#8] := by decide +kernel
/-- Section 7.9: bay 0 as its load closes, with its order, its account and its three ended batches. -/
def note79 : Device :=
  let line := fun (k c p : Nat) (b : Basis) (x : LineBatch) => (⟨c, p, k, some b, none, x, none⟩ : OrderLine)
  let sub := fun (d r n m : Nat) => (⟨true, 0, 41, 400, .flag, some 3, 0, 0, false, 0, 0, n, m, 0, d, some r⟩ : Dosing)
  let run := fun (a : ArmId) (k c p l g n : Nat) (b : Basis) (s : Int) (o : Vol) (t u : Nat) (e : EndStatus) (d : List Dosing) =>
    (⟨a, k, c, p, l, b, 0, 400, 20, .ended, ⟨g, n⟩, none, s, o, some ⟨o.gross + g, o.net + n⟩, ⟨20415, t⟩, some ⟨20415, u⟩,
      .none, 0, 0, false, some e, d⟩ : Batch)
  let d := (State.reset.dev.setProduct 0 (some product7)).onBay 0 fun r => { r with
    state := .closing, order := some 7301, seen := ⟨true, false, false, false, false⟩
    ended := [
      run 0 0 1 7 8000 8046213450 8000402117 .net 17198658142650 ⟨1402117300400, 1378004560210⟩ 30120 30812 .complete
        [sub 3110500 3218485 63 1],
      run 1 1 2 12 6000 6000512300 5941207880 .gross 17698511028850 ⟨966400002500, 957331870040⟩ 30180 30905 .complete [],
      run 0 3 4 7 3000 0 0 .net 0 ⟨1410163513850, 1386004962327⟩ 30850 30990 .short [sub 0 0 0 0]] }
  { d with
    mp := { d.mp with clock := some ⟨20415, 30990⟩ }
    accounts := [(22, { account880 with number := 512006 })]
    orders := [⟨7301, 22, 0, none, [line 8000 1 7 .net .ended, line 6000 2 12 .gross .ended, line 2500 3 12 .gross .notBatched,
      line 3000 4 7 .net .ended], .loading, some ⟨0, 0x0027F3D1, 31880⟩⟩] }.setSlot 45 (.reserved 0 false)
theorem witness_note_image :
    (∃ o ∈ note79.orderOf 0, o.number = 7301 ∧ o.account = 22) ∧ note79.reservedSlot 0 = some 45 ∧
    (note79.bay 0).ended.length = 3 := by decide +kernel
/-- Table 7-5: the header's order, account, driver, times and the line not loaded. -/
theorem test_note_header :
    ∃ i ∈ ((note79.commitNote 0).noteBay 0).held, i.order = 7301 ∧ i.accountNumber = 512006 ∧ i.credential = 0x0027F3D1 ∧
      i.driver = 31880 ∧ i.startTime = ⟨20415, 30120⟩ ∧ i.endTime = ⟨20415, 30990⟩ ∧ i.notLoaded = [⟨2, 3, 12, 2500⟩] ∧
      i.lines.map NoteLine.compartment = [1, 2, 4] := by decide +kernel
/-- Table 7-5: the figures of the three lines. -/
theorem test_note_lines :
    ∃ i ∈ ((note79.commitNote 0).noteBay 0).held, i.lines.map NoteLine.grossDl = [80462, 60005, 0] ∧
      i.lines.map NoteLine.netDl = [80004, 59412, 0] ∧ i.lines.map NoteLine.avgTemp = [2137, 2950, 1500] ∧
      i.lines.map NoteLine.avgVcf = [994306, 990117, 1000000] := by decide +kernel
/-- The worked note as slot 45 holds it once its body has been written under number 3112. -/
def slot79 : Option (NoteImage × SlotMem) :=
  ((note79.commitNote 0).noteBay 0).held.map fun i => (i, ⟨i.body 3112, 0, none, false, 0⟩)
theorem witness_note_reads_back :
    ∃ x ∈ slot79, x.2.body = (x.1.elements 3112).flatten ∧ x.1.lines.length ≤ 8 ∧ x.1.notLoaded.length ≤ 7 ∧
      ∀ l ∈ x.1.lines, l.subs.length ≤ 2 := by decide +kernel
/-- Section 11.6: the worked note's elements of 40, 75, 75, 75, 27 and 27 octets. -/
theorem test_note_reads_back :
    slot79.map (fun x => (noteBodies 45 x.2).map List.length) = some [40, 75, 75, 75, 27, 27] := by decide +kernel
/-- R186: an arm's eleven items of Table 1-3, eleven of R42 and two of section 6.2, the fifth the current temperature 1500; the
rack's twelve of MP, six of LM, seven of CW, five of NU and, with no PERMIT station, 5 + 16 × 7 + 4 of LU. -/
theorem test_arm_list :
    (statusItems State.reset.dev .arm 0).map List.length = some 24 ∧
    (statusItems State.reset.dev .arm 0).bind (fun l => l[4]?) = some [0x05#8, 0xDC#8] ∧
    (statusItems State.reset.dev .rack 0).map List.length = some 151 := by decide +kernel

/-! ### Witnesses: lines bound, travel faults by bay state, words in force, and the sweep a RESTART waits for -/

/-- R161, Tables 9-1 and 9-3: GROUND_IN takes bay 3 and not bay 4, an absent level is HIGH, and functions keep to their
modes. -/
theorem test_line_records :
    readLineRec ⟨some .input, some (.groundIn 3), none⟩ = some (.input, .groundIn 3, .high) ∧
    readLineRec ⟨some .input, some (.groundIn 4), none⟩ = none ∧ readLineRec ⟨some .input, some .powerfailIn, none⟩ = none ∧
    readLineRec ⟨some .outputOpen, some .holdIn, none⟩ = none ∧ readLineRec ⟨some .input, some .faultOut, none⟩ = none ∧
    readLineRec ⟨none, some .general, none⟩ = none := by decide +kernel
theorem witness_rebind :
    (∀ s ∈ [fromLine (.groundIn 0) .high, wired (bayIn .idle id) .general .high, wired (loading .full) .general .high],
      s.quiet = true ∧ (s.dev.line 15).bound = false ∧ s.dev.lu.esd = false ∧ s.dev.lu.powerfail = false) ∧
    ((fromLine (.groundIn 0) .high).dev.bay 0).ground = true ∧ ((fromLine (.groundIn 0) .high).dev.bay 0).causes.ground = false ∧
    (∀ b, ((bayIn .idle id).dev.bay b).ground = (bayIn .idle id).dev.groundNow b ∧
      ((bayIn .idle id).dev.bay b).overfill = (bayIn .idle id).dev.overfillNow b) := by decide +kernel
/-- R161, R166, R170, R167: a line that gave the ground permissive rebound GENERAL trips the bay; one bound HOLD_IN or ESD_IN
while active sets the hold source or the latch. -/
theorem test_rebind :
    ((after (.lineSet 1 (some (15, ⟨some .input, some .general, none⟩))) (fromLine (.groundIn 0) .high)).bay 0).state =
      .tripped ∧
    ((after (.lineSet 1 (some (15, ⟨some .input, some .holdIn, none⟩))) (wired (bayIn .idle id) .general .high)).bay 0).state =
      .held ∧
    ((after (.lineSet 1 (some (15, ⟨some .inputDebounced, some .esdIn, none⟩))) (wired (loading .full) .general .high)).bay
      0).causes.esd = true := by decide +kernel

/-- Bay 0 in this state, HELD from LOADING or IDLE, with a batch of arm 2 and its travel timer running. -/
def travelling (st : BayState) (p : Phase) (x : BeforeHold) : State :=
  onBay0 st .loading .opened (some (batch p)) fun r => { r with before := some x }
theorem witness_travel_by_state :
    (∀ st ∈ [BayState.closed, .idle, .authorized, .loading, .holding, .held, .tripped, .closing, .noteCommit],
      (travelling st .closeWait .loading).dev.settled = true ∧ (travelling st .closeWait .loading).dev.effectiveStage 2 = .closed) ∧
    (onBay0 .tripped .loading .opened none id).dev.settled = true ∧ ((onBay0 .tripped .loading .opened none id).dev.arm 2).batch = none ∧
    (travelling .tripped .interrupted .loading).dev.settled = true ∧ (travelling .held .closeWait .idle).dev.settled = true ∧
    ((travelling .held .closeWait .idle).dev.arm 2).travel ≠ none ∧
    ((travelling .held .closeWait .idle).dev.arm 2).position ≠ .closed ∧
    (travelling .held .closeWait .idle).dev.bayOfArm 2 = some 0 ∧
    ((travelling .held .closeWait .idle).dev.bay 0).causes.valve = false ∧
    ((travelling .held .closeWait .idle).dev.arm 2).batch = some (batch .closeWait) := by decide +kernel
/-- R38, R73, R82: HELD from LOADING takes the cause, NOTE_COMMIT records it alone, and CLOSING ends the batch SHORT. -/
theorem test_travel_by_state :
    ((after (.travelTimerExpiry 2) (travelling .held .closeWait .loading)).bay 0).causes.valve = true ∧
    ((after (.travelTimerExpiry 2) (travelling .noteCommit .interrupted .loading)).bay 0).causes.valve = false ∧
    ((after (.travelTimerExpiry 2) (travelling .noteCommit .interrupted .loading)).bay 0).seen.valve = true ∧
    ((after (.travelTimerExpiry 2) (travelling .closing .closeWait .loading)).bay 0).state = .noteCommit ∧
    ((after (.travelTimerExpiry 2) (travelling .closing .closeWait .loading)).bay 0).ended.map Batch.endStatus =
      [some .short] := by decide +kernel

/-- The station of this kind at an address with a word in force or none, its round assembled and unspoiled. -/
def worded (d : Device) (n : Addr) (k : StationKind) (old : Option Half) (new : Half) : Device :=
  d.onStation n fun r => { r with entry := some ⟨k, some 0, some 2⟩, state := .active, word := old, round := new, spoiled := false }
def sealed (old : Option Half) (new : Half) : Device := worded (loading .full).dev 12 .meter old new
theorem witness_words :
    ((sealed none 3).station 12).entry = some ⟨.meter, some 0, some 2⟩ ∧ ((sealed none 3).station 12).spoiled = false ∧
    (sealed none 3).armOfMeter 12 = some 2 ∧ ((sealed none 3).arm 2).batch = some (batch .full) ∧
    (batch .full).phase ≠ .ended ∧ (sealed none 3).bayOfArm 2 = some 0 ∧ ((sealed none 3).bay 0).state ≠ .closing ∧
    (worded latchedFlow 13 .valve none 1).armOfValve 13 = some 2 ∧
    (worded (dosing .available id).dev 20 .injector none 1).chanOf 20 = some 3 ∧
    (State.reset.dev.station 31).entry = none := by decide +kernel
/-- R21, R22, R153, R165: a station fault interrupts the batch, an open seal marks it alone and is reported with the word, a
change outside the four fields is not, and a faulty PERMIT station trips the bay. -/
theorem test_words :
    ((((sealed none 1).wordInForce 12).arm 2).batch.map Batch.phase) = some .interrupted ∧
    ((((sealed none 2).wordInForce 12).arm 2).batch.map fun t => (t.phase, t.flags.meterGap)) = some (.full, true) ∧
    (((sealed none 2).wordInForce 12).mp.notices.map fun x => (x.obj, x.event)) =
      [(.rack, 1), (.arm 2, 9), (.station 12, 5)] ∧
    (((sealed (some 2) 0).wordInForce 12).mp.notices.map fun x => (x.obj, x.event)) =
      [(.rack, 1), (.arm 2, 10), (.station 12, 5)] ∧
    ((sealed (some 0xFFF0) 0).wordInForce 12).mp.notices.length = 1 ∧
    (((worded permitting 10 .permit none 1).wordInForce 10).bay 0).state = .tripped := by decide +kernel

/-- A sweep of index 15 outstanding. -/
def swept (s : State) : State := ⟨s.dev.onLm fun l => { l with outstanding := some ⟨15, [13, 31], [], 0⟩ }, []⟩
/-- A RESTART that waits for the sweep alone. -/
def lastSweep : State := swept ⟨State.reset.dev.setBoot (.draining 9), []⟩
theorem witness_restart_sweep :
    (swept State.reset).quiet = true ∧ (swept State.reset).dev.lm.outstanding = some ⟨15, [13, 31], [], 0⟩ ∧
    (∀ b, ((swept State.reset).dev.bay b).state = .closed) ∧
    lastSweep.dev.boot = .draining 9 ∧ lastSweep.dev.cw.write = none ∧ lastSweep.dev.cw.releases = [] ∧
    lastSweep.dev.cw.queue = [] ∧
    (∀ p, (swept (restarting p 1)).dev.boot = .draining 9 ∧ (swept (restarting p 1)).dev.cw.write ≠ none) := by decide +kernel
/-- R143, R181: the sweep's return or timeout ends the wait, but not while a write is in progress, and not the write while the
sweep is outstanding. -/
theorem test_restart_sweep :
    (after (.restart 9 (some ())) (swept State.reset)).boot = .draining 9 ∧
    (after .sweepTimeout lastSweep).boot = .ready ∧
    (after (.sweepReturn [0x5A#8, 0x0F#8, 2#8, crc8 [0x5A#8, 0x0F#8, 2#8]]) lastSweep).boot = .ready ∧
    (after .sweepTimeout (swept (restarting true 1))).boot = .draining 9 ∧
    (after (.custodyWriteComplete true) (swept (restarting true 1))).boot = .draining 9 := by decide +kernel

/-! ### Witnesses: an authorization withdrawn by a request, its bay HELD or a commit stalled -/

/-- The same with bay 0 HELD from AUTHORIZED. -/
def heldStalled : State := ⟨stalled.dev.onBay 0 fun r =>
  { r with state := .held, before := some .authorized, holdBay := true, authTimer := .suspended 1 }, []⟩
theorem witness_withdrawn_by_request :
    ∀ s ∈ [heldAuthorized, stalled, heldStalled],
      s.quiet = true ∧ s.dev.orderNumbered 5510 = some (order .assigned .notBatched) ∧
      (order .assigned .notBatched).state = .assigned ∧
      (order .assigned .notBatched).assignment.map Assignment.bay = some 0 ∧ (s.dev.bay 0).order = some 5510 ∧
      ((s.dev.bay 0).state = .authorized ∨ ((s.dev.bay 0).state = .held ∧ (s.dev.bay 0).before = some .authorized)) := by
  decide +kernel
theorem witness_withdrawn_with_a_stall :
    heldAuthorized.dev.firstStalled = none ∧ stalled.dev.firstStalled = some 1 ∧ heldStalled.dev.firstStalled = some 1 := by
  decide +kernel
/-- R71, R97, R135: the request gives the stalled commit the slot, CW starts its body write, and the bay is IDLE, HELD from
IDLE, or CLOSED. -/
theorem test_withdrawn_by_request :
    (∀ c ∈ [Instr.orderCancel 1 (some 5510), .bayClose 1 (some 0), .loadFinish 1 (some 0)], ∀ s ∈ [stalled, heldStalled],
      (after c s).slot 0 = .reserved 1 false ∧ (after c s).slot 127 = .bad ∧
      (after c s).cw.write.map Write.job = some (.barrier 0 .body)) ∧
    ((after (.orderCancel 1 (some 5510)) heldStalled).bay 0).before = some .idle ∧
    (after (.orderCancel 1 (some 5510)) heldStalled).orders = [] ∧
    ((after (.bayClose 1 (some 0)) heldStalled).bay 0).state = .closed := by decide +kernel

end Sys2Proof.Tests
end

