-- ==== Sys2Proof/Proofs/Reset.lean ====
section
/-! The state after hard reset: the values of its blocks and banks, and the invariants it meets (Tables 1-3 to 10-6, R160, R171). -/

namespace Sys2Proof.Machine

open Sys2Proof

theorem reset_product (i : ProdIdx) : State.reset.dev.product i = none := by
  simp [State.reset, Device.cleared, Device.product]

theorem reset_arm (a : ArmId) : State.reset.dev.armRec a = none ∧ State.reset.dev.meter a = Meter.reset ∧
    State.reset.dev.arm a = ArmCtl.reset := by
  simp [State.reset, Device.cleared, Device.armRec, Device.meter, Device.arm]

theorem reset_injector (c : Chan) : State.reset.dev.injRec c = none ∧ State.reset.dev.inj c = Injector.reset := by
  simp [State.reset, Device.cleared, Device.injRec, Device.inj]

theorem reset_bay (b : BayId) : State.reset.dev.bayRec b = none ∧ State.reset.dev.bay b = Bay.reset ∧
    State.reset.dev.noteBay b = ⟨none, none, 0⟩ := by
  simp [State.reset, Device.cleared, Device.bayRec, Device.bay, Nu.reset, Device.noteBay]

theorem reset_totalizer (a : ArmId) : State.reset.dev.stored a = ⟨0, 0⟩ ∧
    Bank.read State.reset.dev.cw.written a = ⟨0, 0⟩ := by
  simp [State.reset, Device.cleared, Device.stored, Custody.factory, Cw.reset]

theorem reset_slot (k : SlotId) : State.reset.dev.slot k = .free := by
  simp [State.reset, Device.cleared, Nu.reset, Device.slot]

theorem reset_station (n : Addr) : State.reset.dev.station n = Station.reset := by
  simp [State.reset, Device.cleared, Lm.reset, Device.station]

theorem reset_line (l : LineId) : State.reset.dev.line l = Line.reset .low := by
  simp [State.reset, Device.cleared, Lu.reset, Device.line, Vector.map_replicate]

/-- Settles O3: the banks by the lemmas above, record by record, and each value of a block by evaluating it. -/
theorem resetHoldsTheResetValues : Obligations.ResetHoldsTheResetValues := by
  rintro d rfl
  refine ⟨rfl, rfl, fun a => ?_, reset_product, fun c => ?_, fun b => ?_, rfl, rfl, rfl, rfl, rfl, rfl, rfl, rfl, reset_slot,
    rfl, fun n => ?_, rfl, rfl, rfl, rfl, rfl, fun l => ?_, rfl, rfl, rfl, rfl, rfl, rfl, rfl, rfl, rfl, rfl, rfl, rfl⟩
  · obtain ⟨hrec, hmeter, hctl⟩ := reset_arm a
    obtain ⟨hstored, -⟩ := reset_totalizer a
    simp [hrec, hmeter, hctl, hstored, Meter.reset, ArmCtl.reset]
  · obtain ⟨hrec, hinj⟩ := reset_injector c
    simp [hrec, hinj, Injector.reset]
  · obtain ⟨hrec, hbay, hnote⟩ := reset_bay b
    simp [hrec, hbay, hnote, Bay.reset]
  · simp [reset_station n, Station.reset]
  · simp [reset_line l, Line.reset]

theorem reset_custodySound : State.reset.dev.custodySound := by
  refine fun _ => ⟨⟨fun a => ?_, List.nodup_nil, fun _ h => nomatch h⟩, fun a => ?_⟩
  · obtain ⟨hstored, hwritten⟩ := reset_totalizer a
    rw [hstored, hwritten]
  · obtain ⟨-, hmeter, -⟩ := reset_arm a
    obtain ⟨hstored, -⟩ := reset_totalizer a
    rw [hmeter, hstored]
    rfl

theorem reset_batchesAgree : State.reset.dev.batchesAgree := by
  refine ⟨fun a x h => ?_, fun b x h => ?_⟩
  · obtain ⟨-, -, hctl⟩ := reset_arm a
    rw [hctl] at h; cases h
  · obtain ⟨-, hbay, -⟩ := reset_bay b
    rw [hbay] at h; cases h

theorem reset_residuesBounded : State.reset.dev.residuesBounded := fun a => by
  obtain ⟨-, hmeter, -⟩ := reset_arm a
  rw [hmeter]; decide

theorem reset_settled : State.reset.dev.settled = true := by decide +kernel

theorem reset_placesHold : State.reset.dev.placesHold := by
  refine ⟨by decide, fun _ => ⟨by decide, fun h => absurd h (by decide), fun h => absurd h (by decide)⟩, fun t l b h => ?_⟩
  exact absurd (show Boot.ready = .scanning t l b from h) (by simp)

/-- Settles O4: each invariant from what the reset banks hold. -/
theorem resetMeetsTheInvariants : Obligations.ResetMeetsTheInvariants :=
  ⟨reset_settled, rfl, List.nodup_singleton _, reset_residuesBounded, reset_custodySound, reset_batchesAgree, reset_placesHold⟩

end Sys2Proof.Machine
end

