-- ==== Sys2Proof/Proofs/Queue.lean ====
section
/-! The Custody Writer's queue as a ledger: the amounts an arm has in it as a sum over its entries, the identifiers of its
entries, and what placing, merging, inserting and dropping an entry do to both (R112, R113, R116). -/

namespace Sys2Proof.Machine

open Sys2Proof

/-! ### Sums of volumes -/

theorem Vol.add_comm (x y : Vol) : x.add y = y.add x := by simp only [Vol.add, Nat.add_comm]
theorem Vol.add_assoc (x y z : Vol) : (x.add y).add z = x.add (y.add z) := by simp only [Vol.add, Nat.add_assoc]
@[simp] theorem Vol.add_zero (x : Vol) : x.add ⟨0, 0⟩ = x := rfl
@[simp] theorem Vol.zero_add (x : Vol) : Vol.add ⟨0, 0⟩ x = x := by simp [Vol.add]

theorem Vol.add_left_comm (x y z : Vol) : x.add (y.add z) = y.add (x.add z) := by
  rw [← add_assoc, add_comm x y, add_assoc]

theorem Vol.eq_zero_of_isZero {v : Vol} (h : v.isZero = true) : v = ⟨0, 0⟩ := by
  cases v; simp_all [isZero]

/-- The amounts of an arm's entries in a list of queue entries. -/
def postsOf (a : ArmId) : List QEntry → Vol
  | [] => ⟨0, 0⟩
  | e :: t => (if e.isOf a then e.vol else ⟨0, 0⟩).add (postsOf a t)

theorem foldl_add_eq (l : List QEntry) (v : Vol) :
    l.foldl (fun v e => v.add e.vol) v = v.add (l.foldl (fun v e => v.add e.vol) ⟨0, 0⟩) := by
  induction l generalizing v with
  | nil => rfl
  | cons e t ih => rw [List.foldl_cons, List.foldl_cons, ih, ih (Vol.add ⟨0, 0⟩ _), Vol.zero_add, Vol.add_assoc]

theorem Cw.queued_eq (c : Cw) (a : ArmId) : c.queued a = postsOf a c.queue := by
  unfold Cw.queued
  induction c.queue with
  | nil => rfl
  | cons e t ih =>
    rw [postsOf, ← ih, List.filter_cons]
    split
    · rw [List.foldl_cons, foldl_add_eq, Vol.zero_add]
    · rw [Vol.zero_add]

theorem postsOf_append (a : ArmId) (l m : List QEntry) : postsOf a (l ++ m) = (postsOf a l).add (postsOf a m) := by
  induction l with
  | nil => simp [postsOf]
  | cons e t ih => rw [List.cons_append, postsOf, ih, postsOf, Vol.add_assoc]

/-- An entry counts for the arm of its post, and a barrier for none. -/
theorem postsOf_cons_post (a b : ArmId) (v : Vol) (i s : Bool) (id : Nat) (t : List QEntry) :
    postsOf a (⟨id, .post ⟨b, v, i⟩, s⟩ :: t) = (if b = a then v else ⟨0, 0⟩).add (postsOf a t) := by
  simp only [postsOf, QEntry.isOf, QEntry.vol, beq_iff_eq]

theorem postsOf_cons_barrier (a : ArmId) (e : QEntry) (b : Barrier) (t : List QEntry) (h : e.body = .barrier b) :
    postsOf a (e :: t) = postsOf a t := by
  simp [postsOf, QEntry.isOf, h]

/-- Where an entry stands does not matter to the sum. -/
theorem postsOf_insert_barrier (a : ArmId) (e : QEntry) (b : Barrier) (l m : List QEntry) (h : e.body = .barrier b) :
    postsOf a (l ++ [e] ++ m) = postsOf a (l ++ m) := by
  rw [List.append_assoc, List.singleton_append, postsOf_append, postsOf_cons_barrier a e b m h, postsOf_append]

/-- Entries changed without touching their posts keep every sum. -/
theorem postsOf_map (a : ArmId) (f : QEntry → QEntry) (l : List QEntry)
    (h : ∀ e ∈ l, (f e).isOf a = e.isOf a ∧ (f e).vol = e.vol) : postsOf a (l.map f) = postsOf a l := by
  induction l with
  | nil => rfl
  | cons e t ih =>
    obtain ⟨h1, h2⟩ := h e (by simp)
    rw [List.map_cons, postsOf, h1, h2, ih fun x hx => h x (by simp [hx]), postsOf]

/-! ### Identifiers -/

/-- Queue entries have identifiers of their own, all below the next one to be given out. -/
def idsBelow (n : Nat) (q : List QEntry) : Prop := (q.map QEntry.id).Nodup ∧ ∀ e ∈ q, e.id < n

theorem idsBelow_congr {n : Nat} {q r : List QEntry} (h : idsBelow n q) (hr : r.map QEntry.id = q.map QEntry.id) : idsBelow n r := by
  have hm : ∀ i ∈ q.map QEntry.id, i < n := by simpa using h.2
  refine ⟨hr ▸ h.1, fun e he => hm _ ?_⟩
  rw [← hr]
  exact List.mem_map_of_mem he

theorem idsBelow_mono {n m : Nat} {q : List QEntry} (h : idsBelow n q) (hm : n ≤ m) : idsBelow m q :=
  ⟨h.1, fun e he => Nat.lt_of_lt_of_le (h.2 e he) hm⟩

/-- A new entry under the next identifier, anywhere in the queue. -/
theorem idsBelow_insert {n : Nat} {l m : List QEntry} (x : QEntry) (h : idsBelow n (l ++ m)) (hx : x.id = n) :
    idsBelow (n + 1) (l ++ [x] ++ m) := by
  have hp : (l ++ [x] ++ m).Perm (x :: (l ++ m)) := by simp
  refine ⟨(hp.map QEntry.id).nodup_iff.mpr ?_, fun e he => ?_⟩
  · rw [List.map_cons, List.nodup_cons]
    refine ⟨fun hi => ?_, h.1⟩
    obtain ⟨e, he, hei⟩ := List.mem_map.mp hi
    have := h.2 e he
    omega
  · rcases List.mem_cons.mp (hp.mem_iff.mp he) with rfl | he
    · omega
    · exact Nat.lt_succ_of_lt (h.2 e he)

theorem idsBelow_filter {n : Nat} {q : List QEntry} (p : QEntry → Bool) (h : idsBelow n q) : idsBelow n (q.filter p) :=
  ⟨h.1.sublist (List.filter_sublist.map _), fun e he => h.2 e (List.mem_of_mem_filter he)⟩

/-- Dropping an entry by its identifier takes its own amounts from the sum. -/
theorem postsOf_drop (a : ArmId) (e : QEntry) (q : List QEntry) (h : (q.map QEntry.id).Nodup) (he : e ∈ q) :
    postsOf a q = (if e.isOf a then e.vol else ⟨0, 0⟩).add (postsOf a (q.filter fun x => x.id != e.id)) := by
  induction q with
  | nil => simp at he
  | cons x t ih =>
    rw [List.map_cons, List.nodup_cons] at h
    rcases List.mem_cons.mp he with rfl | het
    · have hk : t.filter (fun x => x.id != e.id) = t := by
        rw [List.filter_eq_self]
        intro y hy
        have : y.id ≠ e.id := fun hi => h.1 (hi ▸ List.mem_map_of_mem hy)
        simpa using this
      rw [List.filter_cons_of_neg (by simp), hk, postsOf]
    · have hx : x.id ≠ e.id := fun hi => h.1 (hi ▸ List.mem_map_of_mem het)
      rw [List.filter_cons_of_pos (by simpa using hx), postsOf, ih h.2 het, postsOf, Vol.add_left_comm]

/-! ### Placing a post (R112) -/

theorem QEntry.merge_id (v : Vol) (e : QEntry) : (e.merge v).id = e.id := by unfold merge; split <;> rfl

theorem postsOf_merge (a b : ArmId) (v : Vol) (e : QEntry) (t : List QEntry) (h : e.isOf b = true) :
    postsOf a (e.merge v :: t) = (if b = a then v else ⟨0, 0⟩).add (postsOf a (e :: t)) := by
  obtain ⟨i, body, s⟩ := e
  cases body with
  | barrier x => simp [QEntry.isOf] at h
  | post p =>
    obtain ⟨c, w, ins⟩ := p
    have hc : c = b := by simpa [QEntry.isOf] using h
    subst hc
    simp only [QEntry.merge, postsOf_cons_post]
    split
    · rw [← Vol.add_assoc, Vol.add_comm w v]
    · simp

/-- R112: merging keeps every identifier and adds the amounts to the arm's sum alone. -/
theorem mergeLast_some {a : ArmId} {v : Vol} {q r : List QEntry} (h : mergeLast a v q = some r) :
    r.map QEntry.id = q.map QEntry.id ∧ ∀ b, postsOf b r = (if a = b then v else ⟨0, 0⟩).add (postsOf b q) := by
  induction q generalizing r with
  | nil => simp [mergeLast] at h
  | cons e t ih =>
    rw [mergeLast] at h
    split at h
    next =>
      obtain ⟨u, hu, rfl⟩ := Option.map_eq_some_iff.mp h
      obtain ⟨h1, h2⟩ := ih hu
      refine ⟨by simp [h1], fun b => ?_⟩
      rw [postsOf, h2, postsOf, Vol.add_left_comm]
    next =>
      split at h
      next he =>
        obtain rfl := Option.some.inj h
        refine ⟨by simp [QEntry.merge_id], fun b => postsOf_merge b a v e t ?_⟩
        simp only [Bool.and_eq_true] at he
        exact he.1
      next => cases h

/-- What placing a post of arm `a` does to the queue: the arm's amounts rise by it and no others change, and the identifiers
stay sound under the next one. -/
def Placed (n : Nat) (a : ArmId) (v : Vol) (q r : List QEntry) : Prop :=
  (∀ b, postsOf b r = (postsOf b q).add (if a = b then v else ⟨0, 0⟩)) ∧ (idsBelow n q → idsBelow (n + 1) r)

theorem placed_merge {n : Nat} {a : ArmId} {v : Vol} {l m r : List QEntry} (p s : List QEntry)
    (h : mergeLast a v m = some r) (hl : l = p ++ m ++ s) : Placed n a v l (p ++ r ++ s) := by
  obtain ⟨h1, h2⟩ := mergeLast_some h
  subst hl
  refine ⟨fun b => ?_, fun hi => idsBelow_mono (idsBelow_congr hi (by simp [h1])) (Nat.le_succ n)⟩
  simp only [postsOf_append, h2, Vol.add_assoc, Vol.add_comm, Vol.add_left_comm]

theorem placed_new (n : Nat) (a : ArmId) (v : Vol) (l m : List QEntry) :
    Placed n a v (l ++ m) (l ++ [⟨n, .post ⟨a, v, false⟩, false⟩] ++ m) := by
  refine ⟨fun b => ?_, fun hi => idsBelow_insert _ hi rfl⟩
  rw [List.append_assoc, List.singleton_append, postsOf_append, postsOf_cons_post, postsOf_append,
    Vol.add_comm (if a = b then v else _), ← Vol.add_assoc]

theorem throughBarriers_append_afterBarriers (q : List QEntry) : throughBarriers q ++ afterBarriers q = q := by
  rw [throughBarriers, afterBarriers, ← List.reverse_append, List.takeWhile_append_dropWhile, List.reverse_reverse]

theorem placeOrdinary_placed {n : Nat} {a : ArmId} {v : Vol} {q r : List QEntry} (h : placeOrdinary n a v q = some r) :
    Placed n a v q r := by
  unfold placeOrdinary at h
  split at h
  next t ht =>
    obtain rfl := Option.some.inj h
    have := placed_merge (n := n) (throughBarriers q) [] ht rfl
    simpa [throughBarriers_append_afterBarriers] using this
  next =>
    split at h
    · cases h
    · obtain rfl := Option.some.inj h
      simpa using placed_new n a v q []

theorem placePost_placed {n : Nat} {a : ArmId} {v : Vol} {rec : Bool} {q r : List QEntry}
    (h : placePost n a v rec q = some r) : Placed n a v q r := by
  unfold placePost at h
  split at h
  next =>
    have hq : q.takeWhile QEntry.beforeBarrier ++ q.dropWhile QEntry.beforeBarrier = q := List.takeWhile_append_dropWhile
    simp only at h
    split at h
    next t ht =>
      obtain rfl := Option.some.inj h
      have := placed_merge (n := n) [] (q.dropWhile QEntry.beforeBarrier) ht rfl
      simpa [hq] using this
    next =>
      split at h
      · cases h
      · obtain rfl := Option.some.inj h
        have := placed_new n a v (q.takeWhile QEntry.beforeBarrier) (q.dropWhile QEntry.beforeBarrier)
        rwa [hq] at this
  next => exact placeOrdinary_placed h

end Sys2Proof.Machine
end

