-- ==== Sys2Proof/Proofs/Dosed.lean ====
section
/-! What the Dosing Unit leaves as it is (chapter 3). Every operation of it changes arms, bays, injectors and notices alone;
of a batch it changes the dosing records, the throttle mark, two flags, and, when a window stops it (R57), the phase and the
snapshot, with the arm's zero-flow count then 0 (R30). -/

namespace Sys2Proof.Machine

open Sys2Proof

/-- A batch without what dosing may change of it. -/
def Batch.metered (b : Batch) : Batch :=
  { b with phase := .start, snapshot := none, throttle := false, dosing := []
           flags := { b.flags with additiveFault := false, doseShortfall := false } }

/-- Dosing takes the arm from `c` to `e`: its batch keeps all but what dosing may change, and a phase that moved has the
zero-flow count at 0. -/
structure ArmCtl.Dosed (c e : ArmCtl) : Prop where
  batch : e.batch.map Batch.metered = c.batch.map Batch.metered
  rest  : { c with batch := e.batch, zeroFlow := e.zeroFlow } = e
  close : e.zeroFlow = 0 ∨ e.zeroFlow = c.zeroFlow ∧ e.batch.map Batch.phase = c.batch.map Batch.phase

/-- Dosing takes the bay from `r` to `s`: its ended batches keep all but what dosing may change. -/
structure Bay.Dosed (r s : Bay) : Prop where
  ended : s.ended.map Batch.metered = r.ended.map Batch.metered
  rest  : { r with ended := s.ended } = s

/-- Dosing takes the part from `d` to `e`. -/
structure Device.Dosed (d e : Device) : Prop where
  arm  : ∀ a, (d.arm a).Dosed (e.arm a)
  bay  : ∀ b, (d.bay b).Dosed (e.bay b)
  rest : { d with arms := e.arms, bays := e.bays, injs := e.injs, mp := e.mp } = e

theorem ArmCtl.Dosed.refl (c : ArmCtl) : c.Dosed c := ⟨rfl, rfl, .inr ⟨rfl, rfl⟩⟩

theorem ArmCtl.Dosed.trans {c e f : ArmCtl} (h : c.Dosed e) (k : e.Dosed f) : c.Dosed f where
  batch := k.batch.trans h.batch
  rest  := by rw [← k.rest, ← h.rest]
  close := by
    rcases k.close with hz | ⟨hz, hp⟩
    · exact .inl hz
    · rcases h.close with hz' | ⟨hz', hp'⟩
      · exact .inl (hz.trans hz')
      · exact .inr ⟨hz.trans hz', hp.trans hp'⟩

theorem Bay.Dosed.refl (r : Bay) : r.Dosed r := ⟨rfl, rfl⟩

theorem Bay.Dosed.trans {r s t : Bay} (h : r.Dosed s) (k : s.Dosed t) : r.Dosed t :=
  ⟨k.ended.trans h.ended, by rw [← k.rest, ← h.rest]⟩

namespace Device

theorem Dosed.refl (d : Device) : d.Dosed d := ⟨fun _ => .refl _, fun _ => .refl _, rfl⟩

theorem Dosed.trans {d e f : Device} (h : d.Dosed e) (k : e.Dosed f) : d.Dosed f :=
  ⟨fun a => (h.arm a).trans (k.arm a), fun b => (h.bay b).trans (k.bay b), by rw [← k.rest, ← h.rest]⟩

theorem Dosed.boot {d e : Device} (h : d.Dosed e) : e.boot = d.boot := by rw [← h.rest]
theorem Dosed.custody {d e : Device} (h : d.Dosed e) : e.custody = d.custody := by rw [← h.rest]
theorem Dosed.meters {d e : Device} (h : d.Dosed e) : e.meters = d.meters := by rw [← h.rest]
theorem Dosed.cw {d e : Device} (h : d.Dosed e) : e.cw = d.cw := by rw [← h.rest]
theorem Dosed.armRecs {d e : Device} (h : d.Dosed e) : e.armRecs = d.armRecs := by rw [← h.rest]

theorem Dosed.foldl {α : Type} (f : Device → α → Device) (l : List α) (d : Device) (h : ∀ (e : Device) (x : α), e.Dosed (f e x)) :
    d.Dosed (l.foldl f d) := by
  induction l generalizing d with
  | nil => exact .refl d
  | cons x t ih => exact (h d x).trans (ih _)

/-! ### The updates that dosing is made of -/

theorem onMp_dosed (d : Device) (f : Mp → Mp) : d.Dosed (d.onMp f) := ⟨fun _ => .refl _, fun _ => .refl _, rfl⟩
theorem raise_dosed (d : Device) (k : NoticeKind) (o : SourceObj) (e : Nat) (l : List (List Byte)) : d.Dosed (d.raise k o e l) :=
  onMp_dosed _ _
theorem injNotice_dosed (d : Device) (c : Chan) (e : Nat) (l : List (List Byte)) : d.Dosed (d.injNotice c e l) := raise_dosed ..
theorem onInj_dosed (d : Device) (c : Chan) (f : Injector → Injector) : d.Dosed (d.onInj c f) :=
  ⟨fun _ => .refl _, fun _ => .refl _, rfl⟩

theorem onArm_dosed (d : Device) (a : ArmId) (f : ArmCtl → ArmCtl) (h : (d.arm a).Dosed (f (d.arm a))) : d.Dosed (d.onArm a f) where
  arm x := by
    rw [onArm_arm]
    split
    next hx => exact hx ▸ h
    next => exact .refl _
  bay _ := .refl _
  rest := rfl

theorem onBay_dosed (d : Device) (b : BayId) (f : Bay → Bay) (h : (d.bay b).Dosed (f (d.bay b))) : d.Dosed (d.onBay b f) where
  arm _ := .refl _
  bay x := by
    rw [onBay_bay]
    split
    next hx => exact hx ▸ h
    next => exact .refl _
  rest := rfl

/-- A change of batches that dosing may make. -/
def DosingChange (f : Batch → Batch) : Prop := ∀ b, (f b).metered = b.metered ∧ (f b).phase = b.phase

theorem onBatch_dosed (d : Device) (a : ArmId) (f : Batch → Batch) (h : DosingChange f) : d.Dosed (d.onBatch a f) := by
  refine onArm_dosed d a _ ⟨?_, rfl, .inr ⟨rfl, ?_⟩⟩
  · simp only [Option.map_map]
    exact congrArg (fun g => Option.map g _) (funext fun b => (h b).1)
  · simp only [Option.map_map]
    exact congrArg (fun g => Option.map g _) (funext fun b => (h b).2)

theorem onDoseBatch_dosed (d : Device) (r : DoseRef) (f : Batch → Batch) (h : DosingChange f) : d.Dosed (d.onDoseBatch r f) := by
  unfold onDoseBatch
  split
  · exact onBatch_dosed d _ f h
  · refine Dosed.foldl _ _ _ fun e b => ?_
    refine onBay_dosed e b _ ⟨?_, rfl⟩
    simp only [List.map_map]
    refine List.map_congr_left fun x _ => ?_
    simp only [Function.comp]
    split
    · exact (h x).1
    · rfl

theorem dosingChange_onDose (k : Nat) (f : Dosing → Dosing) : DosingChange fun b => b.onDose k f := fun _ => ⟨rfl, rfl⟩

theorem onDose_dosed (d : Device) (r : DoseRef) (f : Dosing → Dosing) : d.Dosed (d.onDose r f) :=
  onDoseBatch_dosed d r _ (dosingChange_onDose _ f)

theorem dosingChange_throttleClear : DosingChange Batch.throttleClear := fun b => by
  unfold Batch.throttleClear
  split <;> exact ⟨rfl, rfl⟩

theorem throttleClear_dosed (d : Device) (r : DoseRef) : d.Dosed (d.throttleClear r) :=
  onDoseBatch_dosed d r _ dosingChange_throttleClear

theorem setFates_dosed (d : Device) (pick : DoseRef → Bool) (f : OfferFate) : d.Dosed (d.setFates pick f) :=
  Dosed.foldl _ _ _ fun e c => onInj_dosed e c _

/-! ### Closes, windows and missed shots (R30, R56 to R59) -/

theorem cancelPendings_dosed (d : Device) (a : ArmId) (mark : Bool) : d.Dosed (d.cancelPendings a mark) := by
  have h := Dosed.foldl (fun e r => e.onDose r fun x => x.cancelPending mark (d.underOffer r)) (d.openRefs a) d
    fun e r => onDose_dosed e r _
  unfold cancelPendings
  split
  · exact h
  · exact (h.trans (setFates_dosed ..)).trans (onBatch_dosed _ _ _ dosingChange_throttleClear)

theorem stopBatch_dosed (d : Device) (a : ArmId) : d.Dosed (d.stopBatch a) := by
  unfold stopBatch
  split
  · exact .refl d
  next b hb =>
    split
    · refine (onArm_dosed d a _ ⟨?_, rfl, .inl rfl⟩).trans (cancelPendings_dosed ..)
      rw [hb]; rfl
    · exact .refl d

theorem failWindow_dosed (d : Device) (r : DoseRef) (c : Chan) (action : FaultAction) (v x : Nat) :
    d.Dosed (d.failWindow r c action v x) := by
  have h := (onDoseBatch_dosed d r (fun b => { b with flags := { b.flags with additiveFault := true } }) fun _ =>
    ⟨rfl, rfl⟩).trans (injNotice_dosed _ c 2 [octets 1 r.arm.val, octets 1 r.recipe, octets 4 v, octets 4 x])
  unfold failWindow
  cases action with
  | flag => exact h
  | stop =>
    dsimp only
    split
    · exact h.trans (stopBatch_dosed ..)
    · exact h

theorem checkWindow_dosed (d : Device) (r : DoseRef) : d.Dosed (d.checkWindow r) := by
  unfold checkWindow
  split
  · exact .refl d
  split
  · exact .refl d
  split
  · exact .refl d
  split
  · dsimp only
    split
    · exact (onDose_dosed ..).trans (failWindow_dosed ..)
    · exact onDose_dosed ..
  · exact .refl d

theorem missShot_dosed (d : Device) (r : DoseRef) (short : Bool) : d.Dosed (d.missShot r short) :=
  (onDoseBatch_dosed d r _ fun _ => by split <;> exact ⟨rfl, rfl⟩).trans (checkWindow_dosed ..)

theorem missShots_dosed (n : Nat) (r : DoseRef) (d : Device) : d.Dosed (missShots n r d) := by
  induction n generalizing d with
  | zero => exact .refl d
  | succ n ih => exact (missShot_dosed d r true).trans (ih _)

theorem missPendings_dosed (d : Device) (l : List DoseRef) : d.Dosed (d.missPendings l) :=
  (((Dosed.foldl _ _ _ fun e _ => onDose_dosed e _ _).trans (setFates_dosed ..)).trans
    (Dosed.foldl _ _ _ fun e _ => missShots_dosed _ _ e)).trans (Dosed.foldl _ _ _ throttleClear_dosed)

/-! ### Shots that fall due (R46) -/

theorem shotDue_dosed (d : Device) (r : DoseRef) (c : Chan) : d.Dosed (d.shotDue r c) := by
  unfold shotDue
  split
  · exact .refl d
  split
  · exact onDose_dosed ..
  split
  · exact missShot_dosed ..
  split
  · exact missShot_dosed ..
  split
  · exact missShot_dosed ..
  · exact onDoseBatch_dosed _ _ _ fun _ => by split <;> exact ⟨rfl, rfl⟩

theorem shotsDue_dosed (n : Nat) (r : DoseRef) (c : Chan) (d : Device) : d.Dosed (shotsDue n r c d) := by
  induction n generalizing d with
  | zero => exact .refl d
  | succ n ih => exact (shotDue_dosed d r c).trans (ih _)

theorem doseRecord_dosed (d : Device) (v : Nat) (r : DoseRef) : d.Dosed (d.doseRecord v r) := by
  unfold doseRecord
  split
  · exact .refl d
  split
  · exact .refl d
  split
  · exact .refl d
  · exact (onDose_dosed ..).trans (shotsDue_dosed ..)

theorem doseSample_dosed (d : Device) (a : ArmId) (v : Nat) : d.Dosed (d.doseSample a v) := by
  unfold doseSample
  split
  · exact .refl d
  · exact Dosed.foldl _ _ _ fun e r => doseRecord_dosed e v r

/-! ### Injectors (R48 to R55, R59) -/

theorem offerShot_dosed (d : Device) (c : Chan) : d.Dosed (d.offerShot c) := by
  unfold offerShot
  split
  · exact .refl d
  split
  · exact .refl d
  split
  · exact .refl d
  · exact onInj_dosed ..

theorem faultInjector_dosed (d : Device) (c : Chan) (cause : Nat) : d.Dosed (d.faultInjector c cause) := by
  unfold faultInjector
  split
  · exact ((onInj_dosed ..).trans (missPendings_dosed ..)).trans (injNotice_dosed ..)
  · exact .refl d

theorem takePending_dosed (d : Device) (r : DoseRef) : d.Dosed (d.takePending r) := onDose_dosed ..

theorem settleUntaken_dosed (d : Device) (c : Chan) (o : Offer) : d.Dosed (d.settleUntaken c o) := by
  refine Dosed.trans ?_ (throttleClear_dosed ..)
  split
  · exact (takePending_dosed ..).trans (onDose_dosed ..)
  · exact (takePending_dosed ..).trans (missShot_dosed ..)
  · split
    · exact (takePending_dosed ..).trans (missShot_dosed ..)
    · exact .refl d

theorem answerOffer_dosed (d : Device) (c : Chan) (j : InjectorRec) (answer token : Nat) :
    d.Dosed (d.answerOffer c j answer token) := by
  unfold answerOffer
  split
  · exact .refl d
  split
  · exact ((onInj_dosed ..).trans (takePending_dosed ..)).trans (throttleClear_dosed ..)
  · dsimp only
    split
    · exact ((onInj_dosed ..).trans (settleUntaken_dosed ..)).trans (faultInjector_dosed ..)
    · exact (onInj_dosed ..).trans (settleUntaken_dosed ..)

theorem completeShot_dosed (d : Device) (c : Chan) (j : InjectorRec) (token pulses : Nat) :
    d.Dosed (d.completeShot c j token pulses) := by
  unfold completeShot
  split
  · exact .refl d
  · exact ((onInj_dosed ..).trans (onDose_dosed ..)).trans (checkWindow_dosed ..)

theorem injectorReturn_dosed (d : Device) (c : Chan) (j : InjectorRec) (v : ReturnView) (answer token last pulses : Nat) :
    d.Dosed (d.injectorReturn c j v answer token last pulses) :=
  ((onInj_dosed ..).trans (answerOffer_dosed ..)).trans (completeShot_dosed ..)

theorem timeoutShot_dosed (d : Device) (c : Chan) (s : Shot) : d.Dosed (d.timeoutShot c s) := by
  unfold timeoutShot
  dsimp only
  split
  · exact ((onInj_dosed ..).trans (missShot_dosed ..)).trans (faultInjector_dosed ..)
  · exact (onInj_dosed ..).trans (missShot_dosed ..)

theorem latchShots_dosed (d : Device) : d.Dosed d.latchShots := (missPendings_dosed ..).trans (setFates_dosed ..)

end Device

end Sys2Proof.Machine
end

