-- ==== Sys2Proof/Proofs/Calm.lean ====
section
/-! What the Arm Controller and the Bay Controller leave of the books: operations after which the meters, custody memory and
the Custody Writer stand as before, and after which every batch still agrees with its arm's running totalizer (L2). -/

namespace Sys2Proof.Machine

open Sys2Proof

/-! ### L2 for one arm and one bay -/

/-- R33: the arm's open batch agrees with the running totalizer `m`. -/
def ArmCtl.inStep (c : ArmCtl) (m : Vol) : Prop := ∀ x, c.batch = some x → m = x.opening.add x.delivered

/-- R33: the bay's ended batches agree with their closing readings. -/
def Bay.inStep (r : Bay) : Prop := ∀ x ∈ r.ended, x.closing = some (x.opening.add x.delivered)

theorem Device.batchesAgree_iff (d : Device) :
    d.batchesAgree ↔ (∀ a, (d.arm a).inStep (d.meter a).mirror) ∧ ∀ b, (d.bay b).inStep := Iff.rfl

/-- Batches alike but for what dosing may change have the same readings. -/
theorem Batch.readings_of_metered {x y : Batch} (h : x.metered = y.metered) :
    x.opening = y.opening ∧ x.delivered = y.delivered ∧ x.closing = y.closing := by
  simp only [metered, Batch.mk.injEq] at h
  tauto

theorem ArmCtl.Dosed.inStep {c e : ArmCtl} (h : c.Dosed e) {m : Vol} (hc : c.inStep m) : e.inStep m := by
  intro x hx
  have hb := h.batch
  rw [hx, Option.map_some, eq_comm, Option.map_eq_some_iff] at hb
  obtain ⟨y, hy, hm⟩ := hb
  obtain ⟨h1, h2, -⟩ := Batch.readings_of_metered hm
  rw [← h1, ← h2]
  exact hc y hy

theorem Bay.Dosed.inStep {r s : Bay} (h : r.Dosed s) (hr : r.inStep) : s.inStep := by
  intro x hx
  have hm : x.metered ∈ r.ended.map Batch.metered := h.ended ▸ List.mem_map_of_mem hx
  obtain ⟨y, hy, hxy⟩ := List.mem_map.mp hm
  obtain ⟨h1, h2, h3⟩ := Batch.readings_of_metered hxy
  rw [← h1, ← h2, ← h3]
  exact hr y hy

namespace Device

/-- From `d` to `e` the books stand as before, and the batches stay in step with them. -/
structure Calm (d e : Device) : Prop where
  boot    : e.boot = d.boot
  custody : e.custody = d.custody
  meters  : e.meters = d.meters
  cw      : e.cw = d.cw
  batches : d.batchesAgree → e.batchesAgree

theorem Calm.refl (d : Device) : d.Calm d := ⟨rfl, rfl, rfl, rfl, id⟩

theorem Calm.trans {d e f : Device} (h : d.Calm e) (k : e.Calm f) : d.Calm f :=
  ⟨k.boot.trans h.boot, k.custody.trans h.custody, k.meters.trans h.meters, k.cw.trans h.cw, fun hd => k.batches (h.batches hd)⟩

theorem Calm.foldl {α : Type} (f : Device → α → Device) (l : List α) (d : Device) (h : ∀ (e : Device) (x : α), e.Calm (f e x)) :
    d.Calm (l.foldl f d) := by
  induction l generalizing d with
  | nil => exact .refl d
  | cons x t ih => exact (h d x).trans (ih _)

theorem Dosed.calm {d e : Device} (h : d.Dosed e) : d.Calm e where
  boot := h.boot
  custody := h.custody
  meters := h.meters
  cw := h.cw
  batches hd := ⟨fun a => by
    have := (h.arm a).inStep (hd.1 a)
    rwa [show (d.meter a).mirror = (e.meter a).mirror by simp only [meter, h.meters]] at this,
    fun b => (h.bay b).inStep (hd.2 b)⟩

/-! ### The updates that leave the books and the batches alone -/

theorem onMp_calm (d : Device) (f : Mp → Mp) : d.Calm (d.onMp f) := ⟨rfl, rfl, rfl, rfl, id⟩
theorem onLm_calm (d : Device) (f : Lm → Lm) : d.Calm (d.onLm f) := ⟨rfl, rfl, rfl, rfl, id⟩
theorem onLu_calm (d : Device) (f : Lu → Lu) : d.Calm (d.onLu f) := ⟨rfl, rfl, rfl, rfl, id⟩
theorem onNu_calm (d : Device) (f : Nu → Nu) : d.Calm (d.onNu f) := ⟨rfl, rfl, rfl, rfl, id⟩
theorem onOrders_calm (d : Device) (f : List Order → List Order) : d.Calm (d.onOrders f) := ⟨rfl, rfl, rfl, rfl, id⟩
theorem onPermits_calm (d : Device) (f : List (Nat × Permit) → List (Nat × Permit)) : d.Calm (d.onPermits f) :=
  ⟨rfl, rfl, rfl, rfl, id⟩
theorem onAccounts_calm (d : Device) (f : List (Nat × Account) → List (Nat × Account)) : d.Calm (d.onAccounts f) :=
  ⟨rfl, rfl, rfl, rfl, id⟩
theorem onInj_calm (d : Device) (c : Chan) (f : Injector → Injector) : d.Calm (d.onInj c f) := ⟨rfl, rfl, rfl, rfl, id⟩
theorem setArmRec_calm (d : Device) (a : ArmId) (r : Option ArmRecord) : d.Calm (d.setArmRec a r) := ⟨rfl, rfl, rfl, rfl, id⟩
theorem setProduct_calm (d : Device) (i : ProdIdx) (r : Option Product) : d.Calm (d.setProduct i r) := ⟨rfl, rfl, rfl, rfl, id⟩
theorem setInjRec_calm (d : Device) (c : Chan) (r : Option InjectorRec) : d.Calm (d.setInjRec c r) := ⟨rfl, rfl, rfl, rfl, id⟩
theorem setBayRec_calm (d : Device) (b : BayId) (r : Option BayRecord) : d.Calm (d.setBayRec b r) := ⟨rfl, rfl, rfl, rfl, id⟩

theorem raise_calm (d : Device) (k : NoticeKind) (o : SourceObj) (e : Nat) (l : List (List Byte)) : d.Calm (d.raise k o e l) :=
  onMp_calm ..
theorem bayNotice_calm (d : Device) (b : BayId) (e : Nat) (l : List (List Byte)) : d.Calm (d.bayNotice b e l) := raise_calm ..
theorem armNotice_calm (d : Device) (a : ArmId) (e : Nat) (l : List (List Byte)) : d.Calm (d.armNotice a e l) := raise_calm ..
theorem rackNotice_calm (d : Device) (e : Nat) (l : List (List Byte)) : d.Calm (d.rackNotice e l) := raise_calm ..
theorem injNotice_calm (d : Device) (c : Chan) (e : Nat) (l : List (List Byte)) : d.Calm (d.injNotice c e l) := raise_calm ..
theorem stationNotice_calm (d : Device) (n : Addr) (e : Nat) (l : List (List Byte)) : d.Calm (d.stationNotice n e l) :=
  raise_calm ..
theorem luNotice_calm (d : Device) (e : Nat) : d.Calm (d.luNotice e) := raise_calm ..
theorem onStation_calm (d : Device) (n : Addr) (f : Station → Station) : d.Calm (d.onStation n f) := onLm_calm ..
theorem onLine_calm (d : Device) (l : LineId) (f : Line → Line) : d.Calm (d.onLine l f) := onLu_calm ..
theorem setSlot_calm (d : Device) (k : SlotId) (x : SlotState) : d.Calm (d.setSlot k x) := onNu_calm ..
theorem onNoteBay_calm (d : Device) (b : BayId) (f : NoteBay → NoteBay) : d.Calm (d.onNoteBay b f) := onNu_calm ..
theorem onOrder_calm (d : Device) (n : Nat) (f : Order → Order) : d.Calm (d.onOrder n f) := onOrders_calm ..

theorem onAccount_calm (d : Device) (i : Nat) (f : Account → Account) : d.Calm (d.onAccount i f) := by
  unfold onAccount
  split
  · exact onAccounts_calm ..
  · exact .refl d

/-! ### Changes of one arm's controller state and of one bay's record -/

theorem onArm_calm (d : Device) (a : ArmId) (f : ArmCtl → ArmCtl)
    (h : ∀ m, (d.arm a).inStep m → (f (d.arm a)).inStep m) : d.Calm (d.onArm a f) where
  boot := rfl
  custody := rfl
  meters := rfl
  cw := rfl
  batches hd := ⟨fun x => by
    rw [onArm_arm, onArm_meter]
    split
    next hx => exact h _ (hx ▸ hd.1 x)
    next => exact hd.1 x, hd.2⟩

theorem onArm_calm_of_batch (d : Device) (a : ArmId) (f : ArmCtl → ArmCtl) (h : (f (d.arm a)).batch = (d.arm a).batch) :
    d.Calm (d.onArm a f) :=
  onArm_calm d a f fun _ hm x hx => hm x (h ▸ hx)

/-- The arm's batch replaced by one with the same readings. -/
theorem onArm_calm_of_readings (d : Device) (a : ArmId) (f : ArmCtl → ArmCtl) (t u : Batch) (ht : (d.arm a).batch = some t)
    (hf : (f (d.arm a)).batch = some u) (ho : u.opening = t.opening) (hd : u.delivered = t.delivered) : d.Calm (d.onArm a f) :=
  onArm_calm d a f fun m hm x hx => by
    obtain rfl : u = x := Option.some.inj (hf.symm.trans hx)
    rw [ho, hd]
    exact hm t ht

theorem onBatch_calm (d : Device) (a : ArmId) (f : Batch → Batch)
    (h : ∀ x, (f x).opening = x.opening ∧ (f x).delivered = x.delivered) : d.Calm (d.onBatch a f) :=
  onArm_calm d a _ fun m hm x hx => by
    obtain ⟨y, hy, rfl⟩ := Option.map_eq_some_iff.mp hx
    rw [(h y).1, (h y).2]
    exact hm y hy

theorem onBay_calm_of_inStep (d : Device) (b : BayId) (f : Bay → Bay) (h : (d.bay b).inStep → (f (d.bay b)).inStep) :
    d.Calm (d.onBay b f) where
  boot := rfl
  custody := rfl
  meters := rfl
  cw := rfl
  batches hd := ⟨hd.1, fun x => by
    rw [onBay_bay]
    split
    next hx => exact h (hx ▸ hd.2 x)
    next => exact hd.2 x⟩

theorem onBay_calm (d : Device) (b : BayId) (f : Bay → Bay) (h : (f (d.bay b)).ended = (d.bay b).ended) : d.Calm (d.onBay b f) :=
  onBay_calm_of_inStep d b f fun hr x hx => hr x (h ▸ hx)

theorem enterState_calm (d : Device) (b : BayId) (st : BayState) : d.Calm (d.enterState b st) :=
  onBay_calm _ _ _ (by split <;> rfl)

theorem showMessage_calm (d : Device) (b : BayId) (m : Option Display) : d.Calm (d.showMessage b m) := onBay_calm _ _ _ rfl

/-! ### Orders and accounts (R102, R104, R105) -/

theorem releaseLine_calm (d : Device) (o : Order) (k litres : Nat) : d.Calm (d.releaseLine o k litres) := by
  unfold releaseLine
  split
  · exact .refl d
  split
  · exact .refl d
  · exact (onAccount_calm ..).trans (onOrder_calm ..)

theorem releaseLines_calm (d : Device) (o : Order) (pick : OrderLine → Bool) : d.Calm (d.releaseLines o pick) := by
  refine Calm.foldl _ _ _ fun e k => ?_
  split
  · split
    · exact releaseLine_calm ..
    · exact .refl e
  · exact .refl e

theorem reserveLines_calm (d : Device) (o : Order) : d.Calm (d.reserveLines o) := by
  refine Calm.foldl _ _ _ fun e k => ?_
  split
  · exact .refl e
  split
  · exact .refl e
  · exact (onAccount_calm ..).trans (onOrder_calm ..)

theorem assignOrder_calm (d : Device) (b : BayId) (o : Order) (p : Permit) : d.Calm (d.assignOrder b o p) := by
  have h := (reserveLines_calm d o).trans (onOrder_calm _ o.number fun x =>
    { x with state := .assigned, assignment := some ⟨b, p.credential, p.driver⟩ })
  unfold assignOrder
  dsimp only
  split
  · exact h.trans (setSlot_calm ..)
  · exact h

theorem removeOrder_calm (d : Device) (b : BayId) : d.Calm (d.removeOrder b) := by
  unfold removeOrder
  split
  · exact onOrders_calm ..
  · exact .refl d

/-! ### Batches that start, resume and end (R26, R27, R33) -/

/-- R26: a new batch opens at the running totalizer with nothing delivered. -/
theorem newBatch_inStep (d : Device) (a : ArmId) (k : Nat) (l : OrderLine) (p : Product) :
    (d.meter a).mirror = (d.newBatch a k l p).opening.add (d.newBatch a k l p).delivered := rfl

/-- R26: the arm takes the new batch. -/
theorem openBatch_calm (d : Device) (a : ArmId) (k : Nat) (l : OrderLine) (p : Product) :
    d.Calm (d.onArm a fun c => { c with batch := some (d.newBatch a k l p), zeroFlow := 0 }) where
  boot := rfl
  custody := rfl
  meters := rfl
  cw := rfl
  batches hd := ⟨fun x y hy => by
    rw [onArm_arm] at hy
    split at hy
    next hx => cases hy; exact hx ▸ newBatch_inStep d a k l p
    next => exact hd.1 x y hy, hd.2⟩

theorem acceptBatch_calm (d : Device) (b : BayId) (a : ArmId) (k : Nat) (l : OrderLine) (p : Product) :
    d.Calm (d.acceptBatch b a k l p) := by
  refine ((openBatch_calm d a k l p).trans ?_).trans (armNotice_calm ..)
  split
  · exact onOrder_calm ..
  · exact .refl _

theorem resumeBatch_calm (d : Device) (a : ArmId) (t : Batch) (h : (d.arm a).batch = some t) : d.Calm (d.resumeBatch a t) :=
  (onArm_calm_of_readings d a _ t _ h (by rfl) (by rfl) (by rfl)).trans (armNotice_calm ..)

theorem settleLine_calm (d : Device) (b : BayId) (t : Batch) : d.Calm (d.settleLine b t) := by
  unfold settleLine
  split
  · exact .refl d
  · exact (onOrder_calm ..).trans (releaseLine_calm ..)

theorem mem_insertEnded {b x : Batch} {l : List Batch} (h : x ∈ insertEnded b l) : x = b ∨ x ∈ l := by
  induction l with
  | nil => simpa [insertEnded] using h
  | cons y t ih =>
    simp only [insertEnded] at h
    split at h
    · simpa using h
    · rcases List.mem_cons.mp h with rfl | h
      · exact .inr (by simp)
      · rcases ih h with rfl | h
        · exact .inl rfl
        · exact .inr (by simp [h])

/-- R33: an ended batch closes at the running totalizer that its open record agreed with. -/
theorem finish_inStep (t : Batch) (m : Vol) (time : Time) (short : Bool) (h : m = t.opening.add t.delivered) :
    (t.finish m time short).closing = some ((t.finish m time short).opening.add (t.finish m time short).delivered) :=
  congrArg some h

theorem learn_batch (c : ArmCtl) (x : Option Nat) : (c.learn x).batch = c.batch := by unfold ArmCtl.learn; split <;> rfl

theorem closeBatch_calm (d : Device) (a : ArmId) (x : Option Nat) :
    d.Calm (d.onArm a fun c => { (c.learn x) with batch := none }) :=
  onArm_calm d a _ fun _ _ _ hx => nomatch hx

/-- R24, R33: a batch joins the ended ones at the end of what leaves the books alone. -/
theorem endedBatch_calm {d e : Device} (h : d.Calm e) (b : BayId) (x : Batch)
    (hx : d.batchesAgree → x.closing = some (x.opening.add x.delivered)) :
    d.Calm (e.onBay b fun r => { r with ended := insertEnded x r.ended }) where
  boot := h.boot
  custody := h.custody
  meters := h.meters
  cw := h.cw
  batches hd := ⟨(h.batches hd).1, fun y => by
    rw [onBay_bay]
    split
    · intro z hz
      rcases mem_insertEnded hz with rfl | hz
      · exact hx hd
      · exact (h.batches hd).2 b z hz
    · exact (h.batches hd).2 y⟩

theorem endBatch_calm (d : Device) (a : ArmId) (short : Bool) : d.Calm (d.endBatch a short) := by
  have h0 := (cancelPendings_dosed d a false).calm
  unfold endBatch
  dsimp only
  generalize d.cancelPendings a false = d0 at h0 ⊢
  refine h0.trans ?_
  split
  next t b ht hb =>
    have h2 := (closeBatch_calm d0 a (t.lesson short)).trans (settleLine_calm _ b (t.finish (d0.meter a).mirror d0.time short))
    exact (endedBatch_calm h2 b _ fun hd => finish_inStep t _ _ _ (hd.1 a t ht)).trans (armNotice_calm ..)
  next => exact .refl _

/-! ### Interruptions, the close of a load, and trips (R32, R72 to R75, R82) -/

theorem interruptBatch_calm (d : Device) (a : ArmId) (pick : Phase → Bool) (mark : BatchFlags → BatchFlags) :
    d.Calm (d.interruptBatch a pick mark) := by
  unfold interruptBatch
  split
  · exact .refl d
  next t ht =>
    split
    · exact onBatch_calm _ _ _ fun _ => ⟨rfl, rfl⟩
    split
    · have h1 : d.Calm (d.onArm a fun c => { c with batch := some { t with phase := .interrupted, flags := mark t.flags } }) :=
        onArm_calm_of_readings d a _ t _ ht rfl rfl rfl
      dsimp only
      split
      · split
        · exact (h1.trans (armNotice_calm ..)).trans (endBatch_calm ..)
        · exact h1.trans (armNotice_calm ..)
      · exact h1.trans (armNotice_calm ..)
    · exact .refl d

theorem interruptBay_calm (d : Device) (b : BayId) : d.Calm (d.interruptBay b) :=
  Calm.foldl _ _ _ fun e a => interruptBatch_calm e a _ _

theorem stopBatch_calm (d : Device) (a : ArmId) : d.Calm (d.stopBatch a) := (stopBatch_dosed d a).calm

theorem closeArm_calm (d : Device) (a : ArmId) : d.Calm (d.closeArm a) := by
  unfold closeArm
  split
  · exact .refl d
  split
  · exact endBatch_calm ..
  · exact stopBatch_calm ..

theorem closeLoad_calm (d : Device) (b : BayId) : d.Calm (d.closeLoad b) :=
  (((enterState_calm ..).trans (onBay_calm _ _ _ rfl)).trans (Calm.foldl _ _ _ closeArm_calm)).trans (bayNotice_calm ..)

theorem loadTest_calm (d : Device) (b : BayId) : d.Calm (d.loadTest b) := by
  unfold loadTest
  split
  · exact .refl d
  split
  · exact closeLoad_calm ..
  · exact .refl d

theorem batchEnded_calm (d : Device) (a : ArmId) : d.Calm (d.batchEnded a) := by
  unfold batchEnded
  split
  · exact (endBatch_calm ..).trans (loadTest_calm ..)
  · exact .refl d

theorem enterHeld_calm (d : Device) (b : BayId) (x : BeforeHold) : d.Calm (d.enterHeld b x) :=
  ((enterState_calm ..).trans (onBay_calm _ _ _ rfl)).trans (bayNotice_calm ..)

theorem enterTrip_calm (d : Device) (b : BayId) : d.Calm (d.enterTrip b) :=
  (((enterState_calm ..).trans (onBay_calm _ _ _ rfl)).trans (interruptBay_calm ..)).trans (bayNotice_calm ..)

theorem lockoutTest_calm (d : Device) (b : BayId) (n : Nat) : d.Calm (d.lockoutTest b n) := by
  unfold lockoutTest
  split
  · exact (onBay_calm _ _ _ rfl).trans (bayNotice_calm ..)
  · exact .refl d

theorem takeCause_calm (d : Device) (b : BayId) (c : TripCause) : d.Calm (d.takeCause b c) := by
  have hj : d.Calm (d.onBay b fun x => x.join c) := onBay_calm _ _ _ rfl
  have trips : d.Calm (if (d.bay b).causes.has c then d
      else ((d.onBay b fun x => x.join c).enterTrip b).lockoutTest b (d.bay b).trips) := by
    split
    · exact .refl d
    · exact (hj.trans (enterTrip_calm ..)).trans (lockoutTest_calm ..)
  have joins : d.Calm (if !(d.bay b).takesCauses || (d.bay b).causes.has c then d
      else ((d.onBay b fun x => x.join c).bayNotice b 10 []).lockoutTest b (d.bay b).trips) := by
    split
    · exact .refl d
    · exact (hj.trans (bayNotice_calm ..)).trans (lockoutTest_calm ..)
  unfold takeCause
  dsimp only
  split
  case h_1 | h_2 => exact onBay_calm _ _ _ rfl
  case h_3 | h_4 => exact trips
  all_goals exact joins

theorem clearCause_calm (d : Device) (b : BayId) (c : TripCause) : d.Calm (d.clearCause b c) := by
  unfold clearCause
  split
  · exact .refl d
  have h1 : d.Calm ((d.onBay b fun x => { x with causes := x.causes.put c false }).bayNotice b 10 []) :=
    (onBay_calm _ _ _ rfl).trans (bayNotice_calm ..)
  refine h1.trans ?_
  dsimp only
  split
  · refine Calm.trans (onBay_calm _ b (fun x => { x with resumeTimer := none }) rfl) ?_
    split
    · exact enterHeld_calm ..
    · exact ((enterState_calm ..).trans (bayNotice_calm ..)).trans (loadTest_calm ..)
  · exact .refl _

theorem latchCause_calm (d : Device) (c : TripCause) (set : Bool) : d.Calm (d.latchCause c set) := by
  refine Calm.foldl _ _ _ fun e b => ?_
  split
  · exact takeCause_calm ..
  · exact clearCause_calm ..

theorem valveTest_calm (d : Device) (b : BayId) : d.Calm (d.valveTest b) := by
  unfold valveTest
  split
  · exact clearCause_calm ..
  · exact .refl d

/-! ### Swipes and holds (R67, R78 to R81) -/

theorem swipeIdle_calm (d : Device) (b : BayId) (cred : Nat) : d.Calm (d.swipeIdle b cred) := by
  unfold swipeIdle
  split
  · exact (showMessage_calm ..).trans (bayNotice_calm ..)
  · exact (((assignOrder_calm ..).trans (enterState_calm ..)).trans (onBay_calm _ _ _ rfl)).trans (bayNotice_calm ..)

theorem swipeBid_calm (d : Device) (b : BayId) (cred : Nat) : d.Calm (d.swipeBid b cred) := by
  unfold swipeBid
  split
  · exact (showMessage_calm ..).trans (swipeIdle_calm ..)
  · exact (showMessage_calm ..).trans (onBay_calm _ _ _ rfl)
  · exact .refl d
  all_goals exact showMessage_calm ..

theorem holdTaken_calm (d : Device) (b : BayId) : d.Calm (d.holdTaken b) := by
  unfold holdTaken
  split
  · exact enterHeld_calm ..
  · exact (onBay_calm _ _ _ rfl).trans (enterHeld_calm ..)
  · exact (((enterState_calm ..).trans (onBay_calm _ _ _ rfl)).trans (interruptBay_calm ..)).trans (bayNotice_calm ..)
  all_goals exact bayNotice_calm ..

theorem grantHold_calm (d : Device) (b : BayId) : d.Calm (d.grantHold b) := by
  unfold grantHold
  split
  · exact (enterState_calm ..).trans (bayNotice_calm ..)
  · exact .refl d

theorem leaveHeld_calm (d : Device) (b : BayId) : d.Calm (d.leaveHeld b) := by
  have h1 : d.Calm (d.onBay b fun x => { x with before := none, swipe := none }) := onBay_calm _ _ _ rfl
  have idle : d.Calm (((d.onBay b fun x => { x with before := none, swipe := none }).enterState b .idle).bayNotice b 13 []) :=
    (h1.trans (enterState_calm ..)).trans (bayNotice_calm ..)
  unfold leaveHeld
  dsimp only
  split
  · split
    · exact (h1.trans (enterTrip_calm ..)).trans (bayNotice_calm ..)
    · exact ((h1.trans (enterState_calm ..)).trans (bayNotice_calm ..)).trans (loadTest_calm ..)
  · exact ((h1.trans (enterState_calm ..)).trans (onBay_calm _ _ _ rfl)).trans (bayNotice_calm ..)
  · split
    · exact idle.trans (swipeIdle_calm ..)
    · exact idle
  · split
    · exact idle.trans (swipeIdle_calm ..)
    · exact idle

theorem holdReleased_calm (d : Device) (b : BayId) : d.Calm (d.holdReleased b) := by
  unfold holdReleased
  split
  · exact leaveHeld_calm ..
  · exact (((enterState_calm ..).trans (onBay_calm _ _ _ rfl)).trans (bayNotice_calm ..)).trans (loadTest_calm ..)
  · exact (onBay_calm _ _ _ rfl).trans (bayNotice_calm ..)
  all_goals exact bayNotice_calm ..

theorem setHolds_calm (d : Device) (b : BayId) (x y : Bool) : d.Calm (d.setHolds b x y) := by
  have h1 : d.Calm (d.onBay b fun r => { r with holdBay := x, holdRack := y }) := onBay_calm _ _ _ rfl
  unfold setHolds
  dsimp only
  split
  · exact .refl d
  split
  · exact h1.trans (holdTaken_calm ..)
  split
  · exact h1.trans (holdReleased_calm ..)
  · exact h1.trans (bayNotice_calm ..)

theorem setRackHolds_calm (d : Device) (v : Bool) : d.Calm (d.setRackHolds v) :=
  Calm.foldl _ _ _ fun e b => setHolds_calm e b _ v

/-! ### START and STOP (R25, R69, R70) -/

theorem refuseStart_calm (d : Device) (b : BayId) (a : ArmId) (c : Display) : d.Calm (d.refuseStart b a c) :=
  (showMessage_calm ..).trans (armNotice_calm ..)

theorem loadStarted_calm (d : Device) (b : BayId) : d.Calm (d.loadStarted b) := by
  have h1 : d.Calm ((d.enterState b .loading).onBay b fun r => { r with authTimer := .stopped }) :=
    (enterState_calm ..).trans (onBay_calm _ _ _ rfl)
  unfold loadStarted
  dsimp only
  split
  · split
    · exact (h1.trans (onOrder_calm ..)).trans (bayNotice_calm ..)
    · exact h1.trans (bayNotice_calm ..)
  · exact .refl d

theorem startNew_calm (d : Device) (b : BayId) (a : ArmId) : d.Calm (d.startNew b a) := by
  unfold startNew
  split
  · exact refuseStart_calm ..
  split
  · exact .refl d
  split
  · exact (acceptBatch_calm ..).trans (loadStarted_calm ..)
  · exact .refl d

theorem startOld_calm (d : Device) (b : BayId) (a : ArmId) (t : Batch) (h : (d.arm a).batch = some t) :
    d.Calm (d.startOld b a t) := by
  unfold startOld
  split
  · split
    · exact refuseStart_calm ..
    · exact resumeBatch_calm d a t h
  · exact .refl d

theorem forwardStart_calm (d : Device) (b : BayId) (a : ArmId) : d.Calm (d.forwardStart b a) := by
  unfold forwardStart
  split
  · exact startNew_calm ..
  next t ht => exact startOld_calm d b a t ht

theorem startBid_calm (d : Device) (b : BayId) (a : ArmId) : d.Calm (d.startBid b a) := by
  have h0 := showMessage_calm d b none
  unfold startBid
  dsimp only
  split
  · exact .refl d
  split
  · exact h0.trans (showMessage_calm ..)
  split
  · exact (h0.trans (showMessage_calm ..)).trans (bayNotice_calm ..)
  · exact h0.trans (forwardStart_calm ..)
  · exact h0.trans (forwardStart_calm ..)
  · exact h0.trans (showMessage_calm ..)
  · exact h0.trans (showMessage_calm ..)
  · exact h0.trans (showMessage_calm ..)
  all_goals exact h0

theorem stopBid_calm (d : Device) (b : BayId) (a : ArmId) : d.Calm (d.stopBid b a) := by
  unfold stopBid
  split
  · exact .refl d
  · refine (showMessage_calm d b none).trans ?_
    dsimp only
    split
    · exact stopBatch_calm ..
    · exact .refl _

/-! ### Opening, closing and the commit of a note (R66, R84, R133) -/

theorem openBay_calm (d : Device) (b : BayId) : d.Calm (d.openBay b) := by
  have h1 := (enterState_calm d b .idle).trans (bayNotice_calm _ b 1 [])
  unfold openBay
  dsimp only
  split
  · exact h1.trans (enterHeld_calm ..)
  · exact h1

theorem shutBay_calm (d : Device) (b : BayId) : d.Calm (d.shutBay b) :=
  ((enterState_calm ..).trans (onBay_calm _ _ _ rfl)).trans (bayNotice_calm ..)

theorem commitComplete_calm (d : Device) (b : BayId) (k : SlotId) (n : Nat) : d.Calm (d.commitComplete b k n) := by
  unfold commitComplete
  dsimp only
  generalize hd3 : Device.raise _ _ _ _ _ = d3
  have h3 : d.Calm d3 := hd3 ▸ ((((((setSlot_calm d k (.retained n false)).trans
    (onNoteBay_calm _ b fun x => { x with held := none, last := n })).trans (removeOrder_calm _ b)).trans
    (enterState_calm _ b .idle)).trans (onBay_calm_of_inStep _ b Bay.committed fun _ x hx => nomatch hx)).trans (raise_calm ..))
  split
  · exact h3.trans (enterHeld_calm ..)
  · exact h3

/-! ### Valves, travel supervision and output drives (R35 to R39, R163) -/

theorem setPosition_batch (c : ArmCtl) (p : Position) : (c.setPosition p).batch = c.batch := rfl

theorem setCoupler_calm (d : Device) (a : ArmId) (k : Coupler) : d.Calm (d.setCoupler a k) := by
  have h1 : d.Calm (d.onArm a fun c => { c with coupler := k }) := onArm_calm_of_batch _ _ _ rfl
  unfold setCoupler
  dsimp only
  split
  · exact (h1.trans (interruptBatch_calm ..)).trans (armNotice_calm ..)
  · exact h1

theorem valveReport_calm (d : Device) (a : ArmId) (p : Position) (k : Coupler) : d.Calm (d.valveReport a p k) :=
  (onArm_calm_of_batch _ _ _ rfl).trans (setCoupler_calm ..)

theorem travelExpired_calm (d : Device) (a : ArmId) : d.Calm (d.travelExpired a) := by
  unfold travelExpired
  split
  · exact .refl d
  have h1 := (onArm_calm_of_batch d a (fun c => { c with travel := none }) rfl).trans
    (armNotice_calm _ a 6 [octets 1 (d.effectiveStage a).code, octets 1 (d.arm a).position.code])
  dsimp only
  split
  · exact h1.trans (interruptBatch_calm ..)
  · exact h1.trans (interruptBatch_calm ..)
  · refine (h1.trans ?_).trans (interruptBatch_calm ..)
    split
    · exact takeCause_calm ..
    · exact .refl _

theorem superviseArm_calm (old new : Device) (a : ArmId) : new.Calm (superviseArm old new a) := by
  unfold superviseArm
  dsimp only
  split
  · exact .refl new
  split
  · exact onArm_calm_of_batch _ _ _ rfl
  split
  all_goals exact onArm_calm_of_batch _ _ _ rfl

theorem supervise_calm (old new : Device) : new.Calm (supervise old new) :=
  Calm.foldl _ _ _ fun e a => superviseArm_calm old e a

theorem driveOutputs_calm (d : Device) : d.Calm d.driveOutputs := Calm.foldl _ _ _ fun e l => onLine_calm e l _

/-! ### Permissives, the ESD latch and the rack hold source (R165 to R170) -/

theorem reportGround_calm (d : Device) (b : BayId) (now : Bool) : d.Calm (d.reportGround b now) := by
  refine Calm.trans (onBay_calm d b (fun r => { r with ground := now }) rfl) ?_
  cases now
  · exact takeCause_calm ..
  · exact clearCause_calm ..

theorem reportOverfill_calm (d : Device) (b : BayId) (now : Bool) : d.Calm (d.reportOverfill b now) := by
  refine Calm.trans (onBay_calm d b (fun r => { r with overfill := now }) rfl) ?_
  cases now
  · exact takeCause_calm ..
  · exact clearCause_calm ..

theorem evalBay_calm (d : Device) (b : BayId) : d.Calm (d.evalBay b) := by
  unfold evalBay
  dsimp only
  generalize hd1 : (if d.groundNow b = (d.bay b).ground then d else d.reportGround b (d.groundNow b)) = d1
  have h1 : d.Calm d1 := by
    subst hd1
    split
    · exact .refl d
    · exact reportGround_calm ..
  split
  · exact h1
  · exact h1.trans (reportOverfill_calm ..)

theorem evalPermissives_calm (d : Device) : d.Calm d.evalPermissives := Calm.foldl _ _ _ evalBay_calm

theorem reportBoth_calm (d : Device) (b : BayId) : d.Calm (d.reportBoth b) := (reportGround_calm ..).trans (reportOverfill_calm ..)

theorem permitReturn_calm (d : Device) (n : Addr) (g o : Bool) : d.Calm (d.permitReturn n g o) := by
  unfold permitReturn
  split
  · exact (onLu_calm ..).trans (evalPermissives_calm _)
  · exact .refl d

theorem permitLost_calm (d : Device) (n : Addr) : d.Calm (d.permitLost n) := (onLu_calm ..).trans (evalPermissives_calm _)

theorem latchShots_calm (d : Device) : d.Calm d.latchShots := (latchShots_dosed d).calm

theorem esdEdge_calm (d : Device) : d.Calm d.esdEdge := by
  unfold esdEdge
  split
  · exact (((onLu_calm ..).trans (latchCause_calm ..)).trans (latchShots_calm _)).trans (luNotice_calm ..)
  split
  · exact (onLu_calm ..).trans (luNotice_calm ..)
  · exact .refl d

theorem clearEsd_calm (d e : Device) (h : d.clearEsd = some e) : d.Calm e := by
  unfold clearEsd at h
  split at h
  · cases h
  split at h
  all_goals obtain rfl := Option.some.inj h
  · exact (onLu_calm ..).trans (luNotice_calm ..)
  · exact ((onLu_calm ..).trans (latchCause_calm ..)).trans (luNotice_calm ..)

theorem evalHold_calm (d : Device) : d.Calm d.evalHold := by
  unfold evalHold
  dsimp only
  split
  · exact .refl d
  · exact ((onLu_calm ..).trans (setRackHolds_calm ..)).trans (luNotice_calm ..)

theorem setMgmtHold_calm (d : Device) (v : Bool) : d.Calm (d.setMgmtHold v) := by
  unfold setMgmtHold
  split
  · exact .refl d
  · exact ((onLu_calm ..).trans (luNotice_calm ..)).trans (evalHold_calm _)

/-! ### Zero flow and the seal (R22, R31) -/

theorem zeroFlowTest_calm (d : Device) (a : ArmId) : d.Calm (d.zeroFlowTest a) := by
  unfold zeroFlowTest
  split
  · exact .refl d
  split
  · exact batchEnded_calm ..
  · exact .refl d

theorem sealChanged_calm (d : Device) (a : ArmId) (v : Bool) : d.Calm (d.sealChanged a v) := by
  unfold sealChanged
  split
  · exact (onBatch_calm d a (fun b => { b with flags := b.flags.markGap }) fun _ => ⟨rfl, rfl⟩).trans (armNotice_calm ..)
  · exact armNotice_calm ..

/-! ### Calls and the launch of a sweep (R143, R154) -/

theorem call_calm (d : Device) (n : Addr) : d.Calm (d.call n).1 := by
  unfold call
  dsimp only
  split
  · exact .refl d
  split
  all_goals try exact .refl d
  · split
    · split
      · exact (offerShot_dosed ..).calm
      · exact .refl d
    · exact .refl d
  · split
    · split
      · exact .refl d
      · exact .refl d
    · exact .refl d

theorem callSlots_calm (l : List Addr) (d : Device) : d.Calm (d.callSlots l).1 := by
  induction l generalizing d with
  | nil => exact .refl d
  | cons n t ih => exact (call_calm d n).trans (ih _)

theorem launch_calm (d : Device) : d.Calm d.launch := by
  unfold launch
  dsimp only
  refine Calm.trans (Calm.trans ?_ (callSlots_calm _ _)) ((onMp_calm ..).trans (onLm_calm ..))
  split
  · exact onLm_calm ..
  · exact .refl d

end Device

end Sys2Proof.Machine
end

