-- ==== Sys2Proof/Proofs/Ledger.lean ====
section
/-! L1 as a ledger: for each arm the stored totalizer, the amounts queued and the unwritten accumulator make up the running
totalizer, but for what the Metering Engine still owes it in the middle of a sample. What each move of the Custody Writer
does to the ledger (R112 to R118). -/

namespace Sys2Proof.Machine

open Sys2Proof

/-- The meter's mirror, net residue and last VCF stand as before. -/
def Meter.sameLaws (m n : Meter) : Prop := n.mirror = m.mirror ∧ n.netResidue = m.netResidue ∧ n.lastVcf = m.lastVcf

namespace Device

/-- The ledger of the part, short of `owed`: the mirrors run ahead of it by these amounts. -/
structure Ledger (owed : ArmId → Vol) (d : Device) : Prop where
  written : ∀ a, Bank.read d.cw.written a = d.stored a
  ids     : idsBelow d.cw.nextId d.cw.queue
  sums    : ∀ a, (d.meter a).mirror = (((d.stored a).add (postsOf a d.cw.queue)).add (d.meter a).unwritten).add (owed a)

/-- Nothing owed. -/
def nothing : ArmId → Vol := fun _ => ⟨0, 0⟩

/-- Amounts owed to one arm. -/
def owedTo (a : ArmId) (v : Vol) : ArmId → Vol := fun x => if x = a then v else ⟨0, 0⟩

theorem custodySound_iff (d : Device) : d.custodySound ↔ (d.boot ≠ .off → d.Ledger nothing) := by
  refine imp_congr Iff.rfl ⟨fun ⟨⟨h1, h2, h3⟩, h4⟩ => ⟨h1, ⟨h2, h3⟩, fun a => ?_⟩,
    fun ⟨h1, ⟨h2, h3⟩, h4⟩ => ⟨⟨h1, h2, h3⟩, fun a => ?_⟩⟩
  · rw [h4 a, Cw.queued_eq]; rfl
  · rw [h4 a, Cw.queued_eq]; rfl

/-! ### What every step keeps -/

/-- From `d` to `e` the laws L1 to L4 are kept, each by itself. -/
structure Keeps (d e : Device) : Prop where
  custody  : d.custodySound → e.custodySound
  batches  : d.batchesAgree → e.batchesAgree
  residues : d.residuesBounded → e.residuesBounded

theorem Keeps.refl (d : Device) : d.Keeps d := ⟨id, id, id⟩

theorem Keeps.trans {d e f : Device} (h : d.Keeps e) (k : e.Keeps f) : d.Keeps f :=
  ⟨fun x => k.custody (h.custody x), fun x => k.batches (h.batches x), fun x => k.residues (h.residues x)⟩

theorem Keeps.foldl {α : Type} (f : Device → α → Device) (l : List α) (d : Device) (h : ∀ (e : Device) (x : α), e.Keeps (f e x)) :
    d.Keeps (l.foldl f d) := by
  induction l generalizing d with
  | nil => exact .refl d
  | cons x t ih => exact (h d x).trans (ih _)

/-- Operations that leave the books alone keep the laws. -/
theorem Calm.keeps {d e : Device} (h : d.Calm e) : d.Keeps e where
  custody := by simp only [custodySound, queueSound, mirrorsAgree, stored, meter, h.boot, h.custody, h.meters, h.cw, imp_self]
  batches := h.batches
  residues := by simp only [residuesBounded, meter, h.meters, imp_self]

/-- Operations on the books that touch no batch, and of the meters neither the mirror nor what L3 and L4 bound. -/
theorem Keeps.of_ledger {d e : Device} (hb : e.boot = d.boot) (ha : e.arms = d.arms) (hy : e.bays = d.bays)
    (hm : ∀ a, (d.meter a).sameLaws (e.meter a))
    (hl : d.boot ≠ .off → d.Ledger nothing → e.Ledger nothing) : d.Keeps e where
  custody hd := (custodySound_iff e).mpr fun he => hl (hb ▸ he) ((custodySound_iff d).mp hd (hb ▸ he))
  batches hd := by
    have harm : ∀ a, e.arm a = d.arm a := fun a => by simp only [arm, ha]
    have hbay : ∀ b, e.bay b = d.bay b := fun b => by simp only [bay, hy]
    refine ⟨fun a x hx => ?_, fun b x hx => hd.2 b x (hbay b ▸ hx)⟩
    rw [(hm a).1]
    exact hd.1 a x (harm a ▸ hx)
  residues hd a := by
    rw [(hm a).2.1, (hm a).2.2]
    exact hd a

theorem meter_of_meters {d e : Device} (h : e.meters = d.meters) (a : ArmId) : (d.meter a).sameLaws (e.meter a) := by
  simp only [meter, h]
  exact ⟨rfl, rfl, rfl⟩

theorem stored_of_totals {d e : Device} (h : e.custody.totals = d.custody.totals) (a : ArmId) : e.stored a = d.stored a := by
  simp only [stored, h]

/-! ### The Custody Writer's record -/

/-- Changes of the Custody Writer that leave its queue's amounts and identifiers, its written values and the next identifier. -/
theorem onCw_keeps (d : Device) (f : Cw → Cw)
    (hp : idsBelow d.cw.nextId d.cw.queue → ∀ a, postsOf a (f d.cw).queue = postsOf a d.cw.queue)
    (hi : idsBelow d.cw.nextId d.cw.queue → idsBelow (f d.cw).nextId (f d.cw).queue)
    (hw : (f d.cw).written = d.cw.written) : d.Keeps (d.onCw f) := by
  refine Keeps.of_ledger rfl rfl rfl (meter_of_meters rfl) fun _ hl => ⟨fun a => ?_, hi hl.ids, fun a => ?_⟩
  · rw [onCw_cw, hw]; exact hl.written a
  · rw [onCw_cw, hp hl.ids]; exact hl.sums a

/-- Changes of the Custody Writer beside its queue and its written values. -/
theorem onCw_keeps_of_queue (d : Device) (f : Cw → Cw) (hq : (f d.cw).queue = d.cw.queue)
    (hw : (f d.cw).written = d.cw.written) (hn : (f d.cw).nextId = d.cw.nextId) : d.Keeps (d.onCw f) :=
  onCw_keeps d f (fun _ _ => by rw [hq]) (by rw [hq, hn]; exact id) hw

/-- R113: a barrier placed anywhere in the queue. -/
theorem insertBarrier_keeps (d : Device) (l m : List QEntry) (b : Barrier) (h : d.cw.queue = l ++ m) :
    d.Keeps (d.onCw fun c => { c with queue := l ++ [⟨c.nextId, .barrier b, false⟩] ++ m, nextId := c.nextId + 1 }) :=
  onCw_keeps d _ (fun _ a => by rw [h]; exact postsOf_insert_barrier a _ b l m rfl)
    (fun hi => idsBelow_insert ⟨d.cw.nextId, .barrier b, false⟩ (h ▸ hi) rfl) rfl

theorem appendBarrier_keeps (d : Device) (b : BayId) (k : SlotId) (i : NoteImage) : d.Keeps (d.appendBarrier b k i) := by
  have h := insertBarrier_keeps d d.cw.queue [] ⟨b, k, i, none, .body⟩ (by simp)
  simp only [List.append_nil] at h
  exact h

theorem headBarrier_keeps (d : Device) (b : BayId) (k : SlotId) (i : NoteImage) : d.Keeps (d.headBarrier b k i) :=
  insertBarrier_keeps d _ _ _ List.takeWhile_append_dropWhile.symm

/-! ### A post handed to the Custody Writer (R18, R112) -/

/-- R112: a post of amounts that the ledger was short of. -/
theorem placeTotals_ledger (d : Device) (a : ArmId) (v : Vol) (recovery : Bool) (h : d.Ledger (owedTo a v)) :
    (d.placeTotals a v recovery).Ledger nothing := by
  unfold placeTotals
  split
  next q hq =>
    obtain ⟨h1, h2⟩ := placePost_placed hq
    refine ⟨h.written, h2 h.ids, fun x => ?_⟩
    have hs := h.sums x
    simp only [onCw_cw, onCw_meter, h1, nothing, owedTo, eq_comm (a := a)] at hs ⊢
    rw [hs, Vol.add_zero]
    simp only [stored, onCw_custody, Vol.add_assoc, Vol.add_comm, Vol.add_left_comm]
  next =>
    refine ⟨h.written, h.ids, fun x => ?_⟩
    have hs := h.sums x
    rw [onMeter_meter]
    split
    next hx =>
      subst hx
      simp only [owedTo, if_true] at hs
      simp only [onMeter_cw, onCw_cw, onCw_meter, nothing, hs, Vol.add_zero, Vol.add_assoc]
      rfl
    next hx =>
      simp only [owedTo, hx, if_false] at hs
      exact hs

/-- R18: the increments and the arm's accumulator handed on. -/
theorem postTotals_ledger (d : Device) (a : ArmId) (inc : Vol) (h : d.Ledger (owedTo a inc)) :
    (d.postTotals a inc).Ledger nothing := by
  unfold postTotals
  dsimp only
  split
  next hz =>
    have hz' : inc = ⟨0, 0⟩ := by
      simp only [Vol.isZero, Vol.add, Bool.and_eq_true, beq_iff_eq, Nat.add_eq_zero_iff] at hz
      cases inc; simp_all
    refine ⟨h.written, h.ids, fun x => ?_⟩
    rw [h.sums x, hz']
    simp only [owedTo, ite_self, nothing]
  next =>
    refine placeTotals_ledger _ a _ _ ⟨h.written, h.ids, fun x => ?_⟩
    have hs := h.sums x
    rw [onMeter_meter]
    split
    next hx =>
      subst hx
      simp only [owedTo, if_true] at hs ⊢
      rw [hs, Vol.add_zero, Vol.add_assoc, Vol.add_comm (d.meter x).unwritten]
      rfl
    next hx =>
      simp only [owedTo, hx, if_false] at hs ⊢
      exact hs

theorem placeTotals_meter (d : Device) (a x : ArmId) (v : Vol) (recovery : Bool) :
    ∃ u, (d.placeTotals a v recovery).meter x = { d.meter x with unwritten := u } := by
  unfold placeTotals
  split
  · exact ⟨_, rfl⟩
  · rw [onMeter_meter]
    split
    next hx => subst hx; exact ⟨_, rfl⟩
    next => exact ⟨_, rfl⟩

theorem postTotals_meter (d : Device) (a x : ArmId) (v : Vol) :
    ∃ u, (d.postTotals a v).meter x = { d.meter x with unwritten := u } := by
  unfold postTotals
  dsimp only
  split
  · exact ⟨_, rfl⟩
  · obtain ⟨u, hu⟩ := placeTotals_meter (d.onMeter a fun m => { m with unwritten := ⟨0, 0⟩ }) a x
      (v.add (d.meter a).unwritten) (!(d.meter a).unwritten.isZero)
    rw [hu, onMeter_meter]
    split
    next hx => subst hx; exact ⟨u, rfl⟩
    next => exact ⟨u, rfl⟩

/-- What a post touches: the Custody Writer and the meters. -/
theorem postTotals_rest (d : Device) (a : ArmId) (v : Vol) :
    { d with cw := (d.postTotals a v).cw, meters := (d.postTotals a v).meters } = d.postTotals a v := by
  unfold postTotals placeTotals
  dsimp only
  split
  · rfl
  · split <;> rfl

/-! ### Recovery at a barrier (R116) -/

theorem takeUnwritten_meter (l : List ArmId) (d : Device) (x : ArmId) :
    (d.takeUnwritten l).meter x = if x ∈ l then { d.meter x with unwritten := ⟨0, 0⟩ } else d.meter x := by
  unfold takeUnwritten
  induction l generalizing d with
  | nil => simp
  | cons a t ih =>
    rw [List.foldl_cons, ih, onMeter_meter]
    by_cases hx : x = a
    · subst hx; simp
    · simp [hx]

theorem takeUnwritten_rest (l : List ArmId) (d : Device) : { d with meters := (d.takeUnwritten l).meters } = d.takeUnwritten l := by
  unfold takeUnwritten
  induction l generalizing d with
  | nil => rfl
  | cons a t ih => rw [List.foldl_cons, ← ih]; rfl

/-- The entries inserted for the arms carry their accumulators. -/
theorem postsOf_recoveryEntries (d : Device) (x : ArmId) (l : List ArmId) (n : Nat) (h : l.Nodup) :
    postsOf x (recoveryEntries d n l) = if x ∈ l then (d.meter x).unwritten else ⟨0, 0⟩ := by
  induction l generalizing n with
  | nil => rfl
  | cons a t ih =>
    rw [List.nodup_cons] at h
    rw [recoveryEntries, postsOf_cons_post, ih _ h.2]
    by_cases hx : a = x
    · subst hx; simp [h.1]
    · simp [hx, Ne.symm hx]

theorem recoveryEntries_length (d : Device) (l : List ArmId) (n : Nat) : (recoveryEntries d n l).length = l.length := by
  induction l generalizing n with
  | nil => rfl
  | cons a t ih => simp [recoveryEntries, ih]

/-- They take the identifiers from the next one on. -/
theorem idsBelow_recoveryEntries (d : Device) (l : List ArmId) (n : Nat) (q : List QEntry) (h : idsBelow n q) :
    idsBelow (n + l.length) (recoveryEntries d n l ++ q) := by
  induction l generalizing n q with
  | nil => exact h
  | cons a t ih =>
    let x : QEntry := ⟨n, .post ⟨a, (d.meter a).unwritten, true⟩, false⟩
    have hi := ih (n + 1) ([] ++ [x] ++ q) (idsBelow_insert x h rfl)
    have hp : (recoveryEntries d (n + 1) t ++ ([] ++ [x] ++ q)).Perm (recoveryEntries d n (a :: t) ++ q) :=
      List.perm_middle (a := x)
    rw [List.length_cons, Nat.add_comm t.length, ← Nat.add_assoc]
    exact ⟨(hp.map QEntry.id).nodup_iff.mp hi.1, fun e he => hi.2 e (hp.mem_iff.mpr he)⟩

/-- A queue whose head is marked started. -/
theorem startHead_keeps (d : Device) (e f : QEntry) (rest : List QEntry) (job : WriteJob) (h : d.cw.queue = f :: rest)
    (hi : e.id = f.id) (hp : ∀ a, e.isOf a = f.isOf a ∧ e.vol = f.vol) : d.Keeps (d.startHead e rest job) := by
  refine onCw_keeps d _ (fun _ a => ?_) (fun hq => idsBelow_congr hq ?_) rfl
  · rw [h]
    exact congrArg₂ Vol.add (by rw [← (hp a).1, ← (hp a).2]; rfl) rfl
  · simp [h, hi]

theorem startHead_self_keeps (d : Device) (e : QEntry) (rest : List QEntry) (job : WriteJob) (h : d.cw.queue = e :: rest) :
    d.Keeps (d.startHead e rest job) := startHead_keeps d e e rest job h rfl fun _ => And.intro rfl rfl

/-- R116: the accumulators of a barrier's arms come ahead of it. -/
theorem recovery_keeps (d : Device) (l : List ArmId) (hn : l.Nodup) :
    d.Keeps ((d.takeUnwritten l).onCw fun c =>
      { c with queue := recoveryEntries d d.cw.nextId l ++ d.cw.queue, nextId := c.nextId + l.length }) := by
  have hr := takeUnwritten_rest l d
  refine Keeps.of_ledger ?_ ?_ ?_ (fun a => ?_) fun _ hl => ⟨fun a => ?_, ?_, fun a => ?_⟩
  · rw [onCw_boot, ← hr]
  · rw [onCw_arms, ← hr]
  · rw [onCw_bays, ← hr]
  · rw [onCw_meter, takeUnwritten_meter]
    split <;> exact ⟨rfl, rfl, rfl⟩
  · rw [onCw_cw, ← hr]; exact hl.written a
  · rw [onCw_cw, ← hr]; exact idsBelow_recoveryEntries d l _ _ hl.ids
  · have hs := hl.sums a
    have hst : ((d.takeUnwritten l).onCw fun c =>
        { c with queue := recoveryEntries d d.cw.nextId l ++ d.cw.queue, nextId := c.nextId + l.length }).stored a = d.stored a :=
      stored_of_totals (by rw [onCw_custody, ← hr]) a
    rw [hst, onCw_cw, postsOf_append, postsOf_recoveryEntries d a l _ hn, onCw_meter, takeUnwritten_meter]
    split
    · simp only [hs, nothing, Vol.add_zero, Vol.add_comm, Vol.add_left_comm]
    · rw [Vol.zero_add]; exact hs

theorem recoveryArms_nodup (d : Device) (i : NoteImage) : (d.recoveryArms i).Nodup :=
  (by decide : allArms.Nodup).sublist List.filter_sublist

theorem lookAtBarrier_keeps (d : Device) (e : QEntry) (b : Barrier) (rest : List QEntry) (hq : d.cw.queue = e :: rest)
    (hb : e.body = .barrier b) : d.Keeps (d.lookAtBarrier e b rest) := by
  have hn := recoveryArms_nodup d b.image
  unfold lookAtBarrier
  split
  next a t hr =>
    rw [hr] at hn
    have h1 := recovery_keeps d (a :: t) hn
    rw [hq] at h1
    exact h1.trans (startHead_self_keeps _ _ _ _ rfl)
  next =>
    split
    · exact (onCw_keeps_of_queue _ _ rfl rfl rfl).trans (rackNotice_calm ..).keeps
    · refine startHead_keeps d _ e rest _ hq rfl fun a => ⟨?_, ?_⟩ <;> simp [QEntry.isOf, QEntry.vol, hb]

/-- R114: the Custody Writer takes its next work. -/
theorem cwStart_keeps (d : Device) : d.Keeps d.cwStart := by
  unfold cwStart
  split
  · exact .refl d
  split
  · exact onCw_keeps_of_queue _ _ rfl rfl rfl
  split
  · exact .refl d
  next e rest hq =>
    split
    · exact startHead_self_keeps d e rest _ hq
    next b hb =>
      split
      · exact onCw_keeps_of_queue _ _ rfl rfl rfl
      split
      · split
        · exact .refl d
        · exact lookAtBarrier_keeps d e b rest hq hb
      · exact lookAtBarrier_keeps d e b rest hq hb

/-! ### Waiting reads and parking (R121, R123) -/

theorem reply_calm (d : Device) (k : Nat) (t : Byte) (st : Status) (els : List Element) : d.Calm (d.reply k t st els) := onMp_calm ..
theorem leaveService_calm (d : Device) : d.Calm d.leaveService := onMp_calm ..
theorem intoService_calm (d : Device) (c : Instr) : d.Calm (d.intoService c) := onMp_calm ..
theorem finish_calm (d : Device) (k : Nat) (t : Byte) (st : Status) (els : List Element) : d.Calm (d.finish k t st els) :=
  (reply_calm ..).trans (leaveService_calm _)
theorem answerTotalizer_calm (d : Device) (t : Byte) (a : ArmId) : d.Calm (d.answerTotalizer t a) := reply_calm ..

theorem serveWaiting_keeps (d : Device) (always : Bool) : d.Keeps (d.serveWaiting always) := by
  unfold serveWaiting
  split
  · exact .refl d
  split
  · exact (onCw_keeps_of_queue d (fun c => { c with waiting := none }) rfl rfl rfl).trans
      ((onMp_calm ..).trans (answerTotalizer_calm ..)).keeps
  · exact .refl d

theorem takeRead_keeps (d : Device) (t : Byte) (a : ArmId) : d.Keeps (d.takeRead t a) := by
  unfold takeRead
  split
  · exact ((answerTotalizer_calm ..).trans (leaveService_calm _)).keeps
  · exact (onCw_keeps_of_queue d (fun c => { c with waiting := some ⟨t, a, c.entriesOf a⟩ }) rfl rfl rfl).trans
      ((onMp_calm ..).trans (leaveService_calm _)).keeps

theorem resumeRead_keeps (d : Device) : d.Keeps d.resumeRead := by
  unfold resumeRead
  split
  · split
    · split
      · exact takeRead_keeps ..
      · exact .refl d
    · exact .refl d
  · exact .refl d

theorem cwPark_keeps (d : Device) : d.Keeps d.cwPark := by
  unfold cwPark
  split
  · exact (((onCw_keeps_of_queue _ _ rfl rfl rfl).trans (rackNotice_calm ..).keeps).trans (serveWaiting_keeps ..)).trans
      (resumeRead_keeps _)
  · exact .refl d

end Device

end Sys2Proof.Machine
end

