-- ==== Sys2Proof/Proofs/CustodyWrites.lean ====
section
/-! Custody writes and the laws: a write that completes good or fails (R114 to R120), the notes it serves, and the scan after a
reset, which loads the running totalizers from the stored ones (R125). -/

namespace Sys2Proof.Machine

open Sys2Proof

namespace Device

/-! ### Notes (R127 to R135) -/

theorem slotAvailable_keeps (d : Device) (k : SlotId) : d.Keeps (d.slotAvailable k) := by
  unfold slotAvailable
  split
  · exact (setSlot_calm ..).keeps
  next b _ =>
    dsimp only
    have hf : ∀ e : Device, e.Calm (e.failSlotOf b) := fun e => by
      unfold failSlotOf
      split
      · exact setSlot_calm ..
      · exact .refl e
    have h2 : d.Calm ((((d.setSlot k .free).failSlotOf b).setSlot k (.reserved b false)).onNoteBay b fun n =>
        { n with stall := none }) :=
      (((setSlot_calm d k .free).trans (hf _)).trans (setSlot_calm ..)).trans (onNoteBay_calm ..)
    split
    · exact (h2.keeps.trans (headBarrier_keeps ..)).trans (bayNotice_calm ..).keeps
    · exact (h2.trans (bayNotice_calm ..)).keeps

theorem giveUpSlot_keeps (d : Device) (b : BayId) : d.Keeps (d.giveUpSlot b) := by
  unfold giveUpSlot
  split
  · exact slotAvailable_keeps ..
  · exact .refl d

theorem commitNote_keeps (d : Device) (b : BayId) : d.Keeps (d.commitNote b) := by
  unfold commitNote
  split
  · exact (onNoteBay_calm ..).keeps.trans (appendBarrier_keeps ..)
  · exact .refl d

theorem commitFailed_keeps (d : Device) (b : BayId) (k : SlotId) (i : NoteImage) : d.Keeps (d.commitFailed b k i) := by
  have h0 := onNoteBay_calm d b fun n => { n with held := some i }
  unfold commitFailed
  dsimp only
  split
  · exact ((h0.trans ((setSlot_calm ..).trans (setSlot_calm ..))).keeps.trans (headBarrier_keeps ..)).trans
      (rackNotice_calm ..).keeps
  · exact (((h0.trans (setSlot_calm ..)).trans (onNoteBay_calm ..)).trans ((onNu_calm ..).trans (bayNotice_calm ..))).keeps

/-! ### Withdrawal and the closing of a load (R71, R83) -/

theorem withdrawOrder_keeps (d : Device) (b : BayId) (removed : Bool) : d.Keeps (d.withdrawOrder b removed) := by
  unfold withdrawOrder
  split
  · exact giveUpSlot_keeps ..
  next o _ =>
    refine ((releaseLines_calm d o fun _ => true).keeps.trans ?_).trans (giveUpSlot_keeps ..)
    split
    · exact (onOrders_calm ..).keeps
    · exact (onOrder_calm ..).keeps

theorem withdraw_keeps (d : Device) (b : BayId) (c : WithdrawCause) : d.Keeps (d.withdraw b c) := by
  have h1 := (withdrawOrder_keeps d b (c == .orderCancel)).trans (onBay_calm _ b Bay.withdrawn rfl).keeps
  unfold withdraw
  dsimp only
  generalize hd2 : (if (d.bay b).state = .authorized then
    ((d.withdrawOrder b (c == .orderCancel)).onBay b Bay.withdrawn).enterState b .idle
    else (d.withdrawOrder b (c == .orderCancel)).onBay b Bay.withdrawn) = d2
  have h2 : d.Keeps d2 := by
    subst hd2
    split
    · exact h1.trans (enterState_calm ..).keeps
    · exact h1
  split
  · exact h2.trans (((enterState_calm ..).trans (onBay_calm _ _ _ rfl)).trans (bayNotice_calm ..)).keeps
  · exact h2.trans (bayNotice_calm ..).keeps

theorem authExpired_keeps (d : Device) (b : BayId) : d.Keeps (d.authExpired b) :=
  (withdraw_keeps ..).trans (bayNotice_calm ..).keeps

theorem finishLoad_keeps {d e : Device} {b : BayId} {c : WithdrawCause} (h : d.finishLoad b c = some e) : d.Keeps e := by
  unfold finishLoad at h
  dsimp only at h
  split at h
  case h_5 => obtain rfl := Option.some.inj h; exact withdraw_keeps ..
  case h_6 | h_7 => obtain rfl := Option.some.inj h; exact (closeLoad_calm ..).keeps
  case h_8 =>
    split at h
    · obtain rfl := Option.some.inj h; exact withdraw_keeps ..
    · obtain rfl := Option.some.inj h; exact (closeLoad_calm ..).keeps
    all_goals cases h
  case h_9 =>
    split at h
    · cases h
    · obtain rfl := Option.some.inj h; exact (closeLoad_calm ..).keeps
  all_goals cases h

theorem finishBid_keeps (d : Device) (b : BayId) : d.Keeps (d.finishBid b) := by
  unfold finishBid
  split
  · exact .refl d
  refine (showMessage_calm d b none).keeps.trans ?_
  dsimp only
  split
  next e he => exact finishLoad_keeps he
  next =>
    split
    · exact (showMessage_calm ..).keeps
    · exact .refl _

theorem closeBay_keeps {d e : Device} {b : BayId} (h : d.closeBay b = some e) : d.Keeps e := by
  unfold closeBay at h
  dsimp only at h
  split at h
  case h_1 => obtain rfl := Option.some.inj h; exact .refl d
  case h_2 => obtain rfl := Option.some.inj h; exact (shutBay_calm ..).keeps
  case h_3 => obtain rfl := Option.some.inj h; exact withdraw_keeps ..
  case h_4 =>
    split at h
    · obtain rfl := Option.some.inj h; exact (shutBay_calm ..).keeps
    · obtain rfl := Option.some.inj h; exact withdraw_keeps ..
    all_goals cases h
  all_goals cases h

theorem cancelLeft_metered (x : Batch) : x.cancelLeft.metered = x.metered := (dosingChange_throttleClear _).1

theorem cancelLeft_calm (d : Device) (b : BayId) : d.Calm (d.onBay b fun r => { r with ended := r.ended.map Batch.cancelLeft }) := by
  refine (onBay_dosed d b _ ⟨?_, rfl⟩).calm
  rw [List.map_map]
  exact List.map_congr_left fun x _ => cancelLeft_metered x

theorem closingTest_keeps (d : Device) (b : BayId) : d.Keeps (d.closingTest b) := by
  unfold closingTest
  split
  · refine Keeps.trans (((cancelLeft_calm d b).trans ?_).keeps.trans (commitNote_keeps ..))
      ((enterState_calm ..).trans (bayNotice_calm ..)).keeps
    split
    · exact releaseLines_calm ..
    · exact .refl _
  · exact .refl d

/-! ### What follows every event -/

theorem bayTests_keeps (d : Device) (b : BayId) : d.Keeps (d.bayTests b) :=
  ((valveTest_calm ..).trans (grantHold_calm ..)).keeps.trans (closingTest_keeps ..)

theorem settle_keeps (old new : Device) : new.Keeps (settle old new) :=
  ((((supervise_calm old new).keeps.trans (Keeps.foldl _ _ _ bayTests_keeps)).trans (driveOutputs_calm _).keeps).trans
    (cwStart_keeps _)).trans (cwPark_keeps _)

theorem event_keeps {d : Device} {f : Device → Device} (h : d.Keeps (f d)) : d.Keeps (d.event f) := h.trans (settle_keeps ..)

/-! ### What a write leaves in custody memory -/

theorem entry_mem {c : Cw} {id : Nat} {e : QEntry} (h : c.entry id = some e) : e ∈ c.queue ∧ e.id = id :=
  ⟨List.mem_of_find?_eq_some h, by simpa using List.find?_some h⟩

/-- The entry that a job names, by the body found under its identifier. -/
theorem entry_of_body {c : Cw} {id : Nat} {x : EntryBody} (h : (c.entry id).map QEntry.body = some x) :
    ∃ e ∈ c.queue, e.id = id ∧ e.body = x := by
  obtain ⟨e, he, hx⟩ := Option.map_eq_some_iff.mp h
  exact ⟨e, (entry_mem he).1, (entry_mem he).2, hx⟩

theorem postsOf_drop_post {q : List QEntry} {id : Nat} {e : QEntry} {p : Post} (a : ArmId) (h : (q.map QEntry.id).Nodup)
    (he : e ∈ q) (hi : e.id = id) (hp : e.body = .post p) :
    postsOf a q = (if p.arm = a then p.vol else ⟨0, 0⟩).add (postsOf a (q.filter fun x => x.id != id)) := by
  subst hi
  rw [postsOf_drop a e q h he]
  simp [QEntry.isOf, QEntry.vol, hp]

theorem postsOf_drop_barrier {q : List QEntry} {id : Nat} {e : QEntry} {b : Barrier} (a : ArmId) (h : (q.map QEntry.id).Nodup)
    (he : e ∈ q) (hi : e.id = id) (hb : e.body = .barrier b) : postsOf a (q.filter fun x => x.id != id) = postsOf a q := by
  subst hi
  rw [postsOf_drop a e q h he]
  simp [QEntry.isOf, hb]

/-- A barrier leaves the queue. -/
theorem dropBarrier_keeps (d : Device) (f : Cw → Cw) {id : Nat} {b : Barrier}
    (h : (d.cw.entry id).map QEntry.body = some (.barrier b)) (hq : (f d.cw).queue = d.cw.queue.filter fun x => x.id != id)
    (hw : (f d.cw).written = d.cw.written) (hn : (f d.cw).nextId = d.cw.nextId) : d.Keeps (d.onCw f) := by
  obtain ⟨e, he, hi, hb⟩ := entry_of_body h
  refine onCw_keeps d f (fun hids a => ?_) (fun hids => ?_) hw
  · rw [hq]; exact postsOf_drop_barrier a hids.1 he hi hb
  · rw [hq, hn]; exact idsBelow_filter _ hids

/-- Custody memory changed beside its totalizer records. -/
theorem onCustody_keeps (d : Device) (m : Custody) (h : m.totals = d.custody.totals) : d.Keeps (d.onCustody fun _ => m) := by
  refine Keeps.of_ledger rfl rfl rfl (meter_of_meters rfl) fun _ hl => ?_
  have hs := fun a => stored_of_totals (d := d) (e := d.onCustody fun _ => m) h a
  exact ⟨fun a => (hl.written a).trans (hs a).symm, hl.ids, fun a => by rw [hs]; exact hl.sums a⟩

theorem writePart_totals (m : Custody) (b : Barrier) (part : BarrierPart) : (m.writePart b part).totals = m.totals := by
  cases part <;> rfl

/-- R114: the post of an entry written good: its amounts pass from the queue to the stored totalizer. -/
theorem postWritten_keeps (d : Device) {id : Nat} {p : Post} (h : (d.cw.entry id).map QEntry.body = some (.post p)) :
    d.Keeps ((d.onCustody fun m => m.writeTotals p.arm (d.cw.newWritten p)).postWritten id p) := by
  obtain ⟨e, he, hi, hp⟩ := entry_of_body h
  refine Keeps.of_ledger rfl rfl rfl (meter_of_meters rfl) fun _ hl => ?_
  have hst : ∀ a, ((d.onCustody fun m => m.writeTotals p.arm (d.cw.newWritten p)).postWritten id p).stored a =
      if a = p.arm then (d.stored a).add p.vol else d.stored a := by
    intro a
    simp only [stored, postWritten, onCw_custody, onCustody_custody, Custody.writeTotals, Bank.read_write, Cw.newWritten, hl.written]
    split
    next ha => subst ha; rfl
    next => rfl
  refine ⟨fun a => ?_, idsBelow_filter _ hl.ids, fun a => ?_⟩
  · rw [hst, postWritten, onCw_cw, Bank.read_write, onCustody_cw]
    split
    next ha => subst ha; rw [Cw.newWritten, hl.written]
    next => exact hl.written a
  · have hs := hl.sums a
    rw [postsOf_drop_post a hl.ids.1 he hi hp] at hs
    rw [hst]
    refine hs.trans ?_
    show _ = (((_ : Vol).add (postsOf a (d.cw.queue.filter fun x => x.id != id))).add (d.meter a).unwritten).add (nothing a)
    by_cases ha : p.arm = a
    · rw [if_pos ha, if_pos ha.symm, ← Vol.add_assoc]
    · rw [if_neg ha, if_neg (Ne.symm ha), Vol.zero_add]

theorem heldTest_keeps (d : Device) : d.Keeps d.heldTest := by
  unfold heldTest
  split
  · split
    · exact onCw_keeps_of_queue _ _ rfl rfl rfl
    · exact .refl d
  all_goals exact .refl d

/-- Setting a barrier's next part changes no post and no identifier. -/
theorem setPart_keeps (d : Device) (id : Nat) (p : BarrierPart) : d.Keeps (d.onCw fun c => c.setPart id p) := by
  have hf : ∀ e : QEntry, ∀ f, f = (if e.id == id then
        (match e.body with
          | .barrier b => { e with body := .barrier { b with part := p } }
          | .post _ => e)
      else e) → f.id = e.id ∧ ∀ a, f.isOf a = e.isOf a ∧ f.vol = e.vol := by
    rintro e f rfl
    split
    · split
      next b hb => exact ⟨rfl, fun a => by simp [QEntry.isOf, QEntry.vol, hb]⟩
      next => exact ⟨rfl, fun _ => ⟨rfl, rfl⟩⟩
    · exact ⟨rfl, fun _ => ⟨rfl, rfl⟩⟩
  refine onCw_keeps d _ (fun _ a => postsOf_map a _ _ fun e _ => (hf e _ rfl).2 a) (fun hi => idsBelow_congr hi ?_) rfl
  rw [show (d.cw.setPart id p).queue = d.cw.queue.map _ from rfl, List.map_map]
  exact List.map_congr_left fun e _ => (hf e _ rfl).1

theorem partWritten_keeps (d : Device) {id : Nat} {b : Barrier} (part : BarrierPart)
    (h : (d.cw.entry id).map QEntry.body = some (.barrier b)) : d.Keeps (d.partWritten id b part) := by
  unfold partWritten
  split
  · exact setPart_keeps ..
  · exact (dropBarrier_keeps d _ h rfl rfl rfl).trans (commitComplete_calm ..).keeps

theorem releaseWritten_keeps (d : Device) (k : SlotId) : d.Keeps (d.releaseWritten k) :=
  (onCw_keeps_of_queue _ _ rfl rfl rfl).trans (slotAvailable_keeps ..)

/-- R114, R118, R120: a write completes good. -/
theorem writeGood_keeps (d : Device) (job : WriteJob) : d.Keeps (d.writeGood job) := by
  unfold writeGood
  refine Keeps.trans ?_ (heldTest_keeps _)
  cases job with
  | post id =>
    rcases h : (d.cw.entry id).map QEntry.body with _ | (p | b) <;> simp only [landed, h]
    · exact onCustody_keeps d _ rfl
    · exact postWritten_keeps d h
    · exact onCustody_keeps d _ rfl
  | barrier id part =>
    rcases h : (d.cw.entry id).map QEntry.body with _ | (p | b) <;> simp only [landed, h]
    · exact onCustody_keeps d _ rfl
    · exact onCustody_keeps d _ rfl
    · exact (onCustody_keeps d _ (writePart_totals _ b part)).trans (partWritten_keeps _ part h)
  | release k =>
    have h1 : d.Keeps (d.onCustody fun _ => d.custody.writeRelease k) := onCustody_keeps d _ rfl
    exact h1.trans (releaseWritten_keeps _ k)
  | nextNumber n => exact onCustody_keeps d (d.custody.writeNext n) rfl

/-! ### Writes that fail (R115, R119, R120) -/

theorem countFailure_keeps (d : Device) : d.Keeps d.countFailure := onCw_keeps_of_queue _ _ rfl rfl rfl

theorem holdBarrier_keeps (d : Device) (a : ArmId) : d.Keeps (d.holdBarrier a) := by
  unfold holdBarrier
  split
  · exact .refl d
  · exact (onCw_keeps_of_queue _ _ rfl rfl rfl).trans (rackNotice_calm ..).keeps

/-- R115: the amounts of a failed post pass from the queue to the unwritten accumulator. -/
theorem giveBack_keeps (d : Device) {id : Nat} {p : Post} (h : (d.cw.entry id).map QEntry.body = some (.post p)) :
    d.Keeps ((d.onCw fun c => c.drop id).onMeter p.arm fun m => { m with unwritten := m.unwritten.add p.vol }) := by
  obtain ⟨e, he, hi, hp⟩ := entry_of_body h
  refine Keeps.of_ledger rfl rfl rfl (fun a => ?_) fun _ hl => ⟨hl.written, idsBelow_filter _ hl.ids, fun a => ?_⟩
  · rw [onMeter_meter]
    split
    next ha => subst ha; exact ⟨rfl, rfl, rfl⟩
    next => exact ⟨rfl, rfl, rfl⟩
  · have hs := hl.sums a
    rw [postsOf_drop_post a hl.ids.1 he hi hp] at hs
    rw [onMeter_meter]
    show _ = (((d.stored a).add (postsOf a (d.cw.queue.filter fun x => x.id != id))).add _).add (nothing a)
    by_cases ha : p.arm = a
    · subst ha
      rw [if_pos rfl] at hs ⊢
      rw [onCw_meter, hs]
      simp only [Vol.add_assoc, Vol.add_comm, Vol.add_left_comm]
    · rw [if_neg ha, Vol.zero_add] at hs
      rw [if_neg (Ne.symm ha)]
      exact hs

theorem postFailed_keeps (d : Device) {id : Nat} {p : Post} (h : (d.cw.entry id).map QEntry.body = some (.post p)) :
    d.Keeps (d.postFailed id p) := by
  have h1 := (countFailure_keeps d).trans (giveBack_keeps d.countFailure h)
  have h2 := h1.trans ((onArm_calm_of_batch _ p.arm (fun c => { c with totFault := true }) rfl).trans
    (armNotice_calm _ p.arm 11 [volOctets p.vol])).keeps
  unfold postFailed
  dsimp only
  split
  · exact h2.trans (holdBarrier_keeps ..)
  · exact h2

theorem releaseFailed_keeps (d : Device) (k : SlotId) : d.Keeps (d.releaseFailed k) :=
  ((countFailure_keeps d).trans (onCw_keeps_of_queue _ _ rfl rfl rfl)).trans
    ((setSlot_calm ..).trans (rackNotice_calm ..)).keeps

/-- R115, R119, R120, R125: a write fails for the second time. -/
theorem writeFailed_keeps (d : Device) (job : WriteJob) : d.Keeps (d.writeFailed job) := by
  cases job with
  | post id =>
    simp only [writeFailed]
    split
    next p hp => exact postFailed_keeps d hp
    next => exact .refl d
  | barrier id part =>
    simp only [writeFailed]
    split
    next b hb =>
      exact ((countFailure_keeps d).trans (dropBarrier_keeps d.countFailure (fun c => c.drop id) hb rfl rfl rfl)).trans
        (commitFailed_keeps ..)
    next => exact .refl d
  | release k => exact releaseFailed_keeps ..
  | nextNumber n =>
    exact ((countFailure_keeps d).trans (onCw_keeps_of_queue _ (fun c => { c with heldNext := some n }) rfl rfl rfl)).trans
      (rackNotice_calm ..).keeps

/-! ### Completions -/

theorem replyPair_calm (d : Device) (k : Nat) (t : Byte) (p : Status × List Element) : d.Calm (d.replyPair k t p) := finish_calm ..

theorem resumeService_keeps (d : Device) : d.Keeps d.resumeService := by
  unfold resumeService
  split
  · exact ((onMp_calm ..).trans (replyPair_calm ..)).keeps
  · exact resumeRead_keeps _

/-- The part goes on to another place between its resets, none of them without supply. -/
theorem setBoot_keeps (d : Device) (b : Boot) (h : d.boot ≠ .off) : d.Keeps (d.setBoot b) :=
  ⟨fun hd => fun _ => hd h, id, id⟩

theorem scanDone_keeps (d : Device) (tag : Option Byte) (bad : List ArmId) (nb : Bool) (h : d.boot ≠ .off) :
    d.Keeps (d.scanDone tag bad nb) := (setBoot_keeps d .ready h).trans (rackNotice_calm ..).keeps

theorem scanTest_keeps (d : Device) : d.Keeps d.scanTest := by
  unfold scanTest
  split
  next hb =>
    split
    · exact scanDone_keeps _ _ _ _ (by rw [hb]; exact fun h => nomatch h)
    · exact .refl d
  all_goals exact .refl d

theorem writeComplete_keeps (d : Device) (good : Bool) : d.Keeps (d.writeComplete good) := by
  unfold writeComplete
  split
  · exact .refl d
  have h0 : d.Keeps (d.onCw fun c => { c with write := none }) := onCw_keeps_of_queue _ _ rfl rfl rfl
  refine h0.trans ?_
  dsimp only
  split
  · exact (((writeGood_keeps ..).trans (serveWaiting_keeps ..)).trans (resumeService_keeps _)).trans (scanTest_keeps _)
  split
  · exact ((serveWaiting_keeps ..).trans (resumeService_keeps _)).trans (onCw_keeps_of_queue _ _ rfl rfl rfl)
  · exact (((writeFailed_keeps ..).trans (serveWaiting_keeps ..)).trans (resumeService_keeps _)).trans (scanTest_keeps _)

/-! ### Resets and the start-up scan (R124, R125) -/

/-- The laws hold, whatever was before. -/
structure Lawful (d : Device) : Prop where
  custody  : d.custodySound
  batches  : d.batchesAgree
  residues : d.residuesBounded

theorem Lawful.keeps {e : Device} (h : e.Lawful) (d : Device) : d.Keeps e := ⟨fun _ => h.custody, fun _ => h.batches, fun _ => h.residues⟩

theorem Keeps.lawful {d e : Device} (h : d.Keeps e) (hd : d.Lawful) : e.Lawful :=
  ⟨h.custody hd.custody, h.batches hd.batches, h.residues hd.residues⟩

theorem loadScan_meter (d : Device) (a : ArmId) : d.loadScan.meter a = { Meter.reset with mirror := d.stored a } := by
  simp only [meter, loadScan, Bank.read_ofFn]; rfl

theorem loadScan_arm (d : Device) (a : ArmId) : (d.loadScan.arm a).batch = none := by
  simp only [arm, loadScan, Bank.read_ofFn, ArmCtl.reset]

/-- R125: the scan loads every running totalizer and written value from the stored ones, with nothing queued or unwritten. -/
theorem loadScan_lawful (d : Device) (h : ∀ b, (d.bay b).ended = []) : d.loadScan.Lawful where
  custody := (custodySound_iff _).mpr fun _ => by
    refine ⟨fun a => ?_, ⟨List.nodup_nil, fun _ he => nomatch he⟩, fun a => ?_⟩
    · simp only [loadScan, Bank.read_map]; rfl
    · rw [loadScan_meter]; rfl
  batches := by
    refine ⟨fun a x hx => ?_, fun b x hx => ?_⟩
    · rw [loadScan_arm] at hx; cases hx
    · rw [show (d.loadScan.bay b).ended = [] from h b] at hx; cases hx
  residues a := by rw [loadScan_meter]; simp [Meter.reset]

theorem cleared_ended (boot : Boot) (cuts : Nat) (m : Custody) (pins : Vector Level 16) (b : BayId) :
    ((cleared boot cuts m pins).bay b).ended = [] := by simp [cleared, bay, Bay.reset]

theorem cleared_boot (boot : Boot) (cuts : Nat) (m : Custody) (pins : Vector Level 16) : (cleared boot cuts m pins).boot = boot := rfl

theorem scan_lawful (d : Device) (tag : Option Byte) (h : ∀ b, (d.bay b).ended = []) (hb : d.boot ≠ .off) : (d.scan tag).Lawful := by
  have h1 : d.loadScan.Calm ((badArmsOf d.custody).foldl (fun e a => e.armNotice a 13 []) d.loadScan) :=
    Calm.foldl _ _ _ fun e a => armNotice_calm e a 13 []
  unfold scan
  dsimp only
  generalize hd2 : (if nextBadOf d.custody = true then Device.rackNotice _ 18 _ else _) = d2
  have h2 : d.loadScan.Calm d2 := by
    subst hd2
    split
    · exact h1.trans (rackNotice_calm ..)
    · exact h1
  have hl := h2.keeps.lawful (loadScan_lawful d h)
  have hb2 : d2.boot ≠ .off := h2.boot ▸ hb
  split
  · exact (scanDone_keeps d2 _ _ _ hb2).lawful hl
  · exact ((setBoot_keeps d2 _ hb2).trans (onCw_keeps_of_queue _ _ rfl rfl rfl)).lawful hl

theorem resetWith_lawful (d : Device) (m : Custody) (cuts : Nat) (tag : Option Byte) : (d.resetWith m cuts tag).Lawful :=
  scan_lawful _ tag (cleared_ended _ _ _ _) fun h => nomatch h

theorem hardReset_lawful (d : Device) : d.hardReset.Lawful := resetWith_lawful ..

theorem powerLost_lawful (d : Device) : d.powerLost.Lawful where
  custody h := absurd rfl h
  batches := by
    refine ⟨fun a x hx => ?_, fun b x hx => ?_⟩
    · simp [powerLost, cleared, arm, ArmCtl.reset] at hx
    · rw [powerLost, cleared_ended] at hx; cases hx
  residues a := by simp [powerLost, cleared, meter, Meter.reset]

theorem drainTest_keeps (d : Device) : d.Keeps d.drainTest := by
  rcases drainTest_cases d with ⟨t, -, -, -, -, -, h⟩ | h
  · rw [h]; exact (resetWith_lawful ..).keeps d
  · rw [h]; exact .refl d

theorem custodyEvent_keeps (d : Device) (good : Bool) : d.Keeps (d.custodyEvent good) :=
  (event_keeps (writeComplete_keeps d good)).trans (drainTest_keeps _)

end Device

end Sys2Proof.Machine
end

