-- ==== Sys2Proof/Proofs/Samples.lean ====
section
/-! A meter sample and the laws (R7 to R18): what its arithmetic bounds (L3, L4), and how its increments reach the mirror, the
batch and the Custody Writer so that L1 and L2 hold again at its end. -/

namespace Sys2Proof.Machine

open Sys2Proof

/-! ### The bounds of the arithmetic (R15, R16) -/

theorem vcfOf_bounds (alpha : Nat) (t : Int) : 950000 ≤ vcfOf alpha t ∧ vcfOf alpha t ≤ 1050000 := by
  unfold vcfOf
  dsimp only
  split
  · omega
  split
  · omega
  · omega

/-- The bounds that L3 and L4 put on what a sample leaves. -/
def Increment.bounded (i : Increment) : Prop := i.netRes < 1000000 ∧ 950000 ≤ i.vcf ∧ i.vcf ≤ 1050000

theorem Device.increment_bounded (d : Device) (a : ArmId) (r : ArmRecord) (dl dB q : Nat) :
    (d.increment a r dl dB q).bounded := by
  refine ⟨Nat.mod_lt _ (by decide), ?_⟩
  unfold Device.increment
  dsimp only
  split
  · exact vcfOf_bounds ..
  · omega

/-! ### The batch takes the sample (R28, R31, R41) -/

theorem Batch.evaluate_metered (b : Batch) (ca : Nat) : (b.evaluate ca).metered = b.metered := by
  unfold evaluate
  split
  · dsimp only
    split <;> rfl
  · rfl

theorem Batch.evaluate_readings (b : Batch) (ca : Nat) :
    (b.evaluate ca).opening = b.opening ∧ (b.evaluate ca).delivered = b.delivered ∧ (b.evaluate ca).closing = b.closing :=
  readings_of_metered (b.evaluate_metered ca)

/-- The arm's controller state as a sample first leaves it: the increments in the batch, or in the unassigned accumulator. -/
def ArmCtl.sampled (c : ArmCtl) (i : Increment) : ArmCtl :=
  match c.batch with
  | none => { c with unassigned := c.unassigned.add i.vol }
  | some b =>
    { c with
      batch := some ((b.advance i).evaluate c.closeAhead)
      zeroFlow := if b.phase = .closeWait then c.countZero i.pulses
        else if ((b.advance i).evaluate c.closeAhead).phase = .closeWait then 0 else c.zeroFlow }

theorem ArmCtl.sampled_none {c : ArmCtl} (i : Increment) (h : c.batch = none) :
    c.sampled i = { c with unassigned := c.unassigned.add i.vol } := by unfold sampled; rw [h]

theorem ArmCtl.sampled_some {c : ArmCtl} {b : Batch} (i : Increment) (h : c.batch = some b) :
    c.sampled i = { c with
      batch := some ((b.advance i).evaluate c.closeAhead)
      zeroFlow := if b.phase = .closeWait then c.countZero i.pulses
        else if ((b.advance i).evaluate c.closeAhead).phase = .closeWait then 0 else c.zeroFlow } := by unfold sampled; rw [h]

/-- L2 moves on with the mirror. -/
theorem ArmCtl.sampled_inStep {c : ArmCtl} {m : Vol} (i : Increment) (h : c.inStep m) : (c.sampled i).inStep (m.add i.vol) := by
  cases hb : c.batch with
  | none =>
    rw [sampled_none i hb]
    intro x hx
    exact absurd (hb.symm.trans hx) (by simp)
  | some b =>
    rw [sampled_some i hb]
    rintro x hx
    obtain rfl := Option.some.inj hx
    obtain ⟨ho, hd, -⟩ := (b.advance i).evaluate_readings c.closeAhead
    rw [ho, hd, h b hb]
    exact Vol.add_assoc ..

namespace Device

/-- After the arm's own state, a sample changes only what dosing changes: the close it may command is told to DU. -/
theorem batchSample_dosed (d : Device) (a : ArmId) (i : Increment) :
    (d.onArm a fun c => c.sampled i).Dosed (d.batchSample a i) := by
  unfold batchSample
  dsimp only
  split
  next hb =>
    have he : (d.onArm a fun c => c.sampled i) = d.onArm a fun c => { c with unassigned := (d.arm a).unassigned.add i.vol } := by
      simp only [onArm, ArmCtl.sampled_none i hb]
    rw [he]
    split
    · exact raise_dosed ..
    · exact .refl _
  next b hb =>
    have he : (d.onArm a fun c => c.sampled i) = d.onArm a fun c => { c with
        batch := some ((b.advance i).evaluate (d.arm a).closeAhead)
        zeroFlow := if b.phase = .closeWait then (d.arm a).countZero i.pulses
          else if ((b.advance i).evaluate (d.arm a).closeAhead).phase = .closeWait then 0 else (d.arm a).zeroFlow } := by
      simp only [onArm, ArmCtl.sampled_some i hb]
    rw [he]
    generalize d.onArm a _ = e
    split
    · exact cancelPendings_dosed ..
    · exact .refl _

/-! ### Meters changed beside what the laws speak of -/

theorem onMeter_keeps (d : Device) (a : ArmId) (f : Meter → Meter) (h : (d.meter a).sameLaws (f (d.meter a)))
    (hu : (f (d.meter a)).unwritten = (d.meter a).unwritten) : d.Keeps (d.onMeter a f) := by
  have hm : ∀ x, (d.meter x).sameLaws ((d.onMeter a f).meter x) ∧ ((d.onMeter a f).meter x).unwritten = (d.meter x).unwritten := by
    intro x
    rw [onMeter_meter]
    split
    next hx => subst hx; exact ⟨h, hu⟩
    next => exact ⟨⟨rfl, rfl, rfl⟩, rfl⟩
  refine Keeps.of_ledger rfl rfl rfl (fun x => (hm x).1) fun _ hl => ⟨hl.written, hl.ids, fun x => ?_⟩
  rw [(hm x).1.1, (hm x).2]
  exact hl.sums x

/-! ### The increments handed on (R18) -/

/-- R18: the mirror takes the increments, the batch follows it, and the post pays the ledger what it is short of. -/
theorem post_keeps (d : Device) (a : ArmId) (i : Increment) (hi : i.bounded) :
    d.Keeps (((d.onMeter a fun m => m.advance i).batchSample a i).postTotals a i.vol) := by
  have hs := batchSample_dosed (d.onMeter a fun m => m.advance i) a i
  generalize hd1 : (d.onMeter a fun m => m.advance i).batchSample a i = d1 at hs ⊢
  have hmeter : ∀ x, d1.meter x = if x = a then (d.meter a).advance i else d.meter x := by
    intro x
    rw [show d1.meter x = (d.onMeter a fun m => m.advance i).meter x by simp only [meter, hs.meters, onArm_meters]]
    exact onMeter_meter ..
  have hrest := postTotals_rest d1 a i.vol
  have hpost := fun x => postTotals_meter d1 a x i.vol
  have hboot : (d1.postTotals a i.vol).boot = d.boot := by rw [← hrest]; exact hs.boot
  have harm : ∀ x, (d1.postTotals a i.vol).arm x = d1.arm x := fun x => by rw [← hrest]; rfl
  have hbay : ∀ b, (d1.postTotals a i.vol).bay b = d1.bay b := fun b => by rw [← hrest]; rfl
  refine ⟨fun hd => (custodySound_iff _).mpr fun hne => postTotals_ledger d1 a i.vol ?_, fun hd => ⟨fun x => ?_, fun b => ?_⟩,
    fun hd x => ?_⟩
  · have hl := (custodySound_iff d).mp hd (hboot ▸ hne)
    have hst : ∀ x, d1.stored x = d.stored x := stored_of_totals (by rw [hs.custody]; rfl)
    have hcw : d1.cw = d.cw := hs.cw
    refine ⟨fun x => by rw [hcw, hst]; exact hl.written x, by rw [hcw]; exact hl.ids, fun x => ?_⟩
    have hx := hl.sums x
    rw [hmeter, hst, hcw, owedTo]
    split
    next he =>
      subst he
      exact congrArg (Vol.add · i.vol) hx
    next => exact hx
  · show ((d1.postTotals a i.vol).arm x).inStep ((d1.postTotals a i.vol).meter x).mirror
    obtain ⟨u, hu⟩ := hpost x
    rw [harm, hu, hmeter]
    refine (hs.arm x).inStep ?_
    rw [onArm_arm]
    split
    next he => subst he; exact ArmCtl.sampled_inStep i (hd.1 x)
    next => exact hd.1 x
  · show ((d1.postTotals a i.vol).bay b).inStep
    rw [hbay]
    exact (hs.bay b).inStep (hd.2 b)
  · obtain ⟨u, hu⟩ := hpost x
    rw [hu, hmeter]
    split
    · exact hi
    · exact hd x

theorem handOn_keeps (d : Device) (a : ArmId) (i : Increment) (hi : i.bounded) : d.Keeps (d.handOn a i) :=
  ((post_keeps d a i hi).trans (doseSample_dosed ..).calm.keeps).trans (zeroFlowTest_calm ..).keeps

theorem countFault_keeps (d : Device) (a : ArmId) (c : Counts) (dl : Nat) : d.Keeps (d.countFault a c dl) := by
  unfold countFault
  refine (onMeter_keeps d a (fun m => { m with baseline := c }) ⟨rfl, rfl, rfl⟩ rfl).trans (onArm_calm _ a _ fun m hm => ?_).keeps
  split
  · exact hm
  next b hb =>
    rintro x hx
    obtain rfl := Option.some.inj hx
    exact hm b hb

/-- R7 to R18: a meter sample keeps the laws. -/
theorem meterSample_keeps (d : Device) (a : ArmId) (r : ArmRecord) (c : Counts) : d.Keeps (d.meterSample a r c) := by
  unfold meterSample
  dsimp only
  split
  · exact onMeter_keeps d a _ ⟨rfl, rfl, rfl⟩ rfl
  split
  · split
    · exact .refl d
    · exact countFault_keeps ..
  split
  · exact countFault_keeps ..
  · exact (onMeter_keeps d a _ ⟨rfl, rfl, rfl⟩ rfl).trans (handOn_keeps _ a _ (increment_bounded ..))

/-! ### Temperatures and losses (R13, R21) -/

theorem tempReturn_keeps (d : Device) (n : Addr) (t : Int) (fault : Bool) : d.Keeps (d.tempReturn n t fault) :=
  Keeps.foldl _ _ _ fun e a => onMeter_keeps e a _
    (by unfold Meter.takeTemp; split <;> exact ⟨rfl, rfl, rfl⟩) (by unfold Meter.takeTemp; split <;> rfl)

theorem tempLost_keeps (d : Device) (n : Addr) : d.Keeps (d.tempLost n) :=
  Keeps.foldl _ _ _ fun e a => onMeter_keeps e a (fun m => { m with heldValid := false }) ⟨rfl, rfl, rfl⟩ rfl

theorem meterLost_keeps (d : Device) (a : ArmId) : d.Keeps (d.meterLost a) :=
  (onMeter_keeps d a (fun m => { m with baselineValid := false }) ⟨rfl, rfl, rfl⟩ rfl).trans (interruptBatch_calm ..).keeps

end Device

end Sys2Proof.Machine
end

