-- ==== Sys2Proof/Proofs/Events.lean ====
section
/-! What reaches the part from its lines and from the loop keeps the laws (R143 to R158, R162, R169). -/

namespace Sys2Proof.Machine

open Sys2Proof

namespace Device

/-! ### The lines (R161, R162, R169) -/

theorem cwDrain_keeps (d : Device) : d.Keeps d.cwDrain := onCw_keeps_of_queue _ _ rfl rfl rfl

theorem cwRun_keeps (d : Device) : d.Keeps d.cwRun := by
  have h : d.Keeps (d.onCw fun c => { c with mode := .running, held := none }) := onCw_keeps_of_queue _ _ rfl rfl rfl
  unfold cwRun
  dsimp only
  split
  · exact h.trans (luNotice_calm ..).keeps
  · exact h

theorem powerfailEdge_keeps (d : Device) : d.Keeps d.powerfailEdge := by
  unfold powerfailEdge
  split
  · exact ((((onLu_calm d _).keeps.trans (cwDrain_keeps _)).trans (latchCause_calm ..).keeps).trans (latchShots_calm _).keeps).trans
      (luNotice_calm ..).keeps
  · exact .refl d

theorem powerfailOff_keeps (d : Device) : d.Keeps d.powerfailOff := by
  unfold powerfailOff
  split
  · exact (((onLu_calm d _).keeps.trans (cwRun_keeps _)).trans (latchCause_calm ..).keeps).trans (luNotice_calm ..).keeps
  · exact .refl d

theorem lineEdge_keeps (d : Device) (l : LineId) (active : Bool) : d.Keeps (d.lineEdge l active) := by
  unfold lineEdge
  split
  · split
    · exact (esdEdge_calm d).keeps
    · exact .refl d
  · split
    · exact powerfailEdge_keeps d
    · exact powerfailOff_keeps d
  · exact (evalHold_calm d).keeps
  · exact (evalPermissives_calm d).keeps
  · exact (evalPermissives_calm d).keeps
  all_goals exact .refl d

theorem takePin_keeps (d : Device) (l : LineId) : d.Keeps (d.takePin l) := by
  unfold takePin
  dsimp only
  split
  · exact (onLine_calm ..).keeps
  · exact (onLine_calm ..).keeps.trans (lineEdge_keeps ..)

theorem pinChanged_keeps (d : Device) (l : LineId) (v : Level) : d.Keeps (d.pinChanged l v) := by
  unfold pinChanged
  dsimp only
  split
  · exact .refl d
  split
  · exact (onLine_calm ..).keeps.trans (takePin_keeps ..)
  · exact ((onLine_calm ..).trans (onLine_calm ..)).keeps
  · exact (onLine_calm ..).keeps
  · exact (onLine_calm ..).keeps

theorem debounceExpired_keeps (d : Device) (l : LineId) : d.Keeps (d.debounceExpired l) := by
  unfold debounceExpired
  split
  · exact .refl d
  · exact takePin_keeps d l

theorem lineSet_keeps (d : Device) (l : LineId) (m : LineMode) (f : LineFn) (v : Level) : d.Keeps (d.lineSet l m f v) := by
  have h : d.Keeps ((d.onLine l fun x => x.rebind m f v).evalPermissives).evalHold :=
    (((onLine_calm ..).trans (evalPermissives_calm _)).trans (evalHold_calm _)).keeps
  unfold lineSet
  dsimp only
  split
  · split
    · exact h.trans (esdEdge_calm _).keeps
    · exact h.trans (powerfailEdge_keeps _)
    all_goals exact h
  · exact h

/-! ### Stations and their users (R148 to R153) -/

theorem userLost_keeps (d : Device) (n : Addr) (k : StationKind) (byFault : Bool) : d.Keeps (d.userLost n k byFault) := by
  unfold userLost
  split
  · split
    · exact meterLost_keeps ..
    · exact .refl d
  · split
    · exact .refl d
    · exact tempLost_keeps ..
  · split
    · exact (valveReport_calm ..).keeps
    · exact .refl d
  · split
    · exact (onInj_calm ..).keeps
    · exact .refl d
  · exact (permitLost_calm ..).keeps
  · exact .refl d

theorem userReturn_keeps (d : Device) (n : Addr) (k : StationKind) (s : List Byte) : d.Keeps (d.userReturn n k s) := by
  unfold userReturn
  split
  · split
    · exact .refl d
    split
    · exact .refl d
    · exact meterSample_keeps ..
  · exact tempReturn_keeps ..
  · split
    · exact .refl d
    · exact (valveReport_calm ..).keeps
  · split
    · exact .refl d
    split
    · exact .refl d
    · exact (injectorReturn_dosed ..).calm.keeps
  · exact (permitReturn_calm ..).keeps
  · exact .refl d

/-- A further step taken on a condition. -/
theorem Keeps.orStep {d e f : Device} {c : Prop} [Decidable c] (h : d.Keeps e) (k : e.Keeps f) : d.Keeps (if c then f else e) := by
  split
  · exact h.trans k
  · exact h

theorem Keeps.stepOr {d e f : Device} {c : Prop} [Decidable c] (h : d.Keeps e) (k : e.Keeps f) : d.Keeps (if c then e else f) := by
  split
  · exact h
  · exact h.trans k

theorem stateNotice_calm (d : Device) (n : Addr) (x y : StationState) : d.Calm (d.stateNotice n x y) := by
  unfold stateNotice
  split
  case h_3 => exact .refl d
  case h_5 => exact .refl d
  all_goals exact stationNotice_calm ..

theorem arrival_keeps (d : Device) (n : Addr) (e : StationEntry) (k : Nat) (j : Judged) (s : List Byte) :
    d.Keeps (d.arrival n e k j s) := by
  unfold arrival
  have h : d.Keeps ((d.onStation n fun x => (x.gather k j).arrive j).stateNotice n (d.station n).state
      ((d.onStation n fun x => (x.gather k j).arrive j).station n).state) :=
    ((onStation_calm ..).trans (stateNotice_calm ..)).keeps
  cases j with
  | good t => exact (h.orStep (userLost_keeps ..)).orStep (userReturn_keeps ..)
  | bad | missing | other => exact h.orStep (userLost_keeps ..)

theorem slotReturn_keeps (d : Device) (w : Sweep) (n : Addr) (s : List Byte) : d.Keeps (d.slotReturn w n s) := by
  unfold slotReturn
  split
  · exact .refl d
  · exact arrival_keeps ..

theorem slotMissing_keeps (d : Device) (w : Sweep) (n : Addr) : d.Keeps (d.slotMissing w n) := by
  unfold slotMissing
  split
  · exact .refl d
  · exact arrival_keeps ..

theorem meterSeal_keeps (d : Device) (n : Addr) (v : Bool) :
    d.Keeps (match d.armOfMeter n with | some a => d.sealChanged a v | none => d) := by
  split
  · exact (sealChanged_calm ..).keeps
  · exact .refl d

theorem wordInForce_keeps (d : Device) (n : Addr) : d.Keeps (d.wordInForce n) := by
  unfold wordInForce
  dsimp only
  split
  · exact .refl d
  next e he =>
  split
  · exact .refl d
  refine Keeps.stepOr ?_ (stationNotice_calm ..).keeps
  refine Keeps.orStep ?_ (meterSeal_keeps ..)
  exact (((onStation_calm ..).keeps.orStep (userLost_keeps ..))).orStep (evalPermissives_calm _).keeps

theorem roundEnd_keeps (d : Device) : d.Keeps d.roundEnd :=
  Keeps.foldl _ _ _ fun e n => event_keeps (f := fun x => x.wordInForce n) (wordInForce_keeps e n)

/-! ### The event slot (R155 to R157) -/

theorem takeBid_keeps (d : Device) (b : BayId) (x : Bid) : d.Keeps (d.takeBid b x) := by
  cases x with
  | swipe c => exact (swipeBid_calm ..).keeps
  | start a => exact (startBid_calm ..).keeps
  | stop a => exact (stopBid_calm ..).keeps
  | finish => exact finishBid_keeps ..

theorem dispatchBid_keeps (d : Device) (n : Addr) (s : List Byte) : d.Keeps (d.dispatchBid n s) := by
  unfold dispatchBid
  split
  · exact takeBid_keeps ..
  · exact (stationNotice_calm ..).keeps

theorem setClear_calm (d : Device) (v : Bool) : d.Calm (d.setClear v) := onLm_calm ..

theorem eventSlot_keeps (d : Device) (s : List Byte) : d.Keeps (d.eventSlot s) := by
  have herr : d.Keeps ((d.onLm fun l => { l with eventErrors := min 65535 (l.eventErrors + 1) }).setClear false) :=
    ((onLm_calm ..).trans (setClear_calm ..)).keeps
  unfold eventSlot
  split
  · exact herr
  split
  · exact (setClear_calm ..).keeps
  split
  · split
    · exact herr
    · exact (setClear_calm ..).keeps.trans (dispatchBid_keeps ..)
  · exact .refl d

/-! ### The return and the timeout of a sweep (R144, R145) -/

theorem loopNotice_calm (d : Device) (k : Nat) : d.Calm (d.loopNotice k) := rackNotice_calm ..

theorem slotReturns_keeps (w : Sweep) (f : List Byte) (l : List Addr) (off : Nat) (d : Device) :
    d.Keeps (slotReturns w f l off d) := by
  induction l generalizing off d with
  | nil => exact .refl d
  | cons n t ih =>
    exact (event_keeps (f := fun x => x.slotReturn w n (slice f off 8)) (slotReturn_keeps d w n _)).trans (ih ..)

theorem loopReturned_calm (d : Device) : d.Calm d.loopReturned := by
  unfold loopReturned
  dsimp only
  split
  · exact (onLm_calm ..).trans (loopNotice_calm ..)
  · exact onLm_calm ..

theorem loopTimedOut_calm (d : Device) : d.Calm d.loopTimedOut := by
  unfold loopTimedOut
  dsimp only
  split
  · exact ((onLm_calm ..).trans (onLm_calm ..)).trans (loopNotice_calm ..)
  · exact onLm_calm ..

theorem sweepBack_keeps (d : Device) (s : Sweep) (f : List Byte) : d.Keeps (d.sweepBack s f) := by
  have h : d.Keeps (slotReturns s f s.slots 4 d.loopReturned) := (loopReturned_calm d).keeps.trans (slotReturns_keeps ..)
  have hev (e : Device) (x : List Byte) : e.Keeps (e.event fun y => y.eventSlot x) := event_keeps (eventSlot_keeps e x)
  unfold sweepBack
  dsimp only
  refine Keeps.trans ?_ (onMp_calm _ _).keeps
  refine Keeps.trans ?_ (hev _ _)
  exact h.orStep (roundEnd_keeps _)

theorem sweepTimedOut_keeps (d : Device) (s : Sweep) : d.Keeps (d.sweepTimedOut s) := by
  have h : d.Keeps (s.slots.foldl (fun e n => e.event fun x => x.slotMissing s n) d.loopTimedOut) :=
    (loopTimedOut_calm d).keeps.trans
      (Keeps.foldl _ _ _ fun e n => event_keeps (f := fun x => x.slotMissing s n) (slotMissing_keeps e s n))
  exact (h.orStep (roundEnd_keeps _)).trans ((setClear_calm _ true).trans (onMp_calm _ Mp.lost)).keeps

theorem loopIn_keeps (d : Device) (f : List Byte) : d.Keeps (d.loopIn f) := by
  unfold loopIn
  split
  · exact .refl d
  split
  · exact .refl d
  split
  · exact sweepBack_keeps ..
  · exact (loopReturned_calm d).keeps.trans (drainTest_keeps _)
  all_goals exact .refl d

theorem sweepExpired_keeps (d : Device) : d.Keeps d.sweepExpired := by
  unfold sweepExpired
  split
  · exact .refl d
  split
  · exact sweepTimedOut_keeps ..
  · exact (loopTimedOut_calm d).keeps.trans (drainTest_keeps _)
  all_goals exact .refl d

end Device

end Sys2Proof.Machine
end

