-- ==== Sys2Proof/Proofs/Steps.lean ====
section
/-! Every step keeps the laws L1 to L4: the requests, each under R178's checks, then the commands one by one. -/

namespace Sys2Proof.Machine

open Sys2Proof

namespace Device

/-! ### Requests that may be refused (R178) -/

/-- A request carried out keeps the laws; a refused one gives no device. -/
structure KeepsIfOk (d : Device) (r : Except Status Device) : Prop where
  keeps : ∀ e, r = .ok e → d.Keeps e

theorem KeepsIfOk.ok {d e : Device} (h : d.Keeps e) : d.KeepsIfOk (.ok e) := ⟨fun _ he => Except.ok.inj he ▸ h⟩

theorem KeepsIfOk.error (d : Device) (st : Status) : d.KeepsIfOk (.error st) := ⟨fun _ he => nomatch he⟩

theorem KeepsIfOk.ite {d : Device} {c : Prop} [Decidable c] {x y : Except Status Device} (h : d.KeepsIfOk x) (k : d.KeepsIfOk y) :
    d.KeepsIfOk (if c then x else y) := by
  split
  · exact h
  · exact k

theorem orWrong_keeps {d : Device} {o : Option Device} (h : ∀ e : Device, o = some e → d.Keeps e) : d.KeepsIfOk (orWrong o) := by
  cases o with
  | none => exact .error ..
  | some e => exact .ok (h e rfl)

theorem answer_calm (d : Device) (k : Nat) (t : Byte) (st : Status) : d.Calm (d.answer k t st) := finish_calm ..

theorem conclude_keeps {d : Device} (k : Nat) (t : Byte) {r : Except Status Device} (h : d.KeepsIfOk r) :
    d.Keeps (d.conclude k t r) := by
  cases r with
  | error st => exact (answer_calm ..).keeps
  | ok e => exact (h.keeps e rfl).trans (answer_calm ..).keeps

theorem withOps_keeps {α : Type} (d : Device) (k : Nat) (t : Byte) (ops : Option α) (f : α → Device) (h : ∀ x, d.Keeps (f x)) :
    d.Keeps (d.withOps k t ops f) := by
  cases ops with
  | none => exact (answer_calm ..).keeps
  | some x => exact h x

theorem withIndex_keeps (d : Device) (k : Nat) (t : Byte) (n i : Nat) (f : Fin n → Device) (h : ∀ x, d.Keeps (f x)) :
    d.Keeps (d.withIndex k t n i f) := by
  unfold withIndex
  split
  · exact (answer_calm ..).keeps
  · exact h _

theorem withOne_keeps (d : Device) (k : Nat) (t : Byte) (n : Nat) (ops : Option Nat) (f : Fin n → Device) (h : ∀ x, d.Keeps (f x)) :
    d.Keeps (d.withOne k t n ops f) := withOps_keeps _ _ _ _ _ fun _ => withIndex_keeps _ _ _ _ _ _ h

theorem withAddress_keeps (d : Device) (k : Nat) (t : Byte) (i : Nat) (f : Addr → Device) (h : ∀ x, d.Keeps (f x)) :
    d.Keeps (d.withAddress k t i f) := by
  unfold withAddress
  split
  · exact (answer_calm ..).keeps
  · exact h _

theorem request_keeps (d : Device) (c : Instr) (run : Device → Device) (h : ∀ e : Device, e.boot = .ready → e.Keeps (run e)) :
    d.Keeps (d.request c run) := by
  obtain ⟨he, -⟩ | ⟨he, hb, -⟩ | ⟨he, -⟩ | ⟨he, -⟩ := request_cases d c run
  · rw [he]; exact .refl d
  · rw [he]; exact ((intoService_calm d c).keeps.trans (h _ hb)).trans (settle_keeps ..)
  all_goals rw [he]; exact (onMp_calm ..).keeps

/-! ### The tables (R1 to R4, R23, R43, R64, R90, R92, R146, R147, R179) -/

theorem rewired_batch (c : ArmCtl) (old : Option ArmRecord) (r : ArmRecord) : (c.rewired old r).batch = c.batch := by
  unfold ArmCtl.rewired
  dsimp only
  split <;> split <;> rfl

theorem rewire_keeps (d : Device) (a : ArmId) (r old : Option ArmRecord) (f : ArmCtl → ArmCtl)
    (h : ∀ c : ArmCtl, (f c).batch = c.batch) : d.Keeps (((d.setArmRec a r).onMeter a fun m => m.rewired old r).onArm a f) :=
  ((setArmRec_calm d a r).keeps.trans (onMeter_keeps _ a (fun m => m.rewired old r) ⟨rfl, rfl, rfl⟩ rfl)).trans
    (onArm_calm_of_batch _ a f (h _)).keeps

theorem writeArm_keeps (d : Device) (a : ArmId) (w : ArmWrite) : d.KeepsIfOk (d.writeArm a w) := by
  unfold writeArm
  split
  · exact .error ..
  · exact .ite (.error ..) (.ite (.error ..) (.ite (.error ..) (.ok (rewire_keeps _ _ _ _ _ fun c => rewired_batch c _ _))))

theorem clearArm_keeps (d : Device) (a : ArmId) : d.KeepsIfOk (d.clearArm a) :=
  .ite (.error ..) (.ok (rewire_keeps _ _ _ _ _ fun _ => rfl))

theorem writeProduct_keeps (d : Device) (i : ProdIdx) (w : ProductWrite) : d.KeepsIfOk (d.writeProduct i w) := by
  unfold writeProduct
  split
  · exact .error ..
  · exact .ite (.error ..) (.ite (.error ..) (.ok (setProduct_calm ..).keeps))

theorem clearProduct_keeps (d : Device) (i : ProdIdx) : d.KeepsIfOk (d.clearProduct i) :=
  .ite (.error ..) (.ok (setProduct_calm ..).keeps)

theorem writeInjector_keeps (d : Device) (c : Chan) (w : InjectorWrite) : d.KeepsIfOk (d.writeInjector c w) := by
  unfold writeInjector
  split
  · exact .error ..
  next j _ =>
    have h : d.Keeps ((d.setInjRec c (some j)).onInj c fun i => i.renewed .available) :=
      ((setInjRec_calm ..).trans (onInj_calm ..)).keeps
    exact .ite (.error ..) (.ite (.error ..) (.ok (h.orStep (injNotice_calm ..).keeps)))

theorem clearInjector_keeps (d : Device) (c : Chan) : d.KeepsIfOk (d.clearInjector c) :=
  .ite (.error ..) (.ok ((setInjRec_calm ..).trans (onInj_calm ..)).keeps)

theorem writeBay_keeps (d : Device) (b : BayId) (w : BayWrite) : d.KeepsIfOk (d.writeBay b w) := by
  unfold writeBay
  split
  · exact .error ..
  · exact .ite (.error ..) (.ite (.error ..) (.ok ((setBayRec_calm ..).trans (reportBoth_calm ..)).keeps))

theorem clearBay_keeps (d : Device) (b : BayId) : d.KeepsIfOk (d.clearBay b) :=
  .ite (.error ..) (.ok ((setBayRec_calm ..).trans (reportBoth_calm ..)).keeps)

theorem writePermit_keeps (d : Device) (i : Nat) (w : PermitWrite) : d.KeepsIfOk (d.writePermit i w) := by
  unfold writePermit
  split
  · exact .error ..
  · exact .ite (.error ..) (.ok (onPermits_calm ..).keeps)

theorem writeAccount_keeps (d : Device) (i : Nat) (w : AccountWrite) : d.KeepsIfOk (d.writeAccount i w) := by
  unfold writeAccount
  split
  · exact .error ..
  · exact .ite (.error ..) (.ok (onAccounts_calm ..).keeps)

theorem clearAccount_keeps (d : Device) (i : Nat) : d.KeepsIfOk (d.clearAccount i) :=
  .ite (.error ..) (.ok (onAccounts_calm ..).keeps)

theorem entryLost_keeps (d : Device) (n : Addr) (e : Option StationEntry) : d.Keeps (d.entryLost n e) := by
  cases e with
  | none => exact .refl d
  | some x => exact userLost_keeps ..

theorem setStation_keeps (d : Device) (n : Addr) (e : Option StationEntry) : d.Keeps (d.setStation n e) := by
  have h : d.Keeps ((d.onStation n fun s => s.renewed e).onLm fun l => { l with outstanding := l.outstanding.map (Sweep.change · n) }) :=
    ((onStation_calm ..).trans (onLm_calm ..)).keeps
  exact ((h.trans (entryLost_keeps ..)).trans (entryLost_keeps ..)).trans
    ((evalPermissives_calm _).trans (stationNotice_calm ..)).keeps

theorem writeStation_keeps (d : Device) (n : Addr) (w : StationWrite) : d.KeepsIfOk (d.writeStation n w) := by
  unfold writeStation
  split
  · exact .error ..
  · exact .ite (.ok (setStation_keeps ..)) (.error ..)

theorem clearStation_keeps (d : Device) (n : Addr) : d.KeepsIfOk (d.clearStation n) :=
  .ite (.ok (setStation_keeps ..)) (.error ..)

theorem writeSettings_keeps (d : Device) (w : SettingsWrite) : d.KeepsIfOk (d.writeSettings w) := by
  unfold writeSettings
  split
  · exact .error ..
  · exact .ok (onMp_calm ..).keeps

/-! ### Orders, bays and injectors -/

theorem addOrder_keeps (d : Device) (w : OrderWrite) : d.KeepsIfOk (d.addOrder w) := by
  unfold addOrder
  split
  · exact .error ..
  · exact .ite (.error ..) (.ite (.error ..) (.ite (.error ..) (.ok (onOrders_calm ..).keeps)))

theorem cancelOrder_keeps (d : Device) (n : Nat) : d.KeepsIfOk (d.cancelOrder n) := by
  unfold cancelOrder
  split
  · exact .error ..
  split
  · exact .ok (onOrders_calm ..).keeps
  · exact .ok (withdraw_keeps ..)
  · exact .ok (onOrders_calm ..).keeps
  · exact .error ..

theorem bayOpen_keeps (d : Device) (b : BayId) (e : Device) (h : d.bayOpen b = some e) : d.Keeps e := by
  unfold bayOpen at h
  split at h
  · obtain rfl := Option.some.inj h
    exact (openBay_calm ..).keeps
  · exact nomatch h

theorem tripClear_keeps (d : Device) (b : BayId) (e : Device) (h : d.tripClear b = some e) : d.Keeps e := by
  unfold tripClear at h
  split at h
  · obtain rfl := Option.some.inj h
    exact ((onBay_calm _ _ _ rfl).trans (closeLoad_calm ..)).keeps
  · exact nomatch h

theorem injectorClear_keeps (d : Device) (c : Chan) (e : Device) (h : d.injectorClear c = some e) : d.Keeps e := by
  unfold injectorClear at h
  split at h
  · exact nomatch h
  · obtain rfl := Option.some.inj h
    exact (onInj_calm ..).keeps
  · obtain rfl := Option.some.inj h
    exact ((onInj_calm ..).trans (injNotice_calm ..)).keeps

/-! ### Notes, totalizers, the clock, the lines and RESTART -/

theorem noteRead_keeps (d : Device) (t : Byte) (x : NoteTarget) (start : Nat) : d.Keeps (d.noteRead t x start) := by
  unfold noteRead
  split
  · split
    · exact (answer_calm ..).keeps
    split
    · exact (onMp_calm ..).keeps
    · exact (replyPair_calm ..).keeps
  · exact withIndex_keeps _ _ _ _ _ _ fun _ => (replyPair_calm ..).keeps

theorem noteRelease_keeps (d : Device) (n : Nat) : d.KeepsIfOk (d.noteRelease n) := by
  unfold noteRelease
  split
  · exact .error ..
  split
  · exact .ok ((setSlot_calm ..).keeps.trans (onCw_keeps_of_queue _ _ rfl rfl rfl))
  all_goals exact .ok (.refl d)

theorem totalizerAck_keeps (d : Device) (a : ArmId) : d.Keeps (d.totalizerAck a) := by
  unfold totalizerAck
  dsimp only
  have h1 : d.Keeps (d.onArm a fun c => { c with totFault := false }) := (onArm_calm_of_batch _ _ _ rfl).keeps
  generalize he : (if (d.arm a).totFault = true then (d.onArm a fun c => { c with totFault := false }).armNotice a 12 []
    else d.onArm a fun c => { c with totFault := false }) = e
  have h : d.Keeps e := he ▸ h1.orStep (armNotice_calm ..).keeps
  split
  · exact h.orStep (onCw_keeps_of_queue _ _ rfl rfl rfl)
  · exact h

theorem clockSet_keeps (d : Device) (day sec : Nat) : d.KeepsIfOk (d.clockSet day sec) :=
  .ite (.ok ((onMp_calm ..).trans (rackNotice_calm ..)).keeps) (.error ..)

theorem setLine_keeps (d : Device) (l : LineId) (w : LineWriteRec) : d.KeepsIfOk (d.setLine l w) := by
  unfold setLine
  split
  · exact .error ..
  split
  · exact .error ..
  · exact .ok (lineSet_keeps ..)

theorem driveLine_keeps (d : Device) (l : LineId) (v : Bool) : d.KeepsIfOk (d.driveLine l v) :=
  .ite (.ok (onLine_calm ..).keeps) (.error ..)

theorem beginRestart_keeps (d : Device) (c : Instr) (t : Byte) (h : d.boot = .ready) : d.Keeps (d.beginRestart c t) :=
  (setBoot_keeps d _ (by rw [h]; decide)).trans (onMp_calm ..).keeps

theorem answerRead_calm (d : Device) (t : Byte) (r : Except Status (List Byte)) : d.Calm (d.answerRead t r) := by
  cases r with
  | error st => exact answer_calm ..
  | ok body => exact finish_calm ..

/-! ### The part's own time -/

theorem tick_keeps (d : Device) : d.Keeps d.tick := by
  unfold tick
  split
  · exact .refl d
  refine Calm.keeps ⟨rfl, rfl, rfl, rfl, fun h => (batchesAgree_iff _).mpr ?_⟩
  obtain ⟨ha, hb⟩ := (batchesAgree_iff d).mp h
  refine ⟨fun a x hx => ha a x ?_, fun b x hx => hb b x ?_⟩
  · simpa [arm] using hx
  · simpa [bay, Bay.tick] using hx

end Device

/-! ### The commands -/

/-- The part of the next state, where there is one, keeps the laws. -/
structure NextKeeps (s : State) (o : Host.Outcome State Fault Refusal) : Prop where
  keeps : ∀ t, o = .next t → s.dev.Keeps t.dev

theorem advance_keeps {s : State} {f : Device → Device} (h : s.dev.Keeps (f s.dev)) : NextKeeps s (advance s f) :=
  ⟨fun _ ht => Host.Outcome.next.inj ht ▸ h⟩

/-- A request whose service keeps the laws. -/
theorem served_keeps {s : State} {c : Instr} {run : Device → Device} (h : ∀ e : Device, e.Keeps (run e)) :
    NextKeeps s (advance s fun d => d.request c run) := advance_keeps (Device.request_keeps _ _ _ fun e _ => h e)

/-- A request of operands `ops`, carried out or refused. -/
theorem servedOps_keeps {α : Type} {s : State} {c : Instr} {k : Nat} {t : Byte} {ops : Option α}
    {f : Device → α → Except Status Device} (h : ∀ (e : Device) x, e.KeepsIfOk (f e x)) :
    NextKeeps s (advance s fun d => d.request c fun e => e.withOps k t ops fun w => e.conclude k t (f e w)) :=
  served_keeps fun e => Device.withOps_keeps _ _ _ _ _ fun x => Device.conclude_keeps _ _ (h e x)

/-- A request that names one object, carried out or refused. -/
theorem servedOne_keeps {s : State} {c : Instr} {k n : Nat} {t : Byte} {ops : Option Nat}
    {f : Device → Fin n → Except Status Device} (h : ∀ (e : Device) i, e.KeepsIfOk (f e i)) :
    NextKeeps s (advance s fun d => d.request c fun e => e.withOne k t n ops fun i => e.conclude k t (f e i)) :=
  served_keeps fun e => Device.withOne_keeps _ _ _ _ _ _ fun i => Device.conclude_keeps _ _ (h e i)

/-- A request that names an object of an indexed table and what is written to it, carried out or refused. -/
theorem servedIndex_keeps {α : Type} {s : State} {c : Instr} {k n : Nat} {t : Byte} {ops : Option (Nat × α)}
    {f : Device → Fin n → α → Except Status Device} (h : ∀ (e : Device) i w, e.KeepsIfOk (f e i w)) :
    NextKeeps s (advance s fun d => d.request c fun e =>
      e.withOps k t ops fun w => e.withIndex k t n w.1 fun i => e.conclude k t (f e i w.2)) :=
  served_keeps fun e => Device.withOps_keeps _ _ _ _ _ fun w =>
    Device.withIndex_keeps _ _ _ _ _ _ fun i => Device.conclude_keeps _ _ (h e i w.2)

theorem execRestart_keeps (t : Byte) (ops : Option Unit) (s : State) : NextKeeps s (execRestart t ops s) := by
  refine advance_keeps (.trans (Device.request_keeps _ _ _ fun e he => ?_) (Device.drainTest_keeps _))
  refine Device.withOps_keeps _ _ _ _ _ fun _ => ?_
  split
  · exact Device.beginRestart_keeps e _ _ he
  · exact (Device.answer_calm ..).keeps

section
open Device

theorem execHardReset_keeps (s : State) : NextKeeps s (execHardReset s) :=
  advance_keeps ((hardReset_lawful _).keeps _)

theorem execPowerLoss_keeps (s : State) : NextKeeps s (execPowerLoss s) :=
  advance_keeps ((powerLost_lawful _).keeps _)

theorem execSweepLaunch_keeps (s : State) : NextKeeps s (execSweepLaunch s) :=
  advance_keeps (Device.Keeps.orStep (.refl _) (launch_calm _).keeps)

theorem execSweepReturn_keeps (frame : List Byte) (s : State) : NextKeeps s (execSweepReturn frame s) :=
  advance_keeps (loopIn_keeps ..)

theorem execFrameDiscarded_keeps (frame : List Byte) (s : State) : NextKeeps s (execFrameDiscarded frame s) :=
  advance_keeps (loopIn_keeps ..)

theorem execSweepTimeout_keeps (s : State) : NextKeeps s (execSweepTimeout s) :=
  advance_keeps (sweepExpired_keeps _)

theorem execAuthorizationTimerExpiry_keeps (b : BayId) (s : State) : NextKeeps s (execAuthorizationTimerExpiry b s) :=
  advance_keeps (Device.Keeps.orStep (.refl _) (event_keeps (f := fun x => x.authExpired b) (authExpired_keeps _ b)))

theorem execResumeTimerExpiry_keeps (b : BayId) (s : State) : NextKeeps s (execResumeTimerExpiry b s) :=
  advance_keeps (Device.Keeps.orStep (.refl _) (event_keeps (f := fun x => x.closeLoad b) (closeLoad_calm _ b).keeps))

theorem execTravelTimerExpiry_keeps (a : ArmId) (s : State) : NextKeeps s (execTravelTimerExpiry a s) :=
  advance_keeps (event_keeps (f := fun x => x.travelExpired a) (travelExpired_calm _ a).keeps)

theorem execShotTimeout_keeps (c : Chan) (token : Nat) (s : State) : NextKeeps s (execShotTimeout c token s) := by
  refine advance_keeps ?_
  split
  · exact event_keeps (f := fun x => x.timeoutShot c _) (timeoutShot_dosed _ c _).calm.keeps
  · exact .refl _

theorem execRackClockSecond_keeps (s : State) : NextKeeps s (execRackClockSecond s) :=
  advance_keeps (onMp_calm ..).keeps

theorem execPinLevelChange_keeps (l : LineId) (v : Level) (s : State) : NextKeeps s (execPinLevelChange l v s) := by
  refine advance_keeps ?_
  split
  · exact (onLine_calm ..).keeps
  · exact event_keeps (f := fun x => x.pinChanged l v) (pinChanged_keeps _ l v)

theorem execDebounceTimerExpiry_keeps (l : LineId) (s : State) : NextKeeps s (execDebounceTimerExpiry l s) :=
  advance_keeps (event_keeps (f := fun x => x.debounceExpired l) (debounceExpired_keeps _ l))

theorem execCustodyWriteComplete_keeps (good : Bool) (s : State) : NextKeeps s (execCustodyWriteComplete good s) :=
  advance_keeps (custodyEvent_keeps ..)

theorem execRequestUnknownKind_keeps (kind tag : Byte) (s : State) : NextKeeps s (execRequestUnknownKind kind tag s) :=
  served_keeps fun _ => (answer_calm ..).keeps

theorem execFrameTooShort_keeps (kind : Option Byte) (s : State) : NextKeeps s (execFrameTooShort kind s) :=
  served_keeps fun _ => (answer_calm ..).keeps

theorem execTableWriteArm_keeps (tag : Byte) (ops : Option (Nat × ArmWrite)) (s : State) :
    NextKeeps s (execTableWriteArm tag ops s) :=
  servedIndex_keeps writeArm_keeps

theorem execTableClearArm_keeps (tag : Byte) (ops : Option Nat) (s : State) : NextKeeps s (execTableClearArm tag ops s) :=
  servedOne_keeps clearArm_keeps

theorem execTableWriteProduct_keeps (tag : Byte) (ops : Option (Nat × ProductWrite)) (s : State) :
    NextKeeps s (execTableWriteProduct tag ops s) :=
  servedIndex_keeps writeProduct_keeps

theorem execTableClearProduct_keeps (tag : Byte) (ops : Option Nat) (s : State) :
    NextKeeps s (execTableClearProduct tag ops s) :=
  servedOne_keeps clearProduct_keeps

theorem execTableWriteInjector_keeps (tag : Byte) (ops : Option (Nat × InjectorWrite)) (s : State) :
    NextKeeps s (execTableWriteInjector tag ops s) :=
  servedIndex_keeps writeInjector_keeps

theorem execTableClearInjector_keeps (tag : Byte) (ops : Option Nat) (s : State) :
    NextKeeps s (execTableClearInjector tag ops s) :=
  servedOne_keeps clearInjector_keeps

theorem execTableWriteBay_keeps (tag : Byte) (ops : Option (Nat × BayWrite)) (s : State) :
    NextKeeps s (execTableWriteBay tag ops s) :=
  servedIndex_keeps writeBay_keeps

theorem execTableClearBay_keeps (tag : Byte) (ops : Option Nat) (s : State) : NextKeeps s (execTableClearBay tag ops s) :=
  servedOne_keeps clearBay_keeps

theorem execTableWritePermit_keeps (tag : Byte) (ops : Option (Nat × PermitWrite)) (s : State) :
    NextKeeps s (execTableWritePermit tag ops s) :=
  servedIndex_keeps fun e i w => writePermit_keeps e i.val w

theorem execTableClearPermit_keeps (tag : Byte) (ops : Option Nat) (s : State) :
    NextKeeps s (execTableClearPermit tag ops s) :=
  servedOne_keeps fun _ _ => .ok (onPermits_calm ..).keeps

theorem execTableWriteAccount_keeps (tag : Byte) (ops : Option (Nat × AccountWrite)) (s : State) :
    NextKeeps s (execTableWriteAccount tag ops s) :=
  servedIndex_keeps fun e i w => writeAccount_keeps e i.val w

theorem execTableClearAccount_keeps (tag : Byte) (ops : Option Nat) (s : State) :
    NextKeeps s (execTableClearAccount tag ops s) :=
  servedOne_keeps fun e i => clearAccount_keeps e i.val

theorem execTableWriteStation_keeps (tag : Byte) (ops : Option (Nat × StationWrite)) (s : State) :
    NextKeeps s (execTableWriteStation tag ops s) :=
  served_keeps fun e => withOps_keeps _ _ _ _ _ fun w =>
    withAddress_keeps _ _ _ _ _ fun n => conclude_keeps _ _ (writeStation_keeps e n w.2)

theorem execTableClearStation_keeps (tag : Byte) (ops : Option Nat) (s : State) :
    NextKeeps s (execTableClearStation tag ops s) :=
  served_keeps fun e => withOps_keeps _ _ _ _ _ fun _ =>
    withAddress_keeps _ _ _ _ _ fun n => conclude_keeps _ _ (clearStation_keeps e n)

theorem execTableWriteRackSettings_keeps (tag : Byte) (ops : Option (Nat × SettingsWrite)) (s : State) :
    NextKeeps s (execTableWriteRackSettings tag ops s) :=
  servedIndex_keeps fun e _ w => writeSettings_keeps e w

theorem execTableClearRackSettings_keeps (tag : Byte) (ops : Option Nat) (s : State) :
    NextKeeps s (execTableClearRackSettings tag ops s) :=
  servedOne_keeps fun _ _ => .ok (onMp_calm ..).keeps

theorem execTableRead_keeps (tag : Byte) (ops : Option (Nat × Nat)) (s : State) : NextKeeps s (execTableRead tag ops s) :=
  served_keeps fun _ => withOps_keeps _ _ _ _ _ fun _ => (answerRead_calm ..).keeps

theorem execTableReadOrderQueue_keeps (tag : Byte) (ops : Option Nat) (s : State) :
    NextKeeps s (execTableReadOrderQueue tag ops s) :=
  served_keeps fun _ => withOps_keeps _ _ _ _ _ fun _ => (answerRead_calm ..).keeps

theorem execOrderAdd_keeps (tag : Byte) (ops : Option OrderWrite) (s : State) : NextKeeps s (execOrderAdd tag ops s) :=
  servedOps_keeps addOrder_keeps

theorem execOrderCancel_keeps (tag : Byte) (ops : Option Nat) (s : State) : NextKeeps s (execOrderCancel tag ops s) :=
  servedOps_keeps cancelOrder_keeps

theorem execBayOpen_keeps (tag : Byte) (ops : Option Nat) (s : State) : NextKeeps s (execBayOpen tag ops s) :=
  servedOne_keeps fun e b => orWrong_keeps (bayOpen_keeps e b)

theorem execBayClose_keeps (tag : Byte) (ops : Option Nat) (s : State) : NextKeeps s (execBayClose tag ops s) :=
  servedOne_keeps fun _ _ => orWrong_keeps fun _ h => closeBay_keeps h

theorem execBayHold_keeps (tag : Byte) (ops : Option Nat) (s : State) : NextKeeps s (execBayHold tag ops s) :=
  servedOne_keeps fun _ _ => .ok (setHolds_calm ..).keeps

theorem execBayRelease_keeps (tag : Byte) (ops : Option Nat) (s : State) : NextKeeps s (execBayRelease tag ops s) :=
  servedOne_keeps fun _ _ => .ok (setHolds_calm ..).keeps

theorem execRackHold_keeps (tag : Byte) (ops : Option Unit) (s : State) : NextKeeps s (execRackHold tag ops s) :=
  servedOps_keeps fun _ _ => .ok (setMgmtHold_calm ..).keeps

theorem execRackRelease_keeps (tag : Byte) (ops : Option Unit) (s : State) : NextKeeps s (execRackRelease tag ops s) :=
  servedOps_keeps fun _ _ => .ok (setMgmtHold_calm ..).keeps

theorem execLoadFinish_keeps (tag : Byte) (ops : Option Nat) (s : State) : NextKeeps s (execLoadFinish tag ops s) :=
  servedOne_keeps fun _ _ => orWrong_keeps fun _ h => finishLoad_keeps h

theorem execEsdClear_keeps (tag : Byte) (ops : Option Unit) (s : State) : NextKeeps s (execEsdClear tag ops s) :=
  servedOps_keeps fun e _ => orWrong_keeps fun x h => (clearEsd_calm e x h).keeps

theorem execTripClear_keeps (tag : Byte) (ops : Option Nat) (s : State) : NextKeeps s (execTripClear tag ops s) :=
  servedOne_keeps fun e b => orWrong_keeps (tripClear_keeps e b)

theorem execInjectorClear_keeps (tag : Byte) (ops : Option Nat) (s : State) : NextKeeps s (execInjectorClear tag ops s) :=
  servedOne_keeps fun e c => orWrong_keeps (injectorClear_keeps e c)

theorem execNoteRead_keeps (tag : Byte) (ops : Option (NoteTarget × Nat)) (s : State) : NextKeeps s (execNoteRead tag ops s) :=
  served_keeps fun _ => withOps_keeps _ _ _ _ _ fun _ => noteRead_keeps ..

theorem execNoteRelease_keeps (tag : Byte) (ops : Option Nat) (s : State) : NextKeeps s (execNoteRelease tag ops s) :=
  servedOps_keeps noteRelease_keeps

theorem execTotalizerRead_keeps (tag : Byte) (ops : Option Nat) (s : State) : NextKeeps s (execTotalizerRead tag ops s) := by
  refine served_keeps fun e => withOne_keeps _ _ _ _ _ _ fun a => ?_
  split
  · exact .refl e
  · exact takeRead_keeps ..

theorem execTotalizerAck_keeps (tag : Byte) (ops : Option Nat) (s : State) : NextKeeps s (execTotalizerAck tag ops s) :=
  servedOne_keeps fun e a => .ok (totalizerAck_keeps e a)

theorem execStatusRead_keeps (tag : Byte) (ops : Option (StatusObj × Nat × Nat)) (s : State) :
    NextKeeps s (execStatusRead tag ops s) :=
  served_keeps fun _ => withOps_keeps _ _ _ _ _ fun _ => (replyPair_calm ..).keeps

theorem execClockSet_keeps (tag : Byte) (ops : Option (Nat × Nat)) (s : State) : NextKeeps s (execClockSet tag ops s) :=
  servedOps_keeps fun e w => clockSet_keeps e w.1 w.2

theorem execLineSet_keeps (tag : Byte) (ops : Option (Nat × LineWriteRec)) (s : State) : NextKeeps s (execLineSet tag ops s) :=
  servedIndex_keeps setLine_keeps

theorem execLineDrive_keeps (tag : Byte) (ops : Option (Nat × Bool)) (s : State) : NextKeeps s (execLineDrive tag ops s) :=
  servedIndex_keeps driveLine_keeps

theorem execTableRequestBadTable_keeps (tag : Byte) (clear : Bool) (table : Option Nat) (s : State) :
    NextKeeps s (execTableRequestBadTable tag clear table s) :=
  served_keeps fun _ => withOps_keeps _ _ _ _ _ fun _ => (answer_calm ..).keeps

end

/-- What reaches the part beside requests keeps the laws, and so does every request. -/
theorem exec_keeps (i : Instr) (s : State) : NextKeeps s (exec i s) := by
  cases i with
  | hardReset => exact execHardReset_keeps ..
  | powerLoss => exact execPowerLoss_keeps ..
  | sweepLaunch => exact execSweepLaunch_keeps ..
  | sweepReturn => exact execSweepReturn_keeps ..
  | frameDiscarded => exact execFrameDiscarded_keeps ..
  | sweepTimeout => exact execSweepTimeout_keeps ..
  | authorizationTimerExpiry => exact execAuthorizationTimerExpiry_keeps ..
  | resumeTimerExpiry => exact execResumeTimerExpiry_keeps ..
  | travelTimerExpiry => exact execTravelTimerExpiry_keeps ..
  | shotTimeout => exact execShotTimeout_keeps ..
  | rackClockSecond => exact execRackClockSecond_keeps ..
  | pinLevelChange => exact execPinLevelChange_keeps ..
  | debounceTimerExpiry => exact execDebounceTimerExpiry_keeps ..
  | custodyWriteComplete => exact execCustodyWriteComplete_keeps ..
  | requestUnknownKind => exact execRequestUnknownKind_keeps ..
  | frameTooShort => exact execFrameTooShort_keeps ..
  | tableWriteArm => exact execTableWriteArm_keeps ..
  | tableClearArm => exact execTableClearArm_keeps ..
  | tableWriteProduct => exact execTableWriteProduct_keeps ..
  | tableClearProduct => exact execTableClearProduct_keeps ..
  | tableWriteInjector => exact execTableWriteInjector_keeps ..
  | tableClearInjector => exact execTableClearInjector_keeps ..
  | tableWriteBay => exact execTableWriteBay_keeps ..
  | tableClearBay => exact execTableClearBay_keeps ..
  | tableWritePermit => exact execTableWritePermit_keeps ..
  | tableClearPermit => exact execTableClearPermit_keeps ..
  | tableWriteAccount => exact execTableWriteAccount_keeps ..
  | tableClearAccount => exact execTableClearAccount_keeps ..
  | tableWriteStation => exact execTableWriteStation_keeps ..
  | tableClearStation => exact execTableClearStation_keeps ..
  | tableWriteRackSettings => exact execTableWriteRackSettings_keeps ..
  | tableClearRackSettings => exact execTableClearRackSettings_keeps ..
  | tableRead => exact execTableRead_keeps ..
  | tableReadOrderQueue => exact execTableReadOrderQueue_keeps ..
  | orderAdd => exact execOrderAdd_keeps ..
  | orderCancel => exact execOrderCancel_keeps ..
  | bayOpen => exact execBayOpen_keeps ..
  | bayClose => exact execBayClose_keeps ..
  | bayHold => exact execBayHold_keeps ..
  | bayRelease => exact execBayRelease_keeps ..
  | rackHold => exact execRackHold_keeps ..
  | rackRelease => exact execRackRelease_keeps ..
  | loadFinish => exact execLoadFinish_keeps ..
  | esdClear => exact execEsdClear_keeps ..
  | tripClear => exact execTripClear_keeps ..
  | injectorClear => exact execInjectorClear_keeps ..
  | noteRead => exact execNoteRead_keeps ..
  | noteRelease => exact execNoteRelease_keeps ..
  | totalizerRead => exact execTotalizerRead_keeps ..
  | totalizerAck => exact execTotalizerAck_keeps ..
  | statusRead => exact execStatusRead_keeps ..
  | clockSet => exact execClockSet_keeps ..
  | lineSet => exact execLineSet_keeps ..
  | lineDrive => exact execLineDrive_keeps ..
  | restart => exact execRestart_keeps ..
  | tableRequestBadTable => exact execTableRequestBadTable_keeps ..

theorem idle_keeps (s : State) : NextKeeps s (idle s) := by
  unfold idle
  dsimp only
  split
  · exact ⟨fun t ht => (Device.tick_keeps s.dev).trans ((exec_keeps _ _).keeps t ht)⟩
  · exact ⟨fun t ht => Host.Outcome.next.inj ht ▸ Device.tick_keeps s.dev⟩

/-- Every step keeps the laws. -/
theorem step_keeps (s : State) : NextKeeps s (step s) := by
  unfold step
  split
  · exact idle_keeps s
  next c rest _ => exact ⟨(exec_keeps c { s with pending := rest }).keeps⟩

/-! ### The obligations -/

/-- Settles O8 (L1): every event but a sample leaves the running totalizers alone and moves volume between the accumulators, the
queue and the stored totals; a sample posts what it adds to the running totalizer. -/
theorem stepKeepsTheTotalizersReconciled : Obligations.StepKeepsTheTotalizersReconciled :=
  fun s t h ht => ((step_keeps s).keeps t ht).custody h

/-- Settles O9 (L2): a sample adds the same increments to the running totalizer and to its open batch, and nothing else touches the
readings of a batch. -/
theorem stepKeepsBatchesAndTotalizersInStep : Obligations.StepKeepsBatchesAndTotalizersInStep :=
  fun s t h ht => ((step_keeps s).keeps t ht).batches h

/-- Settles O10 (L3, L4): only a sample writes a net residue or a VCF, the one a remainder, the other clamped. -/
theorem stepKeepsResiduesAndFactorsInRange : Obligations.StepKeepsResiduesAndFactorsInRange :=
  fun s t h ht => ((step_keeps s).keeps t ht).residues h

end Sys2Proof.Machine
end

