-- ==== Sys2Proof/Proofs/MeterArithmetic.lean ====
section
/-! The arithmetic of a sample: rounding, the meter factor's curve (R11) and the gross increment (R12). -/

namespace Sys2Proof.Machine

open Sys2Proof

/-! ### Rounding -/

/-- A quotient rounded half up is the whole number within half a unit of it, the greater of two. -/
theorem roundHalfUp_bounds (n d : Nat) (hd : 0 < d) :
    d * (2 * roundHalfUp n d) ≤ 2 * n + d ∧ 2 * n + d < d * (2 * roundHalfUp n d + 2) := by
  have hdiv := Nat.div_add_mod (2 * n + d) (2 * d)
  have hmod := Nat.mod_lt (2 * n + d) (show 0 < 2 * d by omega)
  have hle : d * (2 * roundHalfUp n d) = 2 * d * ((2 * n + d) / (2 * d)) := by unfold roundHalfUp; ring
  have hlt : d * (2 * roundHalfUp n d + 2) = 2 * d * ((2 * n + d) / (2 * d)) + 2 * d := by rw [Nat.mul_add, hle]; ring
  omega

theorem roundHalfAway_eq (n : Int) (d : Nat) :
    roundHalfAway n d = if 0 ≤ n then (roundHalfUp n.natAbs d : Int) else -(roundHalfUp n.natAbs d : Int) := by
  unfold roundHalfAway
  split
  · rw [show n.toNat = n.natAbs by omega]
  · rw [show (-n).toNat = n.natAbs by omega]

theorem roundHalfAway_zero (d : Nat) : roundHalfAway 0 d = 0 := by
  rw [roundHalfAway_eq, if_pos le_rfl]
  unfold roundHalfUp
  simp only [Int.natAbs_zero, Nat.mul_zero, Nat.zero_add, Nat.cast_eq_zero, Nat.div_eq_zero_iff]
  omega

/-- Rounding does not pass a whole number that the quotient does not pass. -/
theorem roundHalfAway_le {n k : Int} {d : Nat} (hd : 0 < d) (h : n ≤ k * d) : roundHalfAway n d ≤ k := by
  obtain ⟨h1, h2⟩ := roundHalfUp_bounds n.natAbs d hd
  rw [roundHalfAway_eq]
  zify at h1 h2 hd
  split <;> by_contra hc
  · rw [abs_of_nonneg ‹_›] at h2 h1
    nlinarith
  · rw [abs_of_neg (by omega)] at h1 h2
    nlinarith

theorem roundHalfAway_neg (n : Int) (d : Nat) : roundHalfAway (-n) d = -roundHalfAway n d := by
  rw [roundHalfAway_eq, roundHalfAway_eq, Int.natAbs_neg]
  split <;> split
  · have hn : n = 0 := by omega
    subst hn
    have := roundHalfAway_zero d
    rw [roundHalfAway_eq, if_pos le_rfl] at this
    omega
  all_goals omega

theorem le_roundHalfAway {n k : Int} {d : Nat} (hd : 0 < d) (h : k * d ≤ n) : k ≤ roundHalfAway n d := by
  have := roundHalfAway_le (n := -n) (k := -k) hd (by linarith)
  rw [roundHalfAway_neg] at this
  omega

/-! ### The meter factor (R11) -/

/-- R11: the straight line between two points, its fraction rounded. -/
def interpolated (p r : CurvePoint) (q : Nat) : Int :=
  p.mf + roundHalfAway (((r.mf : Int) - p.mf) * ((q : Int) - p.q)) (r.q - p.q)

theorem interpolated_start (p r : CurvePoint) : interpolated p r p.q = p.mf := by
  simp [interpolated, roundHalfAway_zero]

/-- Between two points the line stays within any bounds on their factors. -/
theorem interpolated_bounds {p r : CurvePoint} {q lo hi : Nat} (hp : p.q ≤ q) (hr : q < r.q) (bp : lo ≤ p.mf ∧ p.mf ≤ hi)
    (br : lo ≤ r.mf ∧ r.mf ≤ hi) : (lo : Int) ≤ interpolated p r q ∧ interpolated p r q ≤ hi := by
  have hd : 0 < r.q - p.q := by omega
  have hcast : ((r.q - p.q : Nat) : Int) = (r.q : Int) - p.q := by omega
  obtain ⟨bp1, bp2⟩ := bp
  obtain ⟨br1, br2⟩ := br
  zify at hp hr bp1 bp2 br1 br2
  have hlo : (lo : Int) - p.mf ≤ roundHalfAway (((r.mf : Int) - p.mf) * ((q : Int) - p.q)) (r.q - p.q) :=
    le_roundHalfAway hd (by rw [hcast]; nlinarith)
  have hhi : roundHalfAway (((r.mf : Int) - p.mf) * ((q : Int) - p.q)) (r.q - p.q) ≤ (hi : Int) - p.mf :=
    roundHalfAway_le hd (by rw [hcast]; nlinarith)
  unfold interpolated
  omega

theorem interpolated_nonneg {p r : CurvePoint} {q : Nat} (hp : p.q ≤ q) (hr : q < r.q) : 0 ≤ interpolated p r q :=
  (interpolated_bounds (lo := 0) hp hr ⟨Nat.zero_le _, Nat.le_max_left ..⟩ ⟨Nat.zero_le _, Nat.le_max_right ..⟩).1

theorem meterFactor_of_le {p : CurvePoint} {t : List CurvePoint} {q : Nat} (h : q ≤ p.q) : meterFactor (p :: t) q = p.mf := by
  cases t with
  | nil => rfl
  | cons r t => unfold meterFactor; rw [if_pos h]

theorem meterFactor_between {p r : CurvePoint} {t : List CurvePoint} {q : Nat} (hp : p.q ≤ q) (hr : q < r.q) :
    (meterFactor (p :: r :: t) q : Int) = interpolated p r q := by
  rcases Nat.eq_or_lt_of_le hp with he | hlt
  · subst he
    rw [meterFactor_of_le le_rfl, interpolated_start]
  · unfold meterFactor
    rw [if_neg (by omega), if_pos hr]
    exact Int.toNat_of_nonneg (interpolated_nonneg hp hr)

theorem meterFactor_beyond {p r : CurvePoint} {t : List CurvePoint} {q : Nat} (hpr : p.q < r.q) (hr : r.q ≤ q) :
    meterFactor (p :: r :: t) q = meterFactor (r :: t) q := by
  conv_lhs => unfold meterFactor
  rw [if_neg (by omega), if_neg (by omega)]

theorem ascending_cons {p r : CurvePoint} {t : List CurvePoint} (h : ((p :: r :: t).map CurvePoint.q).Pairwise (· < ·)) :
    p.q < r.q ∧ ((r :: t).map CurvePoint.q).Pairwise (· < ·) := by
  obtain ⟨h1, h2⟩ := List.pairwise_cons.mp h
  exact ⟨h1 _ (List.mem_cons_self ..), h2⟩

theorem head_le_getLast {p l : CurvePoint} {t : List CurvePoint} (h : ((p :: t).map CurvePoint.q).Pairwise (· < ·))
    (hl : (p :: t).getLast? = some l) : p.q ≤ l.q := by
  rcases List.mem_cons.mp (List.mem_of_getLast? hl) with he | hm
  · rw [he]
  · exact ((List.pairwise_cons.mp h).1 _ (List.mem_map_of_mem hm)).le

theorem meterFactor_of_last_le {c : List CurvePoint} {q : Nat} (h : (c.map CurvePoint.q).Pairwise (· < ·)) {l : CurvePoint}
    (hl : c.getLast? = some l) (hq : l.q ≤ q) : meterFactor c q = l.mf := by
  induction c with
  | nil => exact nomatch hl
  | cons p t ih =>
    cases t with
    | nil => obtain rfl := Option.some.inj hl; rfl
    | cons r t =>
      obtain ⟨hpr, ht⟩ := ascending_cons h
      rw [List.getLast?_cons_cons] at hl
      rw [meterFactor_beyond hpr ((head_le_getLast ht hl).trans hq)]
      exact ih ht hl

theorem meterFactor_on_segment {u : List CurvePoint} {q : Nat} (h : (u.map CurvePoint.q).Pairwise (· < ·)) {i : Nat}
    {p r : CurvePoint} (hp : u[i]? = some p) (hr : u[i + 1]? = some r) (h1 : p.q ≤ q) (h2 : q < r.q) :
    (meterFactor u q : Int) = interpolated p r q := by
  induction u generalizing i with
  | nil => exact nomatch hp
  | cons x t ih =>
    cases t with
    | nil => simp at hr
    | cons y t =>
      obtain ⟨hxy, ht⟩ := ascending_cons h
      cases i with
      | zero =>
        obtain rfl := Option.some.inj hp
        obtain rfl := Option.some.inj hr
        exact meterFactor_between h1 h2
      | succ i =>
        have hy : y.q ≤ p.q := by
          rcases List.mem_cons.mp (List.mem_of_getElem? (show (y :: t)[i]? = some p from hp)) with he | hm
          · rw [he]
          · exact ((List.pairwise_cons.mp ht).1 _ (List.mem_map_of_mem hm)).le
        rw [meterFactor_beyond hxy (hy.trans h1)]
        exact ih ht hp hr

theorem meterFactor_bounds {c : List CurvePoint} {q lo hi : Nat} (h : (c.map CurvePoint.q).Pairwise (· < ·)) (hc : c ≠ [])
    (hb : ∀ p ∈ c, lo ≤ p.mf ∧ p.mf ≤ hi) : lo ≤ meterFactor c q ∧ meterFactor c q ≤ hi := by
  induction c with
  | nil => exact absurd rfl hc
  | cons p t ih =>
    obtain ⟨bp, bt⟩ := List.forall_mem_cons.mp hb
    cases t with
    | nil => exact bp
    | cons r t =>
      obtain ⟨hpr, ht⟩ := ascending_cons h
      rcases Nat.lt_or_ge q p.q with hq | hq
      · rw [meterFactor_of_le hq.le]
        exact bp
      rcases Nat.lt_or_ge q r.q with hr | hr
      · have := interpolated_bounds hq hr bp (bt r (List.mem_cons_self ..))
        have := meterFactor_between (t := t) hq hr
        omega
      · rw [meterFactor_beyond hpr hr]
        exact ih ht (List.cons_ne_nil _ _) bt

/-- Settles O53 (R11), along the curve's points. -/
theorem meterFactorFollowsTheCurve : Obligations.MeterFactorFollowsTheCurve := by
  refine ⟨fun c q h => ⟨fun p hp hq => ?_, fun p => meterFactor_of_last_le h, fun p hp => by rw [hp]; rfl,
    fun i p r => meterFactor_on_segment h, fun hc lo hi => meterFactor_bounds h hc⟩, fun _ _ _ _ _ _ => rfl, fun _ _ => rfl⟩
  cases c with
  | nil => exact nomatch hp
  | cons x t =>
    obtain rfl := Option.some.inj hp
    exact meterFactor_of_le hq

/-- Settles O54 (R12): quotient and residue of one division. -/
theorem grossIncrementKeepsEveryFraction : Obligations.GrossIncrementKeepsEveryFraction := by
  rintro d a r dl dB q i rfl
  refine ⟨rfl, rfl, Nat.div_add_mod _ _, fun hdl hres => ?_, rfl⟩
  subst hdl
  have hn : 0 * 10000 * meterFactor r.curve q + (d.meter a).grossResidue = (d.meter a).grossResidue := by omega
  constructor
  · show (0 * 10000 * meterFactor r.curve q + (d.meter a).grossResidue) / r.kFactor = 0
    rw [hn, Nat.div_eq_of_lt hres]
  · show (0 * 10000 * meterFactor r.curve q + (d.meter a).grossResidue) % r.kFactor = (d.meter a).grossResidue
    rw [hn, Nat.mod_eq_of_lt hres]

end Sys2Proof.Machine
end

