-- ==== Sys2Proof/Proofs/SampleOutcomes.lean ====
section
/-! What one meter sample leaves behind (R7 to R18, R41): which of its four outcomes it takes, its arithmetic, and where its
increments stand at its end. -/

namespace Sys2Proof.Machine

open Sys2Proof

/-! ### Temperature, VCF and mismatch (R10, R14, R15) -/

theorem vcfOf_cases (alpha : Nat) (t v : Int) (hv : v = rawVcf alpha t) :
    (v < 950000 → vcfOf alpha t = 950000) ∧ (1050000 < v → vcfOf alpha t = 1050000) ∧
    (950000 ≤ v → v ≤ 1050000 → (vcfOf alpha t : Int) = v) ∧ (vcfClamped alpha t = true ↔ v < 950000 ∨ 1050000 < v) := by
  subst hv
  refine ⟨fun h => ?_, fun h => ?_, fun h1 h2 => ?_, by simp [vcfClamped]⟩ <;> unfold vcfOf <;> dsimp only
  · rw [if_pos h]
  · rw [if_neg (by omega), if_pos h]
  · rw [if_neg (by omega), if_neg (by omega), Int.toNat_of_nonneg (by omega)]

theorem pulseMismatch_iff (dl dB : Nat) :
    pulseMismatch dl dB = true ↔ max 2 (dl / 1000) < ((dl : Int) - (dB : Int)).natAbs := by
  rw [pulseMismatch, decide_eq_true_iff, show max dl dB - min dl dB = ((dl : Int) - (dB : Int)).natAbs by omega]

namespace Device

theorem sampleTemp_cases (d : Device) (a : ArmId) (r : ArmRecord) (p : Option Product) (good : Prop)
    (h : good ↔ r.temp ≠ 0 ∧ (d.station r.temp).isKind .temp = true ∧ (d.station r.temp).faulty = false ∧
      (d.meter a).heldValid = true) :
    (good → (d.station r.temp).state = .active → d.sampleTemp a r p = ((d.meter a).heldTemp, .live)) ∧
    (good → (d.station r.temp).state = .slipped → d.sampleTemp a r p = ((d.meter a).heldTemp, .held)) ∧
    ((good → (d.station r.temp).state ≠ .active ∧ (d.station r.temp).state ≠ .slipped) →
      d.sampleTemp a r p = ((p.map Product.fallback).getD 1500, .fallback)) := by
  have hg : (r.temp != 0 && (d.station r.temp).isKind .temp && !(d.station r.temp).faulty && (d.meter a).heldValid) = true ↔ good := by
    simp [h, and_assoc]
  unfold sampleTemp
  dsimp only
  generalize (r.temp != 0 && (d.station r.temp).isKind .temp && !(d.station r.temp).faulty && (d.meter a).heldValid) = g at hg ⊢
  refine ⟨fun hd hs => ?_, fun hd hs => ?_, fun hn => ?_⟩
  · simp [hg.mpr hd, hs]
  · simp [hg.mpr hd, hs]
  · have hlive : ¬ (g && (d.station r.temp).state == .active) = true := by
      simp only [Bool.and_eq_true, beq_iff_eq]
      exact fun ⟨h1, h2⟩ => (hn (hg.mp h1)).1 h2
    have hheld : ¬ (g && (d.station r.temp).state == .slipped) = true := by
      simp only [Bool.and_eq_true, beq_iff_eq]
      exact fun ⟨h1, h2⟩ => (hn (hg.mp h1)).2 h2
    rw [if_neg hlive, if_neg hheld]
    cases p <;> rfl

/-! ### The four outcomes (R7 to R9) -/

theorem meterSample_first {d : Device} {a : ArmId} (r : ArmRecord) (c : Counts) (h : (d.meter a).baselineValid = false) :
    d.meterSample a r c = d.onMeter a fun x => { x with baseline := c, baselineValid := true } := by
  unfold meterSample
  simp [h]

theorem meterSample_ignored {d : Device} {a : ArmId} (r : ArmRecord) (c : Counts) (h : (d.meter a).baselineValid = true)
    (he : wrapDelta c.ts (d.meter a).baseline.ts = 0) (hd : wrapDelta c.a (d.meter a).baseline.a = 0) :
    d.meterSample a r c = d := by
  unfold meterSample
  simp [h, he, hd]

theorem meterSample_fault {d : Device} {a : ArmId} (r : ArmRecord) (c : Counts) (dl e : Nat)
    (hdl : dl = wrapDelta c.a (d.meter a).baseline.a) (he : e = wrapDelta c.ts (d.meter a).baseline.ts)
    (h : (d.meter a).baselineValid = true)
    (hf : (e = 0 ∧ dl ≠ 0) ∨ (e ≠ 0 ∧ 2 * r.qMax < flowRate r.kFactor dl e)) : d.meterSample a r c = d.countFault a c dl := by
  subst hdl he
  unfold meterSample
  rcases hf with ⟨h1, h2⟩ | ⟨h1, h2⟩ <;> simp [h, h1, h2]

theorem meterSample_counted {d : Device} {a : ArmId} (r : ArmRecord) (c : Counts) (dl dB e q : Nat)
    (hdl : dl = wrapDelta c.a (d.meter a).baseline.a) (hdB : dB = wrapDelta c.b (d.meter a).baseline.b)
    (he : e = wrapDelta c.ts (d.meter a).baseline.ts) (hq : q = flowRate r.kFactor dl e)
    (h : (d.meter a).baselineValid = true) (h0 : e ≠ 0) (hm : q ≤ 2 * r.qMax) :
    d.meterSample a r c = (d.onMeter a fun x => { x with baseline := c, lastFlow := q }).handOn a (d.increment a r dl dB q) := by
  have hi : (d.onMeter a fun x => { x with baseline := c, lastFlow := q }).increment a r dl dB q = d.increment a r dl dB q := by
    unfold increment sampleTemp
    simp only [onMeter_meter, if_true]
    rfl
  subst hdl hdB he hq
  unfold meterSample
  simp only [h, Bool.not_true, Bool.false_eq_true, if_false, h0, Nat.not_lt.mpr hm, hi]

theorem countFault_meter (d : Device) (a : ArmId) (c : Counts) (dl : Nat) :
    (d.countFault a c dl).meter a = { d.meter a with baseline := c } := by
  unfold countFault
  rw [onArm_meter, onMeter_meter, if_pos rfl]

theorem countFault_arm_none {d : Device} {a : ArmId} (c : Counts) (dl : Nat) (h : (d.arm a).batch = none) :
    (d.countFault a c dl).arm a = d.arm a := by
  unfold countFault
  rw [onArm_arm, if_pos rfl]
  show (match (d.arm a).batch with | none => d.arm a | some _ => _) = d.arm a
  rw [h]

theorem countFault_arm_some {d : Device} {a : ArmId} (c : Counts) (dl : Nat) {b : Batch} (h : (d.arm a).batch = some b) :
    (d.countFault a c dl).arm a = { d.arm a with
      batch := some { b with flags := { b.flags with countFault := true }, discarded := b.discarded + dl }
      zeroFlow := if b.phase = .closeWait then 0 else (d.arm a).zeroFlow } := by
  unfold countFault
  rw [onArm_arm, if_pos rfl]
  simp only [onMeter_arm]
  split
  next hn => exact absurd (h.symm.trans hn) (by simp)
  next x hx => obtain rfl := Option.some.inj (h.symm.trans hx); rfl

/-! ### The books after a post (R18) -/

theorem placeTotals_meter_other (d : Device) {a x : ArmId} (v : Vol) (recovery : Bool) (h : x ≠ a) :
    (d.placeTotals a v recovery).meter x = d.meter x := by
  unfold placeTotals
  split
  · rfl
  · rw [onMeter_meter, if_neg h]; rfl

theorem postTotals_meter_other (d : Device) {a x : ArmId} (v : Vol) (h : x ≠ a) : (d.postTotals a v).meter x = d.meter x := by
  unfold postTotals
  dsimp only
  split
  · rfl
  · rw [placeTotals_meter_other _ _ _ h, onMeter_meter, if_neg h]

theorem placeTotals_books (d : Device) (a : ArmId) (v : Vol) (recovery : Bool) :
    ((d.placeTotals a v recovery).meter a).unwritten.add ((d.placeTotals a v recovery).cw.queued a) =
      ((d.meter a).unwritten.add (d.cw.queued a)).add v := by
  unfold placeTotals
  split
  next q hq =>
    obtain ⟨h1, -⟩ := placePost_placed hq
    have ha := h1 a
    rw [if_pos rfl] at ha
    simp only [onCw_cw, onCw_meter, Cw.queued_eq, ha, Vol.add_assoc]
  next =>
    simp only [onMeter_meter, if_true, onMeter_cw, onCw_cw, onCw_meter, Cw.queued_eq]
    rw [Vol.add_assoc, Vol.add_comm v, ← Vol.add_assoc]

/-- R18: what the arm's accumulator and its queued amounts gain is the increment. -/
theorem postTotals_books (d : Device) (a : ArmId) (v : Vol) :
    ((d.postTotals a v).meter a).unwritten.add ((d.postTotals a v).cw.queued a) =
      ((d.meter a).unwritten.add (d.cw.queued a)).add v := by
  unfold postTotals
  dsimp only
  split
  next hz =>
    have hv : v = ⟨0, 0⟩ := by
      simp only [Vol.isZero, Vol.add, Bool.and_eq_true, beq_iff_eq, Nat.add_eq_zero_iff] at hz
      cases v; simp_all
    rw [hv, Vol.add_zero]
  next =>
    rw [placeTotals_books, onMeter_meter, if_pos rfl, onMeter_cw, Vol.zero_add]
    simp only [Vol.add_comm, Vol.add_left_comm]

end Device

/-! ### The batch after a sample -/

/-- A batch without what dosing, its phase test or its end may change: what its samples left in it. -/
def Batch.tally (b : Batch) : Batch :=
  { b with phase := .start, snapshot := none, throttle := false, dosing := [], closing := none, endTime := none, endStatus := none
           flags := { b.flags with overrun := false, additiveFault := false, doseShortfall := false } }

theorem Batch.tally_of_metered {x y : Batch} (h : x.metered = y.metered) : x.tally = y.tally := by
  have ht : x.metered.tally = y.metered.tally := by rw [h]
  exact ht

theorem Batch.finish_tally (b : Batch) (m : Vol) (t : Time) (short : Bool) : (b.finish m t short).tally = b.tally := rfl

theorem mem_insertEnded_self (b : Batch) (l : List Batch) : b ∈ insertEnded b l := by
  induction l with
  | nil => exact List.mem_cons_self ..
  | cons x t ih =>
    unfold insertEnded
    split
    · exact List.mem_cons_self ..
    · exact List.mem_cons_of_mem _ ih

theorem ArmCtl.Dosed.batch_some {c e : ArmCtl} (h : c.Dosed e) {x : Batch} (hx : c.batch = some x) :
    ∃ y, e.batch = some y ∧ y.metered = x.metered := by
  have hb := h.batch
  rw [hx] at hb
  exact Option.map_eq_some_iff.mp hb

theorem ArmCtl.Dosed.batch_none {c e : ArmCtl} (h : c.Dosed e) (hx : c.batch = none) : e.batch = none := by
  have hb := h.batch
  rw [hx] at hb
  exact Option.map_eq_none_iff.mp hb

/-- R31: a close that a sample or its dosing commands starts the count anew, so the end waits for later samples. -/
theorem ArmCtl.Dosed.not_ending {c e : ArmCtl} {i : Increment} {b : Batch} (h : (c.sampled i).Dosed e) (hb : c.batch = some b)
    (hp : b.phase ≠ .closeWait) {y : Batch} (hy : e.batch = some y) : ¬ (y.phase = .closeWait ∧ 3 ≤ e.zeroFlow) := by
  rintro ⟨h1, h2⟩
  rcases h.close with hz | ⟨hz, hph⟩
  · omega
  · rw [sampled_some i hb] at hz hph
    rw [hy] at hph
    have hc : ((b.advance i).evaluate c.closeAhead).phase = .closeWait := (Option.some.inj hph).symm.trans h1
    simp only [if_neg hp, if_pos hc] at hz
    omega

namespace Device

theorem bayOfArm_congr {d e : Device} (h : e.armRecs = d.armRecs) (a : ArmId) : e.bayOfArm a = d.bayOfArm a := by
  simp only [bayOfArm, armRec, h]

theorem armNotice_bay (d : Device) (a : ArmId) (k : Nat) (l : List (List Byte)) (b : BayId) : (d.armNotice a k l).bay b = d.bay b := rfl

/-- R33: a batch that ends stands among its bay's ended ones. -/
theorem endBatch_ended {d : Device} {a : ArmId} {b : BayId} {t : Batch} (hb : d.bayOfArm a = some b) (ht : (d.arm a).batch = some t)
    (short : Bool) : ∃ x ∈ ((d.endBatch a short).bay b).ended, x.tally = t.tally := by
  have h0 := cancelPendings_dosed d a false
  obtain ⟨y, hy, hm⟩ := (h0.arm a).batch_some ht
  have hb' : (d.cancelPendings a false).bayOfArm a = some b := (bayOfArm_congr h0.armRecs a).trans hb
  refine ⟨_, ?_, (y.finish_tally ((d.cancelPendings a false).meter a).mirror (d.cancelPendings a false).time short).trans
    (Batch.tally_of_metered hm)⟩
  unfold endBatch
  simp only [hy, hb']
  rw [armNotice_bay, onBay_bay, if_pos rfl]
  exact mem_insertEnded_self ..

theorem closeArm_of_none {d : Device} {a : ArmId} (h : (d.arm a).batch = none) : d.closeArm a = d := by
  unfold closeArm
  rw [h]

theorem foldl_closeArm_of_none (l : List ArmId) {d : Device} (h : ∀ a ∈ l, (d.arm a).batch = none) : l.foldl closeArm d = d := by
  induction l with
  | nil => rfl
  | cons a t ih =>
    obtain ⟨ha, ht⟩ := List.forall_mem_cons.mp h
    rw [List.foldl_cons, closeArm_of_none ha, ih ht]

theorem noBatch_iff (d : Device) (b : BayId) : d.noBatch b = true ↔ ∀ a ∈ d.armsOf b, (d.arm a).batch = none := by
  simp only [noBatch, hasBatch, List.all_eq_true, Bool.not_eq_true', Option.isSome_eq_false_iff, Option.isNone_iff_eq_none]

theorem enterState_ended (d : Device) (b y : BayId) (st : BayState) : ((d.enterState b st).bay y).ended = (d.bay y).ended := by
  rw [enterState, onBay_bay]
  split
  next hy =>
    subst hy
    split <;> rfl
  next => rfl

/-- R72: a load closed with no batch open leaves the ended batches as they are. -/
theorem loadTest_ended (d : Device) (b y : BayId) : ((d.loadTest b).bay y).ended = (d.bay y).ended := by
  unfold loadTest
  split
  · rfl
  split
  next h =>
    obtain ⟨-, -, hn⟩ := h
    unfold closeLoad
    dsimp only
    generalize hd : (d.enterState b .closing).onBay b _ = e
    have he : (e.bay y).ended = (d.bay y).ended := by
      rw [← hd, onBay_bay]
      split
      next hy => subst hy; exact enterState_ended ..
      next => exact enterState_ended ..
    have ha : ∀ a, e.arm a = d.arm a := fun a => by rw [← hd]; rfl
    rw [foldl_closeArm_of_none _ fun a h => (ha a).symm ▸ (noBatch_iff d b).mp hn a h, bayNotice_bay, he]
  next => rfl

/-- The part with a sample's increments in the mirror, in the batch and in the Custody Writer's hands (R18). -/
def posted (d : Device) (a : ArmId) (i : Increment) : Device := ((d.onMeter a fun m => m.advance i).batchSample a i).postTotals a i.vol

theorem handOn_eq (d : Device) (a : ArmId) (i : Increment) :
    d.handOn a i = ((d.posted a i).doseSample a i.vol.gross).zeroFlowTest a := rfl

theorem batchSample_meter (d : Device) (a x : ArmId) (i : Increment) : (d.batchSample a i).meter x = d.meter x := by
  simp only [meter, (batchSample_dosed d a i).meters, onArm_meters]

theorem posted_meter_self (d : Device) (a : ArmId) (i : Increment) :
    ∃ u, (d.posted a i).meter a = { (d.meter a).advance i with unwritten := u } := by
  obtain ⟨u, hu⟩ := postTotals_meter ((d.onMeter a fun m => m.advance i).batchSample a i) a a i.vol
  refine ⟨u, ?_⟩
  rw [posted, hu, batchSample_meter, onMeter_meter, if_pos rfl]

theorem posted_meter_other (d : Device) {a x : ArmId} (i : Increment) (h : x ≠ a) : (d.posted a i).meter x = d.meter x := by
  rw [posted, postTotals_meter_other _ _ h, batchSample_meter, onMeter_meter, if_neg h]

theorem posted_books (d : Device) (a : ArmId) (i : Increment) :
    ((d.posted a i).meter a).unwritten.add ((d.posted a i).cw.queued a) = ((d.meter a).unwritten.add (d.cw.queued a)).add i.vol := by
  rw [posted, postTotals_books, batchSample_meter, onMeter_meter, if_pos rfl, (batchSample_dosed _ a i).cw]
  rfl

theorem dosed_arm (d : Device) (a : ArmId) (i : Increment) :
    ((d.arm a).sampled i).Dosed (((d.posted a i).doseSample a i.vol.gross).arm a) := by
  have h1 := (batchSample_dosed (d.onMeter a fun m => m.advance i) a i).arm a
  have h2 := (doseSample_dosed (d.posted a i) a i.vol.gross).arm a
  have hp : (d.posted a i).arm a = ((d.onMeter a fun m => m.advance i).batchSample a i).arm a := by
    rw [posted, ← postTotals_rest]; rfl
  rw [onArm_arm, if_pos rfl] at h1
  exact h1.trans (hp ▸ h2)

theorem handOn_meter (d : Device) (a x : ArmId) (i : Increment) : (d.handOn a i).meter x = (d.posted a i).meter x := by
  rw [handOn_eq]
  simp only [meter, (zeroFlowTest_calm _ a).meters, (doseSample_dosed _ a _).meters]

theorem handOn_cw (d : Device) (a : ArmId) (i : Increment) : (d.handOn a i).cw = (d.posted a i).cw := by
  rw [handOn_eq, (zeroFlowTest_calm _ a).cw, (doseSample_dosed _ a _).cw]

/-- Short of R31's third sample, the arm stands as dosing left it. -/
theorem handOn_arm_of_not_ending {d : Device} {a : ArmId} {i : Increment}
    (h : ∀ y, (((d.posted a i).doseSample a i.vol.gross).arm a).batch = some y →
      ¬ (y.phase = .closeWait ∧ 3 ≤ (((d.posted a i).doseSample a i.vol.gross).arm a).zeroFlow)) :
    (d.handOn a i).arm a = ((d.posted a i).doseSample a i.vol.gross).arm a := by
  rw [handOn_eq]
  generalize (d.posted a i).doseSample a i.vol.gross = e at h ⊢
  unfold zeroFlowTest
  split
  · rfl
  next y hy => rw [if_neg (h y hy)]

theorem handOn_unassigned {d : Device} {a : ArmId} (i : Increment) (h : (d.arm a).batch = none) :
    ((d.handOn a i).arm a).unassigned = (d.arm a).unassigned.add i.vol := by
  have hd := dosed_arm d a i
  rw [ArmCtl.sampled_none i h] at hd
  have hn := hd.batch_none h
  rw [handOn_arm_of_not_ending fun y hy => absurd (hn.symm.trans hy) (by simp), ← hd.rest]

/-- A sample tallied in a batch that does not end by it. -/
theorem handOn_batch {d : Device} {a : ArmId} {b : Batch} (i : Increment) (h : (d.arm a).batch = some b) (hp : b.phase ≠ .closeWait) :
    ∃ x, ((d.handOn a i).arm a).batch = some x ∧ x.tally = (b.advance i).tally := by
  have hd := dosed_arm d a i
  rw [handOn_arm_of_not_ending fun y hy => hd.not_ending h hp hy]
  rw [ArmCtl.sampled_some i h] at hd
  obtain ⟨x, hx, hm⟩ := hd.batch_some rfl
  exact ⟨x, hx, Batch.tally_of_metered (hm.trans (Batch.evaluate_metered ..))⟩

/-- A sample tallied in the arm's batch, which is open still or ended by it. -/
theorem handOn_tally {d : Device} {a : ArmId} {b : Batch} (i : Increment) (h : (d.arm a).batch = some b) :
    ∃ x, (((d.handOn a i).arm a).batch = some x ∨ ∃ y, x ∈ ((d.handOn a i).bay y).ended) ∧ x.tally = (b.advance i).tally := by
  have hd := dosed_arm d a i
  rw [ArmCtl.sampled_some i h] at hd
  obtain ⟨x, hx, hm⟩ := hd.batch_some rfl
  have ht : x.tally = (b.advance i).tally := Batch.tally_of_metered (hm.trans (Batch.evaluate_metered ..))
  rw [handOn_eq]
  generalize (d.posted a i).doseSample a i.vol.gross = e at hx ⊢
  unfold zeroFlowTest
  rw [hx]
  dsimp only
  split
  next =>
    unfold batchEnded
    split
    next y hy =>
      obtain ⟨z, hz, hzt⟩ := endBatch_ended hy hx false
      exact ⟨z, .inr ⟨y, by rw [loadTest_ended]; exact hz⟩, hzt.trans ht⟩
    next => exact ⟨x, .inl hx, ht⟩
  next => exact ⟨x, .inl hx, ht⟩

end Device

/-- R14, R15: what a sample's arithmetic takes as its temperature and as its VCF. -/
theorem Device.increment_temperature (d : Device) (a : ArmId) (r : ArmRecord) (dl dB q : Nat) (p : Option Product)
    (hp : p = (d.productOf r.product).map Prod.snd) (good : Prop)
    (h : good ↔ r.temp ≠ 0 ∧ (d.station r.temp).isKind .temp = true ∧ (d.station r.temp).faulty = false ∧
      (d.meter a).heldValid = true) (i : Increment) (hi : i = d.increment a r dl dB q) :
    (good → (d.station r.temp).state = .active → i.temp = (d.meter a).heldTemp ∧ i.source = .live) ∧
    (good → (d.station r.temp).state = .slipped → i.temp = (d.meter a).heldTemp ∧ i.source = .held) ∧
    ((good → (d.station r.temp).state ≠ .active ∧ (d.station r.temp).state ≠ .slipped) →
      i.source = .fallback ∧ i.temp = (p.map Product.fallback).getD 1500) ∧
    (p = none → i.vcf = 1000000 ∧ i.clamped = false) ∧
    (∀ (x : Product) (f v : Int) (g : Nat), p = some x → f = roundHalfAway ((x.alpha : Int) * (i.temp - 1500)) 100 →
      g = roundHalfUp (f.natAbs * f.natAbs) 2000000 → v = 1000000 - f + (g : Int) →
      (v < 950000 → i.vcf = 950000) ∧ (1050000 < v → i.vcf = 1050000) ∧
      (950000 ≤ v → v ≤ 1050000 → (i.vcf : Int) = v) ∧ (i.clamped = true ↔ v < 950000 ∨ 1050000 < v)) := by
  obtain ⟨h1, h2, h3⟩ := d.sampleTemp_cases a r p good h
  have ht : (i.temp, i.source) = d.sampleTemp a r p := by subst hi hp; rfl
  refine ⟨fun hg hs => Prod.mk.inj (ht.trans (h1 hg hs)), fun hg hs => Prod.mk.inj (ht.trans (h2 hg hs)),
    fun hn => (Prod.mk.inj (ht.trans (h3 hn))).symm, fun hn => ?_, fun x f v g hx hf hg hv' => ?_⟩
  · subst hi hn
    unfold increment
    rw [← hp]
    exact ⟨rfl, rfl⟩
  · obtain ⟨hv, hc⟩ : i.vcf = vcfOf x.alpha i.temp ∧ i.clamped = vcfClamped x.alpha i.temp := by
      subst hi hx
      unfold increment
      rw [← hp]
      exact ⟨rfl, rfl⟩
    rw [hv, hc]
    subst hf hg
    exact vcfOf_cases x.alpha i.temp v hv'

/-- R10, R15, R17: what a sample tallied in a batch adds to it. -/
theorem Batch.tally_advance {b x : Batch} {i : Increment} (h : x.tally = (b.advance i).tally) :
    x.line = b.line ∧ x.delivered = b.delivered.add i.vol ∧ x.tempSum = b.tempSum + (i.vol.gross : Int) * i.temp ∧
    x.mismatches = (if i.mismatch then b.mismatches + 1 else b.mismatches) ∧
    (x.flags.pulseMismatch = true ↔ b.flags.pulseMismatch = true ∨ (i.mismatch = true ∧ 8 ≤ x.mismatches)) ∧
    (x.flags.tempDefaulted = true ↔ b.flags.tempDefaulted = true ∨ (i.source = .fallback ∧ 0 < i.vol.gross ∧ i.known = true)) ∧
    (x.flags.vcfLimited = true ↔ b.flags.vcfLimited = true ∨ (i.clamped = true ∧ 0 < i.vol.gross)) ∧
    x.flags.countFault = b.flags.countFault ∧ x.discarded = b.discarded := by
  have hm : x.mismatches = (if i.mismatch then b.mismatches + 1 else b.mismatches) := congrArg (fun y : Batch => y.mismatches) h
  have hp : x.flags.pulseMismatch =
      (b.flags.pulseMismatch || (i.mismatch && decide (8 ≤ if i.mismatch then b.mismatches + 1 else b.mismatches))) :=
    congrArg (fun y : Batch => y.flags.pulseMismatch) h
  have ht : x.flags.tempDefaulted =
      (b.flags.tempDefaulted || (i.source == .fallback && decide (0 < i.vol.gross) && i.known)) :=
    congrArg (fun y : Batch => y.flags.tempDefaulted) h
  have hv : x.flags.vcfLimited = (b.flags.vcfLimited || (i.clamped && decide (0 < i.vol.gross))) :=
    congrArg (fun y : Batch => y.flags.vcfLimited) h
  refine ⟨(congrArg (fun y : Batch => y.line) h :), (congrArg (fun y : Batch => y.delivered) h :), (congrArg (fun y : Batch => y.tempSum) h :),
    hm, ?_, ?_, ?_, (congrArg (fun y : Batch => y.flags.countFault) h :), (congrArg (fun y : Batch => y.discarded) h :)⟩
  · rw [hp, ← hm]
    simp
  · rw [ht]
    simp [and_assoc]
  · rw [hv]
    simp

open Device in
/-- Settles O55: the four outcomes of a sample, then what its increments come to at the end of the one that counts. -/
theorem meterSampleByItsDifferences : Obligations.MeterSampleByItsDifferences := by
  refine ⟨?_, fun n d hd => roundHalfUp_bounds n d hd, roundHalfAway_eq⟩
  intro d a r c dl dB e q hdl hdB he hq
  refine ⟨meterSample_first r c, fun hv h0 h1 => meterSample_ignored r c hv (he.symm.trans h0) (hdl.symm.trans h1),
    fun hv hf => ?_, ?_⟩
  · rw [meterSample_fault r c dl e hdl he hv (by rwa [hq] at hf)]
    refine ⟨countFault_meter d a c dl, fun b hb => ?_, countFault_arm_none c dl, rfl, rfl, rfl⟩
    rw [countFault_arm_some c dl hb]
    exact ⟨rfl, fun hp => if_pos hp⟩
  · rintro hv h0 hm i hi
    rw [meterSample_counted r c dl dB e q hdl hdB he hq hv h0 hm, ← hi]
    generalize hd1 : (d.onMeter a fun x => { x with baseline := c, lastFlow := q }) = d1
    have hself : d1.meter a = { d.meter a with baseline := c, lastFlow := q } := by rw [← hd1, onMeter_meter, if_pos rfl]
    have hother : ∀ x, x ≠ a → d1.meter x = d.meter x := fun x hx => by rw [← hd1, onMeter_meter, if_neg hx]
    have harm : d1.arm a = d.arm a := by rw [← hd1]; rfl
    have hcw : d1.cw = d.cw := by rw [← hd1]; rfl
    obtain ⟨u, hu⟩ := posted_meter_self d1 a i
    have hbooks := posted_books d1 a i
    rw [hcw, hself] at hbooks
    have hknown : i.known = true ↔ d.productOf r.product ≠ none := by
      subst hi
      show ((d.productOf r.product).map Prod.snd).isSome = true ↔ _
      cases d.productOf r.product <;> simp
    rw [handOn_cw]
    simp only [handOn_meter]
    rw [hu] at hbooks ⊢
    rw [hself] at hbooks ⊢
    rw [← harm]
    refine ⟨rfl, rfl, rfl, rfl, rfl, ?_, ?_, rfl, fun x hx => (posted_meter_other d1 i hx).trans (hother x hx), hbooks,
      handOn_unassigned i, fun b hb hp => ?_, rfl, rfl, rfl, fun p hp good hg => increment_temperature d a r dl dB q p hp good hg i hi,
      ?_, fun b hb _ => ?_⟩
    · subst hi; rfl
    · subst hi; rfl
    · obtain ⟨x, hx, ht⟩ := handOn_batch i hb hp
      obtain ⟨-, hdel, hsum, -⟩ := Batch.tally_advance ht
      exact ⟨x, hx, hdel, hsum⟩
    · subst hi
      exact pulseMismatch_iff dl dB
    · obtain ⟨x, hx, ht⟩ := handOn_tally i hb
      obtain ⟨hl, hdel, -, hmm, hpm, htd, hvl, hcf, hdc⟩ := Batch.tally_advance ht
      exact ⟨x, hx, hl, hdel, hmm, hpm, by rwa [hknown] at htd, hvl, hcf, hdc⟩

end Sys2Proof.Machine
end

