-- ==== Sys2Proof/Proofs/Users.lean ====
section
/-! What the return or the loss of a METER, TEMP or VALVE station does at the arm that uses it (R13, R21, R32, R35, R39). -/

namespace Sys2Proof.Machine

open Sys2Proof

/-- A notice raised stands in the queue. -/
theorem mem_noticeQueue (n : Notice) (q : List Notice) : ∃ x ∈ noticeQueue n q, x.obj = n.obj ∧ x.event = n.event := by
  unfold noticeQueue
  split
  next h =>
    obtain ⟨e, he, ho⟩ := List.any_eq_true.mp h
    refine ⟨_, List.mem_map_of_mem he, ?_⟩
    rw [if_pos ho]
    exact ⟨rfl, rfl⟩
  next => exact ⟨_, List.mem_append_right _ (List.mem_singleton_self _), rfl, rfl⟩

namespace Device

theorem armNotice_raised (d : Device) (a : ArmId) (k : Nat) (l : List (List Byte)) :
    ∃ x ∈ (d.armNotice a k l).mp.notices, x.obj = .arm a ∧ x.event = k := mem_noticeQueue ..

/-! ### Changes to one arm's batch alone -/

/-- Of the arms' records, what differs from `d` to `e` is at most the batch of arm `a`. -/
structure ChangesBatchOf (a : ArmId) (d e : Device) : Prop where
  other : ∀ x, x ≠ a → e.arm x = d.arm x
  self  : { d.arm a with batch := (e.arm a).batch } = e.arm a

theorem ChangesBatchOf.of_arms {d e : Device} (a : ArmId) (h : e.arms = d.arms) : ChangesBatchOf a d e := by
  have ha : ∀ x, e.arm x = d.arm x := fun x => by rw [arm, h]; rfl
  exact ⟨fun x _ => ha x, by rw [ha]⟩

theorem ChangesBatchOf.trans {a : ArmId} {d e f : Device} (h : ChangesBatchOf a d e) (k : ChangesBatchOf a e f) :
    ChangesBatchOf a d f :=
  ⟨fun x hx => (k.other x hx).trans (h.other x hx), by rw [← k.self, ← h.self]⟩

theorem ChangesBatchOf.foldl {α : Type} {a : ArmId} (f : Device → α → Device) (l : List α)
    (h : ∀ (e : Device) (x : α), x ∈ l → ChangesBatchOf a e (f e x)) (d : Device) : ChangesBatchOf a d (l.foldl f d) := by
  induction l generalizing d with
  | nil => exact .of_arms a rfl
  | cons x t ih =>
    exact (h d x (List.mem_cons_self ..)).trans (ih (fun e y hy => h e y (List.mem_cons_of_mem _ hy)) _)

theorem onArm_changesBatch (d : Device) (a : ArmId) (f : ArmCtl → ArmCtl)
    (h : { d.arm a with batch := (f (d.arm a)).batch } = f (d.arm a)) : ChangesBatchOf a d (d.onArm a f) where
  other x hx := by rw [onArm_arm, if_neg hx]
  self := by rw [onArm_arm, if_pos rfl]; exact h

theorem onBatch_changesBatch (d : Device) (a : ArmId) (f : Batch → Batch) : ChangesBatchOf a d (d.onBatch a f) :=
  onArm_changesBatch d a _ rfl

theorem foldl_onBay_arms (f : BayId → Bay → Bay) (l : List BayId) (d : Device) :
    (l.foldl (fun e b => e.onBay b (f b)) d).arms = d.arms := by
  induction l generalizing d with
  | nil => rfl
  | cons b t ih => exact ih _

theorem setFates_arms (d : Device) (pick : DoseRef → Bool) (x : OfferFate) : (d.setFates pick x).arms = d.arms := by
  unfold setFates
  induction allSixteen generalizing d with
  | nil => rfl
  | cons c t ih => exact ih _

theorem onDose_changesBatch (d : Device) (r : DoseRef) (f : Dosing → Dosing) : ChangesBatchOf r.arm d (d.onDose r f) := by
  unfold onDose onDoseBatch
  split
  · exact onBatch_changesBatch ..
  · exact .of_arms _ (foldl_onBay_arms (fun _ y =>
      { y with ended := y.ended.map fun x => if x.isRef r then x.onDose r.recipe f else x }) _ d)

theorem arm_of_mem_openRefs {d : Device} {a : ArmId} {r : DoseRef} (h : r ∈ d.openRefs a) : r.arm = a := by
  unfold openRefs at h
  split at h
  · exact nomatch h
  · obtain ⟨x, -, rfl⟩ := List.mem_map.mp h
    rfl

theorem cancelPendings_changesBatch (d : Device) (a : ArmId) (mark : Bool) : ChangesBatchOf a d (d.cancelPendings a mark) := by
  have h : ChangesBatchOf a d ((d.openRefs a).foldl (fun e r => e.onDose r fun x => x.cancelPending mark (d.underOffer r)) d) :=
    .foldl _ _ (fun e r hr => arm_of_mem_openRefs hr ▸ onDose_changesBatch e r _) d
  unfold cancelPendings
  split
  · exact h
  · exact (h.trans (.of_arms a (setFates_arms ..))).trans (onBatch_changesBatch ..)

theorem onOrder_arms (d : Device) (n : Nat) (f : Order → Order) : (d.onOrder n f).arms = d.arms := rfl
theorem armNotice_arm (d : Device) (a x : ArmId) (k : Nat) (l : List (List Byte)) : (d.armNotice a k l).arm x = d.arm x := rfl

theorem releaseLine_arms (d : Device) (o : Order) (k n : Nat) : (d.releaseLine o k n).arms = d.arms := by
  unfold releaseLine
  split
  · rfl
  split
  · rfl
  rw [onOrder_arms, onAccount]
  split <;> rfl

theorem settleLine_arms (d : Device) (b : BayId) (t : Batch) : (d.settleLine b t).arms = d.arms := by
  unfold settleLine
  split
  · rfl
  · exact releaseLine_arms ..

theorem lesson_short (t : Batch) : t.lesson true = none := by
  unfold Batch.lesson
  split <;> rfl

/-- R34: a batch that ends SHORT from INTERRUPTED leaves its arm and teaches nothing. -/
theorem endBatch_short_changesBatch (d : Device) (a : ArmId) : ChangesBatchOf a d (d.endBatch a true) := by
  have h0 := cancelPendings_changesBatch d a false
  unfold endBatch
  dsimp only
  generalize d.cancelPendings a false = d0 at h0 ⊢
  refine h0.trans ?_
  split
  next t b _ _ =>
    rw [lesson_short]
    refine (onArm_changesBatch d0 a (fun c => { (c.learn none) with batch := none }) rfl).trans (.of_arms a ?_)
    exact settleLine_arms ..
  next => exact .of_arms a rfl

/-! ### Interruptions (R32) -/

theorem interruptBatch_changesBatch (d : Device) (a : ArmId) (pick : Phase → Bool) (mark : BatchFlags → BatchFlags) :
    ChangesBatchOf a d (d.interruptBatch a pick mark) := by
  unfold interruptBatch
  split
  · exact .of_arms a rfl
  next t ht =>
  split
  · exact onBatch_changesBatch ..
  split
  · dsimp only
    have h1 : ChangesBatchOf a d
        ((d.onArm a fun c => { c with batch := some { t with phase := .interrupted, flags := mark t.flags } }).armNotice a 4
          ({ t with phase := .interrupted, flags := mark t.flags } : Batch).noticeFields) :=
      (onArm_changesBatch d a (fun c => { c with batch := some { t with phase := .interrupted, flags := mark t.flags } }) rfl).trans
        (.of_arms a rfl)
    split
    · split
      · exact h1.trans (endBatch_short_changesBatch ..)
      · exact h1
    · exact h1
  · exact .of_arms a rfl

/-- R32: an interrupted batch outside CLOSING stays, INTERRUPTED and with the mark. -/
theorem interruptBatch_batch {d : Device} {a : ArmId} {t : Batch} (pick : Phase → Bool) (mark : BatchFlags → BatchFlags)
    (ht : (d.arm a).batch = some t) (hp : t.phase = .interrupted ∨ pick t.phase = true)
    (hb : ∀ b, d.bayOfArm a = some b → (d.bay b).state ≠ .closing) :
    ((d.interruptBatch a pick mark).arm a).batch = some { t with phase := .interrupted, flags := mark t.flags } := by
  unfold interruptBatch
  rw [ht]
  dsimp only
  split
  next hi =>
    rw [onBatch, onArm_arm, if_pos rfl, ht, ← hi]
    rfl
  next hi =>
    rw [if_pos (hp.resolve_left hi)]
    have h1 : (((d.onArm a fun c => { c with batch := some { t with phase := .interrupted, flags := mark t.flags } }).armNotice a 4
        ({ t with phase := .interrupted, flags := mark t.flags } : Batch).noticeFields).arm a).batch =
        some { t with phase := .interrupted, flags := mark t.flags } := by
      rw [armNotice_arm, onArm_arm, if_pos rfl]
    split
    next b hbay =>
      split
      next hc => exact absurd hc (hb b hbay)
      next => exact h1
    next => exact h1

/-! ### VALVE reports (R35, R39) -/

/-- The coupler's change that R39 reports: out of LATCHED while the arm's batch flows. -/
def unlatches (d : Device) (a : ArmId) (k : Coupler) : Prop :=
  (d.arm a).coupler = .latched ∧ k ≠ .latched ∧ (d.arm a).flowing = true

theorem valveReport_still {d : Device} {a : ArmId} {k : Coupler} (p : Position) (h : ¬ d.unlatches a k) :
    d.valveReport a p k = (d.onArm a fun c => c.setPosition p).onArm a fun c => { c with coupler := k } := by
  unfold valveReport setCoupler
  rw [if_neg]
  rwa [onArm_arm, if_pos rfl]

theorem valveReport_unlatched {d : Device} {a : ArmId} {k : Coupler} (p : Position) (h : d.unlatches a k) :
    d.valveReport a p k = (((d.onArm a fun c => c.setPosition p).onArm a fun c => { c with coupler := k }).interruptBatch a
      Phase.flowing id).armNotice a 7 [] := by
  unfold valveReport setCoupler
  rw [if_pos]
  rwa [onArm_arm, if_pos rfl]

theorem reported_arm (d : Device) (a : ArmId) (p : Position) (k : Coupler) :
    (((d.onArm a fun c => c.setPosition p).onArm a fun c => { c with coupler := k }).arm a) =
      { (d.arm a).setPosition p with coupler := k } := by
  rw [onArm_arm, if_pos rfl, onArm_arm, if_pos rfl]

/-- What a report makes of the arms, interruption or none: position, coupler and zero-flow count, and the batch. -/
theorem valveReport_changesBatch (d : Device) (a : ArmId) (p : Position) (k : Coupler) :
    ChangesBatchOf a ((d.onArm a fun c => c.setPosition p).onArm a fun c => { c with coupler := k }) (d.valveReport a p k) := by
  by_cases h : d.unlatches a k
  · rw [valveReport_unlatched p h]
    exact (interruptBatch_changesBatch ..).trans (.of_arms a rfl)
  · rw [valveReport_still p h]
    exact .of_arms a rfl

theorem valveReport_arm (d : Device) (a : ArmId) (p : Position) (k : Coupler) :
    (d.valveReport a p k).arm a =
      { (d.arm a).setPosition p with coupler := k, batch := ((d.valveReport a p k).arm a).batch } := by
  have h := (valveReport_changesBatch d a p k).self
  rw [reported_arm] at h
  exact h.symm

theorem valveReport_arm_other (d : Device) {a x : ArmId} (p : Position) (k : Coupler) (h : x ≠ a) :
    (d.valveReport a p k).arm x = d.arm x := by
  rw [(valveReport_changesBatch d a p k).other x h, onArm_arm, if_neg h, onArm_arm, if_neg h]

theorem flowing_of_batch {d : Device} {a : ArmId} {t : Batch} (ht : (d.arm a).batch = some t) (hf : t.phase.flowing = true) :
    (d.arm a).flowing = true := by
  unfold ArmCtl.flowing
  rw [ht]
  exact hf

/-- R32, R39: an unlatched coupler interrupts the flowing batch, and the notice of it stands in MP's queue. -/
theorem valveReport_interrupts {d : Device} {a : ArmId} {k : Coupler} {t : Batch} (p : Position)
    (hc : (d.arm a).coupler = .latched) (hk : k ≠ .latched) (ht : (d.arm a).batch = some t) (hf : t.phase.flowing = true) :
    (∃ x ∈ (d.valveReport a p k).mp.notices, x.obj = .arm a ∧ x.event = 7) ∧
    ((∀ b, d.bayOfArm a = some b → (d.bay b).state ≠ .closing) →
      ((d.valveReport a p k).arm a).batch = some { t with phase := .interrupted }) := by
  rw [valveReport_unlatched p ⟨hc, hk, flowing_of_batch ht hf⟩]
  refine ⟨armNotice_raised .., fun hb => ?_⟩
  rw [armNotice_arm]
  exact interruptBatch_batch _ id (by rw [reported_arm]; exact ht) (.inr hf) hb

/-! ### TEMP and METER stations (R13, R21) -/

theorem foldl_onMeter_meter (f : Meter → Meter) (l : List ArmId) (hl : l.Nodup) (d : Device) (x : ArmId) :
    (l.foldl (fun e a => e.onMeter a f) d).meter x = if x ∈ l then f (d.meter x) else d.meter x := by
  induction l generalizing d with
  | nil => simp
  | cons a t ih =>
    obtain ⟨hat, ht⟩ := List.nodup_cons.mp hl
    rw [List.foldl_cons, ih ht, onMeter_meter]
    by_cases hx : x = a
    · subst hx; simp [hat]
    · simp [hx]

theorem foldl_onMeter_rest (f : Meter → Meter) (l : List ArmId) (d : Device) :
    { d with meters := (l.foldl (fun e a => e.onMeter a f) d).meters } = l.foldl (fun e a => e.onMeter a f) d := by
  induction l generalizing d with
  | nil => rfl
  | cons a t ih => rw [List.foldl_cons, ← ih]; rfl

theorem armsOfTemp_nodup (d : Device) (n : Addr) : (d.armsOfTemp n).Nodup := List.Nodup.filter _ (by decide)

theorem tempReturn_meter (d : Device) (n : Addr) (t : Int) (fault : Bool) (a : ArmId) :
    (d.tempReturn n t fault).meter a = if a ∈ d.armsOfTemp n then (d.meter a).takeTemp t fault else d.meter a :=
  foldl_onMeter_meter _ _ (armsOfTemp_nodup d n) d a

theorem tempLost_meter (d : Device) (n : Addr) (a : ArmId) :
    (d.tempLost n).meter a = if a ∈ d.armsOfTemp n then { d.meter a with heldValid := false } else d.meter a :=
  foldl_onMeter_meter _ _ (armsOfTemp_nodup d n) d a

theorem tempReturn_rest (d : Device) (n : Addr) (t : Int) (fault : Bool) :
    { d with meters := (d.tempReturn n t fault).meters } = d.tempReturn n t fault := foldl_onMeter_rest ..

theorem takeTemp_eq (m : Meter) (t : Int) (fault : Bool) :
    m.takeTemp t fault = if fault = false ∧ -4000 ≤ t ∧ t ≤ 7000 then { m with heldTemp := t, heldValid := true }
      else { m with heldValid := false } := by
  unfold Meter.takeTemp
  refine if_congr ?_ rfl rfl
  simp [and_assoc]

theorem meterLost_meter (d : Device) (a x : ArmId) :
    (d.meterLost a).meter x = if x = a then { d.meter x with baselineValid := false } else d.meter x := by
  have h : (d.meterLost a).meter x = (d.onMeter a fun m => { m with baselineValid := false }).meter x := by
    rw [meterLost, meter, (interruptBatch_calm ..).meters]; rfl
  rw [h, onMeter_meter]
  split
  next hx => rw [hx]
  next => rfl

theorem meterLost_arms {d : Device} {a : ArmId} (h : (d.arm a).batch = none) : (d.meterLost a).arms = d.arms := by
  unfold meterLost interruptBatch
  rw [onMeter_arm, h]
  rfl

theorem beforeEnd_of_ne {p : Phase} (h : p ≠ .ended) : p = .interrupted ∨ p.beforeEnd = true := by
  cases p <;> simp_all [Phase.beforeEnd]

theorem userReturn_valve {d : Device} {n : Addr} {a : ArmId} (s : List Byte) (h : d.armOfValve n = some a) :
    d.userReturn n .valve s = d.valveReport a (Position.ofCode (octetAt s 1).toNat)
      (if (octetAt s 2).getLsbD 0 then .latched else .unlatched) := by
  unfold userReturn
  dsimp only
  rw [h]

theorem userLost_valve {d : Device} {n : Addr} {a : ArmId} (f : Bool) (h : d.armOfValve n = some a) :
    d.userLost n .valve f = d.valveReport a .unknown .unknown := by
  unfold userLost
  dsimp only
  rw [h]

theorem userLost_meter {d : Device} {n : Addr} {a : ArmId} (f : Bool) (h : d.armOfMeter n = some a) :
    d.userLost n .meter f = d.meterLost a := by
  unfold userLost
  dsimp only
  rw [h]

theorem userReturn_meter {d : Device} {n : Addr} {a : ArmId} {r : ArmRecord} (s : List Byte) (h : d.armOfMeter n = some a)
    (hr : d.armRec a = some r) :
    d.userReturn n .meter s = d.meterSample a r
      ⟨octetAt s 1 ++ octetAt s 2, octetAt s 3 ++ octetAt s 4, octetAt s 5 ++ octetAt s 6⟩ := by
  unfold userReturn
  dsimp only
  rw [h]
  dsimp only
  rw [hr]
  rfl

end Device

open Device in
/-- Settles O49, kind by kind: the arm's sample, its held temperature, its valve report, and the losses. -/
theorem returnsReachTheirUsers : Obligations.ReturnsReachTheirUsers := by
  intro d e n sl
  refine ⟨fun a r ha hr => userReturn_meter sl ha hr, ?_, ?_, ?_, ?_⟩
  · rintro t rfl rfl
    have hrest := tempReturn_rest d n (octetAt sl 1 ++ octetAt sl 2 : Half).toInt ((octetAt sl 3).getLsbD 0)
    refine ⟨fun a ha => ?_, fun a ha => (tempReturn_meter ..).trans (if_neg ha), ?_, ?_, ?_⟩
    · exact ((tempReturn_meter ..).trans (if_pos ha)).trans (takeTemp_eq ..)
    · exact (congrArg Device.arms hrest).symm
    · exact (congrArg Device.bays hrest).symm
    · exact (congrArg Device.cw hrest).symm
  · rintro byFault rfl a
    cases byFault with
    | true => rw [if_neg (by simp)]; rfl
    | false => exact (tempLost_meter d n a).trans (if_congr (by simp) rfl rfl)
  · rintro a p k f ha h
    have he : e = d.valveReport a p k := by
      rcases h with ⟨rfl, rfl, rfl⟩ | ⟨rfl, rfl, rfl⟩
      · exact userReturn_valve sl ha
      · exact userLost_valve f ha
    subst he
    have harm := valveReport_arm d a p k
    have hcalm := valveReport_calm d a p k
    refine ⟨by rw [harm]; rfl, by rw [harm], by rw [harm]; rfl, by rw [harm]; rfl, fun hs => ?_,
      fun t hc hk ht hf => valveReport_interrupts p hc hk ht hf, fun x hx => valveReport_arm_other d p k hx,
      hcalm.meters, hcalm.custody, hcalm.cw⟩
    have hstill : ¬ d.unlatches a k := by
      rintro ⟨h1, h2, h3⟩
      rcases hs with hs | hs | hs
      · exact hs h1
      · exact h2 hs
      · rw [h3] at hs; exact nomatch hs
    rw [valveReport_still p hstill, reported_arm]
    exact ⟨rfl, rfl, rfl⟩
  · rintro a f ha rfl
    rw [userLost_meter f ha]
    have hk : (d.meterLost a).custody = d.custody ∧ (d.meterLost a).cw = d.cw :=
      ⟨(interruptBatch_calm ..).custody, (interruptBatch_calm ..).cw⟩
    refine ⟨(meterLost_meter d a a).trans (if_pos rfl), fun x hx => (meterLost_meter d a x).trans (if_neg hx), meterLost_arms,
      fun t ht hp hb => ?_, hk⟩
    exact interruptBatch_batch _ BatchFlags.markGap ht (beforeEnd_of_ne hp) hb

end Sys2Proof.Machine
end

