-- ==== Sys2Proof/Proofs/ProductTable.lean ====
section
/-! TABLE WRITE and TABLE CLEAR of a product entry (R3, R4): how a served request is answered, when a written product is in
range, and what guards the entry. -/

namespace Sys2Proof.Machine

open Sys2Proof

/-! ### Requests carried out or refused as they arrive -/

/-- A request, served as it arrives, whose change is taken. -/
theorem request_concludes {s : State} {c : Instr} {k : Nat} {t : Byte} {r : Device → Except Status Device} {e : Device}
    (h : s.quiet = true) (v : s.dev.SameView e) (hf : e.mp.fifo = s.dev.mp.fifo) (hi : e.mp.inService = s.dev.mp.inService)
    (hr : r (s.dev.intoService c) = .ok (e.intoService c)) :
    advance s (fun d => d.request c fun x => x.conclude k t (r x)) = .next (s.answers e k t .ok []) :=
  request_answers h v hf hi (by rw [hr, conclude_ok])

theorem Device.SameView.refl (d : Device) : d.SameView d := ⟨rfl, rfl, rfl, rfl, rfl, rfl, rfl⟩

/-- A request, served as it arrives, that is refused. -/
theorem request_refused {s : State} {c : Instr} {k : Nat} {t : Byte} {r : Device → Except Status Device} {st : Status}
    (h : s.quiet = true) (hr : r (s.dev.intoService c) = .error st) :
    advance s (fun d => d.request c fun x => x.conclude k t (r x)) = .next (s.answers s.dev k t st []) :=
  request_answers h (.refl _) rfl rfl (by rw [hr, conclude_error])

/-! ### Fields in range -/

theorem inRange_eq_some {lo hi n : Nat} {o : Option Nat} : inRange lo hi o = some n ↔ o = some n ∧ lo ≤ n ∧ n ≤ hi := by
  unfold inRange
  split
  · split <;> simp_all <;> omega
  · simp

theorem inRangeInt_eq_some {lo hi n : Int} {o : Option Int} : inRangeInt lo hi o = some n ↔ o = some n ∧ lo ≤ n ∧ n ≤ hi := by
  unfold inRangeInt
  split
  · split <;> simp_all <;> omega
  · simp

theorem inRangeOr_eq_some {lo hi dflt n : Nat} {o : Option Nat} (h : inRangeOr lo hi dflt o = some n) : ¬ strays lo hi o := by
  unfold inRangeOr at h
  rintro ⟨m, rfl, hm⟩
  simp only at h
  split at h
  · omega
  · exact nomatch h

theorem inRangeOr_getD {lo hi dflt : Nat} {o : Option Nat} (h1 : lo ≤ o.getD dflt) (h2 : o.getD dflt ≤ hi) :
    inRangeOr lo hi dflt o = some (o.getD dflt) := by
  unfold inRangeOr
  cases o with
  | none => rfl
  | some n => exact if_pos ⟨h1, h2⟩

theorem not_outside_of_inRange {lo hi n : Nat} {o : Option Nat} (h : inRange lo hi o = some n) : ¬ outside lo hi o := by
  obtain ⟨rfl, h1, h2⟩ := inRange_eq_some.mp h
  simp only [outside_some]
  omega

theorem recipeOk_iff (l : List RecipeLine) : recipeOk l = true ↔ l.length ≤ 2 ∧ (l.map RecipeLine.code).Nodup ∧
    ∀ r ∈ l, 1 ≤ r.code ∧ r.code ≤ 255 ∧ 1 ≤ r.dose ∧ r.dose ≤ 20000 := by
  simp only [recipeOk, distinct, Bool.and_eq_true, decide_eq_true_eq, List.all_eq_true, and_assoc]

theorem require_eq_some {p : Bool} {u : Unit} : require p = some u ↔ p = true := by
  cases p <;> simp [require]

/-- R3, Table 1-2: what a product record read from a write has taken from it. -/
theorem readProduct_eq_some {w : ProductWrite} {p : Product} : readProduct w = some p ↔
    inRange 1 255 w.code = some p.code ∧ inRange 200 1500 w.alpha = some p.alpha ∧
    inRangeInt (-4000) 7000 w.fallback = some p.fallback ∧ w.basis = some p.basis ∧
    inRangeOr 0 1000 200 w.startVol = some p.startVol ∧ inRangeOr 100 2000 400 w.taperVol = some p.taperVol ∧
    inRangeOr 0 200 20 w.overrun = some p.overrun ∧ recipeOk p.recipe = true ∧
    w.classes.getD 0#8 = p.classes ∧ w.recipe.getD [] = p.recipe := by
  unfold readProduct
  simp only [Option.bind_eq_bind, Option.bind_eq_some_iff, require_eq_some]
  constructor
  · rintro ⟨code, h1, alpha, h2, fallback, h3, basis, h4, startVol, h5, taperVol, h6, overrun, h7, _, h8, h9⟩
    obtain rfl := Option.some.inj h9
    exact ⟨h1, h2, h3, h4, h5, h6, h7, h8, rfl, rfl⟩
  · rintro ⟨h1, h2, h3, h4, h5, h6, h7, h8, h9, h10⟩
    exact ⟨_, h1, _, h2, _, h3, _, h4, _, h5, _, h6, _, h7, (), h10 ▸ h8, by rw [h9, h10]; rfl⟩

/-- Table 1-2: a field that keeps a product from being read. -/
theorem readProduct_eq_none {w : ProductWrite}
    (h : outside 1 255 w.code ∨ outside 200 1500 w.alpha ∨ (∀ x, w.fallback = some x → x < -4000 ∨ 7000 < x) ∨
      w.basis = none ∨ strays 0 1000 w.startVol ∨ strays 100 2000 w.taperVol ∨ strays 0 200 w.overrun ∨
      ∃ l, w.recipe = some l ∧ (2 < l.length ∨ ¬ (l.map RecipeLine.code).Nodup ∨
        ∃ r ∈ l, r.code < 1 ∨ 255 < r.code ∨ r.dose < 1 ∨ 20000 < r.dose)) : readProduct w = none := by
  rw [Option.eq_none_iff_forall_ne_some]
  intro p hp
  obtain ⟨h1, h2, h3, h4, h5, h6, h7, h8, -, h9⟩ := readProduct_eq_some.mp hp
  rcases h with h | h | h | h | h | h | h | ⟨l, hl, h⟩
  · exact not_outside_of_inRange h1 h
  · exact not_outside_of_inRange h2 h
  · obtain ⟨hx, hlo, hhi⟩ := inRangeInt_eq_some.mp h3
    rcases h _ hx with h | h <;> omega
  · exact absurd (h.symm.trans h4) (by simp)
  · exact inRangeOr_eq_some h5 h
  · exact inRangeOr_eq_some h6 h
  · exact inRangeOr_eq_some h7 h
  · rw [← h9, hl] at h8
    obtain ⟨g1, g2, g3⟩ := (recipeOk_iff l).mp h8
    rcases h with h | h | ⟨r, hr, h⟩
    · omega
    · exact h g2
    · have := g3 r hr
      omega

/-! ### What guards a product entry (R3, R4) -/

namespace Device

theorem mem_allArms (a : ArmId) : a ∈ allArms := by revert a; decide
theorem mem_allSixteen (i : Fin 16) : i ∈ allSixteen := by revert i; decide

theorem codeTaken_iff (d : Device) (i : ProdIdx) (code : Nat) :
    d.codeTaken i code = true ↔ ∃ j p, j ≠ i ∧ d.product j = some p ∧ p.code = code := by
  unfold codeTaken
  rw [List.any_eq_true]
  constructor
  · rintro ⟨j, -, h⟩
    split at h
    next p hp =>
      obtain ⟨h1, h2⟩ := (Bool.and_eq_true _ _).mp h
      exact ⟨j, p, by simpa using h1, hp, by simpa using h2⟩
    next => exact nomatch h
  · rintro ⟨j, p, hj, hp, hc⟩
    refine ⟨j, mem_allSixteen j, ?_⟩
    rw [hp]
    simp [hj, hc]

theorem batchOf_iff (d : Device) (code : Nat) : d.batchOf code = true ↔ ∃ a b, (d.arm a).batch = some b ∧ b.product = code := by
  unfold batchOf
  rw [List.any_eq_true]
  constructor
  · rintro ⟨a, -, h⟩
    split at h
    next b hb => exact ⟨a, b, hb, by simpa using h⟩
    next => exact nomatch h
  · rintro ⟨a, b, hb, hc⟩
    refine ⟨a, mem_allArms a, ?_⟩
    rw [hb]
    simp [hc]

theorem productBusy_iff (d : Device) (i : ProdIdx) :
    d.productBusy i = true ↔ ∃ a b p, (d.arm a).batch = some b ∧ d.product i = some p ∧ b.product = p.code := by
  unfold productBusy
  cases d.product i with
  | none => simp
  | some p => simp [batchOf_iff]

theorem writeProduct_of_read {d : Device} {i : ProdIdx} {w : ProductWrite} {p : Product} (h : readProduct w = some p) :
    d.writeProduct i w = if d.codeTaken i p.code then .error .duplicate
      else if d.productBusy i || d.batchOf p.code then .error .inUse else .ok (d.setProduct i (some p)) := by
  unfold writeProduct
  rw [h]

theorem setProduct_sameView (d : Device) (i : ProdIdx) (p : Option Product) : d.SameView (d.setProduct i p) :=
  ⟨rfl, rfl, rfl, rfl, rfl, rfl, rfl⟩

end Device

/-! ### The requests -/

open Device

theorem exec_tableWriteProduct (s : State) (t : Byte) (i : ProdIdx) (w : ProductWrite) :
    exec (.tableWriteProduct t (some (i.val, w))) s =
      advance s fun d => d.request (.tableWriteProduct t (some (i.val, w))) fun e => e.conclude 1 t (e.writeProduct i w) := by
  show execTableWriteProduct t (some (i.val, w)) s = _
  unfold execTableWriteProduct
  simp only [withOps_some, withIndex_val]

theorem exec_tableClearProduct (s : State) (t : Byte) (i : ProdIdx) :
    exec (.tableClearProduct t (some i.val)) s =
      advance s fun d => d.request (.tableClearProduct t (some i.val)) fun e => e.conclude 3 t (e.clearProduct i) := by
  show execTableClearProduct t (some i.val) s = _
  unfold execTableClearProduct
  simp only [withOne_val]

/-- Settles O15: the fields first, then the guards, in the order of the checks. -/
theorem productWriteAndClear : Obligations.ProductWriteAndClear := by
  refine ⟨fun s t i w hq h => ?_, ?_⟩
  · rw [exec_tableWriteProduct]
    refine request_refused hq ?_
    unfold writeProduct
    rw [readProduct_eq_none h]
  intro s t i w code alpha fallback basis hq hcode halpha hfallback hbasis c1 c2 a1 a2 f1 f2 hs ht1 ht2 ho hl hn hr
  have hread : readProduct w = some ⟨code, alpha, fallback, basis, w.startVol.getD 200, w.taperVol.getD 400,
      w.overrun.getD 20, w.classes.getD 0#8, w.recipe.getD []⟩ :=
    readProduct_eq_some.mpr ⟨inRange_eq_some.mpr ⟨hcode, c1, c2⟩, inRange_eq_some.mpr ⟨halpha, a1, a2⟩,
      inRangeInt_eq_some.mpr ⟨hfallback, f1, f2⟩, hbasis, inRangeOr_getD (Nat.zero_le _) hs, inRangeOr_getD ht1 ht2,
      inRangeOr_getD (Nat.zero_le _) ho, (recipeOk_iff _).mpr ⟨hl, hn, hr⟩, rfl, rfl⟩
  rw [exec_tableWriteProduct, exec_tableClearProduct]
  refine ⟨fun hfree hidle => ?_, fun htaken => ?_, fun hfree hbusy => ?_, fun hidle => ?_, fun hbusy => ?_⟩
  · have htaken : ¬ s.dev.codeTaken i code = true := by
      rw [codeTaken_iff]
      rintro ⟨j, p, hj, hp, hc⟩
      exact hfree j p hj hp hc
    have hbusy : ¬ (s.dev.productBusy i || s.dev.batchOf code) = true := by
      rw [Bool.or_eq_true, productBusy_iff, batchOf_iff]
      rintro (⟨a, b, p, hb, hp, hc⟩ | ⟨a, b, hb, hc⟩)
      · exact (hidle a b hb).2 p hp hc
      · exact (hidle a b hb).1 hc
    refine request_concludes (e := s.dev.setProduct i _) hq (setProduct_sameView ..) rfl rfl ?_
    rw [writeProduct_of_read hread]
    exact (if_neg htaken).trans (if_neg hbusy)
  · refine request_refused hq ?_
    rw [writeProduct_of_read hread]
    exact if_pos ((codeTaken_iff s.dev i code).mpr htaken)
  · have htaken : ¬ s.dev.codeTaken i code = true := by
      rw [codeTaken_iff]
      rintro ⟨j, p, hj, hp, hc⟩
      exact hfree j p hj hp hc
    have hb : (s.dev.productBusy i || s.dev.batchOf code) = true := by
      rw [Bool.or_eq_true, productBusy_iff, batchOf_iff]
      obtain ⟨a, b, hb, hc | ⟨p, hp, hc⟩⟩ := hbusy
      · exact .inr ⟨a, b, hb, hc⟩
      · exact .inl ⟨a, b, p, hb, hp, hc⟩
    refine request_refused hq ?_
    rw [writeProduct_of_read hread]
    exact (if_neg htaken).trans (if_pos hb)
  · refine request_concludes (e := s.dev.setProduct i none) hq (setProduct_sameView ..) rfl rfl (if_neg ?_)
    show ¬ s.dev.productBusy i = true
    rw [productBusy_iff]
    rintro ⟨a, b, p, hb, hp, hc⟩
    exact hidle a b p hb hp hc
  · exact request_refused hq (if_pos ((productBusy_iff s.dev i).mpr hbusy))

end Sys2Proof.Machine
end

