-- ==== Sys2Proof/Proofs/ArmTable.lean ====
section
/-! TABLE WRITE and TABLE CLEAR of an arm record (R1, R2, R23, R35): what follows a change of one arm's record while its bays
are CLOSED, when a written record is read, and what its checks ask. -/

namespace Sys2Proof.Machine

open Sys2Proof

namespace Device

/-! ### What follows the rewiring of one arm (R36, R37) -/

/-- Arm `a`'s record and controller state are all that may differ of what the blocks watch after an event, and every bay its
old and its new record name is CLOSED. -/
structure Rewired (a : ArmId) (d e : Device) : Prop where
  boot  : e.boot = d.boot
  recs  : ∀ x, x ≠ a → e.armRec x = d.armRec x
  arms  : ∀ x, x ≠ a → e.arm x = d.arm x
  injs  : e.injs = d.injs
  bays  : e.bays = d.bays
  cw    : e.cw = d.cw
  lu    : e.lu = d.lu
  left  : ∀ r, d.armRec a = some r → (d.bay r.bay).state = .closed
  taken : ∀ r, e.armRec a = some r → (d.bay r.bay).state = .closed

theorem Rewired.bay {a : ArmId} {d e : Device} (h : Rewired a d e) (b : BayId) : e.bay b = d.bay b := by
  simp only [Device.bay, h.bays]

theorem Rewired.line {a : ArmId} {d e : Device} (h : Rewired a d e) (l : LineId) : e.line l = d.line l := by
  simp only [Device.line, h.lu]

/-- Whether a record, if there is one, names the bay. -/
def recNames (r : Option ArmRecord) (b : BayId) : Bool :=
  match r with
  | some r => r.bay == b
  | none => false

theorem recNames_iff (r : Option ArmRecord) (b : BayId) : recNames r b = true ↔ ∃ x, r = some x ∧ x.bay = b := by
  cases r <;> simp [recNames]

theorem armsOf_eq (d : Device) (b : BayId) : d.armsOf b = allArms.filter fun a => recNames (d.armRec a) b := rfl

theorem outstandingShots_eq (d : Device) (b : BayId) : d.outstandingShots b =
    (allSixteen.map fun c => ((d.inj c).inFlight.filter fun s => recNames (d.armRec s.ref.arm) b).length +
      (match (d.inj c).offer with
        | some o => if recNames (d.armRec o.ref.arm) b then 1 else 0
        | none => 0)).sum := rfl

/-- Whether a record names a bay that is not CLOSED does not change. -/
theorem Rewired.names {a : ArmId} {d e : Device} (h : Rewired a d e) {b : BayId} (hb : (d.bay b).state ≠ .closed) (x : ArmId) :
    recNames (e.armRec x) b = recNames (d.armRec x) b := by
  by_cases hx : x = a
  · subst hx
    rw [Bool.eq_iff_iff, recNames_iff, recNames_iff]
    constructor
    · rintro ⟨r, hr, rfl⟩
      exact absurd (h.taken r hr) hb
    · rintro ⟨r, hr, rfl⟩
      exact absurd (h.left r hr) hb
  · rw [h.recs x hx]

theorem Rewired.armsOf {a : ArmId} {d e : Device} (h : Rewired a d e) {b : BayId} (hb : (d.bay b).state ≠ .closed) :
    e.armsOf b = d.armsOf b := by
  simp only [armsOf_eq, h.names hb]

/-- No arm of a bay that is not CLOSED is the one rewired. -/
theorem Rewired.ne_of_mem {a : ArmId} {d e : Device} (h : Rewired a d e) {b : BayId} (hb : (d.bay b).state ≠ .closed) {x : ArmId}
    (hx : x ∈ d.armsOf b) : x ≠ a := by
  rintro rfl
  rw [armsOf_eq] at hx
  obtain ⟨r, hr, rfl⟩ := (recNames_iff _ _).mp (List.mem_filter.mp hx).2
  exact hb (h.left r hr)

theorem Rewired.outstandingShots {a : ArmId} {d e : Device} (h : Rewired a d e) {b : BayId} (hb : (d.bay b).state ≠ .closed) :
    e.outstandingShots b = d.outstandingShots b := by
  simp only [outstandingShots_eq, h.names hb, inj, h.injs]

theorem Rewired.all_armsOf {a : ArmId} {d e : Device} (h : Rewired a d e) {b : BayId} (hb : (d.bay b).state ≠ .closed)
    (p : ArmCtl → Bool) : (e.armsOf b).all (fun x => p (e.arm x)) = (d.armsOf b).all fun x => p (d.arm x) := by
  rw [h.armsOf hb, Bool.eq_iff_iff, List.all_eq_true, List.all_eq_true]
  refine forall₂_congr fun x hx => ?_
  rw [h.arms x (h.ne_of_mem hb hx)]

theorem Rewired.bayRests {a : ArmId} {d e : Device} (h : Rewired a d e) (b : BayId)
    (hv : (d.bay b).state = .closed → (d.bay b).causes.valve = false) (hd : d.bayRests b = true) : e.bayRests b = true := by
  unfold Device.bayRests at hd ⊢
  rw [h.bay b]
  by_cases hb : (d.bay b).state = .closed
  · rw [hb, hv hb]
    rfl
  · have hseat : e.armsSeated b = d.armsSeated b := h.all_armsOf hb fun c => c.position == .closed && c.travel == none
    have hshut : ((e.armsOf b).all fun x => (e.arm x).position == .closed) = (d.armsOf b).all fun x => (d.arm x).position == .closed :=
      h.all_armsOf hb fun c => c.position == .closed
    have hnone : e.noBatch b = d.noBatch b := h.all_armsOf hb fun c => !c.batch.isSome
    rwa [hseat, hshut, hnone, h.outstandingShots hb]

theorem Rewired.settled {a : ArmId} {d e : Device} (h : Rewired a d e)
    (hv : ∀ b, (d.bay b).state = .closed → (d.bay b).causes.valve = false) (hd : d.settled = true) : e.settled = true := by
  obtain ⟨h1, h2, h3, h4⟩ := (settled_iff d).mp hd
  refine (settled_iff e).mpr ⟨fun b => h.bayRests b (hv b) (h1 b), fun l => ?_, ?_, ?_⟩
  · have hw : ∀ f q, e.wantedDrive f q = d.wantedDrive f q := by
      intro f q
      cases f <;> simp only [wantedDrive, h.bay, h.lu]
    simpa only [lineRests, h.line, hw] using h2 l
  · simpa only [cwRests, cwMayWork, headWaits, h.boot, h.cw] using h3
  · simpa only [parkRests, h.boot, h.cw] using h4

theorem effectiveStage_of_closed {d : Device} {a : ArmId} (h : ∀ r, d.armRec a = some r → (d.bay r.bay).state = .closed) :
    d.effectiveStage a = .closed := by
  unfold effectiveStage mayOpen bayOfArm
  cases hr : d.armRec a with
  | none => rfl
  | some r => simp [h r hr]

theorem Rewired.stage {a : ArmId} {d e : Device} (h : Rewired a d e) (x : ArmId) : e.effectiveStage x = d.effectiveStage x := by
  by_cases hx : x = a
  · subst hx
    rw [effectiveStage_of_closed h.left, effectiveStage_of_closed fun r hr => (congrArg Bay.state (h.bay r.bay)).trans (h.taken r hr)]
  · simp only [effectiveStage, mayOpen, bayOfArm, latched, h.recs x hx, h.arms x hx, h.lu, h.bay]
    rfl

/-- From `e` to `f` the travel timer of arm `a` is all that may differ. -/
def TravelMoves (a : ArmId) (e f : Device) : Prop := ∃ tr, f = e.onArm a fun c => { c with travel := tr }

theorem onArm_onArm (d : Device) (a : ArmId) (f g : ArmCtl → ArmCtl) : (d.onArm a f).onArm a g = d.onArm a fun c => g (f c) := by
  simp only [onArm, arm, Bank.read_write_same, Bank.write_write]

theorem Rewired.of_travel {a : ArmId} {d e f : Device} (h : Rewired a d e) (k : TravelMoves a e f) : Rewired a d f := by
  obtain ⟨tr, rfl⟩ := k
  exact ⟨h.boot, h.recs, fun x hx => (onArm_arm_other _ _ _ _ hx).trans (h.arms x hx), h.injs, h.bays, h.cw, h.lu, h.left, h.taken⟩

theorem TravelMoves.superviseArm {a : ArmId} {e f : Device} (h : TravelMoves a e f) (d : Device) :
    TravelMoves a e (superviseArm d f a) := by
  obtain ⟨tr, rfl⟩ := h
  unfold Machine.superviseArm
  dsimp only
  split
  · exact ⟨tr, rfl⟩
  split
  · exact ⟨none, onArm_onArm ..⟩
  split
  · exact ⟨_, onArm_onArm ..⟩
  · exact ⟨_, onArm_onArm _ _ _ fun c => { c with travel := some (c.travel.getD _) }⟩

/-- R37: no other arm's timer moves. -/
theorem Rewired.supervise {a : ArmId} {d e : Device} (h : Rewired a d e) : TravelMoves a e (supervise d e) := by
  have h0 : TravelMoves a e e := by
    refine ⟨(e.arm a).travel, ?_⟩
    show e = { e with arms := Bank.write e.arms a (Bank.read e.arms a) }
    rw [Bank.write_read]
  suffices ∀ (l : List ArmId) (f : Device), TravelMoves a e f → TravelMoves a e (l.foldl (fun x y => Machine.superviseArm d x y) f) from
    this allArms e h0
  intro l
  induction l with
  | nil => exact fun f hf => hf
  | cons x l ih =>
    intro f hf
    rw [List.foldl_cons]
    refine ih _ ?_
    by_cases hx : x = a
    · subst hx
      exact hf.superviseArm d
    · have hr := h.of_travel hf
      rw [superviseArm_quiet d f x (hr.stage x).symm (by rw [hr.arms x hx])]
      exact hf

/-- What follows the rewiring of an arm of a part at rest is at most a move of its travel timer. -/
theorem Rewired.settle {a : ArmId} {d e : Device} (h : Rewired a d e)
    (hv : ∀ b, (d.bay b).state = .closed → (d.bay b).causes.valve = false) (hd : d.settled = true) :
    TravelMoves a e (settle d e) := by
  have hs := h.supervise
  obtain ⟨h1, h2, h3, h4⟩ := (settled_iff _).mp ((h.of_travel hs).settled hv hd)
  rwa [Machine.settle, allBayTests_rest _ h1, driveOutputs_rest _ h2, cwStart_rest _ h3, cwPark_rest _ h4]

theorem Rewired.settle_still {a : ArmId} {d e : Device} (h : Rewired a d e)
    (hv : ∀ b, (d.bay b).state = .closed → (d.bay b).causes.valve = false) (hd : d.settled = true)
    (hp : (e.arm a).position = (d.arm a).position) : Machine.settle d e = e := by
  refine settle_quiet d e (h.settled hv hd) fun x => ⟨(h.stage x).symm, ?_⟩
  by_cases hx : x = a
  · rw [hx, hp]
  · rw [h.arms x hx]

end Device

/-- A request, served as it arrives, whose change is taken, with what follows it. -/
theorem request_settles {s : State} {c : Instr} {k : Nat} {t : Byte} {r : Device → Except Status Device} {e : Device}
    (h : s.quiet = true) (hf : e.mp.fifo = s.dev.mp.fifo) (hi : e.mp.inService = s.dev.mp.inService)
    (hr : r (s.dev.intoService c) = .ok (e.intoService c)) :
    advance s (fun d => d.request c fun x => x.conclude k t (r x)) = .next { s with dev := settle s.dev (e.reply k t .ok []) } := by
  obtain ⟨h1, -⟩ := s.quiet_iff.mp h
  obtain ⟨-, g1, g2, -⟩ := (serves_iff _).mp h1
  simp only [advance]
  rw [request_serves _ _ _ h1, hr, conclude_ok, finish_intoService e c k t .ok [] (hf.trans g1) (hi.trans g2)]

/-! ### The fields of an arm record (R1, Table 1-1) -/

theorem toFin_eq_some {n i : Nat} {x : Fin n} : toFin n i = some x ↔ i = x.val := by
  unfold toFin
  split
  · rw [Option.some.injEq, Fin.ext_iff]
  · simp only [reduceCtorEq, false_iff]
    omega

theorem bounded_eq_some {n : Nat} {o : Option Nat} {x : Fin n} : bounded n o = some x ↔ o = some x.val := by
  cases o with
  | none => simp [bounded]
  | some i => simp [bounded, toFin_eq_some]

theorem fieldAddr_eq_some {o : Option Nat} {x : Addr} : fieldAddr o = some x ↔ o = some x.val ∧ x ≠ 0 := by
  have hx : x ≠ 0 ↔ 1 ≤ x.val ∧ x.val ≤ 31 := by
    rw [ne_eq, Fin.ext_iff, Fin.val_zero]
    omega
  unfold fieldAddr
  rw [Option.bind_eq_some_iff, hx]
  constructor
  · rintro ⟨n, hn, ht⟩
    obtain ⟨rfl, h1, h2⟩ := inRange_eq_some.mp hn
    obtain rfl := toFin_eq_some.mp ht
    exact ⟨rfl, h1, h2⟩
  · rintro ⟨rfl, h⟩
    exact ⟨x.val, inRange_eq_some.mpr ⟨rfl, h⟩, toFin_eq_some.mpr rfl⟩

theorem ascending_iff (l : List CurvePoint) : ascending l = true ↔ (l.map CurvePoint.q).Pairwise (· < ·) := by
  rw [← List.isChain_iff_pairwise]
  induction l with
  | nil => simp [ascending]
  | cons p t ih =>
    cases t with
    | nil => simp [ascending]
    | cons r t =>
      rw [ascending, Bool.and_eq_true, decide_eq_true_eq, ih]
      simp

theorem curveOk_iff (l : List CurvePoint) : curveOk l = true ↔ 1 ≤ l.length ∧ l.length ≤ 6 ∧
    (∀ p ∈ l, 1 ≤ p.q ∧ p.q ≤ 6000 ∧ 90000 ≤ p.mf ∧ p.mf ≤ 110000) ∧ (l.map CurvePoint.q).Pairwise (· < ·) := by
  simp only [curveOk, Bool.and_eq_true, decide_eq_true_eq, List.all_eq_true, ascending_iff, and_assoc]

theorem distinct_iff (l : List Nat) : distinct l = true ↔ l.Nodup := decide_eq_true_iff

theorem readMapEntry_eq_some {e : MapEntry} {x : Nat × Chan} :
    readMapEntry e = some x ↔ e = ⟨x.1, x.2.val⟩ ∧ 1 ≤ x.1 ∧ x.1 ≤ 255 := by
  obtain ⟨code, ch⟩ := e
  obtain ⟨c, y⟩ := x
  unfold readMapEntry
  constructor
  · intro h
    split at h
    next n z hn hz =>
      obtain ⟨h1, h2, h3⟩ := inRange_eq_some.mp hn
      obtain rfl := toFin_eq_some.mp hz
      cases h
      exact ⟨by simpa using h1, h2, h3⟩
    next => exact nomatch h
  · rintro ⟨h, h2, h3⟩
    cases h
    rw [inRange_eq_some.mpr ⟨rfl, h2, h3⟩, toFin_eq_some.mpr rfl]

theorem readAll_eq_some {α β : Type} {f : α → Option β} {g : β → α} {p : β → Prop} (h : ∀ x y, f x = some y ↔ x = g y ∧ p y)
    {l : List α} {m : List β} : readAll f l = some m ↔ l = m.map g ∧ ∀ y ∈ m, p y := by
  induction l generalizing m with
  | nil => cases m <;> simp [readAll]
  | cons x t ih =>
    unfold readAll
    constructor
    · intro hr
      split at hr
      next y u hy hu =>
        cases hr
        obtain ⟨rfl, hp⟩ := (h _ _).mp hy
        obtain ⟨rfl, hq⟩ := ih.mp hu
        exact ⟨rfl, List.forall_mem_cons.mpr ⟨hp, hq⟩⟩
      next => exact nomatch hr
    · rintro ⟨hl, hp⟩
      cases m with
      | nil => exact nomatch hl
      | cons y u =>
        obtain ⟨rfl, rfl⟩ := List.cons.inj hl
        obtain ⟨hy, hu⟩ := List.forall_mem_cons.mp hp
        rw [(h _ y).mpr ⟨rfl, hy⟩, ih.mpr ⟨rfl, hu⟩]

/-- R1: when a written arm record is read, and what it then has taken from its write. -/
theorem readArm_eq_some (w : ArmWrite) (r : ArmRecord) : readArm w = some r ↔
    w.bay = some r.bay.val ∧ w.product = some r.product ∧ 1 ≤ r.product ∧ r.product ≤ 255 ∧
    w.meter = some r.meter.val ∧ r.meter ≠ 0 ∧ w.temp = some r.temp.val ∧ w.valve = some r.valve.val ∧ r.valve ≠ 0 ∧
    w.kFactor = some r.kFactor ∧ 1000 ≤ r.kFactor ∧ r.kFactor ≤ 999999 ∧
    w.curve = some r.curve ∧ 1 ≤ r.curve.length ∧ r.curve.length ≤ 6 ∧
    (∀ p ∈ r.curve, 1 ≤ p.q ∧ p.q ≤ 6000 ∧ 90000 ≤ p.mf ∧ p.mf ≤ 110000) ∧
    (r.curve.map CurvePoint.q).Pairwise (· < ·) ∧
    w.qMax = some r.qMax ∧ 1 ≤ r.qMax ∧ r.qMax ≤ 6000 ∧ w.closeAhead = some r.closeAhead ∧ r.closeAhead ≤ 40000 ∧
    w.additiveMap = some (r.additiveMap.map fun e => ⟨e.1, e.2.val⟩) ∧ r.additiveMap.length ≤ 2 ∧
    (∀ e ∈ r.additiveMap, 1 ≤ e.1 ∧ e.1 ≤ 255) ∧ (r.additiveMap.map Prod.fst).Nodup ∧ w.inService = some r.inService ∧
    r.meter ≠ r.valve ∧ (r.temp = 0 ∨ (r.temp ≠ r.meter ∧ r.temp ≠ r.valve)) := by
  have hmap : ∀ {l : List MapEntry} {m : List (Nat × Chan)}, readAll readMapEntry l = some m ↔
      l = (m.map fun e => ⟨e.1, e.2.val⟩) ∧ ∀ e ∈ m, 1 ≤ e.1 ∧ e.1 ≤ 255 :=
    readAll_eq_some fun _ _ => readMapEntry_eq_some
  have hwires : ∀ m n v : Addr, (m != v && (n == 0 || (n != m && n != v))) = true ↔ m ≠ v ∧ (n = 0 ∨ (n ≠ m ∧ n ≠ v)) := by
    intro m n v
    simp
  unfold readArm
  constructor
  · intro h
    obtain ⟨bay, h1, h⟩ := Option.bind_eq_some_iff.mp h
    obtain ⟨product, h2, h⟩ := Option.bind_eq_some_iff.mp h
    obtain ⟨meter, h3, h⟩ := Option.bind_eq_some_iff.mp h
    obtain ⟨temp, h4, h⟩ := Option.bind_eq_some_iff.mp h
    obtain ⟨valve, h5, h⟩ := Option.bind_eq_some_iff.mp h
    obtain ⟨k, h6, h⟩ := Option.bind_eq_some_iff.mp h
    obtain ⟨curve, h7, h⟩ := Option.bind_eq_some_iff.mp h
    obtain ⟨_, h8, h⟩ := Option.bind_eq_some_iff.mp h
    obtain ⟨q, h9, h⟩ := Option.bind_eq_some_iff.mp h
    obtain ⟨ca, h10, h⟩ := Option.bind_eq_some_iff.mp h
    obtain ⟨entries, h11, h⟩ := Option.bind_eq_some_iff.mp h
    obtain ⟨m, h12, h⟩ := Option.bind_eq_some_iff.mp h
    obtain ⟨ins, h13, h⟩ := Option.bind_eq_some_iff.mp h
    obtain ⟨_, h14, h⟩ := Option.bind_eq_some_iff.mp h
    obtain ⟨_, h15, h⟩ := Option.bind_eq_some_iff.mp h
    obtain rfl := Option.some.inj h
    obtain ⟨p1, p2, p3⟩ := inRange_eq_some.mp h2
    obtain ⟨m1, m2⟩ := fieldAddr_eq_some.mp h3
    obtain ⟨v1, v2⟩ := fieldAddr_eq_some.mp h5
    obtain ⟨k1, k2, k3⟩ := inRange_eq_some.mp h6
    obtain ⟨c1, c2, c3, c4⟩ := (curveOk_iff curve).mp (require_eq_some.mp h8)
    obtain ⟨q1, q2, q3⟩ := inRange_eq_some.mp h9
    obtain ⟨a1, -, a2⟩ := inRange_eq_some.mp h10
    obtain ⟨rfl, e1⟩ := hmap.mp h12
    obtain ⟨l1, l2⟩ := (Bool.and_eq_true _ _).mp (require_eq_some.mp h14)
    exact ⟨bounded_eq_some.mp h1, p1, p2, p3, m1, m2, bounded_eq_some.mp h4, v1, v2, k1, k2, k3, h7, c1, c2, c3, c4, q1, q2, q3,
      a1, a2, h11, of_decide_eq_true l1, e1, (distinct_iff _).mp l2, h13, (hwires ..).mp (require_eq_some.mp h15)⟩
  · rintro ⟨b1, p1, p2, p3, m1, m2, t1, v1, v2, k1, k2, k3, u1, c1, c2, c3, c4, q1, q2, q3, a1, a2, e0, l1, e1, l2, i1, w1⟩
    rw [bounded_eq_some.mpr b1, inRange_eq_some.mpr ⟨p1, p2, p3⟩, fieldAddr_eq_some.mpr ⟨m1, m2⟩, bounded_eq_some.mpr t1,
      fieldAddr_eq_some.mpr ⟨v1, v2⟩, inRange_eq_some.mpr ⟨k1, k2, k3⟩, u1, inRange_eq_some.mpr ⟨q1, q2, q3⟩,
      inRange_eq_some.mpr ⟨a1, Nat.zero_le _, a2⟩, e0, i1]
    show (do
      require (curveOk r.curve)
      let additiveMap ← readAll readMapEntry (r.additiveMap.map fun e => ⟨e.1, e.2.val⟩)
      require (decide (additiveMap.length ≤ 2) && distinct (additiveMap.map Prod.fst))
      require (r.meter != r.valve && (r.temp == 0 || (r.temp != r.meter && r.temp != r.valve)))
      pure { r with additiveMap } : Option ArmRecord) = some r
    rw [(require_eq_some (u := ())).mpr ((curveOk_iff _).mpr ⟨c1, c2, c3, c4⟩), hmap.mpr ⟨rfl, e1⟩]
    show (do
      require (decide (r.additiveMap.length ≤ 2) && distinct (r.additiveMap.map Prod.fst))
      require (r.meter != r.valve && (r.temp == 0 || (r.temp != r.meter && r.temp != r.valve)))
      pure r : Option ArmRecord) = some r
    rw [(require_eq_some (u := ())).mpr ((Bool.and_eq_true _ _).mpr ⟨decide_eq_true l1, (distinct_iff _).mpr l2⟩),
      (require_eq_some (u := ())).mpr ((hwires ..).mpr w1)]
    rfl

/-! ### The checks against the other records (R1) -/

theorem clashes_iff (r o : ArmRecord) : r.clashes o = true ↔
    r.meter = o.meter ∨ r.valve = o.valve ∨ r.meter = o.valve ∨ r.valve = o.meter ∨ r.meter = o.temp ∨ r.valve = o.temp ∨
    (r.temp ≠ 0 ∧ (r.temp = o.meter ∨ r.temp = o.valve)) := by
  simp only [ArmRecord.clashes, Bool.or_eq_true, Bool.and_eq_true, beq_iff_eq, bne_iff_ne, or_assoc]

theorem Device.mem_otherArms (d : Device) (a : ArmId) (o : ArmRecord) : o ∈ d.otherArms a ↔ ∃ x, x ≠ a ∧ d.armRec x = some o := by
  unfold Device.otherArms
  rw [List.mem_filterMap]
  constructor
  · rintro ⟨x, -, h⟩
    split at h
    next => exact nomatch h
    next hx => exact ⟨x, hx, h⟩
  · rintro ⟨x, hx, h⟩
    exact ⟨x, Device.mem_allArms x, by rw [if_neg hx, h]⟩

/-- As many members as wanted, all different, is as many as are left by the filter. -/
theorem le_length_filter_iff {α : Type} {l : List α} (hl : l.Nodup) (p : α → Bool) (n : Nat) :
    n ≤ (l.filter p).length ↔ ∃ m : List α, m.Nodup ∧ m.length = n ∧ ∀ x ∈ m, x ∈ l ∧ p x = true := by
  constructor
  · intro h
    refine ⟨(l.filter p).take n, (hl.filter p).sublist (List.take_sublist ..), List.length_take_of_le h, fun x hx => ?_⟩
    exact List.mem_filter.mp (List.mem_of_mem_take hx)
  · rintro ⟨m, hm, rfl, h⟩
    exact (hm.subperm fun x hx => List.mem_filter.mpr (h x hx)).length_le

theorem Device.otherArms_filter_length (d : Device) (a : ArmId) (p : ArmRecord → Bool) :
    ((d.otherArms a).filter p).length = (allArms.filter fun x => x != a && (d.armRec x).any p).length := by
  unfold Device.otherArms
  induction allArms with
  | nil => rfl
  | cons x t ih =>
    rw [List.filterMap_cons, List.filter_cons]
    by_cases hx : x = a
    · simp [hx, ih]
    · cases hr : d.armRec x with
      | none => simp [hx, ih]
      | some r => by_cases hp : p r = true <;> simp [hx, hp, ih]

theorem Device.le_otherArms_filter_iff (d : Device) (a : ArmId) (p : ArmRecord → Bool) (n : Nat) :
    n ≤ ((d.otherArms a).filter p).length ↔
      ∃ l : List ArmId, l.Nodup ∧ l.length = n ∧ ∀ x ∈ l, x ≠ a ∧ ∃ o, d.armRec x = some o ∧ p o = true := by
  rw [Device.otherArms_filter_length, le_length_filter_iff (by decide)]
  refine exists_congr fun l => and_congr_right fun _ => and_congr_right fun _ => forall₂_congr fun x _ => ?_
  simp [Device.mem_allArms, Option.any_eq_true]

theorem Device.armFull_iff (d : Device) (a : ArmId) (r : ArmRecord) : armFull r (d.otherArms a) = true ↔
    (∃ l : List ArmId, l.Nodup ∧ l.length = 4 ∧ ∀ x ∈ l, x ≠ a ∧ ∃ o, d.armRec x = some o ∧ o.bay = r.bay) ∨
    ∃ e ∈ r.additiveMap, ∃ l : List ArmId, l.Nodup ∧ l.length = 2 ∧
      ∀ x ∈ l, x ≠ a ∧ ∃ o, d.armRec x = some o ∧ ∃ f ∈ o.additiveMap, f.2 = e.2 := by
  simp only [armFull, Bool.or_eq_true, decide_eq_true_eq, List.any_eq_true, Device.le_otherArms_filter_iff, beq_iff_eq]

/-! ### The gate and the change (R2, R23, R35) -/

open Device

theorem Device.isClosed_iff (d : Device) (b : BayId) : d.isClosed b = true ↔ (d.bay b).state = .closed := beq_iff_eq

theorem Device.armGate_iff (d : Device) (a : ArmId) (new : Option ArmRecord) : d.armGate a new = true ↔
    (∀ r, d.armRec a = some r → (d.bay r.bay).state = .closed) ∧ ∀ r, new = some r → (d.bay r.bay).state = .closed := by
  unfold armGate
  rw [Bool.and_eq_true]
  refine and_congr ?_ ?_
  · cases d.armRec a <;> simp [isClosed_iff]
  · cases new <;> simp [isClosed_iff]

/-- The part with an arm's record written, or cleared, and its controller state changed by `f`. -/
def Device.rewire (d : Device) (a : ArmId) (new : Option ArmRecord) (f : ArmCtl → ArmCtl) : Device :=
  ((d.setArmRec a new).onMeter a fun m => m.rewired (d.armRec a) new).onArm a f

theorem Device.rewire_arm_same (d : Device) (a : ArmId) (new : Option ArmRecord) (f : ArmCtl → ArmCtl) :
    (d.rewire a new f).arm a = f (d.arm a) := by
  rw [rewire, onArm_arm_same]
  rfl

theorem Device.rewire_arm_other (d : Device) {a x : ArmId} (new : Option ArmRecord) (f : ArmCtl → ArmCtl) (h : x ≠ a) :
    (d.rewire a new f).arm x = d.arm x := by
  rw [rewire, onArm_arm_other _ _ _ _ h]
  rfl

theorem Device.rewire_meter_same (d : Device) (a : ArmId) (new : Option ArmRecord) (f : ArmCtl → ArmCtl) :
    (d.rewire a new f).meter a = (d.meter a).rewired (d.armRec a) new := by
  rw [rewire, onArm_meter, onMeter_meter_same]
  rfl

theorem Device.rewire_meter_other (d : Device) {a x : ArmId} (new : Option ArmRecord) (f : ArmCtl → ArmCtl) (h : x ≠ a) :
    (d.rewire a new f).meter x = d.meter x := by
  rw [rewire, onArm_meter, onMeter_meter_other _ _ _ _ h]
  rfl

theorem Device.rewire_rewired {d : Device} {a : ArmId} {new : Option ArmRecord} (f : ArmCtl → ArmCtl) (h : d.armGate a new = true)
    (k : Nat) (t : Byte) (st : Status) : Rewired a d ((d.rewire a new f).reply k t st []) := by
  obtain ⟨h1, h2⟩ := (armGate_iff ..).mp h
  have hrec : ∀ x, ((d.rewire a new f).reply k t st []).armRec x = (d.setArmRec a new).armRec x := fun _ => rfl
  refine ⟨rfl, fun x hx => ?_, fun x hx => rewire_arm_other d new f hx, rfl, rfl, rfl, rfl, h1, fun r hr => h2 r ?_⟩
  · rw [hrec, setArmRec_armRec_other _ _ _ _ hx]
  · rwa [hrec, setArmRec_armRec_same] at hr

section
variable {d : Device} {a : ArmId} {w : ArmWrite} {r : ArmRecord}

theorem Device.writeArm_unread (h : readArm w = none) : d.writeArm a w = .error .badField := by
  unfold writeArm
  rw [h]

theorem Device.writeArm_of_read (h : readArm w = some r) :
    d.writeArm a w = if (d.otherArms a).any r.clashes then .error .badField
      else if armFull r (d.otherArms a) then .error .full
      else if !d.armGate a (some r) then .error .inUse
      else .ok (d.rewire a (some r) fun c => c.rewired (d.armRec a) r) := by
  unfold writeArm
  rw [h]
  rfl

theorem Device.writeArm_clash (h : readArm w = some r) (hc : ∃ o ∈ d.otherArms a, r.clashes o = true) :
    d.writeArm a w = .error .badField := by
  rw [writeArm_of_read h, if_pos (List.any_eq_true.mpr hc)]

theorem Device.writeArm_of_clear (h : readArm w = some r) (hc : ∀ o ∈ d.otherArms a, r.clashes o = false) :
    d.writeArm a w = if armFull r (d.otherArms a) then .error .full
      else if !d.armGate a (some r) then .error .inUse
      else .ok (d.rewire a (some r) fun c => c.rewired (d.armRec a) r) := by
  rw [writeArm_of_read h, if_neg (by simpa using hc)]

theorem Device.writeArm_full (h : readArm w = some r) (hc : ∀ o ∈ d.otherArms a, r.clashes o = false)
    (hf : armFull r (d.otherArms a) = true) : d.writeArm a w = .error .full := by
  rw [writeArm_of_clear h hc, if_pos hf]

theorem Device.writeArm_inUse (h : readArm w = some r) (hc : ∀ o ∈ d.otherArms a, r.clashes o = false)
    (hf : armFull r (d.otherArms a) = false) (hg : ¬ d.armGate a (some r) = true) : d.writeArm a w = .error .inUse := by
  rw [writeArm_of_clear h hc, if_neg (by simp [hf]), if_pos (by simpa using hg)]

theorem Device.writeArm_taken (h : readArm w = some r) (hc : ∀ o ∈ d.otherArms a, r.clashes o = false)
    (hf : armFull r (d.otherArms a) = false) (hg : d.armGate a (some r) = true) :
    d.writeArm a w = .ok (d.rewire a (some r) fun c => c.rewired (d.armRec a) r) := by
  rw [writeArm_of_clear h hc, if_neg (by simp [hf]), if_neg (by simp [hg])]

theorem Device.clearArm_taken (h : d.armGate a none = true) : d.clearArm a = .ok (d.rewire a none fun c => c.seedRing 0) := by
  unfold clearArm
  rw [if_neg (by simp [h])]
  rfl

theorem Device.clearArm_inUse (h : ¬ d.armGate a none = true) : d.clearArm a = .error .inUse := by
  unfold clearArm
  rw [if_pos (by simpa using h)]

end

theorem exec_tableWriteArm (s : State) (t : Byte) (a : ArmId) (w : ArmWrite) :
    exec (.tableWriteArm t (some (a.val, w))) s =
      advance s fun d => d.request (.tableWriteArm t (some (a.val, w))) fun e => e.conclude 1 t (e.writeArm a w) := by
  show execTableWriteArm t (some (a.val, w)) s = _
  unfold execTableWriteArm
  simp only [withOps_some, withIndex_val]

theorem exec_tableClearArm (s : State) (t : Byte) (a : ArmId) :
    exec (.tableClearArm t (some a.val)) s =
      advance s fun d => d.request (.tableClearArm t (some a.val)) fun e => e.conclude 3 t (e.clearArm a) := by
  show execTableClearArm t (some a.val) s = _
  unfold execTableClearArm
  simp only [withOne_val]

/-- R23: the ring and the close-ahead after a write. -/
theorem ArmCtl.rewired_ring (c : ArmCtl) (old : Option ArmRecord) (r : ArmRecord) :
    (c.rewired old r).batch = c.batch ∧
    (old.map ArmRecord.closeAhead = some r.closeAhead → (c.rewired old r).ring = c.ring ∧ (c.rewired old r).closeAhead = c.closeAhead) ∧
    (old.map ArmRecord.closeAhead ≠ some r.closeAhead →
      (c.rewired old r).ring = ⟨r.closeAhead, r.closeAhead, r.closeAhead, r.closeAhead⟩ ∧
      (c.rewired old r).closeAhead = r.closeAhead) := by
  unfold ArmCtl.rewired
  by_cases hc : old.map ArmRecord.closeAhead = some r.closeAhead <;> by_cases hv : old.map ArmRecord.valve = some r.valve <;>
    simp [hc, hv, seedRing, setPosition]

/-- R35: the position and the coupler after a write. -/
theorem ArmCtl.rewired_position (c : ArmCtl) (old : Option ArmRecord) (r : ArmRecord) :
    (old.map ArmRecord.valve = some r.valve → (c.rewired old r).position = c.position ∧ (c.rewired old r).coupler = c.coupler) ∧
    (old.map ArmRecord.valve ≠ some r.valve → (c.rewired old r).position = .unknown ∧ (c.rewired old r).coupler = .unknown) := by
  unfold ArmCtl.rewired
  by_cases hc : old.map ArmRecord.closeAhead = some r.closeAhead <;> by_cases hv : old.map ArmRecord.valve = some r.valve <;>
    simp [hc, hv, seedRing, setPosition]

/-- R2, R6, R13: the marks that stay with their stations. -/
theorem rewired_meter (m : Meter) (old : Option ArmRecord) (r : ArmRecord) :
    m.rewired old (some r) = { m with
      baselineValid := m.baselineValid && old.map ArmRecord.meter == some r.meter
      heldValid := m.heldValid && old.map ArmRecord.temp == some r.temp } := by
  simp [Meter.rewired]

theorem rewire_arm_travel (d : Device) (a : ArmId) (new : Option ArmRecord) (f : ArmCtl → ArmCtl) (k : Nat) (t : Byte) (st : Status)
    (tr : Option Nat) :
    ((((d.rewire a new f).reply k t st []).onArm a fun c => { c with travel := tr }).arm a) = { f (d.arm a) with travel := tr } := by
  have h : ((d.rewire a new f).reply k t st []).arm a = f (d.arm a) := rewire_arm_same ..
  rw [onArm_arm_same, h]

/-- R2: a write whose checks pass is carried out; at most the arm's travel timer then moves. -/
theorem tableWriteArm_accepted {s : State} {a : ArmId} {w : ArmWrite} {r : ArmRecord} (t : Byte) (hq : s.quiet = true)
    (hv : ∀ b, (s.dev.bay b).state = .closed → (s.dev.bay b).causes.valve = false) (hw : readArm w = some r)
    (hc : ∀ o ∈ s.dev.otherArms a, r.clashes o = false) (hf : armFull r (s.dev.otherArms a) = false)
    (hg : s.dev.armGate a (some r) = true) :
    ∃ tr, exec (.tableWriteArm t (some (a.val, w))) s = .next { s with dev :=
      ((s.dev.rewire a (some r) fun c => c.rewired (s.dev.armRec a) r).reply 1 t .ok []).onArm a fun c => { c with travel := tr } } := by
  obtain ⟨-, hs⟩ := s.quiet_iff.mp hq
  obtain ⟨tr, htr⟩ := (rewire_rewired (fun c => c.rewired (s.dev.armRec a) r) hg 1 t .ok).settle hv hs
  refine ⟨tr, ?_⟩
  rw [exec_tableWriteArm, request_settles (e := s.dev.rewire a (some r) fun c => c.rewired (s.dev.armRec a) r) hq rfl rfl ?_, htr]
  exact writeArm_taken (d := s.dev.intoService _) hw hc hf hg

/-- Settles O17: the writes that are taken, the clears, and the checks in their order. -/
theorem armWriteAndClear : Obligations.ArmWriteAndClear := by
  refine ⟨fun s t a hq => ⟨fun hv hold => ⟨fun w r hw hnew hc hf => ?_, ?_⟩, fun old ho hcl => ?_, fun w r hw hc hf hb => ?_⟩,
    readArm_eq_some, mem_otherArms, clashes_iff, armFull_iff, fun s t a w hq => ⟨fun h => ?_, fun r hw hc hf => ?_⟩⟩
  · have hg : s.dev.armGate a (some r) = true := (armGate_iff ..).mpr ⟨hold, fun x hx => Option.some.inj hx ▸ hnew⟩
    obtain ⟨tr, htr⟩ := tableWriteArm_accepted t hq hv hw hc hf hg
    obtain ⟨hbatch, hkeep, hseed⟩ := (s.dev.arm a).rewired_ring (s.dev.armRec a) r
    obtain ⟨hsame, hnewValve⟩ := (s.dev.arm a).rewired_position (s.dev.armRec a) r
    have ha := rewire_arm_travel s.dev a (some r) (fun c => c.rewired (s.dev.armRec a) r) 1 t .ok tr
    refine ⟨_, htr, rfl, rfl, fun x hx => ⟨rewire_meter_other s.dev (some r) (fun c => c.rewired (s.dev.armRec a) r) hx,
      (onArm_arm_other _ _ _ _ hx).trans (rewire_arm_other s.dev (some r) (fun c => c.rewired (s.dev.armRec a) r) hx)⟩, ?_, ?_, ?_, ?_, ?_, ?_,
      rfl, rfl, rfl, rfl, rfl, rfl, rfl, rfl, rfl, rfl, rfl, rfl, rfl, rfl, rfl, rfl⟩
    · exact (rewire_meter_same s.dev a (some r) fun c => c.rewired (s.dev.armRec a) r).trans (rewired_meter ..)
    all_goals rw [ha]
    · exact hkeep
    · exact hseed
    · exact hsame
    · exact hnewValve
    · exact hbatch
  · have hg : s.dev.armGate a none = true := (armGate_iff ..).mpr ⟨hold, fun _ hx => nomatch hx⟩
    obtain ⟨-, hs⟩ := s.quiet_iff.mp hq
    rw [exec_tableClearArm, request_settles (e := s.dev.rewire a none fun c => c.seedRing 0) hq rfl rfl ?_,
      (rewire_rewired (fun c => c.seedRing 0) hg 3 t .ok).settle_still hv hs ?_]
    · have hm : (fun m : Meter => m.rewired (s.dev.armRec a) none) = fun m => { m with baselineValid := false, heldValid := false } :=
        funext fun m => by simp [Meter.rewired]
      unfold rewire State.answers
      rw [hm]
      rfl
    · exact (congrArg ArmCtl.position (rewire_arm_same s.dev a none fun c => c.seedRing 0) :)
    · exact clearArm_taken (d := s.dev.intoService _) hg
  · rw [exec_tableClearArm]
    exact request_refused hq (clearArm_inUse (d := s.dev.intoService _) fun h => hcl (((armGate_iff ..).mp h).1 old ho))
  · rw [exec_tableWriteArm]
    refine request_refused hq (writeArm_inUse (d := s.dev.intoService _) hw hc hf ?_)
    rw [armGate_iff]
    rintro ⟨h1, h2⟩
    rcases hb with ⟨old, ho, hn⟩ | hn
    · exact hn (h1 old ho)
    · exact hn (h2 r rfl)
  · rw [exec_tableWriteArm]
    rcases h with h | ⟨r, hw, hc⟩
    · exact request_refused hq (writeArm_unread h)
    · exact request_refused hq (writeArm_clash (d := s.dev.intoService _) hw hc)
  · rw [exec_tableWriteArm]
    exact request_refused hq (writeArm_full (d := s.dev.intoService _) hw hc hf)

end Sys2Proof.Machine
end

