-- ==== Sys2Proof/Proofs/Records.lean ====
section
/-! The octets of a read: enumerations, options, lists and the records of a batch, a dosing and an order (R98, R185, Tables 2-2,
3-3 and 5-3 to 5-5). -/

namespace Sys2Proof.Machine

open Sys2Proof

theorem codes_follow : codesFollow := ⟨rfl, rfl, rfl, rfl, rfl, rfl, rfl, rfl, rfl, rfl, rfl⟩

theorem octets_follow : octetsFollow := ⟨fun _ => rfl, fun _ => rfl, rfl, fun _ => rfl, fun _ => rfl⟩

/-! ### Single octets of an enumeration -/

@[simp] theorem octets_basisCode (b : Basis) : octets 1 (basisCode b) = [if b = .gross then 0#8 else 1#8] := by
  cases b <;> rfl

@[simp] theorem octets_closeCause_code (c : CloseCause) : octets 1 c.code = [if c = .preset then 0#8 else 1#8] := by
  cases c <;> rfl

@[simp] theorem octets_endStatus_code (s : EndStatus) : octets 1 s.code = [if s = .complete then 0#8 else 1#8] := by
  cases s <;> rfl

@[simp] theorem putEnum_action (x : FaultAction) : putEnum actionNames x = [if x = .stop then 0#8 else 1#8] := by
  cases x <;> rfl

theorem octets_dosed (p : Bool) : octets 1 (if p then 0 else 1) = [if p then 0#8 else 1#8] := by cases p <;> rfl

theorem injector_number (o : Option Chan) : (o.map Fin.val).getD 255 = match o with
    | some c => c.val
    | none => 255 := by
  cases o <;> rfl

/-! ### Batch and dosing records -/

theorem batch_octs (b : Batch) : b.octs =
    [octets 1 b.line, octets 1 b.compartment, octets 1 b.product, octets 2 b.preset,
      [if b.basis = .gross then 0#8 else 1#8], octets 2 b.startVol, octets 2 b.taperVol, octets 1 b.overrun,
      octets 1 b.phase.code, volOctets b.delivered,
      optOctets (b.snapshot.map fun s => octets 8 s.1 ++ [if s.2 = .preset then 0#8 else 1#8]), signedOctets 8 b.tempSum,
      volOctets b.opening, optOctets (b.closing.map volOctets), timeOctets b.startTime,
      optOctets (b.endTime.map timeOctets), octets 2 b.flags.number, octets 4 b.discarded, octets 4 b.mismatches,
      flagOctet b.throttle, optOctets (b.endStatus.map fun s => [if s = .complete then 0#8 else 1#8])].flatten := by
  unfold Batch.octs
  simp only [octets_basisCode, octets_closeCause_code, octets_endStatus_code, optVol, optTime, List.flatten_cons,
    List.flatten_nil, List.append_nil, List.append_assoc]

theorem dosing_octs (x : Dosing) : x.octs =
    [[if x.dosed then 0#8 else 1#8], octets 1 x.recipe, octets 1 x.code, octets 2 x.dose,
      [if x.action = .stop then 0#8 else 1#8], octets 1 ((x.injector.map Fin.val).getD 255), octets 8 x.acc,
      octets 1 x.pending, flagOctet x.closeMark, octets 1 x.winCount, octets 4 x.winVol, octets 4 x.completed,
      octets 4 x.missed, octets 4 x.cancelled, octets 4 x.delivered, optOctets (x.required.map (octets 4))].flatten := by
  unfold Dosing.octs
  simp only [octets_dosed, putEnum_action, injector_number, List.flatten_cons, List.flatten_nil,
    List.append_nil, List.append_assoc] <;> rfl

theorem records_follow : recordsFollow := ⟨batch_octs, dosing_octs⟩

/-! ### Orders -/

theorem putList_eq {α : Type} (f : α → List Byte) (l : List α) : putList f l = octets 1 l.length ++ (l.map f).flatten := rfl

theorem orderLine_octs (l : OrderLine) : l.octs =
    ([[1#8, 1#8, 1#8, if l.basis.isSome then 1#8 else 0#8, if l.capacity.isSome then 1#8 else 0#8, 1#8,
        if l.reservation.isSome then 1#8 else 0#8],
      octets 1 l.compartment, octets 1 l.product, octets 2 l.preset,
      match l.basis with
        | some .gross => [0#8]
        | some .net => [1#8]
        | none => [],
      match l.capacity with
        | some x => octets 2 x
        | none => [],
      octets 1 l.batch.code,
      match l.reservation with
        | some p => octets 1 p.val
        | none => []] : List (List Byte)).flatten := by
  unfold OrderLine.octs
  simp only [putPresent, List.flatten_cons, List.flatten_nil, List.append_nil, List.append_assoc]
  rcases l.basis with _ | _ | _ <;> rcases l.capacity with _ | _ <;> rcases l.reservation with _ | _ <;> rfl

theorem order_octs_follow : Order.octsFollow := by
  intro o
  unfold Order.octs
  rw [putList_eq, funext orderLine_octs]
  simp only [putPresent, List.flatten_cons, List.flatten_nil, List.append_nil, List.append_assoc]
  rcases o.expiry with _ | _ <;> rcases o.assignment with _ | _ <;> rfl

end Sys2Proof.Machine
end

