-- ==== Sys2Proof/Proofs/StatusLists.lean ====
section
/-! What STATUS READ lists for each object (R186): the items of an arm, a bay, a station and an injector, and of MP, LM, CW,
NU and LU for the rack. -/

namespace Sys2Proof.Machine

open Sys2Proof

/-! ### Arms -/

theorem armItems_listed (d : Device) (a : ArmId) : d.armListed a (armItems d a) := by
  refine ⟨_, _, rfl, rfl, ?_⟩
  unfold armItems
  dsimp only
  cases (d.arm a).batch <;> rfl

/-! ### Bays -/

theorem reservedFor_iff (b : BayId) (x : SlotState) : x.reservedFor b = true ↔ ∃ f, x = .reserved b f := by
  cases x <;> simp [SlotState.reservedFor]

/-- The slot found is the lowest one RESERVED for the bay. -/
theorem reservedSlot_of_first {d : Device} {b : BayId} {k : SlotId} {f : Bool} (hk : d.slot k = .reserved b f)
    (first : ∀ j g, j < k → d.slot j ≠ .reserved b g) : d.reservedSlot b = some k := by
  have hkb : (d.slot k).reservedFor b = true := (reservedFor_iff b _).mpr ⟨f, hk⟩
  have hbelow : ∀ j, j < k → ¬ (d.slot j).reservedFor b = true := fun j hj h =>
    let ⟨g, hg⟩ := (reservedFor_iff b _).mp h
    first j g hj hg
  simp only [Device.reservedSlot, allSlots, List.find?_eq_some_iff_getElem]
  exact ⟨hkb, k.val, by simp, by simp, fun j hj => by simpa using hbelow ⟨j, by omega⟩ hj⟩

theorem reservedSlot_of_none {d : Device} {b : BayId} (h : ∀ k f, d.slot k ≠ .reserved b f) : d.reservedSlot b = none := by
  rw [Device.reservedSlot, List.find?_eq_none]
  intro k _ hk
  obtain ⟨f, hf⟩ := (reservedFor_iff b _).mp hk
  exact h k f hf

theorem reservedItem_of_none {d : Device} {b : BayId} (h : ∀ k f, d.slot k ≠ .reserved b f) : reservedItem d b = [0#8] := by
  rw [reservedItem, reservedSlot_of_none h]; rfl

theorem reservedItem_of_first {d : Device} {b : BayId} {k : SlotId} {f : Bool} (hk : d.slot k = .reserved b f)
    (first : ∀ j g, j < k → d.slot j ≠ .reserved b g) : reservedItem d b = 1#8 :: (octets 1 k.val ++ flagOctet f) := by
  rw [reservedItem, reservedSlot_of_first hk first]
  simp only [Option.map_some, hk, optOctets]

theorem octets_beforeHold (x : Option BeforeHold) : octets 1 (BeforeHold.code x) = [match x with
    | some .idle => 0#8
    | some .authorized => 1#8
    | some .loading => 2#8
    | none => 255#8] := by
  rcases x with _ | _ | _ | _ <;> rfl

theorem bayItems_listed (d : Device) (b : BayId) : d.bayListed b (bayItems d b) := by
  refine ⟨_, reservedItem d b, rfl, ?_, reservedItem_of_none, fun k f => reservedItem_of_first⟩
  unfold bayItems
  dsimp only
  rw [octets_beforeHold]
  cases (d.bay b).authTimer <;> rfl

/-! ### Stations and injectors -/

theorem stationItems_listed (d : Device) (n : Addr) : d.stationListed n (stationItems d n) := by
  constructor
  · intro h
    simp [stationItems, h]
  · intro e s h hs
    subst hs
    simp [stationItems, h, StationEntry.octs]

theorem shotItem_of_none {d : Device} {c : Chan} (h : d.injRec c = none) : shotItem d c = fun s =>
    octets 1 s.token ++ octets 1 s.ref.arm.val ++ octets 1 s.ref.recipe ++ octets 2 (0 - (d.now - s.issued)) := by
  funext s
  simp only [shotItem, h]

theorem shotItem_of_some {d : Device} {c : Chan} {j : InjectorRec} (h : d.injRec c = some j) : shotItem d c = fun s =>
    octets 1 s.token ++ octets 1 s.ref.arm.val ++ octets 1 s.ref.recipe ++
      octets 2 (j.timeout * 1000 - (d.now - s.issued)) := by
  funext s
  simp only [shotItem, h, secondsMs]

theorem injectorItems_listed (d : Device) (c : Chan) : d.injectorListed c (injectorItems d c) := by
  cases h : d.injRec c with
  | none =>
    refine ⟨_, 0, rfl, fun _ => rfl, fun j hj => ?_, ?_⟩
    · rw [h] at hj; contradiction
    · simp only [injectorItems, shotItem_of_none h]
  | some j =>
    refine ⟨_, j.timeout * 1000, rfl, fun hn => ?_, fun k hk => ?_, ?_⟩
    · rw [h] at hn; contradiction
    · rw [h] at hk; cases hk; rfl
    · simp only [injectorItems, shotItem_of_some h]

/-! ### MP, LM and CW -/

theorem octets_assembly (x : Assembly) : octets 1 x.code = [match x with
    | .idle => 0#8
    | .assembling _ _ => 1#8
    | .discarding => 2#8] := by
  cases x <;> rfl

theorem mpItems_listed (d : Device) : d.mpListed (mpItems d.mp) := by
  refine ⟨_, rfl, ?_⟩
  unfold mpItems
  rw [octets_assembly]
  rfl

theorem allAddrs_eq : allAddrs = (List.finRange 32).filter fun n => n ≠ 0 := by decide

theorem countP_field_stations (p : Addr → Bool) :
    ((List.finRange 32).countP fun n => n ≠ 0 && p n) = (allAddrs.filter p).length := by
  rw [allAddrs_eq, List.filter_filter, List.countP_eq_length_filter]
  simp only [Bool.and_comm]

theorem loopItems_listed (d : Device) : d.lmListed (loopItems d) := by
  refine ⟨_, rfl, ?_⟩
  simp only [countP_field_stations]
  unfold loopItems
  cases d.lm.launched <;> rfl

theorem postCount_eq (q : List QEntry) : postCount q = q.countP QEntry.isPost := List.countP_eq_length_filter.symm

theorem barrierCount_eq (q : List QEntry) : q.length - postCount q = q.countP fun e => !e.isPost := by
  have := List.length_eq_countP_add_countP (l := q) QEntry.isPost
  simp only [postCount_eq]
  simp only [Bool.not_eq_true, Bool.decide_eq_false] at this
  omega

theorem cwItems_listed (d : Device) : d.cwListed (cwItems d.cw) := by
  refine ⟨_, writeItem d.cw, rfl, ?_, ?_, ?_, ?_, ?_, ?_⟩
  · unfold cwItems
    rw [barrierCount_eq, postCount_eq]
  · intro h
    simp [writeItem, h]
  · intro n e p h he hb
    simp [writeItem, h, he, hb]
  · intro n part e x h he hb
    simp [writeItem, h, he, hb]
  · intro n k h
    simp [writeItem, h]
  · intro n k h
    simp [writeItem, h]

/-! ### NU: the directory's counts -/

/-- Whether a directory entry is RESERVED, for whatever bay. -/
def SlotState.isReserved : SlotState → Bool
  | .reserved _ _ => true
  | .free | .retained _ _ | .bad => false

/-- Whether a directory entry is RETAINED. -/
def SlotState.isRetained : SlotState → Bool
  | .retained _ _ => true
  | .free | .reserved _ _ | .bad => false

/-- Whether a directory entry is RETAINED with its release pending. -/
def SlotState.isPending : SlotState → Bool
  | .retained _ p => p
  | .free | .reserved _ _ | .bad => false

theorem countSlots_eq (d : Device) (p : SlotState → Bool) :
    d.countSlots p = (List.finRange 128).countP fun k => p (d.slot k) := List.countP_eq_length_filter.symm

theorem directoryCounts_flatten (d : Device) : (directoryCounts d).flatten =
    octets 1 (d.countSlots fun s => s == .free) ++ octets 1 (d.countSlots SlotState.isReserved) ++
      octets 1 (d.countSlots SlotState.isRetained) ++ octets 1 (d.countSlots fun s => s == .bad) := by
  have hr : (fun s : SlotState => match s with
      | .reserved _ _ => true
      | _ => false) = SlotState.isReserved := by funext s; cases s <;> rfl
  have ht : (fun s : SlotState => match s with
      | .retained _ _ => true
      | _ => false) = SlotState.isRetained := by funext s; cases s <;> rfl
  rw [← hr, ← ht]
  rfl

theorem isReserved_eq (x : SlotState) :
    ((List.finRange 4).any fun b => x == .reserved b true || x == .reserved b false) = x.isReserved := by
  cases x with
  | reserved b f => cases f <;> simp [SlotState.isReserved, List.any_eq_true]
  | free => rfl
  | retained _ _ => rfl
  | bad => rfl

theorem slotStates_sum (x : SlotState) : (if (x == .free) = true then 1 else 0) + (if x.isReserved = true then 1 else 0) +
    (if x.isRetained = true then 1 else 0) + (if (x == .bad) = true then 1 else 0) = 1 := by
  cases x <;> rfl

/-- Every slot is in one of the four states. -/
theorem countP_slotStates (f : SlotId → SlotState) (l : List SlotId) :
    l.countP (fun k => f k == .free) + l.countP (fun k => (f k).isReserved) + l.countP (fun k => (f k).isRetained) +
      l.countP (fun k => f k == .bad) = l.length := by
  induction l with
  | nil => rfl
  | cons k t ih =>
    simp only [List.countP_cons, List.length_cons]
    have := slotStates_sum (f k)
    omega

/-! ### NU: the numbers retained -/

theorem mem_retainedNumbers (d : Device) (n : Nat) : n ∈ retainedNumbers d ↔ ∃ k p, d.slot k = .retained n p := by
  simp only [retainedNumbers, allSlots, List.mem_filterMap, List.mem_finRange, true_and]
  constructor
  · rintro ⟨k, hk⟩
    cases h : d.slot k <;> rw [h] at hk <;> cases hk
    exact ⟨k, _, h⟩
  · rintro ⟨k, p, h⟩
    exact ⟨k, by rw [h]⟩

theorem foldl_min_headD {l : List Nat} {m : Nat} (h : l.min? = some m) : l.foldl min (l.headD 0) = m := by
  cases l with
  | nil => simp at h
  | cons x t =>
    have hm := (List.min?_eq_some_iff.mp h).2 x List.mem_cons_self
    rw [List.foldl_min, h]
    exact Nat.min_eq_right hm

theorem foldl_max_zero {l : List Nat} {m : Nat} (h : l.max? = some m) : l.foldl max 0 = m := by
  rw [List.foldl_max, h]
  exact Nat.max_eq_right (Nat.zero_le m)

theorem retained_bounds {l : List Nat} {n : Nat} (h : n ∈ l) : l.foldl min (l.headD 0) ≤ n ∧ n ≤ l.foldl max 0 ∧
    l.foldl min (l.headD 0) ∈ l ∧ l.foldl max 0 ∈ l := by
  obtain ⟨lo, hlo⟩ := Option.isSome_iff_exists.mp (List.isSome_min?_of_mem h)
  obtain ⟨hi, hhi⟩ := Option.isSome_iff_exists.mp (List.isSome_max?_of_mem h)
  obtain ⟨hlm, hle⟩ := List.min?_eq_some_iff.mp hlo
  obtain ⟨hhm, hge⟩ := List.max?_eq_some_iff.mp hhi
  rw [foldl_min_headD hlo, foldl_max_zero hhi]
  exact ⟨hle n h, hge n h, hlm, hhm⟩

/-! ### NU: the stalled bays -/

theorem insertStall_perm (x : BayId × Nat) (l : List (BayId × Nat)) : (insertStall x l).Perm (x :: l) := by
  induction l with
  | nil => exact .refl _
  | cons y t ih =>
    rw [insertStall]
    split
    · exact .refl _
    · exact (ih.cons y).trans (.swap x y t)

theorem insertStall_sorted (x : BayId × Nat) {l : List (BayId × Nat)} (h : l.Pairwise fun u v => u.2 ≤ v.2) :
    (insertStall x l).Pairwise fun u v => u.2 ≤ v.2 := by
  induction l with
  | nil => exact List.pairwise_singleton _ _
  | cons y t ih =>
    obtain ⟨hy, ht⟩ := List.pairwise_cons.mp h
    rw [insertStall]
    split
    next hlt =>
      refine List.pairwise_cons.mpr ⟨fun z hz => ?_, h⟩
      rcases List.mem_cons.mp hz with rfl | hz
      · exact hlt.le
      · exact hlt.le.trans (hy z hz)
    next hlt =>
      refine List.pairwise_cons.mpr ⟨fun z hz => ?_, ih ht⟩
      rcases List.mem_cons.mp ((insertStall_perm x t).mem_iff.mp hz) with rfl | hz
      · exact Nat.le_of_not_lt hlt
      · exact hy z hz

theorem foldl_insertStall (l k : List (BayId × Nat)) (hk : k.Pairwise fun u v => u.2 ≤ v.2) :
    (l.foldl (fun l x => insertStall x l) k).Perm (l ++ k) ∧
      (l.foldl (fun l x => insertStall x l) k).Pairwise fun u v => u.2 ≤ v.2 := by
  induction l generalizing k with
  | nil => exact ⟨.refl _, hk⟩
  | cons x t ih =>
    obtain ⟨hp, hs⟩ := ih (insertStall x k) (insertStall_sorted x hk)
    exact ⟨hp.trans (((insertStall_perm x k).append_left t).trans List.perm_middle), hs⟩

/-- The bays with a stall, each with its moment. -/
def stalls (d : Device) : List (BayId × Nat) := allBays.filterMap fun b => (d.noteBay b).stall.map fun n => (b, n)

theorem mem_stalls (d : Device) (x : BayId × Nat) : x ∈ stalls d ↔ (d.noteBay x.1).stall = some x.2 := by
  have hall : ∀ b : BayId, b ∈ allBays := by decide
  obtain ⟨b, n⟩ := x
  simp [stalls, hall]

theorem stalls_bays (d : Device) : (stalls d).map Prod.fst = allBays.filter fun b => (d.noteBay b).stall.isSome := by
  rw [stalls, List.map_filterMap, ← List.filterMap_eq_filter]
  refine List.filterMap_congr fun b _ => ?_
  cases h : (d.noteBay b).stall <;> simp [Option.guard, h]

/-- The list that the stalled bays are read off: their stalls, sorted. -/
theorem stalledBays_sorted (d : Device) : ∃ l : List (BayId × Nat), stalledBays d = l.map Prod.fst ∧ l.Perm (stalls d) ∧
    l.Pairwise fun u v => u.2 ≤ v.2 := by
  obtain ⟨hp, hs⟩ := foldl_insertStall (stalls d) [] .nil
  exact ⟨_, rfl, hp.trans (.of_eq (List.append_nil _)), hs⟩

theorem stalledBays_perm (d : Device) : (stalledBays d).Perm (allBays.filter fun b => (d.noteBay b).stall.isSome) := by
  obtain ⟨l, hl, hp, -⟩ := stalledBays_sorted d
  rw [hl, ← stalls_bays]
  exact hp.map _

theorem stalledBays_nodup (d : Device) : (stalledBays d).Nodup :=
  (stalledBays_perm d).nodup_iff.mpr (List.Nodup.filter _ (by decide))

theorem mem_stalledBays (d : Device) (b : BayId) : b ∈ stalledBays d ↔ (d.noteBay b).stall ≠ none := by
  have hall : ∀ b : BayId, b ∈ allBays := by decide
  rw [(stalledBays_perm d).mem_iff, List.mem_filter, Option.isSome_iff_ne_none]
  simp [hall]

theorem stalledBays_pairwise (d : Device) :
    (stalledBays d).Pairwise fun x y => (d.noteBay x).stall.getD 0 ≤ (d.noteBay y).stall.getD 0 := by
  obtain ⟨l, hl, hp, hs⟩ := stalledBays_sorted d
  have moment : ∀ x ∈ l, (d.noteBay x.1).stall.getD 0 = x.2 := fun x hx => by
    rw [(mem_stalls d x).mp (hp.mem_iff.mp hx)]; rfl
  rw [hl, List.pairwise_map]
  refine hs.imp_of_mem fun hx hy h => ?_
  rwa [moment _ hx, moment _ hy]

theorem isPending_eq (x : SlotState) : x.isPending = match x with
    | .retained _ p => p
    | .free | .reserved _ _ | .bad => false := by
  cases x <;> rfl

/-- NU's items, the counts by name. -/
theorem noteItems_eq (d : Device) : noteItems d =
    [octets 1 (d.countSlots fun s => s == .free) ++ octets 1 (d.countSlots SlotState.isReserved) ++
        octets 1 (d.countSlots SlotState.isRetained) ++ octets 1 (d.countSlots fun s => s == .bad),
      octets 4 ((retainedNumbers d).foldl min ((retainedNumbers d).headD 0)), octets 4 ((retainedNumbers d).foldl max 0),
      octets 1 (d.countSlots SlotState.isPending),
      octets 1 (stalledBays d).length ++ ((stalledBays d).map fun b => octets 1 b.val).flatten] := by
  rw [← directoryCounts_flatten, funext isPending_eq, ← List.length_map (as := stalledBays d) fun b => octets 1 b.val]
  rfl

theorem noteItems_listed (d : Device) : d.nuListed (noteItems d) := by
  refine ⟨_, _, _, _, _, _, _, _, noteItems_eq d, countSlots_eq d _, ?_, ?_, countSlots_eq d _, ?_, fun h => ?_,
    fun k n p h => ?_, stalledBays_nodup d, mem_stalledBays d, stalledBays_pairwise d⟩
  · simp only [isReserved_eq, countSlots_eq]
  · simp only [countSlots_eq, countP_slotStates, List.length_finRange]
  · rw [countSlots_eq, funext isPending_eq] <;> rfl
  · have hnil : retainedNumbers d = [] := List.eq_nil_iff_forall_not_mem.mpr fun n hn =>
      let ⟨k, p, hk⟩ := (mem_retainedNumbers d n).mp hn
      h k n p hk
    rw [hnil]
    exact ⟨rfl, rfl⟩
  · obtain ⟨hlo, hhi, hlm, hhm⟩ := retained_bounds ((mem_retainedNumbers d n).mpr ⟨k, p, h⟩)
    exact ⟨hlo, hhi, (mem_retainedNumbers d _).mp hlm, (mem_retainedNumbers d _).mp hhm⟩

/-! ### LU -/

theorem allSixteen_eq : allSixteen = List.finRange 16 := by decide

theorem allBays_eq : allBays = List.finRange 4 := by decide

theorem isActive_eq (x : Line) :
    x.isActive = ((x.mode == .input || x.mode == .inputDebounced) && x.level == x.active) := by
  rw [Line.isActive]
  cases x.mode <;> rfl

theorem isKind_iff (s : Station) (k : StationKind) : s.isKind k = true ↔ ∃ e, s.entry = some e ∧ e.kind = k := by
  rw [Station.isKind]
  cases s.entry <;> simp

theorem mem_allAddrs (n : Addr) : n ∈ allAddrs ↔ n ≠ 0 := by
  simp [allAddrs_eq]

theorem luItems_listed (d : Device) : d.luListed (luItems d) := by
  refine ⟨_, allAddrs.filter fun n => (d.station n).isKind .permit, rfl, ?_, ?_, fun n => ?_⟩
  · simp only [← isActive_eq, ← allSixteen_eq, ← allBays_eq]
    rfl
  · exact List.Pairwise.filter _ (by decide)
  · rw [List.mem_filter, mem_allAddrs, isKind_iff]

/-! ### Objects -/

theorem rackItems_listed (d : Device) : d.rackListed (rackItems d) :=
  ⟨_, _, _, _, _, rfl, mpItems_listed d, loopItems_listed d, cwItems_listed d, noteItems_listed d, luItems_listed d⟩

theorem fieldAddr_val {n : Addr} (h : n ≠ 0) : fieldAddr (some n.val) = some n := fieldAddr_eq_some.mpr ⟨rfl, h⟩

theorem fieldAddr_none {i : Nat} (h : i = 0 ∨ 32 ≤ i) : fieldAddr (some i) = none := by
  refine Option.eq_none_iff_forall_ne_some.mpr fun n hn => ?_
  obtain ⟨hi, h0⟩ := fieldAddr_eq_some.mp hn
  have := Option.some.inj hi
  have := n.isLt
  have := Fin.val_ne_of_ne h0
  simp only [Fin.val_zero] at this
  omega

theorem status_follows (d : Device) : d.statusFollows := by
  refine ⟨fun a => ⟨_, ?_, armItems_listed d a⟩, fun b => ⟨_, ?_, bayItems_listed d b⟩,
    fun n hn => ⟨_, ?_, stationItems_listed d n⟩, fun c => ⟨_, ?_, injectorItems_listed d c⟩,
    ⟨_, rfl, rackItems_listed d⟩, fun i => ⟨fun h => ?_, fun h => ?_, fun h => ?_, fun h => ?_, fun h => if_neg h⟩⟩
  · simp only [statusItems, toFin_val, Option.map_some]
  · simp only [statusItems, toFin_val, Option.map_some]
  · simp only [statusItems, fieldAddr_val hn, Option.map_some]
  · simp only [statusItems, toFin_val, Option.map_some]
  · simp only [statusItems, toFin_ge h, Option.map_none]
  · simp only [statusItems, toFin_ge h, Option.map_none]
  · simp only [statusItems, fieldAddr_none h, Option.map_none]
  · simp only [statusItems, toFin_ge h, Option.map_none]

end Sys2Proof.Machine
end

