-- ==== Sys2Proof/Proofs/Reads.lean ====
section
/-! TABLE READ, the read of the order queue and STATUS READ answer from the state and change nothing (R98, R178, R186,
Table 10-5). -/

namespace Sys2Proof.Machine

open Sys2Proof

/-! ### TABLE READ -/

/-- What a TABLE READ's result answers with: a body as one element, or a status and no element. -/
def readAnswer : Except Status (List Byte) → Status × List Element
  | .ok body => (.ok, [⟨body, true, true, false⟩])
  | .error st => (st, [])

theorem answerRead_eq (d : Device) (t : Byte) (r : Except Status (List Byte)) :
    d.answerRead t r = d.finish 2 t (readAnswer r).1 (readAnswer r).2 := by
  cases r <;> rfl

/-- A request's entry into service changes no table. -/
theorem readTable_intoService (d : Device) (c : Instr) (n i : Nat) : (d.intoService c).readTable n i = d.readTable n i := rfl

section
variable {s : State} (hq : s.quiet = true) (t : Byte)
include hq

theorem tableRead_answers (n i : Nat) : exec (.tableRead t (some (n, i))) s =
    .next (s.answers s.dev 2 t (readAnswer (s.dev.readTable n i)).1 (readAnswer (s.dev.readTable n i)).2) := by
  show execTableRead t (some (n, i)) s = _
  unfold execTableRead
  simp only [withOps_some]
  exact request_answers hq (.refl _) rfl rfl (by rw [answerRead_eq, readTable_intoService])

theorem tableReadOrderQueue_answers (i : Nat) : exec (.tableReadOrderQueue t (some i)) s =
    .next (s.answers s.dev 2 t (readAnswer (s.dev.readTable 6 i)).1 (readAnswer (s.dev.readTable 6 i)).2) := by
  show execTableReadOrderQueue t (some i) s = _
  unfold execTableReadOrderQueue
  simp only [withOps_some]
  exact request_answers hq (.refl _) rfl rfl (by rw [answerRead_eq, readTable_intoService])

theorem tableRead_ok {n i : Nat} {body : List Byte} (h : s.dev.readTable n i = .ok body) :
    exec (.tableRead t (some (n, i))) s = .next (s.answers s.dev 2 t .ok [⟨body, true, true, false⟩]) := by
  rw [tableRead_answers hq t, h]; rfl

theorem tableRead_error {n i : Nat} {st : Status} (h : s.dev.readTable n i = .error st) :
    exec (.tableRead t (some (n, i))) s = .next (s.answers s.dev 2 t st []) := by
  rw [tableRead_answers hq t, h]; rfl

theorem tableReadOrderQueue_ok {i : Nat} {body : List Byte} (h : s.dev.readTable 6 i = .ok body) :
    exec (.tableReadOrderQueue t (some i)) s = .next (s.answers s.dev 2 t .ok [⟨body, true, true, false⟩]) := by
  rw [tableReadOrderQueue_answers hq t, h]; rfl

theorem tableReadOrderQueue_error {i : Nat} {st : Status} (h : s.dev.readTable 6 i = .error st) :
    exec (.tableReadOrderQueue t (some i)) s = .next (s.answers s.dev 2 t st []) := by
  rw [tableReadOrderQueue_answers hq t, h]; rfl

end

/-! ### What a read of each table finds -/

section
variable (d : Device)

theorem readTable_arm (a : ArmId) : d.readTable 0 a.val = .ok (stored ArmRecord.octs (d.armRec a)) := by
  simp only [Device.readTable, toFin_val]

theorem readTable_product (i : ProdIdx) : d.readTable 1 i.val = .ok (stored Product.octs (d.product i)) := by
  simp only [Device.readTable, toFin_val]

theorem readTable_injector (c : Chan) : d.readTable 2 c.val = .ok (stored InjectorRec.octs (d.injRec c)) := by
  simp only [Device.readTable, toFin_val]

theorem readTable_bay (b : BayId) : d.readTable 3 b.val = .ok (stored BayRecord.octs (d.bayRec b)) := by
  simp only [Device.readTable, toFin_val]

theorem readTable_permit {i : Nat} (h : i < 1024) :
    d.readTable 4 i = .ok (stored Permit.octs (Sparse.get i d.permits)) := if_pos h

theorem readTable_account {i : Nat} (h : i < 256) :
    d.readTable 5 i = .ok (stored Account.octs (Sparse.get i d.accounts)) := if_pos h

theorem readTable_order {i : Nat} {o : Order} (h : d.orders[i]? = some o) (hi : i < 48) : d.readTable 6 i = .ok o.octs := by
  simp only [Device.readTable, h, Nat.not_le.mpr hi, if_false]

theorem readTable_noOrder {i : Nat} (h : d.orders.length ≤ i) (hi : i < 48) : d.readTable 6 i = .error .notFound := by
  simp only [Device.readTable, List.getElem?_eq_none h, Nat.not_le.mpr hi, if_false]

theorem readTable_orderRange {i : Nat} (h : 48 ≤ i) : d.readTable 6 i = .error .badIndex := if_pos h

theorem readTable_station {n : Addr} (h : n ≠ 0) : d.readTable 7 n.val = .ok (stored StationEntry.octs (d.station n).entry) := by
  simp only [Device.readTable, fieldAddr_val h]

theorem readTable_settings : d.readTable 8 0 = .ok d.mp.settings.octs := rfl

theorem readTable_empty {n i : Nat} (h : (n = 0 ∧ ∃ a : ArmId, a.val = i ∧ d.armRec a = none) ∨
      (n = 1 ∧ ∃ p : ProdIdx, p.val = i ∧ d.product p = none) ∨ (n = 2 ∧ ∃ c : Chan, c.val = i ∧ d.injRec c = none) ∨
      (n = 3 ∧ ∃ b : BayId, b.val = i ∧ d.bayRec b = none) ∨ (n = 4 ∧ i < 1024 ∧ Sparse.get i d.permits = none) ∨
      (n = 5 ∧ i < 256 ∧ Sparse.get i d.accounts = none) ∨
      (n = 7 ∧ ∃ m : Addr, m ≠ 0 ∧ m.val = i ∧ (d.station m).entry = none)) : d.readTable n i = .ok [] := by
  rcases h with ⟨rfl, a, rfl, h⟩ | ⟨rfl, p, rfl, h⟩ | ⟨rfl, c, rfl, h⟩ | ⟨rfl, b, rfl, h⟩ | ⟨rfl, hi, h⟩ | ⟨rfl, hi, h⟩ |
    ⟨rfl, m, h0, rfl, h⟩
  · rw [readTable_arm, h]; rfl
  · rw [readTable_product, h]; rfl
  · rw [readTable_injector, h]; rfl
  · rw [readTable_bay, h]; rfl
  · rw [readTable_permit d hi, h]; rfl
  · rw [readTable_account d hi, h]; rfl
  · rw [readTable_station d h0, h]; rfl

theorem readTable_badIndex {n i : Nat} (h : (n = 0 ∧ 12 ≤ i) ∨ ((n = 1 ∨ n = 2) ∧ 16 ≤ i) ∨ (n = 3 ∧ 4 ≤ i) ∨
      (n = 4 ∧ 1024 ≤ i) ∨ (n = 5 ∧ 256 ≤ i) ∨ (n = 7 ∧ (i = 0 ∨ 32 ≤ i)) ∨ (n = 8 ∧ i ≠ 0)) :
    d.readTable n i = .error .badIndex := by
  rcases h with ⟨rfl, h⟩ | ⟨rfl | rfl, h⟩ | ⟨rfl, h⟩ | ⟨rfl, h⟩ | ⟨rfl, h⟩ | ⟨rfl, h⟩ | ⟨rfl, h⟩
  · simp only [Device.readTable, toFin_ge h]
  · simp only [Device.readTable, toFin_ge h]
  · simp only [Device.readTable, toFin_ge h]
  · simp only [Device.readTable, toFin_ge h]
  · exact if_neg (Nat.not_lt.mpr h)
  · exact if_neg (Nat.not_lt.mpr h)
  · simp only [Device.readTable, fieldAddr_none h]
  · exact if_neg h

theorem readTable_badTable {n : Nat} (i : Nat) (h : 8 < n) : d.readTable n i = .error .badTable := by
  obtain ⟨m, rfl⟩ := Nat.exists_eq_add_of_lt h
  rw [Nat.add_right_comm, Nat.add_comm _ m]
  rfl

end

/-! ### STATUS READ -/

theorem markLast_length (l : List Element) : (markLast l).length = l.length := by
  induction l with
  | nil => rfl
  | cons e t ih =>
    cases t with
    | nil => rfl
    | cons f t => exact congrArg Nat.succ ih

theorem elementsOf_length (l : List (List Byte)) (good checked : Bool) : (elementsOf l good checked).length = l.length := by
  rw [elementsOf, markLast_length, List.length_map]

section
variable {d : Device} {o : StatusObj} {i k : Nat} {l : List (List Byte)}

theorem readStatus_page (h : statusItems d o i = some l) (hk : k < l.length) :
    d.readStatus o i k = (.ok, fitElements 247 ((elementsOf l true false).drop k)) := by
  simp only [Device.readStatus, h, pageFrom, elementsOf_length, Nat.not_le.mpr hk, if_false]

theorem readStatus_beyond (h : statusItems d o i = some l) (hk : l.length ≤ k) : d.readStatus o i k = (.badIndex, []) := by
  simp only [Device.readStatus, h, pageFrom, elementsOf_length, hk, if_true]

theorem readStatus_nothing (h : statusItems d o i = none) : d.readStatus o i k = (.badIndex, []) := by
  simp only [Device.readStatus, h]

end

theorem statusRead_answers {s : State} {t : Byte} {o : StatusObj} {i k : Nat} {st : Status} {els : List Element}
    (hq : s.quiet = true)
    (h : (s.dev.intoService (.statusRead t (some (o, i, k)))).readStatus o i k = (st, els)) :
    exec (.statusRead t (some (o, i, k))) s = .next (s.answers s.dev 20 t st els) := by
  show execStatusRead t (some (o, i, k)) s = _
  unfold execStatusRead
  simp only [withOps_some]
  exact request_answers hq (.refl _) rfl rfl (by rw [h]; rfl)

/-- Settles O23: the octets and the lists by their own lemmas, each read through what it finds in its table. -/
theorem readsAnswerAndChangeNothing : Obligations.ReadsAnswerAndChangeNothing := by
  refine ⟨codes_follow, octets_follow, order_octs_follow, records_follow, status_follows, fun s t hq => ?_⟩
  refine ⟨fun a r h => ?_, fun i p h => ?_, fun c j h => ?_, fun b r h => ?_, fun i p hi h => ?_, fun i x hi h => ?_,
    fun n e h0 h => ?_, fun x hx => ?_, fun n i h => ?_, fun n i h => ?_, fun n i h => ?_, fun n i => ?_, fun i o h hi => ?_,
    fun i h hi => ?_, fun i h => ?_, fun o i k l h hk => ?_, fun o i k l h hk => ?_, fun o i k h => ?_⟩
  · exact tableRead_ok hq t (by rw [readTable_arm, h]; rfl)
  · exact tableRead_ok hq t (by rw [readTable_product, h]; rfl)
  · exact tableRead_ok hq t (by rw [readTable_injector, h]; rfl)
  · exact tableRead_ok hq t (by rw [readTable_bay, h]; rfl)
  · exact tableRead_ok hq t (by rw [readTable_permit _ hi, h]; rfl)
  · exact tableRead_ok hq t (by rw [readTable_account _ hi, h]; rfl)
  · exact tableRead_ok hq t (by rw [readTable_station _ h0, h]; rfl)
  · exact hx ▸ tableRead_ok hq t (readTable_settings _)
  · exact tableRead_ok hq t (readTable_empty _ h)
  · exact tableRead_error hq t (readTable_badIndex _ h)
  · exact tableRead_error hq t (readTable_badTable _ i h)
  · exact ⟨_, _, tableRead_answers hq t n i⟩
  · exact tableReadOrderQueue_ok hq t (readTable_order _ h hi)
  · exact tableReadOrderQueue_error hq t (readTable_noOrder _ h hi)
  · exact tableReadOrderQueue_error hq t (readTable_orderRange _ h)
  · exact statusRead_answers hq (readStatus_page h hk)
  · exact statusRead_answers hq (readStatus_beyond h hk)
  · exact statusRead_answers hq (readStatus_nothing h)

end Sys2Proof.Machine
end

