-- ==== Sys2Proof/Proofs/ValveStages.lean ====
section
/-! The stage of a valve call (R29, R36, R37, R154): when an arm may open, what the call to its VALVE station carries, and what
travel supervision makes of its timer. -/

namespace Sys2Proof.Machine

open Sys2Proof

theorem Phase.flowing_iff (p : Phase) : p.flowing = true ↔ p ∈ [.start, .full, .taper] := by cases p <;> decide

theorem ArmCtl.flowing_iff (c : ArmCtl) : c.flowing = true ↔ ∃ x, c.batch = some x ∧ x.phase.flowing = true := by
  unfold flowing
  cases c.batch <;> simp

theorem ArmCtl.commanded_some {c : ArmCtl} {b : Batch} (h : c.batch = some b) : c.commanded = b.commanded := by
  unfold commanded
  rw [h]

/-- Table 2-4: no stage but CLOSED is commanded of a batch that does not flow. -/
theorem Batch.commanded_closed {b : Batch} (h : b.phase.flowing = false) : b.commanded = .closed := by
  unfold commanded
  cases hp : b.phase <;> simp_all [Phase.flowing]

/-- Table 2-4, R29: a batch that flows commands an open stage. -/
theorem Batch.commanded_open {b : Batch} (h : b.phase.flowing = true) : b.commanded ≠ .closed := by
  unfold commanded
  cases hp : b.phase <;> simp_all [Phase.flowing]
  cases b.throttle <;> simp

theorem Stage.agrees_iff (s : Stage) (p : Position) : s.agrees p = true ↔
    (p = .closed ∧ s = .closed) ∨ (p = .low ∧ s = .low) ∨ (p = .high ∧ s = .high) := by
  cases s <;> cases p <;> decide

namespace Device

theorem bayOfArm_some {d : Device} {a : ArmId} {r : ArmRecord} (h : d.armRec a = some r) : d.bayOfArm a = some r.bay := by
  rw [bayOfArm, h]; rfl

theorem latched_eq_false (d : Device) : d.latched = false ↔ d.lu.esd = false ∧ d.lu.powerfail = false := by
  simp [latched]

/-- R36, L6: the conditions of an open stage. -/
theorem mayOpen_iff (d : Device) (a : ArmId) : d.mayOpen a = true ↔
    ∃ b, d.bayOfArm a = some b ∧ (d.bay b).state = .loading ∧ (d.bay b).ground = true ∧ (d.bay b).overfill = true ∧
      d.latched = false ∧ (d.arm a).flowing = true := by
  unfold mayOpen
  cases d.bayOfArm a <;> simp [and_assoc]

theorem effectiveStage_of_mayOpen {d : Device} {a : ArmId} (h : d.mayOpen a = true) : d.effectiveStage a = (d.arm a).commanded :=
  if_pos h

theorem effectiveStage_of_not_mayOpen {d : Device} {a : ArmId} (h : ¬ d.mayOpen a = true) : d.effectiveStage a = .closed :=
  if_neg h

/-- R36: a batch that flows commands an open stage, so what closes the effective stage is one of R36's conditions. -/
theorem effectiveStage_eq_closed_iff (d : Device) (a : ArmId) : d.effectiveStage a = .closed ↔ d.mayOpen a = false := by
  by_cases h : d.mayOpen a = true
  · obtain ⟨-, -, -, -, -, -, hf⟩ := (mayOpen_iff d a).mp h
    obtain ⟨x, hx, hp⟩ := (ArmCtl.flowing_iff _).mp hf
    rw [effectiveStage_of_mayOpen h, ArmCtl.commanded_some hx, h]
    simpa using Batch.commanded_open hp
  · rw [effectiveStage_of_not_mayOpen h]
    simpa using h

end Device

/-! ### Travel supervision (R37) -/

/-- R37: the travel timer of an arm after an event that took `old` to `new`. -/
def travelAfter (old new : Device) (a : ArmId) : Option Nat :=
  if old.effectiveStage a = new.effectiveStage a ∧ (old.arm a).position = (new.arm a).position then (new.arm a).travel
  else if (new.effectiveStage a).agrees (new.arm a).position then none
  else if old.effectiveStage a ≠ new.effectiveStage a then some (secondsMs new.mp.settings.valveTravel)
  else some ((new.arm a).travel.getD (secondsMs new.mp.settings.valveTravel))

theorem onArm_same (d : Device) (a : ArmId) (f : ArmCtl → ArmCtl) (h : f (d.arm a) = d.arm a) : d.onArm a f = d := by
  simp only [Device.onArm, h]
  exact congrArg (fun v => { d with arms := v }) (Bank.write_read _ _)

theorem superviseArm_eq (old new : Device) (a : ArmId) :
    superviseArm old new a = new.onArm a fun c => { c with travel := travelAfter old new a } := by
  unfold superviseArm travelAfter
  dsimp only
  split
  · exact (onArm_same _ _ _ rfl).symm
  split
  · rfl
  split
  · rfl
  · simp only [Device.onArm]

/-- R37: the timer stops exactly when the position agrees with the stage, once either has moved. -/
theorem travelAfter_eq_none_iff {old new : Device} {a : ArmId}
    (h : old.effectiveStage a ≠ new.effectiveStage a ∨ (old.arm a).position ≠ (new.arm a).position) :
    travelAfter old new a = none ↔ (new.effectiveStage a).agrees (new.arm a).position = true := by
  unfold travelAfter
  rw [if_neg fun hs => h.elim (absurd hs.1) (absurd hs.2)]
  split
  next ha => simpa using ha
  next ha => split <;> simpa using ha

/-! ### Calls to VALVE stations (R154) -/

/-- R154, Table 8-5: what the call to a VALVE station carries. -/
theorem Device.call_valve {d : Device} {n : Addr} {e : StationEntry} (he : (d.station n).entry = some e) (hk : e.kind = .valve) :
    d.call n = (d, padContent (octets 1 (match d.armOfValve n with
      | some a => if (d.station n).state != .mismatch then d.effectiveStage a else .closed
      | none => .closed : Stage).code)) := by
  unfold call
  dsimp only
  rw [he]
  dsimp only
  rw [hk] <;> rfl

theorem padContent_octet (n : Nat) : padContent (octets 1 n) = [BitVec.ofNat 8 n, 0#8, 0#8, 0#8, 0#8, 0#8] := rfl

open Device in
/-- Settles O57: the commanded stage, the call, the conditions of R36, the timer. -/
theorem stageOfAValveCall : Obligations.StageOfAValveCall := by
  refine ⟨fun c b hb => ArmCtl.commanded_some hb, fun d n e he hk hs => ⟨fun a ha => ?_, fun ha => ?_⟩,
    fun d n e he hk hs => ?_, fun d a => ?_, fun old new a h => ?_⟩
  · rw [call_valve he hk, ha, padContent_octet]
    simp [hs]
  · rw [call_valve he hk, ha, padContent_octet]
    rfl
  · rw [call_valve he hk, padContent_octet, hs]
    cases d.armOfValve n <;> rfl
  · have hopen : d.mayOpen a = true ↔ ∃ b x, d.bayOfArm a = some b ∧ (d.bay b).state = .loading ∧ (d.bay b).ground = true ∧
        (d.bay b).overfill = true ∧ d.lu.esd = false ∧ d.lu.powerfail = false ∧ (d.arm a).batch = some x ∧
        x.phase ∈ [.start, .full, .taper] := by
      simp only [mayOpen_iff, latched_eq_false, ArmCtl.flowing_iff, Phase.flowing_iff]
      constructor
      · rintro ⟨b, h1, h2, h3, h4, ⟨h5, h6⟩, x, h7, h8⟩
        exact ⟨b, x, h1, h2, h3, h4, h5, h6, h7, h8⟩
      · rintro ⟨b, x, h1, h2, h3, h4, h5, h6, h7, h8⟩
        exact ⟨b, h1, h2, h3, h4, ⟨h5, h6⟩, x, h7, h8⟩
    exact ⟨fun h => effectiveStage_of_mayOpen (hopen.mpr h), fun h => effectiveStage_of_not_mayOpen fun hm => h (hopen.mp hm)⟩
  · rw [superviseArm_eq, onArm_arm, if_pos rfl, travelAfter_eq_none_iff h, Stage.agrees_iff]

end Sys2Proof.Machine
end

