-- ==== Sys2Proof/Proofs/Closes.lean ====
section
/-! The close of a batch as the Dosing Unit takes it (R58, R61): what becomes of each dosing record of the open batch, and that
nothing else of the part moves but the fates of standing offers. Then the phase tests that command such a close (R28). -/

namespace Sys2Proof.Machine

open Sys2Proof

/-! ### Dosing records changed by their recipe lines -/

@[simp] theorem Dosing.cancelPending_recipe (x : Dosing) (mark : Bool) (n : Nat) : (x.cancelPending mark n).recipe = x.recipe := rfl

/-- A cancellation at close repeated changes nothing more. -/
theorem Dosing.cancelPending_twice (x : Dosing) (mark : Bool) (n : Nat) :
    (x.cancelPending mark n).cancelPending mark n = x.cancelPending mark n := by
  simp only [cancelPending, Dosing.mk.injEq, true_and, and_true]
  refine ⟨?_, ?_, ?_⟩
  · omega
  · cases mark <;> simp
  · omega

/-- Changes of single recipe lines, one after another, of which each keeps the recipe line and may be repeated at will: every
record of the lines named is changed once. -/
theorem Batch.foldl_onDose (g : Nat → Dosing → Dosing) (hr : ∀ k x, (g k x).recipe = x.recipe)
    (h2 : ∀ k x, g k (g k x) = g k x) (ks : List Nat) (b : Batch) :
    ks.foldl (fun u k => u.onDose k (g k)) b =
      { b with dosing := b.dosing.map fun x => if x.recipe ∈ ks then g x.recipe x else x } := by
  induction ks generalizing b with
  | nil => simp
  | cons k t ih =>
    rw [List.foldl_cons, ih]
    simp only [onDose, List.map_map]
    refine congrArg (fun l => { b with dosing := l }) (List.map_congr_left fun x _ => ?_)
    simp only [Function.comp, List.mem_cons, beq_iff_eq]
    by_cases hk : x.recipe = k
    · subst hk
      simp [hr, h2]
    · simp [hk]

/-- The recipe lines of a batch's DOSED records. -/
def Batch.dosedLines (b : Batch) : List Nat := (b.dosing.filter Dosing.dosed).map Dosing.recipe

/-- R58, R61: the open batch after its close has been told to DU, `off` giving the shots under an offer by recipe line. -/
def Batch.closeTold (b : Batch) (mark : Bool) (off : Nat → Nat) : Batch :=
  { b with dosing := b.dosing.map fun x => if x.recipe ∈ b.dosedLines then x.cancelPending mark (off x.recipe) else x }

/-- A batch without its throttle mark and its dosing records. -/
def Batch.core (b : Batch) : Batch := { b with throttle := false, dosing := [] }

@[simp] theorem Batch.throttleClear_core (b : Batch) : b.throttleClear.core = b.core := by
  unfold throttleClear
  split <;> rfl

@[simp] theorem Batch.throttleClear_dosing (b : Batch) : b.throttleClear.dosing = b.dosing := by
  unfold throttleClear
  split <;> rfl

theorem Batch.closeTold_core (b : Batch) (mark : Bool) (off : Nat → Nat) : (b.closeTold mark off).core = b.core := rfl

/-- Batches with the same core differ in the throttle mark and the dosing records alone. -/
theorem Batch.eq_of_core {x y : Batch} (h : x.core = y.core) : x = { y with throttle := x.throttle, dosing := x.dosing } := by
  cases x; cases y
  simp only [core, Batch.mk.injEq] at h ⊢
  tauto

theorem Batch.mem_dosedLines {b : Batch} {x : Dosing} (hx : x ∈ b.dosing) (hd : x.dosed = true) : x.recipe ∈ b.dosedLines :=
  List.mem_map_of_mem (List.mem_filter.mpr ⟨hx, hd⟩)

/-- R58: with the mark asked for, the close leaves it on every DOSED record. -/
theorem Batch.closeTold_marked {b : Batch} {off : Nat → Nat} {y : Dosing} (hy : y ∈ (b.closeTold true off).dosing)
    (hd : y.dosed = true) : y.closeMark = true := by
  obtain ⟨x, hx, rfl⟩ := List.mem_map.mp hy
  split at hd
  next hm => rw [if_pos hm]; rfl
  next hm => exact absurd (mem_dosedLines hx hd) hm

namespace Device

theorem refOpen_iff {d : Device} {a : ArmId} {t : Batch} (ht : (d.arm a).batch = some t) (ha : t.arm = a) (k : Nat) :
    d.refOpen ⟨a, t.line, k⟩ = true := by
  unfold refOpen
  rw [ht]
  simp [Batch.isRef, ha]

/-- R45: what is done to the dosing records of an arm's open batch, line by line, is done to that batch alone. -/
theorem foldl_onDose_open (g : DoseRef → Dosing → Dosing) (ks : List Nat) {d : Device} {a : ArmId} {t : Batch}
    (ht : (d.arm a).batch = some t) (ha : t.arm = a) :
    (ks.map fun k => DoseRef.mk a t.line k).foldl (fun e r => e.onDose r (g r)) d =
      d.onArm a fun c => { c with batch := some (ks.foldl (fun u k => u.onDose k (g ⟨a, t.line, k⟩)) t) } := by
  induction ks generalizing d t with
  | nil => exact (onArm_same d a _ (by rw [List.foldl_nil, ← ht])).symm
  | cons k l ih =>
    have h1 : d.onDose ⟨a, t.line, k⟩ (g ⟨a, t.line, k⟩) =
        d.onArm a fun c => { c with batch := some (t.onDose k (g ⟨a, t.line, k⟩)) } := by
      rw [onDose, onDoseBatch, if_pos (refOpen_iff ht ha k)]
      simp only [onBatch, onArm, ht, Option.map_some]
    have h2 := ih (d := d.onArm a fun c => { c with batch := some (t.onDose k (g ⟨a, t.line, k⟩)) })
      (t := t.onDose k (g ⟨a, t.line, k⟩)) (by rw [onArm_arm, if_pos rfl]) ha
    rw [List.map_cons, List.foldl_cons, h1]
    exact h2.trans (onArm_onArm ..)

theorem openRefs_eq {d : Device} {a : ArmId} {t : Batch} (ht : (d.arm a).batch = some t) :
    d.openRefs a = t.dosedLines.map fun k => DoseRef.mk a t.line k := by
  unfold openRefs Batch.dosedLines
  rw [ht, List.map_map]
  rfl

theorem setFates_eq (d : Device) (pick : DoseRef → Bool) (x : OfferFate) :
    ∃ q, d.setFates pick x = { d with injs := q } := by
  unfold setFates
  induction allSixteen generalizing d with
  | nil => exact ⟨d.injs, rfl⟩
  | cons c t ih =>
    obtain ⟨q, hq⟩ := ih (d.onInj c fun i => i.fateFor pick x)
    exact ⟨q, hq⟩

/-- R58, R61: the close told to DU changes the arm's batch and the fates of offers, and nothing else of the part. -/
theorem cancelPendings_open {d : Device} {a : ArmId} {t : Batch} (ht : (d.arm a).batch = some t) (ha : t.arm = a) (mark : Bool) :
    ∃ q, d.cancelPendings a mark = { (d.onArm a fun c =>
      { c with batch := some (t.closeTold mark fun k => d.underOffer ⟨a, t.line, k⟩).throttleClear }) with injs := q } := by
  have hfold := foldl_onDose_open (fun r x => x.cancelPending mark (d.underOffer r)) t.dosedLines ht ha
  rw [Batch.foldl_onDose (fun k x => x.cancelPending mark (d.underOffer ⟨a, t.line, k⟩)) (fun _ _ => rfl)
    (fun _ x => x.cancelPending_twice ..)] at hfold
  obtain ⟨q, hq⟩ := setFates_eq (d.onArm a fun c =>
    { c with batch := some (t.closeTold mark fun k => d.underOffer ⟨a, t.line, k⟩) })
    (fun r => r.arm == a && r.line == t.line) .cancelled
  refine ⟨q, ?_⟩
  unfold cancelPendings
  rw [openRefs_eq ht, hfold]
  simp only [ht]
  refine (congrArg (fun e : Device => e.onBatch a Batch.throttleClear) hq).trans ?_
  have hr : ({ (d.onArm a fun c => { c with batch := some (t.closeTold mark fun k => d.underOffer ⟨a, t.line, k⟩) }) with
      injs := q } : Device).arm a = { d.arm a with batch := some (t.closeTold mark fun k => d.underOffer ⟨a, t.line, k⟩) } :=
    Bank.read_write_same _ _ _
  rw [onBatch, onArm, hr]
  simp only [onArm, Bank.write_write, Option.map_some]

theorem cancelPendings_arm {d : Device} {a : ArmId} {t : Batch} (ht : (d.arm a).batch = some t) (ha : t.arm = a) (mark : Bool) :
    (d.cancelPendings a mark).arm a = { d.arm a with
      batch := some (t.closeTold mark fun k => d.underOffer ⟨a, t.line, k⟩).throttleClear } := by
  obtain ⟨q, hq⟩ := cancelPendings_open ht ha mark
  rw [hq]
  exact Bank.read_write_same _ _ _

end Device

/-! ### Phase tests (R28) -/

/-- R28: the phase after a sample, for a batch that flows. -/
theorem nextPhase_of_flowing {b : Batch} (ca : Nat) (v : Nat) (left : Int) (hv : v = b.volume)
    (hl : left = ((b.preset * 10 ^ 6 : Nat) : Int) - (v : Int)) (hf : b.phase.flowing = true) :
    (left ≤ ((ca * 1000 : Nat) : Int) → nextPhase b ca = .closeWait) ∧
    (((ca * 1000 : Nat) : Int) < left → nextPhase b ca = (if b.phase = .start ∧ b.startVol * 10 ^ 6 ≤ v then
        (if left ≤ ((b.taperVol * 10 ^ 6 : Nat) : Int) then .taper else .full)
      else if b.phase = .full ∧ left ≤ ((b.taperVol * 10 ^ 6 : Nat) : Int) then .taper
      else b.phase)) := by
  subst hv
  have hleft : (b.presetUl : Int) - (b.volume : Int) = left := hl.symm
  unfold nextPhase
  simp only [hleft]
  refine ⟨fun h => if_pos h, fun h => ?_⟩
  rw [if_neg (by omega)]
  cases hp : b.phase <;> simp_all [Phase.flowing]

/-- R28: a sample ends no flow but by CLOSE_WAIT. -/
theorem nextPhase_ne_closeWait {b : Batch} (ca : Nat) (hf : b.phase.flowing = true)
    (h : ((ca * 1000 : Nat) : Int) < ((b.preset * 10 ^ 6 : Nat) : Int) - (b.volume : Int)) : nextPhase b ca ≠ .closeWait := by
  rw [(nextPhase_of_flowing ca _ _ rfl rfl hf).2 h]
  split
  · split <;> simp
  split
  · simp
  · intro hc
    rw [hc] at hf
    exact nomatch hf

theorem Batch.evaluate_closes {b : Batch} {ca : Nat} (hf : b.phase.flowing = true) (h : nextPhase b ca = .closeWait) :
    b.evaluate ca = { b with phase := .closeWait, snapshot := some (b.volume, .preset) } := by
  unfold evaluate
  simp only [hf, h, if_true]

theorem Batch.evaluate_goesOn {b : Batch} {ca : Nat} (hf : b.phase.flowing = true) (h : nextPhase b ca ≠ .closeWait) :
    b.evaluate ca = { b with phase := nextPhase b ca } := by
  unfold evaluate
  simp only [hf, h, if_true, if_false]

theorem Batch.evaluate_still {b : Batch} (ca : Nat) (hf : b.phase.flowing = false) : b.evaluate ca = b := by
  unfold evaluate
  simp only [hf, Bool.false_eq_true, if_false]

theorem Batch.advance_volume (b : Batch) (i : Increment) : (b.advance i).volume = (match b.basis with
    | .gross => b.delivered.gross + i.vol.gross
    | .net => b.delivered.net + i.vol.net) := by
  unfold volume advance
  dsimp only
  cases b.basis <;> rfl

namespace Device

/-- R28, R58: a sample that brings its batch to CLOSE_WAIT tells the close to DU. -/
theorem batchSample_closes {d : Device} {a : ArmId} {b : Batch} {i : Increment} (hb : (d.arm a).batch = some b)
    (hf : b.phase.flowing = true) (hc : ((b.advance i).evaluate (d.arm a).closeAhead).phase = .closeWait) :
    d.batchSample a i = (d.onArm a fun c =>
      { c with batch := some ((b.advance i).evaluate (d.arm a).closeAhead), zeroFlow := 0 }).cancelPendings a true := by
  have hp : b.phase ≠ .closeWait := fun h => by rw [h] at hf; exact nomatch hf
  unfold batchSample
  simp only [hb, hf, hc, hp, if_false, if_true, beq_self_eq_true, Bool.and_self]

/-- R28, R31: any other sample of an open batch changes its batch and the zero-flow count. -/
theorem batchSample_goesOn {d : Device} {a : ArmId} {b : Batch} {i : Increment} (hb : (d.arm a).batch = some b)
    (hc : b.phase.flowing = true → ((b.advance i).evaluate (d.arm a).closeAhead).phase ≠ .closeWait) :
    ∃ z, d.batchSample a i = d.onArm a fun c =>
      { c with batch := some ((b.advance i).evaluate (d.arm a).closeAhead), zeroFlow := z } := by
  have hn : (b.phase.flowing && ((b.advance i).evaluate (d.arm a).closeAhead).phase == .closeWait) = false := by
    cases hf : b.phase.flowing
    · rfl
    · simpa using hc hf
  unfold batchSample
  simp only [hb, hn, Bool.false_eq_true, if_false]
  exact ⟨_, rfl⟩

end Device

open Device in
/-- Settles O56, by whether the batch flows and whether it is within the close-ahead of its preset. -/
theorem phaseTestsInOrder : Obligations.PhaseTestsInOrder := by
  intro d a i b v left hb ha hv hl
  have hvol : v = (b.advance i).volume := hv.trans (b.advance_volume i).symm
  refine ⟨?_, fun c dl => ⟨_, congrArg ArmCtl.batch (countFault_arm_some c dl hb), rfl, rfl, rfl⟩⟩
  by_cases hf : b.phase.flowing = true
  · obtain ⟨hclose, hgo⟩ := nextPhase_of_flowing (b := b.advance i) (d.arm a).closeAhead v left hvol hl hf
    by_cases hn : left ≤ (((d.arm a).closeAhead * 1000 : Nat) : Int)
    · have he := Batch.evaluate_closes (b := b.advance i) hf (hclose hn)
      have ht : ((d.onArm a fun c => { c with
          batch := some ((b.advance i).evaluate (d.arm a).closeAhead), zeroFlow := 0 }).arm a).batch =
          some ((b.advance i).evaluate (d.arm a).closeAhead) := by rw [onArm_arm, if_pos rfl]
      have harm := cancelPendings_arm ht (by rw [he]; exact ha) true
      rw [batchSample_closes hb hf (by rw [he]), harm, onArm_arm, if_pos rfl]
      generalize hx : (((b.advance i).evaluate (d.arm a).closeAhead).closeTold true _).throttleClear = x
      have hcore : x.core = ((b.advance i).evaluate (d.arm a).closeAhead).core := by rw [← hx, Batch.throttleClear_core]; rfl
      rw [he] at hcore
      have hx' := Batch.eq_of_core hcore
      refine ⟨x, rfl, by rw [hx']; rfl, fun _ _ => ⟨by rw [hx'], by rw [hx', hvol], rfl, ?_, fun y hy hd => ?_⟩,
        fun _ hlt => absurd hn (by omega), fun hff => absurd (hf.symm.trans hff) (by simp)⟩
      · rw [ArmCtl.commanded_some rfl, Batch.commanded_closed (by rw [hx']; rfl)]
      · rw [← hx, Batch.throttleClear_dosing] at hy
        exact Batch.closeTold_marked hy hd
    · have hne := nextPhase_ne_closeWait (b := b.advance i) (d.arm a).closeAhead hf (by rw [← hvol]; exact hl ▸ (by omega))
      have he := Batch.evaluate_goesOn (b := b.advance i) hf hne
      obtain ⟨z, hz⟩ := batchSample_goesOn (i := i) hb fun _ => by rw [he]; exact hne
      rw [hz, onArm_arm, if_pos rfl, he]
      exact ⟨_, rfl, rfl, fun _ h => absurd h hn, fun _ hlt => ⟨rfl, hgo hlt⟩, fun hff => absurd (hf.symm.trans hff) (by simp)⟩
  · have hf' : b.phase.flowing = false := by simpa using hf
    have he := Batch.evaluate_still (b := b.advance i) (d.arm a).closeAhead hf'
    obtain ⟨z, hz⟩ := batchSample_goesOn (i := i) hb fun h => absurd h hf
    rw [hz, onArm_arm, if_pos rfl, he]
    exact ⟨_, rfl, rfl, fun h => absurd h hf, fun h => absurd h hf, fun _ => ⟨rfl, rfl⟩⟩

end Sys2Proof.Machine
end

