-- ==== Sys2Proof/Proofs/BatchEnds.lean ====
section
/-! The end of a batch (R31, R33, R34, R40, R61, R105): its record, its place among the ended ones, its order line and account,
and the close of a load whose lines are done (R72). -/

namespace Sys2Proof.Machine

open Sys2Proof

/-! ### The ended ones in their order (R24) -/

theorem insertEnded_perm (b : Batch) (l : List Batch) : (insertEnded b l).Perm (b :: l) := by
  induction l with
  | nil => exact .refl _
  | cons x t ih =>
    unfold insertEnded
    split
    · exact .refl _
    · exact (ih.cons x).trans (.swap b x t)

theorem insertEnded_length (b : Batch) (l : List Batch) : (insertEnded b l).length = l.length + 1 :=
  (insertEnded_perm b l).length_eq

theorem insertEnded_sorted (b : Batch) {l : List Batch} (h : (l.map Batch.compartment).Pairwise (· ≤ ·)) :
    ((insertEnded b l).map Batch.compartment).Pairwise (· ≤ ·) := by
  induction l with
  | nil => simp [insertEnded]
  | cons x t ih =>
    rw [List.map_cons, List.pairwise_cons] at h
    unfold insertEnded
    split
    next hlt =>
      rw [List.map_cons, List.pairwise_cons]
      refine ⟨fun c hc => ?_, List.pairwise_cons.mpr h⟩
      rcases List.mem_cons.mp hc with rfl | hc
      · exact hlt.le
      · exact hlt.le.trans (h.1 c hc)
    next hge =>
      rw [List.map_cons, List.pairwise_cons]
      refine ⟨fun c hc => ?_, ih h.2⟩
      rcases List.mem_cons.mp (((insertEnded_perm b t).map _).mem_iff.mp hc) with rfl | hc
      · exact Nat.le_of_not_lt hge
      · exact h.1 c hc

/-! ### What a batch's end records and teaches -/

/-- R33, R61: the record of an ended batch, whatever its close at DU made of its dosing records. -/
theorem Batch.finish_record {t u : Batch} (hu : u.core = t.core) (hn : u.dosing.length = t.dosing.length) (m : Vol) (now : Time)
    (short : Bool) {x : Batch} (hx : x = u.finish m now short) :
    x.arm = t.arm ∧ x.line = t.line ∧ x.compartment = t.compartment ∧ x.delivered = t.delivered ∧ x.opening = t.opening ∧
    x.closing = some m ∧ x.endTime = some now ∧ x.phase = .ended ∧
    x.endStatus = some (if short = true ∨ t.volume + 1000000 < t.preset * 1000000 then .short else .complete) ∧
    x.flags.overrun = (t.flags.overrun || decide (t.preset * 1000000 + t.overrun * 1000000 < t.volume)) ∧
    x.dosing.length = t.dosing.length ∧ ∀ y ∈ x.dosing, y.required = some (requiredAdditive t.delivered.gross y.dose) := by
  have hv : u.volume = t.volume := by rw [eq_of_core hu]; rfl
  have hp : u.presetUl = t.presetUl := by rw [eq_of_core hu]; rfl
  have hg : u.delivered = t.delivered := by rw [eq_of_core hu]
  rw [eq_of_core hu] at hx
  subst hx
  refine ⟨rfl, rfl, rfl, rfl, rfl, rfl, rfl, rfl, ?_, rfl, ?_, fun y hy => ?_⟩
  · unfold finish
    simp only [Bool.or_eq_true, decide_eq_true_eq]
    rfl
  · simpa [finish] using hn
  · obtain ⟨z, -, rfl⟩ := List.mem_map.mp hy
    rfl

theorem Batch.lesson_core {t u : Batch} (h : u.core = t.core) (short : Bool) : u.lesson short = t.lesson short := by
  rw [eq_of_core h]
  rfl

/-- R40: a close on PRESET teaches its overrun. -/
theorem Batch.lesson_preset {t : Batch} {v : Nat} (hp : t.phase = .closeWait) (hs : t.snapshot = some (v, .preset)) :
    t.lesson false = some (overrunMl t.volume v) := by
  unfold lesson
  rw [hp, hs]
  rfl

/-- R40: no other end of a batch teaches anything. -/
theorem Batch.lesson_none {t : Batch} {short : Bool}
    (h : short = true ∨ t.phase ≠ .closeWait ∨ ∀ v, t.snapshot ≠ some (v, .preset)) : t.lesson short = none := by
  unfold lesson
  split
  next v hp hs =>
    rcases h with rfl | h | h
    · rfl
    · exact absurd hp h
    · exact absurd hs (h v)
  next => rfl

namespace Device

/-! ### Orders and accounts -/

theorem orderNumbered_onOrder (d : Device) (n : Nat) (f : Order → Order) (hf : ∀ o, (f o).number = o.number) :
    (d.onOrder n f).orderNumbered n = (d.orderNumbered n).map f := by
  have hc : ((fun o : Order => o.number == n) ∘ fun o => if o.number == n then f o else o) = fun o => o.number == n := by
    funext o
    simp only [Function.comp]
    split <;> simp_all
  show (d.orders.map fun o => if o.number == n then f o else o).find? (fun o => o.number == n) = _
  rw [List.find?_map, hc, orderNumbered]
  cases h : d.orders.find? fun o => o.number == n with
  | none => rfl
  | some o =>
    have ho := List.find?_some h
    simp only [beq_iff_eq] at ho
    simp [ho]

/-- A bay's order is the one it names by its number. -/
theorem orderOf_eq_some {d : Device} {b : BayId} {o : Order} (h : d.orderOf b = some o) :
    (d.bay b).order = some o.number ∧ d.orderNumbered o.number = some o := by
  obtain ⟨n, hn, ho⟩ := Option.bind_eq_some_iff.mp h
  obtain rfl : o.number = n := by simpa using List.find?_some ho
  exact ⟨hn, ho⟩

theorem settleLine_rest (d : Device) (b : BayId) (t : Batch) :
    { d with orders := (d.settleLine b t).orders, accounts := (d.settleLine b t).accounts } = d.settleLine b t := by
  unfold settleLine releaseLine onAccount
  split
  · rfl
  split
  · rfl
  split
  · rfl
  split <;> rfl

/-- R33, R105: the order line ended, its reservation given back, and the account charged. -/
theorem settleLine_reserved {d : Device} {b : BayId} {t : Batch} {o : Order} {l : OrderLine} {p : ProdIdx}
    (ho : d.orderOf b = some o) (hl : o.lines[t.line]? = some l) (hp : l.reservation = some p) :
    d.settleLine b t = ((d.onOrder o.number fun x => x.onLine t.line fun y => { y with batch := .ended }).onAccount o.account
      fun x => (x.release p l.preset).deduct p (netLitres t.delivered.net)).onOrder o.number
        fun x => x.onLine t.line fun y => { y with reservation := none } := by
  unfold settleLine releaseLine
  rw [ho]
  dsimp only
  rw [hl]
  dsimp only
  rw [hp]

theorem onAccount_orders (d : Device) (i : Nat) (f : Account → Account) : (d.onAccount i f).orders = d.orders := by
  unfold onAccount
  split <;> rfl

theorem settleLine_order {d : Device} {b : BayId} {t : Batch} {o : Order} {l : OrderLine} {p : ProdIdx}
    (ho : d.orderOf b = some o) (hl : o.lines[t.line]? = some l) (hp : l.reservation = some p) :
    (d.settleLine b t).orderNumbered o.number = some { o with
      lines := o.lines.modify t.line fun y => { y with batch := .ended, reservation := none } } := by
  have h1 : ((d.onOrder o.number fun x => x.onLine t.line fun y => { y with batch := .ended }).onAccount o.account
      fun x => (x.release p l.preset).deduct p (netLitres t.delivered.net)).orderNumbered o.number =
      some (o.onLine t.line fun y => { y with batch := .ended }) := by
    rw [orderNumbered, onAccount_orders, ← orderNumbered, orderNumbered_onOrder _ _ _ fun _ => by rfl, (orderOf_eq_some ho).2]
    rfl
  rw [settleLine_reserved ho hl hp, orderNumbered_onOrder _ _ _ fun _ => by rfl, h1]
  simp only [Option.map_some, Order.onLine, List.modify_modify_eq]
  rfl

theorem settleLine_account {d : Device} {b : BayId} {t : Batch} {o : Order} {l : OrderLine} {p : ProdIdx} {x : Account}
    (ho : d.orderOf b = some o) (hl : o.lines[t.line]? = some l) (hp : l.reservation = some p)
    (hx : Sparse.get o.account d.accounts = some x) : Sparse.get o.account (d.settleLine b t).accounts =
      some ((x.release p l.preset).deduct p (netLitres t.delivered.net)) := by
  have hx' : Sparse.get o.account
      (d.onOrder o.number fun x => x.onLine t.line fun y => { y with batch := .ended }).accounts = some x := hx
  rw [settleLine_reserved ho hl hp]
  unfold onAccount
  rw [hx']
  exact Sparse.get_put_same ..

theorem account_charged (x : Account) (p : ProdIdx) (m n : Nat) :
    Bank.read ((x.release p m).deduct p n).reserved p = Bank.read x.reserved p - m ∧
    Bank.read ((x.release p m).deduct p n).remaining p = max (-2147483648) (Bank.read x.remaining p - (n : Int)) ∧
    ∀ i, i ≠ p → Bank.read ((x.release p m).deduct p n).reserved i = Bank.read x.reserved i ∧
      Bank.read ((x.release p m).deduct p n).remaining i = Bank.read x.remaining i :=
  ⟨Bank.read_write_same .., Bank.read_write_same .., fun _ h => ⟨Bank.read_write_other _ _ _ _ h, Bank.read_write_other _ _ _ _ h⟩⟩

/-! ### The end itself (R33) -/

/-- The part with arm `a`'s batch, which left as `t`, ended in bay `b`. -/
def ended (d : Device) (a : ArmId) (b : BayId) (t : Batch) (short : Bool) : Device :=
  (((d.onArm a fun c => { (c.learn (t.lesson short)) with batch := none }).settleLine b
    (t.finish (d.meter a).mirror d.time short)).onBay b
      fun r => { r with ended := insertEnded (t.finish (d.meter a).mirror d.time short) r.ended })

/-- R33: the end of a batch, after DU has taken its close, and the notice of it. -/
theorem endBatch_eq {d : Device} {a : ArmId} {b : BayId} {t : Batch} (short : Bool)
    (ht : ((d.cancelPendings a false).arm a).batch = some t) (hb : d.bayOfArm a = some b) :
    ∃ l, d.endBatch a short = ((d.cancelPendings a false).ended a b t short).armNotice a 5 l := by
  have hb' : (d.cancelPendings a false).bayOfArm a = some b :=
    (bayOfArm_congr (cancelPendings_dosed d a false).armRecs a).trans hb
  unfold endBatch
  simp only [ht, hb']
  exact ⟨_, rfl⟩

theorem ended_arm (d : Device) (a : ArmId) (b : BayId) (t : Batch) (short : Bool) :
    (d.ended a b t short).arm a = { ((d.arm a).learn (t.lesson short)) with batch := none } := by
  rw [ended, onBay_arm, arm, settleLine_arms]
  exact Bank.read_write_same _ _ _

theorem ended_arm_other {d : Device} {a x : ArmId} {b : BayId} {t : Batch} {short : Bool} (h : x ≠ a) :
    (d.ended a b t short).arm x = d.arm x := by
  rw [ended, onBay_arm, arm, settleLine_arms]
  exact Bank.read_write_other _ _ _ _ h

theorem ended_bay (d : Device) (a : ArmId) (b x : BayId) (t : Batch) (short : Bool) : (d.ended a b t short).bay x =
    if x = b then { d.bay b with ended := insertEnded (t.finish (d.meter a).mirror d.time short) (d.bay b).ended } else d.bay x := by
  have hb : ∀ y, ((d.onArm a fun c => { (c.learn (t.lesson short)) with batch := none }).settleLine b
      (t.finish (d.meter a).mirror d.time short)).bay y = d.bay y := fun y => by rw [← settleLine_rest]; rfl
  rw [ended, onBay_bay, hb, hb]

end Device

/-! ### The zero-flow test and the load's end (R31, R72) -/

namespace Device

theorem zeroFlowTest_ends {d : Device} {a : ArmId} {b : BayId} {t : Batch} (ht : (d.arm a).batch = some t)
    (hb : d.bayOfArm a = some b) (hp : t.phase = .closeWait) (hz : 3 ≤ (d.arm a).zeroFlow) :
    d.zeroFlowTest a = (d.endBatch a false).loadTest b := by
  unfold zeroFlowTest batchEnded
  rw [ht]
  simp only [hp, hz, and_self, if_true, hb]

theorem zeroFlowTest_waits {d : Device} {a : ArmId} {t : Batch} (ht : (d.arm a).batch = some t)
    (h : t.phase ≠ .closeWait ∨ (d.arm a).zeroFlow < 3) : d.zeroFlowTest a = d := by
  unfold zeroFlowTest
  rw [ht]
  exact if_neg fun ⟨h1, h2⟩ => h.elim (absurd h1) (absurd h2 ∘ Nat.not_le.mpr)

/-- R31: the zero-flow count after a sample of a batch in CLOSE_WAIT. -/
theorem batchSample_zeroFlow {d : Device} {a : ArmId} {t : Batch} (i : Increment) (ht : (d.arm a).batch = some t)
    (hp : t.phase = .closeWait) : ((d.batchSample a i).arm a).zeroFlow = (d.arm a).countZero i.pulses := by
  unfold batchSample
  simp only [ht, hp, Phase.flowing, Bool.false_and, Bool.false_eq_true, if_false, if_true]
  rw [onArm_arm, if_pos rfl]

/-- R72: every line of the bay's order ended, and no batch of the bay open, while it loads. -/
def loadDone (d : Device) (b : BayId) (o : Order) : Prop :=
  (d.bay b).state = .loading ∧ (∀ l ∈ o.lines, l.batch = .ended) ∧ ∀ a ∈ d.armsOf b, (d.arm a).batch = none

theorem loadTest_eq {d : Device} {b : BayId} {o : Order} (ho : d.orderOf b = some o) :
    (d.loadDone b o → d.loadTest b = d.closeLoad b) ∧ (¬ d.loadDone b o → d.loadTest b = d) := by
  have hc : ((d.bay b).state = .loading ∧ o.lines.all (fun l => l.batch == .ended) ∧ d.noBatch b) ↔ d.loadDone b o := by
    simp only [loadDone, List.all_eq_true, beq_iff_eq, noBatch_iff]
  unfold loadTest
  rw [ho]
  exact ⟨fun h => if_pos (hc.mpr h), fun h => if_neg fun k => h (hc.mp k)⟩


/-- R72, R82: with no batch of the bay open, the close of the load is the bay's alone. -/
theorem closeLoad_of_none {d : Device} {b : BayId} (h : ∀ a ∈ d.armsOf b, (d.arm a).batch = none) :
    d.closeLoad b = ((d.enterState b .closing).onBay b fun r =>
      { r with causes := .empty, resumeTimer := none, authTimer := .stopped, before := none, swipe := none }).bayNotice b 14 [] := by
  unfold closeLoad
  dsimp only
  rw [foldl_closeArm_of_none (d.armsOf b) (d := (d.enterState b .closing).onBay b _) h]

end Device

open Device in
/-- Settles O58: the record, the ring, the order line and the account of an ended batch, then the two tests after it. -/
theorem batchEnds : Obligations.BatchEnds := by
  refine ⟨?_, fun d a b t ht hb => ⟨zeroFlowTest_ends ht hb, zeroFlowTest_waits ht, fun i hp => batchSample_zeroFlow i ht hp⟩,
    fun d b o ho => ⟨fun h => ?_, (loadTest_eq ho).2⟩⟩
  · rintro d e a b t short ht ha hb rfl
    obtain ⟨q, hq⟩ := cancelPendings_open ht ha false
    have hu := congrArg ArmCtl.batch (cancelPendings_arm ht ha false)
    obtain ⟨l, hl⟩ := endBatch_eq short hu hb
    have hcalm := endBatch_calm d a short
    have hlm : (d.endBatch a short).lm = d.lm := by rw [hl, ended, ← settleLine_rest, hq]; rfl
    have hnotice : ∃ x ∈ (d.endBatch a short).mp.notices, x.obj = .arm a ∧ x.event = 5 := by
      rw [hl]
      exact armNotice_raised ..
    have harm0 := cancelPendings_arm ht ha false
    generalize hgu : (t.closeTold false fun k => d.underOffer ⟨a, t.line, k⟩).throttleClear = u at hl harm0 hq
    have hcore : u.core = t.core := by rw [← hgu, Batch.throttleClear_core, Batch.closeTold_core]
    have hlen : u.dosing.length = t.dosing.length := by rw [← hgu, Batch.throttleClear_dosing, Batch.closeTold, List.length_map]
    have hm0 : (d.cancelPendings a false).meter a = d.meter a := by rw [hq]; rfl
    have ht0 : (d.cancelPendings a false).time = d.time := by rw [hq]; rfl
    have hb0 : ∀ x, (d.cancelPendings a false).bay x = d.bay x := fun x => by rw [hq]; rfl
    have ho0 : (d.cancelPendings a false).orders = d.orders := by rw [hq]; rfl
    have hother : ∀ x, x ≠ a → (d.cancelPendings a false).arm x = d.arm x := fun x hx => by
      rw [hq]; exact Bank.read_write_other _ _ _ _ hx
    have harm := ended_arm (d.cancelPendings a false) a b u short
    have hbay := fun x => ended_bay (d.cancelPendings a false) a b x u short
    rw [harm0, Batch.lesson_core hcore] at harm
    simp only [hm0, ht0, hb0] at hbay
    have hrecord := Batch.finish_record hcore hlen (d.meter a).mirror d.time short rfl
    have hline : (u.finish (d.meter a).mirror d.time short).line = t.line := hrecord.2.1
    have hdel : (u.finish (d.meter a).mirror d.time short).delivered = t.delivered := hrecord.2.2.2.1
    rw [hl] at hlm hnotice hcalm ⊢
    simp only [armNotice_arm, armNotice_bay, harm, hbay, if_true] at hnotice ⊢
    refine ⟨trivial, fun x hx => (ended_arm_other hx).trans (hother x hx), fun v n hp hs hsh hn => ?_, fun hn => ?_,
      ⟨_, mem_insertEnded_self .., hrecord.1.trans ha, hrecord.2⟩, insertEnded_length .., insertEnded_sorted _, trivial,
      fun x hx => by rw [if_neg hx], fun o l p ho hlo hp => ?_, hnotice, hcalm.custody, hcalm.meters, hcalm.cw, hlm⟩
    · subst hsh hn
      rw [Batch.lesson_preset hp hs]
      exact ⟨rfl, rfl⟩
    · rw [Batch.lesson_none hn]
      exact ⟨rfl, rfl⟩
    · have ho' : ((d.cancelPendings a false).onArm a fun c => { (c.learn (u.lesson short)) with batch := none }).orderOf b = some o := by
        rw [← ho]
        show ((d.cancelPendings a false).bay b).order.bind (fun n => (d.cancelPendings a false).orders.find? fun o => o.number == n) = _
        rw [hb0, ho0]
        rfl
      have hlo' : o.lines[(u.finish (d.meter a).mirror d.time short).line]? = some l := by rw [hline]; exact hlo
      have hset := settleLine_order ho' hlo' hp
      rw [hline] at hset
      have haccounts : (d.cancelPendings a false).accounts = d.accounts := by rw [hq]; rfl
      refine ⟨?_, fun _ x hx => ⟨_, (settleLine_account ho' hlo' hp (haccounts ▸ hx) :), ?_⟩⟩
      · rw [← hset, ended, hm0, ht0]
        rfl
      · rw [hdel]
        exact account_charged ..
  · have h1 : d.loadTest b = d.closeLoad b := (loadTest_eq ho).1 h
    refine ⟨h1, ?_⟩
    rw [h1, closeLoad_of_none h.2.2, bayNotice_bay, onBay_bay_same]
    exact enterState_state ..

end Sys2Proof.Machine
end

