-- ==== Sys2Proof/Proofs/Starts.lean ====
section
/-! A START bid (R25 to R27, R45, R60, R69): which reason of Table 2-3 refuses it, and what an accepted one makes of the arm,
the bay and the order. -/

namespace Sys2Proof.Machine

open Sys2Proof

/-! ### The first reason of a list -/

theorem find?_cons_ite {α : Type} (p : α → Bool) (x : α) (l : List α) :
    (x :: l).find? p = if p x = true then some x else l.find? p := by
  rw [List.find?_cons]
  cases p x <;> rfl

/-! ### The line of a new batch (R26) -/

theorem chooseLineFrom_eq_none (code k : Nat) (l : List OrderLine) :
    chooseLineFrom code k l = none ↔ ∀ x ∈ l, x.batch = .notBatched → x.product ≠ code := by
  induction l generalizing k with
  | nil => simp [chooseLineFrom]
  | cons x t ih =>
    rw [chooseLineFrom, List.forall_mem_cons]
    split
    next h => simp [h.1, h.2]
    next h => rw [ih]; exact ⟨fun ht => ⟨fun h1 h2 => h ⟨h1, h2⟩, ht⟩, And.right⟩

theorem chooseLineFrom_eq_some {code k j : Nat} {l : List OrderLine} {x : OrderLine} (h : chooseLineFrom code k l = some (j, x)) :
    x.batch = .notBatched ∧ x.product = code := by
  induction l generalizing k with
  | nil => cases h
  | cons y t ih =>
    rw [chooseLineFrom] at h
    split at h
    next hy => cases h; exact hy
    next => exact ih h

namespace Device

theorem chooseLine_eq_none (d : Device) (b : BayId) (code : Nat) : d.chooseLine b code = none ↔
    ∀ o, d.orderOf b = some o → ∀ l ∈ o.lines, l.batch = .notBatched → l.product ≠ code := by
  simp only [chooseLine, Option.bind_eq_none_iff, chooseLineFrom_eq_none]

theorem chooseLine_eq_some {d : Device} {b : BayId} {code k : Nat} {l : OrderLine} (h : d.chooseLine b code = some (k, l)) :
    l.batch = .notBatched ∧ l.product = code := by
  obtain ⟨o, -, h⟩ := Option.bind_eq_some_iff.mp h
  exact chooseLineFrom_eq_some h

/-! ### Serving a recipe line (section 3.3, R45) -/

theorem servedBy_iff (d : Device) (a : ArmId) (code : Nat) (c : Chan) : d.servedBy a code = some c ↔
    ∃ r j, d.armRec a = some r ∧ r.additiveMap.find? (fun e => e.1 == code) = some (code, c) ∧ d.injRec c = some j ∧
      j.code = code ∧ (d.inj c).state = .available ∧ d.usable j.station .injector = true := by
  unfold servedBy
  constructor
  · intro h
    split at h
    next => cases h
    next r hr =>
      split at h
      next => cases h
      next n e hf =>
        obtain rfl : n = code := by simpa using List.find?_some hf
        split at h
        next => cases h
        next j hj =>
          simp only [Option.ite_none_right_eq_some, Bool.and_eq_true, decide_eq_true_eq, beq_iff_eq, Option.some.injEq] at h
          obtain ⟨⟨⟨h1, h2⟩, h3⟩, rfl⟩ := h
          exact ⟨r, j, hr, hf, hj, h2, h1, h3⟩
  · rintro ⟨r, j, hr, hf, hj, h2, h1, h3⟩
    simp [hr, hf, hj, h2, h1, h3]

/-- R45: the dosing records of a new batch stand in the order of the recipe's lines. -/
theorem openDosings_getElem? (d : Device) (a : ArmId) (k : Nat) (l : List RecipeLine) (j : Nat) :
    (d.openDosings a k l)[j]? = l[j]?.map (d.openDosing a (k + j)) := by
  induction l generalizing k j with
  | nil => rfl
  | cons x t ih =>
    cases j with
    | zero => rfl
    | succ j => rw [openDosings, List.getElem?_cons_succ, List.getElem?_cons_succ, ih, Nat.add_right_comm, Nat.add_assoc]

theorem openDosings_length (d : Device) (a : ArmId) (k : Nat) (l : List RecipeLine) : (d.openDosings a k l).length = l.length := by
  induction l generalizing k with
  | nil => rfl
  | cons x t ih => rw [openDosings, List.length_cons, List.length_cons, ih]

theorem openDosing_acc {d : Device} {a : ArmId} {k : Nat} {l : RecipeLine} {c : Chan} {q : InjectorRec}
    (hc : d.servedBy a l.code = some c) (hq : d.injRec c = some q) : (d.openDosing a k l).acc = q.shot * 100000000 / 2 := by
  simp [openDosing, hc, hq]

/-! ### The reasons of Table 2-3 -/

/-- Table 2-3 as tests: whether each reason refuses a START, as the model asks it. -/
def startTest (d : Device) (b : BayId) (a : ArmId) (t : Option Batch) : Display → Bool
  | .esd => d.latched
  | .permissive => !(d.bay b).ground || !(d.bay b).overfill
  | .armNotReady => !d.armReady a
  | .sealOpen => d.sealOpenAt a
  | .totalizerFault => t.isNone && (d.arm a).totFault
  | .coupler => (d.arm a).coupler ≠ .latched
  | .noLine => t.isNone && decide (((d.armRec a).bind fun r => d.chooseLine b r.product) = none)
  | .additiveUnavailable => match t with
    | none => d.newUnserved a
    | some t => d.resumeUnserved t
  | _ => false

theorem newRefusal_eq (d : Device) (b : BayId) (a : ArmId) : d.newRefusal b a = startReasons.find? (d.startTest b a none) := by
  simp only [startReasons, find?_cons_ite, startTest, List.find?_nil, Option.isNone_none, Bool.true_and, decide_eq_true_eq,
    newRefusal]
  congr

theorem resumeRefusal_eq (d : Device) (b : BayId) (a : ArmId) (t : Batch) :
    d.resumeRefusal b a t = startReasons.find? (d.startTest b a (some t)) := by
  simp only [startReasons, find?_cons_ite, startTest, List.find?_nil, Option.isNone_some, Bool.false_and, Bool.false_eq_true,
    if_false, decide_eq_true_eq, resumeRefusal]
  congr

theorem armReady_iff (d : Device) (a : ArmId) : d.armReady a = true ↔ ∃ r, d.armRec a = some r ∧ r.inService = true ∧
    2 ≤ r.curve.length ∧ (d.productOf r.product).isSome = true ∧ d.usable r.meter .meter = true ∧
    d.usable r.valve .valve = true ∧ (r.temp ≠ 0 → d.usable r.temp .temp = true) ∧ (d.arm a).position = .closed := by
  unfold armReady
  cases d.armRec a with
  | none => simp
  | some r => simp [and_assoc, or_iff_not_imp_left]

theorem sealOpenAt_iff (d : Device) (a : ArmId) : d.sealOpenAt a = true ↔ ∃ r, d.armRec a = some r ∧
    (d.station r.meter).isKind .meter = true ∧ ∃ w, (d.station r.meter).word = some w ∧ w.getLsbD 1 = true := by
  unfold sealOpenAt
  cases d.armRec a with
  | none => simp
  | some r => cases h : (d.station r.meter).word <;> simp [Station.sealOpen, h]

theorem newUnserved_iff (d : Device) (a : ArmId) : d.newUnserved a = true ↔ ∃ r i p, d.armRec a = some r ∧
    d.productOf r.product = some (i, p) ∧ ∃ x ∈ p.recipe, x.action = .stop ∧ d.servedBy a x.code = none := by
  unfold newUnserved
  cases d.armRec a with
  | none => simp
  | some r =>
    cases h : d.productOf r.product with
    | none => simp [h]
    | some q => obtain ⟨i, p⟩ := q; simp [stopLineUnserved, h]

theorem resumeUnserved_iff (d : Device) (t : Batch) : d.resumeUnserved t = true ↔
    ∃ x ∈ t.dosing, x.dosed = true ∧ x.action = .stop ∧ d.servedBy t.arm x.code = none := by
  simp [resumeUnserved, and_assoc]

/-- Each test asks whether its reason holds. -/
theorem startTest_iff (d : Device) (b : BayId) (a : ArmId) (t : Option Batch) (c : Display) :
    d.startTest b a t c = true ↔ d.startFails b a t c := by
  cases c with
  | esd => simp [startTest, startFails, latched]
  | permissive => simp [startTest, startFails]
  | armNotReady =>
    rw [startTest, startFails, Bool.not_eq_true', ← Bool.not_eq_true, armReady_iff]
    simp only [not_exists, not_and_or, Classical.not_imp, Bool.not_eq_true, Option.isSome_eq_false_iff, Option.isNone_iff_eq_none,
      Nat.not_le]
    exact forall_congr' fun r => imp_iff_not_or.symm
  | sealOpen => exact sealOpenAt_iff d a
  | totalizerFault => simp [startTest, startFails]
  | coupler => simp [startTest, startFails]
  | noLine =>
    simp only [startTest, startFails, Bool.and_eq_true, Option.isNone_iff_eq_none, decide_eq_true_eq, Option.bind_eq_none_iff,
      chooseLine_eq_none]
    exact and_congr_right fun _ => ⟨fun h r o hr => h r hr o, fun h r hr o => h r o hr⟩
  | additiveUnavailable =>
    cases t with
    | none => exact newUnserved_iff d a
    | some t => exact resumeUnserved_iff d t
  | _ => simp [startTest, startFails]

/-- R25: the first reason whose test succeeds is the first that holds. -/
theorem firstReason_find? (d : Device) (b : BayId) (a : ArmId) (t : Option Batch) :
    d.firstReason b a t (startReasons.find? (d.startTest b a t)) := by
  cases h : startReasons.find? (d.startTest b a t) with
  | none => exact fun c hc hf => List.find?_eq_none.mp h c hc ((startTest_iff ..).mpr hf)
  | some c =>
    obtain ⟨hc, l, r, hl, hbefore⟩ := List.find?_eq_some_iff_append.mp h
    exact ⟨l, r, hl, (startTest_iff ..).mp hc, fun x hx hf => absurd ((startTest_iff ..).mpr hf) (by simpa using hbefore x hx)⟩

theorem newRefusal_firstReason (d : Device) (b : BayId) (a : ArmId) : d.firstReason b a none (d.newRefusal b a) :=
  newRefusal_eq d b a ▸ firstReason_find? d b a none

theorem resumeRefusal_firstReason (d : Device) (b : BayId) (a : ArmId) (t : Batch) :
    d.firstReason b a (some t) (d.resumeRefusal b a t) :=
  resumeRefusal_eq d b a t ▸ firstReason_find? d b a (some t)

/-- A panel message is no part of any test of a START. -/
theorem startTest_showMessage (d : Device) (b : BayId) (m : Option Display) (a : ArmId) (t : Option Batch) :
    (d.showMessage b m).startTest b a t = d.startTest b a t := by
  have hbay : (d.showMessage b m).bay b = { d.bay b with message := m } := onBay_bay_same ..
  have horder : (d.showMessage b m).orderOf b = d.orderOf b := by rw [orderOf, hbay]; rfl
  have hline : (d.showMessage b m).chooseLine b = d.chooseLine b := by funext n; rw [chooseLine, horder]; rfl
  funext c
  cases c with
  | permissive => rw [startTest, hbay]; rfl
  | noLine => rw [startTest, hline]; rfl
  | _ => rfl

/-! ### What an accepted START changes (R26, R27, R69) -/

theorem showMessage_bay (d : Device) (b : BayId) (m : Option Display) : (d.showMessage b m).bay b = { d.bay b with message := m } :=
  onBay_bay_same ..

theorem showMessage_bay_other {d : Device} {b x : BayId} (m : Option Display) (h : x ≠ b) : (d.showMessage b m).bay x = d.bay x :=
  onBay_bay_other _ _ _ _ h

theorem showMessage_showMessage (d : Device) (b : BayId) (m n : Option Display) :
    (d.showMessage b m).showMessage b n = d.showMessage b n := onBay_onBay ..

theorem showMessage_orderOf (d : Device) (b : BayId) (m : Option Display) : (d.showMessage b m).orderOf b = d.orderOf b := by
  rw [orderOf, showMessage_bay]
  rfl

theorem showMessage_chooseLine (d : Device) (b : BayId) (m : Option Display) :
    (d.showMessage b m).chooseLine b = d.chooseLine b := by
  funext n
  rw [chooseLine, showMessage_orderOf]
  rfl

/-- The order of a bay after a change of the order it names. -/
theorem onOrder_orderOf {d : Device} {b : BayId} {n : Nat} (hn : (d.bay b).order = some n) (f : Order → Order)
    (hf : ∀ o, (f o).number = o.number) : (d.onOrder n f).orderOf b = (d.orderOf b).map f := by
  show (d.bay b).order.bind (d.onOrder n f).orderNumbered = ((d.bay b).order.bind d.orderNumbered).map f
  rw [hn]
  exact orderNumbered_onOrder d n f hf

theorem acceptBatch_rest (d : Device) (b : BayId) (a : ArmId) (k : Nat) (l : OrderLine) (p : Product) :
    { d with arms := Bank.write d.arms a { d.arm a with batch := some (d.newBatch a k l p), zeroFlow := 0 },
             orders := (d.acceptBatch b a k l p).orders, mp := (d.acceptBatch b a k l p).mp } = d.acceptBatch b a k l p := by
  unfold acceptBatch
  dsimp only
  split <;> rfl

theorem acceptBatch_arm (d : Device) (b : BayId) (a : ArmId) (k : Nat) (l : OrderLine) (p : Product) (x : ArmId) :
    (d.acceptBatch b a k l p).arm x =
      if x = a then { d.arm a with batch := some (d.newBatch a k l p), zeroFlow := 0 } else d.arm x := by
  rw [← acceptBatch_rest]
  exact Bank.read_write ..

theorem acceptBatch_bay (d : Device) (b : BayId) (a : ArmId) (k : Nat) (l : OrderLine) (p : Product) (x : BayId) :
    (d.acceptBatch b a k l p).bay x = d.bay x := by rw [← acceptBatch_rest]; rfl

theorem acceptBatch_orderOf {d : Device} {b : BayId} {a : ArmId} {k : Nat} {l : OrderLine} {p : Product} :
    (d.acceptBatch b a k l p).orderOf b = (d.orderOf b).map fun o => o.onLine k fun x => { x with batch := .opened } := by
  unfold acceptBatch
  dsimp only
  split
  next n hn => exact onOrder_orderOf (d := d.onArm a _) hn _ fun _ => by rfl
  next hn =>
    show (d.bay b).order.bind d.orderNumbered = ((d.bay b).order.bind d.orderNumbered).map _
    rw [hn]
    rfl

theorem loadStarted_rest (d : Device) (b : BayId) :
    { d with bays := (d.loadStarted b).bays, orders := (d.loadStarted b).orders, mp := (d.loadStarted b).mp } =
      d.loadStarted b := by
  unfold loadStarted
  dsimp only
  split
  · split <;> rfl
  · rfl

/-- R69: an AUTHORIZED bay becomes LOADING, its timer stopped and its message cleared; another bay stays as it is. -/
theorem loadStarted_bay (d : Device) (b : BayId) : (d.loadStarted b).bay b = if (d.bay b).state = .authorized then
    { d.bay b with state := .loading, message := none, authTimer := .stopped } else d.bay b := by
  have h1 (h : (d.bay b).state = .authorized) :
      ((d.enterState b .loading).onBay b fun r => { r with authTimer := .stopped }).bay b =
        { d.bay b with state := .loading, message := none, authTimer := .stopped } := by
    rw [enterState_eq d b .loading (by rw [h]; decide), onBay_onBay, onBay_bay_same]
  unfold loadStarted
  dsimp only
  split
  next h => split <;> exact h1 h
  next => rfl

theorem loadStarted_bay_other {d : Device} {b x : BayId} (h : x ≠ b) : (d.loadStarted b).bay x = d.bay x := by
  have h1 : ((d.enterState b .loading).onBay b fun r => { r with authTimer := .stopped }).bay x = d.bay x := by
    rw [onBay_bay_other _ _ _ _ h, enterState_bay_other _ _ _ _ h]
  unfold loadStarted
  dsimp only
  split
  · split <;> exact h1
  · rfl

theorem loadStarted_orderOf (d : Device) (b : BayId) : (d.loadStarted b).orderOf b =
    (d.orderOf b).map fun o => { o with state := if (d.bay b).state = .authorized then .loading else o.state } := by
  unfold loadStarted
  dsimp only
  split
  next h =>
    have hbay : ((d.enterState b .loading).onBay b fun r => { r with authTimer := .stopped }).bay b =
        { d.bay b with state := .loading, message := none, authTimer := .stopped } := by
      rw [enterState_eq d b .loading (by rw [h]; decide), onBay_onBay, onBay_bay_same]
    have horder : ((d.enterState b .loading).onBay b fun r => { r with authTimer := .stopped }).orderOf b = d.orderOf b := by
      rw [orderOf, hbay]
      rfl
    rw [← horder]
    split
    next n hn =>
      have hn' : (((d.enterState b .loading).onBay b fun r => { r with authTimer := .stopped }).bay b).order = some n := by
        rw [hbay]; exact hn
      exact onOrder_orderOf hn' _ fun _ => by rfl
    next hn =>
      have hnone : ((d.enterState b .loading).onBay b fun r => { r with authTimer := .stopped }).orderOf b = none := by
        rw [horder, orderOf, hn]; rfl
      exact hnone.trans (by rw [hnone]; rfl)
  next => simp

/-- R27, R60: a resumed batch is in START, its snapshot and its close marks gone. -/
theorem resumeBatch_arm (d : Device) (a : ArmId) (t : Batch) : (d.resumeBatch a t).arm a = { d.arm a with
    batch := some { t with
      phase := .start, snapshot := none, dosing := t.dosing.map fun x => { x with closeMark := false } } } :=
  Bank.read_write_same ..

/-! ### A START by the bay's state and the arm's batch (R25, R69) -/

theorem startBid_closed {d : Device} {b : BayId} (a : ArmId) (h : (d.bay b).state = .closed) : d.startBid b a = d := if_pos h

/-- R69: a bay LOADING or AUTHORIZED forwards the START of one of its arms, its message cleared. -/
theorem startBid_forwards {d : Device} {b : BayId} {a : ArmId} (hb : d.bayOfArm a = some b)
    (hs : (d.bay b).state = .authorized ∨ (d.bay b).state = .loading) :
    d.startBid b a = (d.showMessage b none).forwardStart b a := by
  unfold startBid
  rcases hs with hs | hs <;> simp [hb, hs]

theorem newRefusal_showMessage (d : Device) (b : BayId) (m : Option Display) (a : ArmId) :
    (d.showMessage b m).newRefusal b a = d.newRefusal b a := by
  rw [newRefusal_eq, newRefusal_eq, startTest_showMessage]

theorem resumeRefusal_showMessage (d : Device) (b : BayId) (m : Option Display) (a : ArmId) (t : Batch) :
    (d.showMessage b m).resumeRefusal b a t = d.resumeRefusal b a t := by
  rw [resumeRefusal_eq, resumeRefusal_eq, startTest_showMessage]

theorem forwardStart_none {d : Device} {b : BayId} {a : ArmId} (h : (d.arm a).batch = none) :
    d.forwardStart b a = d.startNew b a := by
  unfold forwardStart
  rw [h]

theorem forwardStart_some {d : Device} {b : BayId} {a : ArmId} {t : Batch} (h : (d.arm a).batch = some t) :
    d.forwardStart b a = d.startOld b a t := by
  unfold forwardStart
  rw [h]

theorem startNew_refused {d : Device} {b : BayId} {a : ArmId} {c : Display} (h : d.newRefusal b a = some c) :
    d.startNew b a = d.refuseStart b a c := by
  unfold startNew
  rw [h]

theorem startNew_accepted {d : Device} {b : BayId} {a : ArmId} {r : ArmRecord} {k : Nat} {l : OrderLine} {i : ProdIdx}
    {p : Product} (h : d.newRefusal b a = none) (hr : d.armRec a = some r) (hl : d.chooseLine b r.product = some (k, l))
    (hp : d.productOf r.product = some (i, p)) : d.startNew b a = (d.acceptBatch b a k l p).loadStarted b := by
  unfold startNew
  simp only [h, hr, hl, hp]

theorem startOld_refused {d : Device} {b : BayId} {a : ArmId} {t : Batch} {c : Display} (hi : t.phase = .interrupted)
    (h : d.resumeRefusal b a t = some c) : d.startOld b a t = d.refuseStart b a c := by
  unfold startOld
  rw [if_pos hi, h]

theorem startOld_accepted {d : Device} {b : BayId} {a : ArmId} {t : Batch} (hi : t.phase = .interrupted)
    (h : d.resumeRefusal b a t = none) : d.startOld b a t = d.resumeBatch a t := by
  unfold startOld
  rw [if_pos hi, h]

theorem startOld_ignored {d : Device} {b : BayId} {a : ArmId} {t : Batch} (h : t.phase ≠ .interrupted) :
    d.startOld b a t = d := if_neg h

/-- R69: the answer of a bay state that forwards no START. -/
theorem startBid_stays {d : Device} {b : BayId} {a : ArmId} (hb : d.bayOfArm a = some b) :
    ((d.bay b).state = .idle → d.startBid b a = (d.showMessage b (some .noOrder)).bayNotice b 4 [octets 1 15]) ∧
    ((d.bay b).state = .holding ∨ (d.bay b).state = .held → d.startBid b a = d.showMessage b (some .hold)) ∧
    ((d.bay b).state = .tripped →
      d.startBid b a = d.showMessage b (some (if (d.bay b).lockout then .lockout else .trip))) ∧
    ((d.bay b).state = .closing ∨ (d.bay b).state = .noteCommit → d.startBid b a = d.showMessage b none) := by
  unfold startBid
  dsimp only
  rw [if_neg (not_not.mpr hb)]
  refine ⟨fun h => ?_, fun h => ?_, fun h => ?_, fun h => ?_⟩
  · simp only [h, reduceCtorEq, if_false, showMessage_showMessage]
    rfl
  · rcases h with h | h <;> simp only [h, reduceCtorEq, if_false, showMessage_showMessage]
  · simp only [h, reduceCtorEq, if_false, showMessage_showMessage]
  · rcases h with h | h <;> simp only [h, reduceCtorEq, if_false]

/-- R25: a refused START shows its reason and reports it. -/
theorem refuseStart_showMessage (d : Device) (b : BayId) (m : Option Display) (a : ArmId) (c : Display) :
    (d.showMessage b m).refuseStart b a c =
      (d.showMessage b (some c)).raise .arm (.arm a) 1 [octets 1 a.val, octets 1 c.code] := by
  rw [refuseStart, showMessage_showMessage]
  rfl

/-- R25, Table 2-3: what holds where no reason refuses the start of a new batch. -/
theorem ready_of_newRefusal {d : Device} {b : BayId} {a : ArmId} (h : d.newRefusal b a = none) :
    d.lu.esd = false ∧ d.lu.powerfail = false ∧ (d.bay b).ground = true ∧ (d.bay b).overfill = true ∧
    d.sealOpenAt a = false ∧ (d.arm a).totFault = false ∧ (d.arm a).coupler = .latched ∧ (d.arm a).position = .closed ∧
    ∃ r, d.armRec a = some r ∧ r.inService = true ∧ 2 ≤ r.curve.length ∧ d.usable r.meter .meter = true ∧
      d.usable r.valve .valve = true ∧ (r.temp ≠ 0 → d.usable r.temp .temp = true) ∧
      (∃ k l, d.chooseLine b r.product = some (k, l) ∧ l.batch = .notBatched ∧ l.product = r.product) ∧
      ∃ i p, d.productOf r.product = some (i, p) ∧
        ∀ x ∈ p.recipe, x.action = .stop → (d.servedBy a x.code).isSome = true := by
  rw [newRefusal_eq, List.find?_eq_none] at h
  simp only [startReasons, List.forall_mem_cons, startTest, Bool.not_eq_true, Bool.or_eq_false_iff, Bool.not_eq_false',
    Option.isNone_none, Bool.true_and, decide_eq_false_iff_not, not_not, latched_eq_false] at h
  obtain ⟨⟨hesd, hpf⟩, ⟨hg, ho⟩, hready, hseal, htot, hcoupler, hline, hserved, -⟩ := h
  obtain ⟨r, hr, h1, h2, h3, h4, h5, h6, h7⟩ := (armReady_iff d a).mp hready
  obtain ⟨⟨i, p⟩, hp⟩ := Option.isSome_iff_exists.mp h3
  rw [hr, Option.bind_some] at hline
  obtain ⟨⟨k, l⟩, hl⟩ := Option.ne_none_iff_exists'.mp hline
  refine ⟨hesd, hpf, hg, ho, hseal, htot, hcoupler, h7, r, hr, h1, h2, h4, h5, h6, ⟨k, l, hl, chooseLine_eq_some hl⟩, i, p, hp,
    fun x hx hs => ?_⟩
  by_contra hno
  have hun : d.newUnserved a = true := (newUnserved_iff d a).mpr ⟨r, i, p, hr, hp, x, hx, hs, by simpa using hno⟩
  rw [hserved] at hun
  cases hun

end Device

open Device in
/-- Settles O33: the bay's states one by one, then a forwarded START by the arm's batch and its refusal. -/
theorem startBids : Obligations.StartBids := by
  intro d b a
  refine ⟨startBid_closed a, fun hs hb => ?_, fun hb => ?_, fun hb hs => ?_, ready_of_newRefusal, newRefusal_firstReason d b a,
    resumeRefusal_firstReason d b a, servedBy_iff d a, rfl⟩
  · rw [startBid, if_neg hs, if_pos hb, showMessage_showMessage]
    rfl
  · obtain ⟨h1, h2, h3, h4⟩ := startBid_stays hb
    exact ⟨h1, fun h => h2 (by simpa using h), h3, fun h => h4 (by simpa using h)⟩
  · rw [startBid_forwards hb (by simpa using hs)]
    refine ⟨fun t ht hi => ?_, fun c h => ?_, fun t e ht hi hn he => ?_, fun r k l i p e ht hn hr hl hp he => ?_⟩
    · rw [forwardStart_some (d := d.showMessage b none) ht, startOld_ignored hi]
      rfl
    · rcases h with ⟨ht, hc⟩ | ⟨t, ht, hi, hc⟩
      · rw [forwardStart_none (d := d.showMessage b none) ht, startNew_refused ((newRefusal_showMessage ..).trans hc)]
        exact refuseStart_showMessage ..
      · rw [forwardStart_some (d := d.showMessage b none) ht, startOld_refused hi ((resumeRefusal_showMessage ..).trans hc)]
        exact refuseStart_showMessage ..
    · rw [forwardStart_some (d := d.showMessage b none) ht, startOld_accepted hi ((resumeRefusal_showMessage ..).trans hn)] at he
      subst he
      exact ⟨resumeBatch_arm .., showMessage_bay .., fun x hx => Bank.read_write_other _ _ _ _ hx,
        fun x hx => showMessage_bay_other _ hx, rfl, rfl, rfl, rfl, rfl⟩
    · rw [forwardStart_none (d := d.showMessage b none) ht, startNew_accepted (d := d.showMessage b none)
        ((newRefusal_showMessage ..).trans hn) hr ((congrFun (showMessage_chooseLine d b none) r.product).trans hl) hp] at he
      subst he
      have harm : ∀ x, (((d.showMessage b none).acceptBatch b a k l p).loadStarted b).arm x =
          ((d.showMessage b none).acceptBatch b a k l p).arm x := fun x => by rw [← loadStarted_rest]; rfl
      refine ⟨⟨(d.showMessage b none).newBatch a k l p, ?_, rfl, rfl, rfl, rfl, rfl, rfl, rfl, rfl, rfl, rfl, rfl, rfl, rfl, rfl,
        rfl, rfl, rfl, openDosings_length .., rfl, fun j y hy => ?_⟩, ?_, fun o ho => ?_, fun x hx => ?_, fun x hx => ?_, ?_⟩
      · rw [harm, acceptBatch_arm, if_pos rfl]
        rfl
      · refine ⟨(d.showMessage b none).openDosing a (0 + j) y, ?_, Nat.zero_add j, rfl, rfl, rfl, rfl, rfl, rfl, rfl,
          fun c q hc hq => openDosing_acc hc hq⟩
        exact (openDosings_getElem? ..).trans (by rw [hy]; rfl)
      · rw [loadStarted_bay, acceptBatch_bay, showMessage_bay]
        rcases (by simpa using hs : (d.bay b).state = .authorized ∨ (d.bay b).state = .loading) with hs | hs <;> simp [hs]
      · rw [loadStarted_orderOf, acceptBatch_orderOf, acceptBatch_bay, showMessage_orderOf, showMessage_bay, ho]
        rfl
      · rw [harm, acceptBatch_arm, if_neg hx]
        rfl
      · rw [loadStarted_bay_other hx, acceptBatch_bay, showMessage_bay_other _ hx]
      · rw [← loadStarted_rest, ← acceptBatch_rest]
        exact ⟨rfl, rfl, rfl, rfl, rfl⟩

end Sys2Proof.Machine
end

