-- ==== Sys2Proof/Proofs/Bids.lean ====
section
/-! The bids beyond START (R30, R58, R70) and the event slot they come in (R155 to R157). -/

namespace Sys2Proof.Machine

open Sys2Proof

namespace Device

/-! ### Records under an offer (R49) -/

/-- R45: the dosing record of an open batch, by its recipe line. -/
theorem dose_open {d : Device} {a : ArmId} {t : Batch} (ht : (d.arm a).batch = some t) (ha : t.arm = a) (k : Nat) :
    d.dose ⟨a, t.line, k⟩ = t.dosing.find? fun x => x.recipe == k := by
  rw [dose, doseBatch, if_pos (refOpen_iff ht ha k), ht]
  rfl

theorem underOffer_le_one (d : Device) (r : DoseRef) : d.underOffer r ≤ 1 := by
  unfold underOffer
  split
  · exact Nat.zero_le 1
  · split
    · exact Nat.zero_le 1
    · split <;> decide

theorem underOffer_of_none {d : Device} {r : DoseRef} (h : ∀ c, (d.inj c).offers r = false) : d.underOffer r = 0 := by
  unfold underOffer
  split
  · rfl
  · split
    · rfl
    · rw [h]
      rfl

theorem underOffer_offered {d : Device} {r : DoseRef} {y : Dosing} {c : Chan} (hy : d.dose r = some y) (hc : y.injector = some c)
    (ho : (d.inj c).offers r = true) : d.underOffer r = 1 := by
  unfold underOffer
  simp only [hy, hc, ho, if_true]

theorem underOffer_congr {d e : Device} {r : DoseRef} (hd : e.dose r = d.dose r) (hi : e.injs = d.injs) :
    e.underOffer r = d.underOffer r := by
  unfold underOffer inj
  rw [hd, hi]

end Device

/-! ### STOP (R30, R58) -/

/-- R30: a batch stopped, before its close is told to DU. -/
def Batch.stopped (t : Batch) : Batch := { t with phase := .closeWait, snapshot := some (t.volume, .stop) }

namespace Device

/-- R30, R31: the arm with its batch `t` stopped, before the close is told to DU. -/
def stopping (d : Device) (a : ArmId) (t : Batch) : Device := d.onArm a fun c => { c with zeroFlow := 0, batch := some t.stopped }

theorem stopping_arm (d : Device) (a : ArmId) (t : Batch) :
    (d.stopping a t).arm a = { d.arm a with zeroFlow := 0, batch := some t.stopped } := onArm_arm_same ..

/-- A stop commands no other offer than those that stood. -/
theorem stopping_underOffer {d : Device} {a : ArmId} {t : Batch} (ht : (d.arm a).batch = some t) (ha : t.arm = a) (k : Nat) :
    (d.stopping a t).underOffer ⟨a, t.line, k⟩ = d.underOffer ⟨a, t.line, k⟩ := by
  refine underOffer_congr ?_ rfl
  rw [dose_open ht ha]
  exact dose_open (t := t.stopped) (congrArg ArmCtl.batch (stopping_arm d a t)) ha k

theorem stopBatch_flowing {d : Device} {a : ArmId} {t : Batch} (ht : (d.arm a).batch = some t) (hf : t.phase.flowing = true) :
    d.stopBatch a = (d.stopping a t).cancelPendings a true := by
  unfold stopBatch
  simp only [ht, hf, if_true]
  rfl

theorem stopBatch_still {d : Device} {a : ArmId} (h : ∀ t, (d.arm a).batch = some t → t.phase.flowing = false) :
    d.stopBatch a = d := by
  unfold stopBatch
  split
  next => rfl
  next t ht => rw [h t ht]; rfl

/-- R30, R58: the arm's flowing batch after a stop. -/
theorem stopBatch_arm {d : Device} {a : ArmId} {t : Batch} (ht : (d.arm a).batch = some t) (ha : t.arm = a)
    (hf : t.phase.flowing = true) : (d.stopBatch a).arm a = { d.arm a with
      zeroFlow := 0, batch := some (t.stopped.closeTold true fun k => d.underOffer ⟨a, t.line, k⟩).throttleClear } := by
  have harm := cancelPendings_arm (t := t.stopped) (congrArg ArmCtl.batch (stopping_arm d a t)) ha true
  have hoff : (fun k => (d.stopping a t).underOffer ⟨a, t.stopped.line, k⟩) = fun k => d.underOffer ⟨a, t.line, k⟩ :=
    funext fun k => stopping_underOffer ht ha k
  rw [stopBatch_flowing ht hf, harm, stopping_arm, hoff]

/-- R30, R58: a stop changes the arm and the fates of offers. -/
theorem stopBatch_rest {d : Device} {a : ArmId} {t : Batch} (ht : (d.arm a).batch = some t) (ha : t.arm = a)
    (hf : t.phase.flowing = true) : ∃ q f, d.stopBatch a = { d.onArm a f with injs := q } := by
  obtain ⟨q, hq⟩ := cancelPendings_open (t := t.stopped) (congrArg ArmCtl.batch (stopping_arm d a t)) ha true
  rw [stopBatch_flowing ht hf, hq, stopping, onArm_onArm]
  exact ⟨q, _, rfl⟩

end Device

/-- R58: a DOSED record after the stop of its batch: nothing of it stays pending but a shot under an offer. -/
theorem Batch.closeTold_dosed {t : Batch} {off : Nat → Nat} {j : Nat} {y : Dosing} (hy : t.dosing[j]? = some y)
    (hd : y.dosed = true) : (t.closeTold true off).dosing[j]? = some (y.cancelPending true (off y.recipe)) := by
  show (t.dosing.map _)[j]? = _
  rw [List.getElem?_map, hy, Option.map_some, if_pos (mem_dosedLines (List.mem_of_getElem? hy) hd)]

namespace Device

theorem stopBid_ignored {d : Device} {b : BayId} {a : ArmId} (hc : (d.bay b).state ≠ .closed)
    (h : (d.bay b).state ≠ .loading ∨ d.bayOfArm a ≠ some b ∨ ∀ t, (d.arm a).batch = some t → t.phase.flowing = false) :
    d.stopBid b a = d.showMessage b none := by
  unfold stopBid
  dsimp only
  rw [if_neg hc]
  split
  next hl =>
    obtain ⟨hs, hb⟩ := hl
    exact stopBatch_still ((h.resolve_left (absurd hs)).resolve_left (absurd hb))
  next => rfl

theorem stopBid_stops {d : Device} {b : BayId} {a : ArmId} (hs : (d.bay b).state = .loading) (hb : d.bayOfArm a = some b) :
    d.stopBid b a = (d.showMessage b none).stopBatch a := by
  unfold stopBid
  dsimp only
  rw [if_neg (by rw [hs]; decide), if_pos ⟨hs, hb⟩]

/-! ### FINISH (R70) -/

theorem finishBid_done {d e : Device} {b : BayId} (hc : (d.bay b).state ≠ .closed)
    (h : (d.showMessage b none).finishLoad b .finish = some e) : d.finishBid b = e := by
  unfold finishBid
  dsimp only
  rw [if_neg hc, h]

theorem finishBid_nothing {d : Device} {b : BayId} (hc : (d.bay b).state ≠ .closed)
    (h : (d.showMessage b none).finishLoad b .finish = none) : d.finishBid b =
      if (d.bay b).state = .tripped ∧ (d.bay b).lockout = true then d.showMessage b (some .lockout) else d.showMessage b none := by
  unfold finishBid
  dsimp only
  rw [if_neg hc, h, showMessage_showMessage]

/-- R70: what a FINISH does by the bay's state. -/
theorem finishLoad_cases (d : Device) (b : BayId) (c : WithdrawCause) :
    (((d.bay b).state = .authorized ∨ ((d.bay b).state = .held ∧ (d.bay b).before = some .authorized)) →
      d.finishLoad b c = some (d.withdraw b c)) ∧
    (((d.bay b).state ∈ [.loading, .holding] ∨ ((d.bay b).state = .held ∧ (d.bay b).before = some .loading) ∨
      ((d.bay b).state = .tripped ∧ (d.bay b).lockout = false)) → d.finishLoad b c = some (d.closeLoad b)) ∧
    (((d.bay b).state ∈ [.closed, .idle, .closing, .noteCommit] ∨
      ((d.bay b).state = .held ∧ ((d.bay b).before = some .idle ∨ (d.bay b).before = none)) ∨
      ((d.bay b).state = .tripped ∧ (d.bay b).lockout = true)) → d.finishLoad b c = none) := by
  unfold finishLoad
  refine ⟨fun h => ?_, fun h => ?_, fun h => ?_⟩
  · rcases h with h | ⟨h, hb⟩ <;> simp only [*]
  · simp only [List.mem_cons, List.not_mem_nil, or_false] at h
    rcases h with (h | h) | ⟨h, hb⟩ | ⟨h, hl⟩ <;> simp [*]
  · simp only [List.mem_cons, List.not_mem_nil, or_false] at h
    rcases h with (h | h | h | h) | ⟨h, hb | hb⟩ | ⟨h, hl⟩ <;> simp [*]

/-! ### The event slot (R155 to R157) -/

theorem eventSlot_error {d : Device} {sl : List Byte} (h : crc8 (sl.take 7) ≠ octetAt sl 7 ∨
    ((octetAt sl 0).toNat / 32 ≠ 0 ∧ (octetAt sl 0).toNat % 32 = 0)) :
    d.eventSlot sl = d.onLm fun l => { l with eventErrors := min 65535 (l.eventErrors + 1), clearFlag := false } := by
  unfold eventSlot
  split
  next => rfl
  next hc =>
    obtain ⟨hk, h0⟩ := h.resolve_left hc
    rw [if_neg hk, h0]
    rfl

theorem eventSlot_bid {d : Device} {sl : List Byte} {n : Addr} (hc : crc8 (sl.take 7) = octetAt sl 7)
    (hk : (octetAt sl 0).toNat / 32 ≠ 0) (hn : (octetAt sl 0).toNat % 32 = n.val) (h0 : n ≠ 0) :
    d.eventSlot sl = (d.setClear false).dispatchBid n sl := by
  have hfin : toFin 32 ((octetAt sl 0).toNat % 32) = some n := by
    rw [toFin, dif_pos (by omega)]
    exact congrArg some (Fin.ext hn)
  unfold eventSlot
  rw [if_neg (not_not.mpr hc), if_neg hk, hfin]
  exact if_neg h0

theorem dispatchBid_error {d : Device} {n : Addr} {sl : List Byte} {x : BidDiscard} (h : d.checkBid n (readBid sl) = .error x) :
    d.dispatchBid n sl = d.stationNotice n 6 [octets 1 x.code, octets 1 ((octetAt sl 0).toNat / 32)] := by
  unfold dispatchBid
  rw [h]

theorem dispatchBid_ok {d : Device} {n : Addr} {sl : List Byte} {b : BayId} {x : Bid} (h : d.checkBid n (readBid sl) = .ok (b, x)) :
    d.dispatchBid n sl = d.takeBid b x := by
  unfold dispatchBid
  rw [h]

/-- R157: the reasons for which a bid is discarded, in their order, and the bay of one that is not. -/
theorem checkBid_cases (d : Device) (n : Addr) (o : Option Bid) :
    ((d.station n).isKind .panel = false → d.checkBid n o = .error .notPanel) ∧
    ((d.station n).isKind .panel = true →
      ((((d.station n).state ≠ .active ∧ (d.station n).state ≠ .slipped) ∨ (d.station n).faulty = true) →
        d.checkBid n o = .error .notActive) ∧
      ((d.station n).state = .active ∨ (d.station n).state = .slipped → (d.station n).faulty = false →
        (d.bayOfPanel n = none → d.checkBid n o = .error .noBay) ∧
        ∀ b, d.bayOfPanel n = some b → (o = none → d.checkBid n o = .error .badBid) ∧
          ∀ x, o = some x → d.checkBid n o = .ok (b, x))) := by
  unfold checkBid
  dsimp only
  refine ⟨fun h => by rw [h]; rfl, fun hk => ?_⟩
  rw [hk]
  refine ⟨fun h => if_pos h, fun hs hf => ?_⟩
  have hgood : ¬ (((d.station n).state ≠ .active ∧ (d.station n).state ≠ .slipped) ∨ (d.station n).faulty = true) := by
    rw [hf]; tauto
  rw [Bool.not_true, if_neg Bool.false_ne_true, if_neg hgood]
  refine ⟨fun h => by rw [h], fun b h => ⟨fun ho => by rw [h, ho], fun x ho => by rw [h, ho]⟩⟩

end Device

open Device in
/-- Settles O34: STOP by what becomes of each dosing record, FINISH by the bay's state, the event slot and the bid in it. -/
theorem bidsBeyondStart : Obligations.BidsBeyondStart := by
  refine ⟨fun d b a => ⟨fun h => ⟨if_pos h, if_pos h⟩, ?_, fun hc h => stopBid_ignored hc h, ?_⟩, fun d sl _ =>
    ⟨eventSlot_error, fun hc hk => ?_, fun n hc hk hn h0 => eventSlot_bid hc hk hn h0⟩, fun d n sl => ?_⟩
  · rintro t hs hb ht ha hf e rfl
    have ht0 : ((d.showMessage b none).arm a).batch = some t := ht
    obtain ⟨q, f, hrest⟩ := stopBatch_rest ht0 ha hf
    have hcore : (t.stopped.closeTold true fun k => (d.showMessage b none).underOffer ⟨a, t.line, k⟩).throttleClear.core =
        t.stopped.core := by rw [Batch.throttleClear_core, Batch.closeTold_core]
    have hx := Batch.eq_of_core hcore
    have hoff : ∀ k, (d.showMessage b none).underOffer ⟨a, t.line, k⟩ = d.underOffer ⟨a, t.line, k⟩ := fun k =>
      underOffer_congr ((dose_open ht0 ha k).trans (dose_open ht ha k).symm) rfl
    rw [stopBid_stops hs hb]
    have harm := stopBatch_arm ht0 ha hf
    refine ⟨⟨_, congrArg ArmCtl.batch harm, by rw [hx]; rfl, by rw [hx]; rfl, by rw [hx]; rfl, ?_, ?_⟩, congrArg ArmCtl.zeroFlow harm,
      ?_, ?_, fun x hne => ?_, by rw [hrest]; rfl, by rw [hrest]; rfl, by rw [hrest]; rfl⟩
    · rw [Batch.throttleClear_dosing]
      exact List.length_map _
    · rintro j y r hy hd rfl
      obtain ⟨h2, h3, -⟩ := y.cancelPending_counts true (d.underOffer ⟨a, t.line, y.recipe⟩)
      refine ⟨y.cancelPending true (d.underOffer ⟨a, t.line, y.recipe⟩), ?_, rfl, h2, fun ho => ?_, ?_, fun c hdose hinj ho => ?_,
        rfl, rfl, rfl, rfl⟩
      · rw [Batch.throttleClear_dosing]
        exact (Batch.closeTold_dosed (t := t.stopped) hy hd).trans (by rw [hoff])
      · rw [h3, underOffer_of_none ho, Nat.zero_min]
      · rw [h3]
        exact (Nat.min_le_left ..).trans (underOffer_le_one ..)
      · rw [h3, underOffer_offered hdose hinj ho]
    · rw [harm]
      exact (ArmCtl.commanded_some rfl).trans (Batch.commanded_closed (by rw [hx]; rfl))
    · rw [hrest]
      exact showMessage_bay ..
    · rw [hrest]
      exact Bank.read_write_other _ _ _ _ hne
  · rintro e rfl
    obtain ⟨h1, h2, h3⟩ := finishLoad_cases (d.showMessage b none) b .finish
    simp only [showMessage_bay, List.mem_cons, List.not_mem_nil, or_false] at h1 h2 h3 ⊢
    refine ⟨fun h => finishBid_done ?_ (h1 h), fun h => finishBid_done ?_ (h2 h), fun h => ?_, fun hs hl => ?_⟩
    · rcases h with h | ⟨h, -⟩ <;> rw [h] <;> decide
    · rcases h with (h | h) | ⟨h, -⟩ | ⟨h, -⟩ <;> rw [h] <;> decide
    · have hs : (d.bay b).state ≠ .closed ∧ (d.bay b).state ≠ .tripped := by
        rcases h with (h | h | h) | ⟨h, -⟩ <;> rw [h] <;> decide
      have hnone : (d.showMessage b none).finishLoad b .finish = none := by
        rcases h with (h | h | h) | ⟨h, hbefore⟩
        · exact h3 (.inl (.inr (.inl h)))
        · exact h3 (.inl (.inr (.inr (.inl h))))
        · exact h3 (.inl (.inr (.inr (.inr h))))
        · exact h3 (.inr (.inl ⟨h, .inl hbefore⟩))
      exact (finishBid_nothing hs.1 hnone).trans (if_neg fun k => hs.2 k.1)
    · exact (finishBid_nothing (by rw [hs]; decide) (h3 (.inr (.inr ⟨hs, hl⟩)))).trans (if_pos ⟨hs, hl⟩)
  · unfold eventSlot
    rw [if_neg (not_not.mpr hc), if_pos hk]
    rfl
  · obtain ⟨hnot, hpanel⟩ := checkBid_cases d n (readBid sl)
    refine ⟨fun h => dispatchBid_error (hnot h), fun hk h => dispatchBid_error ((hpanel hk).1 h), fun hk hs hf => ?_⟩
    obtain ⟨hnone, hbay⟩ := (hpanel hk).2 (by simpa using hs) hf
    refine ⟨fun h => dispatchBid_error (hnone h), fun b hb => ⟨fun h => dispatchBid_error ((hbay b hb).1 h), ?_⟩⟩
    have hbid : ∀ x, readBid sl = some x → d.dispatchBid n sl = d.takeBid b x := fun x h => dispatchBid_ok ((hbay b hb).2 x h)
    exact ⟨fun c h => hbid _ h, fun x h => hbid _ h, fun x h => hbid _ h, fun h => hbid _ h⟩

end Sys2Proof.Machine
end

