-- ==== Sys2Proof/Proofs/Settling.lean ====
section
/-! What follows an event that concerns one bay (R37, R75, R80, R83, R114): travel supervision, the tests of that bay alone,
then the output drives and CW, which move no bay and no arm. -/

namespace Sys2Proof.Machine

open Sys2Proof

/-! ### The arms of a bay -/

theorem Device.mem_armsOf {d : Device} {a : ArmId} {b : BayId} : a ∈ d.armsOf b ↔ d.bayOfArm a = some b := by
  rw [armsOf_eq, List.mem_filter, recNames_iff, bayOfArm, Option.map_eq_some_iff]
  simp [mem_allArms]

theorem Device.armsOf_congr {d e : Device} (h : e.armRecs = d.armRecs) (b : BayId) : e.armsOf b = d.armsOf b := by
  simp only [armsOf, armRec, h]

/-! ### Travel supervision of all arms (R37) -/

theorem travelAfter_same {old new : Device} {a : ArmId} (hs : old.effectiveStage a = new.effectiveStage a)
    (hp : (old.arm a).position = (new.arm a).position) : travelAfter old new a = (new.arm a).travel := if_pos ⟨hs, hp⟩

/-- A part whose arms differ in their travel timers alone commands the same stages. -/
theorem Device.effectiveStage_travel {d e : Device} (ha : ∀ x, ∃ m, e.arm x = { d.arm x with travel := m })
    (hr : { d with arms := e.arms } = e) (a : ArmId) : e.effectiveStage a = d.effectiveStage a := by
  obtain ⟨m, hm⟩ := ha a
  unfold effectiveStage mayOpen
  rw [hm]
  rw [← hr]
  rfl

/-- R37: the timer after an event depends on the arm as the event left it and on the stages before and after it. -/
theorem travelAfter_congr {old new e : Device} {a : ArmId} (hs : e.effectiveStage a = new.effectiveStage a)
    (ha : e.arm a = new.arm a) (hm : e.mp = new.mp) : travelAfter old e a = travelAfter old new a := by
  unfold travelAfter
  rw [hs, ha, hm]

/-- The arms named supervised, each by itself. -/
theorem foldl_superviseArm (old : Device) (l : List ArmId) (hl : l.Nodup) (new : Device) :
    { new with arms := (l.foldl (fun e a => superviseArm old e a) new).arms } = l.foldl (fun e a => superviseArm old e a) new ∧
    ∀ x, (l.foldl (fun e a => superviseArm old e a) new).arm x =
      { new.arm x with travel := if x ∈ l then travelAfter old new x else (new.arm x).travel } := by
  induction l generalizing new with
  | nil => exact ⟨rfl, fun x => by simp⟩
  | cons a t ih =>
    obtain ⟨hnot, ht⟩ := List.nodup_cons.mp hl
    obtain ⟨h1, h2⟩ := ih ht (superviseArm old new a)
    rw [List.foldl_cons]
    rw [superviseArm_eq] at h1 h2 ⊢
    refine ⟨h1, fun x => ?_⟩
    have harm : ∀ y, (new.onArm a fun c => { c with travel := travelAfter old new a }).arm y =
        if y = a then { new.arm y with travel := travelAfter old new a } else new.arm y := fun y => by
      rw [Device.onArm_arm]
      split
      next h => rw [h]
      next => rfl
    rw [h2, harm]
    by_cases hx : x = a
    · subst hx
      simp [hnot]
    · have hstage := Device.effectiveStage_travel (d := new) (e := new.onArm a fun c => { c with travel := travelAfter old new a })
        (fun y => by rw [harm]; split <;> exact ⟨_, rfl⟩) rfl x
      have htravel : travelAfter old (new.onArm a fun c => { c with travel := travelAfter old new a }) x = travelAfter old new x :=
        travelAfter_congr hstage (by rw [harm, if_neg hx]) rfl
      simp only [hx, if_false, htravel, List.mem_cons, false_or]

/-- R37: supervision touches the travel timers and nothing else. -/
theorem supervise_rest (old new : Device) : { new with arms := (supervise old new).arms } = supervise old new :=
  (foldl_superviseArm old allArms (by decide) new).1

theorem supervise_arm (old new : Device) (x : ArmId) :
    (supervise old new).arm x = { new.arm x with travel := travelAfter old new x } := by
  refine ((foldl_superviseArm old allArms (by decide) new).2 x).trans ?_
  rw [if_pos (Device.mem_allArms x)]

namespace Device

/-- R36: the effective stage follows from the bay of the arm, the latches and the arm's batch. -/
theorem effectiveStage_congr {d e : Device} {a : ArmId} (hr : e.bayOfArm a = d.bayOfArm a) (hl : e.lu = d.lu)
    (hb : ∀ b, d.bayOfArm a = some b →
      (e.bay b).state = (d.bay b).state ∧ (e.bay b).ground = (d.bay b).ground ∧ (e.bay b).overfill = (d.bay b).overfill)
    (ha : (e.arm a).batch = (d.arm a).batch) : e.effectiveStage a = d.effectiveStage a := by
  have hmay : e.mayOpen a = d.mayOpen a := by
    unfold mayOpen ArmCtl.flowing
    rw [hr, ha, latched, latched, hl]
    split
    next => rfl
    next b hb' =>
      obtain ⟨h1, h2, h3⟩ := hb b hb'
      dsimp only
      rw [h1, h2, h3]
  unfold effectiveStage ArmCtl.commanded
  rw [hmay, ha]

/-! ### Events that concern one bay -/

/-- From `d` to `e` nothing is changed that any block watches of another bay than `b`, nor the lines. -/
structure Spares (b : BayId) (d e : Device) : Prop where
  armRecs : e.armRecs = d.armRecs
  lu      : e.lu = d.lu
  arms    : ∀ a y, d.bayOfArm a = some y → y ≠ b → e.arm a = d.arm a
  bays    : ∀ y, y ≠ b → ∃ l, e.bay y = { d.bay y with ended := l }
  shots   : ∀ y, y ≠ b → e.outstandingShots y = d.outstandingShots y

theorem Spares.bayOfArm {b : BayId} {d e : Device} (h : d.Spares b e) (a : ArmId) : e.bayOfArm a = d.bayOfArm a :=
  bayOfArm_congr h.armRecs a

theorem Spares.stage {b y : BayId} {d e : Device} (h : d.Spares b e) {a : ArmId} (ha : d.bayOfArm a = some y) (hy : y ≠ b) :
    e.effectiveStage a = d.effectiveStage a := by
  refine effectiveStage_congr (h.bayOfArm a) h.lu (fun x hx => ?_) (by rw [h.arms a y ha hy])
  obtain rfl := Option.some.inj (ha.symm.trans hx)
  obtain ⟨l, hl⟩ := h.bays y hy
  rw [hl]
  exact ⟨rfl, rfl, rfl⟩

theorem Spares.bayRests {b y : BayId} {d e : Device} (h : d.Spares b e) (hy : y ≠ b) : e.bayRests y = d.bayRests y := by
  have harm : ∀ a ∈ d.armsOf y, e.arm a = d.arm a := fun a ha => h.arms a y (mem_armsOf.mp ha) hy
  obtain ⟨l, hl⟩ := h.bays y hy
  have hall : ∀ p : ArmCtl → Bool, ((e.armsOf y).all fun a => p (e.arm a)) = (d.armsOf y).all fun a => p (d.arm a) := fun p => by
    rw [armsOf_congr h.armRecs, Bool.eq_iff_iff, List.all_eq_true, List.all_eq_true]
    exact forall₂_congr fun a ha => by rw [harm a ha]
  have h1 := hall fun c => c.position == .closed && c.travel == none
  have h2 := hall fun c => c.position == .closed
  have h3 := hall fun c => !c.batch.isSome
  unfold Device.bayRests armsSeated noBatch hasBatch
  rw [h1, h2, h3, h.shots y hy, hl]

/-- R37: supervision of an event that concerns bay `b` leaves the arms of the other bays alone. -/
theorem Spares.supervise {b : BayId} {d e : Device} (h : d.Spares b e) : d.Spares b (supervise d e) := by
  have hrest := supervise_rest d e
  refine ⟨by rw [← hrest]; exact h.armRecs, by rw [← hrest]; exact h.lu, fun a y ha hy => ?_,
    fun y hy => by rw [← hrest]; exact h.bays y hy, fun y hy => ?_⟩
  · rw [supervise_arm, travelAfter_same (h.stage ha hy).symm (by rw [h.arms a y ha hy]), h.arms a y ha hy]
  · rw [← h.shots y hy, ← hrest]
    rfl

/-! ### What the tests of a bay may change (R75, R80, R83) -/

/-- From `d` to `e` bay `b`'s record, its order and note and CW's queue are changed, notices raised, and nothing else. -/
structure OfBay (b : BayId) (d e : Device) : Prop where
  others : ∀ y, y ≠ b → e.bay y = d.bay y
  rest   : { d with bays := e.bays, accounts := e.accounts, orders := e.orders, nu := e.nu, cw := e.cw,
                    mp := { d.mp with notices := e.mp.notices } } = e

theorem OfBay.refl (b : BayId) (d : Device) : d.OfBay b d := ⟨fun _ _ => rfl, rfl⟩

theorem OfBay.trans {b : BayId} {d e f : Device} (h : d.OfBay b e) (k : e.OfBay b f) : d.OfBay b f :=
  ⟨fun y hy => (k.others y hy).trans (h.others y hy), by rw [← k.rest, ← h.rest]⟩

theorem OfBay.arms {b : BayId} {d e : Device} (h : d.OfBay b e) : e.arms = d.arms := by rw [← h.rest]
theorem OfBay.arm {b : BayId} {d e : Device} (h : d.OfBay b e) (a : ArmId) : e.arm a = d.arm a := by rw [← h.rest]; rfl

theorem OfBay.spares {b : BayId} {d e : Device} (h : d.OfBay b e) : d.Spares b e where
  armRecs := by rw [← h.rest]
  lu := by rw [← h.rest]
  arms a _ _ _ := h.arm a
  bays y hy := ⟨(d.bay y).ended, h.others y hy⟩
  shots y _ := by rw [← h.rest]; rfl

theorem Spares.trans {b : BayId} {d e f : Device} (h : d.Spares b e) (k : e.Spares b f) : d.Spares b f where
  armRecs := k.armRecs.trans h.armRecs
  lu := k.lu.trans h.lu
  arms a y ha hy := (k.arms a y ((h.bayOfArm a).trans ha) hy).trans (h.arms a y ha hy)
  bays y hy := by
    obtain ⟨l, hl⟩ := h.bays y hy
    obtain ⟨m, hm⟩ := k.bays y hy
    exact ⟨m, by rw [hm, hl]⟩
  shots y hy := (k.shots y hy).trans (h.shots y hy)

theorem onBay_ofBay (d : Device) (b : BayId) (f : Bay → Bay) : d.OfBay b (d.onBay b f) :=
  ⟨fun _ hy => onBay_bay_other _ _ _ _ hy, rfl⟩

theorem raise_ofBay (b : BayId) (d : Device) (k : NoticeKind) (o : SourceObj) (n : Nat) (l : List (List Byte)) :
    d.OfBay b (d.raise k o n l) := ⟨fun _ _ => rfl, rfl⟩

theorem bayNotice_ofBay (b x : BayId) (d : Device) (n : Nat) (l : List (List Byte)) : d.OfBay b (d.bayNotice x n l) :=
  raise_ofBay ..

theorem enterState_ofBay (d : Device) (b : BayId) (st : BayState) : d.OfBay b (d.enterState b st) := onBay_ofBay ..

theorem showMessage_ofBay (d : Device) (b : BayId) (m : Option Display) : d.OfBay b (d.showMessage b m) := onBay_ofBay ..

theorem enterHeld_ofBay (d : Device) (b : BayId) (p : BeforeHold) : d.OfBay b (d.enterHeld b p) :=
  ((enterState_ofBay d b .held).trans (onBay_ofBay ..)).trans (bayNotice_ofBay ..)

theorem onAccount_ofBay (b : BayId) (d : Device) (i : Nat) (f : Account → Account) : d.OfBay b (d.onAccount i f) := by
  unfold onAccount
  split
  · exact ⟨fun _ _ => rfl, rfl⟩
  · exact .refl b d

theorem onOrder_ofBay (b : BayId) (d : Device) (n : Nat) (f : Order → Order) : d.OfBay b (d.onOrder n f) := ⟨fun _ _ => rfl, rfl⟩

theorem releaseLine_ofBay (b : BayId) (d : Device) (o : Order) (k n : Nat) : d.OfBay b (d.releaseLine o k n) := by
  unfold releaseLine
  split
  · exact .refl b d
  split
  · exact .refl b d
  · exact (onAccount_ofBay ..).trans (onOrder_ofBay ..)

theorem OfBay.foldl {α : Type} {b : BayId} (f : Device → α → Device) (l : List α) (d : Device)
    (h : ∀ (e : Device) (x : α), e.OfBay b (f e x)) : d.OfBay b (l.foldl f d) := by
  induction l generalizing d with
  | nil => exact .refl b d
  | cons x t ih => exact (h d x).trans (ih _)

theorem releaseLines_ofBay (b : BayId) (d : Device) (o : Order) (pick : OrderLine → Bool) : d.OfBay b (d.releaseLines o pick) := by
  refine OfBay.foldl _ _ _ fun e k => ?_
  split
  · split
    · exact releaseLine_ofBay ..
    · exact .refl b e
  · exact .refl b e

theorem commitNote_ofBay (d : Device) (b : BayId) : d.OfBay b (d.commitNote b) := by
  unfold commitNote
  split
  · exact ⟨fun _ _ => rfl, rfl⟩
  · exact .refl b d

theorem closingTest_ofBay (d : Device) (b : BayId) : d.OfBay b (d.closingTest b) := by
  unfold closingTest
  dsimp only
  split
  · refine (onBay_ofBay d b fun r => { r with ended := r.ended.map Batch.cancelLeft }).trans ?_
    refine OfBay.trans ?_ (((commitNote_ofBay _ b).trans (enterState_ofBay ..)).trans (bayNotice_ofBay ..))
    split
    · exact releaseLines_ofBay ..
    · exact .refl b _
  · exact .refl b d

theorem grantHold_ofBay (d : Device) (b : BayId) : d.OfBay b (d.grantHold b) := by
  unfold grantHold
  split
  · exact (enterState_ofBay ..).trans (bayNotice_ofBay ..)
  · exact .refl b d

/-- R72: the load test closes a load in which no batch is open. -/
theorem loadTest_ofBay (d : Device) (b : BayId) : d.OfBay b (d.loadTest b) := by
  cases ho : d.orderOf b with
  | none => unfold loadTest; rw [ho]; exact .refl b d
  | some o =>
    obtain ⟨hdone, hnot⟩ := loadTest_eq ho
    by_cases h : d.loadDone b o
    · rw [hdone h, closeLoad_of_none h.2.2]
      exact ((enterState_ofBay ..).trans (onBay_ofBay ..)).trans (bayNotice_ofBay ..)
    · rw [hnot h]
      exact .refl b d

theorem clearCause_ofBay (d : Device) (b : BayId) (c : TripCause) : d.OfBay b (d.clearCause b c) := by
  unfold clearCause
  dsimp only
  split
  · exact .refl b d
  have h1 : d.OfBay b ((d.onBay b fun x => { x with causes := x.causes.put c false }).bayNotice b 10 []) :=
    (onBay_ofBay ..).trans (bayNotice_ofBay ..)
  split
  · split
    · exact (h1.trans (onBay_ofBay ..)).trans (enterHeld_ofBay ..)
    · exact ((h1.trans (onBay_ofBay ..)).trans ((enterState_ofBay ..).trans (bayNotice_ofBay ..))).trans (loadTest_ofBay ..)
  · exact h1

theorem valveTest_ofBay (d : Device) (b : BayId) : d.OfBay b (d.valveTest b) := by
  unfold valveTest
  split
  · exact clearCause_ofBay ..
  · exact .refl b d

theorem bayTests_ofBay (d : Device) (b : BayId) : d.OfBay b (d.bayTests b) :=
  ((valveTest_ofBay d b).trans (grantHold_ofBay ..)).trans (closingTest_ofBay ..)

/-! ### The tests of the other bays -/

theorem foldl_bayTests_rest (l : List BayId) (d : Device) (h : ∀ y ∈ l, d.bayRests y = true) : l.foldl bayTests d = d := by
  induction l with
  | nil => rfl
  | cons b t ih => rw [List.foldl_cons, bayTests_rest d b (h b List.mem_cons_self), ih fun y hy => h y (List.mem_cons_of_mem _ hy)]

theorem mem_allBays (b : BayId) : b ∈ allBays := by revert b; decide

/-- The tests of all bays are the tests of the one bay that does not rest. -/
theorem allBayTests_one (b : BayId) (d : Device) (h : ∀ y, y ≠ b → d.bayRests y = true) : allBays.foldl bayTests d = d.bayTests b := by
  have hb : b ∈ allBays := mem_allBays b
  obtain ⟨l, r, hlr⟩ := List.append_of_mem hb
  have hnodup : (l ++ b :: r).Nodup := hlr ▸ (by decide)
  obtain ⟨-, hbr, hdis⟩ := List.nodup_append.mp hnodup
  have hl : ∀ y ∈ l, y ≠ b := fun y hy => hdis y hy b List.mem_cons_self
  have hr : ∀ y ∈ r, y ≠ b := fun y hy he => (List.nodup_cons.mp hbr).1 (he ▸ hy)
  rw [hlr, List.foldl_append, List.foldl_cons, foldl_bayTests_rest l d fun y hy => h y (hl y hy)]
  exact foldl_bayTests_rest r _ fun y hy => ((bayTests_ofBay d b).spares.bayRests (hr y hy)).trans (h y (hr y hy))

/-! ### The output drives and CW (R114, R163) -/

/-- What follows the bays' tests: the output drives, then CW takes work and parks. -/
def windUp (d : Device) : Device := d.driveOutputs.cwStart.cwPark

theorem driveOutputs_frame (d : Device) : { d with lu := d.driveOutputs.lu } = d.driveOutputs := by
  unfold driveOutputs
  induction allSixteen generalizing d with
  | nil => rfl
  | cons l t ih => rw [List.foldl_cons, ← ih]; rfl

theorem lookAtBarrier_frame (d : Device) (e : QEntry) (b : Barrier) (l : List QEntry) :
    { d with cw := (d.lookAtBarrier e b l).cw, meters := (d.lookAtBarrier e b l).meters,
             mp := { d.mp with notices := (d.lookAtBarrier e b l).mp.notices } } = d.lookAtBarrier e b l := by
  have htake := takeUnwritten_rest (d.recoveryArms b.image) d
  unfold lookAtBarrier
  split
  next a t h =>
    rw [h] at htake
    dsimp only
    rw [← htake]
    split <;> rfl
  next => split <;> rfl

theorem cwStart_frame (d : Device) :
    { d with cw := d.cwStart.cw, meters := d.cwStart.meters, mp := { d.mp with notices := d.cwStart.mp.notices } } = d.cwStart := by
  unfold cwStart
  split
  · rfl
  split
  · rfl
  split
  · rfl
  split
  · rfl
  · split
    · rfl
    · split
      · split
        · rfl
        · exact lookAtBarrier_frame ..
      · exact lookAtBarrier_frame ..

theorem lookAtBarrier_queue {d : Device} {e : QEntry} (b : Barrier) {l : List QEntry} (h : d.cw.queue ≠ []) :
    (d.lookAtBarrier e b l).cw.queue ≠ [] := by
  unfold lookAtBarrier
  split
  · dsimp only
    split
    · exact List.cons_ne_nil _ _
    next hn => exact absurd hn (List.cons_ne_nil _ _)
  · split
    · exact h
    · exact List.cons_ne_nil _ _

/-- Work taken from the queue stands in it until its write is over. -/
theorem cwStart_queue {d : Device} (h : d.cw.queue ≠ []) : d.cwStart.cw.queue ≠ [] := by
  unfold cwStart
  split
  · exact h
  split
  · exact h
  split
  next hn => exact absurd hn h
  split
  · exact List.cons_ne_nil _ _
  · split
    · exact h
    · split
      · split
        · exact h
        · exact lookAtBarrier_queue _ h
      · exact lookAtBarrier_queue _ h

theorem cwPark_busy {d : Device} (h : d.cw.queue ≠ []) : d.cwPark = d := if_neg fun ⟨_, _, _, _, hq⟩ => h hq

theorem serveWaiting_frame (d : Device) (always : Bool) :
    { d with cw := (d.serveWaiting always).cw, mp := (d.serveWaiting always).mp } = d.serveWaiting always := by
  unfold serveWaiting
  split
  · rfl
  · split <;> rfl

theorem takeRead_frame (d : Device) (t : Byte) (a : ArmId) :
    { d with cw := (d.takeRead t a).cw, mp := (d.takeRead t a).mp } = d.takeRead t a := by
  unfold takeRead
  split <;> rfl

theorem resumeRead_frame (d : Device) : { d with cw := d.resumeRead.cw, mp := d.resumeRead.mp } = d.resumeRead := by
  unfold resumeRead
  split
  · split
    · split
      · exact takeRead_frame ..
      · rfl
    · rfl
  · rfl

theorem cwPark_frame (d : Device) : { d with cw := d.cwPark.cw, mp := d.cwPark.mp } = d.cwPark := by
  unfold cwPark
  split
  · rw [← resumeRead_frame, ← serveWaiting_frame]
    rfl
  · rfl

/-- R114, R123, R163: the blocks' last work moves no bay, no arm, no order and no note, and leaves custody memory alone. -/
theorem windUp_rest (d : Device) :
    { d with lu := d.windUp.lu, cw := d.windUp.cw, meters := d.windUp.meters, mp := d.windUp.mp } = d.windUp := by
  unfold windUp
  rw [← cwPark_frame, ← cwStart_frame, ← driveOutputs_frame]

theorem cwRests_congr {d e : Device} (hb : e.boot = d.boot) (hc : e.cw = d.cw) :
    e.cwRests = d.cwRests ∧ e.parkRests = d.parkRests := by
  unfold cwRests cwMayWork headWaits parkRests
  rw [hb, hc]
  exact ⟨rfl, rfl⟩

/-- R123: while CW has an entry queued, or nothing new to do, no waiting read is served: the ports are as they were. -/
theorem windUp_mp {d : Device} (h : d.cw.queue ≠ [] ∨ (d.cwRests = true ∧ d.parkRests = true)) :
    { d.mp with notices := d.windUp.mp.notices } = d.windUp.mp := by
  have hdrive := driveOutputs_frame d
  have hcw : d.driveOutputs.cw = d.cw := by rw [← hdrive]
  have hmp : d.driveOutputs.mp = d.mp := by rw [← hdrive]
  unfold windUp
  rcases h with hq | hr
  · have hq' : d.driveOutputs.cwStart.cw.queue ≠ [] := cwStart_queue (by rwa [hcw])
    rw [cwPark_busy hq', ← cwStart_frame, hmp]
  · have hboot : d.driveOutputs.boot = d.boot := by rw [← hdrive]
    obtain ⟨h1, h2⟩ := cwRests_congr hboot hcw
    rw [cwStart_rest _ (h1.trans hr.1), cwPark_rest _ (h2.trans hr.2), hmp]

/-! ### The closing of a bay (R83) -/

theorem closingTest_still {d : Device} {b : BayId}
    (h : (d.bay b).state ≠ .closing ∨ d.noBatch b = false ∨ d.outstandingShots b ≠ 0) : d.closingTest b = d := by
  unfold closingTest
  rw [if_neg]
  rintro ⟨h1, h2, h3⟩
  rcases h with h | h | h
  · exact h h1
  · rw [h2] at h; cases h
  · exact h h3

/-- The part of the bay whose note is assembled: its ended batches with nothing pending, its unbatched lines released. -/
def noteReady (d : Device) (b : BayId) : Device :=
  let d0 := d.onBay b fun r => { r with ended := r.ended.map Batch.cancelLeft }
  match d0.orderOf b with
  | some o => d0.releaseLines o fun l => l.batch == LineBatch.notBatched
  | none => d0

theorem closingTest_done {d : Device} {b : BayId} (h1 : (d.bay b).state = .closing) (h2 : d.noBatch b = true)
    (h3 : d.outstandingShots b = 0) :
    d.closingTest b = (((d.noteReady b).commitNote b).enterState b .noteCommit).bayNotice b 1 [] := if_pos ⟨h1, h2, h3⟩

theorem releaseLine_bays (d : Device) (o : Order) (k n : Nat) : (d.releaseLine o k n).bays = d.bays := by
  unfold releaseLine
  split
  · rfl
  split
  · rfl
  · unfold onAccount; split <;> rfl

theorem releaseLine_nu (d : Device) (o : Order) (k n : Nat) : (d.releaseLine o k n).nu = d.nu ∧ (d.releaseLine o k n).cw = d.cw := by
  unfold releaseLine
  split
  · exact ⟨rfl, rfl⟩
  split
  · exact ⟨rfl, rfl⟩
  · unfold onAccount; split <;> exact ⟨rfl, rfl⟩

/-- What releasing lines keeps, it keeps for every list of them. -/
theorem releaseLines_keeps {α : Type} (g : Device → α) (h : ∀ (e : Device) (o : Order) (k n : Nat), g (e.releaseLine o k n) = g e)
    (d : Device) (o : Order) (pick : OrderLine → Bool) : g (d.releaseLines o pick) = g d := by
  unfold releaseLines
  induction List.range o.lines.length generalizing d with
  | nil => rfl
  | cons k t ih =>
    rw [List.foldl_cons, ih]
    split
    · split
      · exact h ..
      · rfl
    · rfl

theorem noteReady_bay (d : Device) (b : BayId) :
    (d.noteReady b).bay b = { d.bay b with ended := (d.bay b).ended.map Batch.cancelLeft } := by
  have h0 : (d.onBay b fun r => { r with ended := r.ended.map Batch.cancelLeft }).bay b =
      { d.bay b with ended := (d.bay b).ended.map Batch.cancelLeft } := onBay_bay_same ..
  unfold noteReady
  dsimp only
  split
  · rw [← h0, bay, releaseLines_keeps Device.bays fun _ _ _ _ => releaseLine_bays ..]
    rfl
  · exact h0

theorem noteReady_nu (d : Device) (b : BayId) : (d.noteReady b).nu = d.nu := by
  unfold noteReady
  dsimp only
  split
  · exact releaseLines_keeps Device.nu (fun _ _ _ _ => (releaseLine_nu ..).1) _ _ _
  · rfl

theorem noteReady_cw (d : Device) (b : BayId) : (d.noteReady b).cw = d.cw := by
  unfold noteReady
  dsimp only
  split
  · exact releaseLines_keeps Device.cw (fun _ _ _ _ => (releaseLine_nu ..).2) _ _ _
  · rfl

theorem commitNote_bays (d : Device) (b : BayId) : (d.commitNote b).bays = d.bays := by
  unfold commitNote
  split <;> rfl

/-- R132: a commit queues a barrier, or CW's queue is as it was. -/
theorem commitNote_cw (d : Device) (b : BayId) : (d.commitNote b).cw = d.cw ∨ (d.commitNote b).cw.queue ≠ [] := by
  unfold commitNote
  split
  · exact .inr (List.append_ne_nil_of_right_ne_nil _ (List.cons_ne_nil _ _))
  · exact .inl rfl

/-- R83: the bay after its closing is complete. -/
theorem closingTest_bay {d : Device} {b : BayId} (h1 : (d.bay b).state = .closing) (h2 : d.noBatch b = true)
    (h3 : d.outstandingShots b = 0) : (d.closingTest b).bay b = { d.bay b with
      state := .noteCommit, message := none, ended := (d.bay b).ended.map Batch.cancelLeft } := by
  have hb : ((d.noteReady b).commitNote b).bay b = { d.bay b with ended := (d.bay b).ended.map Batch.cancelLeft } := by
    rw [bay, commitNote_bays]
    exact noteReady_bay d b
  rw [closingTest_done h1 h2 h3, bayNotice_bay, enterState_eq _ _ _ (by rw [hb, h1]; decide), onBay_bay_same, hb]

theorem closingTest_cw (d : Device) (b : BayId) : (d.closingTest b).cw = d.cw ∨ (d.closingTest b).cw.queue ≠ [] := by
  by_cases h : (d.bay b).state = .closing ∧ d.noBatch b = true ∧ d.outstandingShots b = 0
  · rw [closingTest_done h.1 h.2.1 h.2.2, ← noteReady_cw d b]
    exact commitNote_cw ..
  · refine .inl (congrArg Device.cw (closingTest_still ?_))
    by_contra hno
    simp only [not_or, Decidable.not_not, Bool.not_eq_false] at hno
    exact h hno

theorem bayTests_cw (d : Device) (b : BayId) : (d.bayTests b).cw = d.cw ∨ (d.bayTests b).cw.queue ≠ [] := by
  have hv : ((d.valveTest b).grantHold b).cw = d.cw := ((valveTest_calm d b).trans (grantHold_calm ..)).cw
  rw [← hv]
  exact closingTest_cw ..

end Device

/-! ### The whole of what follows -/

/-- R37, R75, R80, R83, R114: what follows an event that concerns bay `b` alone. -/
theorem settle_spares {b : BayId} {d e : Device} (hd : d.settled = true) (h : d.Spares b e) :
    settle d e = ((supervise d e).bayTests b).windUp := by
  obtain ⟨hrests, -⟩ := (settled_iff d).mp hd
  rw [settle, Device.allBayTests_one b _ fun y hy => (h.supervise.bayRests hy).trans (hrests y)]
  rfl

/-- What the tests of bay `b` after such an event leave of the part: the record of the bay and, with it, its order and note. -/
theorem settle_frame {b : BayId} {d e : Device} (hd : d.settled = true) (h : d.Spares b e) :
    (∀ x, (settle d e).arm x = { e.arm x with travel := travelAfter d e x }) ∧
    (settle d e).bays = ((supervise d e).bayTests b).bays ∧ (∀ y, y ≠ b → (settle d e).bay y = e.bay y) ∧
    (settle d e).orders = ((supervise d e).bayTests b).orders ∧ (settle d e).nu = ((supervise d e).bayTests b).nu ∧
    (settle d e).custody = e.custody ∧ (settle d e).lm = e.lm := by
  have hsup := supervise_rest d e
  have hof := Device.bayTests_ofBay (supervise d e) b
  have hend := Device.windUp_rest ((supervise d e).bayTests b)
  rw [settle_spares hd h]
  generalize htests : (supervise d e).bayTests b = f at hof hend ⊢
  refine ⟨fun x => ?_, by rw [← hend], fun y hy => ?_, by rw [← hend], by rw [← hend], ?_, ?_⟩
  · rw [← supervise_arm, ← hof.arm, ← hend]
    rfl
  · have hfy : f.bay y = e.bay y := by rw [hof.others y hy, ← hsup]; rfl
    rw [← hend, ← hfy]
    rfl
  · rw [← hend, ← hof.rest, ← hsup]
  · rw [← hend, ← hof.rest, ← hsup]

/-- R123: an event that leaves CW as it was, but for an entry queued, serves no waiting read. -/
theorem settle_answers {b : BayId} {d e : Device} (hd : d.settled = true) (h : d.Spares b e) (hboot : e.boot = d.boot)
    (hcw : e.cw = d.cw) : (settle d e).mp.answers = e.mp.answers := by
  obtain ⟨-, -, hrest, hpark⟩ := (settled_iff d).mp hd
  have hsup := supervise_rest d e
  have hof := Device.bayTests_ofBay (supervise d e) b
  have hquiet : ((supervise d e).bayTests b).cw.queue ≠ [] ∨
      (((supervise d e).bayTests b).cwRests = true ∧ ((supervise d e).bayTests b).parkRests = true) := by
    refine (Device.bayTests_cw (supervise d e) b).symm.imp_right fun hc => ?_
    have hb : ((supervise d e).bayTests b).boot = d.boot := by rw [← hof.rest, ← hsup]; exact hboot
    have hc' : ((supervise d e).bayTests b).cw = d.cw := hc.trans (by rw [← hsup]; exact hcw)
    obtain ⟨h1, h2⟩ := Device.cwRests_congr hb hc'
    exact ⟨h1.trans hrest, h2.trans hpark⟩
  rw [settle_spares hd h, ← Device.windUp_mp hquiet, ← hof.rest, ← hsup]

end Sys2Proof.Machine
end

