-- ==== Sys2Proof/Proofs/BayEvents.lean ====
section
/-! What the events of one bay reach (R32, R34, R73, R74, R82): the records of that bay and of its arms, the records of its
dosing, its order and account, and nothing that any block watches of another bay. -/

namespace Sys2Proof.Machine

open Sys2Proof

namespace Device

/-! ### Shots in flight and on offer (R61) -/

/-- The shots outstanding follow from the records in flight and on offer. -/
theorem outstandingShots_congr {d e : Device} (hr : e.armRecs = d.armRecs) (hi : ∀ c, (e.inj c).inFlight = (d.inj c).inFlight ∧
    (e.inj c).offer.map Offer.ref = (d.inj c).offer.map Offer.ref) (b : BayId) : e.outstandingShots b = d.outstandingShots b := by
  rw [outstandingShots_eq, outstandingShots_eq]
  refine congrArg List.sum (List.map_congr_left fun c _ => ?_)
  obtain ⟨hf, ho⟩ := hi c
  have hnames : ∀ a, e.armRec a = d.armRec a := fun a => by rw [armRec, hr]; rfl
  simp only [hnames, hf]
  refine congrArg _ ?_
  cases h1 : (e.inj c).offer <;> cases h2 : (d.inj c).offer <;> simp [h1, h2] at ho ⊢
  rw [ho]

theorem fateFor_shots (i : Injector) (pick : DoseRef → Bool) (f : OfferFate) :
    (i.fateFor pick f).inFlight = i.inFlight ∧ (i.fateFor pick f).offer.map Offer.ref = i.offer.map Offer.ref := by
  unfold Injector.fateFor
  split
  · exact ⟨rfl, rfl⟩
  next o ho =>
    split
    · exact ⟨rfl, by rw [ho]; rfl⟩
    · exact ⟨rfl, rfl⟩

theorem onInj_shots {d : Device} {c : Chan} {f : Injector → Injector} (hf : (f (d.inj c)).inFlight = (d.inj c).inFlight ∧
    (f (d.inj c)).offer.map Offer.ref = (d.inj c).offer.map Offer.ref) (b : BayId) :
    (d.onInj c f).outstandingShots b = d.outstandingShots b := by
  refine outstandingShots_congr (onInj_armRecs d c f) (fun x => ?_) b
  rw [onInj_inj]
  split
  next h => rw [h]; exact hf
  next => exact ⟨rfl, rfl⟩

theorem setFates_shots (d : Device) (pick : DoseRef → Bool) (f : OfferFate) (b : BayId) :
    (d.setFates pick f).outstandingShots b = d.outstandingShots b := by
  unfold setFates
  induction allSixteen generalizing d with
  | nil => rfl
  | cons c t ih => exact (ih _).trans (onInj_shots (fateFor_shots (d.inj c) pick f) b)

/-! ### Events within a bay -/

/-- From `d` to `e` the records of bay `b`, of its arms and of dosing are changed, its order, account, note and queue entry,
and notices are raised: nothing else, and no shot comes or goes. -/
structure Within (b : BayId) (d e : Device) : Prop where
  arms  : ∀ a y, d.bayOfArm a = some y → y ≠ b → e.arm a = d.arm a
  bays  : ∀ y, y ≠ b → ∃ l, e.bay y = { d.bay y with ended := l }
  shots : ∀ y, e.outstandingShots y = d.outstandingShots y
  rest  : { d with arms := e.arms, bays := e.bays, injs := e.injs, accounts := e.accounts, orders := e.orders, nu := e.nu,
                   cw := e.cw, mp := { d.mp with notices := e.mp.notices } } = e

theorem Within.refl (b : BayId) (d : Device) : d.Within b d := ⟨fun _ _ _ _ => rfl, fun _ _ => ⟨_, rfl⟩, fun _ => rfl, rfl⟩

theorem Within.armRecs {b : BayId} {d e : Device} (h : d.Within b e) : e.armRecs = d.armRecs := by rw [← h.rest]

theorem Within.bayOfArm {b : BayId} {d e : Device} (h : d.Within b e) (a : ArmId) : e.bayOfArm a = d.bayOfArm a :=
  bayOfArm_congr h.armRecs a

theorem Within.trans {b : BayId} {d e f : Device} (h : d.Within b e) (k : e.Within b f) : d.Within b f where
  arms a y ha hy := (k.arms a y ((h.bayOfArm a).trans ha) hy).trans (h.arms a y ha hy)
  bays y hy := by
    obtain ⟨l, hl⟩ := h.bays y hy
    obtain ⟨m, hm⟩ := k.bays y hy
    exact ⟨m, by rw [hm, hl]⟩
  shots y := (k.shots y).trans (h.shots y)
  rest := by rw [← k.rest, ← h.rest]

theorem Within.spares {b : BayId} {d e : Device} (h : d.Within b e) : d.Spares b e :=
  ⟨h.armRecs, by rw [← h.rest], h.arms, h.bays, fun y _ => h.shots y⟩

theorem OfBay.within {b : BayId} {d e : Device} (h : d.OfBay b e) : d.Within b e where
  arms a _ _ _ := h.arm a
  bays y hy := ⟨(d.bay y).ended, h.others y hy⟩
  shots y := by rw [← h.rest]; rfl
  rest := by rw [← h.rest]

/-- A list of arms of the bay, each taken within it. -/
theorem Within.foldl {b : BayId} (f : Device → ArmId → Device) (l : List ArmId) (d : Device)
    (hl : ∀ a ∈ l, d.bayOfArm a = some b) (h : ∀ (e : Device) a, e.bayOfArm a = some b → e.Within b (f e a)) :
    d.Within b (l.foldl f d) := by
  induction l generalizing d with
  | nil => exact .refl b d
  | cons a t ih =>
    have h1 := h d a (hl a List.mem_cons_self)
    exact h1.trans (ih _ fun x hx => (h1.bayOfArm x).trans (hl x (List.mem_cons_of_mem _ hx)))

theorem onArm_within {d : Device} {a : ArmId} {b : BayId} (ha : d.bayOfArm a = some b) (f : ArmCtl → ArmCtl) :
    d.Within b (d.onArm a f) where
  arms _ _ hx hy := Bank.read_write_other _ _ _ _ fun h => hy (Option.some.inj (hx.symm.trans (h ▸ ha)))
  bays _ _ := ⟨_, rfl⟩
  shots _ := rfl
  rest := rfl

theorem onBay_within (d : Device) (b : BayId) (f : Bay → Bay) : d.Within b (d.onBay b f) := (onBay_ofBay d b f).within

theorem bayNotice_within (b x : BayId) (d : Device) (n : Nat) (l : List (List Byte)) : d.Within b (d.bayNotice x n l) :=
  (bayNotice_ofBay b x d n l).within

theorem armNotice_within (b : BayId) (d : Device) (a : ArmId) (n : Nat) (l : List (List Byte)) : d.Within b (d.armNotice a n l) :=
  (raise_ofBay b d ..).within

/-- A change of the ended batches of one bay or another is within any bay: no block watches them. -/
theorem onEnded_within (b y : BayId) (d : Device) (f : List Batch → List Batch) :
    d.Within b (d.onBay y fun r => { r with ended := f r.ended }) where
  arms _ _ _ _ := rfl
  bays x _ := by
    rw [onBay_bay]
    split
    next h => exact ⟨_, by rw [h]⟩
    next => exact ⟨_, rfl⟩
  shots _ := rfl
  rest := rfl

theorem foldl_onEnded_within (b : BayId) (f : List Batch → List Batch) (l : List BayId) (d : Device) :
    d.Within b (l.foldl (fun e y => e.onBay y fun r => { r with ended := f r.ended }) d) := by
  induction l generalizing d with
  | nil => exact .refl b d
  | cons y t ih => exact (onEnded_within b y d f).trans (ih _)

theorem onDose_within {d : Device} {r : DoseRef} {b : BayId} (hr : d.bayOfArm r.arm = some b) (f : Dosing → Dosing) :
    d.Within b (d.onDose r f) := by
  unfold onDose onDoseBatch
  split
  · exact onArm_within hr _
  · exact foldl_onEnded_within b (List.map fun x => if x.isRef r then x.onDose r.recipe f else x) allBays d

theorem setFates_within (b : BayId) (d : Device) (pick : DoseRef → Bool) (f : OfferFate) : d.Within b (d.setFates pick f) := by
  have hshots := setFates_shots d pick f
  obtain ⟨q, hq⟩ := setFates_eq d pick f
  rw [hq] at hshots ⊢
  exact ⟨fun _ _ _ _ => rfl, fun _ _ => ⟨_, rfl⟩, hshots, rfl⟩

theorem cancelPendings_within {d : Device} {a : ArmId} {b : BayId} (ha : d.bayOfArm a = some b) (mark : Bool) :
    d.Within b (d.cancelPendings a mark) := by
  have hfold : ∀ (l : List DoseRef) (e : Device), (∀ r ∈ l, e.bayOfArm r.arm = some b) →
      e.Within b (l.foldl (fun e r => e.onDose r fun x => x.cancelPending mark (d.underOffer r)) e) := by
    intro l
    induction l with
    | nil => exact fun e _ => .refl b e
    | cons r t ih =>
      intro e hl
      have h1 := onDose_within (hl r List.mem_cons_self) fun x => x.cancelPending mark (d.underOffer r)
      exact h1.trans (ih _ fun x hx => (h1.bayOfArm _).trans (hl x (List.mem_cons_of_mem _ hx)))
  have h := hfold (d.openRefs a) d fun r hr => by rw [arm_of_mem_openRefs hr]; exact ha
  unfold cancelPendings
  split
  · exact h
  · exact (h.trans (setFates_within ..)).trans (onArm_within (((h.trans (setFates_within ..)).bayOfArm a).trans ha) _)

theorem stopBatch_within {d : Device} {a : ArmId} {b : BayId} (ha : d.bayOfArm a = some b) : d.Within b (d.stopBatch a) := by
  unfold stopBatch
  split
  · exact .refl b d
  · split
    · dsimp only
      refine (onArm_within ha _).trans (cancelPendings_within ?_ true)
      exact ha
    · exact .refl b d

theorem settleLine_ofBay (b y : BayId) (d : Device) (t : Batch) : d.OfBay b (d.settleLine y t) := by
  unfold settleLine
  split
  · exact .refl b d
  · exact (onOrder_ofBay ..).trans (releaseLine_ofBay ..)

theorem endBatch_within {d : Device} {a : ArmId} {b : BayId} (ha : d.bayOfArm a = some b) (short : Bool) :
    d.Within b (d.endBatch a short) := by
  have h0 := cancelPendings_within ha false
  unfold endBatch
  dsimp only
  generalize d.cancelPendings a false = d0 at h0 ⊢
  have ha0 : d0.bayOfArm a = some b := (h0.bayOfArm a).trans ha
  rw [ha0]
  split
  next t y _ hy =>
    obtain rfl := Option.some.inj hy
    exact h0.trans ((((onArm_within ha0 _).trans (settleLine_ofBay ..).within).trans (onBay_within ..)).trans (armNotice_within ..))
  next => exact h0

/-- R32: an interruption of an arm's batch is within the bay of the arm. -/
theorem interruptBatch_within {d : Device} {a : ArmId} {b : BayId} (ha : d.bayOfArm a = some b) (pick : Phase → Bool)
    (mark : BatchFlags → BatchFlags) : d.Within b (d.interruptBatch a pick mark) := by
  unfold interruptBatch
  split
  · exact .refl b d
  split
  · exact onArm_within ha _
  split
  · dsimp only
    split
    · split
      · refine ((onArm_within ha _).trans (armNotice_within ..)).trans (endBatch_within ?_ true)
        exact ha
      · exact (onArm_within ha _).trans (armNotice_within ..)
    · exact (onArm_within ha _).trans (armNotice_within ..)
  · exact .refl b d

theorem interruptBay_within (d : Device) (b : BayId) : d.Within b (d.interruptBay b) :=
  Within.foldl _ _ _ (fun _ ha => mem_armsOf.mp ha) fun _ _ ha => interruptBatch_within ha _ _

theorem closeArm_within {d : Device} {a : ArmId} {b : BayId} (ha : d.bayOfArm a = some b) : d.Within b (d.closeArm a) := by
  unfold closeArm
  split
  · exact .refl b d
  · split
    · exact endBatch_within ha true
    · exact stopBatch_within ha

theorem closeLoad_within (d : Device) (b : BayId) : d.Within b (d.closeLoad b) := by
  unfold closeLoad
  dsimp only
  refine (((enterState_ofBay ..).within.trans (onBay_within ..)).trans (Within.foldl closeArm (d.armsOf b) _ ?_ fun _ _ ha =>
    closeArm_within ha)).trans (bayNotice_within ..)
  exact fun a ha => mem_armsOf.mp ha

theorem enterTrip_within (d : Device) (b : BayId) : d.Within b (d.enterTrip b) :=
  (((enterState_ofBay ..).within.trans (onBay_within ..)).trans (interruptBay_within _ b)).trans (bayNotice_within ..)

theorem lockoutTest_within (d : Device) (b : BayId) (n : Nat) : d.Within b (d.lockoutTest b n) := by
  unfold lockoutTest
  split
  · exact (onBay_within ..).trans (bayNotice_within ..)
  · exact .refl b d

/-- R73: a cause taken by the bay's state: seen alone, nothing, a trip, or one more cause of the set. -/
theorem takeCause_eq (d : Device) (b : BayId) (c : TripCause) : d.takeCause b c =
    if (d.bay b).state = .closing ∨ (d.bay b).state = .noteCommit then d.onBay b fun x => { x with seen := x.seen.put c true }
    else if (d.bay b).takesCauses = false ∨ (d.bay b).causes.has c = true then d
    else if (d.bay b).state = .loading ∨ (d.bay b).state = .holding then
      ((d.onBay b fun x => x.join c).enterTrip b).lockoutTest b (d.bay b).trips
    else ((d.onBay b fun x => x.join c).bayNotice b 10 []).lockoutTest b (d.bay b).trips := by
  unfold takeCause Bay.takesCauses
  cases h : (d.bay b).state <;> simp [h]

theorem takeCause_within (d : Device) (b : BayId) (c : TripCause) : d.Within b (d.takeCause b c) := by
  rw [takeCause_eq]
  split
  · exact onBay_within ..
  split
  · exact .refl b d
  split
  · exact ((onBay_within ..).trans (enterTrip_within ..)).trans (lockoutTest_within ..)
  · exact ((onBay_within ..).trans (bayNotice_within ..)).trans (lockoutTest_within ..)

end Device

end Sys2Proof.Machine
end

