-- ==== Sys2Proof/Proofs/Totalizers.lean ====
section
/-! TOTALIZER READ and TOTALIZER ACK (R121, R122), and the barrier that an acknowledgement lets CW look at again (R116). -/

namespace Sys2Proof.Machine

open Sys2Proof

/-! ### Notices in the queue (R177) -/

/-- A notice raised stands in the queue with its fields. -/
theorem noticeQueue_raised (n : Notice) (q : List Notice) :
    ∃ x ∈ noticeQueue n q, x.obj = n.obj ∧ x.event = n.event ∧ x.fields = n.fields := by
  unfold noticeQueue
  split
  next h =>
    obtain ⟨e, he, ho⟩ := List.any_eq_true.mp h
    refine ⟨_, List.mem_map_of_mem he, ?_⟩
    rw [if_pos ho]
    exact ⟨rfl, rfl, rfl⟩
  next => exact ⟨_, List.mem_append_right _ (List.mem_singleton_self _), rfl, rfl, rfl⟩

/-- A notice raised for another object leaves the entry of this one. -/
theorem noticeQueue_keeps {n x : Notice} {q : List Notice} (hx : x ∈ q) (ho : x.obj ≠ n.obj) : x ∈ noticeQueue n q := by
  unfold noticeQueue
  split
  · exact List.mem_map.mpr ⟨x, hx, if_neg (by simpa using ho)⟩
  · exact List.mem_append_left _ hx

namespace Device

/-! ### What the blocks watch of arms (R75, R80, R83) -/

/-- A bay rests as before when it and its arms are as before in all that the blocks watch. -/
theorem bayRests_congr {d e : Device} (hr : e.armRecs = d.armRecs) (hi : e.injs = d.injs)
    (ha : ∀ a, (e.arm a).position = (d.arm a).position ∧ (e.arm a).travel = (d.arm a).travel ∧ (e.arm a).batch = (d.arm a).batch)
    {b : BayId} (hs : (e.bay b).state = (d.bay b).state) (hc : (e.bay b).causes = (d.bay b).causes) :
    e.bayRests b = d.bayRests b := by
  have h1 : ∀ a, (e.arm a).position = (d.arm a).position := fun a => (ha a).1
  have h2 : ∀ a, (e.arm a).travel = (d.arm a).travel := fun a => (ha a).2.1
  have h3 : ∀ a, (e.arm a).batch = (d.arm a).batch := fun a => (ha a).2.2
  have hshots : e.outstandingShots b = d.outstandingShots b :=
    outstandingShots_congr hr (fun c => by rw [inj, hi]; exact ⟨rfl, rfl⟩) b
  simp only [Device.bayRests, armsSeated, noBatch, hasBatch, armsOf_congr hr, h1, h2, h3, hshots, hs, hc]

theorem lineRests_congr {d e : Device} (hb : ∀ b, (e.bay b).state = (d.bay b).state) (hl : e.lu = d.lu) (l : LineId) :
    e.lineRests l = d.lineRests l := by
  have hwant : ∀ f x, e.wantedDrive f x = d.wantedDrive f x := fun f x => by
    unfold wantedDrive
    simp only [hb, hl]
  rw [lineRests, lineRests, line, hl, hwant]
  rfl

/-! ### CW's look at a barrier (R116, R118) -/

theorem recoveryEntries_congr {d e : Device} (h : e.meters = d.meters) (n : Nat) (l : List ArmId) :
    recoveryEntries e n l = recoveryEntries d n l := by
  induction l generalizing n with
  | nil => rfl
  | cons a t ih => rw [recoveryEntries, recoveryEntries, ih, meter, h]; rfl

/-- R118: a barrier with nothing to recover and a number to take starts. -/
theorem lookAtBarrier_starts {d : Device} (e : QEntry) {x : Barrier} (rest : List QEntry) (hr : d.recoveryArms x.image = [])
    (hn : d.nextNumber < 4294967296) : (d.lookAtBarrier e x rest).cw = { d.cw with
      queue := ⟨e.id, .barrier { x with number := some d.nextNumber, part := .body }, true⟩ :: rest
      write := some ⟨.barrier e.id .body, 1⟩ } := by
  unfold lookAtBarrier
  rw [hr]
  dsimp only
  rw [if_neg (Nat.not_le.mpr hn)]
  rfl

/-- R118: a barrier with nothing to recover is held when every number has been used. -/
theorem lookAtBarrier_exhausted {d : Device} (e : QEntry) {x : Barrier} (rest : List QEntry) (hr : d.recoveryArms x.image = [])
    (hn : 4294967296 ≤ d.nextNumber) : (d.lookAtBarrier e x rest).cw = { d.cw with held := some ⟨x.bay, .exhausted⟩ } := by
  unfold lookAtBarrier
  rw [hr]
  dsimp only
  rw [if_pos hn]
  rfl

/-- R116: the accumulators of a barrier's arms come ahead of it. -/
theorem lookAtBarrier_recovers {d : Device} (e : QEntry) {x : Barrier} (rest : List QEntry) {y : ArmId} {l : List ArmId}
    (hr : d.recoveryArms x.image = y :: l) : (d.lookAtBarrier e x rest).cw = { d.cw with
      queue := ⟨d.cw.nextId, .post ⟨y, (d.meter y).unwritten, true⟩, true⟩ ::
        (recoveryEntries d (d.cw.nextId + 1) l ++ e :: rest)
      nextId := d.cw.nextId + l.length + 1
      write := some ⟨.post d.cw.nextId, 1⟩ } ∧
    ∀ z, ((d.lookAtBarrier e x rest).meter z).unwritten = (if z ∈ y :: l then ⟨0, 0⟩ else (d.meter z).unwritten) := by
  have hcw : (d.takeUnwritten (y :: l)).cw = d.cw := by rw [← takeUnwritten_rest]
  have hlook : d.lookAtBarrier e x rest = ((d.takeUnwritten (y :: l)).onCw fun c => { c with nextId := c.nextId + (y :: l).length }).startHead
      ⟨d.cw.nextId, .post ⟨y, (d.meter y).unwritten, true⟩, false⟩ (recoveryEntries d (d.cw.nextId + 1) l ++ e :: rest)
      (.post d.cw.nextId) := by
    unfold lookAtBarrier
    rw [hr]
    rfl
  rw [hlook]
  refine ⟨?_, fun z => ?_⟩
  · simp only [startHead, onCw, hcw]
    rfl
  · have hz := takeUnwritten_meter (y :: l) d z
    show ((d.takeUnwritten (y :: l)).meter z).unwritten = _
    rw [hz]
    split <;> rfl

/-- R114, R116: CW, free to work, looks at the barrier at the head of the queue. -/
theorem cwStart_looks {d : Device} {e : QEntry} {x : Barrier} {rest : List QEntry} (hw : d.cw.write = none)
    (hm : d.cwMayWork = true) (hr : d.cw.releases = []) (hq : d.cw.queue = e :: rest) (he : e.body = .barrier x)
    (hs : e.started = false) (hh : d.cw.held = none) : d.cwStart = d.lookAtBarrier e x rest := by
  unfold cwStart
  simp only [hw, hm, hr, hq, he, hs, hh, Option.isSome_none, Bool.not_true, Bool.or_self, Bool.false_eq_true, if_false]

/-- What CW's start raises is for the rack: another object's notice stays. -/
theorem lookAtBarrier_notices {d : Device} (e : QEntry) (b : Barrier) (rest : List QEntry) {x : Notice} (hx : x ∈ d.mp.notices)
    (ho : x.obj ≠ .rack) : x ∈ (d.lookAtBarrier e b rest).mp.notices := by
  have htake : (d.takeUnwritten (d.recoveryArms b.image)).mp = d.mp := by rw [← takeUnwritten_rest]
  unfold lookAtBarrier
  split
  next h =>
    rw [h] at htake
    rw [← htake] at hx
    dsimp only
    split <;> exact hx
  next =>
    split
    · exact noticeQueue_keeps hx ho
    · exact hx

theorem cwStart_notices {d : Device} {x : Notice} (hx : x ∈ d.mp.notices) (ho : x.obj ≠ .rack) : x ∈ d.cwStart.mp.notices := by
  unfold cwStart
  split
  · exact hx
  split
  · exact hx
  split
  · exact hx
  split
  · exact hx
  · split
    · exact hx
    · split
      · split
        · exact hx
        · exact lookAtBarrier_notices _ _ _ hx ho
      · exact lookAtBarrier_notices _ _ _ hx ho

end Device

/-! ### Events of which CW alone has work to do (R114) -/

/-- The two parts agree in all that the blocks watch after an event, but for CW's. -/
structure Device.SameButCw (d e : Device) : Prop where
  boot    : e.boot = d.boot
  armRecs : e.armRecs = d.armRecs
  injs    : e.injs = d.injs
  lu      : e.lu = d.lu
  bays    : ∀ b, (e.bay b).state = (d.bay b).state ∧ (e.bay b).causes = (d.bay b).causes ∧
    (e.bay b).ground = (d.bay b).ground ∧ (e.bay b).overfill = (d.bay b).overfill
  arms    : ∀ a, (e.arm a).position = (d.arm a).position ∧ (e.arm a).travel = (d.arm a).travel ∧ (e.arm a).batch = (d.arm a).batch

theorem settle_sameButCw {d e : Device} (hd : d.settled = true) (h : d.SameButCw e) : settle d e = e.cwStart.cwPark := by
  obtain ⟨hbays, hlines, -⟩ := (settled_iff d).mp hd
  have hquiet : ∀ a, d.effectiveStage a = e.effectiveStage a ∧ (d.arm a).position = (e.arm a).position := fun a =>
    ⟨(Device.effectiveStage_congr (Device.bayOfArm_congr h.armRecs a) h.lu
      (fun b _ => ⟨(h.bays b).1, (h.bays b).2.2.1, (h.bays b).2.2.2⟩) (h.arms a).2.2).symm, (h.arms a).1.symm⟩
  rw [settle, supervise_quiet d e hquiet,
    allBayTests_rest e fun b => (Device.bayRests_congr h.armRecs h.injs h.arms (h.bays b).1 (h.bays b).2.1).trans (hbays b),
    driveOutputs_rest e fun l => (Device.lineRests_congr (fun b => (h.bays b).1) h.lu l).trans (hlines l)]

theorem settle_sameCw {d e : Device} (hd : d.settled = true) (h : d.SameButCw e) (hc : e.cw = d.cw) : settle d e = e := by
  obtain ⟨-, -, hrest, hpark⟩ := (settled_iff d).mp hd
  obtain ⟨h1, h2⟩ := Device.cwRests_congr h.boot hc
  rw [settle_sameButCw hd h, cwStart_rest e (h1.trans hrest), cwPark_rest e (h2.trans hpark)]

namespace Device

/-! ### TOTALIZER ACK (R122) -/

/-- R122: the part with arm `a`'s fault mark cleared, and the change reported. -/
def acked (d : Device) (a : ArmId) : Device :=
  if (d.arm a).totFault then (d.onArm a fun c => { c with totFault := false }).armNotice a 12 []
  else d.onArm a fun c => { c with totFault := false }

theorem acked_clear {d : Device} {a : ArmId} (h : (d.arm a).totFault = false) : d.acked a = d := by
  unfold acked
  rw [if_neg (by rw [h]; decide)]
  exact onArm_same d a _ (by rw [← h])

theorem acked_marked {d : Device} {a : ArmId} (h : (d.arm a).totFault = true) :
    d.acked a = (d.onArm a fun c => { c with totFault := false }).armNotice a 12 [] := if_pos h

theorem acked_frame (d : Device) (a : ArmId) : { d with
    arms := Bank.write d.arms a { d.arm a with totFault := false }
    mp := { d.mp with notices := (d.acked a).mp.notices } } = d.acked a := by
  unfold acked
  split <;> rfl

theorem acked_intoService (d : Device) (c : Instr) (a : ArmId) : (d.intoService c).acked a = (d.acked a).intoService c := by
  unfold acked
  show (if (d.arm a).totFault = true then _ else _) = _
  split <;> rfl

theorem acked_cw (d : Device) (a : ArmId) : (d.acked a).cw = d.cw := by rw [← acked_frame]

theorem acked_arm (d : Device) (a x : ArmId) :
    (d.acked a).arm x = if x = a then { d.arm a with totFault := false } else d.arm x := by
  rw [← acked_frame]
  exact Bank.read_write ..

theorem acked_sameButCw (d : Device) (a : ArmId) : d.SameButCw (d.acked a) := by
  have h := acked_frame d a
  have hbays : (d.acked a).bays = d.bays := by rw [← h]
  refine ⟨by rw [← h], by rw [← h], by rw [← h], by rw [← h], fun b => by rw [bay, hbays]; exact ⟨rfl, rfl, rfl, rfl⟩,
    fun x => ?_⟩
  rw [acked_arm]
  split
  next hx => rw [hx]; exact ⟨rfl, rfl, rfl⟩
  next => exact ⟨rfl, rfl, rfl⟩

theorem totalizerAck_eq (d : Device) (a : ArmId) : d.totalizerAck a = match d.cw.held with
    | some h => if h.waitsOn a then (d.acked a).onCw fun c => { c with held := none } else d.acked a
    | none => d.acked a := by
  rw [← acked_cw d a]
  rfl

/-- R122: with no barrier held for the arm an acknowledgement clears the mark alone. -/
theorem totalizerAck_free {d : Device} {a : ArmId} (h : ∀ x, d.cw.held = some x → x.waitsOn a = false) :
    d.totalizerAck a = d.acked a := by
  rw [totalizerAck_eq]
  split
  next x hx => rw [h x hx]; rfl
  next => rfl

/-- R122: a barrier held for the arm is held no more. -/
theorem totalizerAck_held {d : Device} {a : ArmId} {x : HeldBarrier} (hx : d.cw.held = some x) (hw : x.waitsOn a = true) :
    d.totalizerAck a = (d.acked a).onCw fun c => { c with held := none } := by
  rw [totalizerAck_eq, hx]
  exact if_pos hw

theorem totalizerAck_intoService (d : Device) (c : Instr) (a : ArmId) :
    (d.intoService c).totalizerAck a = (d.totalizerAck a).intoService c := by
  rw [totalizerAck_eq, totalizerAck_eq, acked_intoService]
  show (match d.cw.held with
    | some h => if h.waitsOn a then ((d.acked a).intoService c).onCw fun c => { c with held := none } else (d.acked a).intoService c
    | none => (d.acked a).intoService c) = _
  split
  · split <;> rfl
  · rfl

/-! ### TOTALIZER READ (R121) -/

theorem takeRead_now {d : Device} {t : Byte} {a : ArmId} (h : d.cw.mode = .parked ∨ (d.cw.entriesOf a = [] ∧ d.cw.write = none)) :
    d.takeRead t a = (d.answerTotalizer t a).leaveService := by
  unfold takeRead
  rw [if_pos h]

theorem takeRead_waits {d : Device} {t : Byte} {a : ArmId} (hm : d.cw.mode ≠ .parked)
    (h : d.cw.entriesOf a ≠ [] ∨ d.cw.write ≠ none) : d.takeRead t a =
      ((d.onCw fun c => { c with waiting := some ⟨t, a, c.entriesOf a⟩ }).onMp fun m => { m with reserved := true }).leaveService := by
  unfold takeRead
  rw [if_neg]
  rintro (hp | ⟨he, hw⟩)
  · exact hm hp
  · exact h.elim (absurd he) (absurd hw)

end Device

/-! ### The two requests, served as they arrive -/

/-- TOTALIZER READ as the part takes it into service. -/
theorem exec_totalizerRead (s : State) (t : Byte) (a : ArmId) : exec (.totalizerRead t (some a.val)) s =
    advance s fun d => d.request (.totalizerRead t (some a.val)) fun e => if e.cw.waiting.isSome then e else e.takeRead t a := by
  show execTotalizerRead t (some a.val) s = _
  simp only [execTotalizerRead, withOne_val]

theorem exec_totalizerAck (s : State) (t : Byte) (a : ArmId) : exec (.totalizerAck t (some a.val)) s =
    advance s fun d => d.request (.totalizerAck t (some a.val)) fun e => e.conclude 19 t (.ok (e.totalizerAck a)) := by
  show execTotalizerAck t (some a.val) s = _
  simp only [execTotalizerAck, withOne_val]

/-- R122: TOTALIZER ACK answers, and what follows is CW's alone. -/
theorem totalizerAck_served {s : State} (hq : s.quiet = true) (t : Byte) (a : ArmId) :
    exec (.totalizerAck t (some a.val)) s =
      .next { s with dev := settle s.dev ((s.dev.totalizerAck a).reply 19 t .ok []) } := by
  have hacked : (s.dev.acked a).mp = { s.dev.mp with notices := (s.dev.acked a).mp.notices } := by rw [← Device.acked_frame]
  have hmp : ∃ l, (s.dev.totalizerAck a).mp = { s.dev.mp with notices := l } := by
    rw [Device.totalizerAck_eq]
    split
    · split <;> exact ⟨_, hacked⟩
    · exact ⟨_, hacked⟩
  obtain ⟨l, hl⟩ := hmp
  rw [exec_totalizerAck]
  exact request_settles hq (by rw [hl]) (by rw [hl]) (congrArg Except.ok (Device.totalizerAck_intoService ..))

namespace Device

/-! ### A barrier held no more (R116, R122) -/

/-- R114: at rest, with no write in progress and free to work, CW has no release to write, and the head of its queue is the
unstarted barrier that is held. -/
theorem headWaits_of_rests {d : Device} {h : HeldBarrier} {e : QEntry} {x : Barrier} {rest : List QEntry}
    (hr : d.cwRests = true) (hw : d.cw.write = none) (hm : d.cwMayWork = true) (hh : d.cw.held = some h)
    (hq : d.cw.queue = e :: rest) (he : e.body = .barrier x) : d.cw.releases = [] ∧ e.started = false := by
  simpa [cwRests, hw, hm, headWaits, hq, he, hh] using And.imp_right And.left (by simpa [cwRests, hw, hm, headWaits, hq, he, hh] using hr)

/-- CW still has nothing to do once a barrier is held no more, when it may not work or has no entry queued. -/
theorem cwRests_unheld {d e : Device} (hr : d.cwRests = true) (hb : e.boot = d.boot)
    (hc : e.cw = { d.cw with held := none }) (h : d.cw.write ≠ none ∨ d.cwMayWork = false ∨ d.cw.queue = []) :
    e.cwRests = true := by
  have hm : e.cwMayWork = d.cwMayWork := by unfold cwMayWork; rw [hb, hc]
  unfold cwRests at hr ⊢
  rw [hm, hc]
  rcases h with h | h | h
  · have : d.cw.write.isSome = true := Option.isSome_iff_ne_none.mpr h
    simp [this]
  · simp [h]
  · have hhead : e.headWaits = true := by unfold headWaits; rw [hc, h]
    have hhead' : d.headWaits = true := by unfold headWaits; rw [h]
    rw [hhead]
    rwa [hhead'] at hr

theorem parkRests_unheld {d e : Device} (hb : e.boot = d.boot) (hc : e.cw = { d.cw with held := none }) :
    e.parkRests = d.parkRests := by
  unfold parkRests
  rw [hb, hc]

end Device

/-- R122: what follows an acknowledgement that frees a held barrier is that CW starts what it can; it does not park. -/
theorem settle_unheld {d e : Device} (hd : d.settled = true) (h : d.SameButCw e) (hc : e.cw = { d.cw with held := none }) :
    settle d e = e.cwStart := by
  obtain ⟨-, -, -, hpark⟩ := (settled_iff d).mp hd
  rw [settle_sameButCw hd h]
  by_cases hq : e.cw.queue = []
  · have hrest : e.cwRests = true :=
      Device.cwRests_unheld ((settled_iff d).mp hd).2.2.1 h.boot hc (.inr (.inr (by rwa [hc] at hq)))
    rw [cwStart_rest e hrest, cwPark_rest e ((Device.parkRests_unheld h.boot hc).trans hpark)]
  · exact Device.cwPark_busy (Device.cwStart_queue hq)

/-- No block watches the ports or a waiting read. -/
theorem settle_onMp {d : Device} (hd : d.settled = true) (f : Mp → Mp) : settle d (d.onMp f) = d.onMp f :=
  settle_sameView _ _ hd ⟨rfl, rfl, rfl, rfl, rfl, rfl, rfl⟩

theorem settle_waiting {d : Device} (hd : d.settled = true) (r : Cw → Option WaitingRead) (f : Mp → Mp) :
    settle d ((d.onCw fun c => { c with waiting := r c }).onMp f) = (d.onCw fun c => { c with waiting := r c }).onMp f := by
  obtain ⟨-, -, hrest, hpark⟩ := (settled_iff d).mp hd
  have hview : d.SameButCw ((d.onCw fun c => { c with waiting := r c }).onMp f) :=
    ⟨rfl, rfl, rfl, rfl, fun _ => ⟨rfl, rfl, rfl, rfl⟩, fun _ => ⟨rfl, rfl, rfl⟩⟩
  rw [settle_sameButCw hd hview, cwStart_rest, cwPark_rest]
  · exact hpark
  · exact hrest

/-- R121, R175: a request that becomes the waiting read leaves an empty FIFO as it was. -/
theorem waitingRead_leaves {d : Device} (c : Instr) (f : Cw → Cw) (hf : d.mp.fifo = []) (hi : d.mp.inService = false) :
    (((d.intoService c).onCw f).onMp fun m => { m with reserved := true }).leaveService =
      (d.onCw f).onMp fun m => { m with reserved := true } := by
  show { d with cw := f d.cw, mp := { d.mp with fifo := d.mp.fifo.tail, inService := false, reserved := true } } =
    { d with cw := f d.cw, mp := { d.mp with reserved := true } }
  rw [hf, ← hi, List.tail_nil, ← hf]

open Device in
/-- R121: a read that can be answered is answered at once. -/
theorem totalizerRead_answered {s : State} (hq : s.quiet = true) (t : Byte) {a : ArmId} (hw : s.dev.cw.waiting = none)
    (h : s.dev.cw.mode = .parked ∨ (s.dev.cw.entriesOf a = [] ∧ s.dev.cw.write = none)) :
    exec (.totalizerRead t (some a.val)) s = .next (s.answers s.dev 18 t .ok
      [⟨totalizerBody s.dev a, true,
        (Bank.read s.dev.custody.totals a).check ==
          totalizerCheck (Bank.read s.dev.custody.totals a).gross (Bank.read s.dev.custody.totals a).net, true⟩]) := by
  rw [exec_totalizerRead]
  refine request_answers hq (.refl _) rfl rfl ?_
  have hno : ¬ (s.dev.intoService (.totalizerRead t (some a.val))).cw.waiting.isSome = true := by
    show ¬ s.dev.cw.waiting.isSome = true
    rw [hw]; decide
  exact (if_neg hno).trans (takeRead_now (d := s.dev.intoService _) h)

open Device in
/-- R121: a read that cannot be answered waits, when none does. -/
theorem totalizerRead_waits {s : State} (hq : s.quiet = true) (t : Byte) {a : ArmId} (hw : s.dev.cw.waiting = none)
    (hm : s.dev.cw.mode ≠ .parked) (h : s.dev.cw.entriesOf a ≠ [] ∨ s.dev.cw.write ≠ none) :
    exec (.totalizerRead t (some a.val)) s = .next { s with dev :=
      (s.dev.onCw fun c => { c with waiting := some ⟨t, a, c.entriesOf a⟩ }).onMp fun m => { m with reserved := true } } := by
  obtain ⟨hserves, hsettled⟩ := s.quiet_iff.mp hq
  obtain ⟨-, hfifo, hserv, -⟩ := (serves_iff _).mp hserves
  have hno : ¬ (s.dev.intoService (.totalizerRead t (some a.val))).cw.waiting.isSome = true := by
    show ¬ s.dev.cw.waiting.isSome = true
    rw [hw]; decide
  have hrun := (takeRead_waits (d := s.dev.intoService (.totalizerRead t (some a.val))) (t := t) hm h).trans
    (waitingRead_leaves _ _ hfifo hserv)
  rw [exec_totalizerRead, advance, request_serves _ _ _ hserves, if_neg hno, hrun, settle_waiting hsettled]

/-- R121, R175: while a read waits, another stays in service. -/
theorem totalizerRead_stays {s : State} (hq : s.quiet = true) (t : Byte) {a : ArmId} (hw : s.dev.cw.waiting ≠ none) :
    exec (.totalizerRead t (some a.val)) s = .next { s with dev := s.dev.onMp fun m =>
      { m with fifo := [.totalizerRead t (some a.val)], inService := true } } := by
  obtain ⟨hserves, hsettled⟩ := s.quiet_iff.mp hq
  obtain ⟨-, hfifo, -, -⟩ := (serves_iff _).mp hserves
  have hyes : (s.dev.intoService (.totalizerRead t (some a.val))).cw.waiting.isSome = true := Option.isSome_iff_ne_none.mpr hw
  have hin : s.dev.intoService (.totalizerRead t (some a.val)) = s.dev.onMp fun m =>
      { m with fifo := [.totalizerRead t (some a.val)], inService := true } := by
    show { s.dev with mp := { s.dev.mp with fifo := .totalizerRead t (some a.val) :: s.dev.mp.fifo.tail, inService := true } } = _
    rw [hfifo]
    rfl
  rw [exec_totalizerRead, advance, request_serves _ _ _ hserves, if_pos hyes, hin,
    settle_onMp hsettled]

/-- R122: an acknowledgement that frees no barrier changes the mark and its notice alone. -/
theorem totalizerAck_quiet {s : State} (hq : s.quiet = true) (t : Byte) {a : ArmId}
    (hfree : ∀ h, s.dev.cw.held = some h → h.waitsOn a = false) :
    exec (.totalizerAck t (some a.val)) s = .next (s.answers (s.dev.acked a) 19 t .ok []) := by
  obtain ⟨-, hsettled⟩ := s.quiet_iff.mp hq
  obtain ⟨h1, h2, h3, h4, h5, h6⟩ := s.dev.acked_sameButCw a
  rw [totalizerAck_served hq, Device.totalizerAck_free hfree,
    settle_sameCw (e := (s.dev.acked a).reply 19 t .ok []) hsettled ⟨h1, h2, h3, h4, h5, h6⟩ (Device.acked_cw s.dev a)]
  rfl

/-- R122: the part after an acknowledgement that frees a held barrier, before CW starts. -/
def Device.unheld (d : Device) (t : Byte) (a : ArmId) : Device :=
  ((d.acked a).onCw fun c => { c with held := none }).reply 19 t .ok []

theorem Device.unheld_frame (d : Device) (t : Byte) (a : ArmId) : { d with
    arms := Bank.write d.arms a { d.arm a with totFault := false }
    cw := { d.cw with held := none }
    mp := { d.mp with answers := d.mp.answers ++ [⟨19#8, t, .ok, []⟩], notices := (d.acked a).mp.notices } } = d.unheld t a := by
  rw [unheld, ← acked_frame]
  rfl

/-- R122, R116: an acknowledgement that frees a held barrier lets CW start what it can. -/
theorem totalizerAck_looks {s : State} (hq : s.quiet = true) (t : Byte) {a : ArmId} {h : HeldBarrier}
    (hh : s.dev.cw.held = some h) (hw : h.waitsOn a = true) :
    exec (.totalizerAck t (some a.val)) s = .next { s with dev := (s.dev.unheld t a).cwStart } := by
  obtain ⟨-, hsettled⟩ := s.quiet_iff.mp hq
  obtain ⟨h1, h2, h3, h4, h5, h6⟩ := s.dev.acked_sameButCw a
  rw [totalizerAck_served hq, Device.totalizerAck_held hh hw]
  have hcw : (s.dev.unheld t a).cw = { s.dev.cw with held := none } := by rw [← Device.unheld_frame]
  exact congrArg (fun d => Host.Outcome.next { s with dev := d })
    (settle_unheld (e := s.dev.unheld t a) hsettled ⟨h1, h2, h3, h4, h5, h6⟩ hcw)

open Device in
/-- Settles O43: a read at once, waiting or staying in service; an acknowledgement that frees no barrier, and one that lets CW
look at the barrier at its head again. -/
theorem totalizerReadAndAck : Obligations.TotalizerReadAndAck := by
  intro s t a hq
  refine ⟨totalizerRead_answered hq t, totalizerRead_waits hq t, totalizerRead_stays hq t, fun hfree => ⟨fun hf => ?_, fun hf => ?_⟩,
    fun h hh hwaits => ⟨_, totalizerAck_looks hq t hh hwaits, rfl, ?_⟩⟩
  · rw [totalizerAck_quiet hq t hfree, acked_marked hf]
    rfl
  · rw [totalizerAck_quiet hq t hfree, acked_clear hf]
  · obtain ⟨hserves, hsettled⟩ := s.quiet_iff.mp hq
    obtain ⟨hboot, -⟩ := (serves_iff _).mp hserves
    obtain ⟨-, -, hrest, -⟩ := (settled_iff _).mp hsettled
    have hframe := unheld_frame s.dev t a
    have hstart := cwStart_frame (s.dev.unheld t a)
    have harm : ∀ x, (s.dev.unheld t a).cwStart.arm x = if x = a then { s.dev.arm a with totFault := false } else s.dev.arm x :=
      fun x => by rw [← hstart, ← hframe]; exact Bank.read_write ..
    have hcw : (s.dev.unheld t a).cw = { s.dev.cw with held := none } := by rw [← hframe]
    have hmeters : (s.dev.unheld t a).meters = s.dev.meters := by rw [← hframe]
    have hwork : s.dev.cwMayWork = (s.dev.cw.mode != .parked) := by unfold cwMayWork; rw [hboot]
    refine ⟨by rw [harm, if_pos rfl], by rw [← hstart, ← hframe], by rw [← hstart, ← hframe], fun y hy => by rw [harm, if_neg hy],
      by rw [← hstart, ← hframe], fun hf => ?_, fun hidle => ?_, fun e x rest hw hm hqueue he => ?_⟩
    · obtain ⟨x, hx, ho, hev, hfields⟩ := noticeQueue_raised ⟨.arm, .arm a, 12, [octets 1 a.val], 0⟩ s.dev.mp.notices
      have hraised : (s.dev.unheld t a).mp.notices = noticeQueue ⟨.arm, .arm a, 12, [octets 1 a.val], 0⟩ s.dev.mp.notices := by
        rw [← hframe, acked_marked hf]
        rfl
      exact ⟨x, cwStart_notices (hraised ▸ hx) (by rw [ho]; simp), ho, hev, hfields⟩
    · have hidle' : s.dev.cw.write ≠ none ∨ s.dev.cwMayWork = false ∨ s.dev.cw.queue = [] :=
        hidle.imp_right (Or.imp_left fun hp => by rw [hwork, hp]; rfl)
      rw [cwStart_rest _ (cwRests_unheld hrest (by rw [← hframe]) hcw hidle')]
      exact ⟨hcw, hmeters⟩
    · have hmay : s.dev.cwMayWork = true := by rw [hwork]; simpa using hm
      obtain ⟨hreleases, hstarted⟩ := headWaits_of_rests hrest hw hmay hh hqueue he
      have hlook : (s.dev.unheld t a).cwStart = (s.dev.unheld t a).lookAtBarrier e x rest :=
        cwStart_looks (by rw [hcw]; exact hw) (by rw [← hframe]; exact hmay) (by rw [hcw]; exact hreleases)
          (by rw [hcw]; exact hqueue) he hstarted (by rw [hcw])
      have hrec : (s.dev.unheld t a).recoveryArms x.image = s.dev.recoveryArms x.image := by rw [← hframe]; rfl
      have hnext : (s.dev.unheld t a).nextNumber = s.dev.nextNumber := by rw [← hframe]; rfl
      rw [hlook]
      refine ⟨fun hr hn => ?_, fun hr hn => ?_, fun y l hr => ?_⟩
      · rw [lookAtBarrier_starts e rest (hrec.trans hr) (by rw [hnext]; exact hn), hcw, hnext]
      · rw [lookAtBarrier_exhausted e rest (hrec.trans hr) (by rw [hnext]; exact hn), hcw]
      · obtain ⟨h1, h2⟩ := lookAtBarrier_recovers e rest (hrec.trans hr)
        have hmeter : ∀ z, (s.dev.unheld t a).meter z = s.dev.meter z := fun z => by rw [meter, hmeters]; rfl
        rw [h1, hcw, recoveryEntries_congr hmeters, hmeter]
        exact ⟨rfl, fun z => by rw [h2, hmeter]⟩

end Sys2Proof.Machine
end

