-- ==== Sys2Proof/Proofs/Interruptions.lean ====
section
/-! A trip or a hold told to the arms of a bay (R32, R74, R79): the flowing batches are INTERRUPTED, and nothing else of the
part moves but the notices. -/

namespace Sys2Proof.Machine

open Sys2Proof

/-! ### Batches that a trip or a hold interrupts -/

/-- R32: a flowing batch INTERRUPTED; any other stays. -/
def Batch.halted (t : Batch) : Batch := if t.phase.flowing then { t with phase := .interrupted } else t

theorem Batch.halted_flowing {t : Batch} (h : t.phase.flowing = true) : t.halted = { t with phase := .interrupted } := if_pos h

theorem Batch.halted_still {t : Batch} (h : t.phase.flowing = false) : t.halted = t := by
  unfold halted
  rw [h]
  rfl

theorem Batch.halted_not_flowing (t : Batch) : t.halted.phase.flowing = false := by
  unfold halted
  split
  · rfl
  next h => simpa using h

/-- R32: an arm whose batch a trip or a hold has reached. -/
def ArmCtl.halted (c : ArmCtl) : ArmCtl := { c with batch := c.batch.map Batch.halted }

theorem ArmCtl.halted_none {c : ArmCtl} (h : c.batch = none) : c.halted = c := by
  unfold halted
  rw [h, Option.map_none, ← h]

theorem ArmCtl.halted_still {c : ArmCtl} {t : Batch} (ht : c.batch = some t) (hf : t.phase.flowing = false) : c.halted = c := by
  unfold halted
  rw [ht, Option.map_some, Batch.halted_still hf, ← ht]

theorem ArmCtl.halted_flowing (c : ArmCtl) : c.halted.flowing = false := by
  unfold halted flowing
  cases c.batch with
  | none => rfl
  | some t => exact t.halted_not_flowing

namespace Device

/-- From `d` to `e` arms are changed and notices raised, and nothing else. -/
def ArmsOnly (d e : Device) : Prop := { d with arms := e.arms, mp := { d.mp with notices := e.mp.notices } } = e

theorem ArmsOnly.refl (d : Device) : d.ArmsOnly d := rfl

theorem ArmsOnly.trans {d e f : Device} (h : d.ArmsOnly e) (k : e.ArmsOnly f) : d.ArmsOnly f := by
  unfold ArmsOnly at *
  rw [← k, ← h]

theorem ArmsOnly.bays {d e : Device} (h : d.ArmsOnly e) : e.bays = d.bays := by rw [← h]

theorem ArmsOnly.bay {d e : Device} (h : d.ArmsOnly e) (b : BayId) : e.bay b = d.bay b := by rw [← h]; rfl

theorem ArmsOnly.bayOfArm {d e : Device} (h : d.ArmsOnly e) (a : ArmId) : e.bayOfArm a = d.bayOfArm a := by rw [← h]; rfl

/-- R32: an interruption of a batch outside CLOSING. -/
theorem interruptBatch_picked {d : Device} {a : ArmId} {t : Batch} {pick : Phase → Bool} (mark : BatchFlags → BatchFlags)
    (ht : (d.arm a).batch = some t) (hi : t.phase ≠ .interrupted) (hp : pick t.phase = true)
    (hb : ∀ b, d.bayOfArm a = some b → (d.bay b).state ≠ .closing) :
    d.interruptBatch a pick mark =
      (d.onArm a fun c => { c with batch := some { t with phase := .interrupted, flags := mark t.flags } }).armNotice a 4
        { t with phase := .interrupted, flags := mark t.flags : Batch }.noticeFields := by
  unfold interruptBatch
  rw [ht]
  dsimp only
  rw [if_neg hi, if_pos hp]
  split
  next b hbay =>
    split
    next hc => exact absurd hc (hb b hbay)
    next => rfl
  next => rfl

theorem interruptBatch_interrupted {d : Device} {a : ArmId} {t : Batch} (pick : Phase → Bool) (mark : BatchFlags → BatchFlags)
    (ht : (d.arm a).batch = some t) (hi : t.phase = .interrupted) :
    d.interruptBatch a pick mark = d.onBatch a fun x => { x with flags := mark x.flags } := by
  unfold interruptBatch
  rw [ht]
  exact if_pos hi

theorem interruptBatch_unpicked {d : Device} {a : ArmId} {pick : Phase → Bool} (mark : BatchFlags → BatchFlags)
    (h : ∀ t, (d.arm a).batch = some t → t.phase ≠ .interrupted ∧ pick t.phase = false) : d.interruptBatch a pick mark = d := by
  unfold interruptBatch
  split
  next => rfl
  next t ht =>
    obtain ⟨hi, hp⟩ := h t ht
    rw [if_neg hi, hp]
    rfl

/-- R32: a trip or a hold told to one arm of a bay that is not CLOSING. -/
theorem interruptBatch_halts {d : Device} {a : ArmId} (hb : ∀ b, d.bayOfArm a = some b → (d.bay b).state ≠ .closing) :
    d.ArmsOnly (d.interruptBatch a Phase.flowing id) ∧
    ∀ x, (d.interruptBatch a Phase.flowing id).arm x = if x = a then (d.arm a).halted else d.arm x := by
  have hsame : (d.arm a).halted = d.arm a → ∀ x, d.arm x = if x = a then (d.arm a).halted else d.arm x := fun h x => by
    split
    next hx => rw [hx, h]
    next => rfl
  cases ht : (d.arm a).batch with
  | none =>
    rw [interruptBatch_unpicked id fun t h => absurd (ht.symm.trans h) (by simp)]
    exact ⟨.refl d, hsame (ArmCtl.halted_none ht)⟩
  | some t =>
    by_cases hf : t.phase.flowing = true
    · have hi : t.phase ≠ .interrupted := fun h => by rw [h] at hf; exact nomatch hf
      rw [interruptBatch_picked id ht hi hf hb]
      refine ⟨rfl, fun x => ?_⟩
      rw [armNotice_arm, onArm_arm, ArmCtl.halted, ht, Option.map_some, Batch.halted_flowing hf]
      rfl
    · have hf' : t.phase.flowing = false := by simpa using hf
      have hstay : d.interruptBatch a Phase.flowing id = d := by
        by_cases hi : t.phase = .interrupted
        · rw [interruptBatch_interrupted Phase.flowing id ht hi]
          exact onArm_same d a _ (by rw [ht, ← ht]; simp)
        · exact interruptBatch_unpicked id fun u hu => by
            obtain rfl := Option.some.inj (ht.symm.trans hu)
            exact ⟨hi, hf'⟩
      rw [hstay]
      exact ⟨.refl d, hsame (ArmCtl.halted_still ht hf')⟩

/-- R32: a trip or a hold told to a list of arms, none of a CLOSING bay. -/
theorem foldl_interruptBatch (l : List ArmId) (hl : l.Nodup) (d : Device)
    (hb : ∀ a ∈ l, ∀ b, d.bayOfArm a = some b → (d.bay b).state ≠ .closing) :
    d.ArmsOnly (l.foldl (fun e a => e.interruptBatch a Phase.flowing id) d) ∧
    ∀ x, (l.foldl (fun e a => e.interruptBatch a Phase.flowing id) d).arm x = if x ∈ l then (d.arm x).halted else d.arm x := by
  induction l generalizing d with
  | nil => exact ⟨.refl d, fun x => by simp⟩
  | cons a t ih =>
    obtain ⟨hnot, ht⟩ := List.nodup_cons.mp hl
    obtain ⟨h1, h2⟩ := interruptBatch_halts (hb a List.mem_cons_self)
    obtain ⟨h3, h4⟩ := ih ht (d.interruptBatch a Phase.flowing id) fun y hy b hyb => by
      rw [h1.bay]
      exact hb y (List.mem_cons_of_mem _ hy) b ((h1.bayOfArm y).symm.trans hyb)
    refine ⟨h1.trans h3, fun x => ?_⟩
    rw [List.foldl_cons, h4, h2]
    by_cases hx : x = a
    · subst hx
      simp [hnot]
    · simp [hx]

theorem armsOf_nodup (d : Device) (b : BayId) : (d.armsOf b).Nodup := (by decide : allArms.Nodup).sublist List.filter_sublist

/-- R32: what a trip or a hold of a bay makes of the part. -/
theorem interruptBay_halts {d : Device} {b : BayId} (hb : (d.bay b).state ≠ .closing) : d.ArmsOnly (d.interruptBay b) ∧
    ∀ x, (d.interruptBay b).arm x = if x ∈ d.armsOf b then (d.arm x).halted else d.arm x :=
  foldl_interruptBatch (d.armsOf b) (armsOf_nodup d b) d fun a ha y hy => by
    obtain rfl := Option.some.inj ((mem_armsOf.mp ha).symm.trans hy)
    exact hb

/-! ### Trips (R73, R74) -/

/-- R74: the bay after a trip. -/
def tripBay (d : Device) (b : BayId) : Bay :=
  let r := if (d.bay b).state = .tripped then d.bay b else { d.bay b with state := .tripped, message := none }
  { r with resumeTimer := if r.lockout then none else some (secondsMs d.mp.settings.resumeWindow) }

/-- R74: a trip changes the bay and interrupts the flowing batches of its arms. -/
theorem enterTrip_halts (d : Device) (b : BayId) :
    { d with arms := (d.enterTrip b).arms, bays := Bank.write d.bays b (d.tripBay b),
             mp := { d.mp with notices := (d.enterTrip b).mp.notices } } = d.enterTrip b ∧
    ∀ x, (d.enterTrip b).arm x = if x ∈ d.armsOf b then (d.arm x).halted else d.arm x := by
  have hbay : (d.enterState b .tripped).onBay b (fun r =>
      { r with resumeTimer := if r.lockout then none else some (secondsMs d.mp.settings.resumeWindow) }) =
      d.onBay b fun _ => d.tripBay b := by
    rw [enterState, onBay_onBay]
    exact onBay_congr _ _ _ _ rfl
  have hstate : ((d.onBay b fun _ => d.tripBay b).bay b).state ≠ .closing := by
    rw [onBay_bay_same, tripBay]
    dsimp only
    split
    next h => rw [h]; decide
    next => exact nofun
  obtain ⟨h1, h2⟩ := interruptBay_halts hstate
  unfold enterTrip
  dsimp only
  rw [hbay]
  refine ⟨?_, h2⟩
  have h3 : (d.onBay b fun _ => d.tripBay b).ArmsOnly
      (((d.onBay b fun _ => d.tripBay b).interruptBay b).bayNotice b 8 []) := h1.trans rfl
  rw [← h3]
  rfl

theorem enterTrip_bay (d : Device) (b : BayId) : (d.enterTrip b).bay b = d.tripBay b := by
  rw [← (enterTrip_halts d b).1]
  exact Bank.read_write_same ..

theorem enterTrip_bay_other {d : Device} {b y : BayId} (h : y ≠ b) : (d.enterTrip b).bay y = d.bay y := by
  rw [← (enterTrip_halts d b).1]
  exact Bank.read_write_other _ _ _ _ h

theorem lockoutTest_same {d : Device} {b : BayId} {n : Nat} (h : (d.bay b).trips = n) : d.lockoutTest b n = d := by
  unfold lockoutTest
  rw [if_neg]
  rintro ⟨h1, h2⟩
  omega

theorem tripBay_trips (d : Device) (b : BayId) : (d.tripBay b).trips = (d.bay b).trips := by
  unfold tripBay
  dsimp only
  split <;> rfl

/-- R73: a cause that is no OVERFILL raises no trip count: it is seen alone, does nothing, trips the bay or joins its set. -/
theorem takeCause_simple {d : Device} {b : BayId} {c : TripCause} (hc : c ≠ .overfill) : d.takeCause b c =
    if (d.bay b).state = .closing ∨ (d.bay b).state = .noteCommit then d.onBay b fun x => { x with seen := x.seen.put c true }
    else if (d.bay b).takesCauses = false ∨ (d.bay b).causes.has c = true then d
    else if (d.bay b).state = .loading ∨ (d.bay b).state = .holding then (d.onBay b fun x => x.join c).enterTrip b
    else (d.onBay b fun x => x.join c).bayNotice b 10 [] := by
  have htrips : ((d.onBay b fun x => x.join c).bay b).trips = (d.bay b).trips := by
    rw [onBay_bay_same, Bay.join]
    exact if_neg hc
  rw [takeCause_eq, lockoutTest_same (by rw [enterTrip_bay, tripBay_trips, htrips]),
    lockoutTest_same (by rw [bayNotice_bay, htrips])]

end Device

end Sys2Proof.Machine
end

