-- ==== Sys2Proof/Proofs/TravelExpiry.lean ====
section
/-! The expiry of an arm's travel timer (R37, R38, R73, R82): what it makes of the batch and of the bay, by the effective stage
and the bay's state. -/

namespace Sys2Proof.Machine

open Sys2Proof

/-! ### Batches that keep all but their dosing -/

theorem Batch.onDose_core (t : Batch) (k : Nat) (f : Dosing → Dosing) : (t.onDose k f).core = t.core := rfl

theorem Batch.cancelLeft_core (t : Batch) : t.cancelLeft.core = t.core := by
  unfold cancelLeft
  rw [throttleClear_core]
  rfl

theorem Batch.finish_core {t u : Batch} (h : u.core = t.core) (m : Vol) (now : Time) (short : Bool) :
    (u.finish m now short).core = (t.finish m now short).core := by
  rw [eq_of_core h]
  rfl

namespace Device

theorem onBatch_core (d : Device) (a x : ArmId) (f : Batch → Batch) (hf : ∀ t, (f t).core = t.core) :
    ((d.onBatch a f).arm x).batch.map Batch.core = (d.arm x).batch.map Batch.core := by
  rw [onBatch, onArm_arm]
  split
  next h =>
    rw [h, Option.map_map]
    exact congrArg (fun g => (d.arm a).batch.map g) (funext hf)
  next => rfl

theorem onDose_core (d : Device) (r : DoseRef) (x : ArmId) (f : Dosing → Dosing) :
    ((d.onDose r f).arm x).batch.map Batch.core = (d.arm x).batch.map Batch.core := by
  unfold onDose onDoseBatch
  split
  · exact onBatch_core d r.arm x _ fun t => t.onDose_core ..
  · have h := foldl_onBay_arms (fun _ y =>
      { y with ended := y.ended.map fun z => if z.isRef r then z.onDose r.recipe f else z }) allBays d
    rw [arm, h]
    rfl

/-- R58, R61: a close told to DU leaves the open batch as it is, but for its dosing and its throttle mark. -/
theorem cancelPendings_core (d : Device) (a : ArmId) (mark : Bool) :
    ((d.cancelPendings a mark).arm a).batch.map Batch.core = (d.arm a).batch.map Batch.core := by
  have hfold : ∀ (l : List DoseRef) (e : Device),
      ((l.foldl (fun e r => e.onDose r fun x => x.cancelPending mark (d.underOffer r)) e).arm a).batch.map Batch.core =
        (e.arm a).batch.map Batch.core := fun l => by
    induction l with
    | nil => exact fun _ => rfl
    | cons r t ih => exact fun e => (ih _).trans (onDose_core ..)
  unfold cancelPendings
  split
  · exact hfold ..
  · refine (onBatch_core _ a a _ Batch.throttleClear_core).trans ?_
    rw [arm, setFates_arms]
    exact hfold ..

/-! ### A batch that a CLOSING bay ends (R34, R82) -/

/-- R34, R61: the arm and the bay after a batch has ended SHORT. -/
theorem endBatch_short {d : Device} {a : ArmId} {b : BayId} {t : Batch} (ht : (d.arm a).batch = some t) (hb : d.bayOfArm a = some b) :
    ((d.endBatch a true).arm a).batch = none ∧
    ∃ z ∈ ((d.endBatch a true).bay b).ended, z.core = (t.finish (d.meter a).mirror d.time true).core := by
  have hcore := cancelPendings_core d a false
  rw [ht, Option.map_some] at hcore
  obtain ⟨u, hu, huc⟩ := Option.map_eq_some_iff.mp hcore
  obtain ⟨l, hl⟩ := endBatch_eq true hu hb
  have hdosed := cancelPendings_dosed d a false
  have hw := cancelPendings_within hb false
  have hmeter : (d.cancelPendings a false).meter a = d.meter a := by rw [meter, hdosed.meters]; rfl
  have htime : (d.cancelPendings a false).time = d.time := by rw [← hw.rest]; rfl
  rw [hl, armNotice_arm, ended_arm, armNotice_bay, ended_bay, if_pos rfl]
  exact ⟨rfl, _, mem_insertEnded_self .., by rw [Batch.finish_core huc, hmeter, htime]⟩

/-- A batch's end changes of a bay's record its ended batches alone. -/
theorem endBatch_bay (d : Device) (a : ArmId) (short : Bool) (y : BayId) :
    ∃ l, (d.endBatch a short).bay y = { d.bay y with ended := l } := by
  have h0 := ((cancelPendings_dosed d a false).bay y).rest
  cases ht : ((d.cancelPendings a false).arm a).batch with
  | none =>
    refine ⟨((d.cancelPendings a false).bay y).ended, ?_⟩
    unfold endBatch
    dsimp only
    rw [ht]
    exact h0.symm
  | some t =>
    cases hb : d.bayOfArm a with
    | none =>
      refine ⟨((d.cancelPendings a false).bay y).ended, ?_⟩
      have hb' : (d.cancelPendings a false).bayOfArm a = none :=
        (bayOfArm_congr (cancelPendings_dosed d a false).armRecs a).trans hb
      unfold endBatch
      dsimp only
      rw [ht, hb']
      exact h0.symm
    | some b =>
      obtain ⟨l, hl⟩ := endBatch_eq short ht hb
      rw [hl, armNotice_bay, ended_bay]
      split
      next h =>
        subst h
        exact ⟨insertEnded (t.finish ((d.cancelPendings a false).meter a).mirror (d.cancelPendings a false).time short)
          ((d.cancelPendings a false).bay y).ended, by rw [← h0]⟩
      next => exact ⟨_, h0.symm⟩

end Device

/-! ### Interruptions and notices outside CLOSING -/

namespace Device

theorem interruptBatch_armsOnly {d : Device} {a : ArmId} (pick : Phase → Bool) (mark : BatchFlags → BatchFlags)
    (hb : ∀ b, d.bayOfArm a = some b → (d.bay b).state ≠ .closing) : d.ArmsOnly (d.interruptBatch a pick mark) := by
  unfold interruptBatch
  split
  · exact .refl d
  split
  · exact rfl
  split
  · dsimp only
    split
    next b hbay =>
      split
      next hc => exact absurd hc (hb b hbay)
      next => exact rfl
    next => exact rfl
  · exact .refl d

theorem interruptBatch_notices {d : Device} {a : ArmId} (pick : Phase → Bool) (mark : BatchFlags → BatchFlags)
    (hb : ∀ b, d.bayOfArm a = some b → (d.bay b).state ≠ .closing) {x : Notice} (hx : x ∈ d.mp.notices) (ho : x.obj ≠ .arm a) :
    x ∈ (d.interruptBatch a pick mark).mp.notices := by
  unfold interruptBatch
  split
  · exact hx
  split
  · exact hx
  split
  · dsimp only
    split
    next b hbay =>
      split
      next hc => exact absurd hc (hb b hbay)
      next => exact noticeQueue_keeps hx ho
    next => exact noticeQueue_keeps hx ho
  · exact hx

/-- R32: a trip or a hold of a bay raises no notice for an arm without a batch. -/
theorem foldl_interruptBatch_notices {a : ArmId} {x : Notice} (ho : x.obj = .arm a) (l : List ArmId) (d : Device)
    (hb : ∀ y ∈ l, ∀ b, d.bayOfArm y = some b → (d.bay b).state ≠ .closing) (ha : (d.arm a).batch = none)
    (hx : x ∈ d.mp.notices) : x ∈ (l.foldl (fun e y => e.interruptBatch y Phase.flowing id) d).mp.notices := by
  induction l generalizing d with
  | nil => exact hx
  | cons y t ih =>
    obtain ⟨h1, h2⟩ := interruptBatch_halts (hb y List.mem_cons_self)
    refine ih _ (fun z hz b hzb => ?_) ?_ ?_
    · rw [h1.bay]
      exact hb z (List.mem_cons_of_mem _ hz) b ((h1.bayOfArm z).symm.trans hzb)
    · rw [h2]
      split
      next h => rw [← h, ArmCtl.halted_none ha, ha]
      next => exact ha
    · by_cases hy : y = a
      · have hstay : d.interruptBatch a Phase.flowing id = d :=
          interruptBatch_unpicked id fun t h => absurd (ha.symm.trans h) (by simp)
        show x ∈ (d.interruptBatch y Phase.flowing id).mp.notices
        rwa [hy, hstay]
      · exact interruptBatch_notices _ _ (hb y List.mem_cons_self) hx (by rw [ho]; simpa using Ne.symm hy)

theorem enterTrip_notices {d : Device} {a : ArmId} {b : BayId} {x : Notice} (ho : x.obj = .arm a) (ha : (d.arm a).batch = none)
    (hx : x ∈ d.mp.notices) : x ∈ (d.enterTrip b).mp.notices := by
  unfold enterTrip
  refine noticeQueue_keeps ?_ (by rw [ho]; exact nofun)
  refine foldl_interruptBatch_notices ho _ _ (fun y hy z hz => ?_) ha hx
  obtain rfl := Option.some.inj ((mem_armsOf.mp hy).symm.trans hz)
  rw [onBay_bay_same]
  show ((d.enterState b .tripped).bay b).state ≠ _
  rw [enterState_state]
  decide

theorem takeCause_valve_notices {d : Device} {a : ArmId} {b : BayId} {x : Notice} (ho : x.obj = .arm a)
    (ha : (d.arm a).batch = none) (hx : x ∈ d.mp.notices) : x ∈ (d.takeCause b .valve).mp.notices := by
  rw [takeCause_simple (by decide)]
  split
  · exact hx
  split
  · exact hx
  split
  · exact enterTrip_notices ho ha hx
  · exact noticeQueue_keeps hx (by rw [ho]; exact nofun)

theorem closingTest_notices {d : Device} {b : BayId} {x : Notice} (ho : x.obj ≠ .bay b) (hx : x ∈ d.mp.notices) :
    x ∈ (d.closingTest b).mp.notices := by
  by_cases h : (d.bay b).state = .closing ∧ d.noBatch b = true ∧ d.outstandingShots b = 0
  · have hready : (d.noteReady b).mp = d.mp := by
      have hline : ∀ (e : Device) (o : Order) (k n : Nat), (e.releaseLine o k n).mp = e.mp := fun e o k n => by
        unfold releaseLine
        split
        · rfl
        split
        · rfl
        · unfold onAccount; split <;> rfl
      unfold noteReady
      dsimp only
      split
      · exact releaseLines_keeps Device.mp hline _ _ _
      · rfl
    have hnote : ((d.noteReady b).commitNote b).mp = d.mp := by
      rw [← hready]
      unfold commitNote
      split <;> rfl
    rw [closingTest_done h.1 h.2.1 h.2.2]
    refine noticeQueue_keeps ?_ ho
    show x ∈ ((d.noteReady b).commitNote b).mp.notices
    rwa [hnote]
  · rw [closingTest_still (by by_contra hno; simp only [not_or, Decidable.not_not, Bool.not_eq_false] at hno; exact h hno)]
    exact hx

theorem serveWaiting_notices (d : Device) (always : Bool) : (d.serveWaiting always).mp.notices = d.mp.notices := by
  unfold serveWaiting
  split
  · rfl
  · split <;> rfl

theorem resumeRead_notices (d : Device) : d.resumeRead.mp.notices = d.mp.notices := by
  have htake : ∀ t a, (d.takeRead t a).mp.notices = d.mp.notices := fun t a => by
    unfold takeRead
    split <;> rfl
  unfold resumeRead
  split
  · split
    · split
      · exact htake ..
      · rfl
    · rfl
  · rfl

/-- The blocks' last work raises notices for the rack alone. -/
theorem windUp_notices {d : Device} {x : Notice} (hx : x ∈ d.mp.notices) (ho : x.obj ≠ .rack) : x ∈ d.windUp.mp.notices := by
  have h1 : x ∈ d.driveOutputs.cwStart.mp.notices := cwStart_notices (by rwa [← driveOutputs_frame]) ho
  unfold windUp cwPark
  split
  · rw [resumeRead_notices, serveWaiting_notices]
    exact noticeQueue_keeps h1 ho
  · exact h1

/-! ### The expiry by the effective stage (R37, R38) -/

/-- R38: the travel timer stopped at its expiry, and the fault reported. -/
def travelFault (d : Device) (a : ArmId) : Device :=
  (d.onArm a fun c => { c with travel := none }).armNotice a 6
    [octets 1 (d.effectiveStage a).code, octets 1 (d.arm a).position.code]

theorem travelFault_arm (d : Device) (a x : ArmId) :
    (d.travelFault a).arm x = if x = a then { d.arm a with travel := none } else d.arm x := Bank.read_write ..

theorem travelFault_armsOnly (d : Device) (a : ArmId) : d.ArmsOnly (d.travelFault a) := rfl

theorem travelExpired_stopped {d : Device} {a : ArmId} (h : (d.arm a).travel = none) : d.travelExpired a = d := if_pos h

theorem travelExpired_open {d : Device} {a : ArmId} (ht : (d.arm a).travel ≠ none) (hs : d.effectiveStage a ≠ .closed) :
    d.travelExpired a = (d.travelFault a).interruptBatch a Phase.flowing BatchFlags.markValve := by
  unfold travelExpired
  rw [if_neg ht]
  dsimp only
  split
  · rfl
  · rfl
  next h => exact absurd h hs

/-- R38, R73: the fault with the stage CLOSED, taken by the arm's bay if it has one. -/
def valveFault (d : Device) (a : ArmId) : Device :=
  match d.bayOfArm a with
  | some b => (d.travelFault a).takeCause b .valve
  | none => d.travelFault a

theorem valveFault_bay {d : Device} {a : ArmId} {b : BayId} (hb : d.bayOfArm a = some b) :
    d.valveFault a = (d.travelFault a).takeCause b .valve := by
  unfold valveFault
  rw [hb]

theorem valveFault_bayless {d : Device} {a : ArmId} (hb : d.bayOfArm a = none) : d.valveFault a = d.travelFault a := by
  unfold valveFault
  rw [hb]

theorem travelExpired_closed {d : Device} {a : ArmId} (ht : (d.arm a).travel ≠ none) (hs : d.effectiveStage a = .closed) :
    d.travelExpired a = (d.valveFault a).interruptBatch a Phase.closing BatchFlags.markValve := by
  unfold travelExpired
  rw [if_neg ht]
  dsimp only
  split
  next h => rw [hs] at h; cases h
  next h => rw [hs] at h; cases h
  next => rfl

/-! ### What follows for the bay (R75, R80, R83) -/

/-- R75: out of TRIPPED a cause that leaves the set leaves it, and no more. -/
theorem clearCause_bay {d : Device} {b : BayId} (c : TripCause) (h : (d.bay b).state ≠ .tripped) :
    ∃ s, (d.clearCause b c).bay b = { d.bay b with causes := s } := by
  have h1 : ((d.onBay b fun x => { x with causes := x.causes.put c false }).bayNotice b 10 []).bay b =
      { d.bay b with causes := (d.bay b).causes.put c false } := by rw [bayNotice_bay, onBay_bay_same]
  unfold clearCause
  dsimp only
  split
  · exact ⟨_, rfl⟩
  · rw [if_neg, h1]
    · exact ⟨_, rfl⟩
    · rw [h1]
      exact fun hk => h hk.1

theorem valveTest_bay {d : Device} {b : BayId} (h : (d.bay b).state ≠ .tripped) :
    ∃ s, (d.valveTest b).bay b = { d.bay b with causes := s } := by
  unfold valveTest
  split
  · exact clearCause_bay _ h
  · exact ⟨_, rfl⟩

theorem grantHold_still {d : Device} {b : BayId}
    (h : (d.bay b).state ≠ .holding ∨ ∃ a ∈ d.armsOf b, (d.arm a).position ≠ .closed) : d.grantHold b = d := by
  unfold grantHold
  rw [if_neg]
  rintro ⟨h1, h2⟩
  rcases h with h | ⟨a, ha, hp⟩
  · exact h h1
  · exact hp (by simpa using List.all_eq_true.mp h2 a ha)

theorem valveTest_still {d : Device} {b : BayId}
    (h : (d.bay b).causes.valve = false ∨ ∃ a ∈ d.armsOf b, (d.arm a).position ≠ .closed ∨ (d.arm a).travel ≠ none) :
    d.valveTest b = d := by
  unfold valveTest
  rw [if_neg]
  rintro ⟨h1, h2⟩
  rcases h with h | ⟨a, ha, hp⟩
  · rw [h] at h1; cases h1
  · have hseat := List.all_eq_true.mp h2 a ha
    simp only [Bool.and_eq_true, beq_iff_eq] at hseat
    exact hp.elim (absurd hseat.1) (absurd hseat.2)

/-- A LOADING bay stays so. -/
theorem bayTests_loading {d : Device} {b : BayId} (h : (d.bay b).state = .loading) :
    ∃ s, (d.bayTests b).bay b = { d.bay b with causes := s } := by
  obtain ⟨s, hs⟩ := valveTest_bay (d := d) (b := b) (by rw [h]; decide)
  have hstate : ((d.valveTest b).bay b).state = .loading := by rw [hs]; exact h
  rw [bayTests, grantHold_still (.inl (by rw [hstate]; decide)), closingTest_still (.inl (by rw [hstate]; decide))]
  exact ⟨s, hs⟩

/-- R75, R80: with an arm of the bay away from CLOSED no VALVE cause leaves and no hold is granted. -/
theorem bayTests_unseated {d : Device} {a : ArmId} {b : BayId} (ha : d.bayOfArm a = some b) (hp : (d.arm a).position ≠ .closed) :
    d.bayTests b = d.closingTest b := by
  have hmem := mem_armsOf.mpr ha
  rw [bayTests, valveTest_still (.inr ⟨a, hmem, .inl hp⟩), grantHold_still (.inr ⟨a, hmem, hp⟩)]

theorem ArmsOnly.spares {b : BayId} {d e : Device} (h : d.ArmsOnly e)
    (ha : ∀ a y, d.bayOfArm a = some y → y ≠ b → e.arm a = d.arm a) : d.Spares b e where
  armRecs := by rw [← h]
  lu := by rw [← h]
  arms := ha
  bays y _ := ⟨(d.bay y).ended, h.bay y⟩
  shots y _ := by rw [← h]; rfl

/-- R36: an arm whose bay is not LOADING is commanded CLOSED. -/
theorem effectiveStage_of_not_loading {d : Device} {a : ArmId} (h : ∀ b, d.bayOfArm a = some b → (d.bay b).state ≠ .loading) :
    d.effectiveStage a = .closed := by
  rw [effectiveStage_eq_closed_iff, ← Bool.not_eq_true, mayOpen_iff]
  rintro ⟨b, hb, hl, -⟩
  exact h b hb hl

/-- R36: an arm without flow is commanded CLOSED. -/
theorem effectiveStage_of_not_flowing {d : Device} {a : ArmId} (h : (d.arm a).flowing = false) : d.effectiveStage a = .closed := by
  rw [effectiveStage_eq_closed_iff, ← Bool.not_eq_true, mayOpen_iff]
  rintro ⟨b, -, -, -, -, -, hf⟩
  rw [h] at hf
  cases hf

/-- R32: the arm's batch `t` INTERRUPTED, its flags marked, and the interruption reported. -/
def interrupting (d : Device) (a : ArmId) (t : Batch) (mark : BatchFlags → BatchFlags) : Device :=
  (d.onArm a fun c => { c with batch := some { t with phase := .interrupted, flags := mark t.flags } }).armNotice a 4
    { t with phase := .interrupted, flags := mark t.flags : Batch }.noticeFields

theorem interrupting_batch (d : Device) (a : ArmId) (t : Batch) (mark : BatchFlags → BatchFlags) :
    ((d.interrupting a t mark).arm a).batch = some { t with phase := .interrupted, flags := mark t.flags } := by
  rw [interrupting, armNotice_arm, onArm_arm_same]

/-- R82: an interruption in a CLOSING bay ends the batch at once. -/
theorem interruptBatch_closing {d : Device} {a : ArmId} {b : BayId} {t : Batch} {pick : Phase → Bool}
    (mark : BatchFlags → BatchFlags) (ht : (d.arm a).batch = some t) (hi : t.phase ≠ .interrupted) (hp : pick t.phase = true)
    (hb : d.bayOfArm a = some b) (hc : (d.bay b).state = .closing) :
    d.interruptBatch a pick mark = (d.interrupting a t mark).endBatch a true := by
  unfold interruptBatch
  rw [ht]
  dsimp only
  rw [if_neg hi, if_pos hp]
  split
  next y hy =>
    obtain rfl := Option.some.inj (hb.symm.trans hy)
    exact if_pos hc
  next hy => exact nomatch hb.symm.trans hy

/-- An interruption starts no flow. -/
theorem interruptBatch_flowing {d : Device} {a : ArmId} {pick : Phase → Bool} {mark : BatchFlags → BatchFlags}
    (hb : ∀ b, d.bayOfArm a = some b → (d.bay b).state ≠ .closing)
    (h : ((d.interruptBatch a pick mark).arm a).flowing = true) : (d.arm a).flowing = true := by
  by_cases hp : ∃ t, (d.arm a).batch = some t ∧ (t.phase = .interrupted ∨ pick t.phase = true)
  · obtain ⟨t, ht, hp⟩ := hp
    obtain ⟨u, hu, hf⟩ := (ArmCtl.flowing_iff _).mp h
    rw [interruptBatch_batch pick mark ht hp hb] at hu
    rw [← Option.some.inj hu] at hf
    exact nomatch hf
  · have hstay : d.interruptBatch a pick mark = d := interruptBatch_unpicked mark fun t ht =>
      ⟨fun hi => hp ⟨t, ht, .inl hi⟩, by simpa using fun hpick => hp ⟨t, ht, .inr hpick⟩⟩
    rwa [hstay] at h

/-- An interruption changes of a bay's record its ended batches alone. -/
theorem interruptBatch_bay (d : Device) (a : ArmId) (pick : Phase → Bool) (mark : BatchFlags → BatchFlags) (y : BayId) :
    ∃ l, (d.interruptBatch a pick mark).bay y = { d.bay y with ended := l } := by
  unfold interruptBatch
  split
  · exact ⟨_, rfl⟩
  split
  · exact ⟨_, rfl⟩
  split
  · dsimp only
    split
    · split
      · exact endBatch_bay _ a true y
      · exact ⟨_, rfl⟩
    · exact ⟨_, rfl⟩
  · exact ⟨_, rfl⟩

theorem tripBay_state (d : Device) (b : BayId) : (d.tripBay b).state = .tripped := by
  unfold tripBay
  dsimp only
  split
  next h => exact h
  next => rfl

/-! ### The fault taken by the bay (R38, R73) -/

theorem valveFault_within {d : Device} {a : ArmId} {b : BayId} (hb : d.bayOfArm a = some b) : d.Within b (d.valveFault a) := by
  rw [valveFault_bay hb]
  exact ((onArm_within hb _).trans (armNotice_within ..)).trans (takeCause_within ..)

theorem valveFault_trips {d : Device} {a : ArmId} {b : BayId} (hb : d.bayOfArm a = some b)
    (hs : (d.bay b).state = .loading ∨ (d.bay b).state = .holding) (hc : (d.bay b).causes.valve = false) :
    d.valveFault a = ((d.travelFault a).onBay b fun x => x.join .valve).enterTrip b := by
  have htakes : (d.bay b).takesCauses = true := by unfold Bay.takesCauses; rcases hs with h | h <;> rw [h]
  have hbay : (d.travelFault a).bay b = d.bay b := rfl
  rw [valveFault_bay hb, takeCause_simple (by decide), hbay, if_neg, if_neg, if_pos hs]
  · rw [htakes]
    exact fun h => h.elim nofun fun h => by rw [CauseSet.has, hc] at h; cases h
  · rcases hs with h | h <;> rw [h] <;> decide

/-- R73: with VALVE in its set already a LOADING or HOLDING bay takes nothing, as a bay that takes no causes. -/
theorem valveFault_known {d : Device} {a : ArmId} {b : BayId} (hb : d.bayOfArm a = some b)
    (hs : (d.bay b).state ≠ .closing ∧ (d.bay b).state ≠ .noteCommit)
    (hc : (d.bay b).takesCauses = false ∨ (d.bay b).causes.valve = true) : d.valveFault a = d.travelFault a := by
  have hbay : (d.travelFault a).bay b = d.bay b := rfl
  rw [valveFault_bay hb, takeCause_simple (by decide), hbay, if_neg (by tauto)]
  exact if_pos hc

/-- R73: the cause joins the set of a bay TRIPPED, or HELD from LOADING. -/
theorem valveFault_joins {d : Device} {a : ArmId} {b : BayId} (hb : d.bayOfArm a = some b)
    (hs : (d.bay b).state = .tripped ∨ ((d.bay b).state = .held ∧ (d.bay b).before = some .loading))
    (hc : (d.bay b).causes.valve = false) :
    d.valveFault a = ((d.travelFault a).onBay b fun x => x.join .valve).bayNotice b 10 [] := by
  have htakes : (d.bay b).takesCauses = true := by
    unfold Bay.takesCauses
    rcases hs with h | ⟨h, hbefore⟩
    · rw [h]
    · rw [h, hbefore]; rfl
  have hstate : (d.bay b).state = .tripped ∨ (d.bay b).state = .held := hs.imp_right And.left
  have hbay : (d.travelFault a).bay b = d.bay b := rfl
  rw [valveFault_bay hb, takeCause_simple (by decide), hbay, if_neg, if_neg, if_neg]
  · rcases hstate with h | h <;> rw [h] <;> decide
  · rw [htakes]
    exact fun h => h.elim nofun fun h => by rw [CauseSet.has, hc] at h; cases h
  · rcases hstate with h | h <;> rw [h] <;> decide

/-- R73: in CLOSING and NOTE_COMMIT the cause is seen alone. -/
theorem valveFault_seen {d : Device} {a : ArmId} {b : BayId} (hb : d.bayOfArm a = some b)
    (hs : (d.bay b).state = .closing ∨ (d.bay b).state = .noteCommit) :
    d.valveFault a = (d.travelFault a).onBay b fun x => { x with seen := x.seen.put .valve true } := by
  have hbay : (d.travelFault a).bay b = d.bay b := rfl
  rw [valveFault_bay hb, takeCause_simple (by decide), hbay, if_pos hs]

/-- R73: the states of the bay in which the fault reaches no arm but `a`. -/
theorem valveFault_arms {d : Device} {a : ArmId} {b : BayId} (hb : d.bayOfArm a = some b)
    (hs : (d.bay b).state ≠ .loading ∧ (d.bay b).state ≠ .holding) : (d.valveFault a).arms = (d.travelFault a).arms := by
  have hbay : (d.travelFault a).bay b = d.bay b := rfl
  rw [valveFault_bay hb, takeCause_simple (by decide), hbay]
  split
  · rfl
  split
  · rfl
  rw [if_neg (by tauto)]
  rfl

/-- R32, R38: the arm after the bay has taken the fault. -/
theorem valveFault_arm (d : Device) (a : ArmId) : (d.valveFault a).arm a = { d.arm a with travel := none } ∨
    (d.valveFault a).arm a = ArmCtl.halted { d.arm a with travel := none } := by
  have htf : (d.travelFault a).arm a = { d.arm a with travel := none } := (travelFault_arm d a a).trans (if_pos rfl)
  cases hb : d.bayOfArm a with
  | none => exact .inl (by rw [valveFault_bayless hb, htf])
  | some b =>
    rw [valveFault_bay hb, takeCause_simple (by decide)]
    split
    · exact .inl htf
    split
    · exact .inl htf
    split
    · rw [(enterTrip_halts _ b).2, onBay_arm, htf]
      split
      · exact .inr rfl
      · exact .inl rfl
    · exact .inl htf

/-- R73, R74: the bay's state after it has taken the fault. -/
theorem valveFault_state {d : Device} {a : ArmId} {b : BayId} (hb : d.bayOfArm a = some b) : ((d.valveFault a).bay b).state =
    if ((d.bay b).state = .loading ∨ (d.bay b).state = .holding) ∧ (d.bay b).causes.valve = false then .tripped
    else (d.bay b).state := by
  have hbay : (d.travelFault a).bay b = d.bay b := rfl
  by_cases hl : (d.bay b).state = .loading ∨ (d.bay b).state = .holding
  · cases hc : (d.bay b).causes.valve
    · rw [if_pos ⟨hl, rfl⟩, valveFault_trips hb hl hc, enterTrip_bay, tripBay_state]
    · rw [if_neg (fun h => nomatch h.2), valveFault_known hb (by rcases hl with h | h <;> rw [h] <;> decide) (.inr hc), hbay]
  · rw [if_neg fun h => hl h.1, valveFault_bay hb, takeCause_simple (by decide), hbay, if_neg hl]
    split
    · rw [onBay_bay_same, hbay]
    split
    · rw [hbay]
    · rw [bayNotice_bay, onBay_bay_same, hbay]
      rfl

theorem travelExpired_within {d : Device} {a : ArmId} {b : BayId} (ht : (d.arm a).travel ≠ none)
    (hs : d.effectiveStage a = .closed) (hb : d.bayOfArm a = some b) : d.Within b (d.travelExpired a) := by
  have hw := valveFault_within hb
  rw [travelExpired_closed ht hs]
  exact hw.trans (interruptBatch_within ((hw.bayOfArm a).trans hb) _ _)

/-- R36: while the fault stands at a CLOSED stage, the stage stays CLOSED. -/
theorem travelExpired_stage {d : Device} {a : ArmId} {b : BayId} (ht : (d.arm a).travel ≠ none)
    (hs : d.effectiveStage a = .closed) (hb : d.bayOfArm a = some b) : (d.travelExpired a).effectiveStage a = .closed := by
  have hw := travelExpired_within ht hs hb
  obtain ⟨l, hl⟩ := interruptBatch_bay (d.valveFault a) a Phase.closing BatchFlags.markValve b
  by_cases hknown : (d.bay b).state = .loading ∧ (d.bay b).causes.valve = true
  · have hopen : ∀ y, (d.travelFault a).bayOfArm a = some y → ((d.travelFault a).bay y).state ≠ .closing := fun y hy => by
      obtain rfl := Option.some.inj (hb.symm.trans hy)
      show (d.bay b).state ≠ _
      rw [hknown.1]
      decide
    have hfault := valveFault_known hb (by rw [hknown.1]; decide) (.inr hknown.2)
    rw [hfault] at hl
    rw [effectiveStage_eq_closed_iff] at hs ⊢
    rw [← Bool.not_eq_true] at hs ⊢
    rintro h
    obtain ⟨y, hy, hstate, hground, hoverfill, hlatched, hflow⟩ := (mayOpen_iff _ a).mp h
    obtain rfl := Option.some.inj (hb.symm.trans ((hw.bayOfArm a).symm.trans hy))
    rw [travelExpired_closed ht (by rw [effectiveStage_eq_closed_iff]; simpa using hs), hfault] at hground hoverfill hflow
    rw [hl] at hground hoverfill
    refine hs ((mayOpen_iff d a).mpr ⟨b, hb, hknown.1, hground, hoverfill, ?_, ?_⟩)
    · rw [latched, ← hw.spares.lu]; exact hlatched
    · have hf := interruptBatch_flowing hopen hflow
      rw [travelFault_arm, if_pos rfl] at hf
      exact hf
  · refine effectiveStage_of_not_loading fun y hy => ?_
    obtain rfl := Option.some.inj (hb.symm.trans ((hw.bayOfArm a).symm.trans hy))
    rw [travelExpired_closed ht hs, hl]
    show ((d.valveFault a).bay b).state ≠ _
    rw [valveFault_state hb]
    split
    · exact nofun
    next h =>
      intro hload
      refine h ⟨.inl hload, ?_⟩
      simpa using fun hv => hknown ⟨hload, hv⟩

theorem tripBay_sets (d : Device) (b : BayId) : (d.tripBay b).causes = (d.bay b).causes ∧ (d.tripBay b).seen = (d.bay b).seen := by
  unfold tripBay
  dsimp only
  split <;> exact ⟨rfl, rfl⟩

end Device

/-! ### What follows the expiry -/

/-- An arm that an event leaves alone, in a bay whose conditions for an open stage it leaves alone, keeps its travel timer. -/
theorem settle_arm_same {b : BayId} {d e : Device} (hd : d.settled = true) (h : d.Spares b e) {x : ArmId} (hx : e.arm x = d.arm x)
    (hb : ∀ y, d.bayOfArm x = some y →
      (e.bay y).state = (d.bay y).state ∧ (e.bay y).ground = (d.bay y).ground ∧ (e.bay y).overfill = (d.bay y).overfill) :
    (settle d e).arm x = d.arm x := by
  have hstage := Device.effectiveStage_congr (h.bayOfArm x) h.lu hb (by rw [hx])
  rw [(settle_frame hd h).1, travelAfter_same hstage.symm (by rw [hx]), hx]

namespace Device

/-- R38: the arm at the expiry with the stage CLOSED: its timer is stopped, its position as it was. -/
theorem travelExpired_arm {d : Device} {a : ArmId} (ht : (d.arm a).travel ≠ none) (hs : d.effectiveStage a = .closed) :
    ((d.travelExpired a).arm a).travel = none ∧ ((d.travelExpired a).arm a).position = (d.arm a).position := by
  have hself := (interruptBatch_changesBatch (d.valveFault a) a Phase.closing BatchFlags.markValve).self
  rw [travelExpired_closed ht hs, ← hself]
  rcases valveFault_arm d a with h | h <;> rw [h] <;> exact ⟨rfl, rfl⟩

/-- R38: the batch at the expiry with the stage CLOSED, in a bay that is not CLOSING. -/
theorem travelExpired_batch {d : Device} {a : ArmId} {t : Batch} (ht : (d.arm a).travel ≠ none) (hs : d.effectiveStage a = .closed)
    (hopen : ∀ b, (d.valveFault a).bayOfArm a = some b → ((d.valveFault a).bay b).state ≠ .closing)
    (hx : (d.arm a).batch = some t) (hp : t.phase = .closeWait ∨ t.phase = .interrupted) :
    ((d.travelExpired a).arm a).batch = some { t with phase := .interrupted, flags := { t.flags with valveFault := true } } := by
  have hstill : t.phase.flowing = false := by rcases hp with h | h <;> rw [h] <;> rfl
  have hbatch : ((d.valveFault a).arm a).batch = some t := by
    rcases valveFault_arm d a with h | h
    · rw [h]; exact hx
    · rw [h]
      show (d.arm a).batch.map Batch.halted = _
      rw [hx, Option.map_some, Batch.halted_still hstill]
  rw [travelExpired_closed ht hs]
  refine (interruptBatch_batch Phase.closing BatchFlags.markValve hbatch ?_ hopen).trans rfl
  rcases hp with h | h
  · exact .inr (by rw [h]; rfl)
  · exact .inl h

theorem travelExpired_noBatch {d : Device} {a : ArmId} (ht : (d.arm a).travel ≠ none) (hs : d.effectiveStage a = .closed)
    (hx : (d.arm a).batch = none) : d.travelExpired a = d.valveFault a ∧ ((d.valveFault a).arm a).batch = none := by
  have hnone : ((d.valveFault a).arm a).batch = none := by
    rcases valveFault_arm d a with h | h
    · rw [h]; exact hx
    · rw [h]
      show (d.arm a).batch.map Batch.halted = _
      rw [hx]
      rfl
  exact ⟨(travelExpired_closed ht hs).trans (interruptBatch_unpicked _ fun t h => absurd (hnone.symm.trans h) nofun), hnone⟩

end Device

theorem exec_travelTimerExpiry (s : State) (a : ArmId) :
    exec (.travelTimerExpiry a) s = .next { s with dev := settle s.dev (s.dev.travelExpired a) } := rfl

section Expiry
open Device

variable {d : Device} {a : ArmId} {b : BayId}

/-- R38: what follows the expiry at a CLOSED stage, for the bay of an arm away from CLOSED, is at most the bay's closing. -/
theorem expiry_tests (ht : (d.arm a).travel ≠ none) (hs : d.effectiveStage a = .closed) (hp : (d.arm a).position ≠ .closed)
    (hb : d.bayOfArm a = some b) : (supervise d (d.travelExpired a)).bayTests b =
      (supervise d (d.travelExpired a)).closingTest b := by
  have hw := travelExpired_within ht hs hb
  refine bayTests_unseated (a := a) ?_ ?_
  · rw [← supervise_rest]
    exact (hw.bayOfArm a).trans hb
  · rw [supervise_arm]
    show ((d.travelExpired a).arm a).position ≠ _
    rwa [(travelExpired_arm ht hs).2]

/-- R37: the arm keeps its timer stopped. -/
theorem expiry_arm (hd : d.settled = true) (ht : (d.arm a).travel ≠ none) (hs : d.effectiveStage a = .closed)
    (hb : d.bayOfArm a = some b) : (settle d (d.travelExpired a)).arm a = (d.travelExpired a).arm a := by
  have hsame := travelAfter_same (hs.trans (travelExpired_stage ht hs hb).symm) (travelExpired_arm ht hs).2.symm
  rw [(settle_frame hd (travelExpired_within ht hs hb).spares).1, hsame]

/-- The bay after the expiry, where it is not CLOSING. -/
theorem expiry_bay (hd : d.settled = true) (ht : (d.arm a).travel ≠ none) (hs : d.effectiveStage a = .closed)
    (hp : (d.arm a).position ≠ .closed) (hb : d.bayOfArm a = some b) (hopen : ((d.valveFault a).bay b).state ≠ .closing) :
    (settle d (d.travelExpired a)).bay b = (d.valveFault a).bay b := by
  have hw := valveFault_within hb
  have honly := interruptBatch_armsOnly (d := d.valveFault a) (a := a) Phase.closing BatchFlags.markValve fun y hy => by
    obtain rfl := Option.some.inj (hb.symm.trans ((hw.bayOfArm a).symm.trans hy))
    exact hopen
  have hbay : (d.travelExpired a).bay b = (d.valveFault a).bay b := by rw [travelExpired_closed ht hs, honly.bay]
  have hsup : (supervise d (d.travelExpired a)).bay b = (d.valveFault a).bay b := by
    rw [← supervise_rest, ← hbay]
    rfl
  rw [bay, (settle_frame hd (travelExpired_within ht hs hb).spares).2.1, expiry_tests ht hs hp hb,
    closingTest_still (.inl (by rw [hsup]; exact hopen))]
  exact hsup

/-- R38, R82: the expiry in a CLOSING bay with a batch in CLOSE_WAIT: the arm and the ended batches. -/
theorem travelExpired_ends {t : Batch} (ht : (d.arm a).travel ≠ none) (hs : d.effectiveStage a = .closed)
    (hb : d.bayOfArm a = some b) (hc : (d.bay b).state = .closing) (hx : (d.arm a).batch = some t) (hp : t.phase = .closeWait) :
    ((d.travelExpired a).arm a).batch = none ∧ ∃ z ∈ ((d.travelExpired a).bay b).ended,
      z.core = (Batch.finish { t with phase := .interrupted, flags := { t.flags with valveFault := true } }
        (d.meter a).mirror d.time true).core := by
  have hfault := valveFault_seen hb (.inl hc)
  have hbatch : ((d.valveFault a).arm a).batch = some t := by
    rw [hfault, onBay_arm, travelFault_arm, if_pos rfl]
    exact hx
  have hbay : (d.valveFault a).bayOfArm a = some b := ((valveFault_within hb).bayOfArm a).trans hb
  have hstate : ((d.valveFault a).bay b).state = .closing := by
    rw [valveFault_state hb, if_neg (by rw [hc]; exact fun h => h.1.elim nofun nofun), hc]
  have hend : d.travelExpired a = ((d.valveFault a).interrupting a t BatchFlags.markValve).endBatch a true := by
    rw [travelExpired_closed ht hs]
    exact interruptBatch_closing _ hbatch (by rw [hp]; decide) (by rw [hp]; rfl) hbay hstate
  obtain ⟨hnone, z, hz, hcore⟩ := endBatch_short (d := (d.valveFault a).interrupting a t BatchFlags.markValve) (b := b)
    (interrupting_batch ..) hbay
  rw [hend]
  refine ⟨hnone, z, hz, hcore.trans ?_⟩
  rw [hfault]
  rfl

/-- R38, R82, R83: the bay after the expiry, where it is CLOSING: the cause is seen, and with nothing left to wait for the bay
passes to NOTE_COMMIT. -/
theorem expiry_closing (hd : d.settled = true) (ht : (d.arm a).travel ≠ none) (hs : d.effectiveStage a = .closed)
    (hp : (d.arm a).position ≠ .closed) (hb : d.bayOfArm a = some b) (hc : (d.bay b).state = .closing) :
    ((settle d (d.travelExpired a)).bay b).seen.valve = true ∧
    ((settle d (d.travelExpired a)).bay b).causes = (d.bay b).causes ∧
    ((settle d (d.travelExpired a)).bay b).state = (if (∀ y ∈ d.armsOf b, ((d.travelExpired a).arm y).batch = none) ∧
      d.outstandingShots b = 0 then .noteCommit else .closing) ∧
    ∀ z ∈ ((d.travelExpired a).bay b).ended, ∃ w ∈ ((settle d (d.travelExpired a)).bay b).ended, w.core = z.core := by
  have hw := travelExpired_within ht hs hb
  have hbay : ∃ l, (d.travelExpired a).bay b = { d.bay b with seen := (d.bay b).seen.put .valve true, ended := l } := by
    obtain ⟨l, hl⟩ := interruptBatch_bay (d.valveFault a) a Phase.closing BatchFlags.markValve b
    refine ⟨l, ?_⟩
    rw [travelExpired_closed ht hs, hl, valveFault_seen hb (.inl hc), onBay_bay_same]
    rfl
  obtain ⟨l, hl⟩ := hbay
  generalize hf : supervise d (d.travelExpired a) = f
  have hfrest := supervise_rest d (d.travelExpired a)
  have hfb : f.bay b = (d.travelExpired a).bay b := by rw [← hf, ← hfrest]; rfl
  have hfstate : (f.bay b).state = .closing := by rw [hfb, hl]; exact hc
  have hnone : f.noBatch b = true ↔ ∀ y ∈ d.armsOf b, ((d.travelExpired a).arm y).batch = none := by
    have harms : f.armsOf b = d.armsOf b := armsOf_congr (by rw [← hf, ← hfrest]; exact hw.armRecs) b
    rw [noBatch_iff, harms]
    refine forall₂_congr fun y _ => ?_
    rw [← hf, supervise_arm]
  have hshots : f.outstandingShots b = d.outstandingShots b := by
    rw [← hw.shots b, ← hf, ← hfrest]
    rfl
  have hu : (settle d (d.travelExpired a)).bay b = (f.closingTest b).bay b := by
    rw [bay, (settle_frame hd hw.spares).2.1, expiry_tests ht hs hp hb, hf]
    rfl
  rw [hu]
  by_cases hdone : (∀ y ∈ d.armsOf b, ((d.travelExpired a).arm y).batch = none) ∧ d.outstandingShots b = 0
  · rw [if_pos hdone, closingTest_bay hfstate (hnone.mpr hdone.1) (hshots.trans hdone.2), hfb, hl]
    exact ⟨rfl, rfl, rfl, fun z hz => ⟨z.cancelLeft, List.mem_map_of_mem hz, z.cancelLeft_core⟩⟩
  · have hstill : f.closingTest b = f := closingTest_still (.inr (by
      by_contra hno
      simp only [not_or, Bool.not_eq_false, Decidable.not_not] at hno
      exact hdone ⟨hnone.mp hno.1, hshots.symm.trans hno.2⟩))
    rw [if_neg hdone, hstill, hfb, hl]
    exact ⟨rfl, rfl, hc, fun z hz => ⟨z, hz, rfl⟩⟩

/-- R38, R73: the bay after the expiry, where the cause does more than be seen in a CLOSING bay. -/
theorem expiry_states (hd : d.settled = true) (ht : (d.arm a).travel ≠ none) (hs : d.effectiveStage a = .closed)
    (hp : (d.arm a).position ≠ .closed) (hb : d.bayOfArm a = some b) :
    (((d.bay b).state = .loading ∨ (d.bay b).state = .holding) → (d.bay b).causes.valve = false →
      ((settle d (d.travelExpired a)).bay b).state = .tripped ∧ ((settle d (d.travelExpired a)).bay b).causes.valve = true ∧
      ((settle d (d.travelExpired a)).bay b).seen.valve = true) ∧
    (((d.bay b).state = .tripped ∨ ((d.bay b).state = .held ∧ (d.bay b).before = some .loading)) →
      (settle d (d.travelExpired a)).bay b = (if (d.bay b).causes.valve then d.bay b else { d.bay b with
        causes := { (d.bay b).causes with valve := true }, seen := { (d.bay b).seen with valve := true } })) ∧
    (((d.bay b).state ∈ [.closed, .idle, .authorized] ∨ ((d.bay b).state = .held ∧ (d.bay b).before ≠ some .loading)) →
      (settle d (d.travelExpired a)).bay b = d.bay b) ∧
    ((d.bay b).state = .noteCommit → (settle d (d.travelExpired a)).bay b =
      { d.bay b with seen := { (d.bay b).seen with valve := true } }) := by
  have hnext := expiry_bay hd ht hs hp hb
  rw [valveFault_state hb] at hnext
  refine ⟨fun h hv => ?_, fun h => ?_, fun h => ?_, fun h => ?_⟩
  · obtain ⟨hcauses, hseen⟩ := tripBay_sets ((d.travelFault a).onBay b fun x => x.join .valve) b
    rw [hnext (by rw [if_pos ⟨h, hv⟩]; decide), valveFault_trips hb h hv, enterTrip_bay, tripBay_state, hcauses, hseen, onBay_bay_same]
    exact ⟨rfl, rfl, rfl⟩
  · have hstate : (d.bay b).state = .tripped ∨ (d.bay b).state = .held := h.imp_right And.left
    have hopen : (d.bay b).state ≠ .closing ∧ (d.bay b).state ≠ .noteCommit := by
      rcases hstate with h | h <;> rw [h] <;> decide
    rw [hnext (by rw [if_neg (by rcases hstate with h | h <;> rw [h] <;> exact fun k => k.1.elim nofun nofun)]; exact hopen.1)]
    cases hv : (d.bay b).causes.valve
    · rw [valveFault_joins hb h hv, bayNotice_bay, onBay_bay_same]
      rfl
    · rw [valveFault_known hb hopen (.inr hv)]
      rfl
  · have hclear : ((d.bay b).state ≠ .closing ∧ (d.bay b).state ≠ .noteCommit) ∧
        ¬ ((d.bay b).state = .loading ∨ (d.bay b).state = .holding) ∧ (d.bay b).takesCauses = false := by
      unfold Bay.takesCauses
      simp only [List.mem_cons, List.not_mem_nil, or_false] at h
      rcases h with (h | h | h) | ⟨h, hbefore⟩
      · simp [h]
      · simp [h]
      · simp [h]
      · rw [h]; exact ⟨by decide, by decide, by simpa using hbefore⟩
    obtain ⟨hopen, hnot, htakes⟩ := hclear
    rw [hnext (by rw [if_neg fun k => hnot k.1]; exact hopen.1), valveFault_known hb hopen (.inl htakes)]
    rfl
  · rw [hnext (by rw [if_neg (by rw [h]; exact fun k => k.1.elim nofun nofun), h]; decide), valveFault_seen hb (.inr h),
      onBay_bay_same]
    rfl

/-- R37: where no trip tells the bay's arms of the fault, every arm but `a` is as it was. -/
theorem expiry_arms (hd : d.settled = true) (ht : (d.arm a).travel ≠ none) (hs : d.effectiveStage a = .closed)
    (hb : d.bayOfArm a = some b) (hquiet : (d.bay b).state ≠ .loading ∧ (d.bay b).state ≠ .holding) {y : ArmId} (hy : y ≠ a) :
    (settle d (d.travelExpired a)).arm y = d.arm y := by
  have hw := travelExpired_within ht hs hb
  have harm : (d.travelExpired a).arm y = d.arm y := by
    have h1 := (interruptBatch_changesBatch (d.valveFault a) a Phase.closing BatchFlags.markValve).other y hy
    rw [travelExpired_closed ht hs, h1, arm, valveFault_arms hb hquiet]
    exact (travelFault_arm d a y).trans (if_neg hy)
  have hbay : ((d.travelExpired a).bay b).state ≠ .loading := by
    obtain ⟨l, hl⟩ := interruptBatch_bay (d.valveFault a) a Phase.closing BatchFlags.markValve b
    rw [travelExpired_closed ht hs, hl]
    show ((d.valveFault a).bay b).state ≠ _
    rw [valveFault_state hb, if_neg (by tauto)]
    exact hquiet.1
  have hstage : (d.travelExpired a).effectiveStage y = d.effectiveStage y := by
    by_cases hyb : d.bayOfArm y = some b
    · rw [effectiveStage_of_not_loading (d := d) fun x hx => by rw [← Option.some.inj (hyb.symm.trans hx)]; exact hquiet.1,
        effectiveStage_of_not_loading fun x hx => by
          rw [← Option.some.inj (hyb.symm.trans ((hw.bayOfArm y).symm.trans hx))]; exact hbay]
    · refine effectiveStage_congr (hw.bayOfArm y) hw.spares.lu (fun x hx => ?_) (by rw [harm])
      obtain ⟨l, hl⟩ := hw.bays x fun h => hyb (h ▸ hx)
      rw [hl]
      exact ⟨rfl, rfl, rfl⟩
  rw [(settle_frame hd hw.spares).1, travelAfter_same hstage.symm (by rw [harm]), harm]

/-- R42, R38: the notice of the fault stands while the arm has no batch. -/
theorem expiry_notice (hd : d.settled = true) (ht : (d.arm a).travel ≠ none) (hs : d.effectiveStage a = .closed)
    (hp : (d.arm a).position ≠ .closed) (hb : d.bayOfArm a = some b) (hx : (d.arm a).batch = none) :
    ∃ x ∈ (settle d (d.travelExpired a)).mp.notices, x.obj = .arm a ∧ x.event = 6 ∧
      x.fields = [octets 1 a.val, octets 1 0, octets 1 (d.arm a).position.code] := by
  obtain ⟨x, hmem, hobj, hevent, hfields⟩ := noticeQueue_raised
    ⟨.arm, .arm a, 6, [octets 1 a.val, octets 1 (d.effectiveStage a).code, octets 1 (d.arm a).position.code], 0⟩ d.mp.notices
  have h1 : x ∈ (d.valveFault a).mp.notices := by
    rw [valveFault_bay hb]
    exact takeCause_valve_notices hobj (by rw [travelFault_arm, if_pos rfl]; exact hx) hmem
  have h2 : x ∈ (supervise d (d.travelExpired a)).mp.notices := by
    rw [← supervise_rest, (travelExpired_noBatch ht hs hx).1]
    exact h1
  refine ⟨x, ?_, hobj, hevent, by rw [hfields, hs]; rfl⟩
  rw [settle_spares hd (travelExpired_within ht hs hb).spares, expiry_tests ht hs hp hb]
  exact windUp_notices (closingTest_notices (by rw [hobj]; exact nofun) h2) (by rw [hobj]; exact nofun)

/-- R37, R38: the expiry at an open stage: the batch is INTERRUPTED, the timer counts for the stage CLOSED. -/
theorem expiry_open {t : Batch} (hd : d.settled = true) (ht : (d.arm a).travel ≠ none) (hs : d.effectiveStage a ≠ .closed)
    (hx : (d.arm a).batch = some t) : ((settle d (d.travelExpired a)).arm a).batch =
        some { t with phase := .interrupted, flags := { t.flags with valveFault := true } } ∧
      ((settle d (d.travelExpired a)).arm a).travel =
        (if (d.arm a).position = .closed then none else some (d.mp.settings.valveTravel * 1000)) ∧
      (∀ y, y ≠ a → (settle d (d.travelExpired a)).arm y = d.arm y) ∧
      (∀ y, ((settle d (d.travelExpired a)).bay y).state = (d.bay y).state) ∧
      (settle d (d.travelExpired a)).custody = d.custody ∧ (settle d (d.travelExpired a)).lm = d.lm := by
  have hmay : d.mayOpen a = true := by simpa using mt (effectiveStage_eq_closed_iff d a).mpr hs
  obtain ⟨b, hb, hload, -, -, -, hflow⟩ := (mayOpen_iff d a).mp hmay
  obtain ⟨u, hu, hf⟩ := (ArmCtl.flowing_iff _).mp hflow
  obtain rfl := Option.some.inj (hx.symm.trans hu)
  have hexp : d.travelExpired a = (d.travelFault a).interrupting a t BatchFlags.markValve := by
    rw [travelExpired_open ht hs]
    refine interruptBatch_picked _ ?_ (fun h => by rw [h] at hf; exact nomatch hf) hf fun y hy => ?_
    · rw [travelFault_arm, if_pos rfl]
      exact hx
    · obtain rfl := Option.some.inj (hb.symm.trans hy)
      show (d.bay b).state ≠ _
      rw [hload]
      decide
  have honly : d.ArmsOnly (d.travelExpired a) := by rw [hexp]; rfl
  have harm : ∀ y, (d.travelExpired a).arm y = if y = a then { d.arm a with
      travel := none, batch := some { t with phase := .interrupted, flags := { t.flags with valveFault := true } } }
      else d.arm y := fun y => by
    rw [hexp, interrupting, armNotice_arm, onArm_arm]
    split
    · rw [travelFault_arm, if_pos rfl]
      rfl
    next h => exact (travelFault_arm d a y).trans (if_neg h)
  have hspares : d.Spares b (d.travelExpired a) := honly.spares fun y z hy hz => by
    rw [harm, if_neg]
    rintro rfl
    exact hz (Option.some.inj (hy.symm.trans hb))
  obtain ⟨h1, h2, h3, -, -, h4, h5⟩ := settle_frame hd hspares
  have hclosed : (d.travelExpired a).effectiveStage a = .closed :=
    effectiveStage_of_not_flowing (by rw [harm, if_pos rfl]; rfl)
  refine ⟨by rw [h1, harm, if_pos rfl], ?_, fun y hy => ?_, fun y => ?_, ?_, ?_⟩
  · have hagree : Stage.closed.agrees (d.arm a).position = true ↔ (d.arm a).position = .closed := by
      rw [Stage.agrees_iff]; simp
    have hmp : (d.travelExpired a).mp.settings = d.mp.settings := by rw [← honly]
    rw [h1, travelAfter, hclosed, if_neg fun h => hs h.1, hmp, harm, if_pos rfl]
    simp only [hagree]
    rw [if_pos hs]
    rfl
  · exact settle_arm_same hd hspares (by rw [harm, if_neg hy]) fun z _ => by rw [honly.bay]; exact ⟨rfl, rfl, rfl⟩
  · by_cases hy : y = b
    · subst hy
      have hsup : (supervise d (d.travelExpired a)).bay y = d.bay y := by
        rw [← honly.bay, ← supervise_rest d (d.travelExpired a)]
        rfl
      obtain ⟨c, hc⟩ := bayTests_loading (d := supervise d (d.travelExpired a)) (b := y) (by rw [hsup]; exact hload)
      rw [bay, h2]
      show (((supervise d (d.travelExpired a)).bayTests y).bay y).state = _
      rw [hc, hsup]
    · rw [h3 y hy, honly.bay]
  · rw [h4, ← honly]
  · rw [h5, ← honly]

/-- R38: the expiry at an arm that no bay has: the batch is INTERRUPTED from CLOSE_WAIT, and no bay takes the fault. -/
theorem expiry_bayless (hd : d.settled = true) (ht : (d.arm a).travel ≠ none) (hs : d.effectiveStage a = .closed)
    (hb : d.bayOfArm a = none) : ((settle d (d.travelExpired a)).arm a) = (d.travelExpired a).arm a ∧
      (settle d (d.travelExpired a)).custody = d.custody ∧ (settle d (d.travelExpired a)).lm = d.lm ∧
      (settle d (d.travelExpired a)).bays = d.bays ∧
      ∀ x ∈ (d.travelExpired a).mp.notices, x.obj ≠ .rack → x ∈ (settle d (d.travelExpired a)).mp.notices := by
  have hopen : ∀ y, (d.travelFault a).bayOfArm a = some y → ((d.travelFault a).bay y).state ≠ .closing :=
    fun y hy => absurd (hb.symm.trans hy) nofun
  have hexp : d.travelExpired a = (d.travelFault a).interruptBatch a Phase.closing BatchFlags.markValve := by
    rw [travelExpired_closed ht hs, valveFault_bayless hb]
  have honly : d.ArmsOnly (d.travelExpired a) := by
    rw [hexp]
    exact (travelFault_armsOnly d a).trans (interruptBatch_armsOnly _ _ hopen)
  have hspares : ∀ b, d.Spares b (d.travelExpired a) := fun b => honly.spares fun y z hy _ => by
    have hya : y ≠ a := by rintro rfl; exact nomatch hb.symm.trans hy
    rw [hexp, (interruptBatch_changesBatch ..).other y hya]
    exact (travelFault_arm d a y).trans (if_neg hya)
  have hstage : (d.travelExpired a).effectiveStage a = .closed := effectiveStage_of_not_loading fun y hy =>
    absurd (hb.symm.trans ((honly.bayOfArm a).symm.trans hy)) nofun
  obtain ⟨h1, h2, -, -, -, h4, h5⟩ := settle_frame hd (hspares 0)
  have hrest : (supervise d (d.travelExpired a)).bayTests 0 = supervise d (d.travelExpired a) :=
    bayTests_rest _ _ (((hspares 1).supervise.bayRests (by decide)).trans (((settled_iff d).mp hd).1 0))
  refine ⟨?_, by rw [h4, ← honly], by rw [h5, ← honly], ?_, fun x hx ho => ?_⟩
  · rw [h1, travelAfter_same (hs.trans hstage.symm) (travelExpired_arm ht hs).2.symm]
  · rw [h2, hrest, ← supervise_rest]
    exact honly.bays
  · rw [settle_spares hd (hspares 0), hrest]
    refine windUp_notices ?_ ho
    rw [← supervise_rest]
    exact hx

end Expiry

open Device in
/-- Settles O36: a stopped timer, an open stage, and the stage CLOSED by the state of the arm's bay, if it has one. -/
theorem travelExpiryFaultsTheValve : Obligations.TravelExpiryFaultsTheValve := by
  intro s a hd
  refine ⟨fun ht => ?_, fun x ht hs hx => ?_, fun ht hs hp => ?_⟩
  · rw [exec_travelTimerExpiry, travelExpired_stopped ht, settle_quiet s.dev s.dev hd fun _ => ⟨rfl, rfl⟩]
  · refine ⟨{ s with dev := settle s.dev (s.dev.travelExpired a) }, exec_travelTimerExpiry s a, rfl, ?_⟩
    dsimp only
    exact expiry_open hd ht hs hx
  · refine ⟨{ s with dev := settle s.dev (s.dev.travelExpired a) }, exec_travelTimerExpiry s a, rfl, ?_⟩
    dsimp only
    cases hb : s.dev.bayOfArm a with
    | none =>
      obtain ⟨harm, hcustody, hlm, hbays, hnotices⟩ := expiry_bayless hd ht hs hb
      have hopen : ∀ b, (s.dev.valveFault a).bayOfArm a = some b → ((s.dev.valveFault a).bay b).state ≠ .closing := fun b h => by
        rw [valveFault_bayless hb] at h
        exact nomatch hb.symm.trans h
      refine ⟨by rw [harm]; exact (travelExpired_arm ht hs).1, hcustody, hlm, fun y _ => by rw [bay, hbays]; rfl,
        fun _ x hx hphase => by rw [harm]; exact travelExpired_batch ht hs hopen hx (by simpa using hphase), fun hx => ?_,
        fun b h => nomatch h⟩
      obtain ⟨h1, h2⟩ := travelExpired_noBatch ht hs hx
      obtain ⟨n, hmem, hobj, hevent, hfields⟩ := noticeQueue_raised ⟨.arm, .arm a, 6,
        [octets 1 a.val, octets 1 (s.dev.effectiveStage a).code, octets 1 (s.dev.arm a).position.code], 0⟩ s.dev.mp.notices
      refine ⟨by rw [harm, h1, h2], n, hnotices n ?_ (by rw [hobj]; exact nofun), hobj, hevent, by rw [hfields, hs]; rfl⟩
      rw [h1, valveFault_bayless hb]
      exact hmem
    | some b =>
      have hw := travelExpired_within ht hs hb
      have harm := expiry_arm hd ht hs hb
      obtain ⟨-, -, hother, -, -, hcustody, hlm⟩ := settle_frame hd hw.spares
      obtain ⟨htrip, hjoin, hnone, hnote⟩ := expiry_states hd ht hs hp hb
      have hvf := valveFault_within hb
      refine ⟨by rw [harm]; exact (travelExpired_arm ht hs).1, hcustody.trans (by rw [← hw.rest]), hlm.trans (by rw [← hw.rest]),
        fun y hy => ?_, fun hopen x hx hphase => ?_, fun hx => ?_, fun y hy => ?_⟩
      · have hyb : y ≠ b := fun h => hy (h ▸ rfl)
        obtain ⟨l, hl⟩ := hw.bays y hyb
        rw [hother y hyb, hl]
      · rw [harm]
        refine travelExpired_batch ht hs (fun y hy => ?_) hx (by simpa using hphase)
        obtain rfl := Option.some.inj (hb.symm.trans ((hvf.bayOfArm a).symm.trans hy))
        rw [valveFault_state hb]
        split
        · decide
        · exact hopen b rfl
      · obtain ⟨h1, h2⟩ := travelExpired_noBatch ht hs hx
        exact ⟨by rw [harm, h1, h2], expiry_notice hd ht hs hp hb hx⟩
      · obtain rfl := Option.some.inj hy
        refine ⟨fun h => htrip (by simpa using h), hjoin, hnone, hnote, fun h x hx => ?_, fun hc => ?_⟩
        · exact expiry_arms hd ht hs hb (by
            simp only [List.mem_cons, List.not_mem_nil, or_false] at h
            rcases h with h | h | h | h | h | h <;> rw [h] <;> decide) hx
        · have hquiet : (s.dev.bay b).state ≠ .loading ∧ (s.dev.bay b).state ≠ .holding := by rw [hc]; decide
          obtain ⟨hseen, hcauses, hstate, hended⟩ := expiry_closing hd ht hs hp hb hc
          refine ⟨hseen, hcauses, fun x hx => expiry_arms hd ht hs hb hquiet hx, fun x hx hphase => ?_⟩
          obtain ⟨hnobatch, z, hz, hcore⟩ := travelExpired_ends ht hs hb hc hx hphase
          obtain ⟨w, hw', hwcore⟩ := hended z hz
          have hwz := Batch.eq_of_core (hwcore.trans hcore)
          refine ⟨by rw [harm, hnobatch], ⟨w, hw', ?_⟩, ?_⟩
          · rw [hwz]
            exact ⟨rfl, rfl, rfl, rfl, rfl, rfl, rfl⟩
          · rw [hstate]
            refine if_congr (and_congr_left fun _ => forall₂_congr fun y _ => ?_) rfl rfl
            by_cases hya : y = a
            · rw [hya, hnobatch]
              simp
            · have hsame : (s.dev.travelExpired a).arm y = s.dev.arm y := by
                have h1 := (interruptBatch_changesBatch (s.dev.valveFault a) a Phase.closing BatchFlags.markValve).other y hya
                rw [travelExpired_closed ht hs, h1, arm, valveFault_arms hb hquiet]
                exact (travelFault_arm s.dev a y).trans (if_neg hya)
              rw [hsame]
              simp [hya]

end Sys2Proof.Machine
end

