-- ==== Sys2Proof/Proofs/Holds.lean ====
section
/-! BAY HOLD and BAY RELEASE (R68, R72, R78 to R81): the hold source set or cleared, and what the bay's state makes of it. -/

namespace Sys2Proof.Machine

open Sys2Proof

theorem CauseSet.isEmpty_iff (c : CauseSet) : c.isEmpty = true ↔ c = .empty := by
  obtain ⟨g, o, e, p, v⟩ := c
  revert g o e p v
  decide

namespace Device

/-! ### The hold source (R78) -/

/-- R78: the part with the hold source of bay `b` set or cleared. -/
def withHold (d : Device) (b : BayId) (v : Bool) : Device := d.onBay b fun r => { r with holdBay := v }

theorem withHold_bay (d : Device) (b : BayId) (v : Bool) : (d.withHold b v).bay b = { d.bay b with holdBay := v } :=
  onBay_bay_same ..

/-- R78: with the rack hold as it is, the two sources take these values by a change of the bay's own alone. -/
theorem onBay_holds (d : Device) (b : BayId) (v : Bool) :
    (d.onBay b fun x => { x with holdBay := v, holdRack := (d.bay b).holdRack }) = d.withHold b v := onBay_congr _ _ _ _ rfl

theorem setHolds_same {d : Device} {b : BayId} {v : Bool} (h : (d.bay b).holdBay = v) : d.setHolds b v (d.bay b).holdRack = d :=
  if_pos ⟨h, rfl⟩

theorem setHolds_beside {d : Device} {b : BayId} {v : Bool} (h : (d.bay b).holdBay ≠ v) (hr : (d.bay b).holdRack = true) :
    d.setHolds b v (d.bay b).holdRack = (d.withHold b v).bayNotice b 11 [] := by
  unfold setHolds
  dsimp only
  rw [if_neg fun k => h k.1, onBay_holds, withHold_bay]
  simp [Bay.holding, hr]

theorem setHolds_first {d : Device} {b : BayId} (h : (d.bay b).holdBay = false) (hr : (d.bay b).holdRack = false) :
    d.setHolds b true (d.bay b).holdRack = (d.withHold b true).holdTaken b := by
  have hfree : (d.bay b).holding = false := by simp [Bay.holding, h, hr]
  have hheld : ({ d.bay b with holdBay := true } : Bay).holding = true := rfl
  unfold setHolds
  dsimp only
  rw [h, if_neg fun k => Bool.noConfusion k.1, onBay_holds, withHold_bay, hfree, hheld]
  rfl

theorem setHolds_last {d : Device} {b : BayId} (h : (d.bay b).holdBay = true) (hr : (d.bay b).holdRack = false) :
    d.setHolds b false (d.bay b).holdRack = (d.withHold b false).holdReleased b := by
  have hheld : (d.bay b).holding = true := by simp [Bay.holding, h]
  have hfree : ({ d.bay b with holdBay := false } : Bay).holding = false := hr
  unfold setHolds
  dsimp only
  rw [h, if_neg fun k => Bool.noConfusion k.1, onBay_holds, withHold_bay, hheld, hfree]
  rfl

/-! ### A hold taken and released, by the bay's state (R79, R81) -/

theorem enterHeld_eq {d : Device} {b : BayId} (p : BeforeHold) (h : (d.bay b).state ≠ .held) : d.enterHeld b p =
    (d.onBay b fun r => { r with state := .held, message := none, before := some p }).bayNotice b 12 [] := by
  unfold enterHeld
  rw [enterState_eq _ _ _ h, onBay_onBay]

theorem holdTaken_idle {d : Device} {b : BayId} (h : (d.bay b).state = .idle) : d.holdTaken b =
    (d.onBay b fun r => { r with state := .held, message := none, before := some .idle }).bayNotice b 12 [] := by
  unfold holdTaken
  rw [h]
  exact enterHeld_eq _ (by rw [h]; decide)

theorem holdTaken_authorized {d : Device} {b : BayId} (h : (d.bay b).state = .authorized) : d.holdTaken b =
    (d.onBay b fun r => { r with
      state := .held, message := none, before := some .authorized, authTimer := r.authTimer.suspend, heldDuring := true }).bayNotice
      b 12 [] := by
  unfold holdTaken
  rw [h]
  dsimp only
  rw [enterHeld_eq _ (by rw [onBay_bay_same, h]; decide), onBay_onBay]

theorem holdTaken_loading {d : Device} {b : BayId} (h : (d.bay b).state = .loading) : d.holdTaken b =
    ((d.onBay b fun r => { r with state := .holding, message := none, before := some .loading, heldDuring := true }).interruptBay
      b).bayNotice b 11 [] := by
  unfold holdTaken
  rw [h]
  dsimp only
  rw [enterState_eq _ _ _ (by rw [h]; decide), onBay_onBay]

theorem holdTaken_recorded {d : Device} {b : BayId} (h : (d.bay b).state ∈ [.closed, .holding, .held, .tripped, .closing, .noteCommit]) :
    d.holdTaken b = d.bayNotice b 11 [] := by
  simp only [List.mem_cons, List.not_mem_nil, or_false] at h
  unfold holdTaken
  rcases h with h | h | h | h | h | h <;> rw [h]

theorem holdReleased_recorded {d : Device} {b : BayId} (h : (d.bay b).state ∈ [.closed, .idle, .authorized, .loading, .closing, .noteCommit]) :
    d.holdReleased b = d.bayNotice b 13 [] := by
  simp only [List.mem_cons, List.not_mem_nil, or_false] at h
  unfold holdReleased
  rcases h with h | h | h | h | h | h <;> rw [h]

theorem holdReleased_tripped {d : Device} {b : BayId} (h : (d.bay b).state = .tripped) :
    d.holdReleased b = (d.onBay b fun r => { r with before := none }).bayNotice b 13 [] := by
  unfold holdReleased
  rw [h]

theorem holdReleased_held {d : Device} {b : BayId} (h : (d.bay b).state = .held) : d.holdReleased b = d.leaveHeld b := by
  unfold holdReleased
  rw [h]

/-- R81: a HOLDING bay released is LOADING, then the load is tested (R72). -/
theorem holdReleased_holding {d : Device} {b : BayId} (h : (d.bay b).state = .holding) : d.holdReleased b =
    ((d.onBay b fun r => { r with state := .loading, message := none, before := none }).bayNotice b 13 []).loadTest b := by
  unfold holdReleased
  rw [h]
  dsimp only
  rw [enterState_eq _ _ _ (by rw [h]; decide), onBay_onBay]

theorem leaveHeld_idle {d : Device} {b : BayId} (h : (d.bay b).state = .held) (hb : (d.bay b).before = some .idle)
    (hs : (d.bay b).swipe = none) : d.leaveHeld b =
      (d.onBay b fun r => { r with state := .idle, message := none, before := none, swipe := none }).bayNotice b 13 [] := by
  unfold leaveHeld
  dsimp only
  rw [hb, hs]
  dsimp only
  rw [enterState_eq _ _ _ (by rw [onBay_bay_same, h]; decide), onBay_onBay]

/-- R81: the swipe latched while the bay was HELD from IDLE is evaluated there. -/
theorem leaveHeld_swiped {d : Device} {b : BayId} {cred : Nat} (h : (d.bay b).state = .held) (hb : (d.bay b).before = some .idle)
    (hs : (d.bay b).swipe = some cred) : d.leaveHeld b =
      ((d.onBay b fun r => { r with state := .idle, message := none, before := none, swipe := none }).bayNotice b 13 []).swipeIdle
        b cred := by
  unfold leaveHeld
  dsimp only
  rw [hb, hs]
  dsimp only
  rw [enterState_eq _ _ _ (by rw [onBay_bay_same, h]; decide), onBay_onBay]

theorem leaveHeld_authorized {d : Device} {b : BayId} (h : (d.bay b).state = .held) (hb : (d.bay b).before = some .authorized) :
    (d.leaveHeld b) = (d.onBay b fun r => { r with
      state := .authorized, message := none, before := none, swipe := none, authTimer := r.authTimer.resume }).bayNotice b 13 [] := by
  unfold leaveHeld
  dsimp only
  rw [hb]
  dsimp only
  rw [enterState_eq _ _ _ (by rw [onBay_bay_same, h]; decide), onBay_onBay, onBay_onBay]

/-- R81: out of HELD from LOADING with no cause and no lockout the bay is LOADING, then the load is tested (R72). -/
theorem leaveHeld_loading {d : Device} {b : BayId} (h : (d.bay b).state = .held) (hb : (d.bay b).before = some .loading)
    (hc : (d.bay b).causes = .empty) (hl : (d.bay b).lockout = false) : d.leaveHeld b =
      ((d.onBay b fun r => { r with state := .loading, message := none, before := none, swipe := none }).bayNotice b 13 []).loadTest
        b := by
  unfold leaveHeld
  dsimp only
  rw [hb]
  dsimp only
  rw [if_neg (by rw [hc, hl]; decide), enterState_eq _ _ _ (by rw [onBay_bay_same, h]; decide), onBay_onBay]


/-- R81, R74: out of HELD from LOADING with a cause or the lockout the bay is TRIPPED. -/
theorem leaveHeld_trips {d : Device} {b : BayId} (hb : (d.bay b).before = some .loading)
    (h : (d.bay b).causes ≠ .empty ∨ (d.bay b).lockout = true) : d.leaveHeld b =
      ((d.onBay b fun r => { r with before := none, swipe := none }).enterTrip b).bayNotice b 13 [] := by
  have htrip : ((d.bay b).lockout || !(d.bay b).causes.isEmpty) = true := by
    rcases h with h | h
    · rw [Bool.or_eq_true]
      refine .inr ?_
      rw [Bool.not_eq_true', ← Bool.not_eq_true]
      exact fun he => h ((CauseSet.isEmpty_iff _).mp he)
    · rw [h]; rfl
  unfold leaveHeld
  dsimp only
  rw [hb]
  exact if_pos htrip

/-! ### What follows for the bay's own tests (R75, R80, R83) -/

theorem orderOf_congr {d e : Device} {b : BayId} (ho : e.orders = d.orders) (hb : (e.bay b).order = (d.bay b).order) :
    e.orderOf b = d.orderOf b := by
  unfold orderOf orderNumbered
  rw [hb, ho]

/-- R72: a load with a line not ended is not closed. -/
theorem loadTest_still {d : Device} {b : BayId} {o : Order} (ho : d.orderOf b = some o) (h : ∃ x ∈ o.lines, x.batch ≠ .ended) :
    d.loadTest b = d := by
  obtain ⟨x, hx, hn⟩ := h
  exact (loadTest_eq ho).2 fun hdone => hn (hdone.2.1 x hx)

theorem clearCause_orders {d : Device} {b : BayId} (c : TripCause) (h : (d.bay b).state ≠ .tripped) :
    (d.clearCause b c).orders = d.orders := by
  have h1 : ((d.onBay b fun x => { x with causes := x.causes.put c false }).bayNotice b 10 []).bay b =
      { d.bay b with causes := (d.bay b).causes.put c false } := by rw [bayNotice_bay, onBay_bay_same]
  unfold clearCause
  dsimp only
  split
  · rfl
  · rw [if_neg (by rw [h1]; exact fun hk => h hk.1)]
    rfl

theorem valveTest_orders {d : Device} {b : BayId} (h : (d.bay b).state ≠ .tripped) : (d.valveTest b).orders = d.orders := by
  unfold valveTest
  split
  · exact clearCause_orders _ h
  · rfl

/-- R75: a LOADING bay's tests leave the queue of orders. -/
theorem bayTests_loading_orders {d : Device} {b : BayId} (h : (d.bay b).state = .loading) : (d.bayTests b).orders = d.orders := by
  obtain ⟨s, hs⟩ := valveTest_bay (d := d) (b := b) (by rw [h]; decide)
  have hstate : ((d.valveTest b).bay b).state = .loading := by rw [hs]; exact h
  rw [bayTests, grantHold_still (.inl (by rw [hstate]; decide)), closingTest_still (.inl (by rw [hstate]; decide)),
    valveTest_orders (by rw [h]; decide)]

/-- R80: a HOLDING bay whose arms are all CLOSED is HELD. -/
theorem bayTests_granted {d : Device} {b : BayId} (h : (d.bay b).state = .holding)
    (ha : ∀ a ∈ d.armsOf b, (d.arm a).position = .closed) :
    (∃ s, (d.bayTests b).bay b = { d.bay b with state := .held, message := none, causes := s }) ∧ (d.bayTests b).orders = d.orders := by
  have hne : (d.bay b).state ≠ .tripped := by rw [h]; decide
  obtain ⟨s, hs⟩ := valveTest_bay (d := d) (b := b) hne
  have hof := valveTest_ofBay d b
  have hgrant : (d.valveTest b).grantHold b = ((d.valveTest b).enterState b .held).bayNotice b 12 [] := by
    refine if_pos ⟨by rw [hs]; exact h, List.all_eq_true.mpr fun a hmem => ?_⟩
    rw [hof.arm, beq_iff_eq]
    exact ha a (by rwa [armsOf_congr hof.spares.armRecs] at hmem)
  have hheld : (((d.valveTest b).grantHold b).bay b) = { d.bay b with state := .held, message := none, causes := s } := by
    rw [hgrant, bayNotice_bay, enterState_eq _ _ _ (by rw [hs]; show (d.bay b).state ≠ _; rw [h]; decide), onBay_bay_same, hs]
  rw [bayTests, closingTest_still (.inl (by rw [hheld]; exact nofun))]
  exact ⟨⟨s, hheld⟩, by rw [hgrant, ← valveTest_orders hne]; rfl⟩

theorem noBatch_congr {d e : Device} {b : BayId} (hr : e.armRecs = d.armRecs) (ha : ∀ a, (e.arm a).batch = (d.arm a).batch) :
    e.noBatch b = d.noBatch b := by
  simp only [noBatch, hasBatch, armsOf_congr hr, ha]

/-- R75, R80: a CLOSING bay without a cause has its closing tested, and no more. -/
theorem bayTests_closing {d : Device} {b : BayId} (h : (d.bay b).state = .closing) (hc : (d.bay b).causes = .empty) :
    d.bayTests b = d.closingTest b := by
  rw [bayTests, valveTest_still (.inl (by rw [hc]; rfl)), grantHold_still (.inl (by rw [h]; decide))]

end Device

/-! ### What follows an event of one bay, by the bay's state (R75, R80, R83) -/

theorem supervise_bay (d e : Device) (b : BayId) : (supervise d e).bay b = e.bay b := by rw [← supervise_rest]; rfl

theorem supervise_orders (d e : Device) : (supervise d e).orders = e.orders := by rw [← supervise_rest]

theorem supervise_armsOf (d e : Device) (b : BayId) : (supervise d e).armsOf b = e.armsOf b := by rw [← supervise_rest]; rfl

section After
variable {b : BayId} {d e : Device}

/-- The bay and the queue of orders are as the bay's own tests leave them. -/
theorem settle_bay (hd : d.settled = true) (h : d.Spares b e) : (settle d e).bay b = ((supervise d e).bayTests b).bay b ∧
    (settle d e).orders = ((supervise d e).bayTests b).orders := by
  obtain ⟨-, hbays, -, horders, -⟩ := settle_frame hd h
  exact ⟨congrArg (fun v => Bank.read v b) hbays, horders⟩

theorem settle_loading (hd : d.settled = true) (h : d.Spares b e) (hs : (e.bay b).state = .loading) :
    (∃ c, (settle d e).bay b = { e.bay b with causes := c }) ∧ (settle d e).orders = e.orders := by
  obtain ⟨hbay, horders⟩ := settle_bay hd h
  have hs' : ((supervise d e).bay b).state = .loading := by rw [supervise_bay]; exact hs
  obtain ⟨c, hc⟩ := Device.bayTests_loading hs'
  rw [hbay, horders, Device.bayTests_loading_orders hs', hc, supervise_bay, supervise_orders]
  exact ⟨⟨c, rfl⟩, rfl⟩

/-- R80: with an arm away from CLOSED a HOLDING bay stays so. -/
theorem settle_holding (hd : d.settled = true) (h : d.Spares b e) (hs : (e.bay b).state = .holding)
    (ha : ∃ a ∈ e.armsOf b, (e.arm a).position ≠ .closed) :
    (settle d e).bay b = e.bay b ∧ (settle d e).orders = e.orders := by
  obtain ⟨hbay, horders⟩ := settle_bay hd h
  obtain ⟨a, hmem, hp⟩ := ha
  have htests : (supervise d e).bayTests b = supervise d e := by
    rw [Device.bayTests_unseated (a := a) (Device.mem_armsOf.mp (by rw [supervise_armsOf]; exact hmem)) (by rw [supervise_arm]; exact hp),
      Device.closingTest_still (.inl (by rw [supervise_bay, hs]; decide))]
  rw [hbay, horders, htests, supervise_bay, supervise_orders]
  exact ⟨rfl, rfl⟩

/-- R80: with its arms all CLOSED a HOLDING bay is HELD. -/
theorem settle_granted (hd : d.settled = true) (h : d.Spares b e) (hs : (e.bay b).state = .holding)
    (ha : ∀ a ∈ e.armsOf b, (e.arm a).position = .closed) :
    (∃ c, (settle d e).bay b = { e.bay b with state := .held, message := none, causes := c }) ∧ (settle d e).orders = e.orders := by
  obtain ⟨hbay, horders⟩ := settle_bay hd h
  obtain ⟨⟨c, hc⟩, ho⟩ := Device.bayTests_granted (d := supervise d e) (b := b) (by rw [supervise_bay]; exact hs) fun a hmem => by
    rw [supervise_arm]
    exact ha a (by rwa [supervise_armsOf] at hmem)
  rw [hbay, horders, ho, hc, supervise_bay, supervise_orders]
  exact ⟨⟨c, rfl⟩, rfl⟩

/-- R75: a bay TRIPPED with the causes that it had, its arms commanded CLOSED before and after, stays so. -/
theorem settle_tripped (hd : d.settled = true) (h : d.Spares b e) (hs : (e.bay b).state = .tripped)
    (hstate : (d.bay b).state ≠ .loading) (hc : (e.bay b).causes = (d.bay b).causes)
    (ha : ∀ a, (e.arm a).position = (d.arm a).position ∧ (e.arm a).travel = (d.arm a).travel) :
    (settle d e).bay b = e.bay b ∧ (settle d e).orders = e.orders := by
  obtain ⟨hbay, horders⟩ := settle_bay hd h
  obtain ⟨hrests, -⟩ := (settled_iff d).mp hd
  have htravel : ∀ a ∈ e.armsOf b, ((supervise d e).arm a).travel = (d.arm a).travel := fun a hmem => by
    have hb : e.bayOfArm a = some b := Device.mem_armsOf.mp hmem
    have hstage : d.effectiveStage a = e.effectiveStage a := by
      rw [Device.effectiveStage_of_not_loading (d := d) fun y hy => by
          rw [← Option.some.inj (hb.symm.trans ((h.bayOfArm a).trans hy))]; exact hstate,
        Device.effectiveStage_of_not_loading fun y hy => by
          rw [← Option.some.inj (hb.symm.trans hy), hs]; decide]
    rw [supervise_arm, travelAfter_same hstage (ha a).1.symm]
    exact (ha a).2
  have hseated : (supervise d e).armsSeated b = d.armsSeated b := by
    rw [Bool.eq_iff_iff, Device.armsSeated, Device.armsSeated, List.all_eq_true, List.all_eq_true, supervise_armsOf,
      Device.armsOf_congr h.armRecs]
    refine forall₂_congr fun a hmem => ?_
    rw [htravel a (by rwa [Device.armsOf_congr h.armRecs]), supervise_arm]
    show ((e.arm a).position == _ && _) = true ↔ _
    rw [(ha a).1]
  have hvalve : (supervise d e).valveTest b = supervise d e := by
    have hrest := hrests b
    unfold Device.valveTest
    rw [if_neg]
    rw [supervise_bay, hc, hseated]
    simp only [Device.bayRests, Bool.and_eq_true, Bool.not_eq_true', Bool.and_eq_false_iff] at hrest
    rintro ⟨h1, h2⟩
    rcases hrest.1.1 with h3 | h3
    · exact Bool.noConfusion (h1.symm.trans h3)
    · exact Bool.noConfusion (h2.symm.trans h3)
  have htests : (supervise d e).bayTests b = supervise d e := by
    rw [Device.bayTests, hvalve, Device.grantHold_still (.inl (by rw [supervise_bay, hs]; decide)),
      Device.closingTest_still (.inl (by rw [supervise_bay, hs]; decide))]
  rw [hbay, horders, htests, supervise_bay, supervise_orders]
  exact ⟨rfl, rfl⟩

/-- R83: a CLOSING bay without a cause is in NOTE_COMMIT once it has no batch open and no shot outstanding. -/
theorem settle_closing (hd : d.settled = true) (h : d.Spares b e) (hs : (e.bay b).state = .closing)
    (hc : (e.bay b).causes = .empty) :
    (e.noBatch b = true ∧ e.outstandingShots b = 0 → (settle d e).bay b =
      { e.bay b with state := .noteCommit, message := none, ended := (e.bay b).ended.map Batch.cancelLeft }) ∧
    (¬ (e.noBatch b = true ∧ e.outstandingShots b = 0) → (settle d e).bay b = e.bay b) := by
  obtain ⟨hbay, -⟩ := settle_bay hd h
  have hself := supervise_bay d e b
  have hshots : (supervise d e).outstandingShots b = e.outstandingShots b := by rw [← supervise_rest]; rfl
  have hnone : (supervise d e).noBatch b = e.noBatch b :=
    Device.noBatch_congr (by rw [← supervise_rest]) fun a => by rw [supervise_arm]
  rw [Device.bayTests_closing (by rw [hself]; exact hs) (by rw [hself]; exact hc)] at hbay
  rw [hbay]
  refine ⟨fun ⟨hn, hz⟩ => ?_, fun hnot => ?_⟩
  · rw [Device.closingTest_bay (by rw [hself]; exact hs) (hnone.trans hn) (hshots.trans hz), hself]
  · rw [Device.closingTest_still (.inr ?_), hself]
    rw [hnone, hshots]
    by_contra hno
    simp only [not_or, Bool.not_eq_false, Decidable.not_not] at hno
    exact hnot hno

end After

end Sys2Proof.Machine
end

