-- ==== Sys2Proof/Proofs/HoldRequests.lean ====
section
/-! BAY HOLD and BAY RELEASE carried out (R78 to R81): the cases that move the bay alone, and those in which its arms, its load
or its latched swipe take part. -/

namespace Sys2Proof.Machine

open Sys2Proof

/-! ### Requests about one bay (R175, R178) -/

/-- A request, served as it arrives, is carried out on the part that holds it in service, and what follows follows. -/
theorem request_carried {s : State} {c : Instr} {k : Nat} {t : Byte} {r : Device → Except Status Device} {e : Device}
    (h : s.quiet = true) (hr : r (s.dev.intoService c) = .ok e) :
    advance s (fun d => d.request c fun x => x.conclude k t (r x)) = .next { s with dev := settle s.dev (e.finish k t .ok []) } := by
  simp only [advance]
  rw [request_serves _ _ _ (s.quiet_iff.mp h).1, hr, conclude_ok]

/-- An event of one bay in service, and answered, is an event of that bay. -/
theorem Device.Within.answered {b : BayId} {d e : Device} {c : Instr} (h : (d.intoService c).Within b e) (k : Nat) (t : Byte) :
    d.Spares b (e.finish k t .ok []) :=
  have hs := h.spares
  ⟨hs.armRecs, hs.lu, hs.arms, hs.bays, hs.shots⟩

/-- Nothing follows for a bay that keeps its state, its causes and its permissives, or that moves with its causes between the
states IDLE, AUTHORIZED and HELD. -/
def Bay.RestsAs (r q : Bay) : Prop := q.causes = r.causes ∧
  ((q.state = r.state ∧ q.ground = r.ground ∧ q.overfill = r.overfill) ∨
    (r.state ∈ [BayState.idle, .authorized, .held] ∧ q.state ∈ [BayState.idle, .authorized, .held]))

theorem Bay.RestsAs.of_same {r q : Bay} (hc : q.causes = r.causes) (hs : q.state = r.state) (hg : q.ground = r.ground)
    (ho : q.overfill = r.overfill) : r.RestsAs q := ⟨hc, .inl ⟨hs, hg, ho⟩⟩

theorem Bay.RestsAs.of_moved {r q : Bay} {x : BayState} (y : BayState) (hr : r.state = x) (hx : x ∈ [BayState.idle, .authorized, .held])
    (hq : q.state = y) (hy : y ∈ [BayState.idle, .authorized, .held]) (hc : q.causes = r.causes) : r.RestsAs q :=
  ⟨hc, .inr ⟨hr ▸ hx, hq ▸ hy⟩⟩

/-- A request that changes of one bay nothing that the blocks watch, and reports it. -/
theorem request_records {s : State} {c : Instr} {k n : Nat} {t : Byte} {b : BayId} {f : Bay → Bay}
    {r : Device → Except Status Device} (hq : s.quiet = true)
    (hf : (f (s.dev.bay b)).state = (s.dev.bay b).state ∧ (f (s.dev.bay b)).causes = (s.dev.bay b).causes ∧
      (f (s.dev.bay b)).ground = (s.dev.bay b).ground ∧ (f (s.dev.bay b)).overfill = (s.dev.bay b).overfill)
    (hr : r (s.dev.intoService c) = .ok (((s.dev.intoService c).onBay b f).bayNotice b n [])) :
    advance s (fun d => d.request c fun x => x.conclude k t (r x)) =
      .next (s.answers ((s.dev.onBay b f).bayNotice b n []) k t .ok []) := by
  obtain ⟨-, hd⟩ := s.quiet_iff.mp hq
  have hsame : s.dev.SameButCw (((s.dev.onBay b f).bayNotice b n []).reply k t .ok []) := by
    refine ⟨rfl, rfl, rfl, rfl, fun y => ?_, fun _ => ⟨rfl, rfl, rfl⟩⟩
    show ((s.dev.onBay b f).bay y).state = _ ∧ ((s.dev.onBay b f).bay y).causes = _ ∧ ((s.dev.onBay b f).bay y).ground = _ ∧
      ((s.dev.onBay b f).bay y).overfill = _
    rw [Device.onBay_bay]
    split
    next h => rw [h]; exact hf
    next => exact ⟨rfl, rfl, rfl, rfl⟩
  rw [request_settles (e := (s.dev.onBay b f).bayNotice b n []) hq rfl rfl hr, settle_sameCw hd hsame rfl]
  rfl

/-- A request that moves one bay between the states IDLE, AUTHORIZED and HELD, and reports it. -/
theorem request_moves {s : State} {c : Instr} {k n : Nat} {t : Byte} {b : BayId} {f : Bay → Bay}
    {r : Device → Except Status Device} (hq : s.quiet = true)
    (h0 : (s.dev.bay b).state ∈ [BayState.idle, .authorized, .held])
    (h1 : (f (s.dev.bay b)).state ∈ [BayState.idle, .authorized, .held]) (hc : (f (s.dev.bay b)).causes = (s.dev.bay b).causes)
    (hr : r (s.dev.intoService c) = .ok (((s.dev.intoService c).onBay b f).bayNotice b n [])) :
    advance s (fun d => d.request c fun x => x.conclude k t (r x)) =
      .next (s.answers ((s.dev.onBay b f).bayNotice b n []) k t .ok []) := by
  have hbay : ((s.dev.onBay b f).bayNotice b n []).bay b = f (s.dev.bay b) := Device.onBay_bay_same ..
  have hno : ∀ st : BayState, st ∉ [BayState.idle, .authorized, .held] →
      (s.dev.bay b).state ≠ st ∧ (((s.dev.onBay b f).bayNotice b n []).bay b).state ≠ st := fun st hst =>
    ⟨fun h => hst (h ▸ h0), fun h => hst (by rw [hbay] at h; exact h ▸ h1)⟩
  refine request_answers_bay (e := (s.dev.onBay b f).bayNotice b n []) b hq
    ⟨rfl, rfl, rfl, rfl, fun x hx => Device.onBay_bay_other _ _ _ _ hx, rfl, rfl⟩ (hno .loading (by decide)).1
    (hno .loading (by decide)).2 (hno .holding (by decide)).2 (hno .closing (by decide)).2 (fun h => ?_)
    ⟨fun h => absurd h (hno .tripped (by decide)).2, fun h => absurd h (hno .tripped (by decide)).1⟩ rfl rfl (by rw [hr, conclude_ok]; rfl)
  rwa [hbay, hc] at h

/-- A request after which the bay rests, with its report and its answer. -/
theorem request_bay {s : State} {c : Instr} {k n : Nat} {t : Byte} {b : BayId} {f : Bay → Bay}
    {r : Device → Except Status Device} (hq : s.quiet = true) (hf : (s.dev.bay b).RestsAs (f (s.dev.bay b)))
    (hr : r (s.dev.intoService c) = .ok (((s.dev.intoService c).onBay b f).bayNotice b n [])) :
    advance s (fun d => d.request c fun x => x.conclude k t (r x)) =
      .next (s.answers ((s.dev.onBay b f).bayNotice b n []) k t .ok []) := by
  obtain ⟨hc, hsame | ⟨h0, h1⟩⟩ := hf
  · exact request_records hq ⟨hsame.1, hc, hsame.2⟩ hr
  · exact request_moves hq h0 h1 hc hr

/-- What an event of one bay that leaves the arms alone leaves of the part. -/
theorem settle_answered_ofBay {b : BayId} {d e : Device} {c : Instr} (hd : d.settled = true) (h : (d.intoService c).OfBay b e)
    (k : Nat) (t : Byte) : (∀ y, y ≠ b → (settle d (e.finish k t .ok [])).bay y = d.bay y) ∧
      (settle d (e.finish k t .ok [])).custody = d.custody ∧
      ∀ a, ((settle d (e.finish k t .ok [])).arm a).batch = (d.arm a).batch := by
  obtain ⟨harm, -, hbays, -, -, hcustody, -⟩ := settle_frame hd (h.within.answered k t)
  refine ⟨fun y hy => (hbays y hy).trans (h.others y hy), hcustody.trans (congrArg Device.custody h.rest).symm, fun a => ?_⟩
  rw [harm]
  show (e.arm a).batch = _
  rw [h.arm]
  rfl

/-- BAY HOLD as the part takes it into service. -/
theorem exec_bayHold (s : State) (t : Byte) (b : BayId) : exec (.bayHold t (some b.val)) s =
    advance s fun d => d.request (.bayHold t (some b.val)) fun e => e.conclude 8 t (.ok (e.setHolds b true (e.bay b).holdRack)) := by
  show execBayHold t (some b.val) s = _
  simp only [execBayHold, withOne_val]

theorem exec_bayRelease (s : State) (t : Byte) (b : BayId) : exec (.bayRelease t (some b.val)) s =
    advance s fun d => d.request (.bayRelease t (some b.val)) fun e => e.conclude 9 t (.ok (e.setHolds b false (e.bay b).holdRack)) := by
  show execBayRelease t (some b.val) s = _
  simp only [execBayRelease, withOne_val]

namespace Device

/-! ### The hold source and the bay's state together (R79, R81) -/

section Sources
variable {d : Device} {b : BayId}

theorem setHolds_first_recorded (h : (d.bay b).holdBay = false)
    (hc : (d.bay b).holdRack = true ∨ (d.bay b).state ∈ [.closed, .holding, .held, .tripped, .closing, .noteCommit]) :
    d.setHolds b true (d.bay b).holdRack = (d.onBay b fun r => { r with holdBay := true }).bayNotice b 11 [] := by
  by_cases hr : (d.bay b).holdRack = true
  · exact setHolds_beside (by rw [h]; decide) hr
  · rw [setHolds_first h (by simpa using hr), holdTaken_recorded (by rw [withHold_bay]; exact hc.resolve_left hr)]
    rfl

theorem setHolds_first_idle (h : (d.bay b).holdBay = false) (hr : (d.bay b).holdRack = false) (hc : (d.bay b).state = .idle) :
    d.setHolds b true (d.bay b).holdRack = (d.onBay b fun r =>
      { r with state := .held, message := none, holdBay := true, before := some .idle }).bayNotice b 12 [] := by
  rw [setHolds_first h hr, holdTaken_idle (by rw [withHold_bay]; exact hc), withHold, onBay_onBay]

theorem setHolds_first_authorized (h : (d.bay b).holdBay = false) (hr : (d.bay b).holdRack = false)
    (hc : (d.bay b).state = .authorized) : d.setHolds b true (d.bay b).holdRack = (d.onBay b fun r =>
      { r with
        state := .held, message := none, holdBay := true, before := some .authorized, heldDuring := true
        authTimer := r.authTimer.suspend }).bayNotice b 12 [] := by
  rw [setHolds_first h hr, holdTaken_authorized (by rw [withHold_bay]; exact hc), withHold, onBay_onBay]

theorem setHolds_last_recorded (h : (d.bay b).holdBay = true) (hr : (d.bay b).holdRack = false)
    (hc : (d.bay b).state ∈ [.closed, .idle, .authorized, .loading, .closing, .noteCommit]) :
    d.setHolds b false (d.bay b).holdRack = (d.onBay b fun r => { r with holdBay := false }).bayNotice b 13 [] := by
  rw [setHolds_last h hr, holdReleased_recorded (by rw [withHold_bay]; exact hc)]
  rfl

theorem setHolds_last_tripped (h : (d.bay b).holdBay = true) (hr : (d.bay b).holdRack = false) (hc : (d.bay b).state = .tripped) :
    d.setHolds b false (d.bay b).holdRack = (d.onBay b fun r => { r with holdBay := false, before := none }).bayNotice b 13 [] := by
  rw [setHolds_last h hr, holdReleased_tripped (by rw [withHold_bay]; exact hc), withHold, onBay_onBay]

theorem setHolds_last_authorized (h : (d.bay b).holdBay = true) (hr : (d.bay b).holdRack = false) (hc : (d.bay b).state = .held)
    (hb : (d.bay b).before = some .authorized) : d.setHolds b false (d.bay b).holdRack = (d.onBay b fun r =>
      { r with
        state := .authorized, message := none, holdBay := false, before := none, swipe := none
        authTimer := r.authTimer.resume }).bayNotice b 13 [] := by
  have hc' : ((d.withHold b false).bay b).state = .held := by rw [withHold_bay]; exact hc
  rw [setHolds_last h hr, holdReleased_held hc', leaveHeld_authorized hc' (by rw [withHold_bay]; exact hb), withHold, onBay_onBay]

theorem setHolds_last_idle (h : (d.bay b).holdBay = true) (hr : (d.bay b).holdRack = false) (hc : (d.bay b).state = .held)
    (hb : (d.bay b).before = some .idle) (hs : (d.bay b).swipe = none) : d.setHolds b false (d.bay b).holdRack =
      (d.onBay b fun r => { r with state := .idle, message := none, holdBay := false, before := none }).bayNotice b 13 [] := by
  have hc' : ((d.withHold b false).bay b).state = .held := by rw [withHold_bay]; exact hc
  rw [setHolds_last h hr, holdReleased_held hc', leaveHeld_idle hc' (by rw [withHold_bay]; exact hb)
    (by rw [withHold_bay]; exact hs), withHold, onBay_onBay]
  refine congrArg (fun e : Device => e.bayNotice b 13 []) (onBay_congr _ _ _ _ ?_)
  dsimp only
  rw [hs]

end Sources

/-! ### A LOADING bay held, and what a release brings back (R79 to R81) -/

/-- R79: a hold of a LOADING bay moves the bay to HOLDING and its flowing batches to INTERRUPTED. -/
theorem withHold_loading {d : Device} {b : BayId} (h : (d.bay b).state = .loading) :
    ((d.withHold b true).holdTaken b).bay b =
      { d.bay b with state := .holding, message := none, holdBay := true, before := some .loading, heldDuring := true } ∧
    (∀ y, y ≠ b → ((d.withHold b true).holdTaken b).bay y = d.bay y) ∧
    (∀ x, ((d.withHold b true).holdTaken b).arm x = if x ∈ d.armsOf b then (d.arm x).halted else d.arm x) ∧
    ((d.withHold b true).holdTaken b).custody = d.custody ∧ ((d.withHold b true).holdTaken b).orders = d.orders ∧
    d.Within b ((d.withHold b true).holdTaken b) := by
  rw [holdTaken_loading (by rw [withHold_bay]; exact h), withHold, onBay_onBay]
  generalize hf : (fun r : Bay => ({ ({ r with holdBay := true } : Bay) with
    state := .holding, message := none, before := some .loading, heldDuring := true } : Bay)) = f
  have hbay : (d.onBay b f).bay b =
      { d.bay b with state := .holding, message := none, holdBay := true, before := some .loading, heldDuring := true } := by
    rw [onBay_bay_same, ← hf]
  obtain ⟨honly, harms⟩ := interruptBay_halts (d := d.onBay b f) (b := b) (by rw [hbay]; exact nofun)
  refine ⟨?_, fun y hy => ?_, harms, ?_, ?_, ((onBay_within ..).trans (interruptBay_within ..)).trans (bayNotice_within ..)⟩
  · rw [bayNotice_bay, honly.bay, hbay]
  · rw [bayNotice_bay, honly.bay, onBay_bay_other _ _ _ _ hy]
  · show ((d.onBay b f).interruptBay b).custody = _
    rw [← honly]
    rfl
  · show ((d.onBay b f).interruptBay b).orders = _
    rw [← honly]
    rfl

/-- R81, R74: a release of a bay HELD from LOADING that a cause or the lockout keeps from loading trips it. -/
theorem withHold_trips {d : Device} {b : BayId} (h : (d.bay b).state = .held) (hb : (d.bay b).before = some .loading)
    (hc : (d.bay b).causes ≠ .empty ∨ (d.bay b).lockout = true) :
    ((d.withHold b false).holdReleased b).bay b =
      { d.bay b with
        state := .tripped, message := none, holdBay := false, before := none, swipe := none
        resumeTimer := if (d.bay b).lockout then none else some (secondsMs d.mp.settings.resumeWindow) } ∧
    (∀ y, y ≠ b → ((d.withHold b false).holdReleased b).bay y = d.bay y) ∧
    (∀ x, ((d.withHold b false).holdReleased b).arm x = if x ∈ d.armsOf b then (d.arm x).halted else d.arm x) ∧
    ((d.withHold b false).holdReleased b).custody = d.custody ∧ ((d.withHold b false).holdReleased b).orders = d.orders ∧
    d.Within b ((d.withHold b false).holdReleased b) := by
  have h' : ((d.withHold b false).bay b).state = .held := by rw [withHold_bay]; exact h
  rw [holdReleased_held h', leaveHeld_trips (by rw [withHold_bay]; exact hb) (by rw [withHold_bay]; exact hc), withHold, onBay_onBay]
  generalize hf : (fun r : Bay => ({ ({ r with holdBay := false } : Bay) with before := none, swipe := none } : Bay)) = f
  have hbay : (d.onBay b f).bay b = { d.bay b with holdBay := false, before := none, swipe := none } := by
    rw [onBay_bay_same, ← hf]
  obtain ⟨hrest, harms⟩ := enterTrip_halts (d.onBay b f) b
  refine ⟨?_, fun y hy => ?_, harms, ?_, ?_, ((onBay_within ..).trans (enterTrip_within ..)).trans (bayNotice_within ..)⟩
  · rw [bayNotice_bay, enterTrip_bay, tripBay, hbay, if_neg (by show (d.bay b).state ≠ _; rw [h]; decide)]
    rfl
  · rw [bayNotice_bay, enterTrip_bay_other hy, onBay_bay_other _ _ _ _ hy]
  · show ((d.onBay b f).enterTrip b).custody = _
    rw [← hrest]
    rfl
  · show ((d.onBay b f).enterTrip b).orders = _
    rw [← hrest]
    rfl

/-- The bay as a release brings it back to LOADING. -/
def backToLoading (d : Device) (b : BayId) : Device :=
  (d.onBay b fun r => { r with
    state := .loading, message := none, holdBay := false, before := none
    swipe := if r.state = .held then none else r.swipe }).bayNotice b 13 []

theorem backToLoading_bay (d : Device) (b : BayId) : (d.backToLoading b).bay b = { d.bay b with
    state := .loading, message := none, holdBay := false, before := none
    swipe := if (d.bay b).state = .held then none else (d.bay b).swipe } := by
  rw [backToLoading, bayNotice_bay, onBay_bay_same]

theorem backToLoading_orderOf (d : Device) (b : BayId) : (d.backToLoading b).orderOf b = d.orderOf b :=
  orderOf_congr rfl (by rw [backToLoading_bay])

theorem backToLoading_ofBay (d : Device) (b : BayId) : d.OfBay b (d.backToLoading b) := (onBay_ofBay ..).trans (bayNotice_ofBay ..)

/-- R81: a release of a HOLDING bay, or of one HELD from LOADING with no cause and no lockout, is tested for the load's end. -/
theorem withHold_back {d : Device} {b : BayId} (h : (d.bay b).state = .holding ∨ ((d.bay b).state = .held ∧
      (d.bay b).before = some .loading ∧ (d.bay b).causes = CauseSet.empty ∧ (d.bay b).lockout = false)) :
    (d.withHold b false).holdReleased b = (d.backToLoading b).loadTest b := by
  have hbay := withHold_bay d b false
  rcases h with h | ⟨h, hb, hc, hl⟩
  · rw [holdReleased_holding (by rw [hbay]; exact h), withHold, onBay_onBay]
    exact congrArg (fun e : Device => (e.bayNotice b 13 []).loadTest b) (onBay_congr _ _ _ _ (by
      rw [if_neg (by rw [h]; decide)]))
  · have h' : ((d.withHold b false).bay b).state = .held := by rw [hbay]; exact h
    rw [holdReleased_held h', leaveHeld_loading h' (by rw [hbay]; exact hb) (by rw [hbay]; exact hc) (by rw [hbay]; exact hl),
      withHold, onBay_onBay]
    exact congrArg (fun e : Device => (e.bayNotice b 13 []).loadTest b) (onBay_congr _ _ _ _ (by rw [if_pos h]))

end Device

/-! ### A LOADING bay held -/

/-- R79: the part after a hold of bay `b` and its answer, before what follows. -/
def Device.holdServed (d : Device) (c : Instr) (b : BayId) (k : Nat) (t : Byte) : Device :=
  (((d.intoService c).withHold b true).holdTaken b).finish k t .ok []

section Loading
variable {d : Device} {b : BayId}

theorem Device.holdServed_bay (c : Instr) (k : Nat) (t : Byte) (h : (d.bay b).state = .loading) : (d.holdServed c b k t).bay b =
    { d.bay b with state := .holding, message := none, holdBay := true, before := some .loading, heldDuring := true } :=
  (Device.withHold_loading (d := d.intoService c) h).1

theorem Device.holdServed_spares (c : Instr) (k : Nat) (t : Byte) (h : (d.bay b).state = .loading) :
    d.Spares b (d.holdServed c b k t) := by
  obtain ⟨-, -, -, -, -, hw⟩ := Device.withHold_loading (d := d.intoService c) h
  exact hw.answered k t

theorem Device.holdServed_arm (c : Instr) (k : Nat) (t : Byte) (h : (d.bay b).state = .loading) (x : ArmId) :
    (d.holdServed c b k t).arm x = if x ∈ d.armsOf b then (d.arm x).halted else d.arm x := by
  obtain ⟨-, -, harms, -⟩ := Device.withHold_loading (d := d.intoService c) h
  exact harms x

theorem Device.holdServed_orders (c : Instr) (k : Nat) (t : Byte) (h : (d.bay b).state = .loading) :
    (d.holdServed c b k t).orders = d.orders := by
  obtain ⟨-, -, -, -, horders, -⟩ := Device.withHold_loading (d := d.intoService c) h
  exact horders

/-- R79: the flowing batches are INTERRUPTED, the other bays and custody memory as they were. -/
theorem holdServed_interrupts (c : Instr) (k : Nat) (t : Byte) (hd : d.settled = true) (h : (d.bay b).state = .loading) :
    (∀ a x, a ∈ d.armsOf b → (d.arm a).batch = some x → x.phase.flowing = true →
      ((settle d (d.holdServed c b k t)).arm a).batch = some { x with phase := .interrupted }) ∧
    (∀ x, x ≠ b → (settle d (d.holdServed c b k t)).bay x = d.bay x) ∧
    (settle d (d.holdServed c b k t)).custody = d.custody := by
  obtain ⟨-, hothers, -, hcustody, -⟩ := Device.withHold_loading (d := d.intoService c) h
  simp only [Device.intoService_bay, Device.intoService_custody] at hothers hcustody
  obtain ⟨harm, -, hbays, -, -, hkeeps, -⟩ := settle_frame hd (Device.holdServed_spares c k t h)
  refine ⟨fun a x ha hx hf => ?_, fun x hx => (hbays x hx).trans (hothers x hx), hkeeps.trans hcustody⟩
  rw [harm, Device.holdServed_arm c k t h, if_pos ha, ArmCtl.halted, hx, Option.map_some, Batch.halted_flowing hf]

/-- R79: a hold interrupts batches and moves no valve. -/
theorem holdServed_position (c : Instr) (k : Nat) (t : Byte) (h : (d.bay b).state = .loading) (a : ArmId) :
    ((d.holdServed c b k t).arm a).position = (d.arm a).position := by
  rw [Device.holdServed_arm c k t h]
  split <;> rfl

/-- R80: while an arm is away from CLOSED the bay is HOLDING. -/
theorem holdServed_holding (c : Instr) (k : Nat) (t : Byte) (hd : d.settled = true) (h : (d.bay b).state = .loading)
    (ha : ∃ a ∈ d.armsOf b, (d.arm a).position ≠ .closed) :
    (settle d (d.holdServed c b k t)).bay b = (d.holdServed c b k t).bay b ∧ (settle d (d.holdServed c b k t)).orders = d.orders := by
  have hs := Device.holdServed_spares c k t h
  obtain ⟨a, hmem, hp⟩ := ha
  obtain ⟨hbay, horders⟩ := settle_holding hd hs (by rw [Device.holdServed_bay c k t h])
    ⟨a, by rwa [Device.armsOf_congr hs.armRecs], by rwa [holdServed_position c k t h]⟩
  exact ⟨hbay, horders.trans (Device.holdServed_orders c k t h)⟩

/-- R80: with the arms all CLOSED the bay is HELD at once. -/
theorem holdServed_held (c : Instr) (k : Nat) (t : Byte) (hd : d.settled = true) (h : (d.bay b).state = .loading)
    (ha : ∀ a ∈ d.armsOf b, (d.arm a).position = .closed) :
    (∃ x, (settle d (d.holdServed c b k t)).bay b =
      { (d.holdServed c b k t).bay b with state := .held, message := none, causes := x }) ∧
    (settle d (d.holdServed c b k t)).orders = d.orders := by
  have hs := Device.holdServed_spares c k t h
  obtain ⟨hbay, horders⟩ := settle_granted hd hs (by rw [Device.holdServed_bay c k t h]) fun a hmem => by
    rw [holdServed_position c k t h]
    exact ha a (by rwa [Device.armsOf_congr hs.armRecs] at hmem)
  exact ⟨hbay, horders.trans (Device.holdServed_orders c k t h)⟩

end Loading

/-! ### A release that trips the bay, loads it again or ends its load -/

/-- R81: the part after a release of bay `b` and its answer, before what follows. -/
def Device.releaseServed (d : Device) (c : Instr) (b : BayId) (k : Nat) (t : Byte) : Device :=
  (((d.intoService c).withHold b false).holdReleased b).finish k t .ok []

section Released
variable {d : Device} {b : BayId}

/-- R81, R74: a cause or the lockout takes a bay HELD from LOADING to TRIPPED, its resume timer started without the lockout. -/
theorem releaseServed_trips (c : Instr) (k : Nat) (t : Byte) (hd : d.settled = true) (h : (d.bay b).state = .held)
    (hb : (d.bay b).before = some .loading) (hc : (d.bay b).causes ≠ .empty ∨ (d.bay b).lockout = true) :
    (settle d (d.releaseServed c b k t)).bay b = { d.bay b with
      state := .tripped, message := none, holdBay := false, before := none, swipe := none
      resumeTimer := if (d.bay b).lockout then none else some (d.mp.settings.resumeWindow * 1000) } ∧
    (∀ x, x ≠ b → (settle d (d.releaseServed c b k t)).bay x = d.bay x) ∧
    (settle d (d.releaseServed c b k t)).custody = d.custody ∧ (settle d (d.releaseServed c b k t)).orders = d.orders := by
  obtain ⟨hbay, hothers, harms, hcustody, horders, hw⟩ := Device.withHold_trips (d := d.intoService c) h hb hc
  have hs := hw.answered k t
  simp only [Device.intoService_bay, Device.intoService_arm, Device.intoService_custody, Device.intoService_orders]
    at hbay hothers harms hcustody horders
  unfold Device.releaseServed
  generalize ((d.intoService c).withHold b false).holdReleased b = e at hbay hothers harms hcustody horders hs ⊢
  have harm : ∀ a, (e.arm a).position = (d.arm a).position ∧ (e.arm a).travel = (d.arm a).travel := fun a => by
    rw [harms a]
    split <;> exact ⟨rfl, rfl⟩
  have hanswered : (e.finish k t .ok []).bay b = e.bay b := rfl
  obtain ⟨-, -, hbays, -, -, hkeeps, -⟩ := settle_frame hd hs
  obtain ⟨hself, horders'⟩ := settle_tripped hd hs (by rw [hanswered, hbay]) (by rw [h]; decide) (by rw [hanswered, hbay]) harm
  exact ⟨hself.trans hbay, fun x hx => (hbays x hx).trans (hothers x hx), hkeeps.trans hcustody, horders'.trans horders⟩

/-- R81: with a line of its order not ended the bay loads again. -/
theorem releaseServed_loads (c : Instr) (k : Nat) (t : Byte) {o : Order} (hd : d.settled = true)
    (h : (d.bay b).state = .holding ∨ ((d.bay b).state = .held ∧
      (d.bay b).before = some .loading ∧ (d.bay b).causes = CauseSet.empty ∧ (d.bay b).lockout = false))
    (ho : d.orderOf b = some o) (hx : ∃ x ∈ o.lines, x.batch ≠ .ended) :
    (∃ z, (settle d (d.releaseServed c b k t)).bay b = { d.bay b with
      state := .loading, message := none, holdBay := false, before := none
      swipe := if (d.bay b).state = .held then none else (d.bay b).swipe, causes := z }) ∧
    (∀ a, ((settle d (d.releaseServed c b k t)).arm a).batch = (d.arm a).batch) ∧
    (∀ x, x ≠ b → (settle d (d.releaseServed c b k t)).bay x = d.bay x) ∧
    (settle d (d.releaseServed c b k t)).custody = d.custody ∧ (settle d (d.releaseServed c b k t)).orders = d.orders := by
  have hbay := Device.backToLoading_bay (d.intoService c) b
  have horder : ((d.intoService c).backToLoading b).orderOf b = some o := (Device.backToLoading_orderOf ..).trans ho
  have hback : ((d.intoService c).withHold b false).holdReleased b = (d.intoService c).backToLoading b :=
    (Device.withHold_back (d := d.intoService c) h).trans (Device.loadTest_still horder hx)
  have hof := Device.backToLoading_ofBay (d.intoService c) b
  have horders : ((d.intoService c).backToLoading b).orders = d.orders := rfl
  rw [Device.intoService_bay] at hbay
  unfold Device.releaseServed
  rw [hback]
  generalize (d.intoService c).backToLoading b = e at hbay hof horders ⊢
  have hanswered : (e.finish k t .ok []).bay b = e.bay b := rfl
  obtain ⟨hothers, hcustody, harms⟩ := settle_answered_ofBay hd hof k t
  obtain ⟨⟨z, hz⟩, horders'⟩ := settle_loading hd (hof.within.answered k t) (by rw [hanswered, hbay])
  rw [hanswered, hbay] at hz
  exact ⟨⟨z, hz⟩, harms, hothers, hcustody, horders'.trans horders⟩

/-- R81, R72: with every line ended and no batch open the load is closed at once, and its note is due when no shot is out. -/
theorem releaseServed_closes (c : Instr) (k : Nat) (t : Byte) {o : Order} (hd : d.settled = true)
    (h : (d.bay b).state = .holding ∨ ((d.bay b).state = .held ∧
      (d.bay b).before = some .loading ∧ (d.bay b).causes = CauseSet.empty ∧ (d.bay b).lockout = false))
    (ho : d.orderOf b = some o) (hx : ∀ x ∈ o.lines, x.batch = .ended) (hn : d.noBatch b = true) :
    ((settle d (d.releaseServed c b k t)).bay b).state = (if d.outstandingShots b = 0 then .noteCommit else .closing) ∧
    (∃ st m l, (settle d (d.releaseServed c b k t)).bay b = { d.bay b with
      state := st, message := m, ended := l, holdBay := false, before := none, swipe := none, causes := .empty
      resumeTimer := none, authTimer := .stopped }) ∧
    (∀ x, x ≠ b → (settle d (d.releaseServed c b k t)).bay x = d.bay x) ∧
    (settle d (d.releaseServed c b k t)).custody = d.custody := by
  have hbay := Device.backToLoading_bay (d.intoService c) b
  have hof := Device.backToLoading_ofBay (d.intoService c) b
  have hnone : ∀ a ∈ ((d.intoService c).backToLoading b).armsOf b, (((d.intoService c).backToLoading b).arm a).batch = none :=
    (Device.noBatch_iff d b).mp hn
  have horder : ((d.intoService c).backToLoading b).orderOf b = some o := (Device.backToLoading_orderOf ..).trans ho
  have hclose := (Device.loadTest_eq horder).1 ⟨by rw [hbay], hx, hnone⟩
  have hback := (Device.withHold_back (d := d.intoService c) h).trans hclose
  rw [Device.closeLoad_of_none hnone] at hback
  unfold Device.releaseServed
  have hofback : (d.intoService c).OfBay b (((d.intoService c).withHold b false).holdReleased b) := by
    rw [Device.withHold_back (d := d.intoService c) h]
    exact hof.trans (Device.loadTest_ofBay ..)
  have hclosed : (((d.intoService c).withHold b false).holdReleased b).bay b = { d.bay b with
      state := .closing, message := none, holdBay := false, before := none, swipe := none, causes := .empty
      resumeTimer := none, authTimer := .stopped } := by
    rw [hback, Device.bayNotice_bay, Device.onBay_bay_same, Device.enterState_eq _ _ _ (by rw [hbay]; exact nofun),
      Device.onBay_bay_same, hbay]
    rfl
  generalize ((d.intoService c).withHold b false).holdReleased b = e at hofback hclosed ⊢
  have hclosed' : (e.finish k t .ok []).bay b = _ := hclosed
  obtain ⟨hothers, hcustody, -⟩ := settle_answered_ofBay hd hofback k t
  have hshots : (e.finish k t .ok []).outstandingShots b = d.outstandingShots b := hofback.within.shots b
  have hnobatch : (e.finish k t .ok []).noBatch b = true :=
    (Device.noBatch_congr (d := d) (e := e.finish k t .ok []) hofback.within.armRecs fun a =>
      congrArg ArmCtl.batch (hofback.arm a)).trans hn
  obtain ⟨hdone, hstill⟩ := settle_closing hd (hofback.within.answered k t) (by rw [hclosed']) (by rw [hclosed'])
  rw [hshots, hclosed'] at hdone hstill
  by_cases hzero : d.outstandingShots b = 0
  · rw [if_pos hzero, hdone ⟨hnobatch, hzero⟩]
    exact ⟨rfl, ⟨_, _, _, rfl⟩, hothers, hcustody⟩
  · rw [if_neg hzero, hstill fun h => hzero h.2]
    exact ⟨rfl, ⟨_, _, _, rfl⟩, hothers, hcustody⟩

end Released

/-! ### A latched swipe evaluated on a release (R81) -/

namespace Device

/-- R102: an assignment writes reservations, the order's record and a slot, and nothing else. -/
theorem reserveLines_rest (d : Device) (o : Order) :
    { d with accounts := (d.reserveLines o).accounts, orders := (d.reserveLines o).orders } = d.reserveLines o := by
  have haccount : ∀ (e : Device) (i : Nat) (f : Account → Account), { e with accounts := (e.onAccount i f).accounts } = e.onAccount i f :=
    fun e i f => by unfold onAccount; split <;> rfl
  unfold reserveLines
  induction List.range o.lines.length generalizing d with
  | nil => rfl
  | cons k t ih =>
    rw [List.foldl_cons, ← ih]
    split
    · rfl
    · split
      · rfl
      · rw [← haccount]
        rfl

theorem assignOrder_rest (d : Device) (b : BayId) (o : Order) (p : Permit) :
    { d with accounts := (d.assignOrder b o p).accounts, orders := (d.assignOrder b o p).orders, nu := (d.assignOrder b o p).nu } =
      d.assignOrder b o p := by
  unfold assignOrder
  dsimp only
  rw [← reserveLines_rest]
  split <;> rfl

/-- R67, R81: a swipe that names no order, and one that does. -/
theorem swipeIdle_refused {d : Device} {b : BayId} {cred : Nat} {c : Display} (h : d.evaluateSwipe b cred = .refused c) :
    d.swipeIdle b cred = (d.showMessage b (some c)).bayNotice b 3 [octets 1 c.code, octets 4 cred] := by
  unfold swipeIdle
  rw [h]

theorem swipeIdle_assigned {d : Device} {b : BayId} {cred : Nat} {o : Order} {p : Permit} (h : d.evaluateSwipe b cred = .assigned o p) :
    d.swipeIdle b cred = (((d.assignOrder b o p).enterState b .authorized).onBay b fun r =>
      r.authorize o.number d.mp.settings.authTimeout).bayNotice b 2 [octets 4 o.number, octets 4 cred] := by
  unfold swipeIdle
  rw [h]

theorem swipeIdle_ofBay (d : Device) (b : BayId) (cred : Nat) : d.OfBay b (d.swipeIdle b cred) := by
  cases h : d.evaluateSwipe b cred with
  | refused c =>
    rw [swipeIdle_refused h]
    exact (showMessage_ofBay ..).trans (bayNotice_ofBay ..)
  | assigned o p =>
    rw [swipeIdle_assigned h]
    refine OfBay.trans ⟨fun y _ => ?_, ?_⟩ (((enterState_ofBay ..).trans (onBay_ofBay ..)).trans (bayNotice_ofBay ..))
    · rw [← assignOrder_rest]; rfl
    · rw [← assignOrder_rest]

/-- R81: the bay back in IDLE from HELD, its latched swipe taken. -/
def backToIdle (d : Device) (b : BayId) : Device :=
  (d.onBay b fun r => { r with state := .idle, message := none, holdBay := false, before := none, swipe := none }).bayNotice b 13 []

theorem backToIdle_bay (d : Device) (b : BayId) : (d.backToIdle b).bay b =
    { d.bay b with state := .idle, message := none, holdBay := false, before := none, swipe := none } := by
  rw [backToIdle, bayNotice_bay, onBay_bay_same]

theorem withHold_swiped {d : Device} {b : BayId} {cred : Nat} (h : (d.bay b).state = .held) (hb : (d.bay b).before = some .idle)
    (hs : (d.bay b).swipe = some cred) : (d.withHold b false).holdReleased b = (d.backToIdle b).swipeIdle b cred := by
  have h' : ((d.withHold b false).bay b).state = .held := by rw [withHold_bay]; exact h
  rw [holdReleased_held h', leaveHeld_swiped h' (by rw [withHold_bay]; exact hb) (by rw [withHold_bay]; exact hs), withHold, onBay_onBay]
  rfl

/-- R67: the bay after its swipe has been evaluated. -/
theorem swipeIdle_bay {d : Device} {b : BayId} {cred : Nat} (h : (d.bay b).state = .idle) :
    (∀ c, d.evaluateSwipe b cred = .refused c →
      (d.swipeIdle b cred).bay b = { d.bay b with message := some c } ∧ (d.swipeIdle b cred).orders = d.orders) ∧
    ∀ o p, d.evaluateSwipe b cred = .assigned o p →
      (d.swipeIdle b cred).bay b = { (d.bay b).authorize o.number d.mp.settings.authTimeout with state := .authorized } := by
  refine ⟨fun c hc => ?_, fun o p hp => ?_⟩
  · rw [swipeIdle_refused hc, bayNotice_bay, showMessage, onBay_bay_same]
    exact ⟨rfl, rfl⟩
  · have hkeep : (d.assignOrder b o p).bay b = d.bay b := by rw [← assignOrder_rest]; rfl
    rw [swipeIdle_assigned hp, bayNotice_bay, onBay_bay_same, enterState_eq _ _ _ (by rw [hkeep, h]; decide), onBay_bay_same, hkeep]
    rfl

/-- R67: an evaluation touches no hold of the bay. -/
theorem swipeIdle_holds (d : Device) (b : BayId) (cred : Nat) : ((d.swipeIdle b cred).bay b).holdBay = (d.bay b).holdBay ∧
    ((d.swipeIdle b cred).bay b).before = (d.bay b).before ∧ ((d.swipeIdle b cred).bay b).swipe = (d.bay b).swipe := by
  cases h : d.evaluateSwipe b cred with
  | refused c =>
    rw [swipeIdle_refused h, bayNotice_bay, showMessage, onBay_bay_same]
    exact ⟨rfl, rfl, rfl⟩
  | assigned o p =>
    have hkeep : (d.assignOrder b o p).bay b = d.bay b := by rw [← assignOrder_rest]; rfl
    rw [swipeIdle_assigned h, bayNotice_bay, onBay_bay_same, enterState, onBay_bay_same, hkeep]
    split <;> exact ⟨rfl, rfl, rfl⟩

end Device

/-- R81: a release of a bay HELD from IDLE evaluates its latched swipe, and nothing follows. -/
theorem releaseServed_swipes {d : Device} {b : BayId} (c : Instr) (k : Nat) (t : Byte) {cred : Nat} (hd : d.settled = true)
    (h : (d.bay b).state = .held) (hb : (d.bay b).before = some .idle) (hs : (d.bay b).swipe = some cred) :
    settle d (d.releaseServed c b k t) = (((d.intoService c).backToIdle b).swipeIdle b cred).finish k t .ok [] := by
  have hof : (d.intoService c).OfBay b (((d.intoService c).backToIdle b).swipeIdle b cred) :=
    ((Device.onBay_ofBay ..).trans (Device.bayNotice_ofBay ..)).trans (Device.swipeIdle_ofBay ..)
  have hcw : (((d.intoService c).backToIdle b).swipeIdle b cred).cw = d.cw := (Device.swipeIdle_calm ..).cw
  have hidle := Device.backToIdle_bay (d.intoService c) b
  obtain ⟨hrefused, hassigned⟩ := Device.swipeIdle_bay (cred := cred) (d := (d.intoService c).backToIdle b) (b := b) (by rw [hidle])
  have hbay : ((((d.intoService c).backToIdle b).swipeIdle b cred).bay b).state ∈ [BayState.idle, .authorized] ∧
      ((((d.intoService c).backToIdle b).swipeIdle b cred).bay b).causes = (d.bay b).causes := by
    cases hev : ((d.intoService c).backToIdle b).evaluateSwipe b cred with
    | refused x => rw [(hrefused x hev).1, hidle]; exact ⟨List.mem_cons_self, rfl⟩
    | assigned o p => rw [hassigned o p hev, hidle]; exact ⟨List.mem_cons_of_mem _ List.mem_cons_self, rfl⟩
  obtain ⟨hstate, hcauses⟩ := hbay
  unfold Device.releaseServed
  rw [Device.withHold_swiped (d := d.intoService c) h hb hs]
  generalize ((d.intoService c).backToIdle b).swipeIdle b cred = e at hof hcw hstate hcauses ⊢
  have hno : ∀ st : BayState, st ∉ [BayState.idle, .authorized] → (e.bay b).state ≠ st := fun st hst hst' => hst (hst' ▸ hstate)
  have hrest := hof.rest
  refine settle_sameButBay d (e.finish k t .ok []) b hd
    ⟨(congrArg Device.boot hrest).symm, (congrArg Device.armRecs hrest).symm, (congrArg Device.arms hrest).symm,
      (congrArg Device.injs hrest).symm, hof.others, hcw, (congrArg Device.lu hrest).symm⟩
    (by rw [h]; decide) (hno .loading (by decide)) (hno .holding (by decide)) (hno .closing (by decide))
    (fun hv => ?_) ⟨fun ht => absurd ht (hno .tripped (by decide)), fun ht => by rw [h] at ht; cases ht⟩
  rw [← hcauses]
  exact hv

section Requests
variable {s : State} {t : Byte} {b : BayId}

theorem bayHold_carried (hq : s.quiet = true) (h : (s.dev.bay b).holdBay = false) (hr : (s.dev.bay b).holdRack = false) :
    exec (.bayHold t (some b.val)) s =
      .next { s with dev := settle s.dev (s.dev.holdServed (.bayHold t (some b.val)) b 8 t) } := by
  rw [exec_bayHold]
  exact request_carried hq (congrArg Except.ok (Device.setHolds_first h hr))

theorem bayRelease_carried (hq : s.quiet = true) (h : (s.dev.bay b).holdBay = true) (hr : (s.dev.bay b).holdRack = false) :
    exec (.bayRelease t (some b.val)) s =
      .next { s with dev := settle s.dev (s.dev.releaseServed (.bayRelease t (some b.val)) b 9 t) } := by
  rw [exec_bayRelease]
  exact request_carried hq (congrArg Except.ok (Device.setHolds_last h hr))

/-! ### The cases that move the bay alone -/

theorem bayHold_bay {f : Bay → Bay} {n : Nat} (hq : s.quiet = true) (hf : (s.dev.bay b).RestsAs (f (s.dev.bay b)))
    (hr : ∀ d : Device, d.bay b = s.dev.bay b → d.setHolds b true (d.bay b).holdRack = (d.onBay b f).bayNotice b n []) :
    exec (.bayHold t (some b.val)) s = .next (s.answers ((s.dev.onBay b f).bayNotice b n []) 8 t .ok []) := by
  rw [exec_bayHold]
  exact request_bay (r := fun e => .ok (e.setHolds b true (e.bay b).holdRack)) hq hf (congrArg Except.ok (hr _ rfl))

theorem bayRelease_bay {f : Bay → Bay} {n : Nat} (hq : s.quiet = true) (hf : (s.dev.bay b).RestsAs (f (s.dev.bay b)))
    (hr : ∀ d : Device, d.bay b = s.dev.bay b → d.setHolds b false (d.bay b).holdRack = (d.onBay b f).bayNotice b n []) :
    exec (.bayRelease t (some b.val)) s = .next (s.answers ((s.dev.onBay b f).bayNotice b n []) 9 t .ok []) := by
  rw [exec_bayRelease]
  exact request_bay (r := fun e => .ok (e.setHolds b false (e.bay b).holdRack)) hq hf (congrArg Except.ok (hr _ rfl))

end Requests

open Device in
/-- Settles O30: the cases that move the bay alone, then a LOADING bay held, and the releases that trip a bay, load it again, end
its load or evaluate its latched swipe. -/
theorem bayHoldAndRelease : Obligations.BayHoldAndRelease := by
  intro s t b hq
  obtain ⟨-, hd⟩ := s.quiet_iff.mp hq
  refine ⟨fun h => ?_, fun h => ?_, fun h hr hc => ?_, fun h hr hc ha => ?_, fun h hr hc hb hs => ?_, fun o h hr hc ho hx => ?_,
    fun h hr hc => ?_, fun h hr hc ha => ?_, fun h hc => ?_, fun h hr => ?_, fun h hr => ⟨fun hc => ?_, fun hc => ?_⟩,
    fun h hr hc => ⟨fun hb => ?_, fun cred hb hs => ?_, fun hb => ⟨fun htrip => ?_, fun o hcause hlock ho hx => ?_⟩⟩,
    fun o h hr hc ho hx hn => ?_⟩
  · rw [exec_bayHold]
    exact request_concludes hq (.refl _) rfl rfl (congrArg Except.ok (setHolds_same h))
  · rw [exec_bayRelease]
    exact request_concludes hq (.refl _) rfl rfl (congrArg Except.ok (setHolds_same h))
  · exact bayHold_bay hq (.of_moved .held hc (by decide) rfl (by decide) rfl) fun d hbay =>
      setHolds_first_idle (by rw [hbay]; exact h) (by rw [hbay]; exact hr) (by rw [hbay]; exact hc)
  · refine ⟨_, bayHold_carried hq h hr, rfl, ?_⟩
    obtain ⟨hbatches, hothers, hcustody⟩ := holdServed_interrupts (.bayHold t (some b.val)) 8 t hd hc
    obtain ⟨hbay, horders⟩ := holdServed_holding (.bayHold t (some b.val)) 8 t hd hc ha
    rw [holdServed_bay _ _ _ hc] at hbay
    dsimp only
    exact ⟨congrArg Bay.state hbay, congrArg Bay.holdBay hbay, congrArg Bay.heldDuring hbay, hbatches, hothers, hcustody, horders⟩
  · exact bayRelease_bay hq (.of_moved .idle hc (by decide) rfl (by decide) rfl) fun d hbay =>
      setHolds_last_idle (by rw [hbay]; exact h) (by rw [hbay]; exact hr) (by rw [hbay]; exact hc) (by rw [hbay]; exact hb)
        (by rw [hbay]; exact hs)
  · refine ⟨_, bayRelease_carried hq h hr, rfl, ?_⟩
    obtain ⟨⟨z, hbay⟩, -, hothers, hcustody, horders⟩ :=
      releaseServed_loads (.bayRelease t (some b.val)) 9 t hd (.inl hc) ho hx
    dsimp only
    exact ⟨congrArg Bay.state hbay, congrArg Bay.holdBay hbay, congrArg Bay.before hbay, hothers, hcustody, horders⟩
  · exact bayHold_bay hq (.of_moved .held hc (by decide) rfl (by decide) rfl) fun d hbay =>
      setHolds_first_authorized (by rw [hbay]; exact h) (by rw [hbay]; exact hr) (by rw [hbay]; exact hc)
  · refine ⟨_, bayHold_carried hq h hr, rfl, ?_⟩
    obtain ⟨hbatches, hothers, hcustody⟩ := holdServed_interrupts (.bayHold t (some b.val)) 8 t hd hc
    obtain ⟨⟨x, hbay⟩, horders⟩ := holdServed_held (.bayHold t (some b.val)) 8 t hd hc ha
    rw [holdServed_bay _ _ _ hc] at hbay
    dsimp only
    exact ⟨congrArg Bay.state hbay, congrArg Bay.before hbay, congrArg Bay.holdBay hbay, congrArg Bay.heldDuring hbay, hbatches,
      hothers, hcustody, horders⟩
  · exact bayHold_bay hq (.of_same rfl rfl rfl rfl) fun d hbay =>
      setHolds_first_recorded (by rw [hbay]; exact h) (by rw [hbay]; exact hc)
  · exact bayRelease_bay hq (.of_same rfl rfl rfl rfl) fun d hbay =>
      setHolds_beside (by rw [hbay, h]; decide) (by rw [hbay]; exact hr)
  · exact bayRelease_bay hq (.of_same rfl rfl rfl rfl) fun d hbay =>
      setHolds_last_recorded (by rw [hbay]; exact h) (by rw [hbay]; exact hr) (by rw [hbay]; exact hc)
  · exact bayRelease_bay hq (.of_same rfl rfl rfl rfl) fun d hbay =>
      setHolds_last_tripped (by rw [hbay]; exact h) (by rw [hbay]; exact hr) (by rw [hbay]; exact hc)
  · exact bayRelease_bay hq (.of_moved .authorized hc (by decide) rfl (by decide) rfl) fun d hbay =>
      setHolds_last_authorized (by rw [hbay]; exact h) (by rw [hbay]; exact hr) (by rw [hbay]; exact hc) (by rw [hbay]; exact hb)
  · refine ⟨_, bayRelease_carried hq h hr, rfl, ?_⟩
    have hidle := backToIdle_bay (s.dev.intoService (.bayRelease t (some b.val))) b
    have hset := releaseServed_swipes (.bayRelease t (some b.val)) 9 t hd hc hb hs
    have hof : (s.dev.intoService (.bayRelease t (some b.val))).OfBay b
        (((s.dev.intoService (.bayRelease t (some b.val))).backToIdle b).swipeIdle b cred) :=
      ((onBay_ofBay ..).trans (bayNotice_ofBay ..)).trans (swipeIdle_ofBay ..)
    obtain ⟨hrefused, hassigned⟩ := swipeIdle_bay (d := (s.dev.intoService (.bayRelease t (some b.val))).backToIdle b) (b := b)
      (cred := cred) (by rw [hidle])
    have hev : ((s.dev.intoService (.bayRelease t (some b.val))).backToIdle b).evaluateSwipe b cred = s.dev.evaluateSwipe b cred := rfl
    rw [hidle, hev] at hrefused hassigned
    obtain ⟨hhold, hbefore, hswipe⟩ := swipeIdle_holds ((s.dev.intoService (.bayRelease t (some b.val))).backToIdle b) b cred
    rw [hidle] at hhold hbefore hswipe
    dsimp only
    rw [hset]
    generalize ((s.dev.intoService (.bayRelease t (some b.val))).backToIdle b).swipeIdle b cred = e
      at hof hrefused hassigned hhold hbefore hswipe ⊢
    refine ⟨hhold, hbefore, hswipe, fun c hc => ?_, fun o p hp => ?_, hof.others, (congrArg Device.custody hof.rest).symm⟩
    · obtain ⟨hbay, horders⟩ := hrefused c hc
      exact ⟨congrArg Bay.state hbay, congrArg Bay.message hbay, horders⟩
    · exact ⟨congrArg Bay.state (hassigned o p hp), congrArg Bay.order (hassigned o p hp)⟩
  · refine ⟨_, bayRelease_carried hq h hr, rfl, ?_⟩
    obtain ⟨hbay, hothers, hcustody, horders⟩ := releaseServed_trips (.bayRelease t (some b.val)) 9 t hd hc hb htrip
    dsimp only
    exact ⟨congrArg Bay.state hbay, congrArg Bay.holdBay hbay, congrArg Bay.before hbay, congrArg Bay.swipe hbay,
      (congrArg Bay.causes hbay).trans rfl, congrArg Bay.resumeTimer hbay, hothers, hcustody, horders⟩
  · refine ⟨_, bayRelease_carried hq h hr, rfl, ?_⟩
    obtain ⟨⟨z, hbay⟩, hbatches, hothers, hcustody, horders⟩ :=
      releaseServed_loads (.bayRelease t (some b.val)) 9 t hd (.inr ⟨hc, hb, hcause, hlock⟩) ho hx
    rw [if_pos hc] at hbay
    dsimp only
    exact ⟨congrArg Bay.state hbay, congrArg Bay.holdBay hbay, congrArg Bay.before hbay, congrArg Bay.swipe hbay, hbatches,
      hothers, hcustody, horders⟩
  · refine ⟨_, bayRelease_carried hq h hr, rfl, ?_⟩
    obtain ⟨hstate, ⟨st, m, l, hbay⟩, hothers, hcustody⟩ :=
      releaseServed_closes (.bayRelease t (some b.val)) 9 t hd hc ho hx hn
    dsimp only
    exact ⟨hstate, congrArg Bay.holdBay hbay, congrArg Bay.before hbay, congrArg Bay.swipe hbay, congrArg Bay.causes hbay,
      fun y hy => congrArg Bay.state (hothers y hy), hcustody⟩

end Sys2Proof.Machine
end

