-- ==== Sys2Proof/Proofs/LoadCloses.lean ====
section
/-! The close of a load (R34, R82, R83): what each arm of the bay makes of its batch, what the bay keeps of them, and whether
its closing is complete at once. -/

namespace Sys2Proof.Machine

open Sys2Proof

namespace Device

/-! ### Ended batches keep all but their dosing -/

theorem insertEnded_keeps {x : Batch} (z : Batch) {l : List Batch} (h : x ∈ l) : x ∈ insertEnded z l :=
  (insertEnded_perm z l).mem_iff.mpr (List.mem_cons_of_mem _ h)

theorem onDose_ended_core (d : Device) (r : DoseRef) (f : Dosing → Dosing) (y : BayId) :
    ((d.onDose r f).bay y).ended.map Batch.core = (d.bay y).ended.map Batch.core := by
  have hbay : ∀ (e : Device) (x : BayId), ((e.onBay x fun q =>
      { q with ended := q.ended.map fun z => if z.isRef r then z.onDose r.recipe f else z }).bay y).ended.map Batch.core =
        (e.bay y).ended.map Batch.core := fun e x => by
    rw [onBay_bay]
    split
    next h =>
      rw [h]
      dsimp only
      rw [List.map_map]
      refine List.map_congr_left fun z _ => ?_
      rw [Function.comp_apply]
      split <;> rfl
    next => rfl
  unfold onDose onDoseBatch
  split
  next => rfl
  next h =>
    clear h
    induction allBays generalizing d with
    | nil => rfl
    | cons x t ih => exact (ih _).trans (hbay d x)

theorem setFates_bay (d : Device) (pick : DoseRef → Bool) (f : OfferFate) (y : BayId) : (d.setFates pick f).bay y = d.bay y := by
  obtain ⟨q, hq⟩ := setFates_eq d pick f
  rw [hq]
  rfl

/-- R58, R61: a close told to DU leaves the ended batches as they are, but for their dosing and throttle marks. -/
theorem cancelPendings_ended_core (d : Device) (a : ArmId) (mark : Bool) (y : BayId) :
    ((d.cancelPendings a mark).bay y).ended.map Batch.core = (d.bay y).ended.map Batch.core := by
  have hfold : ∀ (l : List DoseRef) (e : Device),
      ((l.foldl (fun e r => e.onDose r fun x => x.cancelPending mark (d.underOffer r)) e).bay y).ended.map Batch.core =
        (e.bay y).ended.map Batch.core := fun l => by
    induction l with
    | nil => exact fun _ => rfl
    | cons r t ih => exact fun e => (ih _).trans (onDose_ended_core ..)
  unfold cancelPendings
  split
  · exact hfold ..
  · have hbatch : ∀ e : Device, (e.onBatch a Batch.throttleClear).bay y = e.bay y := fun _ => rfl
    dsimp only
    rw [hbatch, setFates_bay]
    exact hfold ..

/-- A bay's ended batches live on, but for their dosing, among those of the later bay. -/
def EndedStay (r q : Bay) : Prop := ∀ z ∈ r.ended, ∃ w ∈ q.ended, w.core = z.core

theorem EndedStay.refl (r : Bay) : EndedStay r r := fun z hz => ⟨z, hz, rfl⟩

theorem EndedStay.trans {r q p : Bay} (h : EndedStay r q) (k : EndedStay q p) : EndedStay r p := fun z hz => by
  obtain ⟨w, hw, hwz⟩ := h z hz
  obtain ⟨v, hv, hvw⟩ := k w hw
  exact ⟨v, hv, hvw.trans hwz⟩

theorem EndedStay.of_core {r q : Bay} (h : q.ended.map Batch.core = r.ended.map Batch.core) : EndedStay r q := fun z hz => by
  have hmem : z.core ∈ q.ended.map Batch.core := h ▸ List.mem_map_of_mem hz
  exact List.mem_map.mp hmem

theorem cancelPendings_endedStay (d : Device) (a : ArmId) (mark : Bool) (y : BayId) :
    EndedStay (d.bay y) ((d.cancelPendings a mark).bay y) := .of_core (cancelPendings_ended_core d a mark y)

theorem endBatch_endedStay (d : Device) (a : ArmId) (short : Bool) (y : BayId) :
    EndedStay (d.bay y) ((d.endBatch a short).bay y) := by
  refine (cancelPendings_endedStay d a false y).trans ?_
  cases ht : ((d.cancelPendings a false).arm a).batch with
  | none =>
    unfold endBatch
    dsimp only
    rw [ht]
    exact .refl _
  | some t =>
    cases hb : d.bayOfArm a with
    | none =>
      have hb' : (d.cancelPendings a false).bayOfArm a = none :=
        (bayOfArm_congr (cancelPendings_dosed d a false).armRecs a).trans hb
      unfold endBatch
      dsimp only
      rw [ht, hb']
      exact .refl _
    | some b =>
      obtain ⟨l, hl⟩ := endBatch_eq short ht hb
      rw [hl, armNotice_bay, ended_bay]
      split
      next h =>
        rw [h]
        exact fun z hz => ⟨z, insertEnded_keeps _ hz, rfl⟩
      next => exact .refl _

/-! ### One arm at the close of its load (R34, R82) -/

/-- R34, R82: what the close of a load makes of an arm: a batch INTERRUPTED is gone, one that flowed is stopped, and any other
arm is as it was. -/
structure ArmCloses (c e : ArmCtl) : Prop where
  none    : c.batch = .none → e = c
  ends    : ∀ t, c.batch = some t → t.phase = .interrupted → e.batch = .none
  stays   : ∀ t, c.batch = some t → t.phase ≠ .interrupted → t.phase.flowing = false → e = c
  stops   : ∀ t, c.batch = some t → t.phase.flowing = true →
    e.zeroFlow = 0 ∧ ∃ x, e.batch = some x ∧ x.core = t.stopped.core

theorem ArmCloses.empty_iff {c e : ArmCtl} (h : ArmCloses c e) :
    e.batch = .none ↔ ∀ t, c.batch = some t → t.phase = .interrupted := by
  refine ⟨fun he t ht => ?_, fun hall => ?_⟩
  · by_contra hi
    cases hf : t.phase.flowing with
    | true =>
      obtain ⟨-, x, hx, -⟩ := h.stops t ht hf
      exact nomatch he.symm.trans hx
    | false =>
      rw [h.stays t ht hi hf] at he
      exact nomatch he.symm.trans ht
  · cases hc : c.batch with
    | none => rw [h.none hc, hc]
    | some t => exact h.ends t hc (hall t hc)

theorem stopBatch_changes (d : Device) (a : ArmId) : (∀ x, x ≠ a → (d.stopBatch a).arm x = d.arm x) ∧
    (∀ t, (d.arm a).batch = some t → t.phase.flowing = true →
      ((d.stopBatch a).arm a).zeroFlow = 0 ∧ ∃ x, ((d.stopBatch a).arm a).batch = some x ∧ x.core = t.stopped.core) ∧
    ∀ y, (∃ l, (d.stopBatch a).bay y = { d.bay y with ended := l }) ∧ EndedStay (d.bay y) ((d.stopBatch a).bay y) := by
  cases ht : (d.arm a).batch with
  | none =>
    rw [stopBatch_still fun t h => nomatch ht.symm.trans h]
    exact ⟨fun _ _ => rfl, fun t h => (nomatch h), fun y => ⟨⟨(d.bay y).ended, rfl⟩, .refl _⟩⟩
  | some t =>
    cases hf : t.phase.flowing with
    | false =>
      rw [stopBatch_still fun u h => by rw [← Option.some.inj (ht.symm.trans h)]; exact hf]
      exact ⟨fun _ _ => rfl, fun u h hu => (by rw [← Option.some.inj h, hf] at hu; exact nomatch hu),
        fun y => ⟨⟨(d.bay y).ended, rfl⟩, .refl _⟩⟩
    | true =>
      have hcb := cancelPendings_changesBatch (d.stopping a t) a true
      have hcore := cancelPendings_core (d.stopping a t) a true
      rw [stopping_arm, Option.map_some] at hcore
      obtain ⟨x, hx, hxc⟩ := Option.map_eq_some_iff.mp hcore
      rw [stopBatch_flowing ht hf]
      refine ⟨fun y hy => (hcb.other y hy).trans (Bank.read_write_other _ _ _ _ hy), fun u h _ => ?_, fun y =>
        ⟨⟨_, (((cancelPendings_dosed (d.stopping a t) a true).bay y).rest).symm⟩, cancelPendings_endedStay (d.stopping a t) a true y⟩⟩
      obtain rfl := Option.some.inj h
      refine ⟨?_, x, hx, hxc⟩
      rw [← hcb.self, stopping_arm]

/-- R34, R82: the close told to one arm of the bay. -/
theorem closeArm_closes {d : Device} {a : ArmId} {b : BayId} (hb : d.bayOfArm a = some b) :
    (∀ x, x ≠ a → (d.closeArm a).arm x = d.arm x) ∧ ArmCloses (d.arm a) ((d.closeArm a).arm a) ∧
    (∃ l, (d.closeArm a).bay b = { d.bay b with ended := l }) ∧ EndedStay (d.bay b) ((d.closeArm a).bay b) ∧
    ∀ t, (d.arm a).batch = some t → t.phase = .interrupted →
      ∃ z ∈ ((d.closeArm a).bay b).ended, z.core = (t.finish (d.meter a).mirror d.time true).core := by
  cases ht : (d.arm a).batch with
  | none =>
    have hsame : d.closeArm a = d := by unfold closeArm; rw [ht]
    rw [hsame]
    exact ⟨fun _ _ => rfl, ⟨fun _ => rfl, fun _ h => (nomatch ht.symm.trans h), fun _ _ _ _ => rfl,
      fun _ h => (nomatch ht.symm.trans h)⟩, ⟨(d.bay b).ended, rfl⟩, .refl _, fun _ h => (nomatch h)⟩
  | some t =>
    have hone : ∀ u, (d.arm a).batch = some u → u = t := fun u h => Option.some.inj (h.symm.trans ht)
    by_cases hi : t.phase = .interrupted
    · have hend : d.closeArm a = d.endBatch a true := by unfold closeArm; rw [ht]; exact if_pos hi
      obtain ⟨hnone, z, hz, hcore⟩ := endBatch_short ht hb
      rw [hend]
      refine ⟨(endBatch_short_changesBatch d a).other, ⟨fun h => (nomatch ht.symm.trans h), fun _ _ _ => hnone,
        fun u hu hn => absurd (hone u hu ▸ hi) hn, fun u hu hf => ?_⟩, endBatch_bay d a true b, endBatch_endedStay d a true b,
        fun u hu _ => ⟨z, hz, by rw [hone u (ht.trans hu)]; exact hcore⟩⟩
      rw [hone u hu, hi] at hf
      exact nomatch hf
    · have hstop : d.closeArm a = d.stopBatch a := by unfold closeArm; rw [ht]; exact if_neg hi
      obtain ⟨hother, hflow, hbay⟩ := stopBatch_changes d a
      rw [hstop]
      refine ⟨hother, ⟨fun h => (nomatch ht.symm.trans h), fun u hu h => absurd (hone u hu ▸ h) hi, fun u hu _ hf => ?_, hflow⟩,
        (hbay b).1, (hbay b).2, fun u hu h => absurd (hone u (ht.trans hu) ▸ h) hi⟩
      rw [stopBatch_still fun v hv => by rw [hone v hv, ← hone u hu]; exact hf]

/-- R34, R82: the close told to a list of arms of the bay. -/
theorem foldl_closeArm_closes {b : BayId} (l : List ArmId) (hl : l.Nodup) (d : Device) (hb : ∀ a ∈ l, d.bayOfArm a = some b) :
    (∀ x, x ∉ l → (l.foldl closeArm d).arm x = d.arm x) ∧ (∀ x ∈ l, ArmCloses (d.arm x) ((l.foldl closeArm d).arm x)) ∧
    (∃ q, (l.foldl closeArm d).bay b = { d.bay b with ended := q }) ∧ EndedStay (d.bay b) ((l.foldl closeArm d).bay b) ∧
    ∀ x ∈ l, ∀ t, (d.arm x).batch = some t → t.phase = .interrupted →
      ∃ z ∈ ((l.foldl closeArm d).bay b).ended, z.core = (t.finish (d.meter x).mirror d.time true).core := by
  induction l generalizing d with
  | nil => exact ⟨fun _ _ => rfl, fun _ h => (nomatch h), ⟨(d.bay b).ended, rfl⟩, .refl _, fun _ h => (nomatch h)⟩
  | cons a t ih =>
    obtain ⟨hnot, ht⟩ := List.nodup_cons.mp hl
    have ha := hb a List.mem_cons_self
    obtain ⟨hother, hself, ⟨q, hq⟩, hstay, hend⟩ := closeArm_closes ha
    have hw := closeArm_within ha
    obtain ⟨hothers, hselves, ⟨p, hp⟩, hstays, hends⟩ := ih ht (d.closeArm a) fun x hx =>
      (hw.bayOfArm x).trans (hb x (List.mem_cons_of_mem _ hx))
    have hmeter : (d.closeArm a).meter = d.meter := by rw [← hw.rest]; rfl
    have htime : (d.closeArm a).time = d.time := by rw [← hw.rest]; rfl
    have hne : ∀ x ∈ t, x ≠ a := fun x hx h => hnot (h ▸ hx)
    rw [List.foldl_cons]
    refine ⟨fun x hx => ?_, fun x hx => ?_, ⟨p, by rw [hp, hq]⟩, hstay.trans hstays, fun x hx u hu hi => ?_⟩
    · rw [List.mem_cons, not_or] at hx
      rw [hothers x hx.2, hother x hx.1]
    · rcases List.mem_cons.mp hx with rfl | hx
      · rw [hothers x hnot]
        exact hself
      · have h := hselves x hx
        rwa [hother x (hne x hx)] at h
    · rcases List.mem_cons.mp hx with rfl | hx
      · obtain ⟨z, hz, hzc⟩ := hend u hu hi
        obtain ⟨w, hw', hwc⟩ := hstays z hz
        exact ⟨w, hw', hwc.trans hzc⟩
      · have h := hends x hx u (by rw [hother x (hne x hx)]; exact hu) hi
        rwa [hmeter, htime] at h

/-- R34, R82: the close of a load, by the arms of the bay and by what the bay keeps. -/
theorem closeLoad_closes (d : Device) (b : BayId) :
    (∀ x ∈ d.armsOf b, ArmCloses (d.arm x) ((d.closeLoad b).arm x)) ∧
    (∃ m l, (d.closeLoad b).bay b = { d.bay b with
      state := .closing, message := m, causes := .empty, resumeTimer := none, authTimer := .stopped, before := none, swipe := none
      ended := l }) ∧
    ∀ x ∈ d.armsOf b, ∀ t, (d.arm x).batch = some t → t.phase = .interrupted →
      ∃ z ∈ ((d.closeLoad b).bay b).ended, z.core = (t.finish (d.meter x).mirror d.time true).core := by
  generalize hf : ((d.enterState b .closing).onBay b fun r =>
    { r with causes := .empty, resumeTimer := none, authTimer := .stopped, before := none, swipe := none }) = f
  have hbay : ∃ m, f.bay b = { d.bay b with
      state := .closing, message := m, causes := .empty, resumeTimer := none, authTimer := .stopped, before := none, swipe := none } := by
    by_cases hs : (d.bay b).state = .closing
    · refine ⟨(d.bay b).message, ?_⟩
      rw [← hf, enterState_same _ _ _ hs, onBay_bay_same, ← hs]
    · refine ⟨none, ?_⟩
      rw [← hf, enterState_eq _ _ _ hs, onBay_bay_same, onBay_bay_same]
  have harm : f.arm = d.arm := by rw [← hf]; rfl
  have hmeter : f.meter = d.meter := by rw [← hf]; rfl
  have htime : f.time = d.time := by rw [← hf]; rfl
  have hof : ∀ a ∈ d.armsOf b, f.bayOfArm a = some b := fun a ha => by rw [← hf]; exact mem_armsOf.mp ha
  have hclose : d.closeLoad b = ((d.armsOf b).foldl closeArm f).bayNotice b 14 [] := by rw [← hf]; rfl
  obtain ⟨-, harms, ⟨l, hl⟩, -, hends⟩ := foldl_closeArm_closes (d.armsOf b) (armsOf_nodup d b) f hof
  obtain ⟨m, hm⟩ := hbay
  rw [harm] at harms hends
  rw [hmeter, htime] at hends
  rw [hclose, bayNotice_bay]
  exact ⟨harms, ⟨m, l, by rw [hl, hm]⟩, hends⟩

end Device

/-! ### The close of a load by a request, with what follows it -/

/-- The part with a request in service and the overfill lockout of bay `b` as the request leaves it. -/
def Device.lockedTo (d : Device) (c : Instr) (b : BayId) (lock : Bool) : Device :=
  (d.intoService c).onBay b fun r => { r with lockout := lock }

/-- R70, R76: the part after a request that closes bay `b`'s load, with the overfill lockout as it then is, and its answer. -/
def Device.closeServed (d : Device) (c : Instr) (b : BayId) (lock : Bool) (k : Nat) (t : Byte) : Device :=
  ((d.lockedTo c b lock).closeLoad b).finish k t .ok []

theorem finish_arm (e : Device) (k : Nat) (t : Byte) (x : ArmId) : (e.finish k t .ok []).arm x = e.arm x := rfl
theorem finish_bay (e : Device) (k : Nat) (t : Byte) (y : BayId) : (e.finish k t .ok []).bay y = e.bay y := rfl

section Closing
variable {d : Device} {b : BayId} (c : Instr) (lock : Bool) (k : Nat) (t : Byte)

theorem lockedTo_bay : (d.lockedTo c b lock).bay b = { d.bay b with lockout := lock } := Device.onBay_bay_same ..

theorem lockedTo_closeLoad_within : (d.intoService c).Within b ((d.lockedTo c b lock).closeLoad b) :=
  (Device.onBay_within ..).trans (Device.closeLoad_within ..)

theorem closeServed_spares : d.Spares b (d.closeServed c b lock k t) := (lockedTo_closeLoad_within c lock).answered k t

/-- The close of the load, by the arms and the bay before the request. -/
theorem lockedTo_closes :
    (∀ x ∈ d.armsOf b, Device.ArmCloses (d.arm x) (((d.lockedTo c b lock).closeLoad b).arm x)) ∧
    (∃ m l, ((d.lockedTo c b lock).closeLoad b).bay b = { d.bay b with
      lockout := lock, state := .closing, message := m, causes := .empty, resumeTimer := none, authTimer := .stopped, before := none
      swipe := none, ended := l }) ∧
    ∀ x ∈ d.armsOf b, ∀ u, (d.arm x).batch = some u → u.phase = .interrupted →
      ∃ z ∈ (((d.lockedTo c b lock).closeLoad b).bay b).ended, z.core = (u.finish (d.meter x).mirror d.time true).core := by
  have hbay := lockedTo_bay (d := d) (b := b) c lock
  have harm : (d.lockedTo c b lock).arm = d.arm := rfl
  have hmeter : (d.lockedTo c b lock).meter = d.meter := rfl
  have htime : (d.lockedTo c b lock).time = d.time := rfl
  have harmsOf : (d.lockedTo c b lock).armsOf b = d.armsOf b := rfl
  generalize d.lockedTo c b lock = e at hbay harm hmeter htime harmsOf ⊢
  obtain ⟨harms, ⟨m, l, hl⟩, hends⟩ := e.closeLoad_closes b
  rw [harmsOf, harm] at harms hends
  rw [hmeter, htime] at hends
  exact ⟨harms, ⟨m, l, by rw [hl, hbay]⟩, hends⟩

theorem closeServed_arms {x : ArmId} (hx : x ∈ d.armsOf b) : Device.ArmCloses (d.arm x) ((d.closeServed c b lock k t).arm x) := by
  obtain ⟨harms, -⟩ := lockedTo_closes (d := d) (b := b) c lock
  rw [Device.closeServed, finish_arm]
  exact harms x hx

theorem closeServed_bay : ∃ m l, (d.closeServed c b lock k t).bay b = { d.bay b with
    lockout := lock, state := .closing, message := m, causes := .empty, resumeTimer := none, authTimer := .stopped, before := none
    swipe := none, ended := l } := by
  obtain ⟨-, hbay, -⟩ := lockedTo_closes (d := d) (b := b) c lock
  rw [Device.closeServed, finish_bay]
  exact hbay

theorem closeServed_ended {x : ArmId} {u : Batch} (hx : x ∈ d.armsOf b) (hu : (d.arm x).batch = some u) (hi : u.phase = .interrupted) :
    ∃ z ∈ ((d.closeServed c b lock k t).bay b).ended, z.core = (u.finish (d.meter x).mirror d.time true).core := by
  obtain ⟨-, -, hends⟩ := lockedTo_closes (d := d) (b := b) c lock
  rw [Device.closeServed, finish_bay]
  exact hends x hx u hu hi

/-- R83: no batch of the bay is open after the close exactly when each was INTERRUPTED. -/
theorem closeServed_noBatch : (d.closeServed c b lock k t).noBatch b = true ↔
    ∀ a u, a ∈ d.armsOf b → (d.arm a).batch = some u → u.phase = .interrupted := by
  rw [Device.noBatch_iff, Device.armsOf_congr (closeServed_spares c lock k t).armRecs]
  exact ⟨fun h a u ha => (closeServed_arms c lock k t ha).empty_iff.mp (h a ha) u,
    fun h a ha => (closeServed_arms c lock k t ha).empty_iff.mpr fun u => h a u ha⟩

theorem closeServed_shots : (d.closeServed c b lock k t).outstandingShots b = d.outstandingShots b := by
  have hw := lockedTo_closeLoad_within (d := d) (b := b) c lock
  rw [Device.closeServed]
  generalize (d.lockedTo c b lock).closeLoad b = e at hw ⊢
  exact hw.shots b

/-- R83: what follows leaves the bay CLOSING, or completes the closing. -/
theorem closeServed_settles (hd : d.settled = true) :
    (((∀ a u, a ∈ d.armsOf b → (d.arm a).batch = some u → u.phase = .interrupted) ∧ d.outstandingShots b = 0) →
      (settle d (d.closeServed c b lock k t)).bay b = { (d.closeServed c b lock k t).bay b with
        state := .noteCommit, message := none, ended := ((d.closeServed c b lock k t).bay b).ended.map Batch.cancelLeft }) ∧
    (¬ ((∀ a u, a ∈ d.armsOf b → (d.arm a).batch = some u → u.phase = .interrupted) ∧ d.outstandingShots b = 0) →
      (settle d (d.closeServed c b lock k t)).bay b = (d.closeServed c b lock k t).bay b) := by
  obtain ⟨m, l, hbay⟩ := closeServed_bay (d := d) (b := b) c lock k t
  have h := settle_closing hd (closeServed_spares (b := b) c lock k t) (by rw [hbay]) (by rw [hbay])
  rwa [closeServed_noBatch, closeServed_shots] at h

/-- The bay after it all: what the close empties is empty, the rest as it was but for the lockout. -/
theorem closeServed_keeps (hd : d.settled = true) : ∃ st m l, (settle d (d.closeServed c b lock k t)).bay b = { d.bay b with
    lockout := lock, state := st, message := m, causes := .empty, resumeTimer := none, authTimer := .stopped, before := none
    swipe := none, ended := l } := by
  obtain ⟨m, l, hbay⟩ := closeServed_bay (d := d) (b := b) c lock k t
  obtain ⟨hdone, hstill⟩ := closeServed_settles (d := d) (b := b) c lock k t hd
  rw [hbay] at hdone hstill
  by_cases h : (∀ a u, a ∈ d.armsOf b → (d.arm a).batch = some u → u.phase = .interrupted) ∧ d.outstandingShots b = 0
  · exact ⟨_, _, _, hdone h⟩
  · exact ⟨_, _, _, hstill h⟩

theorem closeServed_endedStay (hd : d.settled = true) :
    Device.EndedStay ((d.closeServed c b lock k t).bay b) ((settle d (d.closeServed c b lock k t)).bay b) := by
  obtain ⟨hdone, hstill⟩ := closeServed_settles (d := d) (b := b) c lock k t hd
  by_cases h : (∀ a u, a ∈ d.armsOf b → (d.arm a).batch = some u → u.phase = .interrupted) ∧ d.outstandingShots b = 0
  · rw [hdone h]
    exact fun z hz => ⟨z.cancelLeft, List.mem_map_of_mem hz, z.cancelLeft_core⟩
  · rw [hstill h]
    exact .refl _

/-- R34, R61, R82, R83: a request that closes a load does all that the close of a load does. -/
theorem closeServed_loadCloses (hd : d.settled = true) : d.loadCloses (settle d (d.closeServed c b lock k t)) b := by
  obtain ⟨st, m, l, hbay⟩ := closeServed_keeps (d := d) (b := b) c lock k t hd
  obtain ⟨hdone, hstill⟩ := closeServed_settles (d := d) (b := b) c lock k t hd
  have hspares := closeServed_spares (d := d) (b := b) c lock k t
  obtain ⟨harm, -, hothers, -⟩ := settle_frame hd hspares
  refine ⟨by rw [hbay], by rw [hbay], by rw [hbay], by rw [hbay], by rw [hbay], by rw [hbay], by rw [hbay], by rw [hbay],
    fun a u ha hu => ⟨fun hi => ⟨?_, ?_⟩, fun hp => ?_, fun hf => ?_⟩, fun h => ?_, fun h => ?_, fun y hy => ?_⟩
  · rw [harm]
    exact (closeServed_arms c lock k t ha).ends u hu hi
  · obtain ⟨z, hz, hzc⟩ := closeServed_ended c lock k t ha hu hi
    obtain ⟨w, hw, hwz⟩ := closeServed_endedStay c lock k t hd z hz
    rw [Batch.eq_of_core (hwz.trans hzc)] at hw
    exact ⟨_, hw, rfl, rfl, rfl, rfl, rfl, rfl⟩
  · rw [harm, (closeServed_arms c lock k t ha).stays u hu (by rw [hp]; decide) (by rw [hp]; rfl)]
    exact hu
  · obtain ⟨hzero, x, hx, hxc⟩ := (closeServed_arms c lock k t ha).stops u hu hf
    rw [harm]
    refine ⟨hzero, x, hx, ?_⟩
    rw [Batch.eq_of_core hxc]
    exact ⟨rfl, rfl, rfl⟩
  · rw [hdone h]
    refine ⟨rfl, fun x hx y hy => ?_⟩
    obtain ⟨z, -, rfl⟩ := List.mem_map.mp hx
    exact z.cancelLeft_pending y hy
  · obtain ⟨m', l', hclosing⟩ := closeServed_bay (d := d) (b := b) c lock k t
    rw [hstill h, hclosing]
  · obtain ⟨l', hl'⟩ := hspares.bays y hy
    rw [hothers y hy, hl']

/-- R175: the close leaves custody memory alone, and its answer joins the queue. -/
theorem closeServed_frame (hd : d.settled = true) : (settle d (d.closeServed c b lock k t)).custody = d.custody ∧
    (settle d (d.closeServed c b lock k t)).mp.answers = d.mp.answers ++ [⟨BitVec.ofNat 8 k, t, .ok, []⟩] := by
  have hspares := closeServed_spares (d := d) (b := b) c lock k t
  have hw := lockedTo_closeLoad_within (d := d) (b := b) c lock
  have hcw : ((d.lockedTo c b lock).closeLoad b).cw = d.cw := (Device.closeLoad_calm ..).cw
  obtain ⟨-, -, -, -, -, hcustody, -⟩ := settle_frame hd hspares
  rw [Device.closeServed] at hspares hcustody ⊢
  generalize (d.lockedTo c b lock).closeLoad b = e at hspares hw hcw hcustody ⊢
  have hrest := hw.rest
  have hanswers : e.mp.answers = d.mp.answers := (congrArg (fun f : Device => f.mp.answers) hrest).symm
  rw [hcustody, settle_answers hd hspares (congrArg Device.boot hrest).symm hcw]
  exact ⟨(congrArg Device.custody hrest).symm, by rw [← hanswers]; rfl⟩

end Closing

end Sys2Proof.Machine
end

