-- ==== Sys2Proof/Proofs/LoadRequests.lean ====
section
/-! LOAD FINISH and TRIP CLEAR (R70, R76): an authorization withdrawn, with the slot it gives up and the stalled commit that
may get it (R107, R135), and the close of a load with the barrier of its note (R132). -/

namespace Sys2Proof.Machine

open Sys2Proof

namespace Device

/-! ### An answer and the work of CW (R114, R175) -/

theorem takeUnwritten_reply (l : List ArmId) (d : Device) (k : Nat) (t : Byte) (st : Status) (els : List Element) :
    (d.reply k t st els).takeUnwritten l = (d.takeUnwritten l).reply k t st els := by
  unfold takeUnwritten
  induction l generalizing d with
  | nil => rfl
  | cons a l ih => exact ih (d.onMeter a fun m => { m with unwritten := ⟨0, 0⟩ })

theorem lookAtBarrier_reply (d : Device) (e : QEntry) (b : Barrier) (l : List QEntry) (k : Nat) (t : Byte) (st : Status)
    (els : List Element) : (d.reply k t st els).lookAtBarrier e b l = (d.lookAtBarrier e b l).reply k t st els := by
  have harms : (d.reply k t st els).recoveryArms b.image = d.recoveryArms b.image := rfl
  unfold lookAtBarrier
  rw [harms]
  cases h : d.recoveryArms b.image with
  | nil =>
    dsimp only
    show (if 4294967296 ≤ d.nextNumber then _ else _) = _
    split <;> rfl
  | cons a q =>
    dsimp only
    rw [takeUnwritten_reply, recoveryEntries_congr (d := d) (e := d.reply k t st els) rfl]
    rfl

/-- An answer is no concern of CW's start. -/
theorem cwStart_reply (d : Device) (k : Nat) (t : Byte) (st : Status) (els : List Element) :
    (d.reply k t st els).cwStart = d.cwStart.reply k t st els := by
  unfold cwStart
  show (if d.cw.write.isSome || !d.cwMayWork then _ else _) = _
  split
  · rfl
  · rw [reply_cw]
    split
    · rfl
    · split
      · rfl
      · split
        · rfl
        · split
          · rfl
          · split
            · split
              · rfl
              · exact lookAtBarrier_reply ..
            · exact lookAtBarrier_reply ..

/-! ### The authorization withdrawn (R71, R107, R128, R135) -/

theorem releaseLine_rest (d : Device) (o : Order) (k n : Nat) :
    { d with accounts := (d.releaseLine o k n).accounts, orders := (d.releaseLine o k n).orders } = d.releaseLine o k n := by
  unfold releaseLine
  split
  · rfl
  split
  · rfl
  · unfold onAccount; split <;> rfl

theorem releaseLines_rest (d : Device) (o : Order) (pick : OrderLine → Bool) :
    { d with accounts := (d.releaseLines o pick).accounts, orders := (d.releaseLines o pick).orders } = d.releaseLines o pick := by
  unfold releaseLines
  induction List.range o.lines.length generalizing d with
  | nil => rfl
  | cons k t ih =>
    rw [List.foldl_cons, ← ih]
    split
    · split
      · rw [← releaseLine_rest]
      · rfl
    · rfl

theorem releaseLine_intoService (d : Device) (c : Instr) (o : Order) (k n : Nat) :
    (d.intoService c).releaseLine o k n = (d.releaseLine o k n).intoService c := by
  unfold releaseLine
  split
  · rfl
  split
  · rfl
  · unfold onAccount
    rw [intoService_accounts]
    split <;> rfl

theorem releaseLines_intoService (d : Device) (c : Instr) (o : Order) (pick : OrderLine → Bool) :
    (d.intoService c).releaseLines o pick = (d.releaseLines o pick).intoService c := by
  unfold releaseLines
  induction List.range o.lines.length generalizing d with
  | nil => rfl
  | cons k t ih =>
    rw [List.foldl_cons, List.foldl_cons, ← ih]
    refine congrArg (fun e => List.foldl _ e t) ?_
    split
    · split
      · exact releaseLine_intoService ..
      · rfl
    · rfl

/-- R128, R135: the slot given up is FREE, or goes to the commit whose stall began first. -/
theorem slotAvailable_free {d : Device} (k : SlotId) (h : d.firstStalled = none) : d.slotAvailable k = d.setSlot k .free := by
  unfold slotAvailable
  rw [h]

/-- R135: the part with the slot given to the stalled commit of bay `y`. -/
def slotGiven (d : Device) (k : SlotId) (y : BayId) : Device :=
  (((d.setSlot k .free).failSlotOf y).setSlot k (.reserved y false)).onNoteBay y fun n => { n with stall := none }

theorem slotAvailable_given {d : Device} {y : BayId} (k : SlotId) (h : d.firstStalled = some y) : d.slotAvailable k =
    (match ((d.slotGiven k y).noteBay y).held with
      | some i => (d.slotGiven k y).headBarrier y k i
      | none => d.slotGiven k y).bayNotice y 17 [octets 1 k.val] := by
  unfold slotAvailable
  rw [h]
  rfl

theorem slotGiven_rest (d : Device) (k : SlotId) (y : BayId) : { d with nu := (d.slotGiven k y).nu } = d.slotGiven k y := by
  unfold slotGiven failSlotOf
  split <;> rfl

theorem slotGiven_intoService (d : Device) (c : Instr) (k : SlotId) (y : BayId) :
    (d.intoService c).slotGiven k y = (d.slotGiven k y).intoService c := by
  have hslot : ((d.intoService c).setSlot k .free).reservedSlot y = (d.setSlot k .free).reservedSlot y := rfl
  unfold slotGiven failSlotOf
  rw [hslot]
  split <;> rfl

theorem giveUpSlot_rest (d : Device) (b : BayId) :
    { d with
      nu := (d.giveUpSlot b).nu, cw := (d.giveUpSlot b).cw
      mp := { d.mp with notices := (d.giveUpSlot b).mp.notices } } = d.giveUpSlot b := by
  unfold giveUpSlot
  split
  next k _ =>
    cases h : d.firstStalled with
    | none => rw [slotAvailable_free k h]; rfl
    | some y =>
      rw [slotAvailable_given k h]
      split <;> rw [← slotGiven_rest] <;> rfl
  next => rfl

theorem giveUpSlot_intoService (d : Device) (c : Instr) (b : BayId) :
    (d.intoService c).giveUpSlot b = (d.giveUpSlot b).intoService c := by
  have hslot : (d.intoService c).reservedSlot b = d.reservedSlot b := rfl
  have hstalled : (d.intoService c).firstStalled = d.firstStalled := rfl
  unfold giveUpSlot
  rw [hslot]
  split
  next k _ =>
    cases h : d.firstStalled with
    | none => rw [slotAvailable_free k h, slotAvailable_free k (hstalled.trans h)]; rfl
    | some y =>
      rw [slotAvailable_given k h, slotAvailable_given k (hstalled.trans h), slotGiven_intoService, intoService_noteBay]
      split <;> rfl
  next => rfl

/-- R135: a slot given up queues the barrier of a stalled commit, or CW's part is as it was. -/
theorem giveUpSlot_cw (d : Device) (b : BayId) : (d.giveUpSlot b).cw = d.cw ∨
    (d.firstStalled ≠ none ∧ (d.giveUpSlot b).cw.queue ≠ []) := by
  unfold giveUpSlot
  split
  next k _ =>
    cases h : d.firstStalled with
    | none => rw [slotAvailable_free k h]; exact .inl rfl
    | some y =>
      rw [slotAvailable_given k h]
      split
      next => exact .inr ⟨nofun, by simp [bayNotice, headBarrier, onCw]⟩
      next => exact .inl (by rw [← slotGiven_rest]; rfl)
  next => exact .inl rfl

/-- R107: AU's part of a withdrawal moves no bay and no arm. -/
theorem withdrawOrder_rest (d : Device) (b : BayId) (removed : Bool) :
    { d with
      accounts := (d.withdrawOrder b removed).accounts, orders := (d.withdrawOrder b removed).orders
      nu := (d.withdrawOrder b removed).nu, cw := (d.withdrawOrder b removed).cw
      mp := { d.mp with notices := (d.withdrawOrder b removed).mp.notices } } = d.withdrawOrder b removed := by
  unfold withdrawOrder
  split
  · rw [← giveUpSlot_rest]
  · dsimp only
    rw [← giveUpSlot_rest]
    split <;> rw [← releaseLines_rest] <;> rfl

theorem withdrawOrder_intoService (d : Device) (c : Instr) (b : BayId) (removed : Bool) :
    (d.intoService c).withdrawOrder b removed = (d.withdrawOrder b removed).intoService c := by
  have horder : (d.intoService c).orderOf b = d.orderOf b := rfl
  unfold withdrawOrder
  rw [horder]
  split
  · exact giveUpSlot_intoService ..
  · have hgive : ∀ e f : Device, f = e.intoService c → f.giveUpSlot b = (e.giveUpSlot b).intoService c := fun e f h =>
      h ▸ giveUpSlot_intoService e c b
    dsimp only
    rw [releaseLines_intoService]
    split <;> exact hgive _ _ rfl

theorem withdrawOrder_cw (d : Device) (b : BayId) (removed : Bool) : (d.withdrawOrder b removed).cw = d.cw ∨
    (d.firstStalled ≠ none ∧ (d.withdrawOrder b removed).cw.queue ≠ []) := by
  unfold withdrawOrder
  split
  · exact giveUpSlot_cw ..
  next o _ =>
    have hkeep : ∀ e : Device, e.cw = d.cw → e.firstStalled = d.firstStalled → (e.giveUpSlot b).cw = d.cw ∨
        (d.firstStalled ≠ none ∧ (e.giveUpSlot b).cw.queue ≠ []) := fun e hcw hf => by
      rw [← hcw, ← hf]
      exact giveUpSlot_cw ..
    have hcw : (d.releaseLines o fun _ => true).cw = d.cw := by rw [← releaseLines_rest]
    have hf : (d.releaseLines o fun _ => true).firstStalled = d.firstStalled := by rw [← releaseLines_rest]; rfl
    dsimp only
    split
    · exact hkeep _ hcw hf
    · exact hkeep _ hcw hf

/-- R70, R71: the withdrawal that LOAD FINISH makes. -/
theorem withdraw_loadFinish (d : Device) (b : BayId) : d.withdraw b .loadFinish =
    ((d.withdrawOrder b false).onBay b fun r => if (d.bay b).state = .authorized then { r.withdrawn with state := .idle, message := none }
      else r.withdrawn).bayNotice b 7 [octets 1 WithdrawCause.loadFinish.code] := by
  have hbay : (d.withdrawOrder b false).bay b = d.bay b := by rw [← withdrawOrder_rest]; rfl
  have hcause : (WithdrawCause.loadFinish == .orderCancel) = false := rfl
  unfold withdraw
  dsimp only
  rw [hcause, if_neg (by decide)]
  refine congrArg (fun e : Device => e.bayNotice b 7 [octets 1 WithdrawCause.loadFinish.code]) ?_
  split
  next h =>
    rw [enterState_eq _ _ _ (by rw [onBay_bay_same, hbay]; show (d.bay b).state ≠ _; rw [h]; decide), onBay_onBay]
  next => rfl

theorem withdraw_loadFinish_bay (d : Device) (b : BayId) : (d.withdraw b .loadFinish).bay b =
    if (d.bay b).state = .authorized then { (d.bay b).withdrawn with state := .idle, message := none } else (d.bay b).withdrawn := by
  have hbay : (d.withdrawOrder b false).bay b = d.bay b := by rw [← withdrawOrder_rest]; rfl
  rw [withdraw_loadFinish, bayNotice_bay, onBay_bay_same, hbay]

theorem withdraw_loadFinish_ofBay (d : Device) (b : BayId) : d.OfBay b (d.withdraw b .loadFinish) := by
  rw [withdraw_loadFinish]
  refine OfBay.trans ⟨fun y _ => ?_, ?_⟩ ((onBay_ofBay ..).trans (bayNotice_ofBay ..))
  · rw [← withdrawOrder_rest]; rfl
  · rw [← withdrawOrder_rest]

theorem withdraw_loadFinish_cw (d : Device) (b : BayId) : (d.withdraw b .loadFinish).cw = d.cw ∨
    (d.firstStalled ≠ none ∧ (d.withdraw b .loadFinish).cw.queue ≠ []) := by
  have hcw : (d.withdraw b .loadFinish).cw = (d.withdrawOrder b false).cw := by rw [withdraw_loadFinish]; rfl
  rw [hcw]
  exact withdrawOrder_cw ..

theorem withdraw_loadFinish_intoService (d : Device) (c : Instr) (b : BayId) :
    (d.intoService c).withdraw b .loadFinish = (d.withdraw b .loadFinish).intoService c := by
  rw [withdraw_loadFinish, withdraw_loadFinish, withdrawOrder_intoService]
  rfl

end Device

/-! ### What follows a bay that comes to rest, with work for CW (R114) -/

/-- An event of one bay that leaves its arms alone and moves it between states in which nothing flows, its causes kept, gives
no block but CW work. -/
theorem settle_restingBay {b : BayId} {d e : Device} (hd : d.settled = true) (hs : d.Spares b e)
    (harm : ∀ a, e.arm a = d.arm a) (hothers : ∀ y, y ≠ b → e.bay y = d.bay y)
    (h0 : (d.bay b).state ∈ [BayState.idle, .authorized, .held]) (h1 : (e.bay b).state ∈ [BayState.idle, .authorized, .held])
    (hc : (e.bay b).causes = (d.bay b).causes) : settle d e = e.cwStart.cwPark := by
  obtain ⟨hbays, hlines, -⟩ := (settled_iff d).mp hd
  have hno : ∀ st : BayState, st ∉ [BayState.idle, .authorized, .held] → (d.bay b).state ≠ st ∧ (e.bay b).state ≠ st := fun st hst =>
    ⟨fun hk => hst (hk ▸ h0), fun hk => hst (hk ▸ h1)⟩
  have hstage : ∀ a, d.effectiveStage a = e.effectiveStage a := fun a => by
    by_cases ha : ∃ y, d.bayOfArm a = some y ∧ y ≠ b
    · obtain ⟨y, hy, hne⟩ := ha
      exact (hs.stage hy hne).symm
    · have hb : ∀ y, d.bayOfArm a = some y → y = b := fun y hy => by
        by_contra hne
        exact ha ⟨y, hy, hne⟩
      rw [Device.effectiveStage_of_not_loading fun y hy => by rw [hb y hy]; exact (hno .loading (by decide)).1,
        Device.effectiveStage_of_not_loading fun y hy => by
          rw [hb y ((hs.bayOfArm a).symm.trans hy)]; exact (hno .loading (by decide)).2]
  have hrests : ∀ y, e.bayRests y = true := fun y => by
    by_cases hy : y = b
    · subst hy
      have hrest := hbays y
      have hseated : e.armsSeated y = d.armsSeated y := by
        simp only [Device.armsSeated, Device.armsOf_congr hs.armRecs, harm]
      have hclosing : ((e.bay y).state == .closing) = false := beq_eq_false_iff_ne.mpr (hno .closing (by decide)).2
      have hholding : ((e.bay y).state == .holding) = false := beq_eq_false_iff_ne.mpr (hno .holding (by decide)).2
      simp only [Device.bayRests, Bool.and_eq_true] at hrest
      simp only [Device.bayRests, hseated, hc, hclosing, hholding, Bool.false_and, Bool.not_false, Bool.and_true]
      exact hrest.1.1
    · exact (hs.bayRests hy).trans (hbays y)
  have hone : ∀ st : BayState, st ∉ [BayState.idle, .authorized, .held] → ∀ y, ((e.bay y).state == st) = ((d.bay y).state == st) :=
    fun st hst y => by
      by_cases hy : y = b
      · rw [hy, beq_eq_false_iff_ne.mpr (hno st hst).1, beq_eq_false_iff_ne.mpr (hno st hst).2]
      · rw [hothers y hy]
  have hwant : ∀ f q, e.wantedDrive f q = d.wantedDrive f q := fun f q => by
    unfold Device.wantedDrive
    simp only [hone .loading (by decide), hone .tripped (by decide), hs.lu]
  have hdrives : ∀ l, e.lineRests l = true := fun l => by
    have hl := hlines l
    rw [Device.lineRests, Device.line] at hl ⊢
    rw [hs.lu, hwant]
    exact hl
  rw [settle, supervise_quiet d e fun a => ⟨hstage a, by rw [harm]⟩, allBayTests_rest e hrests, driveOutputs_rest e hdrives]

/-- R123: CW parks on nothing that it has just taken up. -/
theorem cwStart_cwPark {d e : Device} (hd : d.settled = true) (hb : e.boot = d.boot) (h : e.cw = d.cw ∨ e.cw.queue ≠ []) :
    e.cwStart.cwPark = e.cwStart := by
  obtain ⟨-, -, hrest, hpark⟩ := (settled_iff d).mp hd
  rcases h with h | h
  · obtain ⟨h1, h2⟩ := Device.cwRests_congr hb h
    rw [cwStart_rest e (h1.trans hrest), cwPark_rest e (h2.trans hpark)]
  · exact Device.cwPark_busy (Device.cwStart_queue h)

/-- LOAD FINISH as the part takes it into service. -/
theorem exec_loadFinish (s : State) (t : Byte) (b : BayId) : exec (.loadFinish t (some b.val)) s =
    advance s fun d => d.request (.loadFinish t (some b.val)) fun e => e.conclude 12 t (orWrong (e.finishLoad b .loadFinish)) := by
  show execLoadFinish t (some b.val) s = _
  simp only [execLoadFinish, withOne_val]

theorem exec_tripClear (s : State) (t : Byte) (b : BayId) : exec (.tripClear t (some b.val)) s =
    advance s fun d => d.request (.tripClear t (some b.val)) fun e => e.conclude 14 t (orWrong (e.tripClear b)) := by
  show execTripClear t (some b.val) s = _
  simp only [execTripClear, withOne_val]

section Requests
variable {s : State} {t : Byte} {b : BayId}

/-- R70, R71, R135: LOAD FINISH withdraws an authorization, and CW takes up what a stalled commit then queues. -/
theorem loadFinish_withdraws (hq : s.quiet = true)
    (h : (s.dev.bay b).state = .authorized ∨ ((s.dev.bay b).state = .held ∧ (s.dev.bay b).before = some .authorized)) :
    exec (.loadFinish t (some b.val)) s = .next (s.answers (s.dev.withdraw b .loadFinish).cwStart 12 t .ok []) := by
  obtain ⟨-, hd⟩ := s.quiet_iff.mp hq
  have hof := Device.withdraw_loadFinish_ofBay s.dev b
  have hbay := Device.withdraw_loadFinish_bay s.dev b
  have hcw : (s.dev.withdraw b .loadFinish).cw = s.dev.cw ∨ (s.dev.withdraw b .loadFinish).cw.queue ≠ [] :=
    (Device.withdraw_loadFinish_cw s.dev b).imp_right And.right
  have hrun : (s.dev.intoService (.loadFinish t (some b.val))).finishLoad b .loadFinish =
      some ((s.dev.withdraw b .loadFinish).intoService (.loadFinish t (some b.val))) := by
    rw [← Device.withdraw_loadFinish_intoService]
    exact (Device.finishLoad_cases (s.dev.intoService _) b .loadFinish).1 h
  have hstates : (s.dev.bay b).state ∈ [BayState.idle, .authorized, .held] ∧
      ((s.dev.withdraw b .loadFinish).bay b).state ∈ [BayState.idle, .authorized, .held] ∧
      ((s.dev.withdraw b .loadFinish).bay b).causes = (s.dev.bay b).causes := by
    rw [hbay]
    rcases h with h | ⟨h, -⟩
    · rw [if_pos h, h]
      exact ⟨by decide, List.mem_cons_self, rfl⟩
    · rw [if_neg (by rw [h]; decide)]
      refine ⟨by rw [h]; decide, ?_, rfl⟩
      show (s.dev.bay b).state ∈ _
      rw [h]
      decide
  obtain ⟨h0, h1, hc⟩ := hstates
  rw [exec_loadFinish]
  generalize s.dev.withdraw b .loadFinish = e at hof hcw hrun h1 hc ⊢
  have hrest := hof.rest
  have hboot : e.boot = s.dev.boot := (congrArg Device.boot hrest).symm
  have hmp : e.mp.fifo = s.dev.mp.fifo ∧ e.mp.inService = s.dev.mp.inService :=
    ⟨(congrArg (fun f : Device => f.mp.fifo) hrest).symm, (congrArg (fun f : Device => f.mp.inService) hrest).symm⟩
  have hs := hof.spares
  have hsettle : settle s.dev (e.reply 12 t .ok []) = e.cwStart.reply 12 t .ok [] := by
    rw [settle_restingBay (e := e.reply 12 t .ok []) hd ⟨hs.armRecs, hs.lu, hs.arms, hs.bays, hs.shots⟩ hof.arm hof.others h0 h1 hc,
      cwStart_cwPark (e := e.reply 12 t .ok []) hd hboot hcw, Device.cwStart_reply]
  rw [request_settles (r := fun x => orWrong (x.finishLoad b .loadFinish)) hq hmp.1 hmp.2 (congrArg orWrong hrun), hsettle]
  rfl

/-- R135: with no commit stalled the slot is FREE and CW has nothing to do. -/
theorem loadFinish_withdraws_quietly (hq : s.quiet = true)
    (h : (s.dev.bay b).state = .authorized ∨ ((s.dev.bay b).state = .held ∧ (s.dev.bay b).before = some .authorized))
    (hf : s.dev.firstStalled = none) :
    exec (.loadFinish t (some b.val)) s = .next (s.answers (s.dev.withdraw b .loadFinish) 12 t .ok []) := by
  obtain ⟨-, hd⟩ := s.quiet_iff.mp hq
  obtain ⟨-, -, hrest, -⟩ := (settled_iff s.dev).mp hd
  have hcw := (Device.withdraw_loadFinish_cw s.dev b).resolve_right fun k => k.1 hf
  have hboot : (s.dev.withdraw b .loadFinish).boot = s.dev.boot :=
    (congrArg Device.boot (Device.withdraw_loadFinish_ofBay s.dev b).rest).symm
  rw [loadFinish_withdraws hq h, cwStart_rest _ ((Device.cwRests_congr hboot hcw).1.trans hrest)]

/-! ### A load closed by a request -/

theorem loadFinish_closes (hq : s.quiet = true) (h : (s.dev.bay b).state ∈ [.loading, .holding] ∨
      ((s.dev.bay b).state = .held ∧ (s.dev.bay b).before = some .loading) ∨
      ((s.dev.bay b).state = .tripped ∧ (s.dev.bay b).lockout = false)) :
    exec (.loadFinish t (some b.val)) s = .next { s with
      dev := settle s.dev (s.dev.closeServed (.loadFinish t (some b.val)) b (s.dev.bay b).lockout 12 t) } := by
  have hlocked : s.dev.lockedTo (.loadFinish t (some b.val)) b (s.dev.bay b).lockout =
      s.dev.intoService (.loadFinish t (some b.val)) := Device.onBay_same _ _ _ rfl
  have hrun := (Device.finishLoad_cases (s.dev.intoService (.loadFinish t (some b.val))) b .loadFinish).2.1 h
  rw [exec_loadFinish, Device.closeServed, hlocked]
  exact request_carried (r := fun x => orWrong (x.finishLoad b .loadFinish)) hq (congrArg orWrong hrun)

theorem tripClear_closes (hq : s.quiet = true) (h : (s.dev.bay b).state = .tripped) (hl : (s.dev.bay b).lockout = true) :
    exec (.tripClear t (some b.val)) s = .next { s with
      dev := settle s.dev (s.dev.closeServed (.tripClear t (some b.val)) b false 14 t) } := by
  have hrun : (s.dev.intoService (.tripClear t (some b.val))).tripClear b =
      some ((s.dev.lockedTo (.tripClear t (some b.val)) b false).closeLoad b) := if_pos ⟨h, hl⟩
  rw [exec_tripClear, Device.closeServed]
  exact request_carried (r := fun x => orWrong (x.tripClear b)) hq (congrArg orWrong hrun)

end Requests

/-! ### The barrier of the note (R113, R116, R118, R132) -/

/-- A barrier stands in the queue: of this bay, with this slot and this image. -/
def Device.Queues (d : Device) (b : BayId) (k : SlotId) (i : NoteImage) : Prop :=
  ∃ e ∈ d.cw.queue, ∃ x, e.body = .barrier x ∧ x.bay = b ∧ x.slot = k ∧ x.image = i

theorem Device.Queues.ne_nil {d : Device} {b : BayId} {k : SlotId} {i : NoteImage} (h : d.Queues b k i) : d.cw.queue ≠ [] := by
  obtain ⟨e, he, -⟩ := h
  exact List.ne_nil_of_mem he

/-- A queue with every entry of another, started or given its number or not, still holds its barriers. -/
theorem Device.Queues.of_queue {d f : Device} {b : BayId} {k : SlotId} {i : NoteImage} (h : d.Queues b k i)
    (hq : ∀ e ∈ d.cw.queue, ∀ x, e.body = .barrier x → ∃ e' ∈ f.cw.queue, ∃ x', e'.body = .barrier x' ∧ x'.bay = x.bay ∧
      x'.slot = x.slot ∧ x'.image = x.image) : f.Queues b k i := by
  obtain ⟨e, he, x, hx, rfl, rfl, rfl⟩ := h
  exact hq e he x hx

theorem Device.lookAtBarrier_keepsBarriers {d : Device} {e : QEntry} {x : Barrier} {rest : List QEntry} {b : BayId} {k : SlotId}
    {i : NoteImage} (hq : d.cw.queue = e :: rest) (he : e.body = .barrier x) (h : d.Queues b k i) :
    (d.lookAtBarrier e x rest).Queues b k i := by
  refine h.of_queue fun y hy z hz => ?_
  rw [hq] at hy
  cases hr : d.recoveryArms x.image with
  | cons a l =>
    refine ⟨y, ?_, z, hz, rfl, rfl, rfl⟩
    rw [(lookAtBarrier_recovers e rest hr).1]
    exact List.mem_cons_of_mem _ (List.mem_append_right _ hy)
  | nil =>
    by_cases hn : d.nextNumber < 4294967296
    · rw [lookAtBarrier_starts e rest hr hn]
      rcases List.mem_cons.mp hy with rfl | hy
      · obtain rfl : x = z := EntryBody.barrier.inj (he.symm.trans hz)
        exact ⟨_, List.mem_cons_self, _, rfl, rfl, rfl, rfl⟩
      · exact ⟨y, List.mem_cons_of_mem _ hy, z, hz, rfl, rfl, rfl⟩
    · rw [lookAtBarrier_exhausted e rest hr (Nat.not_lt.mp hn)]
      exact ⟨y, by rw [hq]; exact hy, z, hz, rfl, rfl, rfl⟩

/-- R114: work that CW starts takes no barrier from the queue. -/
theorem Device.cwStart_keepsBarriers {d : Device} {b : BayId} {k : SlotId} {i : NoteImage} (h : d.Queues b k i) :
    d.cwStart.Queues b k i := by
  unfold cwStart
  split
  · exact h
  split
  · exact h
  split
  · exact h
  next e rest hq =>
    split
    next p hp =>
      refine h.of_queue fun y hy z hz => ⟨y, ?_, z, hz, rfl, rfl, rfl⟩
      rw [hq] at hy
      refine List.mem_cons_of_mem _ ((List.mem_cons.mp hy).resolve_left fun hye => ?_)
      rw [hye, hp] at hz
      exact nomatch hz
    next x hx =>
      split
      · exact h
      split
      · split
        · exact h
        · exact lookAtBarrier_keepsBarriers hq hx h
      · exact lookAtBarrier_keepsBarriers hq hx h

theorem Device.windUp_keepsBarriers {d : Device} {b : BayId} {k : SlotId} {i : NoteImage} (h : d.Queues b k i) :
    d.windUp.Queues b k i := by
  have hdrive : d.driveOutputs.Queues b k i := by
    unfold Queues
    rw [← driveOutputs_frame]
    exact h
  have hstart := cwStart_keepsBarriers hdrive
  unfold windUp
  rw [cwPark_busy hstart.ne_nil]
  exact hstart

namespace Device

/-! ### The order of the note (R106, R132) -/

theorem onOrder_numbers (d : Device) (n : Nat) (f : Order → Order) (hf : ∀ o, (f o).number = o.number) :
    (d.onOrder n f).orders.map Order.number = d.orders.map Order.number := by
  show (d.orders.map fun o => if o.number == n then f o else o).map Order.number = _
  rw [List.map_map]
  refine List.map_congr_left fun o _ => ?_
  rw [Function.comp_apply]
  split
  · exact hf o
  · rfl

theorem releaseLine_numbers (d : Device) (o : Order) (k n : Nat) :
    (d.releaseLine o k n).orders.map Order.number = d.orders.map Order.number := by
  unfold releaseLine
  split
  · rfl
  split
  · rfl
  · rw [onOrder_numbers _ _ _ fun _ => by rfl, onAccount_orders]

theorem noteReady_numbers (d : Device) (b : BayId) :
    (d.noteReady b).orders.map Order.number = d.orders.map Order.number := by
  unfold noteReady
  dsimp only
  split
  · exact releaseLines_keeps (fun e => e.orders.map Order.number) (fun _ _ _ _ => releaseLine_numbers ..) _ _ _
  · rfl

/-- An order is found by its number in any queue with the same numbers. -/
theorem orderNumbered_of_numbers {d e : Device} {n : Nat} {o : Order} (h : e.orders.map Order.number = d.orders.map Order.number)
    (ho : d.orderNumbered n = some o) : ∃ o', e.orderNumbered n = some o' ∧ o'.number = o.number := by
  have hfind : ∀ f : Device, (f.orderNumbered n).map Order.number = (f.orders.map Order.number).find? (· == n) := fun f => by
    rw [List.find?_map]
    rfl
  have hnum : (e.orderNumbered n).map Order.number = some o.number := by
    rw [hfind, h, ← hfind, ho]
    rfl
  exact Option.map_eq_some_iff.mp hnum

/-- R132: at the end of a closing the note's image is held and its barrier queued with the bay's slot. -/
theorem closingTest_commits {d : Device} {b : BayId} {o : Order} {k : SlotId} (h1 : (d.bay b).state = .closing)
    (h2 : d.noBatch b = true) (h3 : d.outstandingShots b = 0) (ho : d.orderOf b = some o) (hk : d.reservedSlot b = some k) :
    (∃ i, ((d.closingTest b).noteBay b).held = some i ∧ i.order = o.number ∧ i.bay = b ∧
      i.lines.length = (d.bay b).ended.length ∧ (d.closingTest b).Queues b k i) ∧
    ∀ j, (d.closingTest b).slot j = d.slot j := by
  have hready := noteReady_bay d b
  have hnu := noteReady_nu d b
  obtain ⟨hnumber, hfound⟩ := orderOf_eq_some ho
  obtain ⟨o', ho', hnum⟩ := orderNumbered_of_numbers (noteReady_numbers d b) hfound
  have horder : (d.noteReady b).orderOf b = some o' := by
    unfold orderOf
    rw [hready]
    dsimp only
    rw [hnumber]
    exact ho'
  have hslot : (d.noteReady b).reservedSlot b = some k := by
    rw [← hk]
    unfold reservedSlot slot
    rw [hnu]
  rw [closingTest_done h1 h2 h3]
  generalize d.noteReady b = e at hready hnu horder hslot ⊢
  have hcommit : e.commitNote b = (e.onNoteBay b fun n => { n with held := some (assembleImage e b o') }).appendBarrier b k
      (assembleImage e b o') := by
    unfold commitNote
    rw [horder, hslot]
  rw [hcommit]
  refine ⟨⟨assembleImage e b o', ?_, hnum, rfl, ?_, ?_⟩, fun j => ?_⟩
  · exact congrArg NoteBay.held (Bank.read_write_same ..)
  · show ((e.bay b).ended.map _).length = _
    rw [hready, List.length_map, List.length_map]
  · exact ⟨_, List.mem_append_right _ (List.mem_singleton_self _), _, rfl, rfl, rfl, rfl⟩
  · show e.slot j = _
    rw [slot, hnu]
    rfl

end Device

/-- R83, R132: what follows an event that leaves a bay CLOSING with nothing to wait for hands CW the note of its load. -/
theorem settle_commits {d e : Device} {b : BayId} {o : Order} {j : SlotId} (hd : d.settled = true) (h : d.Spares b e)
    (hs : (e.bay b).state = .closing) (hc : (e.bay b).causes = .empty) (hn : e.noBatch b = true) (hz : e.outstandingShots b = 0)
    (ho : e.orderOf b = some o) (hj : e.reservedSlot b = some j) :
    (∃ i, ((settle d e).noteBay b).held = some i ∧ i.order = o.number ∧ i.bay = b ∧ i.lines.length = (e.bay b).ended.length ∧
      (settle d e).Queues b j i) ∧ (settle d e).slot j = e.slot j := by
  have hself := supervise_bay d e b
  have hbatches : (supervise d e).noBatch b = e.noBatch b :=
    Device.noBatch_congr (by rw [← supervise_rest]) fun a => by rw [supervise_arm]
  have hshots : (supervise d e).outstandingShots b = e.outstandingShots b := by rw [← supervise_rest]; rfl
  have horder : (supervise d e).orderOf b = e.orderOf b := Device.orderOf_congr (supervise_orders d e) (by rw [hself])
  have hslot : (supervise d e).reservedSlot b = e.reservedSlot b := by rw [← supervise_rest]; rfl
  have hslots : (supervise d e).slot j = e.slot j := by rw [← supervise_rest]; rfl
  rw [← hself] at hs hc ⊢
  rw [← hslots, settle_spares hd h, Device.bayTests_closing hs hc]
  obtain ⟨⟨i, hheld, hnumber, hbay, hlines, hqueue⟩, hkept⟩ := Device.closingTest_commits hs (hbatches.trans hn) (hshots.trans hz)
    (horder.trans ho) (hslot.trans hj)
  refine ⟨⟨i, ?_, hnumber, hbay, hlines, Device.windUp_keepsBarriers hqueue⟩, ?_⟩
  · rw [← Device.windUp_rest]
    exact hheld
  · rw [← Device.windUp_rest]
    exact hkept j

/-- R82: the close of a load with no batch open keeps the bay's ended batches, the orders and the notes. -/
theorem Device.closeLoad_of_none_keeps {d : Device} {b : BayId} (h : ∀ a ∈ d.armsOf b, (d.arm a).batch = none) :
    (d.closeLoad b).orders = d.orders ∧ (d.closeLoad b).nu = d.nu ∧ ((d.closeLoad b).bay b).ended = (d.bay b).ended ∧
    d.OfBay b (d.closeLoad b) := by
  rw [closeLoad_of_none h]
  refine ⟨rfl, rfl, ?_, ((enterState_ofBay ..).trans (onBay_ofBay ..)).trans (bayNotice_ofBay ..)⟩
  rw [bayNotice_bay, onBay_bay_same]
  exact enterState_ended ..

section Committed
variable {d : Device} {b : BayId} (c : Instr) (k : Nat) (t : Byte)

/-- R76, R132: a TRIP CLEAR with no batch and no shot left hands CW the note of the load. -/
theorem closeServed_commits {o : Order} {j : SlotId} (hd : d.settled = true) (hn : d.noBatch b = true) (hz : d.outstandingShots b = 0)
    (ho : d.orderOf b = some o) (hj : d.reservedSlot b = some j) :
    (∃ i, ((settle d (d.closeServed c b false k t)).noteBay b).held = some i ∧ i.order = o.number ∧ i.bay = b ∧
      i.lines.length = (d.bay b).ended.length ∧ (settle d (d.closeServed c b false k t)).Queues b j i) ∧
    (∀ y, y ≠ b → (settle d (d.closeServed c b false k t)).bay y = d.bay y) ∧
    (settle d (d.closeServed c b false k t)).slot j = d.slot j := by
  have hnone := (Device.noBatch_iff d b).mp hn
  obtain ⟨horders, hnu, hended, hclose⟩ := Device.closeLoad_of_none_keeps (d := d.lockedTo c b false) (b := b) hnone
  have hof : (d.intoService c).OfBay b ((d.lockedTo c b false).closeLoad b) := (Device.onBay_ofBay ..).trans hclose
  rw [lockedTo_bay] at hended
  have horders' : (d.closeServed c b false k t).orders = d.orders := horders
  have hnu' : (d.closeServed c b false k t).nu = d.nu := hnu
  have hspares := closeServed_spares (d := d) (b := b) c false k t
  have hbatches := (closeServed_noBatch (d := d) (b := b) c false k t).mpr fun a u ha hu => nomatch (hnone a ha).symm.trans hu
  have hshots := closeServed_shots (d := d) (b := b) c false k t
  obtain ⟨m, l, hbay⟩ := closeServed_bay (d := d) (b := b) c false k t
  obtain ⟨-, -, hothers, -⟩ := settle_frame hd hspares
  have hslots : ∀ x, (d.closeServed c b false k t).slot x = d.slot x := fun x => by rw [Device.slot, hnu']; rfl
  have hfull : ((d.closeServed c b false k t).bay b).ended = (d.bay b).ended := by rw [Device.closeServed, finish_bay]; exact hended
  have hbays : ∀ y, y ≠ b → (d.closeServed c b false k t).bay y = d.bay y := fun y hy => by
    rw [Device.closeServed, finish_bay, hof.others y hy, Device.intoService_bay]
  obtain ⟨⟨i, hheld, hnumber, hib, hlines, hqueue⟩, hkept⟩ := settle_commits hd hspares (by rw [hbay]) (by rw [hbay]) hbatches
    (hshots.trans hz) ((Device.orderOf_congr horders' (by rw [hbay])).trans ho) (by
      unfold Device.reservedSlot
      simp only [hslots]
      exact hj)
  exact ⟨⟨i, hheld, hnumber, hib, hlines.trans (congrArg List.length hfull), hqueue⟩, fun y hy => (hothers y hy).trans (hbays y hy),
    hkept.trans (hslots j)⟩

end Committed

open Device in
/-- Settles O31: the requests refused, the authorization withdrawn, the load closed, and the note of a load with nothing left. -/
theorem loadFinishAndTripClear : Obligations.LoadFinishAndTripClear := by
  refine ⟨fun s t b hq => ⟨fun h => ?_, fun h => ⟨loadFinish_withdraws hq h, loadFinish_withdraws_quietly hq h⟩, fun h => ?_,
    fun a x hs ha hx hp => ?_⟩, fun s t b hq => ⟨fun h => ?_, fun hs hl => ?_, fun o k hs hl hn hz ho hk => ?_⟩⟩ <;>
    obtain ⟨-, hd⟩ := s.quiet_iff.mp hq
  · have hrun := (finishLoad_cases (s.dev.intoService (.loadFinish t (some b.val))) b .loadFinish).2.2
      (h.imp_right (Or.imp_left fun ⟨hs, hb⟩ => ⟨hs, .inl hb⟩))
    rw [exec_loadFinish]
    exact request_refused (r := fun x => orWrong (x.finishLoad b .loadFinish)) hq (congrArg orWrong hrun)
  · obtain ⟨hcustody, hanswers⟩ := closeServed_frame (d := s.dev) (b := b) (.loadFinish t (some b.val)) (s.dev.bay b).lockout 12 t hd
    obtain ⟨st, m, l, hbay⟩ := closeServed_keeps (d := s.dev) (b := b) (.loadFinish t (some b.val)) (s.dev.bay b).lockout 12 t hd
    refine ⟨_, loadFinish_closes hq h, rfl, ?_⟩
    dsimp only
    exact ⟨closeServed_loadCloses _ _ _ _ hd, by rw [hbay], hcustody, hanswers⟩
  · obtain ⟨hcustody, hanswers⟩ := closeServed_frame (d := s.dev) (b := b) (.loadFinish t (some b.val)) (s.dev.bay b).lockout 12 t hd
    obtain ⟨hcauses, hbefore, -, htimer, -, -, -, -, harms, -, hclosing, hothers⟩ :=
      closeServed_loadCloses (d := s.dev) (b := b) (.loadFinish t (some b.val)) (s.dev.bay b).lockout 12 t hd
    refine ⟨_, loadFinish_closes hq (.inl (by rw [hs]; decide)), rfl, ?_⟩
    dsimp only
    refine ⟨hclosing fun h => ?_, hcauses, hbefore, htimer, (harms a x ha hx).2.1 hp, hothers, hcustody, hanswers⟩
    have hi := h.1 a x ha hx
    rw [hp] at hi
    exact nomatch hi
  · have hrun : (s.dev.intoService (.tripClear t (some b.val))).tripClear b = none := if_neg fun ⟨hs, hl⟩ =>
      h.elim (absurd hs) fun hn => Bool.noConfusion (hn.symm.trans hl)
    rw [exec_tripClear]
    exact request_refused (r := fun x => orWrong (x.tripClear b)) hq (congrArg orWrong hrun)
  · obtain ⟨hcustody, hanswers⟩ := closeServed_frame (d := s.dev) (b := b) (.tripClear t (some b.val)) false 14 t hd
    obtain ⟨st, m, l, hbay⟩ := closeServed_keeps (d := s.dev) (b := b) (.tripClear t (some b.val)) false 14 t hd
    refine ⟨_, tripClear_closes hq hs hl, rfl, ?_⟩
    dsimp only
    exact ⟨closeServed_loadCloses _ _ _ _ hd, by rw [hbay], by rw [hbay], by rw [hbay], hcustody, hanswers⟩
  · have hnone := (noBatch_iff s.dev b).mp hn
    obtain ⟨hcustody, -⟩ := closeServed_frame (d := s.dev) (b := b) (.tripClear t (some b.val)) false 14 t hd
    obtain ⟨st, m, l, hbay⟩ := closeServed_keeps (d := s.dev) (b := b) (.tripClear t (some b.val)) false 14 t hd
    obtain ⟨hnote, hothers, hslot⟩ := closeServed_commits (.tripClear t (some b.val)) 14 t hd hn hz ho hk
    obtain ⟨-, -, -, -, -, -, -, -, -, hdone, -⟩ :=
      closeServed_loadCloses (d := s.dev) (b := b) (.tripClear t (some b.val)) false 14 t hd
    refine ⟨_, tripClear_closes hq hs hl, rfl, ?_⟩
    dsimp only
    exact ⟨(hdone ⟨fun a x ha hx => (nomatch (hnone a ha).symm.trans hx), hz⟩).1, by rw [hbay], by rw [hbay], hnote, hothers, hcustody,
      hslot⟩

end Sys2Proof.Machine
end

