-- ==== Sys2Proof/Proofs/DosingRecords.lean ====
section
/-! The dosing record that a reference names (R45): what a change of its batch makes of it, and what a close of a batch leaves
of every record, open or ended (R58, R61). -/

namespace Sys2Proof.Machine

open Sys2Proof

/-! ### A batch with its pending shots counted as cancelled (R58, R61) -/

/-- A dosing record with its pending shots counted with the cancelled ones and without its close mark: what the close of its
batch leaves as it is. -/
def Dosing.summed (x : Dosing) : Dosing := { x with pending := 0, cancelled := x.pending + x.cancelled, closeMark := false }

/-- A batch without its phase, snapshot and throttle mark, its dosing records summed. -/
def Batch.summed (b : Batch) : Batch :=
  { b with phase := .start, snapshot := none, throttle := false, dosing := b.dosing.map Dosing.summed }

/-- Records alike when summed differ in how their shots divide into pending and cancelled ones, and in the close mark. -/
theorem Dosing.eq_of_summed {x y : Dosing} (h : y.summed = x.summed) :
    y = { x with pending := y.pending, cancelled := y.cancelled, closeMark := y.closeMark } ∧
    y.pending + y.cancelled = x.pending + x.cancelled := by
  cases x; cases y
  simp only [summed, Dosing.mk.injEq] at h ⊢
  tauto

theorem Dosing.cancelPending_summed (x : Dosing) (mark : Bool) (n : Nat) : (x.cancelPending mark n).summed = x.summed := by
  simp only [summed, cancelPending, Dosing.mk.injEq, true_and, and_true]
  omega

theorem Batch.onDose_summed (b : Batch) (k : Nat) {f : Dosing → Dosing} (h : ∀ x, (f x).summed = x.summed) :
    (b.onDose k f).summed = b.summed := by
  have hl : (b.dosing.map fun x => if x.recipe == k then f x else x).map Dosing.summed = b.dosing.map Dosing.summed := by
    rw [List.map_map]
    refine List.map_congr_left fun x _ => ?_
    rw [Function.comp_apply]
    split
    · exact h x
    · rfl
  unfold summed onDose
  rw [hl]

theorem Batch.throttleClear_summed (b : Batch) : b.throttleClear.summed = b.summed := by
  unfold throttleClear
  split <;> rfl

theorem Batch.cancelLeft_summed (b : Batch) : b.cancelLeft.summed = b.summed := by
  unfold cancelLeft
  rw [throttleClear_summed]
  unfold summed
  dsimp only
  rw [List.map_map]
  exact congrArg (fun l => { b with phase := .start, snapshot := none, throttle := false, dosing := l })
    (List.map_congr_left fun x _ => Dosing.cancelPending_summed x false 0)

/-- An injector without what becomes of its standing offer's shot. -/
def Injector.unfated (i : Injector) : Injector := { i with offer := i.offer.map fun o => { o with fate := .stays } }

theorem Injector.fateFor_unfated (i : Injector) (pick : DoseRef → Bool) (f : OfferFate) : (i.fateFor pick f).unfated = i.unfated := by
  unfold fateFor
  split
  · rfl
  next o ho =>
    split
    · simp only [unfated, ho, Option.map_some]
    · rfl

/-! ### Changes of the referenced batch (R45) -/

/-- A change of batches that keeps the arm and the line by which dosing finds them. -/
structure KeepsName (f : Batch → Batch) : Prop where
  name : ∀ b, (f b).arm = b.arm ∧ (f b).line = b.line

theorem KeepsName.isRef {f : Batch → Batch} (h : KeepsName f) (r : DoseRef) (b : Batch) : (f b).isRef r = b.isRef r := by
  obtain ⟨ha, hl⟩ := h.name b
  unfold Batch.isRef
  rw [ha, hl]

theorem keepsName_onDose (k : Nat) (f : Dosing → Dosing) : KeepsName fun b => b.onDose k f := ⟨fun _ => ⟨rfl, rfl⟩⟩

theorem keepsName_throttleClear : KeepsName Batch.throttleClear := ⟨fun b => by
  unfold Batch.throttleClear
  split <;> exact ⟨rfl, rfl⟩⟩

theorem find?_isRef_map {f : Batch → Batch} (h : KeepsName f) (r : DoseRef) (l : List Batch) :
    (l.map fun x => if x.isRef r then f x else x).find? (Batch.isRef r) = (l.find? (Batch.isRef r)).map f := by
  induction l with
  | nil => rfl
  | cons x t ih =>
    rw [List.map_cons, List.find?_cons, List.find?_cons, ih]
    cases hx : x.isRef r with
    | true => simp only [if_true, h.isRef, hx, Option.map_some]
    | false => simp only [Bool.false_eq_true, if_false, hx]

namespace Device

theorem foldl_onBay_bay (g : Bay → Bay) (l : List BayId) (hl : l.Nodup) (d : Device) (b : BayId) :
    (l.foldl (fun e y => e.onBay y g) d).bay b = if b ∈ l then g (d.bay b) else d.bay b := by
  induction l generalizing d with
  | nil => simp
  | cons y t ih =>
    obtain ⟨hy, ht⟩ := List.nodup_cons.mp hl
    rw [List.foldl_cons, ih ht, onBay_bay]
    by_cases hb : b = y
    · subst hb; simp [hy]
    · simp [hb]

theorem foldl_onBay_rest (g : Bay → Bay) (l : List BayId) (d : Device) :
    { d with bays := (l.foldl (fun e y => e.onBay y g) d).bays } = l.foldl (fun e y => e.onBay y g) d := by
  induction l generalizing d with
  | nil => rfl
  | cons y t ih => rw [List.foldl_cons, ← ih]; rfl

section OnDoseBatch
variable (d : Device) (r : DoseRef) (f : Batch → Batch)

theorem onDoseBatch_rest : { d with arms := (d.onDoseBatch r f).arms, bays := (d.onDoseBatch r f).bays } = d.onDoseBatch r f := by
  unfold onDoseBatch
  split
  · rfl
  · rw [← foldl_onBay_rest]

theorem onDoseBatch_mp : (d.onDoseBatch r f).mp = d.mp := by rw [← onDoseBatch_rest]
theorem onDoseBatch_injs : (d.onDoseBatch r f).injs = d.injs := by rw [← onDoseBatch_rest]
theorem onDoseBatch_inj (c : Chan) : (d.onDoseBatch r f).inj c = d.inj c := by rw [← onDoseBatch_rest]; rfl
theorem onDoseBatch_injRec (c : Chan) : (d.onDoseBatch r f).injRec c = d.injRec c := by rw [← onDoseBatch_rest]; rfl

variable {d r f}

theorem onDoseBatch_open (h : d.refOpen r = true) : d.onDoseBatch r f = d.onBatch r.arm f := if_pos h

theorem onDoseBatch_ended (h : d.refOpen r = false) :
    d.onDoseBatch r f = allBays.foldl (fun e b =>
      e.onBay b fun y => { y with ended := y.ended.map fun x => if x.isRef r then f x else x }) d :=
  if_neg (by rw [h]; exact Bool.false_ne_true)

theorem onBatch_batch (d : Device) (a : ArmId) (f : Batch → Batch) : ((d.onBatch a f).arm a).batch = (d.arm a).batch.map f := by
  rw [onBatch, onArm_arm_same]

theorem refOpen_eq (d : Device) (r : DoseRef) : d.refOpen r = (d.arm r.arm).batch.any (Batch.isRef r) := by
  unfold refOpen
  cases (d.arm r.arm).batch <;> rfl

theorem onDoseBatch_refOpen (h : KeepsName f) : (d.onDoseBatch r f).refOpen r = d.refOpen r := by
  cases ho : d.refOpen r with
  | true =>
    rw [← ho, onDoseBatch_open ho, refOpen_eq, refOpen_eq, onBatch_batch]
    cases (d.arm r.arm).batch with
    | none => rfl
    | some b => exact h.isRef r b
  | false =>
    rw [onDoseBatch_ended ho, ← foldl_onBay_rest]
    exact ho

/-- R45: the referenced batch is the one changed. -/
theorem onDoseBatch_doseBatch (h : KeepsName f) : (d.onDoseBatch r f).doseBatch r = (d.doseBatch r).map f := by
  unfold doseBatch
  rw [onDoseBatch_refOpen h]
  cases ho : d.refOpen r with
  | true => rw [if_pos rfl, if_pos rfl, onDoseBatch_open ho, onBatch_batch]
  | false =>
    rw [if_neg Bool.false_ne_true, if_neg Bool.false_ne_true, onDoseBatch_ended ho, List.map_findSome?]
    refine congrArg (fun g => allBays.findSome? g) (funext fun b => ?_)
    rw [foldl_onBay_bay _ allBays (by decide), if_pos (mem_allBays b)]
    exact find?_isRef_map h r _

/-- A change of the referenced batch beside its dosing records. -/
theorem onDoseBatch_dose (h : KeepsName f) (hd : ∀ b, (f b).dosing = b.dosing) : (d.onDoseBatch r f).dose r = d.dose r := by
  unfold dose
  rw [onDoseBatch_doseBatch h]
  cases d.doseBatch r with
  | none => rfl
  | some b => exact congrArg (List.find? _) (hd b)

theorem find?_recipe_map (k : Nat) {g : Dosing → Dosing} (h : ∀ x, (g x).recipe = x.recipe) (l : List Dosing) :
    (l.map fun x => if x.recipe == k then g x else x).find? (fun x => x.recipe == k) =
      (l.find? fun x => x.recipe == k).map g := by
  induction l with
  | nil => rfl
  | cons x t ih =>
    rw [List.map_cons, List.find?_cons, List.find?_cons, ih]
    cases hx : x.recipe == k with
    | true => simp only [if_true, h, hx, Option.map_some]
    | false => simp only [Bool.false_eq_true, if_false, hx]

/-- R45: a change of the referenced batch that changes its dosing records of the recipe line by `g`. -/
theorem onDoseBatch_dose_map {g : Dosing → Dosing} (h : KeepsName f) (hf : ∀ b, (f b).dosing = (b.onDose r.recipe g).dosing)
    (hg : ∀ x, (g x).recipe = x.recipe) : (d.onDoseBatch r f).dose r = (d.dose r).map g := by
  unfold dose
  rw [onDoseBatch_doseBatch h]
  cases d.doseBatch r with
  | none => rfl
  | some b =>
    show (f b).dosing.find? _ = _
    rw [hf]
    exact find?_recipe_map r.recipe hg b.dosing

/-- R45: the referenced record is the one changed. -/
theorem onDose_dose {g : Dosing → Dosing} (hg : ∀ x, (g x).recipe = x.recipe) : (d.onDose r g).dose r = (d.dose r).map g :=
  onDoseBatch_dose_map (keepsName_onDose ..) (fun _ => rfl) hg

theorem throttleClear_dose : (d.throttleClear r).dose r = d.dose r :=
  onDoseBatch_dose keepsName_throttleClear Batch.throttleClear_dosing

end OnDoseBatch

/-! ### What the close of a batch leaves of the dosing records (R58, R61) -/

/-- From `d` to `e` every batch, open or ended, stays as it is when summed. -/
structure SameShots (d e : Device) : Prop where
  arm : ∀ a, (e.arm a).batch.map Batch.summed = (d.arm a).batch.map Batch.summed
  bay : ∀ b, (e.bay b).ended.map Batch.summed = (d.bay b).ended.map Batch.summed

theorem SameShots.refl (d : Device) : d.SameShots d := ⟨fun _ => rfl, fun _ => rfl⟩

theorem SameShots.trans {d e f : Device} (h : d.SameShots e) (k : e.SameShots f) : d.SameShots f :=
  ⟨fun a => (k.arm a).trans (h.arm a), fun b => (k.bay b).trans (h.bay b)⟩

theorem SameShots.foldl {α : Type} (f : Device → α → Device) (l : List α) (d : Device)
    (h : ∀ (e : Device) (x : α), e.SameShots (f e x)) : d.SameShots (l.foldl f d) := by
  induction l generalizing d with
  | nil => exact .refl d
  | cons x t ih => exact (h d x).trans (ih _)

theorem SameShots.of_records {d e : Device} (ha : e.arms = d.arms) (hb : e.bays = d.bays) : d.SameShots e :=
  ⟨fun a => by rw [Device.arm, ha]; rfl, fun b => by rw [Device.bay, hb]; rfl⟩

theorem refOpen_summed (d : Device) (r : DoseRef) : d.refOpen r = ((d.arm r.arm).batch.map Batch.summed).any (Batch.isRef r) := by
  rw [refOpen_eq]
  cases (d.arm r.arm).batch <;> rfl

theorem SameShots.refOpen {d e : Device} (h : d.SameShots e) (r : DoseRef) : e.refOpen r = d.refOpen r := by
  rw [refOpen_summed, refOpen_summed, h.arm]

theorem SameShots.doseBatch {d e : Device} (h : d.SameShots e) (r : DoseRef) :
    (e.doseBatch r).map Batch.summed = (d.doseBatch r).map Batch.summed := by
  have hended : ∀ (x : Device) (b : BayId), ((x.bay b).ended.find? (Batch.isRef r)).map Batch.summed =
      ((x.bay b).ended.map Batch.summed).find? (Batch.isRef r) := fun x b => by
    rw [List.find?_map]
    rfl
  unfold Device.doseBatch
  rw [h.refOpen]
  split
  · exact h.arm r.arm
  · simp only [List.map_findSome?, Function.comp_def, hended, h.bay]

theorem dose_summed (d : Device) (r : DoseRef) : (d.dose r).map Dosing.summed =
    ((d.doseBatch r).map Batch.summed).bind fun b => b.dosing.find? fun x => x.recipe == r.recipe := by
  unfold dose
  cases d.doseBatch r with
  | none => rfl
  | some b =>
    show (b.dosing.find? _).map _ = (b.dosing.map Dosing.summed).find? _
    rw [List.find?_map]
    rfl

theorem SameShots.dose {d e : Device} (h : d.SameShots e) (r : DoseRef) :
    (e.dose r).map Dosing.summed = (d.dose r).map Dosing.summed := by
  rw [dose_summed, dose_summed, h.doseBatch]

/-- The record after the close, by the record before it. -/
theorem SameShots.dose_some {d e : Device} (h : d.SameShots e) {r : DoseRef} {x : Dosing} (hx : d.dose r = some x) :
    ∃ y, e.dose r = some y ∧ y = { x with pending := y.pending, cancelled := y.cancelled, closeMark := y.closeMark } ∧
      y.pending + y.cancelled = x.pending + x.cancelled := by
  have hd := h.dose r
  rw [hx, Option.map_some] at hd
  obtain ⟨y, hy, hs⟩ := Option.map_eq_some_iff.mp hd
  exact ⟨y, hy, Dosing.eq_of_summed hs⟩

theorem onBatch_sameShots (d : Device) (a : ArmId) {f : Batch → Batch} (h : ∀ b, (f b).summed = b.summed) :
    d.SameShots (d.onBatch a f) where
  arm x := by
    rw [onBatch, onArm_arm]
    split
    next hx =>
      rw [hx, Option.map_map]
      exact congrArg (fun g => Option.map g _) (funext h)
    next => rfl
  bay _ := rfl

theorem onDoseBatch_sameShots (d : Device) (r : DoseRef) {f : Batch → Batch} (h : ∀ b, (f b).summed = b.summed) :
    d.SameShots (d.onDoseBatch r f) := by
  cases ho : d.refOpen r with
  | true => rw [onDoseBatch_open ho]; exact onBatch_sameShots d r.arm h
  | false =>
    rw [onDoseBatch_ended ho]
    refine ⟨fun a => ?_, fun b => ?_⟩
    · rw [← foldl_onBay_rest]; rfl
    · rw [foldl_onBay_bay _ allBays (by decide), if_pos (mem_allBays b), List.map_map]
      refine List.map_congr_left fun x _ => ?_
      rw [Function.comp_apply]
      split
      · exact h x
      · rfl

theorem setFates_sameShots (d : Device) (pick : DoseRef → Bool) (x : OfferFate) : d.SameShots (d.setFates pick x) := by
  obtain ⟨q, hq⟩ := setFates_eq d pick x
  rw [hq]
  exact .of_records rfl rfl

/-- R58, R61: a close told to DU cancels pending shots and no more. -/
theorem cancelPendings_sameShots (d : Device) (a : ArmId) (mark : Bool) : d.SameShots (d.cancelPendings a mark) := by
  have h : d.SameShots ((d.openRefs a).foldl (fun e r => e.onDose r fun x => x.cancelPending mark (d.underOffer r)) d) :=
    .foldl _ _ _ fun e r => onDoseBatch_sameShots e r fun b => b.onDose_summed _ fun x => x.cancelPending_summed ..
  unfold cancelPendings
  split
  · exact h
  · exact (h.trans (setFates_sameShots ..)).trans (onBatch_sameShots _ a Batch.throttleClear_summed)

theorem stopBatch_sameShots (d : Device) (a : ArmId) : d.SameShots (d.stopBatch a) := by
  by_cases h : ∃ t, (d.arm a).batch = some t ∧ t.phase.flowing = true
  · obtain ⟨t, ht, hf⟩ := h
    rw [stopBatch_flowing ht hf]
    refine SameShots.trans (e := d.stopping a t) ⟨fun x => ?_, fun _ => rfl⟩ (cancelPendings_sameShots ..)
    by_cases hx : x = a
    · rw [hx, stopping_arm, ht]; rfl
    · exact congrArg (fun c : ArmCtl => c.batch.map Batch.summed) (onArm_arm_other d a _ x hx)
  · rw [stopBatch_still fun t ht => by simpa using fun hf => h ⟨t, ht, hf⟩]
    exact .refl d

/-! ### What dosing leaves of the injectors and of the rest (R48 to R55) -/

/-- From `d` to `e` every injector stays as it is, but for what becomes of its standing offer's shot. -/
structure SameOffers (d e : Device) : Prop where
  unfated : ∀ c, (e.inj c).unfated = (d.inj c).unfated

theorem SameOffers.refl (d : Device) : d.SameOffers d := ⟨fun _ => rfl⟩

theorem SameOffers.trans {d e f : Device} (h : d.SameOffers e) (k : e.SameOffers f) : d.SameOffers f :=
  ⟨fun c => (k.unfated c).trans (h.unfated c)⟩

theorem SameOffers.foldl {α : Type} (f : Device → α → Device) (l : List α) (d : Device)
    (h : ∀ (e : Device) (x : α), e.SameOffers (f e x)) : d.SameOffers (l.foldl f d) := by
  induction l generalizing d with
  | nil => exact .refl d
  | cons x t ih => exact (h d x).trans (ih _)

theorem SameOffers.of_injs {d e : Device} (h : e.injs = d.injs) : d.SameOffers e := ⟨fun c => by rw [inj, h]; rfl⟩

/-- What the injector has beside the fate of its offer. -/
theorem SameOffers.inj {d e : Device} (h : d.SameOffers e) (c : Chan) :
    ∃ o, e.inj c = { d.inj c with offer := o } ∧ ((d.inj c).offer = none → o = none) := by
  have hc := h.unfated c
  refine ⟨(e.inj c).offer, ?_⟩
  generalize e.inj c = i at hc
  generalize d.inj c = j at hc
  cases i; cases j
  simp only [Injector.unfated, Injector.mk.injEq] at hc ⊢
  obtain ⟨h1, h2, h3, h4, h5, h6, h7⟩ := hc
  refine ⟨⟨h1, h2, trivial, h4, h5, h6, h7⟩, fun hn => ?_⟩
  rw [hn] at h3
  exact Option.map_eq_none_iff.mp h3

theorem setFates_sameOffers (d : Device) (pick : DoseRef → Bool) (x : OfferFate) : d.SameOffers (d.setFates pick x) := by
  refine SameOffers.foldl _ _ _ fun e c => ⟨fun y => ?_⟩
  rw [onInj_inj]
  split
  next hy => rw [hy]; exact Injector.fateFor_unfated ..
  next => rfl

theorem onDoseBatch_sameOffers (d : Device) (r : DoseRef) (f : Batch → Batch) : d.SameOffers (d.onDoseBatch r f) :=
  .of_injs (onDoseBatch_injs ..)

/-- From `d` to `e` arms, bays and injectors are all that moves. -/
structure DosesOnly (d e : Device) : Prop where
  rest : { d with arms := e.arms, bays := e.bays, injs := e.injs } = e

theorem DosesOnly.refl (d : Device) : d.DosesOnly d := ⟨rfl⟩

theorem DosesOnly.trans {d e f : Device} (h : d.DosesOnly e) (k : e.DosesOnly f) : d.DosesOnly f :=
  ⟨by rw [← k.rest, ← h.rest]⟩

theorem DosesOnly.mp {d e : Device} (h : d.DosesOnly e) : e.mp = d.mp := by rw [← h.rest]

theorem onDoseBatch_dosesOnly (d : Device) (r : DoseRef) (f : Batch → Batch) : d.DosesOnly (d.onDoseBatch r f) :=
  ⟨by rw [← onDoseBatch_rest d r f]⟩

theorem onArm_dosesOnly (d : Device) (a : ArmId) (f : ArmCtl → ArmCtl) : d.DosesOnly (d.onArm a f) := ⟨rfl⟩

theorem setFates_dosesOnly (d : Device) (pick : DoseRef → Bool) (x : OfferFate) : d.DosesOnly (d.setFates pick x) := by
  obtain ⟨q, hq⟩ := setFates_eq d pick x
  rw [hq]
  exact ⟨rfl⟩

theorem foldl_onDose_dosesOnly (g : DoseRef → Dosing → Dosing) (l : List DoseRef) (d : Device) :
    d.DosesOnly (l.foldl (fun e r => e.onDose r (g r)) d) := by
  induction l generalizing d with
  | nil => exact .refl d
  | cons r t ih => exact (onDoseBatch_dosesOnly ..).trans (ih _)

theorem cancelPendings_dosesOnly (d : Device) (a : ArmId) (mark : Bool) : d.DosesOnly (d.cancelPendings a mark) := by
  have h := foldl_onDose_dosesOnly (fun r x => x.cancelPending mark (d.underOffer r)) (d.openRefs a) d
  unfold cancelPendings
  split
  · exact h
  · exact (h.trans (setFates_dosesOnly ..)).trans (onArm_dosesOnly ..)

theorem stopBatch_dosesOnly (d : Device) (a : ArmId) : d.DosesOnly (d.stopBatch a) := by
  unfold stopBatch
  split
  · exact .refl d
  · split
    · exact (onArm_dosesOnly ..).trans (cancelPendings_dosesOnly ..)
    · exact .refl d

theorem onArm_sameOffers (d : Device) (a : ArmId) (f : ArmCtl → ArmCtl) : d.SameOffers (d.onArm a f) := .of_injs rfl

theorem cancelPendings_sameOffers (d : Device) (a : ArmId) (mark : Bool) : d.SameOffers (d.cancelPendings a mark) := by
  have h : d.SameOffers ((d.openRefs a).foldl (fun e r => e.onDose r fun x => x.cancelPending mark (d.underOffer r)) d) :=
    .foldl _ _ _ fun e r => onDoseBatch_sameOffers ..
  unfold cancelPendings
  split
  · exact h
  · exact (h.trans (setFates_sameOffers ..)).trans (onArm_sameOffers ..)

theorem stopBatch_sameOffers (d : Device) (a : ArmId) : d.SameOffers (d.stopBatch a) := by
  unfold stopBatch
  split
  · exact .refl d
  · split
    · exact (onArm_sameOffers ..).trans (cancelPendings_sameOffers ..)
    · exact .refl d

end Device

end Sys2Proof.Machine
end

