-- ==== Sys2Proof/Proofs/ShotsDue.lean ====
section
/-! Windows, missed shots and shots that fall due (R46, R47, R53, R56, R57): what each makes of the dosing record that it is
about, and of that record's batch. -/

namespace Sys2Proof.Machine

open Sys2Proof

/-! ### Changes of one record and of one batch -/

/-- R56: a record whose next window begins. -/
def Dosing.nextWindow (x : Dosing) : Dosing := { x with winCount := 0, winVol := 0 }

/-- R53, R55: a record with one shot more counted missed. -/
def Dosing.countMissed (x : Dosing) : Dosing := { x with missed := x.missed + 1, winCount := x.winCount + 1 }

/-- R57: a batch with a window failed. -/
def Batch.failed (b : Batch) : Batch := { b with flags := { b.flags with additiveFault := true } }

/-- R46, R53: a batch of which recipe line `k` has one shot more counted missed. -/
def Batch.countMissed (k : Nat) (short : Bool) (b : Batch) : Batch :=
  let b1 := b.onDose k Dosing.countMissed
  if short then { b1 with flags := { b1.flags with doseShortfall := true } } else b1

/-- R46, R47: a batch of which recipe line `k`, with `n` shots pending, has one more. -/
def Batch.takeShot (k n : Nat) (b : Batch) : Batch :=
  let b1 := b.onDose k fun y => { y with pending := y.pending + 1 }
  if n = 1 then { b1 with throttle := true } else b1

theorem keepsName_failed : KeepsName Batch.failed := ⟨fun _ => ⟨rfl, rfl⟩⟩

theorem keepsName_countMissed (k : Nat) (short : Bool) : KeepsName (Batch.countMissed k short) := ⟨fun _ => by
  unfold Batch.countMissed
  cases short <;> exact ⟨rfl, rfl⟩⟩

theorem keepsName_takeShot (k n : Nat) : KeepsName (Batch.takeShot k n) := ⟨fun _ => by
  unfold Batch.takeShot
  dsimp only
  split <;> exact ⟨rfl, rfl⟩⟩

/-- From `x` to `y` a record has `n` shots more settled, one way or another, and has no more delivered. -/
structure Dosing.Settles (n : Nat) (x y : Dosing) : Prop where
  acc       : y.acc = x.acc
  shots     : y.pending + y.missed + y.cancelled = x.pending + x.missed + x.cancelled + n
  completed : y.completed = x.completed
  delivered : y.delivered = x.delivered
  injector  : y.injector = x.injector

theorem Dosing.Settles.refl (x : Dosing) : x.Settles 0 x := ⟨rfl, rfl, rfl, rfl, rfl⟩

theorem Dosing.Settles.trans {m n : Nat} {x y z : Dosing} (h : x.Settles m y) (k : y.Settles n z) : x.Settles (n + m) z where
  acc := k.acc.trans h.acc
  shots := by rw [k.shots, h.shots]; omega
  completed := k.completed.trans h.completed
  delivered := k.delivered.trans h.delivered
  injector := k.injector.trans h.injector

/-- R56: a window fails that differs from what it should be by more than the tolerance. -/
theorem windowFails_iff (v w s t : Nat) :
    windowFails v w s t = true ↔ t * (w * s * 100) < ((v : Int) - ((w * s * 100 : Nat) : Int)).natAbs * 100 := by
  have hmul : t * w * s * 100 = t * (w * s * 100) := by simp only [Nat.mul_assoc]
  unfold windowFails
  dsimp only
  rw [decide_eq_true_iff, hmul]
  generalize w * s * 100 = e
  omega

namespace Device

/-! ### A failed window (R57) -/

/-- R57: the part with a failed window marked and reported, before a STOP line's stop. -/
def windowFailed (d : Device) (r : DoseRef) (c : Chan) (v expected : Nat) : Device :=
  (d.onDoseBatch r Batch.failed).injNotice c 2 [octets 1 r.arm.val, octets 1 r.recipe, octets 4 v, octets 4 expected]

theorem failWindow_eq (d : Device) (r : DoseRef) (c : Chan) (action : FaultAction) (v expected : Nat) :
    d.failWindow r c action v expected = if action = .stop ∧ d.refOpen r = true then
      (d.windowFailed r c v expected).stopBatch r.arm else d.windowFailed r c v expected := by
  have hopen : (d.windowFailed r c v expected).refOpen r = d.refOpen r := onDoseBatch_refOpen keepsName_failed
  cases action with
  | flag => exact (if_neg fun h => nomatch h.1).symm
  | stop =>
    show (if (d.windowFailed r c v expected).refOpen r = true then _ else _) = _
    rw [hopen]
    exact if_congr (by simp) rfl rfl

section FailedWindow
variable (d : Device) (r : DoseRef) (c : Chan) (action : FaultAction) (v expected : Nat)

theorem windowFailed_dose : (d.windowFailed r c v expected).dose r = d.dose r := onDoseBatch_dose keepsName_failed fun _ => rfl

theorem windowFailed_doseBatch : (d.windowFailed r c v expected).doseBatch r = (d.doseBatch r).map Batch.failed :=
  onDoseBatch_doseBatch keepsName_failed

theorem failWindow_sameShots : (d.windowFailed r c v expected).SameShots (d.failWindow r c action v expected) := by
  rw [failWindow_eq]
  split
  · exact stopBatch_sameShots ..
  · exact .refl _

theorem failWindow_sameOffers : d.SameOffers (d.failWindow r c action v expected) := by
  have h : d.SameOffers (d.windowFailed r c v expected) := .of_injs (onDoseBatch_injs d r Batch.failed)
  rw [failWindow_eq]
  split
  · exact h.trans (stopBatch_sameOffers ..)
  · exact h

/-- R57, R62: the notice of a failed window, with its figures. -/
theorem failWindow_raised : ∃ m ∈ (d.failWindow r c action v expected).mp.notices, m.obj = .injector c ∧ m.event = 2 ∧
    m.fields = [octets 1 c.val, octets 1 (d.inj c).state.code, octets 1 (d.inj c).missed, octets 1 r.arm.val, octets 1 r.recipe,
      octets 4 v, octets 4 expected] := by
  have hmp : (d.failWindow r c action v expected).mp = (d.windowFailed r c v expected).mp := by
    rw [failWindow_eq]
    split
    · exact (stopBatch_dosesOnly ..).mp
    · rfl
  rw [hmp, ← onDoseBatch_inj d r Batch.failed c]
  exact noticeQueue_raised ..

end FailedWindow

/-- R57, R58: the open batch after a window of it has failed: a STOP line stops it if it flows. -/
theorem failWindow_batch {d : Device} {r : DoseRef} {t : Batch} (c : Chan) (action : FaultAction) (v expected : Nat)
    (ho : d.refOpen r = true) (ht : (d.arm r.arm).batch = some t) :
    ∃ u, ((d.failWindow r c action v expected).arm r.arm).batch = some u ∧ u.delivered = t.delivered ∧
      (if action = .stop ∧ t.phase.flowing = true then u.phase = .closeWait ∧ u.snapshot = some (t.volume, .stop)
        else u.phase = t.phase ∧ u.snapshot = t.snapshot) := by
  have hmarked : ((d.windowFailed r c v expected).arm r.arm).batch = some t.failed := by
    have h := onBatch_batch d r.arm Batch.failed
    rw [ht, ← onDoseBatch_open ho] at h
    exact h
  have hname : t.failed.arm = r.arm := by
    rw [refOpen_eq, ht] at ho
    exact (by simpa [Batch.isRef] using ho : t.arm = r.arm ∧ t.line = r.line).1
  rw [failWindow_eq]
  cases action with
  | flag =>
    simp only [reduceCtorEq, false_and, if_false]
    exact ⟨_, hmarked, rfl, rfl, rfl⟩
  | stop =>
    simp only [ho, and_self, if_true, true_and]
    cases hf : t.phase.flowing with
    | true =>
      rw [stopBatch_arm hmarked hname hf]
      generalize hu : (t.failed.stopped.closeTold true _).throttleClear = u
      have hcore : u.core = t.failed.stopped.core := by rw [← hu, Batch.throttleClear_core]; rfl
      have hu' := Batch.eq_of_core hcore
      exact ⟨u, rfl, by rw [hu']; rfl, by rw [hu']; exact ⟨rfl, rfl⟩⟩
    | false =>
      rw [stopBatch_still fun u h => by rw [← Option.some.inj (hmarked.symm.trans h)]; exact hf]
      exact ⟨_, hmarked, rfl, rfl, rfl⟩

/-! ### The check of a window (R56) -/

section Windows
variable {d : Device} {r : DoseRef} {x : Dosing} {c : Chan} {j : InjectorRec}

theorem checkWindow_eq (hx : d.dose r = some x) (hc : x.injector = some c) (hj : d.injRec c = some j) :
    d.checkWindow r = if j.window ≤ x.winCount then
      (if windowFails x.winVol j.window j.shot j.tolerance then
        (d.onDose r Dosing.nextWindow).failWindow r c x.action x.winVol (j.window * j.shot * 100)
      else d.onDose r Dosing.nextWindow) else d := by
  unfold checkWindow
  simp only [hx, hc, hj]
  rfl

/-- All that the check of a window can do: nothing, begin the next window, or report a failed one too. -/
theorem checkWindow_cases (d : Device) (r : DoseRef) : d.checkWindow r = d ∨ d.checkWindow r = d.onDose r Dosing.nextWindow ∨
    ∃ c action v expected, d.checkWindow r = (d.onDose r Dosing.nextWindow).failWindow r c action v expected := by
  cases hx : d.dose r with
  | none => exact .inl (by unfold checkWindow; rw [hx])
  | some x =>
    cases hc : x.injector with
    | none => exact .inl (by unfold checkWindow; simp only [hx, hc])
    | some c =>
      cases hj : d.injRec c with
      | none => exact .inl (by unfold checkWindow; simp only [hx, hc, hj])
      | some j =>
        rw [checkWindow_eq hx hc hj]
        split
        · split
          · exact .inr (.inr ⟨_, _, _, _, rfl⟩)
          · exact .inr (.inl rfl)
        · exact .inl rfl

theorem nextWindow_dose (hx : d.dose r = some x) : (d.onDose r Dosing.nextWindow).dose r = some x.nextWindow := by
  rw [onDose_dose (g := Dosing.nextWindow) fun _ => rfl, hx, Option.map_some]

/-- The record after a failed window: of the next window nothing is counted. -/
theorem failWindow_dose (hx : d.dose r = some x) (action : FaultAction) (v expected : Nat) :
    ∃ y, ((d.onDose r Dosing.nextWindow).failWindow r c action v expected).dose r = some y ∧
      y = { x.nextWindow with pending := y.pending, cancelled := y.cancelled, closeMark := y.closeMark } ∧
      y.pending + y.cancelled = x.pending + x.cancelled :=
  (failWindow_sameShots ..).dose_some ((windowFailed_dose ..).trans (nextWindow_dose hx))

/-- R56: the record after its window is checked. -/
theorem checkWindow_dose (hx : d.dose r = some x) : ∃ y, (d.checkWindow r).dose r = some y ∧
    y = { x with pending := y.pending, cancelled := y.cancelled, closeMark := y.closeMark, winCount := y.winCount,
                 winVol := y.winVol } ∧
    y.pending + y.cancelled = x.pending + x.cancelled := by
  rcases checkWindow_cases d r with h | h | ⟨c, action, v, expected, h⟩ <;> rw [h]
  · exact ⟨x, hx, rfl, rfl⟩
  · exact ⟨_, nextWindow_dose hx, rfl, rfl⟩
  · obtain ⟨y, hy, hs, hsum⟩ := failWindow_dose (c := c) hx action v expected
    exact ⟨y, hy, by rw [hs]; rfl, hsum⟩

/-- R56: the record after a full window is checked. -/
theorem checkWindow_full (hx : d.dose r = some x) (hc : x.injector = some c) (hj : d.injRec c = some j)
    (h : j.window ≤ x.winCount) : ∃ y, (d.checkWindow r).dose r = some y ∧
      y = { x.nextWindow with pending := y.pending, cancelled := y.cancelled, closeMark := y.closeMark } ∧
      y.pending + y.cancelled = x.pending + x.cancelled := by
  rw [checkWindow_eq hx hc hj, if_pos h]
  split
  · exact failWindow_dose hx _ _ _
  · exact ⟨_, nextWindow_dose hx, rfl, rfl⟩

theorem checkWindow_short (hx : d.dose r = some x) (hc : x.injector = some c) (hj : d.injRec c = some j)
    (h : x.winCount < j.window) : d.checkWindow r = d := by
  rw [checkWindow_eq hx hc hj, if_neg (Nat.not_le.mpr h)]


theorem SameShots.flags {d e : Device} (h : d.SameShots e) (r : DoseRef) :
    (e.doseBatch r).map Batch.flags = (d.doseBatch r).map Batch.flags := by
  have hb := congrArg (Option.map Batch.flags) (h.doseBatch r)
  rw [Option.map_map, Option.map_map] at hb
  exact hb

/-- A check of a window leaves DOSE_SHORTFALL as it is. -/
theorem checkWindow_shortfall (d : Device) (r : DoseRef) :
    (((d.checkWindow r).doseBatch r).map Batch.flags).map BatchFlags.doseShortfall =
      ((d.doseBatch r).map Batch.flags).map BatchFlags.doseShortfall := by
  have hnext : (d.onDose r Dosing.nextWindow).doseBatch r = (d.doseBatch r).map fun b => b.onDose r.recipe Dosing.nextWindow :=
    onDoseBatch_doseBatch (keepsName_onDose ..)
  rcases checkWindow_cases d r with h | h | ⟨c, action, v, expected, h⟩ <;> rw [h]
  · rw [hnext]
    cases d.doseBatch r <;> rfl
  · rw [(failWindow_sameShots ..).flags, windowFailed_doseBatch, hnext]
    cases d.doseBatch r <;> rfl

theorem checkWindow_sameOffers (d : Device) (r : DoseRef) : d.SameOffers (d.checkWindow r) := by
  rcases checkWindow_cases d r with h | h | ⟨c, action, v, expected, h⟩ <;> rw [h]
  · exact .refl d
  · exact onDoseBatch_sameOffers ..
  · exact (onDoseBatch_sameOffers ..).trans (failWindow_sameOffers ..)

/-! ### A shot missed (R46, R53, R55) -/

theorem missShot_eq (d : Device) (r : DoseRef) (short : Bool) :
    d.missShot r short = (d.onDoseBatch r (Batch.countMissed r.recipe short)).checkWindow r := rfl

theorem countMissed_dose (hx : d.dose r = some x) (short : Bool) :
    (d.onDoseBatch r (Batch.countMissed r.recipe short)).dose r = some x.countMissed := by
  rw [onDoseBatch_dose_map (g := Dosing.countMissed) (keepsName_countMissed ..) (fun b => ?_) fun _ => rfl, hx, Option.map_some]
  unfold Batch.countMissed
  cases short <;> rfl

theorem missShot_dose (hx : d.dose r = some x) (short : Bool) : ∃ y, (d.missShot r short).dose r = some y ∧
    y = { x with missed := x.missed + 1, pending := y.pending, cancelled := y.cancelled, closeMark := y.closeMark,
                 winCount := y.winCount, winVol := y.winVol } ∧
    y.pending + y.cancelled = x.pending + x.cancelled := checkWindow_dose (countMissed_dose hx short)

theorem missShot_sameOffers (d : Device) (r : DoseRef) (short : Bool) : d.SameOffers (d.missShot r short) :=
  (onDoseBatch_sameOffers ..).trans (checkWindow_sameOffers ..)

theorem doseBatch_of_dose (hx : d.dose r = some x) : ∃ t, d.doseBatch r = some t := by
  obtain ⟨t, ht, -⟩ := Option.bind_eq_some_iff.mp hx
  exact ⟨t, ht⟩

/-- Table 3-4: a shot missed as it falls due marks its batch. -/
theorem missShot_shortfall (hx : d.dose r = some x) :
    ∃ t, (d.missShot r true).doseBatch r = some t ∧ t.flags.doseShortfall = true := by
  obtain ⟨b, hb⟩ := doseBatch_of_dose hx
  have h := checkWindow_shortfall (d.onDoseBatch r (Batch.countMissed r.recipe true)) r
  rw [← missShot_eq, onDoseBatch_doseBatch (keepsName_countMissed ..), hb, Option.map_map] at h
  obtain ⟨t, ht, hs⟩ := Option.map_eq_some_iff.mp h
  exact ⟨t, ht, hs⟩

/-! ### A shot that falls due (R46, R47, Table 3-4) -/

/-- Table 3-4: with the close mark set the shot is cancelled at close. -/
theorem shotDue_cancelled (hx : d.dose r = some x) (hm : x.closeMark = true) (c : Chan) :
    d.shotDue r c = d.onDose r fun y => { y with cancelled := y.cancelled + 1 } := by
  unfold shotDue
  simp only [hx, hm, if_true]

/-- Table 3-4: the cases in which a shot that falls due is missed. -/
theorem shotDue_missed (hx : d.dose r = some x) (hm : x.closeMark = false)
    (h : (d.inj c).state = .fault ∨ d.lu.esd = true ∨ d.lu.powerfail = true ∨ 2 ≤ x.pending) :
    d.shotDue r c = d.missShot r true := by
  unfold shotDue
  simp only [hx, hm, Bool.false_eq_true, if_false]
  split
  · rfl
  next hf =>
    split
    · rfl
    next hl =>
      unfold latched at hl
      rw [if_pos]
      have hl' : d.lu.esd = false ∧ d.lu.powerfail = false := by simpa using hl
      simpa [hf, hl'] using h

/-- Table 3-4: any other shot that falls due is pending. -/
theorem shotDue_pends (hx : d.dose r = some x) (hm : x.closeMark = false) (hf : (d.inj c).state ≠ .fault) (he : d.lu.esd = false)
    (hp : d.lu.powerfail = false) (h2 : x.pending < 2) :
    d.shotDue r c = d.onDoseBatch r (Batch.takeShot r.recipe x.pending) := by
  have hl : d.latched = false := by unfold latched; rw [he, hp]; rfl
  unfold shotDue
  simp only [hx, hm, hf, hl, Nat.not_le.mpr h2, Bool.false_eq_true, if_false]
  rfl

theorem takeShot_dose (hx : d.dose r = some x) (n : Nat) :
    (d.onDoseBatch r (Batch.takeShot r.recipe n)).dose r = some { x with pending := x.pending + 1 } := by
  rw [onDoseBatch_dose_map (g := fun y => { y with pending := y.pending + 1 }) (keepsName_takeShot ..) (fun b => ?_) fun _ => rfl,
    hx, Option.map_some]
  unfold Batch.takeShot
  dsimp only
  split <;> rfl

/-- Table 3-4: one shot that falls due is settled once. -/
theorem shotDue_settles (hx : d.dose r = some x) (c : Chan) : ∃ y, (d.shotDue r c).dose r = some y ∧ x.Settles 1 y := by
  cases hm : x.closeMark with
  | true =>
    rw [shotDue_cancelled hx hm, onDose_dose (g := fun y => { y with cancelled := y.cancelled + 1 }) fun _ => rfl, hx]
    exact ⟨_, rfl, rfl, rfl, rfl, rfl, rfl⟩
  | false =>
    by_cases h : (d.inj c).state = .fault ∨ d.lu.esd = true ∨ d.lu.powerfail = true ∨ 2 ≤ x.pending
    · obtain ⟨y, hy, hs, hsum⟩ := missShot_dose hx true
      have hmissed : y.missed = x.missed + 1 := by rw [hs]
      rw [shotDue_missed hx hm h]
      exact ⟨y, hy, by rw [hs], by omega, by rw [hs], by rw [hs], by rw [hs]⟩
    · simp only [not_or, Bool.not_eq_true, Nat.not_le] at h
      obtain ⟨hf, he, hp, h2⟩ := h
      rw [shotDue_pends hx hm hf he hp h2, takeShot_dose hx]
      exact ⟨_, rfl, rfl, by dsimp only; omega, rfl, rfl, rfl⟩

/-- R46: every shot that falls due is settled once. -/
theorem shotsDue_settles (n : Nat) (hx : d.dose r = some x) (c : Chan) :
    ∃ y, (shotsDue n r c d).dose r = some y ∧ x.Settles n y := by
  induction n generalizing d x with
  | zero => exact ⟨x, hx, .refl x⟩
  | succ n ih =>
    obtain ⟨y, hy, hone⟩ := shotDue_settles hx c
    obtain ⟨z, hz, hmore⟩ := ih hy
    exact ⟨z, hz, hone.trans hmore⟩

/-- R46: a gross increment of a DOSED record. -/
theorem doseRecord_eq (v : Nat) (hx : d.dose r = some x) (hc : x.injector = some c) (hj : d.injRec c = some j) :
    d.doseRecord v r = shotsDue ((x.acc + v * x.dose) / (j.shot * 10 ^ 8)) r c
      (d.onDose r fun z => { z with acc := (x.acc + v * x.dose) % (j.shot * 10 ^ 8) }) := by
  unfold doseRecord
  simp only [hx, hc, hj]
  rfl

/-- R46, R47: the record and the batch of a shot that falls due and is missed. -/
theorem missShot_due (hx : d.dose r = some x) : ∃ y, (d.missShot r true).dose r = some y ∧ y.missed = x.missed + 1 ∧
    y.pending + y.cancelled = x.pending + x.cancelled ∧
    ∀ k j, x.injector = some k → d.injRec k = some j →
      (x.winCount + 1 < j.window → y = x.countMissed ∧ (d.missShot r true).mp = d.mp) ∧
      (j.window ≤ x.winCount + 1 → y.winCount = 0 ∧ y.winVol = 0) := by
  obtain ⟨y, hy, hs, hsum⟩ := missShot_dose hx true
  refine ⟨y, hy, by rw [hs], hsum, fun k j hk hj => ⟨fun hlt => ?_, fun hle => ?_⟩⟩
  · have hcount := countMissed_dose hx true
    have hsame := checkWindow_short (c := k) (j := j) hcount hk ((onDoseBatch_injRec ..).trans hj) hlt
    rw [missShot_eq, hsame] at hy ⊢
    exact ⟨Option.some.inj (hy.symm.trans hcount), onDoseBatch_mp ..⟩
  · obtain ⟨z, hz, hfull, -⟩ := checkWindow_full (countMissed_dose hx true) hk ((onDoseBatch_injRec ..).trans hj) hle
    obtain rfl := Option.some.inj (hy.symm.trans hz)
    rw [hfull]
    exact ⟨rfl, rfl⟩

/-- R46: the record after a gross increment. -/
theorem doseRecord_settles (v : Nat) (hx : d.dose r = some x) (hc : x.injector = some c) (hj : d.injRec c = some j) :
    ∃ y, (d.doseRecord v r).dose r = some y ∧
      ({ x with acc := (x.acc + v * x.dose) % (j.shot * 10 ^ 8) } : Dosing).Settles ((x.acc + v * x.dose) / (j.shot * 10 ^ 8)) y := by
  rw [doseRecord_eq v hx hc hj]
  refine shotsDue_settles _ ?_ c
  rw [onDose_dose (g := fun z => { z with acc := (x.acc + v * x.dose) % (j.shot * 10 ^ 8) }) fun _ => rfl, hx, Option.map_some]

theorem checkWindow_failed (hx : d.dose r = some x) (hc : x.injector = some c) (hj : d.injRec c = some j)
    (hw : j.window ≤ x.winCount) (hf : windowFails x.winVol j.window j.shot j.tolerance = true) :
    d.checkWindow r = (d.onDose r Dosing.nextWindow).failWindow r c x.action x.winVol (j.window * j.shot * 100) := by
  rw [checkWindow_eq hx hc hj, if_pos hw, if_pos hf]

theorem checkWindow_passed (hx : d.dose r = some x) (hc : x.injector = some c) (hj : d.injRec c = some j)
    (hw : j.window ≤ x.winCount) (hf : ¬ windowFails x.winVol j.window j.shot j.tolerance = true) :
    d.checkWindow r = d.onDose r Dosing.nextWindow := by
  rw [checkWindow_eq hx hc hj, if_pos hw, if_neg hf]

/-- R57: the batch of a failed window carries ADDITIVE_FAULT. -/
theorem failWindow_marked (hx : d.dose r = some x) (c : Chan) (action : FaultAction) (v expected : Nat) :
    ∃ t, (d.failWindow r c action v expected).doseBatch r = some t ∧ t.flags.additiveFault = true := by
  obtain ⟨b, hb⟩ := doseBatch_of_dose hx
  have hflags := (failWindow_sameShots d r c action v expected).flags r
  rw [windowFailed_doseBatch, hb] at hflags
  obtain ⟨t, ht, hft⟩ := Option.map_eq_some_iff.mp hflags
  exact ⟨t, ht, by rw [hft]; rfl⟩

end Windows

end Device

open Device in
/-- Settles O59, by the cases of Table 3-4 for one shot that falls due, and by the cases of R56 for a window. -/
theorem everyShotDueIsSettledOnce : Obligations.EveryShotDueIsSettledOnce := by
  refine ⟨fun d r v x c j hx hc hj hs => ?_, fun n d r c => ⟨rfl, rfl⟩, ?_, ?_⟩
  · obtain ⟨y, hy, h⟩ := doseRecord_settles v hx hc hj
    exact ⟨y, hy, h.acc, h.acc.trans_lt (Nat.mod_lt _ (by positivity)), h.shots, h.completed, h.delivered, h.injector,
      doseRecord_eq v hx hc hj⟩
  · rintro d e r c x hx rfl
    refine ⟨fun hm => ?_, fun hm h => ?_, fun hm hf he hp h2 => ?_⟩
    · rw [shotDue_cancelled hx hm, onDose_dose (g := fun y => { y with cancelled := y.cancelled + 1 }) fun _ => rfl, hx]
      exact ⟨rfl, onDoseBatch_mp ..⟩
    · rw [shotDue_missed hx hm h]
      obtain ⟨y, hy, hmissed, hsum, hwindow⟩ := missShot_due hx
      exact ⟨y, hy, hmissed, hsum, missShot_shortfall hx, hwindow⟩
    · rw [shotDue_pends hx hm hf he hp h2]
      refine ⟨takeShot_dose hx _, onDoseBatch_mp .., fun t ht => ⟨t.takeShot r.recipe x.pending, ?_, ?_⟩⟩
      · rw [onDoseBatch_doseBatch (keepsName_takeShot ..), ht, Option.map_some]
      · unfold Batch.takeShot
        by_cases h1 : x.pending = 1 <;> simp [h1, Batch.onDose]
  · rintro d e r x c j hx hc hj rfl
    refine ⟨checkWindow_short hx hc hj, fun hw => ⟨?_, fun fails hfails => ?_⟩⟩
    · obtain ⟨y, hy, hs, -⟩ := checkWindow_full hx hc hj hw
      refine ⟨y, hy, ?_⟩
      rw [hs]
      exact ⟨rfl, rfl, rfl, rfl, rfl⟩
    · rw [← windowFails_iff] at hfails
      refine ⟨fun hno => checkWindow_passed hx hc hj hw fun h => hno (hfails.mpr h), fun hyes => ?_⟩
      rw [checkWindow_failed hx hc hj hw (hfails.mp hyes)]
      obtain ⟨m, hm, hobj, hev, hfields⟩ := failWindow_raised (d.onDose r Dosing.nextWindow) r c x.action x.winVol
        (j.window * j.shot * 100)
      refine ⟨⟨m, hm, hobj, hev, by rw [hfields, onDose, onDoseBatch_inj]⟩, failWindow_marked (nextWindow_dose hx) .., fun t ho ht => ?_⟩
      have hbatch : ((d.onDose r Dosing.nextWindow).arm r.arm).batch = some (t.onDose r.recipe Dosing.nextWindow) := by
        rw [onDose, onDoseBatch_open ho, onBatch_batch, ht, Option.map_some]
      obtain ⟨u, hu, hdelivered, hphase⟩ := failWindow_batch c x.action x.winVol (j.window * j.shot * 100)
        ((onDoseBatch_refOpen (keepsName_onDose ..)).trans ho) hbatch
      exact ⟨u, hu, hdelivered, hphase⟩

end Sys2Proof.Machine
end

