-- ==== Sys2Proof/Proofs/Offers.lean ====
section
/-! Offers, answers and completions of an injector (R43, R48 to R52, R55): which record is offered, and what an answer or a
completion makes of the injector and of the record of its shot. -/

namespace Sys2Proof.Machine

open Sys2Proof

/-- R52: a record credited with a completed shot of volume `v`. -/
def Dosing.credit (v : Nat) (x : Dosing) : Dosing :=
  { x with delivered := x.delivered + v, winVol := x.winVol + v, completed := x.completed + 1, winCount := x.winCount + 1 }

namespace Device

/-! ### The records an injector may be offered (R43, R49) -/

theorem mem_openRefs {d : Device} {t : Batch} {y : Dosing} (ht : (d.arm t.arm).batch = some t) (hy : y ∈ t.dosing)
    (hd : y.dosed = true) : (⟨t.arm, t.line, y.recipe⟩ : DoseRef) ∈ d.openRefs t.arm := by
  unfold openRefs
  rw [ht]
  exact List.mem_map_of_mem (List.mem_filter.mpr ⟨hy, hd⟩)

theorem mem_endedRefs {d : Device} {b : BayId} {t : Batch} {y : Dosing} (ht : t ∈ (d.bay b).ended) (hy : y ∈ t.dosing)
    (hd : y.dosed = true) : (⟨t.arm, t.line, y.recipe⟩ : DoseRef) ∈ d.endedRefs :=
  List.mem_flatten_of_mem (List.mem_map_of_mem (mem_allBays b)) (List.mem_flatten_of_mem (List.mem_map_of_mem ht)
    (List.mem_map_of_mem (List.mem_filter.mpr ⟨hy, hd⟩)))

/-- R45: the DOSED records of every batch, open or ended, are counted. -/
theorem mem_doseRefs {d : Device} {t : Batch} {y : Dosing} (ht : (d.arm t.arm).batch = some t ∨ ∃ b, t ∈ (d.bay b).ended)
    (hy : y ∈ t.dosing) (hd : y.dosed = true) : (⟨t.arm, t.line, y.recipe⟩ : DoseRef) ∈ d.doseRefs := by
  rcases ht with ht | ⟨b, ht⟩
  · exact List.mem_append_left _ (List.mem_flatten_of_mem (List.mem_map_of_mem (mem_allArms t.arm)) (mem_openRefs ht hy hd))
  · exact List.mem_append_right _ (mem_endedRefs ht hy hd)

theorem eligible_dose {d : Device} {c : Chan} {r : DoseRef} (h : r ∈ d.eligible c) :
    ∃ x, d.dose r = some x ∧ x.injector = some c ∧ 0 < x.pending ∧ x.closeMark = false := by
  obtain ⟨hr, x, hx, hp, hm⟩ := (mem_eligible ..).mp h
  obtain ⟨-, y, hy, hc⟩ := (mem_refsOn ..).mp hr
  obtain rfl := Option.some.inj (hx.symm.trans hy)
  exact ⟨x, hx, hc, hp, hm⟩

/-- R49: eligible records come in ascending arm order. -/
theorem eligible_ascending (d : Device) (c : Chan) : ((d.eligible c).map DoseRef.arm).Pairwise (· ≤ ·) := by
  have hasc : allArms.Pairwise (· < ·) := by decide
  unfold eligible
  rw [List.pairwise_map, List.pairwise_flatten]
  refine ⟨fun l hl => ?_, ?_⟩
  · obtain ⟨a, -, rfl⟩ := List.mem_map.mp hl
    refine (List.pairwise_of_forall fun _ _ => trivial : List.Pairwise (fun _ _ => True) _).imp_of_mem fun {r q} hr hq _ => ?_
    have hra := (List.mem_filter.mp hr).2
    have hqa := (List.mem_filter.mp hq).2
    rw [beq_iff_eq] at hra hqa
    exact (hra.trans hqa.symm).le
  · rw [List.pairwise_map]
    refine hasc.imp fun {a b} hab r hr q hq => ?_
    have hra := (List.mem_filter.mp hr).2
    have hqa := (List.mem_filter.mp hq).2
    rw [beq_iff_eq] at hra hqa
    rw [hra, hqa]
    exact hab.le

/-! ### Offers (R49, R50) -/

/-- R50: the arbiter's choice is one of the records. -/
theorem arbitrate_mem {last : Option ArmId} {l : List DoseRef} {x : DoseRef} (h : arbitrate last l = some x) : x ∈ l := by
  match l with
  | [] => exact nomatch h
  | [r] => exact Option.some.inj h ▸ List.mem_singleton_self r
  | r :: q :: t =>
    simp only [arbitrate] at h
    split at h <;> rw [← Option.some.inj h]
    · exact List.mem_cons_of_mem _ List.mem_cons_self
    · exact List.mem_cons_self

theorem arbitrate_some (last : Option ArmId) (r : DoseRef) (l : List DoseRef) : ∃ x, arbitrate last (r :: l) = some x := by
  cases l with
  | nil => exact ⟨r, rfl⟩
  | cons q t => simp only [arbitrate]; split <;> exact ⟨_, rfl⟩

/-- R50: of two arms, the one not served last. -/
theorem arbitrate_two (last : Option ArmId) (r q : DoseRef) (l : List DoseRef) :
    ((last = some r.arm ∨ last = none) → arbitrate last (r :: q :: l) = some q) ∧
    (last = some q.arm → q.arm ≠ r.arm → arbitrate last (r :: q :: l) = some r) := by
  refine ⟨fun h => if_pos ?_, fun h hne => if_neg ?_⟩
  · rcases h with rfl | rfl <;> rfl
  · rw [h]
    exact hne

section Offers
variable {d : Device} {c : Chan} {j : InjectorRec}

/-- R49: what lets an injector be offered a shot. -/
theorem mayOffer_iff : d.mayOffer c j = true ↔
    (d.inj c).state = .available ∧ d.usable j.station .injector = true ∧ d.lu.esd = false ∧ d.lu.powerfail = false ∧
    ∃ v, (d.inj c).view = some v ∧ v.ready = true ∧
      ((d.inj c).inFlight = [] ∨ (j.acceptance = .buffered ∧ (d.inj c).inFlight.length = 1 ∧ v.bufferFree = true)) := by
  unfold mayOffer latched
  dsimp only
  cases (d.inj c).view with
  | none => simp
  | some v => simp [and_assoc]

theorem offerShot_still (hj : d.injRec c = some j)
    (h : (d.inj c).offer ≠ none ∨ d.mayOffer c j = false ∨ d.eligible c = []) : d.offerShot c = d := by
  unfold offerShot
  rw [hj]
  dsimp only
  split
  · rfl
  next hn =>
    simp only [Bool.or_eq_true, Bool.not_eq_true', not_or, Bool.not_eq_false, Option.not_isSome_iff_eq_none] at hn
    obtain ⟨ho, hmay⟩ := hn
    rcases h with h | h | h
    · exact absurd ho h
    · rw [hmay] at h; exact nomatch h
    · rw [h]; rfl

/-- R49: a new offer, of the record that the arbiter chooses. -/
theorem offerShot_makes {r : DoseRef} (hj : d.injRec c = some j) (ho : (d.inj c).offer = none) (hm : d.mayOffer c j = true)
    (hr : arbitrate (d.inj c).lastServed (d.eligible c) = some r) : d.offerShot c = d.onInj c fun i =>
      { i with offer := some ⟨i.nextToken, r, !i.inFlight.isEmpty, .stays⟩
               nextToken := if i.nextToken = 255 then 1 else i.nextToken + 1 } := by
  unfold offerShot
  simp only [hj, ho, hm, hr, Option.isSome_none, Bool.not_true, Bool.or_self, Bool.false_eq_true, if_false]
  rfl

end Offers

/-! ### What dosing leaves of an injector (R51 to R55) -/

theorem missShots_sameOffers (n : Nat) (r : DoseRef) (d : Device) : d.SameOffers (missShots n r d) := by
  induction n generalizing d with
  | zero => exact .refl d
  | succ n ih => exact (missShot_sameOffers d r true).trans (ih _)

theorem missPendings_sameOffers (d : Device) (l : List DoseRef) : d.SameOffers (d.missPendings l) :=
  (((SameOffers.foldl _ _ _ fun _ _ => onDoseBatch_sameOffers ..).trans (setFates_sameOffers ..)).trans
    (SameOffers.foldl _ _ _ fun _ _ => missShots_sameOffers ..)).trans (SameOffers.foldl _ _ _ fun _ _ => onDoseBatch_sameOffers ..)

theorem settleUntaken_sameOffers (d : Device) (c : Chan) (o : Offer) : d.SameOffers (d.settleUntaken c o) := by
  refine SameOffers.trans ?_ (onDoseBatch_sameOffers ..)
  split
  · exact (onDoseBatch_sameOffers ..).trans (onDoseBatch_sameOffers ..)
  · exact (onDoseBatch_sameOffers ..).trans (missShot_sameOffers ..)
  · split
    · exact (onDoseBatch_sameOffers ..).trans (missShot_sameOffers ..)
    · exact .refl d

/-- R55: the injectors after a fault. -/
theorem faultInjector_inj (d : Device) (c : Chan) (cause : Nat) (k : Chan) : ∃ o, (d.faultInjector c cause).inj k = { d.inj k with
      state := if k = c ∧ (d.inj c).state = .available then .fault else (d.inj k).state, offer := o } ∧
    ((d.inj k).offer = none → o = none) := by
  unfold faultInjector
  split
  next hs =>
    obtain ⟨o, ho, hnone⟩ := (missPendings_sameOffers (d.onInj c fun i => { i with state := .fault }) (d.refsOn c)).inj k
    refine ⟨o, ho.trans ?_, ?_⟩
    · rw [onInj_inj]
      by_cases hk : k = c
      · subst hk; simp [hs]
      · simp [hk]
    · refine fun hn => hnone ?_
      rw [onInj_inj]
      split
      next hk => rw [← hk]; exact hn
      next => exact hn
  next hs => exact ⟨(d.inj k).offer, by simp [hs], id⟩

/-! ### Answers (R51) -/

section Answers
variable {d : Device} {c : Chan} {o : Offer} {y : Dosing}

theorem takePending_dose {r : DoseRef} (hy : d.dose r = some y) :
    (d.takePending r).dose r = some { y with pending := y.pending - 1 } := by
  rw [takePending, onDose_dose (g := fun x => { x with pending := x.pending - 1 }) fun _ => rfl, hy, Option.map_some]

/-- R58: a shot whose batch closed before the answer. -/
theorem settleUntaken_cancelled (hf : o.fate = .cancelled) (hy : d.dose o.ref = some y) :
    (d.settleUntaken c o).dose o.ref = some { y with pending := y.pending - 1, cancelled := y.cancelled + 1 } := by
  unfold settleUntaken
  rw [hf]
  dsimp only
  rw [throttleClear_dose, onDose_dose (g := fun x => { x with cancelled := x.cancelled + 1 }) fun _ => rfl, takePending_dose hy,
    Option.map_some]

/-- R55, R59: a shot that is missed as its offer ends. -/
theorem settleUntaken_missed (hf : o.fate = .missed ∨ o.fate = .stays ∧ (d.inj c).state = .fault) (hy : d.dose o.ref = some y) :
    ∃ z, (d.settleUntaken c o).dose o.ref = some z ∧ z.missed = y.missed + 1 ∧ z.completed = y.completed ∧
      z.delivered = y.delivered := by
  have heq : d.settleUntaken c o = ((d.takePending o.ref).missShot o.ref true).throttleClear o.ref := by
    unfold settleUntaken
    rcases hf with hf | ⟨hf, hs⟩
    · rw [hf]
    · simp only [hf, hs, if_true]
  obtain ⟨z, hz, hs, -⟩ := missShot_dose (takePending_dose hy) true
  refine ⟨z, by rw [heq, throttleClear_dose, hz], ?_⟩
  rw [hs]
  exact ⟨rfl, rfl, rfl⟩

/-- R51: a shot that stays pending as its offer ends. -/
theorem settleUntaken_stays (hf : o.fate = .stays) (hs : (d.inj c).state ≠ .fault) :
    (d.settleUntaken c o).dose o.ref = d.dose o.ref := by
  unfold settleUntaken
  simp only [hf, hs, if_false]
  exact throttleClear_dose

/-- R51: the record of an untaken offer's shot, by the fate of the offer. -/
theorem settleUntaken_dose (hy : d.dose o.ref = some y) : ∃ z, (d.settleUntaken c o).dose o.ref = some z ∧
    z.delivered = y.delivered ∧ z.completed = y.completed ∧ (o.fate = .stays → (d.inj c).state ≠ .fault → z = y) ∧
    (o.fate = .cancelled → z = { y with pending := y.pending - 1, cancelled := y.cancelled + 1 }) ∧
    (o.fate = .missed → z.missed = y.missed + 1) := by
  cases hf : o.fate with
  | cancelled =>
    exact ⟨_, settleUntaken_cancelled hf hy, rfl, rfl, fun h => (nomatch h), fun _ => rfl, fun h => (nomatch h)⟩
  | missed =>
    obtain ⟨z, hz, hm, hc, hd⟩ := settleUntaken_missed (.inl hf) hy
    exact ⟨z, hz, hd, hc, fun h => (nomatch h), fun h => (nomatch h), fun _ => hm⟩
  | stays =>
    by_cases hs : (d.inj c).state = .fault
    · obtain ⟨z, hz, hm, hc, hd⟩ := settleUntaken_missed (.inr ⟨hf, hs⟩) hy
      exact ⟨z, hz, hd, hc, fun _ h => absurd hs h, fun h => (nomatch h), fun h => (nomatch h)⟩
    · exact ⟨y, (settleUntaken_stays hf hs).trans hy, rfl, rfl, fun _ _ => rfl, fun h => (nomatch h), fun h => (nomatch h)⟩

variable {j : InjectorRec} {answer token : Nat}

/-- R51: an answer that takes the offer. -/
theorem answerOffer_taken (ho : (d.inj c).offer = some o) (h : answer = 1 ∧ token = o.token) :
    d.answerOffer c j answer token = ((d.onInj c fun i => { i with
      offer := none, lastServed := some o.ref.arm,
      inFlight := i.inFlight ++ [⟨o.token, o.ref, d.now⟩] }).takePending o.ref).throttleClear o.ref := by
  unfold answerOffer
  simp only [ho, h, and_self, if_true]

/-- R51: any other answer. -/
theorem answerOffer_untaken (ho : (d.inj c).offer = some o) (h : ¬ (answer = 1 ∧ token = o.token)) :
    d.answerOffer c j answer token = if j.acceptance = .buffered ∧ o.onBuffer = true then
      ((d.onInj c fun i => { i with offer := none }).settleUntaken c o).faultInjector c 1
    else (d.onInj c fun i => { i with offer := none }).settleUntaken c o := by
  unfold answerOffer
  simp only [ho, h, if_false]
  exact if_congr (by simp) rfl rfl

theorem settleUntaken_inj (d : Device) (c : Chan) (o : Offer) :
    ((d.onInj c fun i => { i with offer := none }).settleUntaken c o).inj c = { d.inj c with offer := none } := by
  obtain ⟨p, hp, hnone⟩ := (settleUntaken_sameOffers (d.onInj c fun i => { i with offer := none }) c o).inj c
  rw [onInj_inj_same] at hp hnone
  rw [hp, hnone rfl]

/-- R51: the injector after an answer that does not take the offer. -/
theorem answerOffer_untaken_inj (ho : (d.inj c).offer = some o) (h : ¬ (answer = 1 ∧ token = o.token)) :
    (d.answerOffer c j answer token).inj c = { d.inj c with
      state := if (j.acceptance = .buffered ∧ o.onBuffer = true) ∧ (d.inj c).state = .available then .fault else (d.inj c).state
      offer := none } := by
  have hsettled := settleUntaken_inj d c o
  rw [answerOffer_untaken ho h]
  split
  next hb =>
    obtain ⟨p, hp, hnone⟩ := faultInjector_inj ((d.onInj c fun i => { i with offer := none }).settleUntaken c o) c 1 c
    rw [hp, hnone (by rw [hsettled]), hsettled]
    simp [hb]
  next hb => rw [hsettled, if_neg fun hn => hb hn.1]

end Answers

/-! ### Completions (R52) -/

section Completions
variable {d : Device} {c : Chan} {token : Nat}

theorem completeShot_unmatched (j : InjectorRec) (pulses : Nat) (h : ∀ x ∈ (d.inj c).inFlight, x.token ≠ token) :
    d.completeShot c j token pulses = d := by
  have hnone : ((d.inj c).inFlight.find? fun y => y.token == token) = none :=
    List.find?_eq_none.mpr fun x hx => by simpa using h x hx
  unfold completeShot
  rw [hnone]

theorem completeShot_matched {x : Shot} (j : InjectorRec) (pulses : Nat)
    (h : ((d.inj c).inFlight.find? fun y => y.token == token) = some x) : d.completeShot c j token pulses =
      (((d.onInj c fun i => { i with inFlight := i.inFlight.erase x, missed := 0 }).onDose x.ref
        (Dosing.credit (shotVolume pulses j.kFactor))).checkWindow x.ref) := by
  unfold completeShot
  rw [h]
  rfl

theorem completeShot_inj {x : Shot} (j : InjectorRec) (pulses : Nat)
    (h : ((d.inj c).inFlight.find? fun y => y.token == token) = some x) :
    ∃ o, (d.completeShot c j token pulses).inj c =
      { d.inj c with inFlight := (d.inj c).inFlight.erase x, missed := 0, offer := o } := by
  have hsame : (d.onInj c fun i => { i with inFlight := i.inFlight.erase x, missed := 0 }).SameOffers
      (d.completeShot c j token pulses) := by
    rw [completeShot_matched j pulses h]
    exact (onDoseBatch_sameOffers ..).trans (checkWindow_sameOffers ..)
  obtain ⟨o, ho, -⟩ := hsame.inj c
  rw [onInj_inj_same] at ho
  exact ⟨o, ho⟩

/-- R52, R56: the record credited, its window checked. -/
theorem completeShot_dose {x : Shot} {y : Dosing} (j : InjectorRec) (pulses : Nat)
    (h : ((d.inj c).inFlight.find? fun s => s.token == token) = some x) (hy : d.dose x.ref = some y) :
    ∃ z, (d.completeShot c j token pulses).dose x.ref = some z ∧ z.completed = y.completed + 1 ∧
      z.delivered = y.delivered + shotVolume pulses j.kFactor ∧ z.missed = y.missed ∧
      ∀ k q, y.injector = some k → d.injRec k = some q → y.winCount + 1 < q.window →
        z.winCount = y.winCount + 1 ∧ z.winVol = y.winVol + shotVolume pulses j.kFactor := by
  rw [completeShot_matched j pulses h]
  generalize hd1 : (d.onInj c fun i => { i with inFlight := i.inFlight.erase x, missed := 0 }) = d1
  have hcredit : (d1.onDose x.ref (Dosing.credit (shotVolume pulses j.kFactor))).dose x.ref =
      some (y.credit (shotVolume pulses j.kFactor)) := by
    have hy1 : d1.dose x.ref = some y := by rw [← hd1]; exact hy
    rw [onDose_dose (g := Dosing.credit (shotVolume pulses j.kFactor)) fun _ => rfl, hy1, Option.map_some]
  obtain ⟨z, hz, hs, -⟩ := checkWindow_dose hcredit
  refine ⟨z, hz, by rw [hs]; rfl, by rw [hs]; rfl, by rw [hs]; rfl, fun k q hk hq hw => ?_⟩
  have hrec : (d1.onDose x.ref (Dosing.credit (shotVolume pulses j.kFactor))).injRec k = some q := by
    rw [onDose, onDoseBatch_injRec, ← hd1]
    exact hq
  rw [checkWindow_short hcredit hk hrec hw, hcredit] at hz
  rw [← Option.some.inj hz]
  exact ⟨rfl, rfl⟩

end Completions

/-! ### Losses (R48) -/

theorem userLost_injector {d : Device} {n : Addr} {c : Chan} (f : Bool) (h : d.chanOf n = some c) :
    d.userLost n .injector f = d.onInj c fun i => { i with view := none, offer := none } := by
  unfold userLost
  dsimp only
  rw [h]
  rfl

end Device

open Device in
/-- Settles O50: the offer by its conditions and the arbiter's choice, the answer by whether it takes the offer, the completion
by whether it matches a shot in flight, and the loss. -/
theorem injectorReturns : Obligations.InjectorReturns := by
  refine ⟨fun d c j hj => ⟨offerShot_still hj, mayOffer_iff.mp, fun t y ht hy hd hc hp hm hdose => ?_, eligible_ascending d c,
      fun r l ho hm hl => ?_⟩, ?_, ?_, fun d e n c f hn he => he.trans (userLost_injector f hn)⟩
  · exact (mem_eligible ..).mpr ⟨(mem_refsOn ..).mpr ⟨mem_doseRefs ht hy hd, y, hdose, hc⟩, y, hdose, hp, hm⟩
  · obtain ⟨x, hx⟩ := arbitrate_some (d.inj c).lastServed r l
    have hmem := arbitrate_mem hx
    rw [← hl] at hx hmem
    refine ⟨x, offerShot_makes hj ho hm hx, hmem, eligible_dose hmem, fun q m hq => ?_⟩
    obtain ⟨hsecond, hfirst⟩ := arbitrate_two (d.inj c).lastServed r q m
    rw [hl, hq] at hx
    exact ⟨fun h => Option.some.inj (hx.symm.trans (hsecond h)), fun h hne => Option.some.inj (hx.symm.trans (hfirst h hne))⟩
  · rintro d e c j answer token rfl
    refine ⟨fun ho => by unfold answerOffer; rw [ho], fun o ho => ⟨fun ha ht => ?_, fun hno => ?_⟩⟩
    · rw [answerOffer_taken ho ⟨ha, ht⟩]
      refine ⟨?_, fun y hy => throttleClear_dose.trans (takePending_dose hy)⟩
      rw [throttleClear, takePending, onDose, onDoseBatch_inj, onDoseBatch_inj, onInj_inj_same]
    · have hinj := answerOffer_untaken_inj (j := j) ho hno
      rw [hinj]
      refine ⟨rfl, rfl, rfl, fun hb hon hs => ?_, fun hb => ?_⟩
      · cases hst : (d.inj c).state with
        | available => exact if_pos ⟨⟨hb, hon⟩, rfl⟩
        | fault => exact if_neg fun h => nomatch h.2
        | disabled => exact absurd hst hs
      · have hquiet : ¬ (j.acceptance = .buffered ∧ o.onBuffer = true) := fun h =>
          hb.elim (fun hn => hn h.1) fun hn => Bool.noConfusion (hn.symm.trans h.2)
        refine ⟨if_neg fun h => hquiet h.1, fun y hy => ?_⟩
        obtain ⟨z, hz, hd, hc, hstays, hcancelled, hmissed⟩ :=
          settleUntaken_dose (d := d.onInj c fun i => { i with offer := none }) (c := c) (o := o) hy
        rw [onInj_inj_same] at hstays
        rw [answerOffer_untaken ho hno, if_neg hquiet]
        exact ⟨z, hz, hd, hc, hstays, hcancelled, hmissed⟩
  · rintro d e c j token pulses rfl
    refine ⟨completeShot_unmatched j pulses, fun x hx => ?_⟩
    obtain ⟨o, ho⟩ := completeShot_inj j pulses hx
    rw [ho]
    exact ⟨rfl, rfl, rfl, fun y hy => completeShot_dose j pulses hx hy, (completeShot_dosed ..).custody,
      (completeShot_dosed ..).meters⟩

end Sys2Proof.Machine
end

