-- ==== Sys2Proof/Proofs/AfterEvents.lean ====
section
/-! What follows any event (R37, R75, R80, R83, R114, R163), however many bays it concerns: travel timers move, bays change
state and cancel what their ended batches have pending, CW takes its next work; injectors, tables, custody memory and the loop
stay, and no totalizer amount is lost. -/

namespace Sys2Proof.Machine

open Sys2Proof

namespace Device

/-- From `d` to `e` the blocks go on with their work after an event: arms, injectors, records and custody memory stand, ended
batches stay as they are when summed, each arm keeps its mirror and its amounts not yet written, and answers are only added. -/
structure Followed (d e : Device) : Prop where
  rest    : { d with bays := e.bays, accounts := e.accounts, orders := e.orders, nu := e.nu, cw := e.cw, lu := e.lu,
                     meters := e.meters, mp := e.mp } = e
  ended   : ∀ b, (e.bay b).ended.map Batch.summed = (d.bay b).ended.map Batch.summed
  books   : ∀ a, (e.meter a).mirror = (d.meter a).mirror ∧
    (e.meter a).unwritten.add (e.cw.queued a) = (d.meter a).unwritten.add (d.cw.queued a)
  answers : d.mp.answers <+: e.mp.answers

theorem Followed.refl (d : Device) : d.Followed d := ⟨rfl, fun _ => rfl, fun _ => ⟨rfl, rfl⟩, List.prefix_refl _⟩

theorem Followed.trans {d e f : Device} (h : d.Followed e) (k : e.Followed f) : d.Followed f where
  rest := by rw [← k.rest, ← h.rest]
  ended b := (k.ended b).trans (h.ended b)
  books a := ⟨(k.books a).1.trans (h.books a).1, (k.books a).2.trans (h.books a).2⟩
  answers := h.answers.trans k.answers

theorem Followed.foldl {α : Type} (f : Device → α → Device) (l : List α) (d : Device)
    (h : ∀ (e : Device) (x : α), e.Followed (f e x)) : d.Followed (l.foldl f d) := by
  induction l generalizing d with
  | nil => exact .refl d
  | cons x t ih => exact (h d x).trans (ih _)

theorem Followed.arms {d e : Device} (h : d.Followed e) : e.arms = d.arms := by rw [← h.rest]

/-! ### The tests of a bay (R75, R80, R83) -/

/-- What a bay's tests change is followed work when the bay's ended batches and the queued posts keep their sums. -/
theorem OfBay.followed {b : BayId} {d e : Device} (h : d.OfBay b e)
    (he : (e.bay b).ended.map Batch.summed = (d.bay b).ended.map Batch.summed)
    (hp : ∀ a, postsOf a e.cw.queue = postsOf a d.cw.queue) : d.Followed e := by
  have hmeter : ∀ a, e.meter a = d.meter a := fun a => by rw [← h.rest]; rfl
  refine ⟨by rw [← h.rest], fun y => ?_, fun a => ⟨by rw [hmeter], by rw [hmeter, Cw.queued_eq, Cw.queued_eq, hp]⟩,
    by rw [← h.rest]⟩
  by_cases hy : y = b
  · rw [hy, he]
  · rw [h.others y hy]

theorem enterHeld_ended (d : Device) (b : BayId) (p : BeforeHold) : ((d.enterHeld b p).bay b).ended = (d.bay b).ended := by
  unfold enterHeld
  rw [bayNotice_bay, onBay_bay_same]
  exact enterState_ended ..

theorem clearCause_ended (d : Device) (b : BayId) (c : TripCause) : ((d.clearCause b c).bay b).ended = (d.bay b).ended := by
  unfold clearCause
  dsimp only
  split
  · rfl
  split
  · split
    · rw [enterHeld_ended, onBay_bay_same, bayNotice_bay, onBay_bay_same]
    · rw [loadTest_ended, bayNotice_bay, enterState_ended, onBay_bay_same, bayNotice_bay, onBay_bay_same]
  · rw [bayNotice_bay, onBay_bay_same]

theorem valveTest_followed (d : Device) (b : BayId) : d.Followed (d.valveTest b) := by
  refine (valveTest_ofBay d b).followed (congrArg _ ?_) fun a => by rw [(valveTest_calm d b).cw]
  unfold valveTest
  split
  · exact clearCause_ended ..
  · rfl

theorem grantHold_followed (d : Device) (b : BayId) : d.Followed (d.grantHold b) := by
  refine (grantHold_ofBay d b).followed (congrArg _ ?_) fun a => by rw [(grantHold_calm d b).cw]
  unfold grantHold
  split
  · rw [bayNotice_bay, enterState_ended]
  · rfl

/-- R113: the barrier of a commit has no amounts. -/
theorem commitNote_posts (d : Device) (b : BayId) (a : ArmId) : postsOf a (d.commitNote b).cw.queue = postsOf a d.cw.queue := by
  unfold commitNote
  split
  · rw [appendBarrier, onCw_cw, onNoteBay_cw, postsOf_append, postsOf_cons_barrier _ _ _ _ rfl, postsOf, Vol.add_zero]
  · rfl

theorem closingTest_followed (d : Device) (b : BayId) : d.Followed (d.closingTest b) := by
  by_cases h : (d.bay b).state = .closing ∧ d.noBatch b = true ∧ d.outstandingShots b = 0
  · obtain ⟨h1, h2, h3⟩ := h
    refine (closingTest_ofBay d b).followed ?_ fun a => ?_
    · rw [closingTest_bay h1 h2 h3]
      dsimp only
      rw [List.map_map]
      exact List.map_congr_left fun t _ => t.cancelLeft_summed
    · rw [closingTest_done h1 h2 h3, ← noteReady_cw d b]
      exact commitNote_posts ..
  · have hstill : d.closingTest b = d := if_neg h
    rw [hstill]
    exact .refl d

theorem bayTests_followed (d : Device) (b : BayId) : d.Followed (d.bayTests b) :=
  ((valveTest_followed d b).trans (grantHold_followed ..)).trans (closingTest_followed ..)

/-! ### CW's next work (R114, R116) -/

/-- R116: what a barrier's arms have unwritten is queued ahead of it. -/
theorem lookAtBarrier_books (d : Device) {e : QEntry} {x : Barrier} {l : List QEntry} (hq : d.cw.queue = e :: l)
    (he : e.body = .barrier x) (a : ArmId) : ((d.lookAtBarrier e x l).meter a).mirror = (d.meter a).mirror ∧
    ((d.lookAtBarrier e x l).meter a).unwritten.add ((d.lookAtBarrier e x l).cw.queued a) =
      (d.meter a).unwritten.add (d.cw.queued a) := by
  rw [Cw.queued_eq, Cw.queued_eq, hq]
  cases hr : d.recoveryArms x.image with
  | cons y t =>
    obtain ⟨hcw, hunwritten⟩ := lookAtBarrier_recovers e l hr
    have hposts := postsOf_recoveryEntries d a (y :: t) d.cw.nextId (hr ▸ recoveryArms_nodup d x.image)
    have hmirror : ((d.lookAtBarrier e x l).meter a).mirror = (d.meter a).mirror := by
      unfold lookAtBarrier
      rw [hr]
      show ((d.takeUnwritten (y :: t)).meter a).mirror = _
      rw [takeUnwritten_meter]
      split <;> rfl
    refine ⟨hmirror, ?_⟩
    rw [recoveryEntries, postsOf_cons_post] at hposts
    rw [hunwritten, hcw]
    dsimp only
    rw [postsOf_cons_post, postsOf_append, ← Vol.add_assoc (ite _ _ _) _ (postsOf a (e :: l)), hposts]
    split <;> rw [Vol.zero_add]
  | nil =>
    have hmeter : (d.lookAtBarrier e x l).meter a = d.meter a := by
      unfold lookAtBarrier
      rw [hr]
      dsimp only
      split <;> rfl
    have hposts : postsOf a (d.lookAtBarrier e x l).cw.queue = postsOf a (e :: l) := by
      by_cases hn : d.nextNumber < 4294967296
      · rw [lookAtBarrier_starts e l hr hn, postsOf_cons_barrier a _ _ _ rfl, postsOf_cons_barrier a e x l he]
      · rw [lookAtBarrier_exhausted e l hr (Nat.not_lt.mp hn), ← hq]
    rw [hmeter, hposts]
    exact ⟨rfl, rfl⟩

theorem cwStart_books (d : Device) (a : ArmId) : (d.cwStart.meter a).mirror = (d.meter a).mirror ∧
    (d.cwStart.meter a).unwritten.add (d.cwStart.cw.queued a) = (d.meter a).unwritten.add (d.cw.queued a) := by
  unfold cwStart
  split
  · exact ⟨rfl, rfl⟩
  split
  · exact ⟨rfl, rfl⟩
  split
  · exact ⟨rfl, rfl⟩
  next e l hq =>
    split
    · refine ⟨rfl, ?_⟩
      rw [Cw.queued_eq, Cw.queued_eq, hq]
      rfl
    next x he =>
      split
      · exact ⟨rfl, rfl⟩
      · split
        · split
          · exact ⟨rfl, rfl⟩
          · exact lookAtBarrier_books d hq he a
        · exact lookAtBarrier_books d hq he a

theorem cwStart_followed (d : Device) : d.Followed d.cwStart where
  rest := by rw [← cwStart_frame]
  ended b := by rw [← cwStart_frame]; rfl
  books := cwStart_books d
  answers := by rw [← cwStart_frame]

/-! ### Waiting reads and parking (R121, R123) -/

/-- Work on CW beside its queue, and answers given. -/
theorem Followed.of_answers {d e : Device} (hr : { d with cw := e.cw, mp := e.mp } = e) (hq : e.cw.queue = d.cw.queue)
    (ha : d.mp.answers <+: e.mp.answers) : d.Followed e := by
  have hmeter : ∀ a, e.meter a = d.meter a := fun a => by rw [← hr]; rfl
  exact ⟨by rw [← hr], fun b => by rw [← hr]; rfl,
    fun a => ⟨by rw [hmeter], by rw [hmeter, Cw.queued_eq, Cw.queued_eq, hq]⟩, ha⟩

theorem serveWaiting_followed (d : Device) (always : Bool) : d.Followed (d.serveWaiting always) := by
  refine .of_answers (serveWaiting_frame d always) ?_ ?_ <;> unfold serveWaiting
  · split
    · rfl
    · split <;> rfl
  · split
    · exact List.prefix_refl _
    · split
      · exact List.prefix_append ..
      · exact List.prefix_refl _

theorem takeRead_followed (d : Device) (t : Byte) (a : ArmId) : d.Followed (d.takeRead t a) := by
  refine .of_answers (takeRead_frame d t a) ?_ ?_ <;> unfold takeRead
  · split <;> rfl
  · split
    · exact List.prefix_append ..
    · exact List.prefix_refl _

theorem resumeRead_followed (d : Device) : d.Followed d.resumeRead := by
  unfold resumeRead
  split
  · split
    · split
      · exact takeRead_followed ..
      · exact .refl d
    · exact .refl d
  · exact .refl d

theorem cwPark_followed (d : Device) : d.Followed d.cwPark := by
  unfold cwPark
  split
  · have hpark : d.Followed ((d.onCw fun c => { c with mode := .parked }).rackNotice 13 (luFields d)) :=
      .of_answers rfl rfl (List.prefix_refl _)
    exact (hpark.trans (serveWaiting_followed ..)).trans (resumeRead_followed _)
  · exact .refl d

/-- Work on the lines alone. -/
theorem Followed.of_lines {d e : Device} (hr : { d with lu := e.lu } = e) : d.Followed e where
  rest := by rw [← hr]
  ended b := by rw [← hr]; rfl
  books a := by rw [← hr]; exact ⟨rfl, rfl⟩
  answers := by rw [← hr]

theorem driveOutputs_followed (d : Device) : d.Followed d.driveOutputs := .of_lines (driveOutputs_frame d)

end Device

/-! ### The whole of what follows -/

/-- What follows an event after the travel timers have moved. -/
theorem settle_followed (d e : Device) : (supervise d e).Followed (settle d e) :=
  (((Device.Followed.foldl _ _ _ Device.bayTests_followed).trans (Device.driveOutputs_followed _)).trans
    (Device.cwStart_followed _)).trans (Device.cwPark_followed _)

/-- R37: the travel timers leave every batch. -/
theorem supervise_sameShots (d e : Device) : e.SameShots (supervise d e) where
  arm a := by rw [supervise_arm]
  bay b := by rw [← supervise_rest]; rfl

/-- What follows an event leaves every batch as it is when summed. -/
theorem settle_sameShots (d e : Device) : e.SameShots (settle d e) :=
  (supervise_sameShots d e).trans ⟨fun a => by rw [Device.arm, (settle_followed d e).arms]; rfl, (settle_followed d e).ended⟩

theorem settle_injs (d e : Device) : (settle d e).injs = e.injs := by
  rw [← (settle_followed d e).rest, ← supervise_rest]

theorem settle_custody (d e : Device) : (settle d e).custody = e.custody := by
  rw [← (settle_followed d e).rest, ← supervise_rest]

theorem settle_lm (d e : Device) : (settle d e).lm = e.lm := by
  rw [← (settle_followed d e).rest, ← supervise_rest]

/-- R112, R116: what follows an event keeps each arm's mirror, and its amounts not yet written. -/
theorem settle_books (d e : Device) (a : ArmId) : ((settle d e).meter a).mirror = (e.meter a).mirror ∧
    ((settle d e).meter a).unwritten.add ((settle d e).cw.queued a) = (e.meter a).unwritten.add (e.cw.queued a) := by
  have h := (settle_followed d e).books a
  rw [← supervise_rest d e] at h
  exact h

end Sys2Proof.Machine
end

