-- ==== Sys2Proof/Proofs/ShotTimeouts.lean ====
section
/-! A shot in flight that times out (R53, R55): what it makes of the injector and of the shot's record, and what of it is left
after the blocks have gone on with their work. -/

namespace Sys2Proof.Machine

open Sys2Proof

/-! ### The injectors and the record (R53, R55) -/

/-- R53: an injector of which a shot in flight has been missed. -/
def Injector.shotMissed (x : Shot) (i : Injector) : Injector :=
  { i with inFlight := i.inFlight.erase x, missed := min 3 (i.missed + 1) }

namespace Device

section Timeouts
variable (d : Device) (c : Chan) (x : Shot)

/-- R53: the part with the shot counted missed, before a third miss brings FAULT. -/
def shotMissed : Device := (d.onInj c (Injector.shotMissed x)).missShot x.ref false

theorem timeoutShot_eq : d.timeoutShot c x =
    if ((d.shotMissed c x).inj c).missed = 3 then (d.shotMissed c x).faultInjector c 0 else d.shotMissed c x := rfl

theorem shotMissed_inj (k : Chan) : ∃ o, (d.shotMissed c x).inj k =
    { (if k = c then (d.inj c).shotMissed x else d.inj k) with offer := o } := by
  obtain ⟨o, ho, -⟩ := (missShot_sameOffers (d.onInj c (Injector.shotMissed x)) x.ref false).inj k
  rw [onInj_inj] at ho
  exact ⟨o, ho⟩

/-- R53, R55: the injector of the shot: at the third miss in a row an AVAILABLE one enters FAULT. -/
theorem timeoutShot_inj : ∃ o, (d.timeoutShot c x).inj c = { (d.inj c).shotMissed x with
    state := if (d.inj c).state = .available ∧ 2 ≤ (d.inj c).missed then .fault else (d.inj c).state, offer := o } := by
  obtain ⟨p, hp⟩ := shotMissed_inj d c x c
  rw [if_pos rfl] at hp
  rw [timeoutShot_eq]
  split
  next h3 =>
    have hm : 2 ≤ (d.inj c).missed := by
      rw [hp] at h3
      exact (by have h : min 3 ((d.inj c).missed + 1) = 3 := h3; omega)
    obtain ⟨o, ho, -⟩ := faultInjector_inj (d.shotMissed c x) c 0 c
    refine ⟨o, ho.trans ?_⟩
    rw [hp]
    simp [hm, Injector.shotMissed]
  next h3 =>
    have hm : ¬ 2 ≤ (d.inj c).missed := fun hm => h3 (by
      rw [hp]
      exact (by omega : min 3 ((d.inj c).missed + 1) = 3))
    refine ⟨p, hp.trans ?_⟩
    simp [hm, Injector.shotMissed]

theorem timeoutShot_inj_other {k : Chan} (hk : k ≠ c) : ∃ o, (d.timeoutShot c x).inj k = { d.inj k with offer := o } := by
  obtain ⟨p, hp⟩ := shotMissed_inj d c x k
  rw [if_neg hk] at hp
  rw [timeoutShot_eq]
  split
  · obtain ⟨o, ho, -⟩ := faultInjector_inj (d.shotMissed c x) c 0 k
    refine ⟨o, ho.trans ?_⟩
    rw [hp]
    simp [hk]
  · exact ⟨p, hp⟩

/-- R53: the record of a shot missed short of the third in a row. -/
theorem timeoutShot_dose {y : Dosing} (hm : (d.inj c).missed < 2) (hy : d.dose x.ref = some y) :
    ∃ z, (d.timeoutShot c x).dose x.ref = some z ∧ z.missed = y.missed + 1 ∧ z.completed = y.completed ∧
      z.delivered = y.delivered := by
  obtain ⟨p, hp⟩ := shotMissed_inj d c x c
  rw [if_pos rfl] at hp
  have hne : ((d.shotMissed c x).inj c).missed ≠ 3 := by
    rw [hp]
    exact (by omega : min 3 ((d.inj c).missed + 1) ≠ 3)
  obtain ⟨z, hz, hs, -⟩ := missShot_dose (d := d.onInj c (Injector.shotMissed x)) hy false
  rw [timeoutShot_eq, if_neg hne]
  refine ⟨z, hz, ?_⟩
  rw [hs]
  exact ⟨rfl, rfl, rfl⟩

end Timeouts

end Device

/-! ### The command -/

theorem exec_shotTimeout_matched {s : State} {c : Chan} {token : Nat} {x : Shot}
    (h : ((s.dev.inj c).inFlight.find? fun y => y.token == token) = some x) :
    exec (.shotTimeout c token) s = .next { s with dev := settle s.dev (s.dev.timeoutShot c x) } := by
  show execShotTimeout c token s = _
  unfold execShotTimeout advance
  dsimp only
  rw [h]
  rfl

/-- The choice for an unknown token (notes/assumptions/2.md): nothing changes. -/
theorem exec_shotTimeout_unmatched {s : State} {c : Chan} {token : Nat} (h : ∀ x ∈ (s.dev.inj c).inFlight, x.token ≠ token) :
    exec (.shotTimeout c token) s = .next s := by
  have hnone : ((s.dev.inj c).inFlight.find? fun y => y.token == token) = none :=
    List.find?_eq_none.mpr fun x hx => by simpa using h x hx
  show execShotTimeout c token s = _
  unfold execShotTimeout advance
  dsimp only
  rw [hnone]

/-- Settles O37: the injector and the record as the timeout leaves them, and the books as what follows leaves them. -/
theorem shotTimeoutCountsAMiss : Obligations.ShotTimeoutCountsAMiss := by
  refine fun s c token _ => ⟨exec_shotTimeout_unmatched, fun x hx => ?_⟩
  have hdosed := Device.timeoutShot_dosed s.dev c x
  have hinj : ∀ k, (settle s.dev (s.dev.timeoutShot c x)).inj k = (s.dev.timeoutShot c x).inj k := fun k => by
    rw [Device.inj, settle_injs]
    rfl
  obtain ⟨o, ho⟩ := Device.timeoutShot_inj s.dev c x
  refine ⟨_, exec_shotTimeout_matched hx, rfl, ?_⟩
  dsimp only
  rw [hinj c, ho]
  refine ⟨rfl, rfl, rfl, rfl, rfl, fun y hm hy => ?_, fun k hk => ?_, fun a => ?_, ?_, ?_⟩
  · obtain ⟨z, hz, hmissed, hcompleted, hdelivered⟩ := Device.timeoutShot_dose s.dev c x hm hy
    obtain ⟨w, hw, hs, -⟩ := (settle_sameShots s.dev (s.dev.timeoutShot c x)).dose_some hz
    refine ⟨w, hw, ?_⟩
    rw [hs]
    exact ⟨hmissed, hcompleted, hdelivered⟩
  · obtain ⟨p, hp⟩ := Device.timeoutShot_inj_other s.dev c x hk
    rw [hinj k, hp]
    exact ⟨rfl, rfl⟩
  · have hmeter : (s.dev.timeoutShot c x).meter a = s.dev.meter a := by rw [Device.meter, hdosed.meters]; rfl
    have hbooks := settle_books s.dev (s.dev.timeoutShot c x) a
    rwa [hmeter, hdosed.cw] at hbooks
  · rw [settle_custody, hdosed.custody]
  · rw [settle_lm, ← hdosed.rest]

end Sys2Proof.Machine
end

