-- ==== Sys2Proof/Proofs/InjectorTable.lean ====
section
/-! TABLE WRITE and TABLE CLEAR of an injector entry and INJECTOR CLEAR (R43, R44, R62): what follows a change of injectors
alone, when a written entry is read, and what its checks ask. -/

namespace Sys2Proof.Machine

open Sys2Proof

/-! ### What follows a change of injectors -/

/-- The two parts agree in all that the blocks watch after an event, but for the injectors. -/
structure Device.SameButInjs (d e : Device) : Prop where
  boot    : e.boot = d.boot
  armRecs : e.armRecs = d.armRecs
  arms    : e.arms = d.arms
  bays    : e.bays = d.bays
  cw      : e.cw = d.cw
  lu      : e.lu = d.lu

section
variable {d e : Device}

theorem Device.SameButInjs.supervise (h : d.SameButInjs e) : supervise d e = e := by
  have harm : ∀ a, e.arm a = d.arm a := fun a => by rw [Device.arm, h.arms]; rfl
  have hbay : ∀ b, e.bay b = d.bay b := fun b => by rw [Device.bay, h.bays]; rfl
  refine supervise_quiet d e fun a => ⟨?_, by rw [harm]⟩
  exact (Device.effectiveStage_congr (Device.bayOfArm_congr h.armRecs a) h.lu (fun b _ => by rw [hbay]; exact ⟨rfl, rfl, rfl⟩)
    (by rw [harm])).symm

/-- Nothing follows a change of injectors that neither adds nor takes an outstanding shot. -/
theorem settle_sameShotsOut (hd : d.settled = true) (h : d.SameButInjs e)
    (hs : ∀ b, e.outstandingShots b = d.outstandingShots b) : settle d e = e := by
  obtain ⟨hbays, hlines, hcw, hpark⟩ := (settled_iff d).mp hd
  obtain ⟨h3, h4⟩ := Device.cwRests_congr h.boot h.cw
  have harm : ∀ a, e.arm a = d.arm a := fun a => by rw [Device.arm, h.arms]; rfl
  have hbay : ∀ b, e.bay b = d.bay b := fun b => by rw [Device.bay, h.bays]; rfl
  have hrests : ∀ b, e.bayRests b = d.bayRests b := fun b => by
    simp only [Device.bayRests, Device.armsSeated, Device.noBatch, Device.hasBatch, Device.armsOf_congr h.armRecs, harm, hbay, hs]
  rw [settle, h.supervise, allBayTests_rest e fun b => (hrests b).trans (hbays b),
    driveOutputs_rest e fun l => (Device.lineRests_congr (fun b => by rw [hbay]) h.lu l).trans (hlines l),
    cwStart_rest e (h3.trans hcw), cwPark_rest e (h4.trans hpark)]

/-- What follows a change of injectors leaves them, the tables and the arms. -/
theorem settle_injectors (h : d.SameButInjs e) : (settle d e).injs = e.injs ∧ (settle d e).injRecs = e.injRecs ∧
    (settle d e).armRecs = d.armRecs ∧ (settle d e).arms = d.arms ∧ (settle d e).custody = e.custody ∧
    e.mp.answers <+: (settle d e).mp.answers := by
  have hf := settle_followed d e
  rw [h.supervise] at hf
  exact ⟨settle_injs d e, by rw [← hf.rest], by rw [← hf.rest, ← h.armRecs], hf.arms.trans h.arms, settle_custody d e, hf.answers⟩

end

/-- A request, served as it arrives, that changes injectors without adding or taking an outstanding shot. -/
theorem request_injectors {s : State} {c : Instr} {k : Nat} {t : Byte} {r : Device → Except Status Device} {e : Device}
    (hq : s.quiet = true) (h : s.dev.SameButInjs e) (hs : ∀ b, e.outstandingShots b = s.dev.outstandingShots b)
    (hf : e.mp.fifo = s.dev.mp.fifo) (hi : e.mp.inService = s.dev.mp.inService)
    (hr : r (s.dev.intoService c) = .ok (e.intoService c)) :
    advance s (fun d => d.request c fun x => x.conclude k t (r x)) = .next (s.answers e k t .ok []) := by
  obtain ⟨-, hd⟩ := s.quiet_iff.mp hq
  rw [request_settles hq hf hi hr,
    settle_sameShotsOut (e := e.reply k t .ok []) hd ⟨h.boot, h.armRecs, h.arms, h.bays, h.cw, h.lu⟩ hs]
  rfl

/-! ### A written entry (R43, Table 3-1) -/

theorem readInjector_eq_some {w : InjectorWrite} {j : InjectorRec} : readInjector w = some j ↔
    fieldAddr w.station = some j.station ∧ inRange 1 255 w.code = some j.code ∧ inRange 10 2000 w.shot = some j.shot ∧
    inRange 100000 99999999 w.kFactor = some j.kFactor ∧ w.acceptance = some j.acceptance ∧
    inRangeOr 1 25 5 w.tolerance = some j.tolerance ∧ inRangeOr 4 32 8 w.window = some j.window ∧
    inRangeOr 1 10 4 w.timeout = some j.timeout := by
  unfold readInjector
  simp only [Option.bind_eq_bind, Option.bind_eq_some_iff]
  constructor
  · rintro ⟨station, h1, code, h2, shot, h3, kFactor, h4, acceptance, h5, tolerance, h6, window, h7, timeout, h8, h9⟩
    obtain rfl := Option.some.inj h9
    exact ⟨h1, h2, h3, h4, h5, h6, h7, h8⟩
  · rintro ⟨h1, h2, h3, h4, h5, h6, h7, h8⟩
    exact ⟨_, h1, _, h2, _, h3, _, h4, _, h5, _, h6, _, h7, _, h8, rfl⟩

/-- Table 3-1: a field that keeps an entry from being read. -/
theorem readInjector_eq_none {w : InjectorWrite}
    (h : outside 1 31 w.station ∨ outside 1 255 w.code ∨ outside 10 2000 w.shot ∨ outside 100000 99999999 w.kFactor ∨
      w.acceptance = none ∨ strays 1 25 w.tolerance ∨ strays 4 32 w.window ∨ strays 1 10 w.timeout) : readInjector w = none := by
  rw [Option.eq_none_iff_forall_ne_some]
  intro j hj
  obtain ⟨h1, h2, h3, h4, h5, h6, h7, h8⟩ := readInjector_eq_some.mp hj
  rcases h with h | h | h | h | h | h | h | h
  · obtain ⟨n, hn, -⟩ := Option.bind_eq_some_iff.mp h1
    exact not_outside_of_inRange hn h
  · exact not_outside_of_inRange h2 h
  · exact not_outside_of_inRange h3 h
  · exact not_outside_of_inRange h4 h
  · exact absurd (h.symm.trans h5) (by simp)
  · exact inRangeOr_eq_some h6 h
  · exact inRangeOr_eq_some h7 h
  · exact inRangeOr_eq_some h8 h

namespace Device

theorem injectorTaken_iff (d : Device) (c : Chan) (n : Addr) :
    d.injectorTaken c n = true ↔ ∃ x j, x ≠ c ∧ d.injRec x = some j ∧ j.station = n := by
  unfold injectorTaken
  rw [List.any_eq_true]
  constructor
  · rintro ⟨x, -, h⟩
    split at h
    next j hj =>
      obtain ⟨h1, h2⟩ := (Bool.and_eq_true _ _).mp h
      exact ⟨x, j, by simpa using h1, hj, by simpa using h2⟩
    next => exact nomatch h
  · rintro ⟨x, j, hx, hj, hn⟩
    refine ⟨x, mem_allSixteen x, ?_⟩
    rw [hj]
    simp [hx, hn]

/-! ### The entry after a write or a clear (R43, R62) -/

/-- R43: a channel's record replaced and everything of the injector reset but its next token. -/
def injectorReset (d : Device) (c : Chan) (r : Option InjectorRec) (st : InjectorState) : Device :=
  (d.setInjRec c r).onInj c fun i => ⟨st, [], none, i.nextToken, none, 0, none⟩

/-- R43, R62: the part after a write of the channel's entry. -/
def injectorWritten (d : Device) (c : Chan) (j : InjectorRec) : Device :=
  if (d.inj c).state = .fault then
    (d.injectorReset c (some j) .available).raise .injector (.injector c) 3 [octets 1 c.val, [0#8], [0#8]]
  else d.injectorReset c (some j) .available

/-- R44, R62: the part after INJECTOR CLEAR of an injector in FAULT. -/
def injectorRestored (d : Device) (c : Chan) : Device :=
  (d.onInj c fun i => { i with state := .available, missed := 0 }).raise .injector (.injector c) 3
    [octets 1 c.val, [0#8], [0#8]]

section Entries
variable (d : Device) (c : Chan)

theorem injectorReset_inj (r : Option InjectorRec) (st : InjectorState) :
    (d.injectorReset c r st).inj c = ⟨st, [], none, (d.inj c).nextToken, none, 0, none⟩ := onInj_inj_same ..

theorem injectorReset_inj_other (r : Option InjectorRec) (st : InjectorState) {x : Chan} (h : x ≠ c) :
    (d.injectorReset c r st).inj x = d.inj x := onInj_inj_other _ _ _ _ h

/-- R61: a reset of an injector with no shot out takes none. -/
theorem injectorReset_shots (r : Option InjectorRec) (st : InjectorState) (hf : (d.inj c).inFlight = [])
    (ho : (d.inj c).offer = none) (b : BayId) : (d.injectorReset c r st).outstandingShots b = d.outstandingShots b := by
  refine (onInj_shots (d := d.setInjRec c r) ⟨?_, ?_⟩ b).trans rfl
  · exact hf.symm
  · show _ = (d.inj c).offer.map Offer.ref
    rw [ho]

theorem injectorReset_sameButInjs (r : Option InjectorRec) (st : InjectorState) : d.SameButInjs (d.injectorReset c r st) :=
  ⟨rfl, rfl, rfl, rfl, rfl, rfl⟩

/-- A write differs from the reset of the entry by at most a notice. -/
theorem injectorWritten_eq (j : InjectorRec) : ∃ l, d.injectorWritten c j =
    (d.injectorReset c (some j) .available).onMp fun m => { m with notices := l } := by
  unfold injectorWritten
  split
  · exact ⟨_, rfl⟩
  · exact ⟨d.mp.notices, rfl⟩

theorem injectorWritten_intoService (i : Instr) (j : InjectorRec) :
    (d.intoService i).injectorWritten c j = (d.injectorWritten c j).intoService i := by
  have hs : ((d.intoService i).inj c).state = (d.inj c).state := rfl
  unfold injectorWritten
  rw [hs]
  split <;> rfl

theorem injectorRestored_sameButInjs : d.SameButInjs (d.injectorRestored c) := ⟨rfl, rfl, rfl, rfl, rfl, rfl⟩

theorem injectorRestored_shots (b : BayId) : (d.injectorRestored c).outstandingShots b = d.outstandingShots b := by
  have hsame : (d.onInj c fun i => { i with state := .available, missed := 0 }).outstandingShots b = d.outstandingShots b :=
    onInj_shots ⟨rfl, rfl⟩ b
  rw [← hsame]
  rfl

variable {d c} {w : InjectorWrite} {j : InjectorRec}

theorem writeInjector_unread (h : readInjector w = none) : d.writeInjector c w = .error .badField := by
  unfold writeInjector
  rw [h]

theorem writeInjector_of_read (h : readInjector w = some j) : d.writeInjector c w =
    if d.injectorTaken c j.station then .error .badField
    else if d.dosingNames c then .error .inUse else .ok (d.injectorWritten c j) := by
  have hreset : (d.setInjRec c (some j)).onInj c (fun i => i.renewed .available) = d.injectorReset c (some j) .available := rfl
  have hnotice : (d.injectorReset c (some j) .available).injNotice c 3 [] =
      (d.injectorReset c (some j) .available).raise .injector (.injector c) 3 [octets 1 c.val, [0#8], [0#8]] := by
    unfold injNotice
    rw [injectorReset_inj]
    rfl
  unfold writeInjector injectorWritten
  simp only [h, hreset, hnotice]

theorem writeInjector_taken (h : readInjector w = some j) (ht : d.injectorTaken c j.station = true) :
    d.writeInjector c w = .error .badField := by
  rw [writeInjector_of_read h, if_pos ht]

theorem writeInjector_inUse (h : readInjector w = some j) (ht : ¬ d.injectorTaken c j.station = true)
    (hn : d.dosingNames c = true) : d.writeInjector c w = .error .inUse := by
  rw [writeInjector_of_read h, if_neg ht, if_pos hn]

theorem writeInjector_ok (h : readInjector w = some j) (ht : ¬ d.injectorTaken c j.station = true)
    (hn : d.dosingNames c = false) : d.writeInjector c w = .ok (d.injectorWritten c j) := by
  rw [writeInjector_of_read h, if_neg ht, if_neg (by rw [hn]; exact Bool.false_ne_true)]

theorem clearInjector_inUse (hn : d.dosingNames c = true) : d.clearInjector c = .error .inUse := if_pos hn

theorem clearInjector_ok (hn : d.dosingNames c = false) : d.clearInjector c = .ok (d.injectorReset c none .disabled) :=
  if_neg (by rw [hn]; exact Bool.false_ne_true)

theorem injectorClear_disabled (h : (d.inj c).state = .disabled) : d.injectorClear c = none := by
  rw [injectorClear, h]

theorem injectorClear_available (h : (d.inj c).state = .available) :
    d.injectorClear c = some (d.onInj c fun i => { i with missed := 0 }) := by
  rw [injectorClear, h]

theorem injectorClear_fault (h : (d.inj c).state = .fault) : d.injectorClear c = some (d.injectorRestored c) := by
  have hnotice : (d.onInj c fun i => { i with state := .available, missed := 0 }).injNotice c 3 [] = d.injectorRestored c := by
    unfold injNotice
    rw [onInj_inj_same]
    rfl
  rw [injectorClear, h]
  exact congrArg some hnotice

end Entries

end Device

theorem next_dev {s : State} {o : Host.Outcome State Fault Refusal} {x : Device} (h : o = .next { s with dev := x }) :
    ∃ u : State, o = .next u ∧ u.pending = s.pending ∧ u.dev = x :=
  ⟨_, h, rfl, rfl⟩

/-- R43: what a request that resets the entry leaves, whatever shots it takes from bays that close. -/
theorem settle_injectorReset {d e : Device} {c : Chan} {r : Option InjectorRec} {st : InjectorState} (h : d.SameButInjs e)
    (hinjs : e.injs = (d.injectorReset c r st).injs) (hrecs : e.injRecs = Bank.write d.injRecs c r)
    (hcustody : e.custody = d.custody) :
    (settle d e).inj c = ⟨st, [], none, (d.inj c).nextToken, none, 0, none⟩ ∧
    (settle d e).injRecs = Bank.write d.injRecs c r ∧ (∀ x, x ≠ c → (settle d e).inj x = d.inj x) ∧
    (settle d e).armRecs = d.armRecs ∧ (settle d e).arms = d.arms ∧ (settle d e).custody = d.custody ∧
    e.mp.answers <+: (settle d e).mp.answers := by
  obtain ⟨sinjs, srecs, sarmRecs, sarms, scustody, sanswers⟩ := settle_injectors h
  have hinj : ∀ x, (settle d e).inj x = (d.injectorReset c r st).inj x := fun x => by
    rw [Device.inj, sinjs, hinjs, ← Device.inj]
  refine ⟨?_, srecs.trans hrecs, fun x hx => ?_, sarmRecs, sarms, scustody.trans hcustody, sanswers⟩
  · rw [hinj, Device.injectorReset_inj]
  · rw [hinj, Device.injectorReset_inj_other _ _ _ _ hx]

/-! ### The requests -/

open Device

theorem exec_tableWriteInjector (s : State) (t : Byte) (c : Chan) (w : InjectorWrite) :
    exec (.tableWriteInjector t (some (c.val, w))) s = advance s fun d =>
      d.request (.tableWriteInjector t (some (c.val, w))) fun e => e.conclude 1 t (e.writeInjector c w) := by
  show execTableWriteInjector t (some (c.val, w)) s = _
  unfold execTableWriteInjector
  simp only [withOps_some, withIndex_val]

theorem exec_tableClearInjector (s : State) (t : Byte) (c : Chan) :
    exec (.tableClearInjector t (some c.val)) s =
      advance s fun d => d.request (.tableClearInjector t (some c.val)) fun e => e.conclude 3 t (e.clearInjector c) := by
  show execTableClearInjector t (some c.val) s = _
  unfold execTableClearInjector
  simp only [withOne_val]

theorem exec_injectorClear (s : State) (t : Byte) (c : Chan) :
    exec (.injectorClear t (some c.val)) s =
      advance s fun d => d.request (.injectorClear t (some c.val)) fun e => e.conclude 15 t (orWrong (e.injectorClear c)) := by
  show execInjectorClear t (some c.val) s = _
  unfold execInjectorClear
  simp only [withOne_val]

section Requests
variable {s : State} {t : Byte} {c : Chan} {w : InjectorWrite} {j : InjectorRec}

/-- R43: a write whose checks pass. -/
theorem tableWriteInjector_settles (hq : s.quiet = true) (hw : readInjector w = some j)
    (ht : ¬ s.dev.injectorTaken c j.station = true) (hn : s.dev.dosingNames c = false) :
    exec (.tableWriteInjector t (some (c.val, w))) s =
      .next { s with dev := settle s.dev ((s.dev.injectorWritten c j).reply 1 t .ok []) } := by
  obtain ⟨l, hl⟩ := s.dev.injectorWritten_eq c j
  rw [exec_tableWriteInjector]
  refine request_settles hq (by rw [hl]; rfl) (by rw [hl]; rfl) ?_
  rw [← injectorWritten_intoService]
  exact writeInjector_ok (d := s.dev.intoService _) hw ht hn

/-- R43: a clear whose check passes. -/
theorem tableClearInjector_settles (hq : s.quiet = true) (hn : s.dev.dosingNames c = false) :
    exec (.tableClearInjector t (some c.val)) s =
      .next { s with dev := settle s.dev ((s.dev.injectorReset c none .disabled).reply 3 t .ok []) } := by
  rw [exec_tableClearInjector]
  exact request_settles hq rfl rfl (clearInjector_ok (d := s.dev.intoService _) hn)

/-- R43: a write whose checks pass, of an injector with no shot out. -/
theorem tableWriteInjector_quiet (hq : s.quiet = true) (hw : readInjector w = some j)
    (ht : ¬ s.dev.injectorTaken c j.station = true) (hn : s.dev.dosingNames c = false) (hf : (s.dev.inj c).inFlight = [])
    (ho : (s.dev.inj c).offer = none) :
    exec (.tableWriteInjector t (some (c.val, w))) s = .next (s.answers (s.dev.injectorWritten c j) 1 t .ok []) := by
  obtain ⟨l, hl⟩ := s.dev.injectorWritten_eq c j
  rw [exec_tableWriteInjector]
  refine request_injectors hq ?_ (fun b => ?_) (by rw [hl]; rfl) (by rw [hl]; rfl) ?_
  · rw [hl]
    exact ⟨rfl, rfl, rfl, rfl, rfl, rfl⟩
  · rw [hl]
    exact injectorReset_shots _ _ _ _ hf ho b
  · rw [← injectorWritten_intoService]
    exact writeInjector_ok (d := s.dev.intoService _) hw ht hn

/-- R44, R62: INJECTOR CLEAR by the injector's state. -/
theorem injectorClear_answers (t : Byte) (c : Chan) (hq : s.quiet = true) :
    ((s.dev.inj c).state = .disabled →
      exec (.injectorClear t (some c.val)) s = .next (s.answers s.dev 15 t .wrongState [])) ∧
    ((s.dev.inj c).state = .available →
      exec (.injectorClear t (some c.val)) s =
        .next (s.answers (s.dev.onInj c fun i => { i with missed := 0 }) 15 t .ok [])) ∧
    ((s.dev.inj c).state = .fault →
      exec (.injectorClear t (some c.val)) s = .next (s.answers (s.dev.injectorRestored c) 15 t .ok [])) := by
  rw [exec_injectorClear]
  refine ⟨fun hs => request_refused hq ?_, fun hs => ?_, fun hs => ?_⟩
  · rw [injectorClear_disabled (d := s.dev.intoService _) hs]
    rfl
  · refine request_injectors (e := s.dev.onInj c fun i => { i with missed := 0 }) hq ⟨rfl, rfl, rfl, rfl, rfl, rfl⟩
      (onInj_shots ⟨rfl, rfl⟩) rfl rfl ?_
    rw [injectorClear_available (d := s.dev.intoService _) hs]
    rfl
  · refine request_injectors hq (s.dev.injectorRestored_sameButInjs c) (s.dev.injectorRestored_shots c) rfl rfl ?_
    rw [injectorClear_fault (d := s.dev.intoService _) hs]
    rfl

end Requests

/-- Settles O18: the fields, then a station shared, then the channel in use; and INJECTOR CLEAR by the injector's state. -/
theorem injectorWriteClearAndRestore : Obligations.InjectorWriteClearAndRestore := by
  refine ⟨fun s t c w hq h => ?_, ?_, fun s t c hq => ?_⟩
  · rw [exec_tableWriteInjector]
    refine request_refused hq ?_
    cases hw : readInjector w with
    | none => exact writeInjector_unread hw
    | some j =>
      have hout : ¬ _ := fun hout => absurd (hw.symm.trans (readInjector_eq_none hout)) (by simp)
      obtain ⟨x, i, hx, hi, hs⟩ : ∃ x i, x ≠ c ∧ s.dev.injRec x = some i ∧ w.station = some i.station.val := by tauto
      obtain ⟨hj, -⟩ := readInjector_eq_some.mp hw
      have hsame : i.station = j.station := Fin.ext (Option.some.inj (hs.symm.trans (fieldAddr_eq_some.mp hj).1))
      exact writeInjector_taken (d := s.dev.intoService _) hw ((injectorTaken_iff ..).mpr ⟨x, i, hx, hi, hsame⟩)
  · intro s t c w st code shot k acc hq hst hcode hshot hk hacc h0 c1 c2 s1 s2 k1 k2 l1 l2 w1 w2 t1 t2 hfree
    have hw : readInjector w = some ⟨st, code, shot, k, acc, w.tolerance.getD 5, w.window.getD 8, w.timeout.getD 4⟩ :=
      readInjector_eq_some.mpr ⟨fieldAddr_eq_some.mpr ⟨hst, h0⟩, inRange_eq_some.mpr ⟨hcode, c1, c2⟩,
        inRange_eq_some.mpr ⟨hshot, s1, s2⟩, inRange_eq_some.mpr ⟨hk, k1, k2⟩, hacc, inRangeOr_getD l1 l2, inRangeOr_getD w1 w2,
        inRangeOr_getD t1 t2⟩
    have ht : ¬ s.dev.injectorTaken c st = true := by
      rw [injectorTaken_iff]
      rintro ⟨x, j, hx, hj, hs⟩
      exact hfree x j hx hj hs
    refine ⟨fun hn hf ho => ⟨⟨_, rfl, tableWriteInjector_quiet hq hw ht hn hf ho⟩, ?_⟩, fun hn => ⟨?_, ?_⟩, fun hn => ⟨?_, ?_⟩⟩
    · rw [exec_tableClearInjector]
      exact request_injectors hq (injectorReset_sameButInjs s.dev c none .disabled) (injectorReset_shots _ _ _ _ hf ho) rfl rfl
        (clearInjector_ok (d := s.dev.intoService _) hn)
    · obtain ⟨l, hl⟩ := s.dev.injectorWritten_eq c
        ⟨st, code, shot, k, acc, w.tolerance.getD 5, w.window.getD 8, w.timeout.getD 4⟩
      obtain ⟨u, hu, hpending, hdev⟩ := next_dev (tableWriteInjector_settles (t := t) hq hw ht hn)
      refine ⟨u, hu, hpending, ?_⟩
      rw [hdev, hl]
      exact settle_injectorReset ⟨rfl, rfl, rfl, rfl, rfl, rfl⟩ rfl rfl rfl
    · obtain ⟨u, hu, hpending, hdev⟩ := next_dev (tableClearInjector_settles (t := t) hq hn)
      refine ⟨u, hu, hpending, ?_⟩
      rw [hdev]
      exact settle_injectorReset ⟨rfl, rfl, rfl, rfl, rfl, rfl⟩ rfl rfl rfl
    · rw [exec_tableWriteInjector]
      exact request_refused hq (writeInjector_inUse (d := s.dev.intoService _) hw ht hn)
    · rw [exec_tableClearInjector]
      exact request_refused hq (clearInjector_inUse (d := s.dev.intoService _) hn)
  · obtain ⟨hdisabled, havailable, hfault⟩ := injectorClear_answers t c hq
    cases hs : (s.dev.inj c).state with
    | disabled => exact hdisabled hs
    | available => exact havailable hs
    | fault => exact hfault hs

end Sys2Proof.Machine
end

