-- ==== Sys2Proof/Proofs/Rests.lean ====
section
/-! Every step leaves every block at rest (R75, R80, R83, R114, R123, R163): what follows an event leaves nothing to do, and a
command that no event follows touches nothing that a block watches. -/

namespace Sys2Proof.Machine

open Sys2Proof

namespace Device

/-! ### The tests of a bay (R75, R80, R83) -/

theorem bayRests_iff (d : Device) (b : BayId) : d.bayRests b = true ↔
    ¬ ((d.bay b).causes.valve = true ∧ d.armsSeated b = true) ∧
    ¬ ((d.bay b).state = .holding ∧ ((d.armsOf b).all fun a => (d.arm a).position == .closed) = true) ∧
    ¬ ((d.bay b).state = .closing ∧ d.noBatch b = true ∧ d.outstandingShots b = 0) := by
  simp only [Device.bayRests, Bool.and_eq_true, Bool.not_eq_true', ← Bool.not_eq_true, beq_iff_eq, and_assoc]

theorem enterState_causes (d : Device) (b : BayId) (st : BayState) :
    ((d.enterState b st).bay b).causes = (d.bay b).causes := by
  rw [enterState, onBay_bay_same]
  split <;> rfl

theorem OfBay.armsOf {b : BayId} {d e : Device} (h : d.OfBay b e) (y : BayId) : e.armsOf y = d.armsOf y :=
  armsOf_congr h.spares.armRecs y

theorem OfBay.armsSeated {b : BayId} {d e : Device} (h : d.OfBay b e) : e.armsSeated b = d.armsSeated b := by
  simp only [Device.armsSeated, h.armsOf, h.arm]

/-- R82: the load test brings no cause. -/
theorem loadTest_valve {d : Device} {b : BayId} (h : (d.bay b).causes.valve = false) :
    ((d.loadTest b).bay b).causes.valve = false := by
  cases ho : d.orderOf b with
  | none => rw [loadTest, ho]; exact h
  | some o =>
    obtain ⟨hdone, hnot⟩ := loadTest_eq ho
    by_cases hl : d.loadDone b o
    · rw [hdone hl, closeLoad_of_none hl.2.2, bayNotice_bay, onBay_bay_same]
      rfl
    · rw [hnot hl]
      exact h

/-- R75: a cause cleared is out of the set. -/
theorem clearCause_valve (d : Device) (b : BayId) : ((d.clearCause b .valve).bay b).causes.valve = false := by
  unfold clearCause
  dsimp only
  split
  next h => simpa only [CauseSet.has, Bool.not_eq_true'] using h
  have hd1 : (((d.onBay b fun x => { x with causes := x.causes.put .valve false }).bayNotice b 10 []).bay b).causes.valve = false := by
    rw [bayNotice_bay, onBay_bay_same]
    rfl
  generalize (d.onBay b fun x => { x with causes := x.causes.put .valve false }).bayNotice b 10 [] = d1 at hd1 ⊢
  split
  · split
    · rw [enterHeld, bayNotice_bay, onBay_bay_same]
      dsimp only
      rw [enterState_causes, onBay_bay_same]
      exact hd1
    · refine loadTest_valve ?_
      rw [bayNotice_bay, enterState_causes, onBay_bay_same]
      exact hd1
  · exact hd1

theorem valveTest_clears (d : Device) (b : BayId) :
    ¬ (((d.valveTest b).bay b).causes.valve = true ∧ (d.valveTest b).armsSeated b = true) := by
  unfold valveTest
  split
  · rw [clearCause_valve]
    exact fun h => nomatch h.1
  next h => exact h

theorem grantHold_causes (d : Device) (b : BayId) : ((d.grantHold b).bay b).causes = (d.bay b).causes := by
  unfold grantHold
  split
  · rw [bayNotice_bay, enterState_causes]
  · rfl

theorem grantHold_grants (d : Device) (b : BayId) : ¬ (((d.grantHold b).bay b).state = .holding ∧
    (((d.grantHold b).armsOf b).all fun a => ((d.grantHold b).arm a).position == .closed) = true) := by
  unfold grantHold
  split
  · rw [bayNotice_bay, enterState_state]
    exact fun h => nomatch h.1
  next h => exact h

/-- R75, R80, R83: after its tests a bay has none left to take. -/
theorem bayTests_rests (d : Device) (b : BayId) : (d.bayTests b).bayRests b = true := by
  have hgrant := grantHold_ofBay (d.valveTest b) b
  have hvalve : ¬ ((((d.valveTest b).grantHold b).bay b).causes.valve = true ∧ ((d.valveTest b).grantHold b).armsSeated b = true) := by
    rw [grantHold_causes, hgrant.armsSeated]
    exact valveTest_clears d b
  have hhold := grantHold_grants (d.valveTest b) b
  rw [bayTests]
  generalize (d.valveTest b).grantHold b = e at hvalve hhold
  by_cases h : (e.bay b).state = .closing ∧ e.noBatch b = true ∧ e.outstandingShots b = 0
  · obtain ⟨h1, h2, h3⟩ := h
    have hof := closingTest_ofBay e b
    have hbay := closingTest_bay h1 h2 h3
    rw [bayRests_iff, hof.armsSeated, hbay]
    exact ⟨hvalve, fun k => (nomatch k.1), fun k => (nomatch k.1)⟩
  · rw [show e.closingTest b = e from if_neg h, bayRests_iff]
    exact ⟨hvalve, hhold, h⟩

/-- The tests of other bays leave a bay as it rests. -/
theorem foldl_bayTests_rests (l : List BayId) (d : Device) (b : BayId) (h : b ∈ l ∨ d.bayRests b = true) :
    (l.foldl bayTests d).bayRests b = true := by
  induction l generalizing d with
  | nil => exact h.resolve_left List.not_mem_nil
  | cons y t ih =>
    refine ih _ ?_
    by_cases hy : b = y
    · rw [hy]
      exact .inr (bayTests_rests d y)
    · rw [(bayTests_ofBay d y).spares.bayRests hy]
      exact h.imp_left fun hm => (List.mem_cons.mp hm).resolve_left hy

/-! ### The output drives (R163) -/

theorem refreshLine_wanted (d : Device) (l : LineId) (f : LineFn) (v : Bool) :
    (d.refreshLine l).wantedDrive f v = d.wantedDrive f v := by cases f <;> rfl

theorem refreshLine_rests (d : Device) (l : LineId) : (d.refreshLine l).lineRests l = true := by
  have hline : (d.refreshLine l).line l = { d.line l with
      drive := if isOutput (d.line l).mode then some (d.wantedDrive (d.line l).func ((d.line l).drive.getD false)) else none } :=
    onLine_line_same ..
  rw [Device.lineRests, refreshLine_wanted, hline, beq_iff_eq]
  dsimp only
  split
  · cases (d.line l).func <;> rfl
  · rfl

theorem refreshLine_other (d : Device) {l k : LineId} (h : k ≠ l) : (d.refreshLine l).lineRests k = d.lineRests k := by
  have hline : (d.refreshLine l).line k = d.line k := onLine_line_other _ _ _ _ h
  rw [Device.lineRests, Device.lineRests, refreshLine_wanted, hline]

theorem foldl_refreshLine_rests (t : List LineId) (d : Device) (l : LineId) (h : l ∈ t ∨ d.lineRests l = true) :
    (t.foldl refreshLine d).lineRests l = true := by
  induction t generalizing d with
  | nil => exact h.resolve_left List.not_mem_nil
  | cons k t ih =>
    refine ih _ ?_
    by_cases hk : l = k
    · rw [hk]
      exact .inr (refreshLine_rests d k)
    · rw [refreshLine_other d hk]
      exact h.imp_left fun hm => (List.mem_cons.mp hm).resolve_left hk

/-! ### CW's work (R114, R123) -/

theorem cwRests_of_write {d : Device} (h : d.cw.write.isSome = true) : d.cwRests = true := by
  rw [Device.cwRests, h]
  rfl

/-- R116, R118: once CW has looked at the barrier at the head, a write is in progress or the barrier is held. -/
theorem lookAtBarrier_rests {d : Device} {e : QEntry} {x : Barrier} {rest : List QEntry} (hr : d.cw.releases = [])
    (hq : d.cw.queue = e :: rest) (he : e.body = .barrier x) (hs : e.started = false) :
    (d.lookAtBarrier e x rest).cwRests = true := by
  cases ha : d.recoveryArms x.image with
  | cons a t =>
    obtain ⟨hcw, -⟩ := lookAtBarrier_recovers e rest ha
    exact cwRests_of_write (by rw [hcw]; rfl)
  | nil =>
    by_cases hn : d.nextNumber < 4294967296
    · exact cwRests_of_write (by rw [lookAtBarrier_starts e rest ha hn]; rfl)
    · have hcw := lookAtBarrier_exhausted e rest ha (Nat.not_lt.mp hn)
      have hwaits : (d.lookAtBarrier e x rest).headWaits = true := by
        simp only [Device.headWaits, hcw, hq, he, hs, Bool.not_false, Bool.true_and, beq_self_eq_true]
      simp only [Device.cwRests, hwaits, hcw, hr, List.isEmpty_nil, Bool.and_self, Bool.or_true]

/-- R114: after CW has taken work it has none to take. -/
theorem cwStart_rests (d : Device) : d.cwStart.cwRests = true := by
  unfold cwStart
  split
  next h => rw [Device.cwRests, h, Bool.true_or]
  split
  · exact cwRests_of_write rfl
  next hr =>
    split
    next hq => simp only [Device.cwRests, Device.headWaits, hr, hq, List.isEmpty_nil, Bool.and_self, Bool.or_true]
    next e rest hq =>
      split
      · exact cwRests_of_write rfl
      next x he =>
        split
        · exact cwRests_of_write rfl
        next hs =>
          have hs : e.started = false := Bool.eq_false_iff.mpr hs
          split
          next h hh =>
            split
            next hb =>
              simp only [Device.cwRests, Device.headWaits, hr, hq, he, hh, hs, hb, List.isEmpty_nil, Bool.not_false,
                Bool.true_and, beq_self_eq_true, Bool.or_true]
            · exact lookAtBarrier_rests hr hq he hs
          · exact lookAtBarrier_rests hr hq he hs

theorem serveWaiting_mode (d : Device) (v : Bool) : (d.serveWaiting v).cw.mode = d.cw.mode := by
  unfold serveWaiting
  split
  · rfl
  · split <;> rfl

theorem resumeRead_mode (d : Device) : d.resumeRead.cw.mode = d.cw.mode := by
  unfold resumeRead
  split
  · split
    · split
      · unfold takeRead
        split <;> rfl
      · rfl
    · rfl
  · rfl

/-- R123: a CW that does not park is not about to, and one that parks has no work to take. -/
theorem cwPark_rests {d : Device} (h : d.cwRests = true) : d.cwPark.cwRests = true ∧ d.cwPark.parkRests = true := by
  by_cases hp : d.boot = .ready ∧ d.cw.mode = .draining ∧ d.cw.write = none ∧ d.cw.releases = [] ∧ d.cw.queue = []
  · have hboot : d.cwPark.boot = .ready := by rw [← cwPark_frame]; exact hp.1
    have hmode : d.cwPark.cw.mode = .parked := by
      rw [cwPark, if_pos hp, resumeRead_mode, serveWaiting_mode]
      rfl
    have hidle : d.cwPark.cwMayWork = false := by rw [cwMayWork, hboot, hmode]; rfl
    have hpark : d.cwPark.parkRests = true := by rw [Device.parkRests, hmode]; simp
    exact ⟨by simp [Device.cwRests, hidle], hpark⟩
  · have hself : d.cwPark = d := if_neg hp
    rw [hself]
    refine ⟨h, ?_⟩
    simp only [Device.parkRests, Bool.not_eq_true', ← Bool.not_eq_true, Bool.and_eq_true, beq_iff_eq, List.isEmpty_iff, and_assoc]
    exact hp

/-- R114, R163: with the tests of the bays taken, the drives brought and CW's work taken up leave every block at rest. -/
theorem windUp_settled {d : Device} (h : ∀ b, d.bayRests b = true) : d.windUp.settled = true := by
  have hlu : d.windUp.lu = d.driveOutputs.lu := by rw [windUp, ← cwPark_frame, ← cwStart_frame]
  have hcw : d.windUp.cwRests = true ∧ d.windUp.parkRests = true := by
    rw [windUp]
    exact cwPark_rests (cwStart_rests d.driveOutputs)
  have hdriven : d.driveOutputs.bays = d.bays := by rw [← driveOutputs_frame]
  have hframe := windUp_rest d
  generalize d.windUp = e at hlu hcw hframe ⊢
  have hrecs : e.armRecs = d.armRecs := by rw [← hframe]
  have hinjs : e.injs = d.injs := by rw [← hframe]
  have harms : e.arms = d.arms := by rw [← hframe]
  have hbays : e.bays = d.bays := by rw [← hframe]
  have harm : ∀ a, e.arm a = d.arm a := fun a => by rw [arm, arm, harms]
  have hbay : ∀ b, e.bay b = d.bay b := fun b => by rw [bay, bay, hbays]
  have hstate : ∀ b, (e.bay b).state = (d.driveOutputs.bay b).state := fun b => by rw [hbay, bay, bay, hdriven]
  refine (settled_iff e).mpr ⟨fun b => ?_, fun l => ?_, hcw.1, hcw.2⟩
  · rw [bayRests_congr hrecs hinjs (fun a => by rw [harm]; exact ⟨rfl, rfl, rfl⟩) (by rw [hbay]) (by rw [hbay])]
    exact h b
  · rw [lineRests_congr hstate hlu l]
    exact foldl_refreshLine_rests _ _ _ (.inl (mem_allSixteen l))

end Device

/-! ### What follows an event -/

/-- Whatever an event brings, what follows it leaves every block at rest. -/
theorem settle_settled (old new : Device) : (settle old new).settled = true := by
  rw [settle]
  exact Device.windUp_settled fun b => Device.foldl_bayTests_rests _ _ _ (.inl (Device.mem_allBays b))

namespace Device

theorem event_settled (d : Device) (f : Device → Device) : (d.event f).settled = true := settle_settled ..

theorem foldl_event_settled {α : Type} (f : α → Device → Device) (l : List α) {d : Device} (h : d.settled = true) :
    (l.foldl (fun e x => e.event (f x)) d).settled = true := by
  induction l generalizing d with
  | nil => exact h
  | cons x t ih =>
    rw [List.foldl_cons]
    exact ih (event_settled d (f x))

/-! ### Resets (R124, R125) -/

/-- A part whose bays are CLOSED, whose lines are inputs and whose CW has nothing queued is at rest. -/
theorem settled_of_idle {d : Device} (hb : ∀ b, (d.bay b).state = .closed ∧ (d.bay b).causes = .empty)
    (hl : ∀ l, (d.line l).mode = .input ∧ (d.line l).drive = none) (hm : d.cw.mode = .running) (hr : d.cw.releases = [])
    (hq : d.cw.queue = []) : d.settled = true := by
  refine (settled_iff d).mpr ⟨fun b => ?_, fun l => ?_, ?_, ?_⟩
  · obtain ⟨hs, hc⟩ := hb b
    rw [bayRests_iff, hs, hc]
    exact ⟨fun h => (nomatch h.1), fun h => (nomatch h.1), fun h => (nomatch h.1)⟩
  · obtain ⟨hmode, hdrive⟩ := hl l
    rw [Device.lineRests, hmode, hdrive]
    rfl
  · simp [Device.cwRests, Device.headWaits, hr, hq]
  · simp [Device.parkRests, hm]

theorem cleared_bay (boot : Boot) (cuts : Nat) (m : Custody) (pins : Vector Level 16) (b : BayId) :
    (cleared boot cuts m pins).bay b = Bay.reset := by simp [cleared, bay]

theorem cleared_line (boot : Boot) (cuts : Nat) (m : Custody) (pins : Vector Level 16) (l : LineId) :
    (cleared boot cuts m pins).line l = Line.reset (Bank.read pins l) := by simp [cleared, line, Lu.reset]

theorem foldl_armNotice_frame (n : Nat) (f : List (List Byte)) (l : List ArmId) (d : Device) :
    { d with mp := (l.foldl (fun e a => e.armNotice a n f) d).mp } = l.foldl (fun e a => e.armNotice a n f) d := by
  induction l generalizing d with
  | nil => rfl
  | cons a t ih => rw [List.foldl_cons, ← ih]; rfl

/-- R125: besides what it loads, the scan changes the boot state, the ports and the write in progress. -/
theorem scan_frame (d : Device) (tag : Option Byte) : { d.loadScan with
    boot := (d.scan tag).boot, mp := (d.scan tag).mp, cw := { d.loadScan.cw with write := (d.scan tag).cw.write } } = d.scan tag := by
  unfold scan
  dsimp only
  rw [← foldl_armNotice_frame 13 []]
  split <;> split <;> rfl

theorem resetWith_settled (d : Device) (m : Custody) (cuts : Nat) (tag : Option Byte) : (d.resetWith m cuts tag).settled = true := by
  have hframe := scan_frame (cleared .ready cuts m d.pins) tag
  refine settled_of_idle (fun b => ?_) (fun l => ?_) ?_ ?_ ?_ <;> rw [resetWith, ← hframe]
  · have hbay := cleared_bay .ready cuts m d.pins b
    exact ⟨congrArg Bay.state hbay, congrArg Bay.causes hbay⟩
  · have hline := cleared_line .ready cuts m d.pins l
    exact ⟨congrArg Line.mode hline, congrArg Line.drive hline⟩
  all_goals rfl

theorem powerLost_settled (d : Device) : d.powerLost.settled = true := by
  refine settled_of_idle (fun b => ?_) (fun l => ?_) rfl rfl rfl <;> rw [powerLost]
  · rw [cleared_bay]
    exact ⟨rfl, rfl⟩
  · rw [cleared_line]
    exact ⟨rfl, rfl⟩

theorem drainTest_settled {d : Device} (h : d.settled = true) : d.drainTest.settled = true := by
  rcases drainTest_cases d with ⟨t, -, -, -, -, -, ht⟩ | ht
  · rw [ht]
    exact resetWith_settled ..
  · rwa [ht]

/-! ### The part's own time -/

theorem tick_arm (d : Device) (a : ArmId) : ∃ n, d.tick.arm a = { d.arm a with travel := n } ∧ (n = none ↔ (d.arm a).travel = none) := by
  unfold tick
  split
  · exact ⟨_, rfl, Iff.rfl⟩
  · exact ⟨(d.arm a).travel.map (· - 1), Bank.read_map .., Option.map_eq_none_iff⟩

theorem tick_bay (d : Device) (b : BayId) : ∃ x y, d.tick.bay b = { d.bay b with authTimer := x, resumeTimer := y } := by
  unfold tick
  split
  · exact ⟨_, _, rfl⟩
  · exact ⟨_, _, Bank.read_map ..⟩

theorem tick_line (d : Device) (l : LineId) : ∃ n, d.tick.line l = { d.line l with timer := n } := by
  unfold tick
  split
  · exact ⟨_, rfl⟩
  · exact ⟨_, Bank.read_map ..⟩

theorem tick_rest (d : Device) : d.tick.boot = d.boot ∧ d.tick.armRecs = d.armRecs ∧ d.tick.injs = d.injs ∧ d.tick.cw = d.cw ∧
    d.tick.lu.esd = d.lu.esd := by
  unfold tick
  split <;> exact ⟨rfl, rfl, rfl, rfl, rfl⟩

/-- 1 ms on, no block has more to do: a timer that runs goes on running. -/
theorem tick_settled {d : Device} (h : d.settled = true) : d.tick.settled = true := by
  obtain ⟨hbays, hlines, hcw, hpark⟩ := (settled_iff d).mp h
  obtain ⟨hboot, hrecs, hinjs, hcweq, hesd⟩ := tick_rest d
  obtain ⟨hcw', hpark'⟩ := cwRests_congr hboot hcweq
  have hstate : ∀ b, (d.tick.bay b).state = (d.bay b).state ∧ (d.tick.bay b).causes = (d.bay b).causes := fun b => by
    obtain ⟨x, y, hb⟩ := tick_bay d b
    rw [hb]
    exact ⟨rfl, rfl⟩
  have hpos : ∀ a, (d.tick.arm a).position = (d.arm a).position ∧ ((d.tick.arm a).travel == none) = ((d.arm a).travel == none) ∧
      (d.tick.arm a).batch = (d.arm a).batch := fun a => by
    obtain ⟨n, ha, hn⟩ := tick_arm d a
    rw [ha]
    exact ⟨rfl, by rw [Bool.eq_iff_iff, beq_iff_eq, beq_iff_eq]; exact hn, rfl⟩
  have hshots : ∀ b, d.tick.outstandingShots b = d.outstandingShots b :=
    outstandingShots_congr hrecs fun c => by rw [inj, hinjs]; exact ⟨rfl, rfl⟩
  refine (settled_iff _).mpr ⟨fun b => ?_, fun l => ?_, hcw'.trans hcw, hpark'.trans hpark⟩
  · rw [← hbays b]
    simp only [Device.bayRests, armsSeated, noBatch, hasBatch, armsOf_congr hrecs, hstate, hpos, hshots]
  · obtain ⟨n, hline⟩ := tick_line d l
    have hwant : ∀ f v, d.tick.wantedDrive f v = d.wantedDrive f v := fun f v => by
      unfold wantedDrive
      simp only [hstate, hesd]
    rw [← hlines l, Device.lineRests, Device.lineRests, hline, hwant]

/-! ### The loop (R143, R144) -/

/-- From `d` to `e` shots may come on offer, and nothing else that a block watches changes. -/
structure OffersMore (d e : Device) : Prop where
  rest  : { d with injs := e.injs, lm := e.lm, mp := e.mp } = e
  shots : ∀ b, d.outstandingShots b ≤ e.outstandingShots b

theorem OffersMore.refl (d : Device) : d.OffersMore d := ⟨rfl, fun _ => le_rfl⟩

theorem OffersMore.trans {d e f : Device} (h : d.OffersMore e) (k : e.OffersMore f) : d.OffersMore f :=
  ⟨by rw [← k.rest, ← h.rest], fun b => (h.shots b).trans (k.shots b)⟩

/-- R83: a closing that waits goes on waiting when shots come on offer. -/
theorem OffersMore.settled {d e : Device} (h : d.OffersMore e) (hd : d.settled = true) : e.settled = true := by
  obtain ⟨hbays, hlines, hcw, hpark⟩ := (settled_iff d).mp hd
  obtain ⟨hrest, hshots⟩ := h
  refine (settled_iff e).mpr ⟨fun b => ?_, ?_, ?_, ?_⟩
  · obtain ⟨h1, h2, h3⟩ := (bayRests_iff d b).mp (hbays b)
    have hzero : e.outstandingShots b = 0 → d.outstandingShots b = 0 := fun hz => Nat.le_zero.mp (hz ▸ hshots b)
    rw [← hrest] at hzero
    rw [bayRests_iff, ← hrest]
    exact ⟨h1, h2, fun ⟨hs, hn, hz⟩ => h3 ⟨hs, hn, hzero hz⟩⟩
  all_goals rw [← hrest]; assumption

theorem offerShot_offersMore (d : Device) (c : Chan) : d.OffersMore (d.offerShot c) := by
  unfold offerShot
  split
  · exact .refl d
  split
  · exact .refl d
  next hno =>
    split
    · exact .refl d
    next r _ =>
      have hnone : (d.inj c).offer = none := by
        simp only [Bool.or_eq_true, not_or, Bool.not_eq_true, Option.isSome_eq_false_iff, Option.isNone_iff_eq_none] at hno
        exact hno.1
      refine ⟨rfl, fun b => ?_⟩
      rw [outstandingShots_eq, outstandingShots_eq]
      refine List.sum_le_sum fun x _ => ?_
      simp only [onInj_inj, armRec, onInj_armRecs]
      by_cases hx : x = c
      · subst hx
        rw [if_pos rfl, hnone]
        exact Nat.add_le_add_left (Nat.zero_le _) _
      · rw [if_neg hx]
        exact le_rfl

theorem call_offersMore (d : Device) (n : Addr) : d.OffersMore (d.call n).1 := by
  unfold call
  dsimp only
  split
  · exact .refl d
  split
  all_goals try exact .refl d
  · split
    · split
      · exact offerShot_offersMore ..
      · exact .refl d
    · exact .refl d
  · split
    · split <;> exact .refl d
    · exact .refl d

theorem callSlots_offersMore (l : List Addr) (d : Device) : d.OffersMore (d.callSlots l).1 := by
  induction l generalizing d with
  | nil => exact .refl d
  | cons n t ih => exact (call_offersMore d n).trans (ih _)

theorem launch_offersMore (d : Device) : d.OffersMore d.launch := by
  unfold launch
  dsimp only
  refine OffersMore.trans (OffersMore.trans ?_ (callSlots_offersMore _ _)) ⟨rfl, fun _ => le_rfl⟩
  split
  · exact ⟨rfl, fun _ => le_rfl⟩
  · exact .refl d

theorem loopReturned_sameView (d : Device) : d.SameView d.loopReturned := by
  unfold loopReturned
  dsimp only
  split <;> exact ⟨rfl, rfl, rfl, rfl, rfl, rfl, rfl⟩

theorem loopTimedOut_sameView (d : Device) : d.SameView d.loopTimedOut := by
  unfold loopTimedOut
  dsimp only
  split <;> exact ⟨rfl, rfl, rfl, rfl, rfl, rfl, rfl⟩

theorem onMp_sameView (d : Device) (f : Mp → Mp) : d.SameView (d.onMp f) := ⟨rfl, rfl, rfl, rfl, rfl, rfl, rfl⟩

theorem roundEnd_settled {d : Device} (h : d.settled = true) : d.roundEnd.settled = true :=
  foldl_event_settled (fun n x => x.wordInForce n) allAddrs h

theorem sweepBack_settled (d : Device) (s : Sweep) (f : List Byte) : (d.sweepBack s f).settled = true := by
  unfold sweepBack
  dsimp only
  rw [(onMp_sameView ..).settled]
  exact event_settled ..

theorem sweepTimedOut_settled {d : Device} (s : Sweep) (h : d.settled = true) : (d.sweepTimedOut s).settled = true := by
  have hslots := foldl_event_settled (fun n x => x.slotMissing s n) s.slots ((loopTimedOut_sameView d).settled.trans h)
  have hround : (if s.index = 15 then (s.slots.foldl (fun e n => e.event fun x => x.slotMissing s n) d.loopTimedOut).roundEnd
      else s.slots.foldl (fun e n => e.event fun x => x.slotMissing s n) d.loopTimedOut).settled = true := by
    split
    · exact roundEnd_settled hslots
    · exact hslots
  exact (SameView.settled ⟨rfl, rfl, rfl, rfl, rfl, rfl, rfl⟩).trans hround

theorem loopIn_settled {d : Device} (f : List Byte) (h : d.settled = true) : (d.loopIn f).settled = true := by
  unfold loopIn
  split
  · exact h
  split
  · exact h
  split
  · exact sweepBack_settled ..
  · exact drainTest_settled ((loopReturned_sameView d).settled.trans h)
  all_goals exact h

theorem sweepExpired_settled {d : Device} (h : d.settled = true) : d.sweepExpired.settled = true := by
  unfold sweepExpired
  split
  · exact h
  split
  · exact sweepTimedOut_settled _ h
  · exact drainTest_settled ((loopTimedOut_sameView d).settled.trans h)
  all_goals exact h

/-! ### Requests (R175) -/

theorem request_settled {d : Device} (c : Instr) (run : Device → Device) (h : d.settled = true) :
    (d.request c run).settled = true := by
  obtain ⟨he, -⟩ | ⟨he, -⟩ | ⟨he, -⟩ | ⟨he, -⟩ := request_cases d c run <;> rw [he]
  · exact h
  · exact settle_settled ..
  all_goals exact (onMp_sameView ..).settled.trans h

end Device

/-! ### The commands -/

/-- The part of the next state, where there is one, is at rest when the part was. -/
def NextSettled (s : State) (o : Host.Outcome State Fault Refusal) : Prop :=
  s.dev.settled = true → ∀ t, o = .next t → t.dev.settled = true

theorem advance_settled {s : State} {f : Device → Device} (h : s.dev.settled = true → (f s.dev).settled = true) :
    NextSettled s (advance s f) := fun hs _ ht => Host.Outcome.next.inj ht ▸ h hs

theorem served_settled {s : State} {c : Instr} {run : Device → Device} : NextSettled s (advance s fun d => d.request c run) :=
  advance_settled (Device.request_settled c run)

/-- A command that acts when its timer runs. -/
theorem advance_event_settled {s : State} {c : Device → Prop} [DecidablePred c] {f : Device → Device} :
    NextSettled s (advance s fun d => if c d then d.event f else d) := by
  refine advance_settled fun h => ?_
  split
  · exact Device.event_settled ..
  · exact h

theorem execShotTimeout_settled (c : Chan) (token : Nat) (s : State) : NextSettled s (execShotTimeout c token s) := by
  refine advance_settled fun h => ?_
  split
  · exact Device.event_settled ..
  · exact h

/-- A pin that comes to a level leaves the line's drive and what its function gives. -/
theorem onLine_pin_settled {d : Device} (l : LineId) (v : Level) (h : d.settled = true) :
    (d.onLine l fun x => { x with pin := v }).settled = true := by
  obtain ⟨hbays, hlines, hcw, hpark⟩ := (settled_iff d).mp h
  refine (settled_iff _).mpr ⟨hbays, fun k => ?_, hcw, hpark⟩
  rw [← hlines k, Device.lineRests, Device.lineRests, Device.onLine_line]
  have hwant : ∀ f x, (d.onLine l fun x => { x with pin := v }).wantedDrive f x = d.wantedDrive f x := fun f _ => by cases f <;> rfl
  rw [hwant]
  split
  next hk => rw [hk]
  next => rfl

theorem execPinLevelChange_settled (l : LineId) (v : Level) (s : State) : NextSettled s (execPinLevelChange l v s) := by
  refine advance_settled fun h => ?_
  split
  · exact onLine_pin_settled l v h
  · exact Device.event_settled ..

theorem execHardReset_settled (s : State) : NextSettled s (execHardReset s) := advance_settled fun _ => Device.resetWith_settled ..

theorem execPowerLoss_settled (s : State) : NextSettled s (execPowerLoss s) := advance_settled fun _ => Device.powerLost_settled _

theorem execSweepLaunch_settled (s : State) : NextSettled s (execSweepLaunch s) := by
  refine advance_settled fun h => ?_
  split
  · exact (Device.launch_offersMore _).settled h
  · exact h

theorem execSweepReturn_settled (f : List Byte) (s : State) : NextSettled s (execSweepReturn f s) :=
  advance_settled (Device.loopIn_settled f)

theorem execFrameDiscarded_settled (f : List Byte) (s : State) : NextSettled s (execFrameDiscarded f s) :=
  advance_settled (Device.loopIn_settled f)

theorem execSweepTimeout_settled (s : State) : NextSettled s (execSweepTimeout s) := advance_settled Device.sweepExpired_settled

theorem execAuthorizationTimerExpiry_settled (b : BayId) (s : State) : NextSettled s (execAuthorizationTimerExpiry b s) :=
  advance_event_settled

theorem execResumeTimerExpiry_settled (b : BayId) (s : State) : NextSettled s (execResumeTimerExpiry b s) := advance_event_settled

theorem execTravelTimerExpiry_settled (a : ArmId) (s : State) : NextSettled s (execTravelTimerExpiry a s) :=
  advance_settled fun _ => Device.event_settled ..

theorem execRackClockSecond_settled (s : State) : NextSettled s (execRackClockSecond s) :=
  advance_settled (Device.onMp_sameView _ _).settled.trans

theorem execDebounceTimerExpiry_settled (l : LineId) (s : State) : NextSettled s (execDebounceTimerExpiry l s) :=
  advance_settled fun _ => Device.event_settled ..

theorem execCustodyWriteComplete_settled (good : Bool) (s : State) : NextSettled s (execCustodyWriteComplete good s) :=
  advance_settled fun _ => Device.drainTest_settled (Device.event_settled ..)

theorem execRestart_settled (t : Byte) (ops : Option Unit) (s : State) : NextSettled s (execRestart t ops s) :=
  advance_settled fun h => Device.drainTest_settled (Device.request_settled _ _ h)

theorem exec_settled (i : Instr) (s : State) : NextSettled s (exec i s) := by
  cases i with
  | hardReset => exact execHardReset_settled s
  | powerLoss => exact execPowerLoss_settled s
  | sweepLaunch => exact execSweepLaunch_settled s
  | sweepReturn => exact execSweepReturn_settled _ s
  | frameDiscarded => exact execFrameDiscarded_settled _ s
  | sweepTimeout => exact execSweepTimeout_settled s
  | authorizationTimerExpiry => exact execAuthorizationTimerExpiry_settled _ s
  | resumeTimerExpiry => exact execResumeTimerExpiry_settled _ s
  | travelTimerExpiry => exact execTravelTimerExpiry_settled _ s
  | shotTimeout => exact execShotTimeout_settled _ _ s
  | rackClockSecond => exact execRackClockSecond_settled s
  | pinLevelChange => exact execPinLevelChange_settled _ _ s
  | debounceTimerExpiry => exact execDebounceTimerExpiry_settled _ s
  | custodyWriteComplete => exact execCustodyWriteComplete_settled _ s
  | restart => exact execRestart_settled _ _ s
  | _ => exact served_settled

theorem idle_settled (s : State) : NextSettled s (idle s) := by
  unfold idle
  dsimp only
  intro h
  have htick := Device.tick_settled h
  split
  · exact exec_settled _ _ htick
  · exact fun t ht => Host.Outcome.next.inj ht ▸ htick

theorem step_settled (s : State) : NextSettled s (step s) := by
  unfold step
  split
  · exact idle_settled s
  next c rest _ => exact exec_settled c { s with pending := rest }

/-- Settles O5: what follows every event leaves every block at rest, and nothing else that a step does gives a block work. -/
theorem stepLeavesNothingUndone : Obligations.StepLeavesNothingUndone := fun s t h ht => step_settled s h t ht

end Sys2Proof.Machine
end

