-- ==== Sys2Proof/Proofs/BayTable.lean ====
section
/-! TABLE WRITE and TABLE CLEAR of a bay record (R64, R166). -/

namespace Sys2Proof.Machine

open Sys2Proof

/-! ### The bay's fields (R64, Table 4-1) -/

theorem readSource_eq_some {s : Source} {p : PermSource} : readSource s = some p ↔ s = p.written ∧ p ≠ .station 0 := by
  cases s with
  | station n =>
    cases p with
    | station m =>
      simp only [readSource, Option.map_eq_some_iff, PermSource.station.injEq, exists_eq_right, fieldAddr_eq_some, PermSource.written,
        Source.station.injEq, Option.some.injEq, ne_eq]
    | line m => simp [readSource, PermSource.written]
  | line n =>
    cases p with
    | station m => simp [readSource, PermSource.written]
    | line m =>
      simp only [readSource, Option.map_eq_some_iff, PermSource.line.injEq, exists_eq_right, toFin_eq_some, PermSource.written,
        Source.line.injEq, ne_eq, reduceCtorEq, not_false_eq_true, and_true]

theorem readSource_bind_eq_some {o : Option Source} {p : PermSource} :
    o.bind readSource = some p ↔ o = some p.written ∧ p ≠ .station 0 := by
  cases o with
  | none => simp
  | some s => simp [readSource_eq_some]

theorem readBay_eq_some {w : BayWrite} {r : BayRecord} : readBay w = some r ↔
    (w.panel = some r.panel.val ∧ r.panel ≠ 0) ∧ (w.ground = some r.ground.written ∧ r.ground ≠ .station 0) ∧
    w.overfill = some r.overfill.written ∧ r.overfill ≠ .station 0 := by
  rw [← fieldAddr_eq_some, ← readSource_bind_eq_some, ← readSource_bind_eq_some]
  cases r
  simp only [readBay, Option.bind_eq_bind, Option.bind_eq_some_iff, Option.pure_def, Option.some.injEq, BayRecord.mk.injEq]
  constructor
  · rintro ⟨_, h1, _, h2, _, h3, rfl, rfl, rfl⟩
    exact ⟨h1, h2, h3⟩
  · rintro ⟨h1, h2, h3⟩
    exact ⟨_, h1, _, h2, _, h3, rfl, rfl, rfl⟩

/-- R64: a bay's panel and sources are its own. -/
theorem Device.bayTaken_iff (d : Device) (b : BayId) (r : BayRecord) : d.bayTaken b r = true ↔ ∃ x o, x ≠ b ∧ d.bayRec x = some o ∧
    (r.panel = o.panel ∨ r.ground = o.ground ∨ r.ground = o.overfill ∨ r.overfill = o.ground ∨ r.overfill = o.overfill) := by
  unfold Device.bayTaken
  rw [List.any_eq_true]
  refine exists_congr fun x => ?_
  cases d.bayRec x with
  | none => simp
  | some o => simp [mem_allBays, BayRecord.clashes, or_assoc]

namespace Device

/-! ### The reports of a CLOSED bay (R166) -/

theorem takeCause_closed {d : Device} {b : BayId} (h : (d.bay b).state = .closed) (c : TripCause) : d.takeCause b c = d := by
  rw [takeCause_eq, if_neg (by rw [h]; decide), if_pos (.inl (by rw [Bay.takesCauses, h]))]

theorem clearCause_none {d : Device} {b : BayId} {c : TripCause} (h : (d.bay b).causes.has c = false) : d.clearCause b c = d := by
  unfold clearCause
  rw [h]
  rfl

section Closed
variable {d : Device} {b : BayId} (hs : (d.bay b).state = .closed) (hc : (d.bay b).causes = CauseSet.empty)
include hs hc

theorem reportGround_closed (v : Bool) : d.reportGround b v = d.onBay b fun x => { x with ground := v } := by
  have hbay : (d.onBay b fun x => { x with ground := v }).bay b = { d.bay b with ground := v } := onBay_bay_same ..
  unfold reportGround
  split
  · exact clearCause_none (by rw [hbay]; show (d.bay b).causes.has _ = _; rw [hc]; rfl)
  · exact takeCause_closed (by rw [hbay]; exact hs) _

theorem reportOverfill_closed (v : Bool) : d.reportOverfill b v = d.onBay b fun x => { x with overfill := v } := by
  have hbay : (d.onBay b fun x => { x with overfill := v }).bay b = { d.bay b with overfill := v } := onBay_bay_same ..
  unfold reportOverfill
  split
  · exact clearCause_none (by rw [hbay]; show (d.bay b).causes.has _ = _; rw [hc]; rfl)
  · exact takeCause_closed (by rw [hbay]; exact hs) _

/-- R166: both permissives of a CLOSED bay reported as they stand. -/
theorem reportBoth_closed : d.reportBoth b = d.onBay b fun x => { x with ground := d.groundNow b, overfill := d.overfillNow b } := by
  have hbay : (d.onBay b fun x => { x with ground := d.groundNow b }).bay b = { d.bay b with ground := d.groundNow b } :=
    onBay_bay_same ..
  rw [reportBoth, reportGround_closed hs hc, reportOverfill_closed (by rw [hbay]; exact hs) (by rw [hbay]; exact hc), onBay_onBay]

end Closed

theorem groundNow_of_rec {d : Device} {b : BayId} {r : BayRecord} (h : d.bayRec b = some r) :
    d.groundNow b = d.present b r.ground false := by rw [groundNow, h]

theorem overfillNow_of_rec {d : Device} {b : BayId} {r : BayRecord} (h : d.bayRec b = some r) :
    d.overfillNow b = d.present b r.overfill true := by rw [overfillNow, h]

theorem groundNow_of_none {d : Device} {b : BayId} (h : d.bayRec b = none) : d.groundNow b = false := by rw [groundNow, h]

theorem overfillNow_of_none {d : Device} {b : BayId} (h : d.bayRec b = none) : d.overfillNow b = false := by rw [overfillNow, h]

/-- R64: the part after a write or clear of bay `b`'s record. -/
def bayWritten (d : Device) (b : BayId) (r : Option BayRecord) : Device :=
  (d.setBayRec b r).onBay b fun x =>
    { x with ground := (d.setBayRec b r).groundNow b, overfill := (d.setBayRec b r).overfillNow b }

section Writes
variable {d : Device} {b : BayId} {w : BayWrite} {r : BayRecord}

theorem writeBay_unread (h : readBay w = none) : d.writeBay b w = .error .badField := by
  rw [writeBay, h]

theorem writeBay_taken (h : readBay w = some r) (ht : d.bayTaken b r = true) : d.writeBay b w = .error .badField := by
  simp only [writeBay, h, ht, if_true]

theorem writeBay_inUse (h : readBay w = some r) (ht : d.bayTaken b r = false) (hs : (d.bay b).state ≠ .closed) :
    d.writeBay b w = .error .inUse := by
  have hopen : d.isClosed b = false := Bool.eq_false_iff.mpr (mt (isClosed_iff d b).mp hs)
  simp [writeBay, h, ht, hopen]

theorem writeBay_ok (h : readBay w = some r) (ht : d.bayTaken b r = false) (hs : (d.bay b).state = .closed)
    (hc : (d.bay b).causes = CauseSet.empty) : d.writeBay b w = .ok (d.bayWritten b (some r)) := by
  have hboth := reportBoth_closed (d := d.setBayRec b (some r)) hs hc
  simp [writeBay, h, ht, (isClosed_iff d b).mpr hs, hboth, bayWritten]

theorem clearBay_inUse (hs : (d.bay b).state ≠ .closed) : d.clearBay b = .error .inUse := by
  have hopen : d.isClosed b = false := Bool.eq_false_iff.mpr (mt (isClosed_iff d b).mp hs)
  simp [clearBay, hopen]

theorem clearBay_ok (hs : (d.bay b).state = .closed) (hc : (d.bay b).causes = CauseSet.empty) :
    d.clearBay b = .ok (d.bayWritten b none) := by
  have hboth := reportBoth_closed (d := d.setBayRec b none) hs hc
  simp [clearBay, (isClosed_iff d b).mpr hs, hboth, bayWritten]

end Writes

end Device

/-! ### The requests -/

open Device

theorem exec_tableWriteBay (s : State) (t : Byte) (b : BayId) (w : BayWrite) :
    exec (.tableWriteBay t (some (b.val, w))) s = advance s fun d =>
      d.request (.tableWriteBay t (some (b.val, w))) fun e => e.conclude 1 t (e.writeBay b w) := by
  show execTableWriteBay t (some (b.val, w)) s = _
  unfold execTableWriteBay
  simp only [withOps_some, withIndex_val]

theorem exec_tableClearBay (s : State) (t : Byte) (b : BayId) : exec (.tableClearBay t (some b.val)) s =
    advance s fun d => d.request (.tableClearBay t (some b.val)) fun e => e.conclude 3 t (e.clearBay b) := by
  show execTableClearBay t (some b.val) s = _
  unfold execTableClearBay
  simp only [withOne_val]

/-- R64: a request that writes or clears the record of a CLOSED bay. -/
theorem request_bayWritten {s : State} {c : Instr} {k : Nat} {t : Byte} {b : BayId} {r : Option BayRecord}
    {f : Device → Except Status Device} (hq : s.quiet = true) (hs : (s.dev.bay b).state = .closed)
    (hf : f (s.dev.intoService c) = .ok ((s.dev.intoService c).bayWritten b r)) :
    advance s (fun d => d.request c fun x => x.conclude k t (f x)) = .next (s.answers (s.dev.bayWritten b r) k t .ok []) := by
  have hbay : ((s.dev.bayWritten b r).bay b).state = .closed ∧ ((s.dev.bayWritten b r).bay b).causes = (s.dev.bay b).causes := by
    rw [bayWritten, onBay_bay_same]
    exact ⟨hs, rfl⟩
  obtain ⟨hstate, hcauses⟩ := hbay
  refine request_answers_bay (e := s.dev.bayWritten b r) b hq
    ⟨rfl, rfl, rfl, rfl, fun x hx => onBay_bay_other _ _ _ _ hx, rfl, rfl⟩ ?_ ?_ ?_ ?_ ?_ ?_ rfl rfl (by rw [hf, conclude_ok]; rfl)
  · rw [hs]; decide
  · rw [hstate]; decide
  · rw [hstate]; decide
  · rw [hstate]; decide
  · rw [hcauses]; exact id
  · rw [hstate, hs]

/-- Settles O19: the write's checks in their order, then what the reports leave in a CLOSED bay. -/
theorem bayWriteAndClear : Obligations.BayWriteAndClear := by
  refine ⟨fun s t b w r hq hr ht => ⟨fun hs hc => ⟨?_, ?_⟩, fun hs => ⟨?_, ?_⟩⟩, fun w r => ?_, bayTaken_iff, fun s t b w hq h => ?_⟩
  · rintro e rfl
    rw [exec_tableWriteBay, request_bayWritten hq hs (writeBay_ok (d := s.dev.intoService _) hr ht hs hc), bayWritten,
      groundNow_of_rec (setBayRec_bayRec_same ..), overfillNow_of_rec (setBayRec_bayRec_same ..)]
  · rw [exec_tableClearBay, request_bayWritten hq hs (clearBay_ok (d := s.dev.intoService _) hs hc), bayWritten,
      groundNow_of_none (setBayRec_bayRec_same ..), overfillNow_of_none (setBayRec_bayRec_same ..)]
  · rw [exec_tableWriteBay]
    exact request_refused hq (writeBay_inUse (d := s.dev.intoService _) hr ht hs)
  · rw [exec_tableClearBay]
    exact request_refused hq (clearBay_inUse (d := s.dev.intoService _) hs)
  · rw [readBay_eq_some]
    constructor
    · rintro ⟨⟨h1, h2⟩, ⟨h3, h4⟩, h5, h6⟩
      refine ⟨h1, h2, h4, h6, h3.trans ?_, h5.trans ?_⟩
      · cases r.ground <;> rfl
      · cases r.overfill <;> rfl
    · rintro ⟨h1, h2, h4, h6, h3, h5⟩
      refine ⟨⟨h1, h2⟩, ⟨h3.trans ?_, h4⟩, h5.trans ?_, h6⟩
      · cases r.ground <;> rfl
      · cases r.overfill <;> rfl
  · rw [exec_tableWriteBay]
    refine request_refused hq ?_
    obtain hr | ⟨r, hr, ht⟩ := h
    · exact writeBay_unread hr
    · exact writeBay_taken (d := s.dev.intoService _) hr ht

end Sys2Proof.Machine
end

