-- ==== Sys2Proof/Proofs/Withdrawals.lean ====
section
/-! The withdrawal of an authorization for any cause (R71), with what follows it; BAY OPEN and BAY CLOSE (R66). -/

namespace Sys2Proof.Machine

open Sys2Proof

/-! ### A bay moved between states without flow, and work for CW -/

/-- An arm of a bay that flows neither before nor after is commanded CLOSED throughout, and no other arm is concerned. -/
theorem Device.SameButBay.stage {d e : Device} {b : BayId} (v : d.SameButBay e b) (h0 : (d.bay b).state ≠ .loading)
    (h1 : (e.bay b).state ≠ .loading) (a : ArmId) : d.effectiveStage a = e.effectiveStage a := by
  have hbay : e.bayOfArm a = d.bayOfArm a := Device.bayOfArm_congr v.armRecs a
  have harm : e.arm a = d.arm a := by rw [Device.arm, v.arms, ← Device.arm]
  by_cases ha : d.bayOfArm a = some b
  · rw [Device.effectiveStage_of_not_loading fun y hy => Option.some.inj (ha.symm.trans hy) ▸ h0,
      Device.effectiveStage_of_not_loading fun y hy => Option.some.inj (ha.symm.trans (hbay.symm.trans hy)) ▸ h1]
  · refine (Device.effectiveStage_congr hbay v.lu (fun y hy => ?_) (by rw [harm])).symm
    rw [v.others y fun hyb => ha (hyb ▸ hy)]
    exact ⟨rfl, rfl, rfl⟩

/-- Nothing but CW's work follows an event that moves one bay between states in which nothing flows and no block waits for it. -/
theorem settle_movedBay {d e : Device} {b : BayId} (hd : d.settled = true) (v : d.SameButBay (e.onCw fun _ => d.cw) b)
    (h0 : (d.bay b).state ≠ .loading) (h1 : (e.bay b).state ≠ .loading) (h2 : (e.bay b).state ≠ .holding)
    (h3 : (e.bay b).state ≠ .closing) (h4 : (e.bay b).causes.valve = true → (d.bay b).causes.valve = true)
    (h5 : (e.bay b).state = .tripped ↔ (d.bay b).state = .tripped) : settle d e = e.cwStart.cwPark := by
  have hsame := settle_sameButBay d (e.onCw fun _ => d.cw) b hd v h0 h1 h2 h3 h4 h5
  have hrests := settle_settled d (e.onCw fun _ => d.cw)
  rw [hsame] at hrests
  obtain ⟨hbays, hlines, -⟩ := (settled_iff _).mp hrests
  have harm : ∀ a, d.arm a = e.arm a := fun a => by rw [Device.arm, ← v.arms]; rfl
  have hquiet : ∀ a, d.effectiveStage a = e.effectiveStage a ∧ (d.arm a).position = (e.arm a).position := fun a =>
    ⟨v.stage h0 h1 a, by rw [harm]⟩
  rw [settle, supervise_quiet d e hquiet,
    allBayTests_rest e fun y => (Device.bayRests_congr (d := e.onCw fun _ => d.cw) rfl rfl (fun _ => ⟨rfl, rfl, rfl⟩) rfl rfl).trans (hbays y),
    driveOutputs_rest e fun l => (Device.lineRests_congr (d := e.onCw fun _ => d.cw) (fun _ => rfl) rfl l).trans (hlines l)]

/-! ### The withdrawal (R71) -/

/-- R66, R71: a bay's record after the withdrawal of its authorization. -/
def Bay.withdrawnBy (c : WithdrawCause) (r : Bay) : Bay :=
  if c = .bayClose then { r.withdrawn with state := .closed, message := none, before := none, swipe := none }
  else if r.state = .authorized then { r.withdrawn with state := .idle, message := none }
  else r.withdrawn

namespace Device

/-- Whether bay `b` has an authorization to withdraw (R71). -/
def hasAuthorization (d : Device) (b : BayId) : Prop :=
  (d.bay b).state = .authorized ∨ ((d.bay b).state = .held ∧ (d.bay b).before = some .authorized)

section Withdrawal
variable {d : Device} {b : BayId}

theorem hasAuthorization.state (h : d.hasAuthorization b) : (d.bay b).state = .authorized ∨ (d.bay b).state = .held :=
  h.imp_right And.left

theorem withdraw_eq (c : WithdrawCause) (h : d.hasAuthorization b) : d.withdraw b c =
    ((d.withdrawOrder b (c == .orderCancel)).onBay b (Bay.withdrawnBy c)).bayNotice b 7 [octets 1 c.code] := by
  have hbay : (d.withdrawOrder b (c == .orderCancel)).bay b = d.bay b := by rw [← withdrawOrder_rest]; rfl
  unfold withdraw
  dsimp only
  generalize d.withdrawOrder b (c == .orderCancel) = e at hbay ⊢
  have hstate : ∀ f : Bay → Bay, f (e.bay b) = f (d.bay b) := fun f => by rw [hbay]
  refine congrArg (fun x : Device => x.bayNotice b 7 [octets 1 c.code]) ?_
  by_cases ha : (d.bay b).state = .authorized
  · have hne : ∀ st : BayState, st ≠ .authorized → ((e.onBay b Bay.withdrawn).bay b).state ≠ st := fun st hst => by
      rw [onBay_bay_same, hbay]
      exact fun k => hst (k.symm.trans ha)
    rw [if_pos ha, enterState_eq _ _ _ (hne .idle (by decide)), onBay_onBay]
    split
    next hc =>
      rw [enterState_eq _ _ _ (by rw [onBay_bay_same]; exact (by decide : BayState.idle ≠ .closed)), onBay_onBay, onBay_onBay]
      exact onBay_congr _ _ _ _ (by rw [hbay, Bay.withdrawnBy, if_pos hc])
    next hc => exact onBay_congr _ _ _ _ (by rw [hbay, Bay.withdrawnBy, if_neg hc, if_pos ha])
  · have hheld : (d.bay b).state = .held := h.state.resolve_left ha
    rw [if_neg ha]
    split
    next hc =>
      rw [enterState_eq _ _ _ (by rw [onBay_bay_same, hbay]; show (d.bay b).state ≠ _; rw [hheld]; decide), onBay_onBay, onBay_onBay]
      exact onBay_congr _ _ _ _ (by rw [hbay, Bay.withdrawnBy, if_pos hc])
    next hc => exact onBay_congr _ _ _ _ (by rw [hbay, Bay.withdrawnBy, if_neg hc, if_neg ha])

theorem withdraw_bay (c : WithdrawCause) (h : d.hasAuthorization b) : (d.withdraw b c).bay b = (d.bay b).withdrawnBy c := by
  have hbay : (d.withdrawOrder b (c == .orderCancel)).bay b = d.bay b := by rw [← withdrawOrder_rest]; rfl
  rw [withdraw_eq c h, bayNotice_bay, onBay_bay_same, hbay]

theorem withdraw_ofBay (c : WithdrawCause) (h : d.hasAuthorization b) : d.OfBay b (d.withdraw b c) := by
  rw [withdraw_eq c h]
  refine OfBay.trans ⟨fun y _ => ?_, ?_⟩ ((onBay_ofBay ..).trans (bayNotice_ofBay ..))
  · rw [← withdrawOrder_rest]; rfl
  · rw [← withdrawOrder_rest]

theorem withdraw_cw (c : WithdrawCause) (h : d.hasAuthorization b) : (d.withdraw b c).cw = d.cw ∨
    (d.firstStalled ≠ none ∧ (d.withdraw b c).cw.queue ≠ []) := by
  have hcw : (d.withdraw b c).cw = (d.withdrawOrder b (c == .orderCancel)).cw := by rw [withdraw_eq c h]; rfl
  rw [hcw]
  exact withdrawOrder_cw ..

theorem withdraw_intoService (c : WithdrawCause) (h : d.hasAuthorization b) (i : Instr) :
    (d.intoService i).withdraw b c = (d.withdraw b c).intoService i := by
  rw [withdraw_eq c h, withdraw_eq (d := d.intoService i) c h, withdrawOrder_intoService]
  rfl

theorem withdrawnBy_state (c : WithdrawCause) (h : d.hasAuthorization b) :
    ((d.bay b).withdrawnBy c).state = if c = .bayClose then .closed else if (d.bay b).state = .held then .held else .idle := by
  unfold Bay.withdrawnBy
  split
  · rfl
  · rcases h.state with hs | hs
    · rw [if_pos hs, if_neg (by rw [hs]; decide)]
    · rw [if_neg (by rw [hs]; decide), if_pos hs]
      exact hs

theorem withdrawnBy_causes (c : WithdrawCause) (r : Bay) : (r.withdrawnBy c).causes = r.causes := by
  unfold Bay.withdrawnBy
  split
  · rfl
  · split <;> rfl

end Withdrawal

end Device

/-! ### What follows a withdrawal (R114, R135) -/

section Follows
variable {d : Device} {b : BayId} (hd : d.settled = true) (h : d.hasAuthorization b) (c : WithdrawCause)
include hd h

/-- R71, R135: a withdrawal, and what has been reported or answered with it, gives no block but CW work. -/
theorem settle_withdraw (m : Mp) : settle d { d.withdraw b c with mp := m } = ({ d.withdraw b c with mp := m } : Device).cwStart := by
  have hrest := (Device.withdraw_ofBay c h).rest
  have hothers := (Device.withdraw_ofBay c h).others
  have hstate := Device.withdrawnBy_state c h
  have hcauses := Device.withdrawnBy_causes c (d.bay b)
  rw [← Device.withdraw_bay c h] at hstate hcauses
  have hcw := (Device.withdraw_cw c h).imp_right And.right
  generalize d.withdraw b c = e at hrest hothers hstate hcauses hcw ⊢
  have hboot : e.boot = d.boot := by rw [← hrest]
  have hold : (d.bay b).state ≠ .loading ∧ (d.bay b).state ≠ .tripped := by
    rcases h.state with hs | hs <;> rw [hs] <;> exact ⟨by decide, by decide⟩
  have hnew : ∀ st : BayState, st ∉ [BayState.closed, .idle, .held] → (e.bay b).state ≠ st := fun st hst k => by
    rw [← k, hstate] at hst
    revert hst
    split
    · decide
    · split <;> decide
  rw [settle_movedBay (e := { e with mp := m }) (b := b) hd
    ⟨hboot, by rw [← hrest]; rfl, by rw [← hrest]; rfl, by rw [← hrest]; rfl, hothers, rfl, by rw [← hrest]; rfl⟩ hold.1
    (hnew _ (by decide)) (hnew _ (by decide)) (hnew _ (by decide)) (by rw [show (({ e with mp := m } : Device).bay b).causes = (e.bay b).causes from rfl, hcauses]; exact id)
    ⟨fun k => absurd k (hnew _ (by decide)), fun k => absurd k hold.2⟩]
  exact cwStart_cwPark (e := { e with mp := m }) hd hboot hcw

/-- R135: with no commit stalled CW has nothing to do. -/
theorem withdraw_cwStart (hf : d.firstStalled = none) {x : Device} (hboot : x.boot = (d.withdraw b c).boot)
    (hcw : x.cw = (d.withdraw b c).cw) : x.cwStart = x := by
  obtain ⟨-, -, hrest, -⟩ := (settled_iff d).mp hd
  have hkept := (Device.withdraw_cw c h).resolve_right fun k => k.1 hf
  have hboot' : (d.withdraw b c).boot = d.boot := (congrArg Device.boot (Device.withdraw_ofBay c h).rest).symm
  exact cwStart_rest _ ((Device.cwRests_congr (hboot.trans hboot') (hcw.trans hkept)).1.trans hrest)

end Follows

section Requests
variable {s : State} {i : Instr} {k : Nat} {t : Byte} {b : BayId} {c : WithdrawCause} {f : Device → Except Status Device}

/-- R71, R135: a request that withdraws an authorization; CW takes up what a stalled commit then queues. -/
theorem request_withdraws (hq : s.quiet = true) (h : s.dev.hasAuthorization b)
    (hf : f (s.dev.intoService i) = .ok ((s.dev.intoService i).withdraw b c)) :
    advance s (fun d => d.request i fun x => x.conclude k t (f x)) = .next (s.answers (s.dev.withdraw b c).cwStart k t .ok []) := by
  obtain ⟨-, hd⟩ := s.quiet_iff.mp hq
  have hrest := (Device.withdraw_ofBay c h).rest
  have hfifo : (s.dev.withdraw b c).mp.fifo = s.dev.mp.fifo := by rw [← hrest]
  have hservice : (s.dev.withdraw b c).mp.inService = s.dev.mp.inService := by rw [← hrest]
  have hsettle : settle s.dev ((s.dev.withdraw b c).reply k t .ok []) = ((s.dev.withdraw b c).reply k t .ok []).cwStart :=
    settle_withdraw hd h c _
  rw [Device.withdraw_intoService c h] at hf
  rw [request_settles hq hfifo hservice hf, hsettle, Device.cwStart_reply]
  rfl

end Requests

/-! ### BAY OPEN and BAY CLOSE (R66) -/

namespace Device

section Open
variable {d : Device} {b : BayId}

theorem bayOpen_wrong (h : (d.bay b).state ≠ .closed ∨ d.bayRec b = none) : d.bayOpen b = none :=
  if_neg fun ⟨hs, hr⟩ => h.elim (absurd hs) fun hn => by rw [hn] at hr; cases hr

/-- The bay after BAY OPEN. -/
def opened (d : Device) (b : BayId) : Device :=
  (d.onBay b fun r => { r with state := .idle, message := none }).bayNotice b 1 []

/-- The bay after BAY OPEN under a hold. -/
def openedHeld (d : Device) (b : BayId) : Device :=
  ((d.opened b).onBay b fun r => { r with state := .held, message := none, before := some .idle }).bayNotice b 12 []

theorem opened_bay (d : Device) (b : BayId) : (d.opened b).bay b = { d.bay b with state := .idle, message := none } := by
  rw [opened, bayNotice_bay, onBay_bay_same]

theorem openedHeld_bay (d : Device) (b : BayId) :
    (d.openedHeld b).bay b = { d.bay b with state := .held, message := none, before := some .idle } := by
  rw [openedHeld, bayNotice_bay, onBay_bay_same, opened_bay]

theorem opened_sameButBay (d : Device) (b : BayId) : d.SameButBay (d.opened b) b :=
  ⟨rfl, rfl, rfl, rfl, fun x hx => by rw [opened, bayNotice_bay, onBay_bay_other _ _ _ _ hx], rfl, rfl⟩

theorem openedHeld_sameButBay (d : Device) (b : BayId) : d.SameButBay (d.openedHeld b) b :=
  ⟨rfl, rfl, rfl, rfl, fun x hx => by
    rw [openedHeld, bayNotice_bay, onBay_bay_other _ _ _ _ hx, (d.opened_sameButBay b).others x hx], rfl, rfl⟩

theorem openedHeld_leaves (d : Device) (b : BayId) : (d.openedHeld b).orders = d.orders ∧ (d.openedHeld b).custody = d.custody ∧
    (d.openedHeld b).mp.answers = d.mp.answers := by
  rw [openedHeld, opened]
  exact ⟨rfl, rfl, rfl⟩

theorem openBay_eq (h : (d.bay b).state = .closed) :
    d.openBay b = if (d.bay b).holding then d.openedHeld b else d.opened b := by
  have henter : (d.enterState b .idle).bayNotice b 1 [] = d.opened b := by
    rw [enterState_eq _ _ _ (by rw [h]; decide), opened]
  have hhold : ((d.opened b).bay b).holding = (d.bay b).holding := by rw [opened_bay]; rfl
  rw [openBay, henter, hhold, enterHeld_eq _ (by rw [opened_bay]; exact (by decide : BayState.idle ≠ .held))]
  rfl

theorem bayOpen_free (h : (d.bay b).state = .closed) (hr : (d.bayRec b).isSome = true) (hh : (d.bay b).holding = false) :
    d.bayOpen b = some (d.opened b) := by
  rw [bayOpen, if_pos ⟨h, hr⟩, openBay_eq h, if_neg (by rw [hh]; decide)]

theorem bayOpen_held (h : (d.bay b).state = .closed) (hr : (d.bayRec b).isSome = true) (hh : (d.bay b).holding = true) :
    d.bayOpen b = some (d.openedHeld b) := by
  rw [bayOpen, if_pos ⟨h, hr⟩, openBay_eq h, if_pos hh]

/-- The bay after BAY CLOSE with no authorization to withdraw. -/
def shut (d : Device) (b : BayId) : Device :=
  (d.onBay b fun r => { r with state := .closed, message := none, before := none, swipe := none }).bayNotice b 1 []

theorem shut_bay (d : Device) (b : BayId) :
    (d.shut b).bay b = { d.bay b with state := .closed, message := none, before := none, swipe := none } := by
  rw [shut, bayNotice_bay, onBay_bay_same]

theorem shut_sameButBay (d : Device) (b : BayId) : d.SameButBay (d.shut b) b :=
  ⟨rfl, rfl, rfl, rfl, fun x hx => by rw [shut, bayNotice_bay, onBay_bay_other _ _ _ _ hx], rfl, rfl⟩

theorem closeBay_closed (h : (d.bay b).state = .closed) : d.closeBay b = some d := by simp only [closeBay, h]

theorem closeBay_idle (h : (d.bay b).state = .idle ∨ ((d.bay b).state = .held ∧ (d.bay b).before = some .idle)) :
    d.closeBay b = some (d.shut b) := by
  have hshut : d.shutBay b = d.shut b := by
    rw [shutBay, enterState_eq _ _ _ (by rcases h with h | ⟨h, -⟩ <;> rw [h] <;> decide), onBay_onBay, shut]
  rcases h with h | ⟨h, hb⟩
  · simp only [closeBay, h, hshut]
  · simp only [closeBay, h, hb, hshut]

theorem closeBay_authorized (h : d.hasAuthorization b) : d.closeBay b = some (d.withdraw b .bayClose) := by
  rcases h with h | ⟨h, hb⟩
  · simp only [closeBay, h]
  · simp only [closeBay, h, hb]

theorem closeBay_wrong (h : (d.bay b).state ∈ [.loading, .holding, .tripped, .closing, .noteCommit] ∨
    ((d.bay b).state = .held ∧ (d.bay b).before = some .loading)) : d.closeBay b = none := by
  simp only [List.mem_cons, List.not_mem_nil, or_false] at h
  rcases h with (h | h | h | h | h) | ⟨h, hb⟩
  case inr => simp only [closeBay, h, hb]
  all_goals simp only [closeBay, h]

end Open

end Device

theorem exec_bayOpen (s : State) (t : Byte) (b : BayId) : exec (.bayOpen t (some b.val)) s =
    advance s fun d => d.request (.bayOpen t (some b.val)) fun e => e.conclude 6 t (orWrong (e.bayOpen b)) := by
  show execBayOpen t (some b.val) s = _
  unfold execBayOpen
  simp only [withOne_val]

theorem exec_bayClose (s : State) (t : Byte) (b : BayId) : exec (.bayClose t (some b.val)) s =
    advance s fun d => d.request (.bayClose t (some b.val)) fun e => e.conclude 7 t (orWrong (e.closeBay b)) := by
  show execBayClose t (some b.val) s = _
  unfold execBayClose
  simp only [withOne_val]

/-- A request after which one bay, its causes kept, is in another of the states CLOSED, IDLE and HELD. -/
theorem request_movesBay {s : State} {i : Instr} {k : Nat} {t : Byte} {b : BayId} {e : Device} {f : Device → Except Status Device}
    (hq : s.quiet = true) (v : s.dev.SameButBay e b) (h0 : (s.dev.bay b).state ∈ [BayState.closed, .idle, .held])
    (h1 : (e.bay b).state ∈ [BayState.closed, .idle, .held]) (hc : (e.bay b).causes = (s.dev.bay b).causes)
    (hfifo : e.mp.fifo = s.dev.mp.fifo) (hservice : e.mp.inService = s.dev.mp.inService)
    (hf : f (s.dev.intoService i) = .ok (e.intoService i)) :
    advance s (fun d => d.request i fun x => x.conclude k t (f x)) = .next (s.answers e k t .ok []) := by
  have hno : ∀ st : BayState, st ∉ [BayState.closed, .idle, .held] → (s.dev.bay b).state ≠ st ∧ (e.bay b).state ≠ st := fun st hst =>
    ⟨fun h => hst (h ▸ h0), fun h => hst (h ▸ h1)⟩
  exact request_answers_bay b hq v (hno .loading (by decide)).1 (hno .loading (by decide)).2 (hno .holding (by decide)).2
    (hno .closing (by decide)).2 (by rw [hc]; exact id)
    ⟨fun h => absurd h (hno .tripped (by decide)).2, fun h => absurd h (hno .tripped (by decide)).1⟩ hfifo hservice (by rw [hf, conclude_ok])

open Device

section BayRequests
variable {s : State} {t : Byte} {b : BayId} (hq : s.quiet = true)
include hq

theorem bayOpen_opens (hs : (s.dev.bay b).state = .closed) (hr : (s.dev.bayRec b).isSome = true) (hh : (s.dev.bay b).holding = false) :
    exec (.bayOpen t (some b.val)) s = .next (s.answers (s.dev.opened b) 6 t .ok []) := by
  have hbay := s.dev.opened_bay b
  have hrun : orWrong ((s.dev.intoService (.bayOpen t (some b.val))).bayOpen b) =
      .ok ((s.dev.opened b).intoService (.bayOpen t (some b.val))) := by
    rw [bayOpen_free (d := s.dev.intoService _) hs hr hh]
    rfl
  rw [exec_bayOpen]
  exact request_movesBay (f := fun x => orWrong (x.bayOpen b)) hq (s.dev.opened_sameButBay b) (by rw [hs]; decide)
    (by rw [hbay]; exact List.mem_cons_of_mem _ List.mem_cons_self) (by rw [hbay]) rfl rfl hrun

theorem bayOpen_holds (hs : (s.dev.bay b).state = .closed) (hr : (s.dev.bayRec b).isSome = true) (hh : (s.dev.bay b).holding = true) :
    exec (.bayOpen t (some b.val)) s = .next (s.answers (s.dev.openedHeld b) 6 t .ok []) := by
  have hbay := s.dev.openedHeld_bay b
  have hrun : orWrong ((s.dev.intoService (.bayOpen t (some b.val))).bayOpen b) =
      .ok ((s.dev.openedHeld b).intoService (.bayOpen t (some b.val))) := by
    rw [bayOpen_held (d := s.dev.intoService _) hs hr hh]
    rfl
  rw [exec_bayOpen]
  exact request_movesBay (f := fun x => orWrong (x.bayOpen b)) hq (s.dev.openedHeld_sameButBay b) (by rw [hs]; decide)
    (by rw [hbay]; exact List.mem_cons_of_mem _ (List.mem_cons_of_mem _ List.mem_cons_self)) (by rw [hbay]) rfl rfl hrun

theorem bayClose_shuts (h : (s.dev.bay b).state = .idle ∨ ((s.dev.bay b).state = .held ∧ (s.dev.bay b).before = some .idle)) :
    exec (.bayClose t (some b.val)) s = .next (s.answers (s.dev.shut b) 7 t .ok []) := by
  have hbay := s.dev.shut_bay b
  have hrun : orWrong ((s.dev.intoService (.bayClose t (some b.val))).closeBay b) =
      .ok ((s.dev.shut b).intoService (.bayClose t (some b.val))) := by
    rw [closeBay_idle (d := s.dev.intoService _) h]
    rfl
  rw [exec_bayClose]
  exact request_movesBay (f := fun x => orWrong (x.closeBay b)) hq (s.dev.shut_sameButBay b)
    (by rcases h with h | ⟨h, -⟩ <;> rw [h] <;> decide) (by rw [hbay]; exact List.mem_cons_self) (by rw [hbay]) rfl rfl hrun

theorem bayClose_withdraws (h : s.dev.hasAuthorization b) :
    exec (.bayClose t (some b.val)) s = .next (s.answers (s.dev.withdraw b .bayClose).cwStart 7 t .ok []) := by
  rw [exec_bayClose]
  exact request_withdraws (f := fun x => orWrong (x.closeBay b)) hq h
    (congrArg orWrong (closeBay_authorized (d := s.dev.intoService _) h))

theorem bayOpen_refused (h : (s.dev.bay b).state ≠ .closed ∨ s.dev.bayRec b = none) :
    exec (.bayOpen t (some b.val)) s = .next (s.answers s.dev 6 t .wrongState []) := by
  have hrun : orWrong ((s.dev.intoService (.bayOpen t (some b.val))).bayOpen b) = .error .wrongState := by
    rw [bayOpen_wrong (d := s.dev.intoService _) h]
    rfl
  rw [exec_bayOpen]
  exact request_refused (r := fun x => orWrong (x.bayOpen b)) hq hrun

theorem bayClose_refused (h : (s.dev.bay b).state ∈ [.loading, .holding, .tripped, .closing, .noteCommit] ∨
    ((s.dev.bay b).state = .held ∧ (s.dev.bay b).before = some .loading)) :
    exec (.bayClose t (some b.val)) s = .next (s.answers s.dev 7 t .wrongState []) := by
  have hrun : orWrong ((s.dev.intoService (.bayClose t (some b.val))).closeBay b) = .error .wrongState := by
    rw [closeBay_wrong (d := s.dev.intoService _) h]
    rfl
  rw [exec_bayClose]
  exact request_refused (r := fun x => orWrong (x.closeBay b)) hq hrun

theorem bayClose_again (hs : (s.dev.bay b).state = .closed) :
    exec (.bayClose t (some b.val)) s = .next (s.answers s.dev 7 t .ok []) := by
  have hrun : orWrong ((s.dev.intoService (.bayClose t (some b.val))).closeBay b) =
      .ok (s.dev.intoService (.bayClose t (some b.val))) := by
    rw [closeBay_closed (d := s.dev.intoService _) hs]
    rfl
  rw [exec_bayClose]
  exact request_answers hq (.refl _) rfl rfl (by rw [hrun, conclude_ok])

end BayRequests

/-- Settles O29: the requests by the bay's state. -/
theorem bayOpenAndClose : Obligations.BayOpenAndClose := by
  intro s t b hq
  obtain ⟨-, hd⟩ := s.quiet_iff.mp hq
  refine ⟨fun h => bayOpen_refused hq h, fun hs hr hh => bayOpen_opens hq hs hr hh, fun hs hr hh => ?_,
    fun hs => bayClose_again hq hs, fun h => bayClose_shuts hq h, fun h => ?_, fun h => bayClose_refused hq h⟩
  · have hbay := s.dev.openedHeld_bay b
    have hothers := (s.dev.openedHeld_sameButBay b).others
    obtain ⟨u, hu, hpending, hdev⟩ := next_dev (bayOpen_holds (t := t) hq hs hr hh)
    refine ⟨u, hu, hpending, ?_⟩
    obtain ⟨horders, hcustody, hanswers⟩ := s.dev.openedHeld_leaves b
    rw [hdev]
    exact ⟨hbay, hothers, horders, hcustody, congrArg (· ++ _) hanswers⟩
  · refine ⟨bayClose_withdraws hq h, fun hf => ?_⟩
    have hidle : (s.dev.withdraw b .bayClose).cwStart = s.dev.withdraw b .bayClose := withdraw_cwStart hd h _ hf rfl rfl
    rw [bayClose_withdraws hq h, hidle]

end Sys2Proof.Machine
end

