-- ==== Sys2Proof/Proofs/BayTimers.lean ====
section
/-! The timers of a bay (R68, R71, R75): an authorization that runs out is withdrawn, a TRIPPED bay's load that is not resumed is
closed. -/

namespace Sys2Proof.Machine

open Sys2Proof

/-! ### The close of a load by its timer, with what follows it (R34, R82, R83) -/

section Closing
variable {d : Device} (b : BayId)

theorem closeLoad_noBatch : (d.closeLoad b).noBatch b = true ↔
    ∀ a u, a ∈ d.armsOf b → (d.arm a).batch = some u → u.phase = .interrupted := by
  obtain ⟨harms, -, -⟩ := d.closeLoad_closes b
  rw [Device.noBatch_iff, Device.armsOf_congr (d.closeLoad_within b).armRecs]
  exact ⟨fun h a u ha => (harms a ha).empty_iff.mp (h a ha) u, fun h a ha => (harms a ha).empty_iff.mpr fun u => h a u ha⟩

/-- R83: what follows leaves the bay CLOSING, or completes the closing. -/
theorem closeLoad_settles (hd : d.settled = true) :
    (((∀ a u, a ∈ d.armsOf b → (d.arm a).batch = some u → u.phase = .interrupted) ∧ d.outstandingShots b = 0) →
      (settle d (d.closeLoad b)).bay b = { (d.closeLoad b).bay b with
        state := .noteCommit, message := none, ended := ((d.closeLoad b).bay b).ended.map Batch.cancelLeft }) ∧
    (¬ ((∀ a u, a ∈ d.armsOf b → (d.arm a).batch = some u → u.phase = .interrupted) ∧ d.outstandingShots b = 0) →
      (settle d (d.closeLoad b)).bay b = (d.closeLoad b).bay b) := by
  obtain ⟨-, ⟨m, l, hbay⟩, -⟩ := d.closeLoad_closes b
  have h := settle_closing hd (d.closeLoad_within b).spares (by rw [hbay]) (by rw [hbay])
  rwa [closeLoad_noBatch, (d.closeLoad_within b).shots] at h

/-- What the close empties is empty, the rest of the bay as it was, and its ended batches stay. -/
theorem closeLoad_keeps (hd : d.settled = true) :
    (∃ st m l, (settle d (d.closeLoad b)).bay b = { d.bay b with
      state := st, message := m, causes := .empty, resumeTimer := none, authTimer := .stopped, before := none, swipe := none
      ended := l }) ∧
    Device.EndedStay ((d.closeLoad b).bay b) ((settle d (d.closeLoad b)).bay b) := by
  obtain ⟨-, ⟨m, l, hbay⟩, -⟩ := d.closeLoad_closes b
  obtain ⟨hdone, hstill⟩ := closeLoad_settles b hd
  by_cases h : (∀ a u, a ∈ d.armsOf b → (d.arm a).batch = some u → u.phase = .interrupted) ∧ d.outstandingShots b = 0
  · refine ⟨⟨_, _, _, (hdone h).trans (by rw [hbay])⟩, fun z hz => ⟨z.cancelLeft, ?_, z.cancelLeft_core⟩⟩
    rw [hdone h]
    exact List.mem_map_of_mem hz
  · rw [hstill h]
    exact ⟨⟨_, _, _, hbay⟩, .refl _⟩

theorem closeLoad_loadCloses (hd : d.settled = true) : d.loadCloses (settle d (d.closeLoad b)) b := by
  obtain ⟨harms, ⟨m, l, hclosing⟩, hends⟩ := d.closeLoad_closes b
  obtain ⟨⟨st, m', l', hbay⟩, hstay⟩ := closeLoad_keeps b hd
  obtain ⟨hdone, hstill⟩ := closeLoad_settles b hd
  have hspares := (d.closeLoad_within b).spares
  obtain ⟨harm, -, hothers, -⟩ := settle_frame hd hspares
  refine ⟨by rw [hbay], by rw [hbay], by rw [hbay], by rw [hbay], by rw [hbay], by rw [hbay], by rw [hbay], by rw [hbay],
    fun a u ha hu => ⟨fun hi => ⟨?_, ?_⟩, fun hp => ?_, fun hf => ?_⟩, fun h => ?_, fun h => ?_, fun y hy => ?_⟩
  · rw [harm]
    exact (harms a ha).ends u hu hi
  · obtain ⟨z, hz, hzc⟩ := hends a ha u hu hi
    obtain ⟨w, hw, hwz⟩ := hstay z hz
    rw [Batch.eq_of_core (hwz.trans hzc)] at hw
    exact ⟨_, hw, rfl, rfl, rfl, rfl, rfl, rfl⟩
  · rw [harm, (harms a ha).stays u hu (by rw [hp]; decide) (by rw [hp]; rfl)]
    exact hu
  · obtain ⟨hzero, x, hx, hxc⟩ := (harms a ha).stops u hu hf
    rw [harm]
    refine ⟨hzero, x, hx, ?_⟩
    rw [Batch.eq_of_core hxc]
    exact ⟨rfl, rfl, rfl⟩
  · rw [hdone h]
    refine ⟨rfl, fun x hx y hy => ?_⟩
    obtain ⟨z, -, rfl⟩ := List.mem_map.mp hx
    exact z.cancelLeft_pending y hy
  · rw [hstill h, hclosing]
  · obtain ⟨l'', hl⟩ := hspares.bays y hy
    rw [hothers y hy, hl]

theorem settle_permits (d e : Device) : (settle d e).permits = e.permits := by
  rw [← (settle_followed d e).rest, ← supervise_rest]

theorem closeLoad_frame : (settle d (d.closeLoad b)).custody = d.custody ∧ (settle d (d.closeLoad b)).permits = d.permits ∧
    (settle d (d.closeLoad b)).lm = d.lm := by
  have hrest := (d.closeLoad_within b).rest
  rw [settle_custody, settle_permits, settle_lm, ← hrest]
  exact ⟨rfl, rfl, rfl⟩

end Closing

/-! ### The expiries -/

theorem exec_authorizationTimerExpiry (s : State) (b : BayId) : exec (.authorizationTimerExpiry b) s = .next { s with
    dev := if (s.dev.bay b).state = .authorized ∧ (s.dev.bay b).authTimer.isRunning then
      s.dev.event fun x => x.authExpired b else s.dev } := rfl

theorem exec_resumeTimerExpiry (s : State) (b : BayId) : exec (.resumeTimerExpiry b) s = .next { s with
    dev := if (s.dev.bay b).state = .tripped ∧ (s.dev.bay b).resumeTimer.isSome then
      s.dev.event fun x => x.closeLoad b else s.dev } := rfl

section Expiries
variable {s : State} {b : BayId}

/-- R68: the authorization of an AUTHORIZED bay whose timer runs is withdrawn. -/
theorem authorizationTimerExpiry_withdraws {n : Nat} (hd : s.dev.settled = true) (hs : (s.dev.bay b).state = .authorized)
    (ht : (s.dev.bay b).authTimer = .running n) : exec (.authorizationTimerExpiry b) s =
      .next { s with dev := ((s.dev.withdraw b .timeout).bayNotice b 6 []).cwStart } := by
  have hexpired : s.dev.event (fun x => x.authExpired b) = ((s.dev.withdraw b .timeout).bayNotice b 6 []).cwStart :=
    settle_withdraw hd (.inl hs) .timeout _
  rw [exec_authorizationTimerExpiry, if_pos ⟨hs, by rw [ht]; rfl⟩, hexpired]

theorem authorizationTimerExpiry_ignored (h : (s.dev.bay b).state ≠ .authorized ∨ ∀ n, (s.dev.bay b).authTimer ≠ .running n) :
    exec (.authorizationTimerExpiry b) s = .next s := by
  rw [exec_authorizationTimerExpiry, if_neg]
  rintro ⟨hs, hr⟩
  refine h.elim (absurd hs) fun hn => ?_
  cases ht : (s.dev.bay b).authTimer with
  | running n => exact hn n ht
  | stopped => rw [ht] at hr; cases hr
  | suspended n => rw [ht] at hr; cases hr

theorem resumeTimerExpiry_closes {n : Nat} (hs : (s.dev.bay b).state = .tripped) (ht : (s.dev.bay b).resumeTimer = some n) :
    exec (.resumeTimerExpiry b) s = .next { s with dev := settle s.dev (s.dev.closeLoad b) } := by
  rw [exec_resumeTimerExpiry, if_pos ⟨hs, by rw [ht]; rfl⟩]
  rfl

theorem resumeTimerExpiry_ignored (h : (s.dev.bay b).state ≠ .tripped ∨ (s.dev.bay b).resumeTimer = none) :
    exec (.resumeTimerExpiry b) s = .next s := by
  rw [exec_resumeTimerExpiry, if_neg]
  rintro ⟨hs, hr⟩
  exact h.elim (absurd hs) fun hn => by rw [hn] at hr; cases hr

end Expiries

/-- Settles O35: each timer by whether it runs in the state that it is for. -/
theorem bayTimersExpire : Obligations.BayTimersExpire := by
  refine ⟨fun s b hd => ⟨fun n hs ht hf => ?_, fun n hs ht => authorizationTimerExpiry_withdraws hd hs ht,
    fun h => authorizationTimerExpiry_ignored h⟩, fun s b hd => ⟨fun n hs ht => ?_, fun h => resumeTimerExpiry_ignored h⟩⟩
  · have hidle : ((s.dev.withdraw b .timeout).bayNotice b 6 []).cwStart = (s.dev.withdraw b .timeout).bayNotice b 6 [] :=
      withdraw_cwStart hd (.inl hs) .timeout hf rfl rfl
    rw [authorizationTimerExpiry_withdraws hd hs ht, hidle]
  · obtain ⟨u, hu, hpending, hdev⟩ := next_dev (resumeTimerExpiry_closes hs ht)
    obtain ⟨⟨st, m, l, hbay⟩, -⟩ := closeLoad_keeps b hd
    refine ⟨u, hu, hpending, ?_⟩
    rw [hdev]
    exact ⟨closeLoad_loadCloses b hd, by rw [hbay], by rw [hbay], closeLoad_frame b⟩

end Sys2Proof.Machine
end

