-- ==== Sys2Proof/Proofs/Permissives.lean ====
section
/-! Permissives (R65, R73, R75, R165, R166): where one stands, and what a bay makes of each that comes or goes. -/

namespace Sys2Proof.Machine

open Sys2Proof

/-! ### Where a permissive stands (R165, R166) -/

theorem Station.isKind_iff (s : Station) (k : StationKind) : s.isKind k = true ↔ ∃ e, s.entry = some e ∧ e.kind = k := by
  unfold Station.isKind
  cases s.entry <;> simp

theorem Station.not_faulty_iff (s : Station) : s.faulty = false ↔ ∀ w, s.word = some w → w.getLsbD 0 = false := by
  unfold Station.faulty
  cases s.word <;> simp

namespace Device

theorem present_station_iff (d : Device) (b : BayId) (n : Addr) (top : Bool) : d.present b (.station n) top = true ↔
    (∃ e, (d.station n).entry = some e ∧ e.kind = .permit) ∧
    (((d.station n).state = .active ∧ ∀ w, (d.station n).word = some w → w.getLsbD 0 = false) ∨ (d.station n).state = .slipped) ∧
    (d.pair n).valid = true ∧ (top = true → (d.pair n).overfill = true) ∧ (top = false → (d.pair n).ground = true) := by
  rw [← Station.isKind_iff, ← Station.not_faulty_iff, present]
  cases top <;> simp [and_assoc]

theorem present_line_iff (d : Device) (b : BayId) (l : LineId) (top : Bool) : d.present b (.line l) top = true ↔
    (d.line l).func = (if top then .overfillIn b else .groundIn b) ∧ (d.line l).level = (d.line l).active ∧
    ((d.line l).mode = .input ∨ (d.line l).mode = .inputDebounced) := by
  have hmode : isOutput (d.line l).mode = false ↔ (d.line l).mode = .input ∨ (d.line l).mode = .inputDebounced := by
    cases (d.line l).mode <;> simp [isOutput]
  rw [← hmode]
  simp only [present, permFunc, Line.isActive, Bool.and_eq_true, beq_iff_eq, Bool.not_eq_true']
  tauto

end Device

/-! ### A cause taken and a cause cleared, in the bay's record (R73, R75) -/

theorem CauseSet.has_put (s : CauseSet) (c x : TripCause) (v : Bool) : (s.put c v).has x = if x = c then v else s.has x := by
  cases c <;> cases x <;> rfl

theorem CauseSet.has_empty (x : TripCause) : CauseSet.empty.has x = false := by cases x <;> rfl

/-- What a cause taken leaves and brings, from the bay's record `r` to `q`. -/
structure Bay.Takes (r q : Bay) (c : TripCause) : Prop where
  ground   : q.ground = r.ground
  overfill : q.overfill = r.overfill
  others   : ∀ x, x ≠ c → q.causes.has x = r.causes.has x
  state    : q.state = r.state ∨ q.state = .tripped
  trips    : c ≠ .overfill → q.trips = r.trips
  joins    : r.state ∈ [BayState.loading, .holding, .tripped] → r.causes.has c = false →
    q.state = .tripped ∧ q.causes.has c = true ∧ q.trips = (r.join c).trips

/-- What a cause that leaves the set leaves and brings. -/
structure Bay.Clears (r q : Bay) (c : TripCause) : Prop where
  ground   : q.ground = r.ground
  overfill : q.overfill = r.overfill
  gone     : q.causes.has c = false
  absent   : ∀ x, r.causes.has x = false → q.causes.has x = false
  stays    : (r.state ≠ .tripped ∨ ∃ x, x ≠ c ∧ r.causes.has x = true) →
    q.state = r.state ∧ q.trips = r.trips ∧ ∀ x, x ≠ c → q.causes.has x = r.causes.has x

namespace Device

theorem tripBay_keeps (d : Device) (b : BayId) : (d.tripBay b).ground = (d.bay b).ground ∧
    (d.tripBay b).overfill = (d.bay b).overfill ∧ (d.tripBay b).causes = (d.bay b).causes ∧ (d.tripBay b).trips = (d.bay b).trips := by
  unfold tripBay
  dsimp only
  split <;> exact ⟨rfl, rfl, rfl, rfl⟩

/-- R74: the overfill lockout concerns no permissive, no cause and no trip count. -/
theorem lockoutTest_bay (d : Device) (b : BayId) (n : Nat) : ∃ x y z, (d.lockoutTest b n).bay b =
    { d.bay b with lockout := x, lockoutDuring := y, resumeTimer := z } := by
  unfold lockoutTest
  split
  · rw [bayNotice_bay, onBay_bay_same]
    exact ⟨_, _, _, rfl⟩
  · exact ⟨_, _, _, rfl⟩

theorem join_has (r : Bay) (c x : TripCause) : (r.join c).causes.has x = if x = c then true else r.causes.has x :=
  r.causes.has_put c x true

theorem join_trips {c : TripCause} (h : c ≠ .overfill) (r : Bay) : (r.join c).trips = r.trips := if_neg h

/-- R73: a bay that is TRIPPED with the cause joined, whatever the lockout makes of it. -/
theorem takes_of_tripped {r q p : Bay} {c : TripCause} (hg : q.ground = r.ground) (ho : q.overfill = r.overfill)
    (hc : q.causes = (r.join c).causes) (ht : q.trips = (r.join c).trips)
    (hs : (q.state = r.state ∧ (r.state ≠ .loading ∧ r.state ≠ .holding)) ∨ q.state = .tripped)
    (hp : ∃ x y z, p = { q with lockout := x, lockoutDuring := y, resumeTimer := z }) : r.Takes p c := by
  obtain ⟨x, y, z, rfl⟩ := hp
  refine ⟨hg, ho, fun k hk => ?_, hs.imp_left And.left, fun h => ht.trans (join_trips h r), fun hstate _ => ⟨?_, ?_, ht⟩⟩
  · show q.causes.has k = _
    rw [hc, join_has, if_neg hk]
  · rcases hs with ⟨hq, h1, h2⟩ | hq
    · simp only [List.mem_cons, List.not_mem_nil, or_false, h1, h2, false_or] at hstate
      exact hq.trans hstate
    · exact hq
  · show q.causes.has c = _
    rw [hc, join_has, if_pos rfl]

theorem takeCause_takes (d : Device) (b : BayId) (c : TripCause) : (d.bay b).Takes ((d.takeCause b c).bay b) c := by
  have hidle : ∀ q : Bay, (∃ s, q = { d.bay b with seen := s }) →
      ((d.bay b).state ∈ [BayState.loading, .holding, .tripped] → (d.bay b).causes.has c = true) → (d.bay b).Takes q c := by
    rintro q ⟨s, rfl⟩ h
    exact ⟨rfl, rfl, fun _ _ => rfl, .inl rfl, fun _ => rfl, fun hs hc => absurd (h hs) (by rw [hc]; decide)⟩
  rw [takeCause_eq]
  split
  next h =>
    exact hidle _ ⟨_, onBay_bay_same ..⟩ fun hs => absurd hs (by rcases h with h | h <;> rw [h] <;> decide)
  next =>
    split
    next h =>
      refine hidle _ ⟨(d.bay b).seen, rfl⟩ fun hs => h.resolve_left fun ht => ?_
      simp only [List.mem_cons, List.not_mem_nil, or_false] at hs
      unfold Bay.takesCauses at ht
      rcases hs with hs | hs | hs <;> rw [hs] at ht <;> cases ht
    next =>
      have hjoin : ((d.onBay b fun x => x.join c).bay b) = (d.bay b).join c := onBay_bay_same ..
      split
      next =>
        have hlock := ((d.onBay b fun x => x.join c).enterTrip b).lockoutTest_bay b (d.bay b).trips
        obtain ⟨hg, ho, hc, ht⟩ := (d.onBay b fun x => x.join c).tripBay_keeps b
        rw [enterTrip_bay] at hlock
        rw [hjoin] at hg ho hc ht
        exact takes_of_tripped hg ho hc ht (.inr (tripBay_state ..)) hlock
      next h =>
        have hlock := ((d.onBay b fun x => x.join c).bayNotice b 10 []).lockoutTest_bay b (d.bay b).trips
        rw [bayNotice_bay, hjoin] at hlock
        exact takes_of_tripped (q := (d.bay b).join c) rfl rfl rfl rfl (.inl ⟨rfl, not_or.mp h⟩) hlock

theorem takeCause_bay_other {d : Device} {b y : BayId} (h : y ≠ b) (c : TripCause) : (d.takeCause b c).bay y = d.bay y := by
  have hlock : ∀ (e : Device) (n : Nat), (e.lockoutTest b n).bay y = e.bay y := fun e n => by
    unfold lockoutTest
    split
    · rw [bayNotice_bay, onBay_bay_other _ _ _ _ h]
    · rfl
  rw [takeCause_eq]
  split
  · exact onBay_bay_other _ _ _ _ h
  split
  · rfl
  split
  · rw [hlock, enterTrip_bay_other h, onBay_bay_other _ _ _ _ h]
  · rw [hlock, bayNotice_bay, onBay_bay_other _ _ _ _ h]

/-- R82: a load that the test closes keeps its permissives, and no cause. -/
theorem loadTest_perms (d : Device) (b : BayId) : ((d.loadTest b).bay b).ground = (d.bay b).ground ∧
    ((d.loadTest b).bay b).overfill = (d.bay b).overfill ∧
    (((d.loadTest b).bay b).causes = (d.bay b).causes ∨ ((d.loadTest b).bay b).causes = .empty) := by
  cases ho : d.orderOf b with
  | none => rw [loadTest, ho]; exact ⟨rfl, rfl, .inl rfl⟩
  | some o =>
    obtain ⟨hdone, hnot⟩ := loadTest_eq ho
    by_cases hl : d.loadDone b o
    · rw [hdone hl, closeLoad_of_none hl.2.2, bayNotice_bay, onBay_bay_same, enterState, onBay_bay_same]
      split <;> exact ⟨rfl, rfl, .inr rfl⟩
    · rw [hnot hl]
      exact ⟨rfl, rfl, .inl rfl⟩

/-- R75: a bay whose last cause has gone is free of causes, wherever it passes to. -/
theorem clears_of_free {r q : Bay} {c : TripCause} (hg : q.ground = r.ground) (ho : q.overfill = r.overfill)
    (hq : q.causes = .empty) (hr : r.causes.put c false = .empty) (ht : r.state = .tripped) : r.Clears q c := by
  refine ⟨hg, ho, by rw [hq, CauseSet.has_empty], fun x _ => by rw [hq, CauseSet.has_empty], fun h => ?_⟩
  obtain ⟨x, hx, hhas⟩ := h.resolve_left (absurd ht)
  have hnone := r.causes.has_put c x false
  rw [hr, if_neg hx, CauseSet.has_empty, hhas] at hnone
  cases hnone

theorem clearCause_clears (d : Device) (b : BayId) (c : TripCause) : (d.bay b).Clears ((d.clearCause b c).bay b) c := by
  have hset : ∀ q : Bay, q = { d.bay b with causes := (d.bay b).causes.put c false } → (d.bay b).Clears q c := by
    rintro q rfl
    refine ⟨rfl, rfl, by rw [CauseSet.has_put, if_pos rfl], fun x hx => ?_, fun _ => ⟨rfl, rfl, fun x hx => ?_⟩⟩
    · rw [CauseSet.has_put, hx, ite_self]
    · rw [CauseSet.has_put, if_neg hx]
  unfold clearCause
  dsimp only
  split
  next h =>
    have hno : (d.bay b).causes.has c = false := by simpa using h
    exact ⟨rfl, rfl, hno, fun _ => id, fun _ => ⟨rfl, rfl, fun _ _ => rfl⟩⟩
  next =>
    have hd1 : ((d.onBay b fun x => { x with causes := x.causes.put c false }).bayNotice b 10 []).bay b =
        { d.bay b with causes := (d.bay b).causes.put c false } := by rw [bayNotice_bay, onBay_bay_same]
    generalize (d.onBay b fun x => { x with causes := x.causes.put c false }).bayNotice b 10 [] = d1 at hd1 ⊢
    split
    next h =>
      obtain ⟨hs, he, -⟩ := h
      rw [hd1] at hs he
      have hempty : (d.bay b).causes.put c false = .empty := (CauseSet.isEmpty_iff _).mp he
      have hd2 : (d1.onBay b fun x => { x with resumeTimer := none }).bay b =
          { d.bay b with causes := (d.bay b).causes.put c false, resumeTimer := none } := by rw [onBay_bay_same, hd1]
      generalize d1.onBay b (fun x => { x with resumeTimer := none }) = d2 at hd2 ⊢
      have hstate : ∀ st : BayState, st ≠ .tripped → (d2.bay b).state ≠ st := fun st hst => by
        rw [hd2]
        exact fun k => hst (k.symm.trans hs)
      split
      · rw [enterHeld_eq _ (hstate .held (by decide)), bayNotice_bay, onBay_bay_same, hd2]
        exact clears_of_free rfl rfl hempty hempty hs
      · rw [enterState_eq _ _ _ (hstate .loading (by decide))]
        obtain ⟨hg, ho, hc⟩ := loadTest_perms ((d2.onBay b fun r => { r with state := .loading, message := none }).bayNotice b 1 []) b
        rw [bayNotice_bay, onBay_bay_same, hd2] at hg ho hc
        exact clears_of_free hg ho (hc.elim (fun k => k.trans hempty) id) hempty hs
    next => exact hset _ hd1

end Device

/-! ### The report of one permissive (R166) -/

/-- What a report of a permissive with cause `c`, that stood as `was` and stands as `now`, makes of a bay's record. -/
structure Bay.Reported (r q : Bay) (c : TripCause) (was now : Bool) : Prop where
  quiet  : now = was → q = r
  lost   : was = true → now = false → r.state ∈ [BayState.loading, .holding, .tripped] → r.causes.has c = false →
    q.state = .tripped ∧ q.causes.has c = true ∧ q.trips = (r.join c).trips
  gained : was = false → now = true → q.causes.has c = false
  moves  : r.state ∈ [BayState.loading, .holding] → q.state ∈ [BayState.loading, .holding, .tripped] ∧
    (c ≠ .overfill → q.trips = r.trips) ∧ ∀ x, x ≠ c → q.causes.has x = r.causes.has x
  stays  : ∀ x, x ≠ c → r.state = .tripped → r.causes.has x = true → q.state = .tripped ∧ q.causes.has x = true
  absent : ∀ x, x ≠ c → r.causes.has x = false → q.causes.has x = false

theorem Bay.Reported.same (r : Bay) (c : TripCause) (was : Bool) : r.Reported r c was was where
  quiet _ := rfl
  lost h1 h2 := by rw [h1] at h2; cases h2
  gained h1 h2 := by rw [h1] at h2; cases h2
  moves h := ⟨List.mem_append_left [BayState.tripped] h, fun _ => rfl, fun _ _ => rfl⟩
  stays _ _ hs hx := ⟨hs, hx⟩
  absent _ _ h := h

/-- A permissive lost: the bay has stored it, and takes its cause. -/
theorem Bay.Takes.reported {r p q : Bay} {c : TripCause} (h : p.Takes q c) (hs : p.state = r.state) (hc : p.causes = r.causes)
    (ht : p.trips = r.trips) : r.Reported q c true false where
  quiet k := nomatch k
  lost _ _ hstate hcause := by
    obtain ⟨h1, h2, h3⟩ := h.joins (hs ▸ hstate) (hc ▸ hcause)
    exact ⟨h1, h2, by rw [h3, Bay.join, Bay.join, ht]⟩
  gained k := nomatch k
  moves hstate := by
    refine ⟨?_, fun hne => (h.trips hne).trans ht, fun x hx => (h.others x hx).trans (by rw [hc])⟩
    rcases h.state with hq | hq <;> rw [hq]
    · exact hs ▸ List.mem_append_left [BayState.tripped] hstate
    · exact (by decide : BayState.tripped ∈ [BayState.loading, .holding, .tripped])
  stays x hx hr hk := ⟨h.state.elim (fun k => k.trans (hs.trans hr)) id, (h.others x hx).trans (by rw [hc]; exact hk)⟩
  absent x hx hk := (h.others x hx).trans (by rw [hc]; exact hk)

/-- A permissive gained: the bay has stored it, and clears its cause. -/
theorem Bay.Clears.reported {r p q : Bay} {c : TripCause} (h : p.Clears q c) (hs : p.state = r.state) (hc : p.causes = r.causes)
    (ht : p.trips = r.trips) : r.Reported q c false true where
  quiet k := nomatch k
  lost k := nomatch k
  gained _ _ := h.gone
  moves hstate := by
    have hne : p.state ≠ .tripped := fun k => by
      rw [← hs, k] at hstate
      exact absurd hstate (by decide)
    obtain ⟨h1, h2, h3⟩ := h.stays (.inl hne)
    exact ⟨h1 ▸ hs ▸ List.mem_append_left [BayState.tripped] hstate, fun _ => h2.trans ht, fun x hx => (h3 x hx).trans (by rw [hc])⟩
  stays x hx hr hk := by
    obtain ⟨h1, -, h3⟩ := h.stays (.inr ⟨x, hx, hc ▸ hk⟩)
    exact ⟨h1.trans (hs.trans hr), (h3 x hx).trans (by rw [hc]; exact hk)⟩
  absent x _ hk := h.absent x (hc ▸ hk)

namespace Device

/-! ### One bay's permissives evaluated (R166) -/

/-- A report touches one bay and what is its own: every source stands as it stood. -/
structure SameSources (d e : Device) : Prop where
  bayRecs : e.bayRecs = d.bayRecs
  lm      : e.lm = d.lm
  lu      : e.lu = d.lu
  custody : e.custody = d.custody
  meters  : e.meters = d.meters

theorem SameSources.refl (d : Device) : d.SameSources d := ⟨rfl, rfl, rfl, rfl, rfl⟩

theorem SameSources.trans {d e f : Device} (h : d.SameSources e) (k : e.SameSources f) : d.SameSources f :=
  ⟨k.bayRecs.trans h.bayRecs, k.lm.trans h.lm, k.lu.trans h.lu, k.custody.trans h.custody, k.meters.trans h.meters⟩

theorem SameSources.of_within {b : BayId} {d e : Device} (h : d.Within b e) : d.SameSources e := by
  rw [← h.rest]
  exact ⟨rfl, rfl, rfl, rfl, rfl⟩

theorem SameSources.present {d e : Device} (h : d.SameSources e) (b : BayId) (src : PermSource) (top : Bool) :
    e.present b src top = d.present b src top := by
  cases src <;> simp only [Device.present, station, pair, line, h.lm, h.lu]

theorem SameSources.groundNow {d e : Device} (h : d.SameSources e) (b : BayId) : e.groundNow b = d.groundNow b := by
  simp only [Device.groundNow, bayRec, h.bayRecs, h.present]

theorem SameSources.overfillNow {d e : Device} (h : d.SameSources e) (b : BayId) : e.overfillNow b = d.overfillNow b := by
  simp only [Device.overfillNow, bayRec, h.bayRecs, h.present]

/-- A report of one permissive leaves the other bays, the sources and the other permissive. -/
def ReportFrame (d e : Device) (b : BayId) : Prop := d.SameSources e ∧ ∀ y, y ≠ b → e.bay y = d.bay y

theorem ReportFrame.trans {d e f : Device} {b : BayId} (h : d.ReportFrame e b) (k : e.ReportFrame f b) : d.ReportFrame f b :=
  ⟨h.1.trans k.1, fun y hy => (k.2 y hy).trans (h.2 y hy)⟩

theorem onBay_reportFrame (d : Device) (b : BayId) (f : Bay → Bay) : d.ReportFrame (d.onBay b f) b :=
  ⟨.of_within (onBay_within ..), fun _ hy => onBay_bay_other _ _ _ _ hy⟩

theorem takeCause_reportFrame (d : Device) (b : BayId) (c : TripCause) : d.ReportFrame (d.takeCause b c) b :=
  ⟨.of_within (takeCause_within ..), fun _ hy => takeCause_bay_other hy c⟩

theorem clearCause_reportFrame (d : Device) (b : BayId) (c : TripCause) : d.ReportFrame (d.clearCause b c) b :=
  ⟨.of_within (clearCause_ofBay d b c).within, (clearCause_ofBay d b c).others⟩

/-- R65: the ground permissive reported where it has changed. -/
def groundTest (d : Device) (b : BayId) (g : Bool) : Device := if g = (d.bay b).ground then d else d.reportGround b g

/-- R65: the overfill permissive reported where it has changed. -/
def overfillTest (d : Device) (b : BayId) (o : Bool) : Device := if o = (d.bay b).overfill then d else d.reportOverfill b o

theorem evalBay_eq (d : Device) (b : BayId) :
    d.evalBay b = (d.groundTest b (d.groundNow b)).overfillTest b (d.overfillNow b) := rfl

theorem groundTest_reported (d : Device) (b : BayId) (g : Bool) :
    (d.bay b).Reported ((d.groundTest b g).bay b) .ground (d.bay b).ground g ∧ ((d.groundTest b g).bay b).ground = g ∧
    ((d.groundTest b g).bay b).overfill = (d.bay b).overfill ∧ d.ReportFrame (d.groundTest b g) b := by
  have hbay : (d.onBay b fun r => { r with ground := g }).bay b = { d.bay b with ground := g } := onBay_bay_same ..
  have hstored := d.onBay_reportFrame b fun r => { r with ground := g }
  unfold groundTest
  split
  next h => exact ⟨h ▸ .same .., h.symm, rfl, ⟨.refl d, fun _ _ => rfl⟩⟩
  next h =>
    cases g with
    | true =>
      have hwas : (d.bay b).ground = false := by simpa using h
      have hclears := (d.onBay b fun r => { r with ground := true }).clearCause_clears b .ground
      rw [hbay] at hclears
      rw [hwas]
      exact ⟨hclears.reported (r := d.bay b) rfl rfl rfl, hclears.ground, hclears.overfill, hstored.trans (clearCause_reportFrame ..)⟩
    | false =>
      have hwas : (d.bay b).ground = true := by simpa using h
      have htakes := (d.onBay b fun r => { r with ground := false }).takeCause_takes b .ground
      rw [hbay] at htakes
      rw [hwas]
      exact ⟨htakes.reported (r := d.bay b) rfl rfl rfl, htakes.ground, htakes.overfill, hstored.trans (takeCause_reportFrame ..)⟩

theorem overfillTest_reported (d : Device) (b : BayId) (o : Bool) :
    (d.bay b).Reported ((d.overfillTest b o).bay b) .overfill (d.bay b).overfill o ∧ ((d.overfillTest b o).bay b).overfill = o ∧
    ((d.overfillTest b o).bay b).ground = (d.bay b).ground ∧ d.ReportFrame (d.overfillTest b o) b := by
  have hbay : (d.onBay b fun r => { r with overfill := o }).bay b = { d.bay b with overfill := o } := onBay_bay_same ..
  have hstored := d.onBay_reportFrame b fun r => { r with overfill := o }
  unfold overfillTest
  split
  next h => exact ⟨h ▸ .same .., h.symm, rfl, ⟨.refl d, fun _ _ => rfl⟩⟩
  next h =>
    cases o with
    | true =>
      have hwas : (d.bay b).overfill = false := by simpa using h
      have hclears := (d.onBay b fun r => { r with overfill := true }).clearCause_clears b .overfill
      rw [hbay] at hclears
      rw [hwas]
      exact ⟨hclears.reported (r := d.bay b) rfl rfl rfl, hclears.overfill, hclears.ground, hstored.trans (clearCause_reportFrame ..)⟩
    | false =>
      have hwas : (d.bay b).overfill = true := by simpa using h
      have htakes := (d.onBay b fun r => { r with overfill := false }).takeCause_takes b .overfill
      rw [hbay] at htakes
      rw [hwas]
      exact ⟨htakes.reported (r := d.bay b) rfl rfl rfl, htakes.overfill, htakes.ground, hstored.trans (takeCause_reportFrame ..)⟩

end Device

/-- R65, R73, R75: what a bay's record `r` becomes when its permissives are found to stand as `g` and `o`. -/
structure Bay.Follows (r q : Bay) (g o : Bool) : Prop where
  stands    : q.ground = g ∧ q.overfill = o
  ungrounds : r.ground = true → q.ground = false → r.state ∈ [BayState.loading, .holding] → r.causes.ground = false →
    q.state = .tripped ∧ q.causes.ground = true
  overfills : r.overfill = true → q.overfill = false → r.state ∈ [BayState.loading, .holding] → r.causes.overfill = false →
    q.state = .tripped ∧ q.causes.overfill = true ∧ q.trips = min 2 (r.trips + 1)
  grounds   : r.ground = false → q.ground = true → q.causes.ground = false
  empties   : r.overfill = false → q.overfill = true → q.causes.overfill = false
  same      : q.ground = r.ground → q.overfill = r.overfill → q = r

/-- R166: the two reports one after the other, ground first. -/
theorem Bay.Reported.follows {r m q : Bay} {g o : Bool} (h : r.Reported m .ground r.ground g) (k : m.Reported q .overfill m.overfill o)
    (hg : m.ground = g) (hm : m.overfill = r.overfill) (ho : q.overfill = o) (hq : q.ground = m.ground) : r.Follows q g o := by
  have hground : q.ground = g := hq.trans hg
  rw [hm] at k
  refine ⟨⟨hground, ho⟩, fun h1 h2 hs hc => ?_, fun h1 h2 hs hc => ?_, fun h1 h2 => ?_, fun h1 h2 => ?_, fun h1 h2 => ?_⟩
  · obtain ⟨htripped, hcause, -⟩ := h.lost h1 (hground ▸ h2) (List.mem_append_left [BayState.tripped] hs) hc
    exact k.stays .ground (by decide) htripped hcause
  · obtain ⟨hstate, htrips, hothers⟩ := h.moves hs
    obtain ⟨htripped, hcause, hcount⟩ := k.lost h1 (ho ▸ h2) hstate ((hothers .overfill (by decide)).trans hc)
    refine ⟨htripped, hcause, hcount.trans ?_⟩
    rw [Bay.join, htrips (by decide)]
    rfl
  · exact k.absent .ground (by decide) (h.gained h1 (hground ▸ h2))
  · exact k.gained h1 (ho ▸ h2)
  · rw [k.quiet (ho ▸ h2), h.quiet (hground ▸ h1)]

namespace Device

theorem evalBay_follows (d : Device) (b : BayId) :
    (d.bay b).Follows ((d.evalBay b).bay b) (d.groundNow b) (d.overfillNow b) ∧ d.ReportFrame (d.evalBay b) b := by
  obtain ⟨h, hg, hm, hframe⟩ := d.groundTest_reported b (d.groundNow b)
  obtain ⟨k, ho, hq, kframe⟩ := (d.groundTest b (d.groundNow b)).overfillTest_reported b (d.overfillNow b)
  rw [evalBay_eq]
  exact ⟨h.follows k hg hm ho hq, hframe.trans kframe⟩

/-! ### Every bay's permissives evaluated (R166) -/

theorem foldl_evalBay_follows (l : List BayId) (hl : l.Nodup) (d : Device) : d.SameSources (l.foldl evalBay d) ∧
    (∀ y, y ∉ l → (l.foldl evalBay d).bay y = d.bay y) ∧
    ∀ y ∈ l, (d.bay y).Follows ((l.foldl evalBay d).bay y) (d.groundNow y) (d.overfillNow y) := by
  induction l generalizing d with
  | nil => exact ⟨.refl d, fun _ _ => rfl, fun _ h => (nomatch h)⟩
  | cons b t ih =>
    obtain ⟨hb, ht⟩ := List.nodup_cons.mp hl
    obtain ⟨hself, hsources, hothers⟩ := d.evalBay_follows b
    obtain ⟨isources, ithers, ifollows⟩ := ih ht (d.evalBay b)
    rw [List.foldl_cons]
    refine ⟨hsources.trans isources, fun y hy => ?_, fun y hy => ?_⟩
    · rw [List.mem_cons, not_or] at hy
      rw [ithers y hy.2, hothers y hy.1]
    · by_cases hyb : y = b
      · rw [hyb, ithers b hb]
        exact hself
      · have h := ifollows y ((List.mem_cons.mp hy).resolve_left hyb)
        rwa [hothers y hyb, hsources.groundNow, hsources.overfillNow] at h

/-- R166: an evaluation that sees the bays as they were in `d` has every bay's permissives follow. -/
theorem evalPermissives_follow {d f : Device} (hf : ∀ b, f.bay b = d.bay b) :
    d.permissivesFollow f.evalPermissives ∧ f.SameSources f.evalPermissives := by
  obtain ⟨hsources, -, hfollows⟩ := foldl_evalBay_follows allBays (by decide) f
  have hall : ∀ b, (d.bay b).Follows (f.evalPermissives.bay b) (f.evalPermissives.groundNow b) (f.evalPermissives.overfillNow b) :=
    fun b => by
      rw [evalPermissives, hsources.groundNow, hsources.overfillNow, ← hf]
      exact hfollows b (mem_allBays b)
  exact ⟨⟨fun b => (hall b).stands, fun b => (hall b).ungrounds, fun b => (hall b).overfills, fun b => (hall b).grounds,
    fun b => (hall b).empties, fun b => (hall b).same⟩, hsources⟩

/-! ### Held pairs (R165) -/

/-- R165: a held pair replaced and every permissive evaluated. -/
theorem setPair_follow {d e : Device} {n : Addr} {p : HeldPair} (h : e = (d.setPair n p).evalPermissives) :
    e.pair n = p ∧ (∀ m, m ≠ n → e.pair m = d.pair m) ∧ d.permissivesFollow e ∧
    e.custody = d.custody ∧ e.lm.stations = d.lm.stations ∧ e.meters = d.meters := by
  obtain ⟨hfollow, hsources⟩ := evalPermissives_follow (d := d) (f := d.setPair n p) fun _ => rfl
  rw [← h] at hfollow hsources
  have hpair : ∀ m, e.pair m = (d.setPair n p).pair m := fun m => by rw [pair, hsources.lu, ← pair]
  refine ⟨(hpair n).trans (Bank.read_write_same ..), fun m hm => (hpair m).trans (Bank.read_write_other _ _ _ _ hm), hfollow,
    hsources.custody, ?_, hsources.meters⟩
  rw [hsources.lm]
  rfl

/-- Whether a bay record names a station as a source of its permissives (R165). -/
def namesPermit (d : Device) (n : Addr) : Prop := ∃ b r, d.bayRec b = some r ∧ (r.ground = .station n ∨ r.overfill = .station n)

theorem permitReturn_eq (d : Device) (n : Addr) (g o : Bool) :
    (d.namesPermit n → d.permitReturn n g o = (d.setPair n ⟨g, o, true⟩).evalPermissives) ∧
    (¬ d.namesPermit n → d.permitReturn n g o = d) := by
  have hany : (allBays.any fun b =>
      match d.bayRec b with
      | some r => r.ground == .station n || r.overfill == .station n
      | none => false) = true ↔ d.namesPermit n := by
    rw [List.any_eq_true]
    refine exists_congr fun b => ?_
    cases d.bayRec b <;> simp [mem_allBays]
  exact ⟨fun h => if_pos (hany.mpr h), fun h => if_neg (mt hany.mp h)⟩

end Device

open Device

/-- Settles O26: where a permissive stands, then each held pair that changes with what the bays make of it. -/
theorem permissivesFollowTheirSources : Obligations.PermissivesFollowTheirSources := by
  refine ⟨present_station_iff, present_line_iff, fun d n => ⟨fun h g o e he => ?_, fun h g o => ?_, fun e he => setPair_follow he⟩⟩
  · rw [(d.permitReturn_eq n g o).1 h] at he
    exact setPair_follow he
  · refine (d.permitReturn_eq n g o).2 ?_
    rintro ⟨b, r, hr, hn⟩
    obtain ⟨hground, hoverfill⟩ := h b r hr
    exact hn.elim hground hoverfill

end Sys2Proof.Machine
end

