-- ==== Sys2Proof/Proofs/WithdrawnOrders.lean ====
section
/-! What a withdrawal undoes (R107, R128, R135): the reservations of the order, its place in the queue, and the slot of the
bay's note. -/

namespace Sys2Proof.Machine

open Sys2Proof

/-! ### An order's lines and its account, released one by one (R104, R107) -/

/-- A line with no reservation. -/
def OrderLine.freed (l : OrderLine) : OrderLine := { l with reservation := none }

/-- An order whose first `n` lines have given up their reservations. -/
def Order.releasedTo (o : Order) (n : Nat) : Order := { o with lines := o.lines.mapIdx fun j l => if j < n then l.freed else l }

/-- R104: an account to which a line gives back its reservation, for nothing. -/
def Account.returned (x : Account) (l : OrderLine) : Account :=
  match l.reservation with
  | some p => (x.release p l.preset).deduct p 0
  | none => x

namespace Order
variable (o : Order)

theorem releasedTo_zero : o.releasedTo 0 = o := by
  have hlines : (o.lines.mapIdx fun j l => if j < 0 then l.freed else l) = o.lines :=
    List.ext_getElem? fun i => by simp [List.getElem?_mapIdx]
  rw [releasedTo, hlines]

theorem releasedTo_succ (n : Nat) : o.releasedTo (n + 1) = (o.releasedTo n).onLine n OrderLine.freed := by
  refine congrArg (fun l => { o with lines := l }) (List.ext_getElem? fun i => ?_)
  have hline : ∀ l : OrderLine, (if i < n + 1 then l.freed else l) =
      if n = i then (if i < n then l.freed else l).freed else if i < n then l.freed else l := fun l => by
    by_cases hi : n = i
    · subst hi
      simp
    · rw [if_neg hi]
      exact if_congr (by omega) rfl rfl
  rw [List.getElem?_mapIdx, List.getElem?_modify, releasedTo, List.getElem?_mapIdx]
  cases o.lines[i]? with
  | none => rfl
  | some l => exact congrArg some (hline l)

/-- A line that reserves nothing has nothing to give up. -/
theorem releasedTo_succ_same {n : Nat} (h : ∀ l, o.lines[n]? = some l → l.reservation = none) :
    o.releasedTo (n + 1) = o.releasedTo n := by
  refine congrArg (fun l => { o with lines := l }) (List.ext_getElem? fun i => ?_)
  rw [List.getElem?_mapIdx, List.getElem?_mapIdx]
  cases hl : o.lines[i]? with
  | none => rfl
  | some l =>
    refine congrArg some ?_
    by_cases hi : i = n
    · subst hi
      have hfree : l.freed = l := by rw [OrderLine.freed, ← h l hl]
      dsimp only
      rw [hfree, ite_self, ite_self]
    · exact if_congr (by omega) rfl rfl

theorem releasedTo_lines {n : Nat} (h : o.lines.length ≤ n) : (o.releasedTo n).lines = o.lines.map OrderLine.freed := by
  refine List.ext_getElem? fun i => ?_
  rw [releasedTo, List.getElem?_mapIdx, List.getElem?_map]
  cases hl : o.lines[i]? with
  | none => rfl
  | some l =>
    have hi := (List.getElem?_eq_some_iff.mp hl).1
    exact congrArg some (if_pos (by omega))

end Order

/-- R104, R107: what each reservation given back leaves of an account. -/
theorem foldl_returned (l : List OrderLine) (x : Account) :
    (l.foldl Account.returned x).number = x.number ∧ (l.foldl Account.returned x).state = x.state ∧
    (l.foldl Account.returned x).enforcement = x.enforcement ∧
    (∀ p, Bank.read (l.foldl Account.returned x).reserved p =
      Bank.read x.reserved p - ((l.filter fun y => y.reservation == some p).map OrderLine.preset).sum) ∧
    ((∀ p, -2147483648 ≤ Bank.read x.remaining p) → (l.foldl Account.returned x).remaining = x.remaining) := by
  induction l generalizing x with
  | nil => exact ⟨rfl, rfl, rfl, fun p => by simp, fun _ => rfl⟩
  | cons y t ih =>
    rw [List.foldl_cons]
    obtain ⟨hnumber, hstate, henforcement, hreserved, hremaining⟩ := ih (x.returned y)
    cases hy : y.reservation with
    | none =>
      have hsame : x.returned y = x := by rw [Account.returned, hy]
      rw [hsame] at hnumber hstate henforcement hreserved hremaining ⊢
      refine ⟨hnumber, hstate, henforcement, fun p => ?_, hremaining⟩
      rw [hreserved, List.filter_cons_of_neg (by rw [hy]; exact Bool.false_ne_true)]
    | some q =>
      have hback : x.returned y = (x.release q y.preset).deduct q 0 := by rw [Account.returned, hy]
      rw [hback] at hnumber hstate henforcement hreserved hremaining ⊢
      refine ⟨hnumber, hstate, henforcement, fun p => ?_, fun hx => ?_⟩
      · rw [hreserved]
        show Bank.read (Bank.write x.reserved q (Bank.read x.reserved q - y.preset)) p - _ = _
        by_cases hp : p = q
        · subst hp
          rw [Bank.read_write_same, List.filter_cons_of_pos (by rw [hy]; exact beq_self_eq_true _), List.map_cons, List.sum_cons,
            Nat.sub_sub]
        · rw [Bank.read_write_other _ _ _ _ hp, List.filter_cons_of_neg]
          rw [hy, beq_iff_eq]
          exact fun h => hp (Option.some.inj h).symm
      · have hkept : ((x.release q y.preset).deduct q 0).remaining = x.remaining := by
          show Bank.write x.remaining q (max (-2147483648) (Bank.read x.remaining q - ((0 : Nat) : Int))) = _
          have hq := hx q
          rw [max_eq_right (by omega), Int.ofNat_zero, Int.sub_zero]
          exact Bank.write_read _ _
        rw [hkept] at hremaining
        exact hremaining hx

namespace Device

/-! ### The queue and the accounts, line by line -/

theorem orderNumbered_onOrder_other (d : Device) {n m : Nat} (f : Order → Order) (hf : ∀ o, (f o).number = o.number) (h : m ≠ n) :
    (d.onOrder n f).orderNumbered m = d.orderNumbered m := by
  have hnumber : ((fun o : Order => o.number == m) ∘ fun o => if o.number == n then f o else o) = fun o => o.number == m := by
    funext o
    rw [Function.comp_apply]
    split
    · rw [hf]
    · rfl
  show (d.orders.map fun o => if o.number == n then f o else o).find? (fun o => o.number == m) = _
  rw [List.find?_map, hnumber, orderNumbered]
  cases ho : d.orders.find? fun o => o.number == m with
  | none => rfl
  | some o =>
    have hm : o.number = m := by simpa using List.find?_some ho
    exact congrArg some (if_neg (by rw [hm, beq_iff_eq]; exact h))

theorem get_onAccount (d : Device) (i j : Nat) (f : Account → Account) : Sparse.get j (d.onAccount i f).accounts =
    if j = i then (Sparse.get i d.accounts).map f else Sparse.get j d.accounts := by
  unfold onAccount
  cases h : Sparse.get i d.accounts with
  | none =>
    dsimp only
    split
    next hj => rw [hj, h]; rfl
    next => rfl
  | some x =>
    show Sparse.get j (Sparse.put i (f x) d.accounts) = _
    split
    next hj => rw [hj, Sparse.get_put_same]; rfl
    next hj => exact Sparse.get_put_other _ _ _ _ hj

/-- The part after the first `n` lines of an order have given up their reservations. -/
def releasedTo (d : Device) (o : Order) (n : Nat) : Device := (List.range n).foldl (fun e k => e.releaseLine o k 0) d

theorem releasedTo_succ (d : Device) (o : Order) (n : Nat) : d.releasedTo o (n + 1) = (d.releasedTo o n).releaseLine o n 0 := by
  rw [releasedTo, List.range_succ, List.foldl_append]
  rfl

theorem releaseLines_all (d : Device) (o : Order) : (d.releaseLines o fun _ => true) = d.releasedTo o o.lines.length := by
  refine congrArg (fun f => List.foldl f d (List.range o.lines.length)) ?_
  funext e k
  unfold releaseLine
  cases o.lines[k]? <;> rfl

/-- R104, R107: the queue and the accounts after the first `n` lines of the order found by its number. -/
theorem releasedTo_leaves {d : Device} {o : Order} (ho : d.orderNumbered o.number = some o) (n : Nat) :
    (d.releasedTo o n).orders.map Order.number = d.orders.map Order.number ∧
    (d.releasedTo o n).orderNumbered o.number = some (o.releasedTo n) ∧
    (∀ m, m ≠ o.number → (d.releasedTo o n).orderNumbered m = d.orderNumbered m) ∧
    Sparse.get o.account (d.releasedTo o n).accounts =
      (Sparse.get o.account d.accounts).map (fun x => (o.lines.take n).foldl Account.returned x) ∧
    ∀ i, i ≠ o.account → Sparse.get i (d.releasedTo o n).accounts = Sparse.get i d.accounts := by
  induction n with
  | zero =>
    rw [Order.releasedTo_zero]
    exact ⟨rfl, ho, fun _ _ => rfl, Option.map_id'.symm, fun _ _ => rfl⟩
  | succ n ih =>
    obtain ⟨hnumbers, hself, hothers, hget, hgets⟩ := ih
    rw [releasedTo_succ]
    generalize d.releasedTo o n = e at hnumbers hself hothers hget hgets ⊢
    have hstill : (∀ l, o.lines[n]? = some l → l.reservation = none) → e.releaseLine o n 0 = e ∧
        (fun x => (o.lines.take (n + 1)).foldl Account.returned x) = fun x => (o.lines.take n).foldl Account.returned x := fun h => by
      rw [List.take_add_one]
      unfold releaseLine
      cases hl : o.lines[n]? with
      | none => exact ⟨rfl, funext fun x => by simp⟩
      | some l =>
        dsimp only
        rw [h l hl]
        exact ⟨rfl, funext fun x => by simp [Account.returned, h l hl]⟩
    by_cases h : ∀ l, o.lines[n]? = some l → l.reservation = none
    · obtain ⟨hsame, haccount⟩ := hstill h
      rw [hsame, haccount, o.releasedTo_succ_same h]
      exact ⟨hnumbers, hself, hothers, hget, hgets⟩
    · push Not at h
      obtain ⟨l, hl, hr⟩ := h
      obtain ⟨p, hp⟩ := Option.ne_none_iff_exists'.mp hr
      have hline : e.releaseLine o n 0 = (e.onAccount o.account fun a => (a.release p l.preset).deduct p 0).onOrder o.number
          fun x => x.onLine n OrderLine.freed := by
        unfold releaseLine
        rw [hl]
        dsimp only
        rw [hp]
        rfl
      have hnumber : ∀ x : Order, (x.onLine n OrderLine.freed).number = x.number := fun _ => rfl
      have hfound : ∀ m, (e.onAccount o.account fun a => (a.release p l.preset).deduct p 0).orderNumbered m = e.orderNumbered m :=
        fun m => by rw [orderNumbered, onAccount_orders, ← orderNumbered]
      have haccounts : ∀ i, Sparse.get i (e.releaseLine o n 0).accounts =
          if i = o.account then (Sparse.get o.account e.accounts).map fun a => (a.release p l.preset).deduct p 0
          else Sparse.get i e.accounts := fun i => by
        rw [hline]
        exact get_onAccount ..
      refine ⟨(releaseLine_numbers ..).trans hnumbers, ?_, fun m hm => ?_, ?_, fun i hi => ?_⟩
      · rw [hline, orderNumbered_onOrder _ _ _ hnumber, hfound, hself, o.releasedTo_succ]
        rfl
      · rw [hline, orderNumbered_onOrder_other _ _ hnumber hm, hfound, hothers m hm]
      · rw [haccounts, if_pos rfl, hget, Option.map_map, List.take_add_one, hl]
        refine congrArg (fun f => Option.map f _) (funext fun x => ?_)
        simp [Account.returned, hp]
      · rw [haccounts, if_neg hi, hgets i hi]

/-! ### The order withdrawn (R107) -/

/-- AU's part of a withdrawal before the slot is given up: the reservations released, and the order queued again or gone. -/
def orderReturned (d : Device) (o : Order) (removed : Bool) : Device :=
  if removed then (d.releaseLines o fun _ => true).onOrders fun q => q.filter fun x => x.number != o.number
  else (d.releaseLines o fun _ => true).onOrder o.number fun x => { x with state := .queued, assignment := none }

theorem withdrawOrder_eq {d : Device} {b : BayId} {o : Order} (removed : Bool) (ho : d.orderOf b = some o) :
    d.withdrawOrder b removed = (d.orderReturned o removed).giveUpSlot b := by
  unfold withdrawOrder orderReturned
  rw [ho]

theorem orderReturned_rest (d : Device) (o : Order) (removed : Bool) : { d with
    accounts := (d.orderReturned o removed).accounts, orders := (d.orderReturned o removed).orders } = d.orderReturned o removed := by
  unfold orderReturned
  split <;> rw [← releaseLines_rest] <;> rfl

theorem orderReturned_accounts (d : Device) (o : Order) (removed : Bool) :
    (d.orderReturned o removed).accounts = (d.releasedTo o o.lines.length).accounts := by
  unfold orderReturned
  rw [releaseLines_all]
  split <;> rfl

section Orders
variable {d : Device} {o : Order} (ho : d.orderNumbered o.number = some o)
include ho

/-- R107: the account of the order with every reservation given back. -/
theorem orderReturned_account (removed : Bool) :
    (∀ x, Sparse.get o.account d.accounts = some x → ∃ y, Sparse.get o.account (d.orderReturned o removed).accounts = some y ∧
      y.number = x.number ∧ y.state = x.state ∧ y.enforcement = x.enforcement ∧
      (∀ p, Bank.read y.reserved p =
        Bank.read x.reserved p - ((o.lines.filter fun l => l.reservation == some p).map OrderLine.preset).sum) ∧
      ((∀ p, -2147483648 ≤ Bank.read x.remaining p) → y.remaining = x.remaining)) ∧
    ∀ i, i ≠ o.account → Sparse.get i (d.orderReturned o removed).accounts = Sparse.get i d.accounts := by
  obtain ⟨-, -, -, hget, hgets⟩ := releasedTo_leaves ho o.lines.length
  rw [orderReturned_accounts]
  refine ⟨fun x hx => ⟨o.lines.foldl Account.returned x, ?_, foldl_returned o.lines x⟩, hgets⟩
  rw [hget, hx, List.take_length]
  rfl

/-- R107: the order is QUEUED again at its place, with no assignment and no reservation. -/
theorem orderReturned_queued :
    (d.orderReturned o false).orders.map Order.number = d.orders.map Order.number ∧
    (∃ q, (d.orderReturned o false).orderNumbered o.number = some q ∧ q.state = .queued ∧ q.assignment = none ∧
      q.lines.map OrderLine.preset = o.lines.map OrderLine.preset ∧ ∀ l ∈ q.lines, l.reservation = none) ∧
    ∀ n, n ≠ o.number → (d.orderReturned o false).orderNumbered n = d.orderNumbered n := by
  obtain ⟨hnumbers, hself, hothers, -⟩ := releasedTo_leaves ho o.lines.length
  have hlines := o.releasedTo_lines le_rfl
  have hnumber : ∀ x : Order, ({ x with state := .queued, assignment := none } : Order).number = x.number := fun _ => rfl
  rw [orderReturned, if_neg Bool.false_ne_true, releaseLines_all]
  refine ⟨(onOrder_numbers _ _ _ hnumber).trans hnumbers, ⟨{ o.releasedTo o.lines.length with state := .queued, assignment := none },
    ?_, rfl, rfl, ?_, fun l hl => ?_⟩, fun n hn => ?_⟩
  · rw [orderNumbered_onOrder _ _ _ hnumber, hself]
    rfl
  · show (o.releasedTo o.lines.length).lines.map OrderLine.preset = _
    rw [hlines, List.map_map]
    rfl
  · have hmem : l ∈ (o.releasedTo o.lines.length).lines := hl
    rw [hlines] at hmem
    obtain ⟨y, -, rfl⟩ := List.mem_map.mp hmem
    rfl
  · rw [orderNumbered_onOrder_other _ _ hnumber hn, hothers n hn]

/-- R97: an order cancelled is gone from the queue, and no other order is. -/
theorem orderReturned_removed :
    (d.orderReturned o true).orders.map Order.number = (d.orders.filter fun x => x.number != o.number).map Order.number ∧
    (d.orderReturned o true).orderNumbered o.number = none ∧
    ∀ n, n ≠ o.number → (d.orderReturned o true).orderNumbered n = d.orderNumbered n := by
  obtain ⟨hnumbers, -, hothers, -⟩ := releasedTo_leaves ho o.lines.length
  have hfilter : ∀ l : List Order, (l.filter fun x => x.number != o.number).map Order.number =
      (l.map Order.number).filter fun n => n != o.number := fun l => by
    rw [List.filter_map]
    rfl
  have horders : (d.orderReturned o true).orders =
      (d.releasedTo o o.lines.length).orders.filter fun x => x.number != o.number := by
    rw [orderReturned, if_pos rfl, releaseLines_all]
    rfl
  refine ⟨?_, ?_, fun n hn => ?_⟩
  · rw [horders, hfilter, hnumbers, ← hfilter]
  · rw [orderNumbered, horders, List.find?_filter, List.find?_eq_none]
    simp
  · rw [← hothers n hn, orderNumbered, horders, List.find?_filter, orderNumbered]
    refine congrArg (fun p => List.find? p _) (funext fun x => ?_)
    rw [Bool.eq_iff_iff]
    simp only [bne_iff_ne, ne_eq, decide_eq_true_eq, beq_iff_eq, and_iff_right_iff_imp]
    rintro rfl
    exact hn

end Orders

/-! ### The slot given up (R128, R135) -/

theorem reservedSlot_reserved {d : Device} {b : BayId} {k : SlotId} (h : d.reservedSlot b = some k) : ∃ f, d.slot k = .reserved b f := by
  have hfor : (d.slot k).reservedFor b = true := List.find?_some (p := fun k => (d.slot k).reservedFor b) h
  exact (reservedFor_iff b _).mp hfor

/-- A slot of another bay made FREE leaves the slot that a bay has RESERVED. -/
theorem reservedSlot_setSlot_free {d : Device} {b y : BayId} {k : SlotId} (hk : d.reservedSlot b = some k) (hy : y ≠ b) :
    (d.setSlot k .free).reservedSlot y = d.reservedSlot y := by
  obtain ⟨f, hf⟩ := reservedSlot_reserved hk
  refine congrArg (fun p => allSlots.find? p) (funext fun j => ?_)
  rw [setSlot_slot]
  split
  next hj =>
    rw [hj, hf]
    exact (beq_eq_false_iff_ne.mpr hy.symm).symm
  next => rfl

/-- R135: the directory when a stalled commit is given the slot. -/
theorem slotGiven_slot {d : Device} {b y : BayId} {k : SlotId} (hk : d.reservedSlot b = some k) (hy : y ≠ b) (j : SlotId) :
    (d.slotGiven k y).slot j =
      if j = k then .reserved y false else if d.reservedSlot y = some j then .bad else d.slot j := by
  have hown := reservedSlot_setSlot_free hk hy
  unfold slotGiven failSlotOf
  rw [hown, onNoteBay_slot, setSlot_slot]
  split
  next => rfl
  next hj =>
    cases d.reservedSlot y with
    | none => rw [if_neg nofun, setSlot_slot, if_neg hj]
    | some i =>
      dsimp only
      rw [setSlot_slot, setSlot_slot, if_neg hj]
      exact if_congr ⟨fun h => congrArg some h.symm, fun h => (Option.some.inj h).symm⟩ rfl rfl

theorem slotGiven_noteBay (d : Device) (k : SlotId) (y : BayId) :
    (d.slotGiven k y).noteBay y = { d.noteBay y with stall := none } := by
  unfold slotGiven failSlotOf
  rw [onNoteBay_noteBay_same]
  split <;> rfl

section Slots
variable {d : Device} {b : BayId} {k : SlotId} (hk : d.reservedSlot b = some k)
include hk

theorem giveUpSlot_frees (h : d.firstStalled = none) : d.giveUpSlot b = d.setSlot k .free := by
  rw [giveUpSlot, hk]
  exact slotAvailable_free k h

/-- R135: the slot goes to the commit whose stall began first, and its barrier is queued again. -/
theorem giveUpSlot_gives {y : BayId} (h : d.firstStalled = some y) (hy : y ≠ b) :
    (∀ j, (d.giveUpSlot b).slot j = if j = k then .reserved y false else if d.reservedSlot y = some j then .bad else d.slot j) ∧
    ((d.giveUpSlot b).noteBay y).stall = none ∧
    ∀ i, (d.noteBay y).held = some i →
      ∃ q ∈ (d.giveUpSlot b).cw.queue, ∃ x, q.body = .barrier x ∧ x.bay = y ∧ x.slot = k ∧ x.image = i := by
  have hslots := slotGiven_slot hk hy
  have hnote := d.slotGiven_noteBay k y
  rw [giveUpSlot, hk]
  dsimp only
  rw [slotAvailable_given k h, hnote]
  generalize d.slotGiven k y = e at hslots hnote ⊢
  have hstall : (e.noteBay y).stall = none := by rw [hnote]
  cases hi : (d.noteBay y).held with
  | none => exact ⟨hslots, hstall, fun i h' => nomatch h'⟩
  | some i =>
    refine ⟨hslots, hstall, fun j hj => ⟨⟨e.cw.nextId, .barrier ⟨y, k, i, none, .body⟩, false⟩, ?_, ⟨y, k, i, none, .body⟩, rfl, rfl, rfl,
      Option.some.inj hj⟩⟩
    exact List.mem_append_left _ (List.mem_append_right _ (List.mem_singleton_self _))

end Slots

/-- The part on which a bay gives up its slot, the order returned, has directory, stalls and queue as they were. -/
theorem orderReturned_slots (d : Device) (o : Order) (removed : Bool) (b : BayId) :
    (d.orderReturned o removed).reservedSlot b = d.reservedSlot b ∧ (d.orderReturned o removed).firstStalled = d.firstStalled ∧
    (∀ j, (d.orderReturned o removed).slot j = d.slot j) ∧ (d.orderReturned o removed).cw = d.cw ∧
    ∀ y, (d.orderReturned o removed).noteBay y = d.noteBay y := by
  rw [← orderReturned_rest]
  exact ⟨rfl, rfl, fun _ => rfl, rfl, fun _ => rfl⟩

theorem withdrawnBy_stops (c : WithdrawCause) (r : Bay) :
    (r.withdrawnBy c).order = none ∧ (r.withdrawnBy c).authTimer = .stopped := by
  unfold Bay.withdrawnBy
  split
  · exact ⟨rfl, rfl⟩
  · split <;> exact ⟨rfl, rfl⟩

section Withdrawal
variable {d : Device} {b : BayId} {o : Order} {c : WithdrawCause} (h : d.hasAuthorization b) (ho : d.orderOf b = some o)
include h ho

/-- R71, R107: besides the bay and the notices, a withdrawal leaves what the slot given up leaves. -/
theorem withdraw_returns : (d.withdraw b c).orders = (d.orderReturned o (c == .orderCancel)).orders ∧
    (d.withdraw b c).accounts = (d.orderReturned o (c == .orderCancel)).accounts ∧
    (d.withdraw b c).nu = ((d.orderReturned o (c == .orderCancel)).giveUpSlot b).nu ∧
    (d.withdraw b c).cw = ((d.orderReturned o (c == .orderCancel)).giveUpSlot b).cw := by
  have hgive := giveUpSlot_rest (d.orderReturned o (c == .orderCancel)) b
  rw [withdraw_eq c h, withdrawOrder_eq _ ho]
  generalize (d.orderReturned o (c == .orderCancel)).giveUpSlot b = e at hgive ⊢
  rw [← hgive]
  exact ⟨rfl, rfl, rfl, rfl⟩

/-- R71, R97, R107: the order of a bay whose authorization is withdrawn. -/
theorem withdraw_order :
    (d.withdraw b c).orders.map Order.number =
      (if c = .orderCancel then d.orders.filter fun x => x.number != o.number else d.orders).map Order.number ∧
    (c = .orderCancel → (d.withdraw b c).orderNumbered o.number = none) ∧
    (c ≠ .orderCancel → ∃ q, (d.withdraw b c).orderNumbered o.number = some q ∧ q.state = .queued ∧ q.assignment = none ∧
      q.lines.map OrderLine.preset = o.lines.map OrderLine.preset ∧ ∀ l ∈ q.lines, l.reservation = none) ∧
    ∀ n, n ≠ o.number → (d.withdraw b c).orderNumbered n = d.orderNumbered n := by
  obtain ⟨-, hfound⟩ := orderOf_eq_some ho
  obtain ⟨horders, -⟩ := withdraw_returns (c := c) h ho
  have hnumbered : ∀ n, (d.withdraw b c).orderNumbered n = (d.orderReturned o (c == .orderCancel)).orderNumbered n := fun n => by
    rw [orderNumbered, orderNumbered, horders]
  simp only [horders, hnumbered]
  by_cases hc : c = .orderCancel
  · obtain ⟨h1, h2, h3⟩ := orderReturned_removed hfound
    rw [hc, if_pos rfl]
    exact ⟨h1, fun _ => h2, fun hn => absurd rfl hn, h3⟩
  · obtain ⟨h1, h2, h3⟩ := orderReturned_queued hfound
    rw [if_neg hc, beq_eq_false_iff_ne.mpr hc]
    exact ⟨h1, fun hn => absurd hn hc, fun _ => h2, h3⟩

/-- R128, R135: the slot of the bay is FREE, or with the commit whose stall began first. -/
theorem withdraw_slot {k : SlotId} (hk : d.reservedSlot b = some k) :
    (d.firstStalled = none → (d.withdraw b c).slot k = .free ∧ (∀ j, j ≠ k → (d.withdraw b c).slot j = d.slot j) ∧
      (d.withdraw b c).cw = d.cw) ∧
    ∀ y, d.firstStalled = some y → y ≠ b →
      (d.withdraw b c).slot k = .reserved y false ∧ ((d.withdraw b c).noteBay y).stall = none ∧
      (∀ j, d.reservedSlot y = some j → (d.withdraw b c).slot j = .bad) ∧
      (∀ j, j ≠ k → d.reservedSlot y ≠ some j → (d.withdraw b c).slot j = d.slot j) ∧
      ∀ i, (d.noteBay y).held = some i →
        ∃ q ∈ (d.withdraw b c).cw.queue, ∃ x, q.body = .barrier x ∧ x.bay = y ∧ x.slot = k ∧ x.image = i := by
  obtain ⟨-, -, hnu, hcw⟩ := withdraw_returns (c := c) h ho
  obtain ⟨hown, hstalled, hslots, hcw', hnotes⟩ := d.orderReturned_slots o (c == .orderCancel) b
  have hy : ∀ y, (d.orderReturned o (c == .orderCancel)).reservedSlot y = d.reservedSlot y := fun y =>
    (d.orderReturned_slots o (c == .orderCancel) y).1
  have hslot : ∀ j, (d.withdraw b c).slot j = ((d.orderReturned o (c == .orderCancel)).giveUpSlot b).slot j := fun j => by
    rw [slot, hnu, ← slot]
  have hnote : ∀ y, (d.withdraw b c).noteBay y = ((d.orderReturned o (c == .orderCancel)).giveUpSlot b).noteBay y := fun y => by
    rw [noteBay, hnu, ← noteBay]
  simp only [hslot, hnote, hcw]
  generalize d.orderReturned o (c == .orderCancel) = e at hown hstalled hslots hcw' hnotes hy
  refine ⟨fun hf => ?_, fun y hf hne => ?_⟩
  · rw [giveUpSlot_frees (hown.trans hk) (hstalled.trans hf)]
    refine ⟨setSlot_slot_same .., fun j hj => (setSlot_slot_other _ _ _ _ hj).trans (hslots j), hcw'⟩
  · obtain ⟨h1, h2, h3⟩ := giveUpSlot_gives (hown.trans hk) (hstalled.trans hf) hne
    simp only [hy, hslots] at h1
    have hother : ∀ j, d.reservedSlot y = some j → j ≠ k := fun j hj hjk => by
      obtain ⟨f, hf⟩ := reservedSlot_reserved hk
      obtain ⟨g, hg⟩ := reservedSlot_reserved hj
      rw [hjk, hf] at hg
      cases hg
      exact hne rfl
    refine ⟨?_, h2, fun j hj => ?_, fun j hj hne' => ?_, fun i hi => h3 i ((congrArg NoteBay.held (hnotes y)).trans hi)⟩
    · rw [h1, if_pos rfl]
    · rw [h1, if_neg (hother j hj), if_pos hj]
    · rw [h1, if_neg hj, if_neg hne']

end Withdrawal

end Device

open Device

/-- Settles O22: the bay's record, the order and its account, and the slot, each by what gives it up. -/
theorem withdrawalUndoesTheAssignment : Obligations.WithdrawalUndoesTheAssignment := by
  rintro d e b o k c rfl h ho hk
  have hauth : d.hasAuthorization b := h
  obtain ⟨-, hfound⟩ := orderOf_eq_some ho
  have hbay := withdraw_bay c hauth
  have hof := withdraw_ofBay c hauth
  have hrest := hof.rest
  obtain ⟨-, haccounts, -, -⟩ := withdraw_returns (c := c) hauth ho
  obtain ⟨hnumbers, hgone, hqueued, hothers⟩ := withdraw_order (c := c) hauth ho
  obtain ⟨hfree, hgiven⟩ := withdraw_slot (c := c) hauth ho hk
  have haccount := orderReturned_account hfound (c == .orderCancel)
  rw [← haccounts] at haccount
  refine ⟨?_, fun hs => ?_, ?_, ?_, hof.others, hnumbers, hgone, hqueued, hothers, fun _ => haccount, hfree, hgiven, ?_⟩
  · rw [hbay]
    exact withdrawnBy_state c hauth
  · rw [hbay, Bay.withdrawnBy]
    split
    · rfl
    · rw [if_neg (by rw [hs]; decide)]
      exact if_pos hs
  · rw [hbay]
    exact (withdrawnBy_stops c _).1
  · rw [hbay]
    exact (withdrawnBy_stops c _).2
  · rw [← hrest]
    exact ⟨rfl, rfl, rfl⟩

end Sys2Proof.Machine
end

