-- ==== Sys2Proof/Proofs/RackHold.lean ====
section
/-! RACK HOLD and RACK RELEASE (R78 to R81, R170): the rack hold source changed for all four bays together, each bay's own
event, and the tests that follow for every bay. -/

namespace Sys2Proof.Machine

open Sys2Proof

namespace Device

/-! ### What the bays' tests leave of a bay (R75, R80, R83) -/

/-- R75: a bay that is neither TRIPPED, HOLDING nor CLOSING can lose a cause by its tests, and no more. -/
theorem bayTests_plain {d : Device} {b : BayId} (ht : (d.bay b).state ≠ .tripped) (hh : (d.bay b).state ≠ .holding)
    (hc : (d.bay b).state ≠ .closing) : ∃ s, (d.bayTests b).bay b = { d.bay b with causes := s } := by
  obtain ⟨s, hs⟩ := valveTest_bay (d := d) ht
  rw [bayTests, grantHold_still (.inl (by rw [hs]; exact hh)), closingTest_still (.inl (by rw [hs]; exact hc))]
  exact ⟨s, hs⟩

/-- R75: a TRIPPED bay with no cause that its arms lift stays as it is. -/
theorem bayTests_tripped {d : Device} {b : BayId} (ht : (d.bay b).state = .tripped)
    (hv : ¬ ((d.bay b).causes.valve = true ∧ d.armsSeated b = true)) : d.bayTests b = d := by
  rw [bayTests, show d.valveTest b = d from if_neg hv, grantHold_still (.inl (by rw [ht]; decide)),
    closingTest_still (.inl (by rw [ht]; decide))]

/-- R80: a HOLDING bay with an arm away from CLOSED stays as it is. -/
theorem bayTests_holding {d : Device} {b : BayId} (hs : (d.bay b).state = .holding)
    (ha : ((d.armsOf b).all fun a => (d.arm a).position == .closed) = false) : d.bayTests b = d := by
  obtain ⟨a, hmem, hp⟩ := List.all_eq_false.mp ha
  rw [bayTests_unseated (mem_armsOf.mp hmem) (by simpa using hp), closingTest_still (.inl (by rw [hs]; decide))]

/-- The holds of a bay. -/
def SameHolds (r q : Bay) : Prop := q.holdBay = r.holdBay ∧ q.holdRack = r.holdRack

theorem SameHolds.trans {r q p : Bay} (h : SameHolds r q) (k : SameHolds q p) : SameHolds r p :=
  ⟨k.1.trans h.1, k.2.trans h.2⟩

theorem enterState_holds (d : Device) (b : BayId) (st : BayState) : SameHolds (d.bay b) ((d.enterState b st).bay b) := by
  rw [enterState, onBay_bay_same]
  split <;> exact ⟨rfl, rfl⟩

theorem onBay_holds_same (d : Device) (b : BayId) {f : Bay → Bay} (h : SameHolds (d.bay b) (f (d.bay b))) :
    SameHolds (d.bay b) ((d.onBay b f).bay b) := by
  rw [onBay_bay_same]
  exact h

/-- R72, R82: the load test touches no hold. -/
theorem loadTest_holds (d : Device) (b : BayId) : SameHolds (d.bay b) ((d.loadTest b).bay b) := by
  cases ho : d.orderOf b with
  | none => rw [loadTest, ho]; exact ⟨rfl, rfl⟩
  | some o =>
    obtain ⟨hdone, hnot⟩ := loadTest_eq ho
    by_cases hl : d.loadDone b o
    · rw [hdone hl, closeLoad_of_none hl.2.2, bayNotice_bay]
      exact (enterState_holds d b .closing).trans (onBay_holds_same _ _ ⟨rfl, rfl⟩)
    · rw [hnot hl]
      exact ⟨rfl, rfl⟩

theorem enterHeld_holds (d : Device) (b : BayId) (p : BeforeHold) : SameHolds (d.bay b) ((d.enterHeld b p).bay b) := by
  rw [enterHeld, bayNotice_bay]
  exact (enterState_holds d b .held).trans (onBay_holds_same _ _ ⟨rfl, rfl⟩)

theorem clearCause_holds (d : Device) (b : BayId) (c : TripCause) : SameHolds (d.bay b) ((d.clearCause b c).bay b) := by
  unfold clearCause
  dsimp only
  split
  · exact ⟨rfl, rfl⟩
  have hcleared : SameHolds (d.bay b) (((d.onBay b fun x => { x with causes := x.causes.put c false }).bayNotice b 10 []).bay b) :=
    onBay_holds_same (f := fun x => { x with causes := x.causes.put c false }) _ _ ⟨rfl, rfl⟩
  generalize (d.onBay b fun x => { x with causes := x.causes.put c false }).bayNotice b 10 [] = e at hcleared ⊢
  split
  · have hstopped := hcleared.trans (onBay_holds_same e b (f := fun x => { x with resumeTimer := none }) ⟨rfl, rfl⟩)
    split
    · exact hstopped.trans (enterHeld_holds ..)
    · exact (hstopped.trans (enterState_holds ..)).trans (loadTest_holds ..)
  · exact hcleared

theorem bayTests_holds (d : Device) (b : BayId) : SameHolds (d.bay b) ((d.bayTests b).bay b) := by
  have hvalve : SameHolds (d.bay b) ((d.valveTest b).bay b) := by
    unfold valveTest
    split
    · exact clearCause_holds ..
    · exact ⟨rfl, rfl⟩
  have hgrant : SameHolds ((d.valveTest b).bay b) (((d.valveTest b).grantHold b).bay b) := by
    unfold grantHold
    split
    · exact enterState_holds ..
    · exact ⟨rfl, rfl⟩
  rw [bayTests]
  generalize (d.valveTest b).grantHold b = e at hgrant
  by_cases h : (e.bay b).state = .closing ∧ e.noBatch b = true ∧ e.outstandingShots b = 0
  · rw [closingTest_bay h.1 h.2.1 h.2.2]
    exact hvalve.trans hgrant
  · rw [show e.closingTest b = e from if_neg h]
    exact hvalve.trans hgrant

/-- R75: the queue of orders changes by the end of a closing alone. -/
theorem bayTests_keeps_orders {d : Device} {b : BayId}
    (ht : (d.bay b).state = .tripped → ¬ ((d.bay b).causes.valve = true ∧ d.armsSeated b = true))
    (hc : (d.bay b).state = .closing → d.noBatch b = false ∨ d.outstandingShots b ≠ 0) : (d.bayTests b).orders = d.orders := by
  by_cases htripped : (d.bay b).state = .tripped
  · rw [bayTests_tripped htripped (ht htripped)]
  have hof := valveTest_ofBay d b
  have hqueue := valveTest_orders (d := d) (b := b) htripped
  obtain ⟨s, hs⟩ := valveTest_bay (d := d) (b := b) htripped
  have hstate : ((d.valveTest b).bay b).state = (d.bay b).state := by rw [hs]
  rw [bayTests]
  generalize d.valveTest b = e at hof hqueue hstate
  by_cases hholding : (e.bay b).state = .holding
  · have hgrant : ((e.grantHold b).bay b).state ≠ .closing ∧ (e.grantHold b).orders = e.orders := by
      unfold grantHold
      split
      · rw [bayNotice_bay, enterState_state]
        exact ⟨by decide, rfl⟩
      · rw [hholding]
        exact ⟨by decide, rfl⟩
    rw [closingTest_still (.inl hgrant.1), hgrant.2, hqueue]
  · rw [grantHold_still (.inl hholding), closingTest_still, hqueue]
    by_cases hclosing : (d.bay b).state = .closing
    · refine .inr ((hc hclosing).imp (fun h => ?_) fun h => ?_)
      · rw [noBatch_congr hof.spares.armRecs fun a => by rw [hof.arm], h]
      · rwa [hof.within.shots]
    · exact .inl (hstate ▸ hclosing)

end Device

/-! ### What follows an event that concerns every bay (R37, R75, R80, R83) -/

/-- The arms, the injectors and their records are the same. -/
structure Device.SameEquipment (d e : Device) : Prop where
  arms    : e.arms = d.arms
  armRecs : e.armRecs = d.armRecs
  injs    : e.injs = d.injs

theorem Device.SameEquipment.of_ofBay {b : BayId} {d e : Device} (h : d.OfBay b e) : d.SameEquipment e := by
  rw [← h.rest]
  exact ⟨rfl, rfl, rfl⟩

theorem Device.SameEquipment.trans {d e f : Device} (h : d.SameEquipment e) (k : e.SameEquipment f) : d.SameEquipment f :=
  ⟨k.arms.trans h.arms, k.armRecs.trans h.armRecs, k.injs.trans h.injs⟩

/-- A bay's own tests find the bay as it was before the tests of the others. -/
theorem foldl_bayTests_bay (l : List BayId) (hl : l.Nodup) (d : Device) :
    (∀ y, y ∉ l → (l.foldl Device.bayTests d).bay y = d.bay y) ∧
    ∀ b ∈ l, ∃ g, g.bay b = d.bay b ∧ d.SameEquipment g ∧ (l.foldl Device.bayTests d).bay b = (g.bayTests b).bay b := by
  induction l generalizing d with
  | nil => exact ⟨fun _ _ => rfl, fun _ h => (nomatch h)⟩
  | cons y t ih =>
    obtain ⟨hy, ht⟩ := List.nodup_cons.mp hl
    have hof := Device.bayTests_ofBay d y
    obtain ⟨hnot, hall⟩ := ih ht (d.bayTests y)
    rw [List.foldl_cons]
    refine ⟨fun z hz => ?_, fun b hb => ?_⟩
    · rw [List.mem_cons, not_or] at hz
      rw [hnot z hz.2, hof.others z hz.1]
    · by_cases hby : b = y
      · subst hby
        exact ⟨d, rfl, ⟨rfl, rfl, rfl⟩, hnot b hy⟩
      · obtain ⟨g, hg, heq, hres⟩ := hall b ((List.mem_cons.mp hb).resolve_left hby)
        exact ⟨g, hg.trans (hof.others b hby), (Device.SameEquipment.of_ofBay hof).trans heq, hres⟩

theorem foldl_bayTests_orders (l : List BayId) (hl : l.Nodup) (d : Device)
    (h : ∀ y ∈ l, ∀ g : Device, g.bay y = d.bay y → d.SameEquipment g → (g.bayTests y).orders = g.orders) :
    (l.foldl Device.bayTests d).orders = d.orders := by
  induction l generalizing d with
  | nil => rfl
  | cons y t ih =>
    obtain ⟨hy, ht⟩ := List.nodup_cons.mp hl
    have hof := Device.bayTests_ofBay d y
    rw [List.foldl_cons, ih ht (d.bayTests y) fun z hz g hg heq => ?_, h y List.mem_cons_self d rfl ⟨rfl, rfl, rfl⟩]
    exact h z (List.mem_cons_of_mem _ hz) g (hg.trans (hof.others z fun hzy => hy (hzy ▸ hz)))
      ((Device.SameEquipment.of_ofBay hof).trans heq)

/-- The part as the tests of bay `b` after an event from `d` to `e` find it. -/
structure Device.TestedBy (d e g : Device) (b : BayId) : Prop where
  bay     : g.bay b = e.bay b
  arm     : ∀ a, g.arm a = { e.arm a with travel := travelAfter d e a }
  armRecs : g.armRecs = e.armRecs
  injs    : g.injs = e.injs

theorem Device.TestedBy.of_supervised {d e g : Device} {b : BayId} (hb : g.bay b = (supervise d e).bay b)
    (h : (supervise d e).SameEquipment g) : d.TestedBy e g b := by
  have hsup := supervise_rest d e
  refine ⟨hb.trans (supervise_bay d e b), fun a => ?_, h.armRecs.trans (by rw [← hsup]), h.injs.trans (by rw [← hsup])⟩
  rw [← supervise_arm, Device.arm, h.arms, ← Device.arm]

theorem Device.windUp_bay (d : Device) (b : BayId) : d.windUp.bay b = d.bay b := by
  rw [← Device.windUp_rest]
  rfl

theorem Device.windUp_orders (d : Device) : d.windUp.orders = d.orders := by rw [← Device.windUp_rest]

theorem settle_eq_windUp (d e : Device) : settle d e = (allBays.foldl Device.bayTests (supervise d e)).windUp := rfl

/-- Every bay is as its own tests leave it. -/
theorem settle_eachBay (d e : Device) (b : BayId) : ∃ g, d.TestedBy e g b ∧ (settle d e).bay b = (g.bayTests b).bay b := by
  obtain ⟨-, hall⟩ := foldl_bayTests_bay allBays (by decide) (supervise d e)
  obtain ⟨g, hg, heq, hres⟩ := hall b (Device.mem_allBays b)
  rw [settle_eq_windUp, Device.windUp_bay]
  exact ⟨g, .of_supervised hg heq, hres⟩

theorem settle_orders_of_tests {d e : Device} (h : ∀ y g, d.TestedBy e g y → (g.bayTests y).orders = g.orders) :
    (settle d e).orders = e.orders := by
  rw [settle_eq_windUp, Device.windUp_orders,
    foldl_bayTests_orders allBays (by decide) (supervise d e) fun y _ g hg heq => h y g (.of_supervised hg heq), supervise_orders]

/-- R163: what follows an event leaves the rack hold and its source. -/
theorem settle_rackHold (d e : Device) : (settle d e).lu.mgmtHold = e.lu.mgmtHold ∧ (settle d e).lu.holdSource = e.lu.holdSource := by
  have hdrive : ∀ (l : List LineId) (f : Device), (l.foldl Device.refreshLine f).lu.mgmtHold = f.lu.mgmtHold ∧
      (l.foldl Device.refreshLine f).lu.holdSource = f.lu.holdSource := fun l => by
    induction l with
    | nil => exact fun _ => ⟨rfl, rfl⟩
    | cons x t ih => exact fun f => ih (f.refreshLine x)
  have htests : ∀ (l : List BayId) (f : Device), (l.foldl Device.bayTests f).lu = f.lu := fun l => by
    induction l with
    | nil => exact fun _ => rfl
    | cons x t ih => exact fun f => (ih (f.bayTests x)).trans (by rw [← (Device.bayTests_ofBay f x).rest])
  have hlu : (allBays.foldl Device.bayTests (supervise d e)).lu = e.lu := (htests ..).trans (by rw [← supervise_rest])
  rw [settle, ← Device.cwPark_frame, ← Device.cwStart_frame]
  obtain ⟨h1, h2⟩ := hdrive allSixteen (allBays.foldl Device.bayTests (supervise d e))
  exact ⟨h1.trans (by rw [hlu]), h2.trans (by rw [hlu])⟩

/-! ### What the rack hold leaves for every bay to see -/

/-- How far each line of an order has come. -/
def Order.progress (o : Order) : List LineBatch := o.lines.map OrderLine.batch

namespace Device

/-- The two parts agree in all that a bay's hold and its tests look at but for the bays themselves. -/
structure Alike (d e : Device) : Prop where
  armRecs  : e.armRecs = d.armRecs
  injs     : e.injs = d.injs
  settings : e.mp.settings = d.mp.settings
  custody  : e.custody = d.custody
  permits  : e.permits = d.permits
  looks    : ∀ a, (e.arm a).position = (d.arm a).position ∧ (e.arm a).travel = (d.arm a).travel ∧
    ((e.arm a).batch = none ↔ (d.arm a).batch = none)
  progress : ∀ n, (e.orderNumbered n).map Order.progress = (d.orderNumbered n).map Order.progress

theorem Alike.refl (d : Device) : d.Alike d := ⟨rfl, rfl, rfl, rfl, rfl, fun _ => ⟨rfl, rfl, Iff.rfl⟩, fun _ => rfl⟩

theorem Alike.trans {d e f : Device} (h : d.Alike e) (k : e.Alike f) : d.Alike f where
  armRecs := k.armRecs.trans h.armRecs
  injs := k.injs.trans h.injs
  settings := k.settings.trans h.settings
  custody := k.custody.trans h.custody
  permits := k.permits.trans h.permits
  looks a :=
    have ⟨h1, h2, h3⟩ := h.looks a
    have ⟨k1, k2, k3⟩ := k.looks a
    ⟨k1.trans h1, k2.trans h2, k3.trans h3⟩
  progress n := (k.progress n).trans (h.progress n)

/-- A change of bays, accounts, notes, lines and ports. -/
theorem Alike.of_rest {d e : Device} (h : { d with bays := e.bays, accounts := e.accounts, nu := e.nu, lu := e.lu, mp := e.mp } = e)
    (hs : e.mp.settings = d.mp.settings) : d.Alike e := by
  refine ⟨?_, ?_, hs, ?_, ?_, fun a => ?_, fun n => ?_⟩
  all_goals rw [← h]
  · exact ⟨rfl, rfl, Iff.rfl⟩
  · rfl

theorem Alike.armsOf {d e : Device} (h : d.Alike e) (b : BayId) : e.armsOf b = d.armsOf b := armsOf_congr h.armRecs b

theorem Alike.noBatch {d e : Device} (h : d.Alike e) (b : BayId) : e.noBatch b = d.noBatch b := by
  rw [Bool.eq_iff_iff, noBatch_iff, noBatch_iff, h.armsOf]
  exact forall₂_congr fun a _ => (h.looks a).2.2

theorem Alike.shots {d e : Device} (h : d.Alike e) (b : BayId) : e.outstandingShots b = d.outstandingShots b :=
  outstandingShots_congr h.armRecs (fun c => by rw [inj, h.injs]; exact ⟨rfl, rfl⟩) b

theorem Alike.orderOf {d e : Device} (h : d.Alike e) {b : BayId} (hb : e.bay b = d.bay b) :
    (e.orderOf b).map Order.progress = (d.orderOf b).map Order.progress := by
  rw [Device.orderOf, Device.orderOf, hb]
  cases (d.bay b).order with
  | none => rfl
  | some n => exact h.progress n

/-- A change of one bay that the others do not see. -/
structure OneBay (b : BayId) (d e : Device) : Prop where
  alike  : d.Alike e
  others : ∀ y, y ≠ b → e.bay y = d.bay y
  lu     : e.lu = d.lu

theorem OneBay.refl (b : BayId) (d : Device) : d.OneBay b d := ⟨.refl d, fun _ _ => rfl, rfl⟩

theorem OneBay.trans {b : BayId} {d e f : Device} (h : d.OneBay b e) (k : e.OneBay b f) : d.OneBay b f :=
  ⟨h.alike.trans k.alike, fun y hy => (k.others y hy).trans (h.others y hy), k.lu.trans h.lu⟩

section Steps
variable (d : Device) (b : BayId)

theorem onBay_oneBay (f : Bay → Bay) : d.OneBay b (d.onBay b f) :=
  ⟨.of_rest rfl rfl, fun _ hy => onBay_bay_other _ _ _ _ hy, rfl⟩

theorem bayNotice_oneBay (n : Nat) (l : List (List Byte)) : d.OneBay b (d.bayNotice b n l) :=
  ⟨.of_rest rfl rfl, fun _ _ => rfl, rfl⟩

theorem enterState_oneBay (st : BayState) : d.OneBay b (d.enterState b st) := onBay_oneBay ..

/-- An interruption of flowing batches moves no arm and ends no batch. -/
theorem Alike.of_halted {d e : Device} {l : List ArmId}
    (h : { d with arms := e.arms, bays := e.bays, mp := { d.mp with notices := e.mp.notices } } = e)
    (ha : ∀ x, e.arm x = if x ∈ l then (d.arm x).halted else d.arm x) :
    d.Alike e := by
  refine ⟨?_, ?_, ?_, ?_, ?_, fun a => ?_, fun n => ?_⟩
  case refine_6 =>
    rw [ha]
    split
    · exact ⟨rfl, rfl, Option.map_eq_none_iff⟩
    · exact ⟨rfl, rfl, Iff.rfl⟩
  all_goals rw [← h]
  rfl

theorem interruptBay_oneBay (h : (d.bay b).state ≠ .closing) : d.OneBay b (d.interruptBay b) := by
  obtain ⟨hrest, harms⟩ := interruptBay_halts h
  refine ⟨.of_halted ?_ harms, fun y _ => hrest.bay y, ?_⟩ <;> rw [← hrest]

theorem enterTrip_oneBay : d.OneBay b (d.enterTrip b) := by
  obtain ⟨hrest, harms⟩ := d.enterTrip_halts b
  refine ⟨.of_halted ?_ harms, fun y hy => enterTrip_bay_other hy, ?_⟩ <;> rw [← hrest]

theorem loadTest_oneBay : d.OneBay b (d.loadTest b) := by
  cases ho : d.orderOf b with
  | none => rw [loadTest, ho]; exact .refl b d
  | some o =>
    obtain ⟨hdone, hnot⟩ := loadTest_eq ho
    by_cases hl : d.loadDone b o
    · rw [hdone hl, closeLoad_of_none hl.2.2]
      exact ((enterState_oneBay ..).trans (onBay_oneBay ..)).trans (bayNotice_oneBay ..)
    · rw [hnot hl]
      exact .refl b d

/-- A change of an order's record that keeps its number and how far its lines have come. -/
theorem onOrder_progress (n : Nat) (f : Order → Order) (hf : ∀ o, (f o).number = o.number ∧ (f o).progress = o.progress) (m : Nat) :
    ((d.onOrder n f).orderNumbered m).map Order.progress = (d.orderNumbered m).map Order.progress := by
  by_cases hm : m = n
  · rw [hm, orderNumbered_onOrder _ _ _ fun o => (hf o).1, Option.map_map]
    exact congrArg (fun g => Option.map g _) (funext fun o => (hf o).2)
  · rw [orderNumbered_onOrder_other _ _ (fun o => (hf o).1) hm]

theorem Order.onLine_progress (o : Order) (k : Nat) (p : Option ProdIdx) :
    (o.onLine k fun y => { y with reservation := p }).progress = o.progress := by
  refine List.ext_getElem? fun i => ?_
  simp only [Order.progress, Order.onLine, List.getElem?_map, List.getElem?_modify, Option.map_eq_map, Option.map_map]
  refine congrArg (fun g => Option.map g _) (funext fun y => ?_)
  rw [Function.comp_apply]
  split <;> rfl

theorem reserveLines_progress (o : Order) (m : Nat) :
    ((d.reserveLines o).orderNumbered m).map Order.progress = (d.orderNumbered m).map Order.progress := by
  unfold reserveLines
  induction List.range o.lines.length generalizing d with
  | nil => rfl
  | cons k t ih =>
    rw [List.foldl_cons, ih]
    split
    · rfl
    · split
      · rfl
      · rw [onOrder_progress _ _ _ fun x => by exact ⟨rfl, Order.onLine_progress x k _⟩, orderNumbered, onAccount_orders]
        rfl

/-- R102: an assignment leaves how far each order has come. -/
theorem assignOrder_alike (o : Order) (p : Permit) : d.Alike (d.assignOrder b o p) := by
  have hrest := d.assignOrder_rest b o p
  have hprogress : ∀ m, ((d.assignOrder b o p).orderNumbered m).map Order.progress = (d.orderNumbered m).map Order.progress := fun m => by
    have hset : ∀ (e : Device) (k : SlotId) (x : SlotState), (e.setSlot k x).orderNumbered m = e.orderNumbered m := fun _ _ _ => rfl
    unfold assignOrder
    dsimp only
    split
    · rw [hset, onOrder_progress _ _ _ fun x => by exact ⟨rfl, rfl⟩, reserveLines_progress]
    · rw [onOrder_progress _ _ _ fun x => by exact ⟨rfl, rfl⟩, reserveLines_progress]
  refine ⟨?_, ?_, ?_, ?_, ?_, fun a => ?_, hprogress⟩
  all_goals rw [← hrest]
  exact ⟨rfl, rfl, Iff.rfl⟩

theorem swipeIdle_oneBay (cred : Nat) : d.OneBay b (d.swipeIdle b cred) := by
  refine ⟨?_, (swipeIdle_ofBay d b cred).others, by rw [← (swipeIdle_ofBay d b cred).rest]⟩
  cases h : d.evaluateSwipe b cred with
  | refused c =>
    rw [swipeIdle_refused h]
    exact .of_rest rfl rfl
  | assigned o p =>
    rw [swipeIdle_assigned h]
    exact (assignOrder_alike ..).trans (((enterState_oneBay ..).trans (onBay_oneBay ..)).trans (bayNotice_oneBay ..)).alike

theorem leaveHeld_oneBay : d.OneBay b (d.leaveHeld b) := by
  have hleft := d.onBay_oneBay b fun x => { x with before := none, swipe := none }
  unfold leaveHeld
  dsimp only
  generalize d.onBay b (fun x => { x with before := none, swipe := none }) = e at hleft ⊢
  have hidle : ∀ s : Option Nat, d.OneBay b (match s with
      | some cred => ((e.enterState b .idle).bayNotice b 13 []).swipeIdle b cred
      | none => (e.enterState b .idle).bayNotice b 13 []) := fun s => by
    have hback := (hleft.trans (enterState_oneBay e b .idle)).trans (bayNotice_oneBay _ b 13 [])
    cases s with
    | none => exact hback
    | some cred => exact hback.trans (swipeIdle_oneBay ..)
  split
  · split
    · exact (hleft.trans (enterTrip_oneBay ..)).trans (bayNotice_oneBay ..)
    · exact ((hleft.trans (enterState_oneBay ..)).trans (bayNotice_oneBay ..)).trans (loadTest_oneBay ..)
  · exact ((hleft.trans (enterState_oneBay ..)).trans (onBay_oneBay ..)).trans (bayNotice_oneBay ..)
  · exact hidle _
  · exact hidle _

theorem holdTaken_oneBay : d.OneBay b (d.holdTaken b) := by
  cases h : (d.bay b).state with
  | idle =>
    rw [holdTaken_idle h]
    exact (onBay_oneBay ..).trans (bayNotice_oneBay ..)
  | authorized =>
    rw [holdTaken_authorized h]
    exact (onBay_oneBay ..).trans (bayNotice_oneBay ..)
  | loading =>
    rw [holdTaken_loading h]
    exact ((onBay_oneBay ..).trans (interruptBay_oneBay _ _ (by rw [onBay_bay_same]; exact nofun))).trans (bayNotice_oneBay ..)
  | _ =>
    rw [holdTaken_recorded (by rw [h]; decide)]
    exact bayNotice_oneBay ..

theorem holdReleased_oneBay : d.OneBay b (d.holdReleased b) := by
  cases h : (d.bay b).state with
  | held =>
    rw [holdReleased_held h]
    exact leaveHeld_oneBay ..
  | holding =>
    rw [holdReleased_holding h]
    exact ((onBay_oneBay ..).trans (bayNotice_oneBay ..)).trans (loadTest_oneBay ..)
  | tripped =>
    rw [holdReleased_tripped h]
    exact (onBay_oneBay ..).trans (bayNotice_oneBay ..)
  | _ =>
    rw [holdReleased_recorded (by rw [h]; decide)]
    exact bayNotice_oneBay ..

theorem setHolds_oneBay (v w : Bool) : d.OneBay b (d.setHolds b v w) := by
  unfold setHolds
  dsimp only
  split
  · exact .refl b d
  have hset := d.onBay_oneBay b fun x => { x with holdBay := v, holdRack := w }
  split
  · exact hset.trans (holdTaken_oneBay ..)
  split
  · exact hset.trans (holdReleased_oneBay ..)
  · exact hset.trans (bayNotice_oneBay ..)

end Steps

/-! ### The sources after a change (R78) -/

section Sources
variable (d : Device) (b : BayId)

theorem enterTrip_holds : SameHolds (d.bay b) ((d.enterTrip b).bay b) := by
  rw [enterTrip_bay, tripBay]
  dsimp only
  split <;> exact ⟨rfl, rfl⟩

theorem swipeIdle_sources (cred : Nat) : SameHolds (d.bay b) ((d.swipeIdle b cred).bay b) := by
  cases h : d.evaluateSwipe b cred with
  | refused c =>
    rw [swipeIdle_refused h, bayNotice_bay, showMessage, onBay_bay_same]
    exact ⟨rfl, rfl⟩
  | assigned o p =>
    have hkeep : (d.assignOrder b o p).bay b = d.bay b := by rw [← assignOrder_rest]; rfl
    rw [swipeIdle_assigned h, bayNotice_bay, onBay_bay_same, enterState, onBay_bay_same, hkeep]
    split <;> exact ⟨rfl, rfl⟩

theorem holdTaken_holds : SameHolds (d.bay b) ((d.holdTaken b).bay b) := by
  cases h : (d.bay b).state with
  | idle =>
    rw [holdTaken_idle h, bayNotice_bay, onBay_bay_same]
    exact ⟨rfl, rfl⟩
  | authorized =>
    rw [holdTaken_authorized h, bayNotice_bay, onBay_bay_same]
    exact ⟨rfl, rfl⟩
  | loading =>
    rw [holdTaken_loading h, bayNotice_bay, (interruptBay_halts (by rw [onBay_bay_same]; exact nofun)).1.bay, onBay_bay_same]
    exact ⟨rfl, rfl⟩
  | _ =>
    rw [holdTaken_recorded (by rw [h]; decide)]
    exact ⟨rfl, rfl⟩

theorem leaveHeld_holds : SameHolds (d.bay b) ((d.leaveHeld b).bay b) := by
  have hleft := onBay_holds_same d b (f := fun x => { x with before := none, swipe := none }) ⟨rfl, rfl⟩
  unfold leaveHeld
  dsimp only
  generalize d.onBay b (fun x => { x with before := none, swipe := none }) = e at hleft ⊢
  have hidle : ∀ s : Option Nat, SameHolds (d.bay b) ((match s with
      | some cred => ((e.enterState b .idle).bayNotice b 13 []).swipeIdle b cred
      | none => (e.enterState b .idle).bayNotice b 13 []).bay b) := fun s => by
    have hback : SameHolds (d.bay b) (((e.enterState b .idle).bayNotice b 13 []).bay b) := hleft.trans (enterState_holds e b .idle)
    cases s with
    | none => exact hback
    | some cred => exact hback.trans (swipeIdle_sources ..)
  split
  · split
    · exact hleft.trans (enterTrip_holds e b)
    · have hback : SameHolds (d.bay b) (((e.enterState b .loading).bayNotice b 13 []).bay b) := hleft.trans (enterState_holds e b .loading)
      exact hback.trans (loadTest_holds ..)
  · rw [bayNotice_bay]
    exact (hleft.trans (enterState_holds e b .authorized)).trans (onBay_holds_same _ _ ⟨rfl, rfl⟩)
  · exact hidle _
  · exact hidle _

theorem holdReleased_holds : SameHolds (d.bay b) ((d.holdReleased b).bay b) := by
  cases h : (d.bay b).state with
  | held =>
    rw [holdReleased_held h]
    exact leaveHeld_holds ..
  | holding =>
    have hback : SameHolds (d.bay b) (((d.onBay b fun r => { r with state := .loading, message := none, before := none }).bayNotice b 13
        []).bay b) := by
      rw [bayNotice_bay]
      exact onBay_holds_same d b ⟨rfl, rfl⟩
    rw [holdReleased_holding h]
    exact hback.trans (loadTest_holds ..)
  | tripped =>
    rw [holdReleased_tripped h, bayNotice_bay]
    exact onBay_holds_same d b ⟨rfl, rfl⟩
  | _ =>
    rw [holdReleased_recorded (by rw [h]; decide)]
    exact ⟨rfl, rfl⟩

/-- R78: the two sources are as they were set. -/
theorem setHolds_sources (v w : Bool) : ((d.setHolds b v w).bay b).holdBay = v ∧ ((d.setHolds b v w).bay b).holdRack = w := by
  have hset : ((d.onBay b fun x => { x with holdBay := v, holdRack := w }).bay b) = { d.bay b with holdBay := v, holdRack := w } :=
    onBay_bay_same ..
  unfold setHolds
  dsimp only
  split
  next h => exact h
  generalize d.onBay b (fun x => { x with holdBay := v, holdRack := w }) = e at hset ⊢
  have hsources : ∀ q : Bay, SameHolds (e.bay b) q → q.holdBay = v ∧ q.holdRack = w := fun q hq => by
    rw [SameHolds, hset] at hq
    exact hq
  split
  · exact hsources _ (holdTaken_holds ..)
  split
  · exact hsources _ (holdReleased_holds ..)
  · exact hsources _ ⟨rfl, rfl⟩

end Sources

/-! ### The rack hold source set or cleared for one bay, by the bay's state (R79, R81) -/

/-- R78: the part with the rack hold source of bay `b` set or cleared. -/
def withRack (d : Device) (b : BayId) (v : Bool) : Device := d.onBay b fun r => { r with holdRack := v }

theorem withRack_bay (d : Device) (b : BayId) (v : Bool) : (d.withRack b v).bay b = { d.bay b with holdRack := v } :=
  onBay_bay_same ..

/-- R78: one bay's part of a change of the rack hold source. -/
def takeRack (d : Device) (b : BayId) (v : Bool) : Device := d.setHolds b (d.bay b).holdBay v

section Rack
variable {d : Device} {b : BayId}

theorem takeRack_first (h : (d.bay b).holdBay = false) (hr : (d.bay b).holdRack = false) :
    d.takeRack b true = (d.withRack b true).holdTaken b := by
  have hset : (d.onBay b fun x => { x with holdBay := (d.bay b).holdBay, holdRack := true }) = d.withRack b true :=
    onBay_congr _ _ _ _ rfl
  have hfree : (d.bay b).holding = false := by simp [Bay.holding, h, hr]
  have hheld : ({ d.bay b with holdRack := true } : Bay).holding = true := by simp [Bay.holding]
  unfold takeRack setHolds
  dsimp only
  rw [if_neg fun k => Bool.noConfusion (hr.symm.trans k.2), hset, withRack_bay, hfree, hheld]
  rfl

theorem takeRack_last (h : (d.bay b).holdBay = false) (hr : (d.bay b).holdRack = true) :
    d.takeRack b false = (d.withRack b false).holdReleased b := by
  have hset : (d.onBay b fun x => { x with holdBay := (d.bay b).holdBay, holdRack := false }) = d.withRack b false :=
    onBay_congr _ _ _ _ rfl
  have hheld : (d.bay b).holding = true := by simp [Bay.holding, hr]
  have hfree : ({ d.bay b with holdRack := false } : Bay).holding = false := by simp [Bay.holding, h]
  unfold takeRack setHolds
  dsimp only
  rw [if_neg fun k => Bool.noConfusion (hr.symm.trans k.2), hset, withRack_bay, hheld, hfree]
  rfl

theorem takeRack_beside (h : (d.bay b).holdBay = true) (hr : (d.bay b).holdRack = false) :
    d.takeRack b true = (d.withRack b true).bayNotice b 11 [] := by
  have hset : (d.onBay b fun x => { x with holdBay := (d.bay b).holdBay, holdRack := true }) = d.withRack b true :=
    onBay_congr _ _ _ _ rfl
  have hheld : (d.bay b).holding = true := by simp [Bay.holding, h]
  have hboth : ({ d.bay b with holdRack := true } : Bay).holding = true := by simp [Bay.holding]
  unfold takeRack setHolds
  dsimp only
  rw [if_neg fun k => Bool.noConfusion (hr.symm.trans k.2), hset, withRack_bay, hheld, hboth]
  rfl

/-- R79: a hold taken moves the bay to HELD or HOLDING or leaves its state, and touches no cause and no order. -/
theorem holdTaken_keeps (d : Device) (b : BayId) : ((d.holdTaken b).bay b).causes = (d.bay b).causes ∧
    (((d.holdTaken b).bay b).state = (d.bay b).state ∨ ((d.holdTaken b).bay b).state = .held ∨
      ((d.holdTaken b).bay b).state = .holding) ∧
    (d.holdTaken b).orders = d.orders := by
  cases h : (d.bay b).state with
  | idle =>
    rw [holdTaken_idle h, bayNotice_bay, onBay_bay_same]
    exact ⟨rfl, .inr (.inl rfl), rfl⟩
  | authorized =>
    rw [holdTaken_authorized h, bayNotice_bay, onBay_bay_same]
    exact ⟨rfl, .inr (.inl rfl), rfl⟩
  | loading =>
    have honly := (interruptBay_halts (d := d.onBay b fun r =>
      { r with state := .holding, message := none, before := some .loading, heldDuring := true }) (b := b)
        (by rw [onBay_bay_same]; exact nofun)).1
    rw [holdTaken_loading h, bayNotice_bay, honly.bay, onBay_bay_same]
    refine ⟨rfl, .inr (.inr rfl), ?_⟩
    rw [← honly]
    rfl
  | _ =>
    rw [holdTaken_recorded (by rw [h]; decide), bayNotice_bay, h]
    exact ⟨rfl, .inl rfl, rfl⟩

theorem takeRack_same {v : Bool} (hr : (d.bay b).holdRack = v) : d.takeRack b v = d := if_pos ⟨rfl, hr⟩

theorem takeRack_hold_keeps (d : Device) (b : BayId) : ((d.takeRack b true).bay b).causes = (d.bay b).causes ∧
    (((d.takeRack b true).bay b).state = (d.bay b).state ∨ ((d.takeRack b true).bay b).state = .held ∨
      ((d.takeRack b true).bay b).state = .holding) ∧ (d.takeRack b true).orders = d.orders := by
  cases hr : (d.bay b).holdRack with
  | true =>
    rw [takeRack_same hr]
    exact ⟨rfl, .inl rfl, rfl⟩
  | false =>
    have hbay := d.withRack_bay b true
    cases h : (d.bay b).holdBay with
    | true =>
      rw [takeRack_beside h hr, bayNotice_bay, hbay]
      exact ⟨rfl, .inl rfl, rfl⟩
    | false =>
      obtain ⟨hc, hs, ho⟩ := (d.withRack b true).holdTaken_keeps b
      rw [hbay] at hc hs
      rw [takeRack_first h hr]
      exact ⟨hc, hs, ho⟩

theorem takeRack_oneBay (d : Device) (b : BayId) (v : Bool) : d.OneBay b (d.takeRack b v) := setHolds_oneBay ..

section Taken
variable (h : (d.bay b).holdBay = false) (hr : (d.bay b).holdRack = false)
include h hr

theorem takeRack_idle (hs : (d.bay b).state = .idle) : (d.takeRack b true).bay b =
    { d.bay b with state := .held, message := none, holdRack := true, before := some .idle } := by
  have hbay := d.withRack_bay b true
  rw [takeRack_first h hr, holdTaken_idle (by rw [hbay]; exact hs), bayNotice_bay, onBay_bay_same, hbay]

theorem takeRack_authorized (hs : (d.bay b).state = .authorized) : (d.takeRack b true).bay b = { d.bay b with
    state := .held, message := none, holdRack := true, before := some .authorized, authTimer := (d.bay b).authTimer.suspend
    heldDuring := true } := by
  have hbay := d.withRack_bay b true
  rw [takeRack_first h hr, holdTaken_authorized (by rw [hbay]; exact hs), bayNotice_bay, onBay_bay_same, hbay]

theorem takeRack_loading (hs : (d.bay b).state = .loading) : (d.takeRack b true).bay b = { d.bay b with
    state := .holding, message := none, holdRack := true, before := some .loading, heldDuring := true } := by
  have hbay := d.withRack_bay b true
  rw [takeRack_first h hr, holdTaken_loading (by rw [hbay]; exact hs), bayNotice_bay,
    (interruptBay_halts (by rw [onBay_bay_same]; exact nofun)).1.bay, onBay_bay_same, hbay]

end Taken

/-- The bay as the release of the rack hold brings it back to LOADING. -/
def rackBack (d : Device) (b : BayId) : Device :=
  (d.onBay b fun r => { r with
    state := .loading, message := none, holdRack := false, before := none
    swipe := if r.state = .held then none else r.swipe }).bayNotice b 13 []

theorem rackBack_bay (d : Device) (b : BayId) : (d.rackBack b).bay b = { d.bay b with
    state := .loading, message := none, holdRack := false, before := none
    swipe := if (d.bay b).state = .held then none else (d.bay b).swipe } := by
  rw [rackBack, bayNotice_bay, onBay_bay_same]

section Released
variable (h : (d.bay b).holdBay = false) (hr : (d.bay b).holdRack = true)
include h hr

theorem takeRack_backToIdle (hs : (d.bay b).state = .held) (hb : (d.bay b).before = some .idle) (hw : (d.bay b).swipe = none) :
    (d.takeRack b false).bay b = { d.bay b with state := .idle, message := none, holdRack := false, before := none, swipe := none } := by
  have hbay := d.withRack_bay b false
  have hs' : ((d.withRack b false).bay b).state = .held := by rw [hbay]; exact hs
  rw [takeRack_last h hr, holdReleased_held hs', leaveHeld_idle hs' (by rw [hbay]; exact hb) (by rw [hbay]; exact hw), bayNotice_bay,
    onBay_bay_same, hbay]

theorem takeRack_backToAuthorized (hs : (d.bay b).state = .held) (hb : (d.bay b).before = some .authorized) :
    (d.takeRack b false).bay b = { d.bay b with
      state := .authorized, message := none, holdRack := false, before := none, swipe := none
      authTimer := (d.bay b).authTimer.resume } := by
  have hbay := d.withRack_bay b false
  have hs' : ((d.withRack b false).bay b).state = .held := by rw [hbay]; exact hs
  rw [takeRack_last h hr, holdReleased_held hs', leaveHeld_authorized hs' (by rw [hbay]; exact hb), bayNotice_bay, onBay_bay_same, hbay]

theorem takeRack_trips (hs : (d.bay b).state = .held) (hb : (d.bay b).before = some .loading)
    (hc : (d.bay b).causes ≠ .empty ∨ (d.bay b).lockout = true) : (d.takeRack b false).bay b = { d.bay b with
      state := .tripped, message := none, holdRack := false, before := none, swipe := none
      resumeTimer := if (d.bay b).lockout then none else some (secondsMs d.mp.settings.resumeWindow) } := by
  have hbay := d.withRack_bay b false
  have hs' : ((d.withRack b false).bay b).state = .held := by rw [hbay]; exact hs
  have hleft : ((d.withRack b false).onBay b fun r => { r with before := none, swipe := none }).bay b =
      { d.bay b with holdRack := false, before := none, swipe := none } := by rw [onBay_bay_same, hbay]
  rw [takeRack_last h hr, holdReleased_held hs', leaveHeld_trips (by rw [hbay]; exact hb) (by rw [hbay]; exact hc), bayNotice_bay,
    enterTrip_bay, tripBay, hleft, if_neg (by show (d.bay b).state ≠ _; rw [hs]; decide)]
  rfl

theorem takeRack_back (hs : (d.bay b).state = .holding ∨ ((d.bay b).state = .held ∧ (d.bay b).before = some .loading ∧
    (d.bay b).causes = CauseSet.empty ∧ (d.bay b).lockout = false)) : d.takeRack b false = (d.rackBack b).loadTest b := by
  have hbay := d.withRack_bay b false
  rw [takeRack_last h hr]
  rcases hs with hs | ⟨hs, hb, hc, hl⟩
  · rw [holdReleased_holding (by rw [hbay]; exact hs), withRack, onBay_onBay]
    exact congrArg (fun e : Device => (e.bayNotice b 13 []).loadTest b) (onBay_congr _ _ _ _ (by
      rw [if_neg (by rw [hs]; decide)]))
  · have hs' : ((d.withRack b false).bay b).state = .held := by rw [hbay]; exact hs
    rw [holdReleased_held hs', leaveHeld_loading hs' (by rw [hbay]; exact hb) (by rw [hbay]; exact hc) (by rw [hbay]; exact hl),
      withRack, onBay_onBay]
    exact congrArg (fun e : Device => (e.bayNotice b 13 []).loadTest b) (onBay_congr _ _ _ _ (by rw [if_pos hs]))

end Released

/-- R72: a bay back in LOADING with no batch open closes its load when every line has ended, and stays LOADING otherwise. -/
theorem rackBack_loadTest {o : Order} (ho : (d.orderOf b).map Order.progress = some o.progress) :
    ((∃ x ∈ o.lines, x.batch ≠ .ended) → ((d.rackBack b).loadTest b).bay b = (d.rackBack b).bay b) ∧
    (((∀ x ∈ o.lines, x.batch = .ended) ∧ d.noBatch b = true) → ∃ s w, ((d.rackBack b).loadTest b).bay b =
      { d.bay b with
        state := .closing, message := s, holdRack := false, causes := .empty, resumeTimer := none, authTimer := .stopped
        before := none, swipe := w }) ∧
    (((∀ x ∈ o.lines, x.batch = .ended) ∧ d.noBatch b ≠ true) → ((d.rackBack b).loadTest b).bay b = (d.rackBack b).bay b) := by
  obtain ⟨q, hq, hprogress⟩ := Option.map_eq_some_iff.mp ho
  have hbay := d.rackBack_bay b
  have horder : (d.rackBack b).orderOf b = some q := (orderOf_congr (d := d) (e := d.rackBack b) rfl (by rw [hbay])).trans hq
  have hended : (∀ x ∈ q.lines, x.batch = .ended) ↔ ∀ x ∈ o.lines, x.batch = .ended := by
    have hmem : ∀ p : Order, (∀ x ∈ p.lines, x.batch = .ended) ↔ ∀ y ∈ p.progress, y = .ended := fun p => by
      rw [Order.progress, List.forall_mem_map]
    rw [hmem, hmem, hprogress]
  have hbatch : (d.rackBack b).noBatch b = d.noBatch b := rfl
  obtain ⟨hdone, hnot⟩ := loadTest_eq horder
  refine ⟨fun ⟨x, hx, hn⟩ => ?_, fun ⟨hall, hnone⟩ => ?_, fun ⟨_, hopen⟩ => ?_⟩
  · rw [hnot fun k => hn (hended.mp k.2.1 x hx)]
  · have hempty := (noBatch_iff _ _).mp (hbatch.trans hnone)
    rw [hdone ⟨by rw [hbay], hended.mpr hall, hempty⟩, closeLoad_of_none hempty, bayNotice_bay, onBay_bay_same, enterState,
      onBay_bay_same, if_neg (by rw [hbay]; exact nofun), hbay]
    exact ⟨_, _, rfl⟩
  · rw [hnot fun k => hopen (hbatch.symm.trans ((noBatch_iff _ _).mpr k.2.2))]

/-! ### The source for all four bays (R170) -/

theorem foldl_takeRack (l : List BayId) (hl : l.Nodup) (v : Bool) (d : Device) :
    d.Alike (l.foldl (fun e b => e.takeRack b v) d) ∧ (l.foldl (fun e b => e.takeRack b v) d).lu = d.lu ∧
    (∀ y, y ∉ l → (l.foldl (fun e b => e.takeRack b v) d).bay y = d.bay y) ∧
    ∀ b ∈ l, ∃ m : Device, d.Alike m ∧ m.bay b = d.bay b ∧
      (l.foldl (fun e b => e.takeRack b v) d).bay b = (m.takeRack b v).bay b := by
  induction l generalizing d with
  | nil => exact ⟨.refl d, rfl, fun _ _ => rfl, fun _ h => (nomatch h)⟩
  | cons y t ih =>
    obtain ⟨hy, ht⟩ := List.nodup_cons.mp hl
    have hone := d.takeRack_oneBay y v
    obtain ⟨halike, hlu, hnot, hall⟩ := ih ht (d.takeRack y v)
    rw [List.foldl_cons]
    refine ⟨hone.alike.trans halike, hlu.trans hone.lu, fun z hz => ?_, fun b hb => ?_⟩
    · rw [List.mem_cons, not_or] at hz
      rw [hnot z hz.2, hone.others z hz.1]
    · by_cases hby : b = y
      · subst hby
        exact ⟨d, .refl d, rfl, hnot b hy⟩
      · obtain ⟨m, hm, hbay, hres⟩ := hall b ((List.mem_cons.mp hb).resolve_left hby)
        exact ⟨m, hone.alike.trans hm, hbay.trans (hone.others b hby), hres⟩

theorem foldl_takeRack_orders (l : List BayId) (d : Device) : (l.foldl (fun e b => e.takeRack b true) d).orders = d.orders := by
  induction l generalizing d with
  | nil => rfl
  | cons y t ih => exact (ih (d.takeRack y true)).trans (takeRack_hold_keeps d y).2.2

/-- R170: from `d` to `e` the rack hold and its source come to `v`, and each bay takes its part. -/
structure RackTurned (d e : Device) (v : Bool) : Prop where
  mgmtHold   : e.lu.mgmtHold = v
  holdSource : e.lu.holdSource = v
  alike      : d.Alike e
  bays       : ∀ b, ∃ m : Device, d.Alike m ∧ m.bay b = d.bay b ∧ e.bay b = (m.takeRack b v).bay b
  orders     : v = true → e.orders = d.orders

end Rack

/-- R170: the part with the rack hold and its source at `v`, before the bays take their part. -/
def rackSet (d : Device) (v : Bool) : Device :=
  ((d.onLu fun u => { u with mgmtHold := v }).luNotice 12).onLu fun u => { u with holdSource := v }

theorem setMgmtHold_turns {d : Device} {v : Bool} (hm : d.lu.mgmtHold ≠ v) (hs : d.lu.holdSource ≠ v)
    (hnow : (v || d.anyActive .holdIn) = v) :
    d.setMgmtHold v = (allBays.foldl (fun e b => e.takeRack b v) (d.rackSet v)).luNotice 11 := by
  have hsource : ((d.onLu fun u => { u with mgmtHold := v }).luNotice 12).holdNow = v := hnow
  unfold setMgmtHold evalHold
  dsimp only
  have hkept : v ≠ ((d.onLu fun u => { u with mgmtHold := v }).luNotice 12).lu.holdSource := hs.symm
  rw [if_neg hm, hsource, if_neg hkept]
  rfl

theorem setMgmtHold_rackTurned {d : Device} {v : Bool} (hm : d.lu.mgmtHold ≠ v) (hs : d.lu.holdSource ≠ v)
    (hnow : (v || d.anyActive .holdIn) = v) : d.RackTurned (d.setMgmtHold v) v := by
  have hset : d.Alike (d.rackSet v) := .of_rest rfl rfl
  have hbays : ∀ b, (d.rackSet v).bay b = d.bay b := fun _ => rfl
  have hlu : (d.rackSet v).lu.mgmtHold = v ∧ (d.rackSet v).lu.holdSource = v := ⟨rfl, rfl⟩
  have hqueue : (d.rackSet v).orders = d.orders := rfl
  rw [setMgmtHold_turns hm hs hnow]
  generalize d.rackSet v = f at hset hbays hlu hqueue
  obtain ⟨halike, hfold, -, hall⟩ := foldl_takeRack allBays (by decide) v f
  have horders : v = true → (allBays.foldl (fun e b => e.takeRack b v) f).orders = f.orders := fun h => by
    rw [h, foldl_takeRack_orders]
  generalize allBays.foldl (fun e b => e.takeRack b v) f = e at halike hfold hall horders
  refine ⟨(congrArg Lu.mgmtHold hfold).trans hlu.1, (congrArg Lu.holdSource hfold).trans hlu.2,
    (hset.trans halike).trans (.of_rest rfl rfl), fun b => ?_, fun h => (horders h).trans hqueue⟩
  obtain ⟨m, hm', hbay, hres⟩ := hall b (mem_allBays b)
  exact ⟨m, hset.trans hm', hbay.trans (hbays b), hres⟩

end Device

/-! ### What follows a change that leaves every bay what its tests look at -/

section Follows
variable {d e : Device} {b : BayId}

theorem settle_holds (d e : Device) (b : BayId) :
    ((settle d e).bay b).holdBay = (e.bay b).holdBay ∧ ((settle d e).bay b).holdRack = (e.bay b).holdRack := by
  obtain ⟨g, hg, hres⟩ := settle_eachBay d e b
  have htests := g.bayTests_holds b
  rw [hg.bay] at htests
  rw [hres]
  exact htests

theorem settle_alike_plain (ht : (e.bay b).state ≠ .tripped) (hh : (e.bay b).state ≠ .holding) (hc : (e.bay b).state ≠ .closing) :
    ∃ s, (settle d e).bay b = { e.bay b with causes := s } := by
  obtain ⟨g, hg, hres⟩ := settle_eachBay d e b
  obtain ⟨s, hs⟩ := Device.bayTests_plain (d := g) (b := b) (by rw [hg.bay]; exact ht) (by rw [hg.bay]; exact hh)
    (by rw [hg.bay]; exact hc)
  exact ⟨s, by rw [hres, hs, hg.bay]⟩

section Alike
variable (h : d.Alike e)
include h

/-- R80: a HOLDING bay is HELD at once when its arms are all CLOSED. -/
theorem settle_alike_holding (hs : (e.bay b).state = .holding) : ∃ s m, (settle d e).bay b = { e.bay b with
    state := if (d.armsOf b).all fun a => (d.arm a).position == .closed then .held else .holding, message := m, causes := s } := by
  obtain ⟨g, hg, hres⟩ := settle_eachBay d e b
  have hstate : (g.bay b).state = .holding := by rw [hg.bay]; exact hs
  have harms : g.armsOf b = d.armsOf b := Device.armsOf_congr (hg.armRecs.trans h.armRecs) b
  have hpos : ∀ a, (g.arm a).position = (d.arm a).position := fun a => by rw [hg.arm]; exact (h.looks a).1
  have hall : ((g.armsOf b).all fun a => (g.arm a).position == .closed) = (d.armsOf b).all fun a => (d.arm a).position == .closed := by
    simp only [harms, hpos]
  rw [hres, ← hg.bay]
  cases hc : (d.armsOf b).all fun a => (d.arm a).position == .closed with
  | true =>
    obtain ⟨⟨s, hbay⟩, -⟩ := Device.bayTests_granted hstate fun a ha => by
      rw [hpos]
      exact beq_iff_eq.mp (List.all_eq_true.mp hc a (harms ▸ ha))
    exact ⟨s, none, hbay⟩
  | false =>
    rw [Device.bayTests_holding hstate (hall.trans hc)]
    exact ⟨(g.bay b).causes, (g.bay b).message, by rw [if_neg Bool.false_ne_true, ← hstate]⟩

/-- R83: a CLOSING bay without a cause goes on when nothing of it is left. -/
theorem settle_alike_closing (hs : (e.bay b).state = .closing) (hc : (e.bay b).causes = .empty) (hn : d.noBatch b = true) :
    ∃ m l, (settle d e).bay b = { e.bay b with
      state := if d.outstandingShots b = 0 then .noteCommit else .closing, message := m, ended := l } := by
  obtain ⟨g, hg, hres⟩ := settle_eachBay d e b
  have hstate : (g.bay b).state = .closing := by rw [hg.bay]; exact hs
  have hnone : g.noBatch b = true := by
    rw [Device.noBatch_congr (d := e) hg.armRecs fun a => by rw [hg.arm], h.noBatch, hn]
  have hshots : g.outstandingShots b = d.outstandingShots b :=
    (Device.outstandingShots_congr hg.armRecs (fun c => by rw [Device.inj, hg.injs]; exact ⟨rfl, rfl⟩) b).trans (h.shots b)
  rw [hres, Device.bayTests_closing hstate (by rw [hg.bay]; exact hc), ← hg.bay]
  by_cases hz : d.outstandingShots b = 0
  · rw [Device.closingTest_bay hstate hnone (hshots.trans hz), if_pos hz]
    exact ⟨_, _, rfl⟩
  · rw [Device.closingTest_still (.inr (.inr (by rw [hshots]; exact hz))), if_neg hz]
    exact ⟨(g.bay b).message, (g.bay b).ended, by rw [← hstate]⟩

/-- R75: the arms of a bay that loads neither before nor after, not moved, lift no VALVE cause that they had not lifted. -/
theorem tested_unseated {g : Device} (hg : d.TestedBy e g b) (hd : d.settled = true) (h0 : (d.bay b).state ≠ .loading)
    (h1 : (e.bay b).state ≠ .loading) (hc : (e.bay b).causes = (d.bay b).causes) :
    ¬ ((g.bay b).causes.valve = true ∧ g.armsSeated b = true) := by
  obtain ⟨hrests, -⟩ := (settled_iff d).mp hd
  obtain ⟨hvalve, -⟩ := (Device.bayRests_iff d b).mp (hrests b)
  have harms : g.armsOf b = d.armsOf b := Device.armsOf_congr (hg.armRecs.trans h.armRecs) b
  have harm : ∀ a ∈ d.armsOf b, (g.arm a).position = (d.arm a).position ∧ (g.arm a).travel = (d.arm a).travel := fun a ha => by
    have hb : d.bayOfArm a = some b := Device.mem_armsOf.mp ha
    have hb' : e.bayOfArm a = some b := (Device.bayOfArm_congr h.armRecs a).trans hb
    have hstage : d.effectiveStage a = e.effectiveStage a := by
      rw [Device.effectiveStage_of_not_loading (d := d) fun y hy => Option.some.inj (hb.symm.trans hy) ▸ h0,
        Device.effectiveStage_of_not_loading fun y hy => Option.some.inj (hb'.symm.trans hy) ▸ h1]
    obtain ⟨hpos, htravel, -⟩ := h.looks a
    rw [hg.arm, travelAfter_same hstage hpos.symm]
    exact ⟨hpos, htravel⟩
  have hseated : g.armsSeated b = d.armsSeated b := by
    rw [Bool.eq_iff_iff, Device.armsSeated, Device.armsSeated, List.all_eq_true, List.all_eq_true, harms]
    refine forall₂_congr fun a ha => ?_
    obtain ⟨hpos, htravel⟩ := harm a ha
    rw [hpos, htravel]
  rw [hg.bay, hc, hseated]
  exact hvalve

theorem settle_alike_tripped (hd : d.settled = true) (hs : (e.bay b).state = .tripped) (h0 : (d.bay b).state ≠ .loading)
    (hc : (e.bay b).causes = (d.bay b).causes) : (settle d e).bay b = e.bay b := by
  obtain ⟨g, hg, hres⟩ := settle_eachBay d e b
  rw [hres, Device.bayTests_tripped (by rw [hg.bay]; exact hs) (tested_unseated h hg hd h0 (by rw [hs]; decide) hc), hg.bay]

end Alike

end Follows

namespace Device

theorem RackTurned.answered {d e : Device} {v : Bool} {c : Instr} (h : (d.intoService c).RackTurned e v) (k : Nat) (t : Byte)
    (st : Status) : d.RackTurned (e.finish k t st []) v := by
  have hserved : d.Alike (d.intoService c) := .of_rest rfl rfl
  refine ⟨h.mgmtHold, h.holdSource, (hserved.trans h.alike).trans (.of_rest rfl rfl), fun b => ?_, h.orders⟩
  obtain ⟨m, hm, hbay, hres⟩ := h.bays b
  exact ⟨m, hserved.trans hm, hbay, hres⟩

/-- R170: while the source stays active the management rack hold alone changes. -/
theorem setMgmtHold_alone {d : Device} {v : Bool} (hm : d.lu.mgmtHold ≠ v) (hs : d.lu.holdSource = true)
    (hnow : (v || d.anyActive .holdIn) = true) : d.setMgmtHold v = (d.onLu fun u => { u with mgmtHold := v }).luNotice 12 := by
  have hsource : ((d.onLu fun u => { u with mgmtHold := v }).luNotice 12).holdNow = true := hnow
  have hkept : true = ((d.onLu fun u => { u with mgmtHold := v }).luNotice 12).lu.holdSource := hs.symm
  unfold setMgmtHold evalHold
  dsimp only
  rw [if_neg hm, hsource, if_pos hkept]

theorem settled_mgmtHold (d : Device) (v : Bool) (m : Mp) :
    ({ d with lu := { d.lu with mgmtHold := v }, mp := m } : Device).settled = d.settled := by
  rw [Bool.eq_iff_iff, settled_iff, settled_iff]
  exact Iff.rfl

end Device

open Device

section Turned
variable {d e : Device} {v : Bool} (h : d.RackTurned e v)
include h

theorem Device.RackTurned.settle_lu : (settle d e).lu.mgmtHold = v ∧ (settle d e).lu.holdSource = v := by
  obtain ⟨hm, hs⟩ := settle_rackHold d e
  exact ⟨hm.trans h.mgmtHold, hs.trans h.holdSource⟩

theorem Device.RackTurned.settle_sources (b : BayId) :
    ((settle d e).bay b).holdRack = v ∧ ((settle d e).bay b).holdBay = (d.bay b).holdBay := by
  obtain ⟨m, -, hbay, hres⟩ := h.bays b
  obtain ⟨hb, hr⟩ := settle_holds d e b
  obtain ⟨tb, tr⟩ := m.setHolds_sources b (m.bay b).holdBay v
  rw [hb, hr, hres]
  exact ⟨tr, tb.trans (by rw [hbay])⟩

theorem Device.RackTurned.settle_frame : (settle d e).permits = d.permits ∧ (settle d e).custody = d.custody :=
  ⟨(settle_permits d e).trans h.alike.permits, (settle_custody d e).trans h.alike.custody⟩

end Turned

/-! ### RACK HOLD, when the source was not active (R79, R170) -/

section Taken
variable {d e : Device} (h : d.RackTurned e true) {b : BayId}
include h

theorem Device.RackTurned.taken_keeps (b : BayId) : (e.bay b).causes = (d.bay b).causes ∧
    ((e.bay b).state = (d.bay b).state ∨ (e.bay b).state = .held ∨ (e.bay b).state = .holding) := by
  obtain ⟨m, -, hbay, hres⟩ := h.bays b
  obtain ⟨hc, hs, -⟩ := m.takeRack_hold_keeps b
  rw [hbay] at hc hs
  rw [hres]
  exact ⟨hc, hs⟩

/-- R79: a bay with nothing to load is HELD, and stays so. -/
theorem Device.RackTurned.taken_idle (hb : (d.bay b).holdBay = false) (hr : (d.bay b).holdRack = false)
    (hs : (d.bay b).state = .idle ∨ (d.bay b).state = .authorized) : ((settle d e).bay b).state = .held ∧
      ((settle d e).bay b).before = some (if (d.bay b).state = .idle then .idle else .authorized) := by
  obtain ⟨m, -, hbay, hres⟩ := h.bays b
  have htaken : (e.bay b).state = .held ∧ (e.bay b).before = some (if (d.bay b).state = .idle then .idle else .authorized) := by
    rcases hs with hs | hs
    · rw [hres, takeRack_idle (by rw [hbay]; exact hb) (by rw [hbay]; exact hr) (by rw [hbay]; exact hs), if_pos hs]
      exact ⟨rfl, rfl⟩
    · rw [hres, takeRack_authorized (by rw [hbay]; exact hb) (by rw [hbay]; exact hr) (by rw [hbay]; exact hs),
        if_neg (by rw [hs]; decide)]
      exact ⟨rfl, rfl⟩
  obtain ⟨hstate, hbefore⟩ := htaken
  obtain ⟨s, hfollow⟩ := settle_alike_plain (d := d) (by rw [hstate]; decide) (by rw [hstate]; decide) (by rw [hstate]; decide)
  rw [hfollow]
  exact ⟨hstate, hbefore⟩

/-- R79, R80: a LOADING bay is HOLDING, or HELD at once. -/
theorem Device.RackTurned.taken_loading (hb : (d.bay b).holdBay = false) (hr : (d.bay b).holdRack = false)
    (hs : (d.bay b).state = .loading) :
    ((settle d e).bay b).state = (if (d.armsOf b).all fun a => (d.arm a).position == .closed then .held else .holding) ∧
      ((settle d e).bay b).before = some .loading ∧ ((settle d e).bay b).heldDuring = true := by
  obtain ⟨m, -, hbay, hres⟩ := h.bays b
  have htaken : (e.bay b).state = .holding ∧ (e.bay b).before = some .loading ∧ (e.bay b).heldDuring = true := by
    rw [hres, takeRack_loading (by rw [hbay]; exact hb) (by rw [hbay]; exact hr) (by rw [hbay]; exact hs)]
    exact ⟨rfl, rfl, rfl⟩
  obtain ⟨hstate, hbefore, hheld⟩ := htaken
  obtain ⟨s, w, hfollow⟩ := settle_alike_holding h.alike hstate
  rw [hfollow]
  exact ⟨rfl, hbefore, hheld⟩

/-- R75, R83: a hold taken gives no bay's test an order to move. -/
theorem Device.RackTurned.taken_orders (hd : d.settled = true) : (settle d e).orders = d.orders := by
  obtain ⟨hrests, -⟩ := (settled_iff d).mp hd
  rw [← h.orders rfl]
  refine settle_orders_of_tests fun y g hg => bayTests_keeps_orders (fun ht => ?_) fun hc => ?_
  · obtain ⟨hcauses, hstate⟩ := h.taken_keeps y
    rw [hg.bay] at ht
    have hwas : (d.bay y).state = .tripped := by
      rcases hstate with hs | hs | hs <;> rw [ht] at hs
      · exact hs.symm
      · cases hs
      · cases hs
    exact tested_unseated h.alike hg hd (by rw [hwas]; decide) (by rw [ht]; decide) hcauses
  · obtain ⟨-, hstate⟩ := h.taken_keeps y
    rw [hg.bay] at hc
    have hwas : (d.bay y).state = .closing := by
      rcases hstate with hs | hs | hs <;> rw [hc] at hs
      · exact hs.symm
      · cases hs
      · cases hs
    obtain ⟨-, -, hclosing⟩ := (bayRests_iff d y).mp (hrests y)
    have hbatch : g.noBatch y = d.noBatch y := by
      rw [noBatch_congr (d := e) hg.armRecs fun a => by rw [hg.arm], h.alike.noBatch]
    have hshots : g.outstandingShots y = d.outstandingShots y :=
      (outstandingShots_congr hg.armRecs (fun c => by rw [inj, hg.injs]; exact ⟨rfl, rfl⟩) y).trans (h.alike.shots y)
    rw [hbatch, hshots, ← Bool.not_eq_true, ← not_and_or]
    exact fun k => hclosing ⟨hwas, k⟩

end Taken

/-! ### RACK RELEASE, when the source goes (R81, R170) -/

section Released
variable {d e : Device} (h : d.RackTurned e false) {b : BayId} (hr : (d.bay b).holdRack = true) (hb : (d.bay b).holdBay = false)
include h hr hb

theorem Device.RackTurned.released_toIdle (hs : (d.bay b).state = .held) (hw : (d.bay b).before = some .idle)
    (hp : (d.bay b).swipe = none) :   ((settle d e).bay b).state = .idle := by
  obtain ⟨m, -, hbay, hres⟩ := h.bays b
  have hstate : (e.bay b).state = .idle := by
    rw [hres, takeRack_backToIdle (by rw [hbay]; exact hb) (by rw [hbay]; exact hr) (by rw [hbay]; exact hs) (by rw [hbay]; exact hw)
      (by rw [hbay]; exact hp)]
  obtain ⟨s, hfollow⟩ := settle_alike_plain (d := d) (by rw [hstate]; decide) (by rw [hstate]; decide) (by rw [hstate]; decide)
  rw [hfollow]
  exact hstate

theorem Device.RackTurned.released_toAuthorized (hs : (d.bay b).state = .held) (hw : (d.bay b).before = some .authorized) :
    ((settle d e).bay b).state = .authorized := by
  obtain ⟨m, -, hbay, hres⟩ := h.bays b
  have hstate : (e.bay b).state = .authorized := by
    rw [hres, takeRack_backToAuthorized (by rw [hbay]; exact hb) (by rw [hbay]; exact hr) (by rw [hbay]; exact hs)
      (by rw [hbay]; exact hw)]
  obtain ⟨s, hfollow⟩ := settle_alike_plain (d := d) (by rw [hstate]; decide) (by rw [hstate]; decide) (by rw [hstate]; decide)
  rw [hfollow]
  exact hstate

/-- R81: a bay HELD from LOADING that a cause or the lockout stops is TRIPPED, and stays so. -/
theorem Device.RackTurned.released_trips (hd : d.settled = true) (hs : (d.bay b).state = .held) (hw : (d.bay b).before = some .loading)
    (hc : (d.bay b).causes ≠ .empty ∨ (d.bay b).lockout = true) : ((settle d e).bay b).before = none ∧
      ((settle d e).bay b).state = .tripped ∧
      ((settle d e).bay b).resumeTimer = if (d.bay b).lockout then none else some (d.mp.settings.resumeWindow * 1000) := by
  obtain ⟨m, hm, hbay, hres⟩ := h.bays b
  have htrip : e.bay b = { d.bay b with
      state := .tripped, message := none, holdRack := false, before := none, swipe := none
      resumeTimer := if (d.bay b).lockout then none else some (secondsMs d.mp.settings.resumeWindow) } := by
    rw [hres, takeRack_trips (by rw [hbay]; exact hb) (by rw [hbay]; exact hr) (by rw [hbay]; exact hs) (by rw [hbay]; exact hw)
      (by rw [hbay]; exact hc), hbay, hm.settings]
  rw [settle_alike_tripped h.alike hd (by rw [htrip]) (by rw [hs]; decide) (by rw [htrip]), htrip]
  exact ⟨rfl, rfl, rfl⟩

section Back
variable {o : Order} (ho : d.orderOf b = some o) (hs : (d.bay b).state = .holding ∨ ((d.bay b).state = .held ∧
  (d.bay b).before = some .loading ∧ (d.bay b).causes = CauseSet.empty ∧ (d.bay b).lockout = false))
include ho hs

/-- R72, R81: a bay back in LOADING whose load is not done stays there. -/
theorem Device.RackTurned.released_toLoading (hl : (∃ x ∈ o.lines, x.batch ≠ .ended) ∨ d.noBatch b ≠ true) :
    ((settle d e).bay b).state = .loading ∧ ((settle d e).bay b).before = none := by
  obtain ⟨m, hm, hbay, hres⟩ := h.bays b
  have hprogress : (m.orderOf b).map Order.progress = some o.progress := by rw [hm.orderOf hbay, ho]; rfl
  have hback : e.bay b = (m.rackBack b).bay b := by
    obtain ⟨hline, -, hbatch⟩ := rackBack_loadTest hprogress
    rw [hres, takeRack_back (by rw [hbay]; exact hb) (by rw [hbay]; exact hr) (by rw [hbay]; exact hs)]
    by_cases hall : ∀ x ∈ o.lines, x.batch = .ended
    · exact hbatch ⟨hall, by rw [hm.noBatch]; exact hl.resolve_left fun ⟨x, hx, hn⟩ => hn (hall x hx)⟩
    · push Not at hall
      exact hline hall
  have hstate : (e.bay b).state = .loading ∧ (e.bay b).before = none := by
    rw [hback, m.rackBack_bay]
    exact ⟨rfl, rfl⟩
  obtain ⟨s, hfollow⟩ := settle_alike_plain (d := d) (by rw [hstate.1]; decide) (by rw [hstate.1]; decide) (by rw [hstate.1]; decide)
  rw [hfollow]
  exact hstate

/-- R72, R82, R83: a bay back in LOADING whose load is done closes it at once. -/
theorem Device.RackTurned.released_closes (hl : ∀ x ∈ o.lines, x.batch = .ended) (hn : d.noBatch b = true) :
    ((settle d e).bay b).state = (if d.outstandingShots b = 0 then .noteCommit else .closing) ∧
      ((settle d e).bay b).before = none ∧ ((settle d e).bay b).causes = CauseSet.empty := by
  obtain ⟨m, hm, hbay, hres⟩ := h.bays b
  have hprogress : (m.orderOf b).map Order.progress = some o.progress := by rw [hm.orderOf hbay, ho]; rfl
  have hclosed : (e.bay b).state = .closing ∧ (e.bay b).before = none ∧ (e.bay b).causes = CauseSet.empty := by
    obtain ⟨s, w, hclose⟩ := (rackBack_loadTest hprogress).2.1 ⟨hl, (hm.noBatch b).trans hn⟩
    rw [hres, takeRack_back (by rw [hbay]; exact hb) (by rw [hbay]; exact hr) (by rw [hbay]; exact hs), hclose]
    exact ⟨rfl, rfl, rfl⟩
  obtain ⟨hstate, hbefore, hcauses⟩ := hclosed
  obtain ⟨w, l, hfollow⟩ := settle_alike_closing h.alike hstate hcauses hn
  have hstays : ((settle d e).bay b).before = (e.bay b).before ∧ ((settle d e).bay b).causes = (e.bay b).causes := by
    rw [hfollow]
    exact ⟨rfl, rfl⟩
  refine ⟨?_, hstays.1.trans hbefore, hstays.2.trans hcauses⟩
  rw [hfollow]

end Back

theorem Device.RackTurned.released_before {o : Order} (hd : d.settled = true) (hs : (d.bay b).state = .held)
    (hw : (d.bay b).before = some .loading) (ho : d.orderOf b = some o) : ((settle d e).bay b).before = none := by
  by_cases hc : (d.bay b).causes ≠ .empty ∨ (d.bay b).lockout = true
  · exact (h.released_trips hr hb hd hs hw hc).1
  push Not at hc
  obtain ⟨hc, hl⟩ := hc
  have hfree : (d.bay b).state = .holding ∨ ((d.bay b).state = .held ∧ (d.bay b).before = some .loading ∧
      (d.bay b).causes = CauseSet.empty ∧ (d.bay b).lockout = false) := .inr ⟨hs, hw, hc, (Bool.not_eq_true _).mp hl⟩
  by_cases hdone : (∀ x ∈ o.lines, x.batch = .ended) ∧ d.noBatch b = true
  · exact (h.released_closes hr hb ho hfree hdone.1 hdone.2).2.1
  · refine (h.released_toLoading hr hb ho hfree ?_).2
    by_cases hn : d.noBatch b = true
    · left
      by_contra hall
      push Not at hall
      exact hdone ⟨hall, hn⟩
    · exact .inr hn

end Released

/-! ### The two requests -/

theorem exec_rackHold (s : State) (t : Byte) : exec (.rackHold t (some ())) s =
    advance s fun d => d.request (.rackHold t (some ())) fun e => e.conclude 10 t (.ok (e.setMgmtHold true)) := by
  show execRackHold t (some ()) s = _
  simp only [execRackHold, withOps_some]

theorem exec_rackRelease (s : State) (t : Byte) : exec (.rackRelease t (some ())) s =
    advance s fun d => d.request (.rackRelease t (some ())) fun e => e.conclude 11 t (.ok (e.setMgmtHold false)) := by
  show execRackRelease t (some ()) s = _
  simp only [execRackRelease, withOps_some]

section Requests
variable {s : State} {i : Instr} {k : Nat} {t : Byte} {v : Bool} (hq : s.quiet = true)
include hq

theorem request_keepsRack (hm : s.dev.lu.mgmtHold = v) :
    advance s (fun d => d.request i fun e => e.conclude k t (.ok (e.setMgmtHold v))) = .next (s.answers s.dev k t .ok []) :=
  request_concludes (r := fun e => .ok (e.setMgmtHold v)) hq (.refl _) rfl rfl (congrArg Except.ok (if_pos hm))

/-- R170: a request under a source that stays active has no effect on a bay. -/
theorem request_rackAlone (hm : s.dev.lu.mgmtHold ≠ v) (hs : s.dev.lu.holdSource = true) (hnow : (v || s.dev.anyActive .holdIn) = true) :
    advance s (fun d => d.request i fun e => e.conclude k t (.ok (e.setMgmtHold v))) =
      .next (s.answers ((s.dev.onLu fun u => { u with mgmtHold := v }).raise .rack .rack 12
        [flagOctet s.dev.lu.esd, flagOctet s.dev.lu.esdPending, flagOctet s.dev.lu.powerfail, flagOctet v, [1#8]]) k t .ok []) := by
  obtain ⟨-, hd⟩ := s.quiet_iff.mp hq
  have hfields : luFields (s.dev.onLu fun u => { u with mgmtHold := v }) =
      [flagOctet s.dev.lu.esd, flagOctet s.dev.lu.esdPending, flagOctet s.dev.lu.powerfail, flagOctet v, [1#8]] := by
    show [_, _, _, _, flagOctet s.dev.lu.holdSource] = _
    rw [hs]
    rfl
  have hrun : Except.ok ((s.dev.intoService i).setMgmtHold v) =
      (.ok (((s.dev.onLu fun u => { u with mgmtHold := v }).luNotice 12).intoService i) : Except Status Device) := by
    rw [Device.setMgmtHold_alone (d := s.dev.intoService i) hm hs hnow]
    rfl
  rw [request_settles (r := fun e => .ok (e.setMgmtHold v))
    (e := (s.dev.onLu fun u => { u with mgmtHold := v }).luNotice 12) hq rfl rfl hrun, settle_quiet, Device.luNotice,
    Device.rackNotice, hfields]
  · rfl
  · exact (s.dev.settled_mgmtHold v _).trans hd
  · exact fun _ => ⟨rfl, rfl⟩

/-- R170: a request that turns the source has every bay take its part. -/
theorem request_turnsRack (hm : s.dev.lu.mgmtHold ≠ v) (hs : s.dev.lu.holdSource ≠ v) (hnow : (v || s.dev.anyActive .holdIn) = v) :
    ∃ e, s.dev.RackTurned e v ∧
      advance s (fun d => d.request i fun e => e.conclude k t (.ok (e.setMgmtHold v))) = .next { s with dev := settle s.dev e } :=
  ⟨_, (Device.setMgmtHold_rackTurned (d := s.dev.intoService i) hm hs hnow).answered k t .ok,
    request_carried (r := fun e => .ok (e.setMgmtHold v)) hq rfl⟩

end Requests

/-- Settles O28: the requests that change no source, then the part of every bay in a source taken and in one released. -/
theorem rackHoldAndRelease : Obligations.RackHoldAndRelease := by
  intro s t hq
  obtain ⟨-, hd⟩ := s.quiet_iff.mp hq
  rw [exec_rackHold, exec_rackRelease]
  refine ⟨request_keepsRack hq, request_keepsRack hq, fun hm hs hr => ?_, fun hm hs => ?_, fun hm hs hin => ?_, fun hm hs hin => ?_⟩
  · obtain ⟨e, h, hrun⟩ := request_turnsRack (i := .rackHold t (some ())) (k := 10) (t := t) (v := true) hq
      (by rw [hm]; decide) (by rw [hs]; decide) rfl
    obtain ⟨u, hu, hpending, hdev⟩ := next_dev hrun
    obtain ⟨hmgmt, hsource⟩ := h.settle_lu
    obtain ⟨hpermits, hcustody⟩ := h.settle_frame
    refine ⟨u, hu, hpending, ?_⟩
    rw [hdev]
    exact ⟨hmgmt, hsource, h.settle_sources, fun b hb => h.taken_idle hb (hr b), fun b hb => h.taken_loading hb (hr b),
      h.taken_orders hd, hpermits, hcustody⟩
  · exact request_rackAlone (v := true) hq (by rw [hm]; decide) hs rfl
  · exact request_rackAlone (v := false) hq (by rw [hm]; decide) hs hin
  · obtain ⟨e, h, hrun⟩ := request_turnsRack (i := .rackRelease t (some ())) (k := 11) (t := t) (v := false) hq
      (by rw [hm]; decide) (by rw [hs]; decide) hin
    obtain ⟨u, hu, hpending, hdev⟩ := next_dev hrun
    obtain ⟨hmgmt, hsource⟩ := h.settle_lu
    obtain ⟨hpermits, hcustody⟩ := h.settle_frame
    refine ⟨u, hu, hpending, ?_⟩
    rw [hdev]
    refine ⟨hmgmt, hsource, h.settle_sources, fun b hr hb => h.released_toIdle hr hb, fun b hr hb => h.released_toAuthorized hr hb,
      fun b o hr hb hs hw ho _ => ⟨h.released_before hr hb hd hs hw ho, fun hc => (h.released_trips hr hb hd hs hw hc).2,
        fun hc hl hx => (h.released_toLoading hr hb ho (.inr ⟨hs, hw, hc, hl⟩) (.inl hx)).1⟩,
      fun b o hr hb hs ho _ => ⟨fun hx => h.released_toLoading hr hb ho hs (.inl hx), h.released_closes hr hb ho hs⟩,
      hpermits, hcustody⟩

end Sys2Proof.Machine
end

