-- ==== Sys2Proof/Proofs/BarrierWrites.lean ====
section
/-! A barrier's body, check and mark written (R118, R119, R133, R134): what a completion leaves, the reads served at it, and
what follows it. -/

namespace Sys2Proof.Machine

open Sys2Proof

namespace Device

/-! ### The reads served at a completion (R117, R121, R136) -/

/-- From `d` to `e` reads have been answered and taken, and a held barrier perhaps released, and no more. -/
def Served (d e : Device) : Prop :=
  { d with
    cw := { d.cw with waiting := e.cw.waiting, held := e.cw.held }
    mp := { e.mp with notices := d.mp.notices } } = e

theorem Served.refl (d : Device) : d.Served d := rfl

theorem Served.trans {d e f : Device} (h : d.Served e) (k : e.Served f) : d.Served f := by
  unfold Served at *
  rw [← k, ← h]

theorem serveWaiting_served (d : Device) (v : Bool) : d.Served (d.serveWaiting v) := by
  unfold serveWaiting
  split
  · rfl
  · split <;> rfl

theorem resumeRead_served (d : Device) : d.Served d.resumeRead := by
  have htake : ∀ t a, d.Served (d.takeRead t a) := fun t a => by
    unfold takeRead
    split <;> rfl
  unfold resumeRead
  split
  · split
    · split
      · exact htake ..
      · rfl
    · rfl
  · rfl

theorem resumeService_served (d : Device) : d.Served d.resumeService := by
  unfold resumeService
  split
  · rfl
  · exact resumeRead_served d

theorem heldTest_served (d : Device) : d.Served d.heldTest := by
  unfold heldTest
  split
  · split <;> rfl
  · rfl
  · rfl

/-- R114, R121: a completion while the part runs is its write's outcome, and reads served. -/
theorem served_completion {d : Device} (hb : d.boot = .ready) : d.Served (((d.serveWaiting false).resumeService).scanTest) := by
  have hserved := (serveWaiting_served d false).trans (resumeService_served _)
  have hboot : ((d.serveWaiting false).resumeService).boot = .ready := by rw [← hserved]; exact hb
  rw [show ((d.serveWaiting false).resumeService).scanTest = (d.serveWaiting false).resumeService by rw [scanTest, hboot]]
  exact hserved

/-! ### A barrier's part written, or failed twice -/

/-- CW with no write in progress. -/
def idleWriter (d : Device) : Device := d.onCw fun c => { c with write := none }

/-- R118: the part with a barrier's part landed in custody memory and taken note of. -/
def partLanded (d : Device) (id : Nat) (x : Barrier) (part : BarrierPart) : Device :=
  (d.idleWriter.onCustody fun _ => d.custody.writePart x part).partWritten id x part

/-- CW with a barrier's failure counted and the barrier gone from the queue. -/
def unqueued (d : Device) (id : Nat) : Device := d.idleWriter.countFailure.onCw fun c => c.drop id

/-- R119: the part with a barrier given up by CW. -/
def partGivenUp (d : Device) (id : Nat) (x : Barrier) : Device := (d.unqueued id).commitFailed x.bay x.slot x.image

theorem commitComplete_boot (d : Device) (b : BayId) (k : SlotId) (n : Nat) : (d.commitComplete b k n).boot = d.boot :=
  (commitComplete_calm d b k n).boot

theorem partLanded_boot (d : Device) (id : Nat) (x : Barrier) (part : BarrierPart) : (d.partLanded id x part).boot = d.boot := by
  unfold partLanded partWritten
  cases part.next with
  | some q => rfl
  | none => exact commitComplete_boot ..

/-- From `d` to `e` the notes' directory, CW and the notices have changed, and no more. -/
def NotesOnly (d e : Device) : Prop :=
  { d with nu := e.nu, cw := e.cw, mp := { d.mp with notices := e.mp.notices } } = e

theorem NotesOnly.trans {d e f : Device} (h : d.NotesOnly e) (k : e.NotesOnly f) : d.NotesOnly f := by
  unfold NotesOnly at *
  rw [← k, ← h]

theorem onNu_notesOnly (d : Device) (f : Nu → Nu) : d.NotesOnly (d.onNu f) := rfl
theorem onCw_notesOnly (d : Device) (f : Cw → Cw) : d.NotesOnly (d.onCw f) := rfl
theorem raise_notesOnly (d : Device) (k : NoticeKind) (o : SourceObj) (n : Nat) (l : List (List Byte)) :
    d.NotesOnly (d.raise k o n l) := rfl

/-- R134: the part with bay `b`'s barrier given up with slot `k`, and queued again with slot `f`. -/
def requeued (d : Device) (b : BayId) (k f : SlotId) (i : NoteImage) : Device :=
  (((d.onNoteBay b fun n => { n with held := some i }).setSlot k .bad).setSlot f (.reserved b false)).headBarrier b f i

/-- R134: the part with bay `b`'s commit stalled on slot `k`. -/
def stalledOn (d : Device) (b : BayId) (k : SlotId) (i : NoteImage) : Device :=
  (((d.onNoteBay b fun n => { n with held := some i }).setSlot k (.reserved b true)).onNoteBay b
    fun n => { n with stall := some d.nu.stallSeq }).onNu fun u => { u with stallSeq := u.stallSeq + 1 }

theorem commitFailed_free {d : Device} {b : BayId} {k f : SlotId} {i : NoteImage} (h : d.freeSlot = some f) :
    d.commitFailed b k i = (d.requeued b k f i).rackNotice 16 ([octets 1 k.val, octets 1 b.val] ++
      directoryCounts (d.requeued b k f i)) := by
  have hfree : (d.onNoteBay b fun n => { n with held := some i }).freeSlot = some f := h
  unfold commitFailed
  dsimp only
  rw [hfree]
  rfl

theorem commitFailed_none {d : Device} {b : BayId} {k : SlotId} {i : NoteImage} (h : d.freeSlot = none) :
    d.commitFailed b k i = (d.stalledOn b k i).bayNotice b 16 [octets 1 k.val] := by
  have hfree : (d.onNoteBay b fun n => { n with held := some i }).freeSlot = none := h
  unfold commitFailed
  dsimp only
  rw [hfree]
  rfl

theorem requeued_notesOnly (d : Device) (b : BayId) (k f : SlotId) (i : NoteImage) : d.NotesOnly (d.requeued b k f i) :=
  (((onNu_notesOnly ..).trans (onNu_notesOnly ..)).trans (onNu_notesOnly ..)).trans (onCw_notesOnly ..)

theorem stalledOn_notesOnly (d : Device) (b : BayId) (k : SlotId) (i : NoteImage) : d.NotesOnly (d.stalledOn b k i) :=
  (((onNu_notesOnly ..).trans (onNu_notesOnly ..)).trans (onNu_notesOnly ..)).trans (onNu_notesOnly ..)

/-- R134: a slot that failed changes the notes' directory, the queue and the notices alone. -/
theorem commitFailed_notesOnly (d : Device) (b : BayId) (k : SlotId) (i : NoteImage) : d.NotesOnly (d.commitFailed b k i) := by
  cases h : d.freeSlot with
  | some f =>
    rw [commitFailed_free h]
    exact (requeued_notesOnly ..).trans (raise_notesOnly ..)
  | none =>
    rw [commitFailed_none h]
    exact (stalledOn_notesOnly ..).trans (raise_notesOnly ..)

theorem partGivenUp_notesOnly (d : Device) (id : Nat) (x : Barrier) : d.NotesOnly (d.partGivenUp id x) :=
  (((onCw_notesOnly ..).trans (onCw_notesOnly ..)).trans (onCw_notesOnly ..)).trans (commitFailed_notesOnly ..)

section Completion
variable {d : Device} {w : Write} {id : Nat} {part : BarrierPart} {e : QEntry} {x : Barrier} (hboot : d.boot = .ready)
  (hw : d.cw.write = some w) (hj : w.job = .barrier id part) (he : d.cw.entry id = some e) (hx : e.body = .barrier x)
include hboot hw hj he hx

theorem writeComplete_lands : (d.partLanded id x part).Served (d.writeComplete true) := by
  have hbody : (d.idleWriter.cw.entry id).map QEntry.body = some (.barrier x) := by
    rw [show d.idleWriter.cw.entry id = some e from he, Option.map_some, hx]
  have hgood : d.idleWriter.writeGood w.job = (d.partLanded id x part).heldTest := by
    simp only [writeGood, landed, hj, hbody]
    rfl
  have hheld := heldTest_served (d.partLanded id x part)
  have hboot' : (d.partLanded id x part).heldTest.boot = .ready := by
    rw [← hheld]
    exact (partLanded_boot ..).trans hboot
  unfold writeComplete
  rw [hw]
  dsimp only
  rw [if_pos rfl, show d.onCw (fun c => { c with write := none }) = d.idleWriter from rfl, hgood]
  exact hheld.trans (served_completion hboot')

theorem writeComplete_givesUp (ha : w.attempt ≠ 1) : (d.partGivenUp id x).Served (d.writeComplete false) := by
  have hbody : (d.idleWriter.cw.entry id).map QEntry.body = some (.barrier x) := by
    rw [show d.idleWriter.cw.entry id = some e from he, Option.map_some, hx]
  have hfailed : d.idleWriter.writeFailed w.job = d.partGivenUp id x := by
    simp only [writeFailed, hj, hbody]
    rfl
  have hboot' : (d.partGivenUp id x).boot = .ready := by
    rw [← partGivenUp_notesOnly]
    exact hboot
  unfold writeComplete
  rw [hw]
  dsimp only
  rw [if_neg nofun, if_neg ha, show d.onCw (fun c => { c with write := none }) = d.idleWriter from rfl, hfailed]
  exact served_completion hboot'

end Completion

end Device

/-- R114: a completion while the part runs is its event with what follows. -/
theorem exec_custodyWriteComplete {s : State} {good : Bool} (h : (s.dev.writeComplete good).boot = .ready) :
    exec (.custodyWriteComplete good) s = .next { s with dev := settle s.dev (s.dev.writeComplete good) } := by
  have hboot : (settle s.dev (s.dev.writeComplete good)).boot = .ready := by
    rw [← (settle_followed _ _).rest, ← supervise_rest]
    exact h
  show advance s (fun d => d.custodyEvent good) = _
  simp only [advance, Device.custodyEvent, Device.event]
  rw [drainTest_ready _ hboot]

/-! ### What follows a completion (R75, R83, R114, R123, R163) -/

namespace Device

/-- From `d` to `e` no slot, no order and no queue entry has gone back: the directory and the orders' numbers are kept, and
each entry of the queue was there or is new. -/
structure Proceeds (d e : Device) : Prop where
  dir      : e.nu.dir = d.nu.dir
  numbers  : e.orders.map Order.number = d.orders.map Order.number
  ids      : ∀ n ∈ e.cw.queue.map QEntry.id, n ∈ d.cw.queue.map QEntry.id ∨ d.cw.nextId ≤ n
  nextId   : d.cw.nextId ≤ e.cw.nextId
  failures : e.cw.failures = d.cw.failures

theorem Proceeds.refl (d : Device) : d.Proceeds d := ⟨rfl, rfl, fun _ h => .inl h, le_rfl, rfl⟩

theorem Proceeds.trans {d e f : Device} (h : d.Proceeds e) (k : e.Proceeds f) : d.Proceeds f where
  dir := k.dir.trans h.dir
  numbers := k.numbers.trans h.numbers
  ids n hn := (k.ids n hn).elim (h.ids n) fun hnew => .inr (h.nextId.trans hnew)
  nextId := h.nextId.trans k.nextId
  failures := k.failures.trans h.failures

theorem Proceeds.of_cw {d e : Device} (hn : e.nu = d.nu) (ho : e.orders.map Order.number = d.orders.map Order.number)
    (hc : e.cw = d.cw) : d.Proceeds e := ⟨by rw [hn], ho, fun _ h => .inl (hc ▸ h), by rw [hc], by rw [hc]⟩

/-- A change of CW that leaves its entries' identifiers. -/
theorem Proceeds.of_ids {d e : Device} (h : { d with cw := e.cw, meters := e.meters, mp := e.mp } = e)
    (hq : e.cw.queue.map QEntry.id = d.cw.queue.map QEntry.id) (hid : e.cw.nextId = d.cw.nextId)
    (hf : e.cw.failures = d.cw.failures) : d.Proceeds e := ⟨by rw [← h], by rw [← h], fun n hn => .inl (hq ▸ hn), hid.ge, hf⟩

theorem Proceeds.of_served {d e : Device} (h : d.Served e) : d.Proceeds e :=
  ⟨by rw [← h], by rw [← h], fun n hn => .inl (by rw [← h] at hn; exact hn), by rw [← h], by rw [← h]⟩

/-! ### The bays' tests -/

/-- The notes' directory and the orders are the same. -/
def SamePapers (d e : Device) : Prop := e.nu = d.nu ∧ e.orders = d.orders

theorem SamePapers.trans {d e f : Device} (h : d.SamePapers e) (k : e.SamePapers f) : d.SamePapers f :=
  ⟨k.1.trans h.1, k.2.trans h.2⟩

theorem loadTest_papers (d : Device) (b : BayId) : d.SamePapers (d.loadTest b) := by
  cases ho : d.orderOf b with
  | none => rw [loadTest, ho]; exact ⟨rfl, rfl⟩
  | some o =>
    obtain ⟨hdone, hnot⟩ := loadTest_eq ho
    by_cases hl : d.loadDone b o
    · rw [hdone hl, closeLoad_of_none hl.2.2]
      exact ⟨rfl, rfl⟩
    · rw [hnot hl]
      exact ⟨rfl, rfl⟩

theorem enterHeld_papers (d : Device) (b : BayId) (p : BeforeHold) : d.SamePapers (d.enterHeld b p) := ⟨rfl, rfl⟩

theorem clearCause_papers (d : Device) (b : BayId) (c : TripCause) : d.SamePapers (d.clearCause b c) := by
  unfold clearCause
  dsimp only
  split
  · exact ⟨rfl, rfl⟩
  have hcleared : d.SamePapers ((d.onBay b fun x => { x with causes := x.causes.put c false }).bayNotice b 10 []) := ⟨rfl, rfl⟩
  generalize (d.onBay b fun x => { x with causes := x.causes.put c false }).bayNotice b 10 [] = e at hcleared ⊢
  split
  · have hstopped : d.SamePapers (e.onBay b fun x => { x with resumeTimer := none }) := hcleared.trans ⟨rfl, rfl⟩
    split
    · exact hstopped.trans (enterHeld_papers ..)
    · have hback : d.SamePapers (((e.onBay b fun x => { x with resumeTimer := none }).enterState b .loading).bayNotice b 1 []) :=
        hstopped.trans ⟨rfl, rfl⟩
      exact hback.trans (loadTest_papers ..)
  · exact hcleared

/-- R75, R80: no test but that of a closing touches the directory or an order. -/
theorem valveTest_grantHold_papers (d : Device) (b : BayId) : d.SamePapers ((d.valveTest b).grantHold b) := by
  have hvalve : d.SamePapers (d.valveTest b) := by
    unfold valveTest
    split
    · exact clearCause_papers ..
    · exact ⟨rfl, rfl⟩
  refine hvalve.trans ?_
  generalize d.valveTest b = e
  unfold grantHold
  split <;> exact ⟨rfl, rfl⟩

theorem commitNote_proceeds (d : Device) (b : BayId) : d.Proceeds (d.commitNote b) := by
  unfold commitNote
  split
  · refine ⟨rfl, rfl, fun n hn => ?_, Nat.le_succ _, rfl⟩
    rw [show (Cw.queue _).map QEntry.id = d.cw.queue.map QEntry.id ++ [d.cw.nextId] from List.map_append, List.mem_append] at hn
    exact hn.imp id fun h => (List.mem_singleton.mp h).ge
  · exact .refl d

theorem closingTest_proceeds (d : Device) (b : BayId) : d.Proceeds (d.closingTest b) := by
  by_cases h : (d.bay b).state = .closing ∧ d.noBatch b = true ∧ d.outstandingShots b = 0
  · have hready : d.Proceeds (d.noteReady b) := .of_cw (noteReady_nu d b) (noteReady_numbers d b) (noteReady_cw d b)
    have hmoves : ∀ x : Device, x.Proceeds ((x.enterState b .noteCommit).bayNotice b 1 []) := fun _ => .of_cw rfl rfl rfl
    rw [closingTest_done h.1 h.2.1 h.2.2]
    exact (hready.trans (commitNote_proceeds _ b)).trans (hmoves _)
  · rw [show d.closingTest b = d from if_neg h]
    exact .refl d

theorem bayTests_proceeds (d : Device) (b : BayId) : d.Proceeds (d.bayTests b) := by
  obtain ⟨hnu, horders⟩ := valveTest_grantHold_papers d b
  have hcw : ((d.valveTest b).grantHold b).cw = d.cw := ((valveTest_calm d b).trans (grantHold_calm ..)).cw
  exact (Proceeds.of_cw hnu (by rw [horders]) hcw).trans (closingTest_proceeds ..)

theorem closingTest_noteBay_other (d : Device) {b y : BayId} (hy : y ≠ b) : (d.closingTest b).noteBay y = d.noteBay y := by
  by_cases h : (d.bay b).state = .closing ∧ d.noBatch b = true ∧ d.outstandingShots b = 0
  · have hready : (d.noteReady b).noteBay y = d.noteBay y := by rw [noteBay, noteReady_nu]; rfl
    rw [closingTest_done h.1 h.2.1 h.2.2, ← hready]
    generalize d.noteReady b = e
    show (e.commitNote b).noteBay y = _
    unfold commitNote
    split
    next o k _ _ => exact onNoteBay_noteBay_other e b (fun n => { n with held := some (assembleImage e b o) }) y hy
    · rfl
  · rw [show d.closingTest b = d from if_neg h]

/-- R132: a bay's note record is for its own closing alone. -/
theorem bayTests_noteBay {d : Device} {b y : BayId} (h : y = b → (d.bay b).state ∉ [BayState.tripped, .holding, .closing]) :
    (d.bayTests b).noteBay y = d.noteBay y := by
  have hpapers : ((d.valveTest b).grantHold b).noteBay y = d.noteBay y := by
    rw [noteBay, (valveTest_grantHold_papers d b).1]
    rfl
  rw [bayTests]
  by_cases hy : y = b
  · have hplain := h hy
    obtain ⟨s, hs⟩ := valveTest_bay (d := d) (b := b) fun k => hplain (by rw [k]; decide)
    have hstate : ((d.valveTest b).bay b).state = (d.bay b).state := by rw [hs]
    have hgrant : (d.valveTest b).grantHold b = d.valveTest b := grantHold_still (.inl fun k => hplain (by rw [← hstate, k]; decide))
    rw [hgrant] at hpapers ⊢
    rw [closingTest_still (.inl fun k => hplain (by rw [← hstate, k]; decide)), hpapers]
  · rw [closingTest_noteBay_other _ hy, hpapers]

theorem foldl_bayTests_noteBay (l : List BayId) (d : Device) (b : BayId) (h : (d.bay b).state ∉ [BayState.tripped, .holding, .closing]) :
    (l.foldl bayTests d).noteBay b = d.noteBay b := by
  induction l generalizing d with
  | nil => rfl
  | cons y t ih =>
    have hstate : ((d.bayTests y).bay b).state = (d.bay b).state := by
      by_cases hy : b = y
      · subst hy
        obtain ⟨s, hs⟩ := bayTests_plain (d := d) (b := b) (fun k => h (by rw [k]; decide)) (fun k => h (by rw [k]; decide))
          (fun k => h (by rw [k]; decide))
        rw [hs]
      · rw [(bayTests_ofBay d y).others b hy]
    rw [List.foldl_cons, ih (d.bayTests y) (by rw [hstate]; exact h), bayTests_noteBay fun hy => by rw [← hy]; exact h]

/-! ### CW's next work (R114, R116) -/

theorem recoveryEntries_ids (d : Device) (l : List ArmId) (n : Nat) : ∀ e ∈ recoveryEntries d n l, n ≤ e.id := by
  induction l generalizing n with
  | nil => exact fun e he => nomatch he
  | cons a t ih =>
    intro e he
    rcases List.mem_cons.mp he with rfl | he
    · exact le_rfl
    · exact (Nat.le_succ n).trans (ih (n + 1) e he)

theorem lookAtBarrier_proceeds {d : Device} {e : QEntry} (x : Barrier) {rest : List QEntry} (hq : d.cw.queue = e :: rest) :
    d.Proceeds (d.lookAtBarrier e x rest) := by
  have hframe := lookAtBarrier_frame d e x rest
  cases hr : d.recoveryArms x.image with
  | cons a l =>
    obtain ⟨hcw, -⟩ := lookAtBarrier_recovers e rest hr
    refine ⟨by rw [← hframe], by rw [← hframe], fun n hn => ?_, by rw [hcw]; exact (Nat.le_add_right ..).trans (Nat.le_add_right ..),
      by rw [hcw]⟩
    rw [hcw] at hn
    rw [hq]
    simp only [List.map_cons, List.map_append, List.mem_cons, List.mem_append, List.mem_map] at hn ⊢
    rcases hn with rfl | ⟨y, hy, rfl⟩ | rfl | ⟨y, hy, rfl⟩
    · exact .inr le_rfl
    · exact .inr ((Nat.le_succ _).trans (recoveryEntries_ids d l _ y hy))
    · exact .inl (.inl rfl)
    · exact .inl (.inr ⟨y, hy, rfl⟩)
  | nil =>
    by_cases hn : d.nextNumber < 4294967296
    · have hcw := lookAtBarrier_starts e rest hr hn
      exact .of_ids (by rw [← hframe]) (by rw [hcw, hq]; rfl) (by rw [hcw]) (by rw [hcw])
    · have hcw := lookAtBarrier_exhausted e rest hr (Nat.not_lt.mp hn)
      exact .of_ids (by rw [← hframe]) (by rw [hcw]) (by rw [hcw]) (by rw [hcw])

theorem cwStart_proceeds (d : Device) : d.Proceeds d.cwStart := by
  unfold cwStart
  split
  · exact .refl d
  split
  · exact .of_ids rfl rfl rfl rfl
  split
  · exact .refl d
  next e rest hq =>
    split
    · exact .of_ids rfl (by rw [hq]; rfl) rfl rfl
    · split
      · exact .of_ids rfl rfl rfl rfl
      · split
        · split
          · exact .refl d
          · exact lookAtBarrier_proceeds _ hq
        · exact lookAtBarrier_proceeds _ hq

theorem cwPark_proceeds (d : Device) : d.Proceeds d.cwPark := by
  unfold cwPark
  split
  · have hpark : d.Proceeds ((d.onCw fun c => { c with mode := .parked }).rackNotice 13 (luFields d)) := .of_ids rfl rfl rfl rfl
    refine hpark.trans (.of_served ((serveWaiting_served ..).trans (resumeRead_served _)))
  · exact .refl d

end Device

theorem settle_proceeds (d e : Device) : e.Proceeds (settle d e) := by
  have hsupervise : e.Proceeds (supervise d e) := by
    rw [← supervise_rest]
    exact .of_cw rfl rfl rfl
  have htests : ∀ (l : List BayId) (f : Device), f.Proceeds (l.foldl Device.bayTests f) := fun l => by
    induction l with
    | nil => exact Device.Proceeds.refl
    | cons y t ih => exact fun f => (f.bayTests_proceeds y).trans (ih _)
  have hdrive : ∀ f : Device, f.Proceeds f.driveOutputs := fun f => by
    rw [← f.driveOutputs_frame]
    exact .of_cw rfl rfl rfl
  exact (((hsupervise.trans (htests ..)).trans (hdrive _)).trans (Device.cwStart_proceeds _)).trans (Device.cwPark_proceeds _)

theorem settle_noteBay {d e : Device} {b : BayId} (h : (e.bay b).state ∉ [BayState.tripped, .holding, .closing]) :
    (settle d e).noteBay b = e.noteBay b := by
  have hsupervise : (supervise d e).noteBay b = e.noteBay b := by rw [← supervise_rest]; rfl
  have htests := Device.foldl_bayTests_noteBay allBays (supervise d e) b (by rw [supervise_bay]; exact h)
  rw [settle_eq_windUp, ← hsupervise, ← htests]
  generalize allBays.foldl Device.bayTests (supervise d e) = f
  rw [← Device.windUp_rest]
  rfl

/-! ### The mark written: the commit is complete (R84, R108, R133) -/

namespace Device

theorem removeOrder_leaves (d : Device) (b : BayId) : (d.removeOrder b).bays = d.bays ∧ (d.removeOrder b).nu = d.nu ∧
    (d.removeOrder b).custody = d.custody ∧ (d.removeOrder b).cw = d.cw := by
  unfold removeOrder
  split <;> exact ⟨rfl, rfl, rfl, rfl⟩

theorem removeOrder_numbers {d : Device} {b : BayId} {m : Nat} (h : (d.bay b).order = some m) :
    m ∉ (d.removeOrder b).orders.map Order.number := by
  unfold removeOrder
  rw [h]
  intro hm
  obtain ⟨o, ho, hn⟩ := List.mem_map.mp hm
  obtain ⟨-, hne⟩ := List.mem_filter.mp ho
  exact (bne_iff_ne.mp hne) hn

theorem orderNumbered_eq_none {d : Device} {m : Nat} (h : m ∉ d.orders.map Order.number) : d.orderNumbered m = none :=
  List.find?_eq_none.mpr fun o ho hn => h (List.mem_map.mpr ⟨o, ho, beq_iff_eq.mp hn⟩)

/-- R133: the part with a note's slot and number taken down, before the bay moves on. -/
def noted (d : Device) (b : BayId) (k : SlotId) (n : Nat) : Device :=
  (d.setSlot k (.retained n false)).onNoteBay b fun x => { x with held := none, last := n }

/-- R84: the part with the bay's order removed and the bay ready for the next. -/
def readied (d : Device) (b : BayId) : Device := ((d.removeOrder b).enterState b .idle).onBay b Bay.committed

theorem readied_bay (d : Device) (b : BayId) : ∃ m, (d.readied b).bay b = { d.bay b with
    state := .idle, message := m, order := none, ended := [], trips := 0, lockout := false } := by
  have hkept : (d.removeOrder b).bay b = d.bay b := by rw [bay, (removeOrder_leaves d b).1]; rfl
  rw [readied, onBay_bay_same, enterState, onBay_bay_same, hkept]
  split
  next h => exact ⟨(d.bay b).message, by rw [← h]; rfl⟩
  next => exact ⟨none, rfl⟩

/-- R84, R133: a commit completes: the bay is IDLE, or HELD when a hold source is active. -/
theorem commitComplete_eq (d : Device) (b : BayId) (k : SlotId) (n : Nat) : ∃ l : List (List Byte), d.commitComplete b k n =
    if (d.bay b).holding then (((d.noted b k n).readied b).raise .note (.bay b) 15 l).enterHeld b .idle
    else ((d.noted b k n).readied b).raise .note (.bay b) 15 l := by
  refine ⟨bayFields ((d.noted b k n).readied b) b ++ commitFigures n k (d.noteBay b).held, ?_⟩
  have hholding : (((d.noted b k n).readied b).bay b).holding = (d.bay b).holding := by
    obtain ⟨m, hm⟩ := (d.noted b k n).readied_bay b
    rw [hm]
    rfl
  rw [← hholding]
  rfl

theorem readied_leaves (d : Device) (b : BayId) : (d.readied b).nu = d.nu ∧ (d.readied b).custody = d.custody ∧
    (d.readied b).cw = d.cw ∧ (d.readied b).orders = (d.removeOrder b).orders := by
  obtain ⟨-, hnu, hcustody, hcw⟩ := d.removeOrder_leaves b
  rw [readied, ← hnu, ← hcustody, ← hcw]
  generalize d.removeOrder b = e
  exact ⟨rfl, rfl, rfl, rfl⟩

theorem noted_custody (d : Device) (b : BayId) (k : SlotId) (n : Nat) : (d.noted b k n).custody = d.custody := rfl
theorem noted_cw (d : Device) (b : BayId) (k : SlotId) (n : Nat) : (d.noted b k n).cw = d.cw := rfl

theorem commitComplete_leaves (d : Device) (b : BayId) (k : SlotId) (n : Nat) : (d.commitComplete b k n).nu = (d.noted b k n).nu ∧
    (d.commitComplete b k n).custody = d.custody ∧ (d.commitComplete b k n).cw = d.cw ∧
    (d.commitComplete b k n).orders = (d.removeOrder b).orders := by
  obtain ⟨hnu, hcustody, hcw, horders⟩ := (d.noted b k n).readied_leaves b
  have hremoved : ((d.noted b k n).removeOrder b).orders = (d.removeOrder b).orders := by
    unfold removeOrder
    rw [show (d.noted b k n).bay b = d.bay b from rfl]
    split <;> rfl
  rw [hremoved] at horders
  rw [noted_custody] at hcustody
  rw [noted_cw] at hcw
  obtain ⟨l, hl⟩ := d.commitComplete_eq b k n
  rw [hl]
  generalize (d.noted b k n).readied b = e at hnu hcustody hcw horders ⊢
  have hreported : ∀ f : Device, (f = (e.raise .note (.bay b) 15 l).enterHeld b .idle ∨ f = e.raise .note (.bay b) 15 l) →
      f.nu = e.nu ∧ f.custody = e.custody ∧ f.cw = e.cw ∧ f.orders = e.orders := by
    have hraised : ∀ x : Device, (x.enterHeld b .idle).nu = x.nu ∧ (x.enterHeld b .idle).custody = x.custody ∧
        (x.enterHeld b .idle).cw = x.cw ∧ (x.enterHeld b .idle).orders = x.orders := fun _ => ⟨rfl, rfl, rfl, rfl⟩
    rintro f (rfl | rfl)
    · exact hraised _
    · exact ⟨rfl, rfl, rfl, rfl⟩
  obtain ⟨fnu, fcustody, fcw, forders⟩ := hreported _ (ite_eq_or_eq ((d.bay b).holding = true) _ _)
  rw [fnu, fcustody, fcw, forders]
  exact ⟨hnu, hcustody, hcw, horders⟩

theorem commitComplete_bay (d : Device) (b : BayId) (k : SlotId) (n : Nat) :
    ((d.commitComplete b k n).bay b).state = (if (d.bay b).holding then .held else .idle) ∧
    ((d.commitComplete b k n).bay b).order = none ∧ ((d.commitComplete b k n).bay b).ended = [] ∧
    ((d.commitComplete b k n).bay b).lockout = false := by
  obtain ⟨m, hm⟩ := (d.noted b k n).readied_bay b
  obtain ⟨l, hl⟩ := d.commitComplete_eq b k n
  rw [hl]
  generalize (d.noted b k n).readied b = e at hm
  have hraised : (e.raise .note (.bay b) 15 l).bay b = e.bay b := rfl
  split
  · rw [enterHeld, bayNotice_bay, onBay_bay_same]
    dsimp only
    refine ⟨enterState_state .., ?_⟩
    rw [enterState, onBay_bay_same, hraised, hm, if_neg nofun]
    exact ⟨rfl, rfl, rfl⟩
  · rw [hraised, hm]
    exact ⟨rfl, rfl, rfl, rfl⟩

/-- R84, R133: what the mark's completion leaves. -/
theorem partLanded_mark (d : Device) (id : Nat) (x : Barrier) :
    (d.partLanded id x .mark).custody = d.custody.writePart x .mark ∧
    (d.partLanded id x .mark).nu = (d.noted x.bay x.slot (x.number.getD 0)).nu ∧
    (d.partLanded id x .mark).cw = { d.idleWriter.cw.drop id with heldNext := none } ∧
    (d.partLanded id x .mark).orders = (d.removeOrder x.bay).orders ∧
    ((d.partLanded id x .mark).bay x.bay).state = (if (d.bay x.bay).holding then .held else .idle) ∧
    ((d.partLanded id x .mark).bay x.bay).order = none ∧ ((d.partLanded id x .mark).bay x.bay).ended = [] ∧
    ((d.partLanded id x .mark).bay x.bay).lockout = false := by
  have hparts : ∃ f : Device, d.partLanded id x .mark = f.commitComplete x.bay x.slot (x.number.getD 0) ∧
      f.custody = d.custody.writePart x .mark ∧ f.nu = d.nu ∧ f.cw = { d.idleWriter.cw.drop id with heldNext := none } ∧
      f.orders = d.orders ∧ f.bays = d.bays := ⟨_, rfl, rfl, rfl, rfl, rfl, rfl⟩
  obtain ⟨f, hf, hcustody, hnu, hcw, horders, hbays⟩ := hparts
  have hbay : f.bay x.bay = d.bay x.bay := by rw [bay, hbays]; rfl
  obtain ⟨knu, kcustody, kcw, korders⟩ := f.commitComplete_leaves x.bay x.slot (x.number.getD 0)
  have hstates := f.commitComplete_bay x.bay x.slot (x.number.getD 0)
  rw [hbay] at hstates
  rw [hf]
  refine ⟨kcustody.trans hcustody, knu.trans ?_, kcw.trans hcw, korders.trans ?_, hstates⟩
  · simp only [noted, onNoteBay_nu, setSlot, onNu, noteBay, hnu]
  · simp only [removeOrder, hbay, onOrders, horders]
    split
    · rfl
    · exact horders

end Device

/-- R118: a mark record as a mark write leaves it, with the next note number. -/
theorem Custody.writePart_mark (m : Custody) {x : Barrier} {n : Nat} (hn : x.number = some n) :
    (Bank.read (m.writePart x .mark).slots x.slot).commit = some n ∧ (Bank.read (m.writePart x .mark).slots x.slot).release = false ∧
    (Bank.read (m.writePart x .mark).slots x.slot).markOk = true ∧
    (Bank.read (m.writePart x .mark).slots x.slot).body = (Bank.read m.slots x.slot).body ∧
    (m.writePart x .mark).next = ⟨n + 1, nextNumberCheck (n + 1)⟩ ∧ (m.writePart x .mark).totals = m.totals ∧
    ∀ k, k ≠ x.slot → Bank.read (m.writePart x .mark).slots k = Bank.read m.slots k := by
  have hnumber : x.number.getD 0 = n := by rw [hn]; rfl
  have hslot : Bank.read (m.writePart x .mark).slots x.slot =
      { Bank.read m.slots x.slot with commit := some n, release := false, check := markCheck (some n) false } := by
    rw [← hnumber]
    exact Bank.read_write_same ..
  rw [hslot]
  refine ⟨rfl, rfl, beq_self_eq_true _, rfl, ?_, rfl, fun k hk => Bank.read_write_other _ _ _ _ hk⟩
  show (⟨x.number.getD 0 + 1, _⟩ : NextRecord) = _
  rw [hnumber]

/-- R84, R108, R118, R133: the mark of a note's barrier written good. -/
theorem markWritten {s : State} {w : Write} {e : QEntry} {id n : Nat} {x : Barrier} (hboot : s.dev.boot = .ready)
    (hw : s.dev.cw.write = some w) (hj : w.job = .barrier id .mark) (he : s.dev.cw.entry id = some e) (hx : e.body = .barrier x)
    (hn : x.number = some n) : ∃ u : State, exec (.custodyWriteComplete true) s = .next u ∧ u.pending = s.pending ∧
      u.dev.custody = s.dev.custody.writePart x .mark ∧
      u.dev.slot x.slot = .retained n false ∧ u.dev.noteBay x.bay = ⟨none, (s.dev.noteBay x.bay).stall, n⟩ ∧
      (u.dev.bay x.bay).state = (if (s.dev.bay x.bay).holding then .held else .idle) ∧
      (u.dev.bay x.bay).order = none ∧ (u.dev.bay x.bay).ended = [] ∧ (u.dev.bay x.bay).lockout = false ∧
      (∀ m, (s.dev.bay x.bay).order = some m → u.dev.orderNumbered m = none) ∧
      (∀ y ∈ u.dev.cw.queue, y.id ≠ id ∨ s.dev.cw.nextId ≤ y.id) := by
  have hserved := Device.writeComplete_lands hboot hw hj he hx
  obtain ⟨hcustody, hnu, hcw, horders, hstate, horder, hended, hlockout⟩ := s.dev.partLanded_mark id x
  have hready := s.dev.partLanded_boot id x .mark
  rw [show x.number.getD 0 = n by rw [hn]; rfl] at hnu
  generalize s.dev.partLanded id x .mark = t at hserved hcustody hnu hcw horders hstate horder hended hlockout hready
  have hbay : (s.dev.writeComplete true).bay x.bay = t.bay x.bay := by rw [← hserved]; rfl
  obtain ⟨u, hu, hpending, hdev⟩ := next_dev (exec_custodyWriteComplete (s := s) (good := true)
    (by rw [← hserved]; exact hready.trans hboot))
  refine ⟨u, hu, hpending, ?_⟩
  rw [hdev]
  have hplain : ((s.dev.writeComplete true).bay x.bay).state ∉ [BayState.tripped, .holding, .closing] := by
    rw [hbay, hstate]
    split <;> decide
  have hproceeds := (Device.Proceeds.of_served hserved).trans (settle_proceeds s.dev (s.dev.writeComplete true))
  obtain ⟨c, hfollow⟩ := settle_alike_plain (d := s.dev) (fun k => hplain (by rw [k]; decide)) (fun k => hplain (by rw [k]; decide))
    (fun k => hplain (by rw [k]; decide))
  rw [hbay] at hfollow
  refine ⟨?_, ?_, ?_, ?_, ?_, ?_, ?_, fun m hm => ?_, fun y hy => ?_⟩
  · rw [settle_custody, ← hserved]
    exact hcustody
  · rw [Device.slot, hproceeds.dir, hnu]
    exact Bank.read_write_same ..
  · rw [settle_noteBay hplain, ← hserved]
    show Bank.read t.nu.bays x.bay = _
    rw [hnu]
    exact Bank.read_write_same ..
  · rw [hfollow]
    exact hstate
  · rw [hfollow]
    exact horder
  · rw [hfollow]
    exact hended
  · rw [hfollow]
    exact hlockout
  · refine Device.orderNumbered_eq_none ?_
    rw [hproceeds.numbers, horders]
    exact Device.removeOrder_numbers hm
  · have hnext : t.cw.nextId = s.dev.cw.nextId := by rw [hcw]; rfl
    refine (hproceeds.ids y.id (List.mem_map_of_mem hy)).imp (fun hold => ?_) fun hnew => hnext ▸ hnew
    rw [hcw] at hold
    obtain ⟨z, hz, hid⟩ := List.mem_map.mp hold
    obtain ⟨-, hne⟩ := List.mem_filter.mp hz
    rw [← hid]
    exact bne_iff_ne.mp hne

/-! ### The body or its check written (R118) -/

namespace Device

/-- R118: an entry of the queue when a barrier of identifier `id` goes on to part `p`. -/
def partSet (id : Nat) (p : BarrierPart) (e : QEntry) : QEntry :=
  if e.id == id then
    match e.body with
    | .barrier b => { e with body := .barrier { b with part := p } }
    | .post _ => e
  else e

theorem partSet_id (id : Nat) (p : BarrierPart) (e : QEntry) : (partSet id p e).id = e.id := by
  unfold partSet
  split
  · split <;> rfl
  · rfl

theorem partSet_barrier {id : Nat} {e : QEntry} {x : Barrier} (h : e.id = id) (hx : e.body = .barrier x) (p : BarrierPart) :
    partSet id p e = { e with body := .barrier { x with part := p } } := by
  rw [partSet, if_pos (beq_iff_eq.mpr h), hx]

theorem setPart_queue (c : Cw) (id : Nat) (p : BarrierPart) : (c.setPart id p).queue = c.queue.map (partSet id p) := rfl

theorem setPart_entry {c : Cw} {id : Nat} {e : QEntry} {x : Barrier} (h : c.entry id = some e) (hx : e.body = .barrier x)
    (p : BarrierPart) : (c.setPart id p).entry id = some { e with body := .barrier { x with part := p } } := by
  obtain ⟨-, hid⟩ := entry_mem h
  have hsame : (fun e => e.id == id) ∘ partSet id p = fun e : QEntry => e.id == id := funext fun y => by
    rw [Function.comp_apply, partSet_id]
  rw [Cw.entry, setPart_queue, List.find?_map, hsame, ← Cw.entry, h, Option.map_some, partSet_barrier hid hx]

theorem entry_cons {q : List QEntry} {c : Cw} {id : Nat} {y : QEntry} (h : c.queue = y :: q) :
    c.entry id = if y.id = id then some y else q.find? fun e => e.id == id := by
  rw [Cw.entry, h, List.find?_cons]
  by_cases hy : y.id = id
  · rw [if_pos hy, beq_iff_eq.mpr hy]
  · rw [if_neg hy, beq_false_of_ne hy]

theorem lookAtBarrier_entry {d : Device} {y e : QEntry} (b : Barrier) {rest : List QEntry} {id : Nat} (hq : d.cw.queue = y :: rest)
    (hy : y.started = false) (h : d.cw.entry id = some e) (hs : e.started = true) (hid : id < d.cw.nextId) :
    (d.lookAtBarrier y b rest).cw.entry id = some e := by
  have hne : y.id ≠ id := fun k => by
    rw [entry_cons hq, if_pos k] at h
    rw [Option.some.inj h, hs] at hy
    cases hy
  cases hr : d.recoveryArms b.image with
  | cons a l =>
    have hnew : (recoveryEntries d (d.cw.nextId + 1) l).find? (fun z => z.id == id) = none := List.find?_eq_none.mpr fun z hz k => by
      have hz' := recoveryEntries_ids d l _ z hz
      rw [beq_iff_eq.mp k] at hz'
      omega
    rw [(lookAtBarrier_recovers y rest hr).1, entry_cons rfl, if_neg (Nat.ne_of_gt hid), List.find?_append, hnew, Option.none_or, ← hq]
    exact h
  | nil =>
    by_cases hn : d.nextNumber < 4294967296
    · rw [entry_cons hq, if_neg hne] at h
      rw [lookAtBarrier_starts y rest hr hn, entry_cons rfl, if_neg hne]
      exact h
    · rw [lookAtBarrier_exhausted y rest hr (Nat.not_lt.mp hn)]
      exact h

/-- R114: work that CW starts leaves a barrier that has started as it is. -/
theorem cwStart_entry {d : Device} {e : QEntry} {id : Nat} {x : Barrier} (h : d.cw.entry id = some e) (hs : e.started = true)
    (hx : e.body = .barrier x) (hid : id < d.cw.nextId) : d.cwStart.cw.entry id = some e := by
  unfold cwStart
  split
  · exact h
  split
  · exact h
  split
  · exact h
  next y rest hq =>
    split
    next p hp =>
      have hne : y.id ≠ id := fun k => by
        rw [entry_cons hq, if_pos k] at h
        rw [Option.some.inj h, hx] at hp
        cases hp
      rw [entry_cons hq, if_neg hne] at h
      show Cw.entry _ id = _
      rw [entry_cons rfl, if_neg hne]
      exact h
    · split
      · exact h
      next hstarted =>
        have hnot : y.started = false := (Bool.not_eq_true _).mp hstarted
        split
        · split
          · exact h
          · exact lookAtBarrier_entry _ hq hnot h hs hid
        · exact lookAtBarrier_entry _ hq hnot h hs hid

/-- R118: the next part of a barrier at the head is written next. -/
theorem cwStart_continues {d : Device} {e : QEntry} {x : Barrier} (hw : d.cw.write = none) (hm : d.cwMayWork = true)
    (hr : d.cw.releases = []) (hq : d.cw.queue.head? = some e) (hs : e.started = true) (hx : e.body = .barrier x) :
    d.cwStart.cw.write = some ⟨.barrier e.id x.part, 1⟩ := by
  obtain ⟨rest, hq⟩ := List.head?_eq_some_iff.mp hq
  unfold cwStart
  simp only [hw, hm, hr, hq, hs, hx, Option.isSome_none, Bool.not_true, Bool.or_self, Bool.false_eq_true, if_false, if_true]
  rfl

end Device

namespace Device

/-- R118: the part with a barrier's body or its check landed. -/
theorem partLanded_next (d : Device) (id : Nat) (x : Barrier) {part q : BarrierPart} (h : part.next = some q) :
    d.partLanded id x part = (d.idleWriter.onCustody fun _ => d.custody.writePart x part).onCw fun c => c.setPart id q := by
  rw [partLanded, partWritten, h]

/-- Custody memory, CW and the ports changed: only CW may have work to do. -/
theorem SameButCw.of_rest {d e : Device} (h : { d with custody := e.custody, nu := e.nu, cw := e.cw, mp := e.mp } = e) : d.SameButCw e := by
  have hbay : ∀ b, e.bay b = d.bay b := fun b => by rw [← h]; rfl
  have harm : ∀ a, e.arm a = d.arm a := fun a => by rw [← h]; rfl
  refine ⟨by rw [← h], by rw [← h], by rw [← h], by rw [← h], fun b => ?_, fun a => ?_⟩
  · rw [hbay]
    exact ⟨rfl, rfl, rfl, rfl⟩
  · rw [harm]
    exact ⟨rfl, rfl, rfl⟩

end Device

/-- An event of which CW alone has work to do is wound up at once. -/
theorem settle_windsUp {d e : Device} (hd : d.settled = true) (h : d.SameButCw e) : settle d e = e.windUp := by
  obtain ⟨-, hlines, -⟩ := (settled_iff d).mp hd
  rw [settle_sameButCw hd h, Device.windUp,
    driveOutputs_rest e fun l => (Device.lineRests_congr (fun b => (h.bays b).1) h.lu l).trans (hlines l)]

/-- What the winding up leaves of a part with a barrier that has started. -/
theorem Device.windUp_entry {d : Device} {e : QEntry} {id : Nat} {x : Barrier} (h : d.cw.entry id = some e) (hs : e.started = true)
    (hx : e.body = .barrier x) (hid : id < d.cw.nextId) : d.windUp.cw.entry id = some e ∧
    (d.boot = .ready → d.cw.write = none → d.cw.mode ≠ .parked → d.cw.releases = [] → d.cw.queue.head? = some e →
      d.windUp.cw.write = some ⟨.barrier e.id x.part, 1⟩) := by
  have hcw : d.driveOutputs.cw = d.cw := by rw [← d.driveOutputs_frame]
  have hboot : d.driveOutputs.boot = d.boot := by rw [← d.driveOutputs_frame]
  have hstart : d.driveOutputs.cwStart.cw.entry id = some e := cwStart_entry (by rw [hcw]; exact h) hs hx (by rw [hcw]; exact hid)
  rw [windUp, cwPark_busy (List.ne_nil_of_mem (entry_mem hstart).1)]
  refine ⟨hstart, fun hb hw hm hr hq => cwStart_continues (by rw [hcw]; exact hw) ?_ (by rw [hcw]; exact hr)
    (by rw [hcw]; exact hq) hs hx⟩
  rw [cwMayWork, hboot, hb, hcw]
  exact bne_iff_ne.mpr hm

/-- R118: a body or its check written good. -/
theorem partWritten_continues {s : State} {e : QEntry} {id k : Nat} {x : Barrier} {part q : BarrierPart} (hboot : s.dev.boot = .ready)
    (hd : s.dev.settled = true) (hsound : s.dev.queueSound) (hw : s.dev.cw.write = some ⟨.barrier id part, k⟩)
    (he : s.dev.cw.entry id = some e) (hx : e.body = .barrier x) (hs : e.started = true) (hq : part.next = some q) :
    ∃ u : State, exec (.custodyWriteComplete true) s = .next u ∧ u.pending = s.pending ∧
      u.dev.custody = s.dev.custody.writePart x part ∧ u.dev.cw.entry id = some { e with body := .barrier { x with part := q } } ∧
      (s.dev.cw.mode ≠ .parked → s.dev.cw.releases = [] → s.dev.cw.queue.head? = some e →
        u.dev.cw.write = some ⟨.barrier id q, 1⟩) ∧
      u.dev.bays = s.dev.bays ∧ u.dev.nu = s.dev.nu ∧ u.dev.orders = s.dev.orders := by
  obtain ⟨hmem, hid⟩ := Device.entry_mem he
  obtain ⟨-, -, hbelow⟩ := hsound
  have hserved := Device.writeComplete_lands hboot hw rfl he hx
  rw [Device.partLanded_next s.dev id x hq] at hserved
  have hentry : (s.dev.writeComplete true).cw.entry id = some { e with body := .barrier { x with part := q } } := by
    rw [← hserved]
    exact Device.setPart_entry (c := s.dev.idleWriter.cw) he hx q
  have hnext : id < (s.dev.writeComplete true).cw.nextId := by
    rw [← hserved, ← hid]
    exact hbelow e hmem
  have hrest : { s.dev with
      custody := s.dev.custody.writePart x part, cw := (s.dev.writeComplete true).cw, mp := (s.dev.writeComplete true).mp } =
        s.dev.writeComplete true := by
    rw [← hserved]
    rfl
  have hcw : (s.dev.writeComplete true).cw.write = none ∧ (s.dev.writeComplete true).cw.mode = s.dev.cw.mode ∧
      (s.dev.writeComplete true).cw.releases = s.dev.cw.releases ∧
      (s.dev.writeComplete true).cw.queue = s.dev.cw.queue.map (Device.partSet id q) := by
    rw [← hserved]
    exact ⟨rfl, rfl, rfl, rfl⟩
  obtain ⟨hwrite, hmode, hreleases, hqueue⟩ := hcw
  have hready : (s.dev.writeComplete true).boot = .ready := by rw [← hrest]; exact hboot
  obtain ⟨u, hu, hpending, hdev⟩ := next_dev (exec_custodyWriteComplete hready)
  refine ⟨u, hu, hpending, ?_⟩
  generalize s.dev.writeComplete true = f at hentry hnext hrest hwrite hmode hreleases hqueue hready hdev
  have hcustody : f.custody = s.dev.custody.writePart x part := by rw [← hrest]
  have hframe := f.windUp_rest
  obtain ⟨hkept, hwrites⟩ := Device.windUp_entry hentry hs rfl hnext
  rw [hdev, settle_windsUp hd (.of_rest (by rw [← hrest]))]
  refine ⟨?_, hkept, fun hm hr hhead => ?_, ?_, ?_, ?_⟩
  · rw [← hframe]
    exact hcustody
  · have hnow : f.cw.queue.head? = some { e with body := .barrier { x with part := q } } := by
      rw [hqueue, List.head?_map, hhead, Option.map_some, Device.partSet_barrier hid hx]
    rw [hwrites hready hwrite (hmode ▸ hm) (hreleases.trans hr) hnow]
    exact congrArg (fun i => some (Write.mk (.barrier i q) 1)) hid
  all_goals rw [← hframe, ← hrest]

/-! ### A part failed twice (R115, R119, R134) -/

namespace Device

theorem headBarrier_slot (d : Device) (b : BayId) (k : SlotId) (i : NoteImage) (j : SlotId) : (d.headBarrier b k i).slot j = d.slot j := rfl
theorem headBarrier_noteBay (d : Device) (b : BayId) (k : SlotId) (i : NoteImage) (y : BayId) :
    (d.headBarrier b k i).noteBay y = d.noteBay y := rfl

theorem requeued_slot (d : Device) (b : BayId) {k f : SlotId} (i : NoteImage) (h : f ≠ k) :
    (d.requeued b k f i).slot k = .bad ∧ (d.requeued b k f i).slot f = .reserved b false ∧
    ∀ j, j ≠ f → j ≠ k → (d.requeued b k f i).slot j = d.slot j := by
  have hslots : ∀ j, (d.requeued b k f i).slot j = if j = f then .reserved b false else if j = k then .bad else d.slot j := fun j => by
    rw [requeued, headBarrier_slot, setSlot_slot, setSlot_slot, onNoteBay_slot]
  refine ⟨?_, ?_, fun j hf hk => ?_⟩
  · rw [hslots, if_neg h.symm, if_pos rfl]
  · rw [hslots, if_pos rfl]
  · rw [hslots, if_neg hf, if_neg hk]

theorem requeued_held (d : Device) (b : BayId) (k f : SlotId) (i : NoteImage) : ((d.requeued b k f i).noteBay b).held = some i := by
  rw [requeued, headBarrier_noteBay, setSlot_noteBay, setSlot_noteBay, onNoteBay_noteBay_same]

/-- R113: the barrier queued again is an entry of its own. -/
theorem requeued_queue (d : Device) (b : BayId) (k f : SlotId) (i : NoteImage) : (d.requeued b k f i).Queues b f i ∧
    ∀ y ∈ (d.requeued b k f i).cw.queue, y ∈ d.cw.queue ∨ y.id = d.cw.nextId := by
  have hqueue : (d.requeued b k f i).cw.queue = d.cw.queue.takeWhile (fun e => e.started) ++
      [⟨d.cw.nextId, .barrier ⟨b, f, i, none, .body⟩, false⟩] ++ d.cw.queue.dropWhile (fun e => e.started) := rfl
  rw [Queues, hqueue]
  refine ⟨⟨_, List.mem_append_left _ (List.mem_append_right _ List.mem_cons_self), _, rfl, rfl, rfl, rfl⟩, fun y hy => ?_⟩
  rcases List.mem_append.mp hy with hy | hy
  · rcases List.mem_append.mp hy with hy | hy
    · exact .inl ((List.takeWhile_prefix _).subset hy)
    · exact .inr (by rw [List.mem_singleton.mp hy])
  · exact .inl ((List.dropWhile_suffix _).subset hy)

theorem stalledOn_leaves (d : Device) (b : BayId) (k : SlotId) (i : NoteImage) :
    (d.stalledOn b k i).slot k = .reserved b true ∧ (∀ j, j ≠ k → (d.stalledOn b k i).slot j = d.slot j) ∧
    (d.stalledOn b k i).noteBay b = { d.noteBay b with held := some i, stall := some d.nu.stallSeq } ∧
    (d.stalledOn b k i).cw = d.cw := by
  have hcounted : ∀ e : Device, (∀ j, (e.onNu fun u => { u with stallSeq := u.stallSeq + 1 }).slot j = e.slot j) ∧
      (e.onNu fun u => { u with stallSeq := u.stallSeq + 1 }).noteBay b = e.noteBay b ∧
      (e.onNu fun u => { u with stallSeq := u.stallSeq + 1 }).cw = e.cw := fun _ => ⟨fun _ => rfl, rfl, rfl⟩
  have hslots : ∀ j, (d.stalledOn b k i).slot j = if j = k then .reserved b true else d.slot j := fun j => by
    rw [stalledOn, (hcounted _).1, onNoteBay_slot, setSlot_slot, onNoteBay_slot]
  refine ⟨by rw [hslots, if_pos rfl], fun j hj => by rw [hslots, if_neg hj], ?_, ?_⟩
  · rw [stalledOn, (hcounted _).2.1, onNoteBay_noteBay_same, setSlot_noteBay, onNoteBay_noteBay_same]
  · rw [stalledOn, (hcounted _).2.2, onNoteBay_cw, setSlot_cw, onNoteBay_cw]

theorem unqueued_queue (d : Device) (id : Nat) : ∀ y ∈ (d.unqueued id).cw.queue, y.id ≠ id := fun _ hy =>
  bne_iff_ne.mp (List.mem_filter.mp hy).2

section GivenUp
variable {d : Device} {id : Nat} {x : Barrier}

/-- R134: with a slot FREE the failed slot is BAD and the barrier is queued again with that slot. -/
theorem partGivenUp_free {f : SlotId} (h : d.freeSlot = some f) (hne : f ≠ x.slot) :
    (d.partGivenUp id x).slot x.slot = .bad ∧ (d.partGivenUp id x).slot f = .reserved x.bay false ∧
    (∀ k, k ≠ f → k ≠ x.slot → (d.partGivenUp id x).slot k = d.slot k) ∧ (d.partGivenUp id x).Queues x.bay f x.image := by
  obtain ⟨hbad, hreserved, hothers⟩ := (d.unqueued id).requeued_slot x.bay x.image hne
  have hqueue := ((d.unqueued id).requeued_queue x.bay x.slot f x.image).1
  rw [partGivenUp, commitFailed_free (d := d.unqueued id) h]
  generalize (d.unqueued id).requeued x.bay x.slot f x.image = e at hbad hreserved hothers hqueue
  exact ⟨hbad, hreserved, hothers, hqueue⟩

/-- R134: with none the bay keeps the failed slot, stalled, which is reported. -/
theorem partGivenUp_stalls (h : d.freeSlot = none) :
    (d.partGivenUp id x).slot x.slot = .reserved x.bay true ∧ (∀ k, k ≠ x.slot → (d.partGivenUp id x).slot k = d.slot k) ∧
    ((d.partGivenUp id x).noteBay x.bay).stall = some d.nu.stallSeq ∧
    ∃ y ∈ (d.partGivenUp id x).mp.notices, y.obj = .bay x.bay ∧ y.event = 16 := by
  obtain ⟨hslot, hothers, hnote, -⟩ := (d.unqueued id).stalledOn_leaves x.bay x.slot x.image
  rw [partGivenUp, commitFailed_none (d := d.unqueued id) h]
  generalize (d.unqueued id).stalledOn x.bay x.slot x.image = f at hslot hothers hnote
  refine ⟨hslot, hothers, congrArg NoteBay.stall hnote, ?_⟩
  exact mem_noticeQueue ⟨.bay, .bay x.bay, 16, bayFields f x.bay ++ [octets 1 x.slot.val], 0⟩ f.mp.notices

/-- R115, R119: the barrier is not in the queue, its image is held, and the failure is counted. -/
theorem partGivenUp_leaves (hid : id < d.cw.nextId) :
    ((d.partGivenUp id x).noteBay x.bay).held = some x.image ∧ (∀ n ∈ (d.partGivenUp id x).cw.queue.map QEntry.id, n ≠ id) ∧
    id < (d.partGivenUp id x).cw.nextId ∧ (d.partGivenUp id x).cw.failures = min 65535 (d.cw.failures + 1) := by
  have hdropped := d.unqueued_queue id
  rw [partGivenUp]
  cases h : d.freeSlot with
  | some f =>
    obtain ⟨-, hqueue⟩ := (d.unqueued id).requeued_queue x.bay x.slot f x.image
    have hheld := (d.unqueued id).requeued_held x.bay x.slot f x.image
    have hcw : id < ((d.unqueued id).requeued x.bay x.slot f x.image).cw.nextId ∧
        ((d.unqueued id).requeued x.bay x.slot f x.image).cw.failures = min 65535 (d.cw.failures + 1) :=
      ⟨hid.trans (Nat.lt_succ_self _), rfl⟩
    rw [commitFailed_free (d := d.unqueued id) h]
    generalize (d.unqueued id).requeued x.bay x.slot f x.image = e at hqueue hheld hcw
    refine ⟨hheld, fun n hn => ?_, hcw⟩
    obtain ⟨y, hy, rfl⟩ := List.mem_map.mp hn
    exact (hqueue y hy).elim (hdropped y) fun hnew => hnew ▸ Nat.ne_of_gt hid
  | none =>
    obtain ⟨-, -, hnote, hcw⟩ := (d.unqueued id).stalledOn_leaves x.bay x.slot x.image
    have hfailures : (d.unqueued id).cw.failures = min 65535 (d.cw.failures + 1) := rfl
    have hnext : (d.unqueued id).cw.nextId = d.cw.nextId := rfl
    rw [commitFailed_none (d := d.unqueued id) h]
    generalize (d.unqueued id).stalledOn x.bay x.slot x.image = f at hnote hcw
    refine ⟨congrArg NoteBay.held hnote, fun n hn => ?_, ?_, (congrArg Cw.failures hcw).trans hfailures⟩
    · obtain ⟨y, hy, rfl⟩ := List.mem_map.mp hn
      exact hdropped y (hcw ▸ hy)
    · show id < f.cw.nextId
      rw [hcw, hnext]
      exact hid

end GivenUp

end Device

/-- R115, R119, R134: a part that fails for the second time. -/
theorem partFailed {s : State} {e : QEntry} {id : Nat} {x : Barrier} {part : BarrierPart} (hboot : s.dev.boot = .ready)
    (hd : s.dev.settled = true) (hsound : s.dev.queueSound) (hw : s.dev.cw.write = some ⟨.barrier id part, 2⟩)
    (he : s.dev.cw.entry id = some e) (hx : e.body = .barrier x) :
    ∃ u : State, exec (.custodyWriteComplete false) s = .next u ∧ u.pending = s.pending ∧
      u.dev.custody = s.dev.custody ∧ u.dev.bays = s.dev.bays ∧ u.dev.nu = (s.dev.partGivenUp id x).nu ∧
      u.dev.cw.failures = min 65535 (s.dev.cw.failures + 1) ∧ (∀ y ∈ u.dev.cw.queue, y.id ≠ id) ∧
      (∀ b k i, (s.dev.partGivenUp id x).Queues b k i → u.dev.Queues b k i) ∧
      ∀ y ∈ (s.dev.partGivenUp id x).mp.notices, y.obj ≠ .rack → y ∈ u.dev.mp.notices := by
  obtain ⟨hmem, hid⟩ := Device.entry_mem he
  obtain ⟨-, -, hbelow⟩ := hsound
  have hserved := Device.writeComplete_givesUp hboot hw rfl he hx (Nat.succ_succ_ne_one 0)
  obtain ⟨-, hqueue, hnext, hfailures⟩ := Device.partGivenUp_leaves (d := s.dev) (x := x) (hid ▸ hbelow e hmem)
  have honly := s.dev.partGivenUp_notesOnly id x
  generalize s.dev.partGivenUp id x = t at hserved hqueue hnext hfailures honly ⊢
  have hrest : { s.dev with nu := t.nu, cw := (s.dev.writeComplete false).cw, mp := (s.dev.writeComplete false).mp } =
      s.dev.writeComplete false := by
    rw [← hserved, ← honly]
  have hready : (s.dev.writeComplete false).boot = .ready := by rw [← hrest]; exact hboot
  have hproceeds := (Device.Proceeds.of_served hserved).trans (settle_proceeds s.dev (s.dev.writeComplete false))
  obtain ⟨u, hu, hpending, hdev⟩ := next_dev (exec_custodyWriteComplete hready)
  rw [settle_windsUp hd (.of_rest (by rw [← hrest]))] at hdev hproceeds
  refine ⟨u, hu, hpending, ?_⟩
  rw [hdev]
  generalize s.dev.writeComplete false = f at hserved hrest hproceeds
  have hframe := f.windUp_rest
  refine ⟨by rw [← hframe, ← hrest], by rw [← hframe, ← hrest], by rw [← hframe, ← hrest], hproceeds.failures.trans hfailures,
    fun y hy hyid => ?_, fun b k i h => Device.windUp_keepsBarriers ?_, fun y hy ho => Device.windUp_notices ?_ ho⟩
  · exact (hproceeds.ids y.id (List.mem_map_of_mem hy)).elim (fun hold => hqueue _ hold hyid) fun hnew =>
      absurd (hyid ▸ hnew) (Nat.not_le.mpr hnext)
  · rw [← hserved]
    exact h
  · rw [← hserved]
    exact hy

/-- Settles O40: the mark, then the body and the check, then a part that fails twice, with a slot FREE and with none. -/
theorem barrierWritesByPart : Obligations.BarrierWritesByPart := by
  refine ⟨fun s w e id n x hboot hw hj he hx hn => ?_, fun s id n k e x part hboot hd hsound hw he hx hn hpart hs => ?_,
    fun s id e x part hboot hd hsound hw he hx => ?_⟩
  · obtain ⟨u, hu, hpending, hcustody, hleft⟩ := markWritten hboot hw hj he hx hn
    obtain ⟨hcommit, hrelease, hok, hbody, hnext, htotals, hslots⟩ := s.dev.custody.writePart_mark hn
    refine ⟨u, hu, hpending, ?_⟩
    rw [hcustody]
    exact ⟨hcommit, hrelease, hok, hbody, hnext, htotals, hslots, hleft⟩
  · have hnumber : x.number.getD 0 = n := by rw [hn]; rfl
    cases part with
    | body =>
      obtain ⟨u, hu, hpending, hcustody, hleft⟩ := partWritten_continues hboot hd hsound hw he hx hs (part := .body) rfl
      refine ⟨u, hu, hpending, fun _ => ?_, nofun, hleft⟩
      rw [hcustody, ← hnumber]
      rfl
    | check =>
      obtain ⟨u, hu, hpending, hcustody, hleft⟩ := partWritten_continues hboot hd hsound hw he hx hs (part := .check) rfl
      refine ⟨u, hu, hpending, nofun, fun _ => ?_, hleft⟩
      rw [hcustody, ← hnumber]
      rfl
    | mark => exact absurd rfl hpart
  · obtain ⟨hmem, hid⟩ := Device.entry_mem he
    obtain ⟨u, hu, hpending, hcustody, hbays, hnu, hfailures, hgone, hqueues, hnotices⟩ := partFailed hboot hd hsound hw he hx
    obtain ⟨hheld, -⟩ := Device.partGivenUp_leaves (d := s.dev) (x := x) (hid ▸ hsound.2.2 e hmem)
    have hslot : ∀ k, u.dev.slot k = (s.dev.partGivenUp id x).slot k := fun k => by rw [Device.slot, hnu]; rfl
    have hnote : u.dev.noteBay x.bay = (s.dev.partGivenUp id x).noteBay x.bay := by rw [Device.noteBay, hnu]; rfl
    refine ⟨u, hu, hpending, hcustody, hfailures, hgone, by rw [hnote]; exact hheld, hbays, fun f hf hne => ?_, fun hf => ?_⟩
    · obtain ⟨hbad, hreserved, hothers, hqueued⟩ := Device.partGivenUp_free (id := id) hf hne
      obtain ⟨y, hy, z, hz, hzbay, hzslot, hzimage⟩ := hqueues _ _ _ hqueued
      simp only [hslot]
      exact ⟨hbad, hreserved, hothers, y, hy, z, hz, hzbay, hzslot, hzimage⟩
    · obtain ⟨hkept, hothers, hstall, y, hy, hobj, hevent⟩ := Device.partGivenUp_stalls (id := id) (x := x) hf
      simp only [hslot, hnote]
      exact ⟨hkept, hothers, hstall, y, hnotices y hy (by rw [hobj]; exact nofun), hobj, hevent⟩

end Sys2Proof.Machine
end
